-- ==== Sys2Proof/Word.lean ====
section
/-! DEFINITION. The word types of the ZHV-Z8 and their plainest arithmetic.

All multi-byte values are little-endian (R4). A scalar register is 64 bits (R63), an instruction word 32 bits (R81). -/

namespace Sys2Proof

/-- A 64-bit value: a scalar register, a control register, an address as software computes it (R63, R177). -/
abbrev Word := BitVec 64

/-- One instruction word (R81). -/
abbrev IWord := BitVec 32

/-- One byte of memory. -/
abbrev Byte := BitVec 8

/-- Bits `lo + n - 1` down to `lo` of a number. -/
def fld (w lo n : Nat) : Nat := w / 2 ^ lo % 2 ^ n

/-- One bit of a number as a truth value. -/
def bitOf (w i : Nat) : Bool := w / 2 ^ i % 2 == 1

/-- A truth value as 0 or 1. -/
def b2n (b : Bool) : Nat := if b then 1 else 0

/-- The `n`-bit number `v` read as two's complement. -/
def sInt (n v : Nat) : Int := if v % 2 ^ n < 2 ^ (n - 1) then (v % 2 ^ n : Nat) else (v % 2 ^ n : Nat) - (2 ^ n : Nat)

/-- An integer wrapped to `n` bits, as a number. -/
def wrapN (n : Nat) (i : Int) : Nat := (i % (2 ^ n : Nat)).toNat

/-- A number as a 64-bit word, wrapping. -/
def wd (n : Nat) : Word := BitVec.ofNat 64 n

/-- Rounding a quotient up. -/
def ceilDiv (a b : Nat) : Nat := (a + b - 1) / b

end Sys2Proof
end

