-- ==== Sys2Proof/Config.lean ====
section
/-! DEFINITION. What an implementation of the ZHV-Z8 fixes, and the free values: what the spec leaves open.

Every `opaque` constant here has no body, so no proof can learn what it is; a claim about it holds for every value of it. The
number it is applied to is the counter `fresh` of the state, or the operands it depends on. -/

namespace Sys2Proof.Config

/-! ### The Z8 part (R5, R9, R11, R103) -/

/-- Dies of kind code `k` on a Z8 part: 8 MXD, 4 VND, 8 BFD, 4 GTD, 4 SWD, 1 IOD, 1 TRD (R8, R432). -/
def dieCount : Nat → Nat
  | 0 => 8 | 1 => 4 | 2 => 8 | 3 => 4 | 4 => 4 | 5 => 1 | 6 => 1 | _ => 0

/-- Clusters of a die of kind code `k` (R9). -/
def clusterCount : Nat → Nat
  | 0 => 8 | 1 => 12 | 2 => 4 | 3 => 4 | 4 => 1 | _ => 0

/-- The Z8 native latency of each class (R103). -/
def nativeLat : Nat → Nat
  | 0 => 1 | 1 => 3 | 2 => 18 | 3 => 6 | 4 => 40 | 5 => 2 | 6 => 4 | 7 => 6 | 8 => 3 | 9 => 0 | 10 => 14 | 11 => 8
  | 12 => 1 | 13 => 12 | 14 => 32 | 15 => 15 | _ => 0

/-- Ticks of package time in one nanosecond. A tick is 1/84 ns: a fixed-timing cycle of 1.75 GHz is 48 ticks, an elastic
cycle of 2.10 GHz 40 ticks, a wheel position of 0.25 ns 21 ticks (R354, R355, R264). DESIGN CHOICE: log 5. -/
def tick : Nat := 84
/-- Ticks of a fixed-timing cycle (R355). -/
def fixedPeriod : Nat := 48
/-- Ticks of an elastic cycle on the high rail (R354). -/
def elasticPeriod : Nat := 40
/-- Ticks of an elastic cycle on the low rail: at most 1.15 GHz (R354), 84/1.15 rounded up. DESIGN CHOICE: log 5. -/
def lowPeriod : Nat := 74
/-- Entries of a store buffer (R460). -/
def sbDepth : Nat := 32
/-- The default power cap in mW (R365). -/
def pcapReset : Nat := 3600000

/-! ### Free values (log 9) -/

/-- A reply, delivery or service time that the spec bounds but does not fix, in ticks: applied to the counter `fresh`. -/
opaque delayTicks : Nat → Nat
/-- The completion timeout that the host programs in Device Control 2 (R279), in ticks. -/
opaque completionTicks : Nat
/-- An opaque 64-bit value drawn by the device: an FTC nonce (R410), a value the spec does not state. -/
opaque freeWord : Nat → Word
/-- A byte of a line whose owner changed and that the new owner has not written, by the number of the change (R395). -/
opaque garbledByte : Nat → Nat → Byte
/-- Boot values of a cluster, by its number: static estimate (R361), hot threshold (R357), temperature (R357). -/
opaque sest : Nat → BitVec 32
opaque thot : Nat → BitVec 12
opaque tempAt : Nat → BitVec 12
/-- Package power and idle floor as measured (R365). -/
opaque idlePower : Nat → BitVec 32
/-- Digests, certificates and signatures of the trust die (R390 to R394): opaque functions of what they are made from. -/
opaque digest : Nat → BitVec 384
opaque certChain : Nat → List Byte
opaque signature : List Nat → BitVec 768
/-- A numeric result the spec does not state, applied to the operation's number and its operands. -/
opaque unstated : Nat → Nat → Nat

end Sys2Proof.Config
end

