-- ==== Sys2Proof/Syntax.lean ====
section
/-! DEFINITION. The instructions of the ZHV-Z8, one constructor of `Instr` per row of the opcode table.

Rows 0 to 209 are instruction words; the rest are the events of the machine (a host access, an admin command, a timer, a
reply): each is a step of its own. What an event acts on (a queue, a stream, a result in flight, the words of a packet) stands in
the state's field `ev`, as which stream executes a word stands in its field `cur` (log 4). -/

namespace Sys2Proof

/-- Die kinds (R9). -/
inductive DieKind where
  | mxd | vnd | bfd | gtd | swd | iod | trd
  deriving DecidableEq, Repr

/-- Code of a die kind (R9). -/
def DieKind.code : DieKind → Nat
  | .mxd => 0 | .vnd => 1 | .bfd => 2 | .gtd => 3 | .swd => 4 | .iod => 5 | .trd => 6

/-- Stream classes (R42). -/
inductive Cls where
  | scalar | vector | matrix | ldst | gather | strip
  deriving DecidableEq, Repr

/-- Code of a stream class (R42). -/
def Cls.code : Cls → Nat
  | .scalar => 0 | .vector => 1 | .matrix => 2 | .ldst => 3 | .gather => 4 | .strip => 5

/-- The stream class of a code; codes 6 to 15 are not used (R42). -/
def Cls.ofCode : Nat → Option Cls
  | 0 => some .scalar | 1 => some .vector | 2 => some .matrix | 3 => some .ldst | 4 => some .gather | 5 => some .strip
  | _ => none

/-- Branch and compare conditions; code 7 is ILLEGAL_FIELD (R85). -/
inductive Cond where
  | eq | ne | lt | ge | ltn | gen | al
  deriving DecidableEq, Repr

/-- Code of a condition (R85). -/
def Cond.code : Cond → Nat
  | .eq => 0 | .ne => 1 | .lt => 2 | .ge => 3 | .ltn => 4 | .gen => 5 | .al => 6

/-- The condition of a code (R85). -/
def Cond.ofCode : Nat → Option Cond
  | 0 => some .eq | 1 => some .ne | 2 => some .lt | 3 => some .ge | 4 => some .ltn | 5 => some .gen | 6 => some .al
  | _ => none

/-- Access widths of a scalar load or store; code 7 is ILLEGAL_FIELD (R88). -/
inductive Width where
  | n8 | s8 | n16 | s16 | n32 | s32 | d64
  deriving DecidableEq, Repr

/-- Code of an access width (R88). -/
def Width.code : Width → Nat
  | .n8 => 0 | .s8 => 1 | .n16 => 2 | .s16 => 3 | .n32 => 4 | .s32 => 5 | .d64 => 6

/-- The access width of a code (R88). -/
def Width.ofCode : Nat → Option Width
  | 0 => some .n8 | 1 => some .s8 | 2 => some .n16 | 3 => some .s16 | 4 => some .n32 | 5 => some .s32 | 6 => some .d64
  | _ => none

/-- Bytes of an access width. -/
def Width.bytes : Width → Nat
  | .n8 | .s8 => 1 | .n16 | .s16 => 2 | .n32 | .s32 => 4 | .d64 => 8

/-- Atomic operations (R87). -/
inductive AOp where
  | add | and | or | xor | min | max | minn | maxn | swap | cas
  deriving DecidableEq, Repr

/-- Code of an atomic operation (R87). -/
def AOp.code : AOp → Nat
  | .add => 0 | .and => 1 | .or => 2 | .xor => 3 | .min => 4 | .max => 5 | .minn => 6 | .maxn => 7 | .swap => 8 | .cas => 9

/-- The atomic operation of a code (R87). -/
def AOp.ofCode : Nat → Option AOp
  | 0 => some .add | 1 => some .and | 2 => some .or | 3 => some .xor | 4 => some .min | 5 => some .max | 6 => some .minn
  | 7 => some .maxn | 8 => some .swap | 9 => some .cas | _ => none

/-- Fence scopes (R87, R256). -/
inductive Scope where
  | cluster | die | package | system
  deriving DecidableEq, Repr

/-- Code of a scope (R87). -/
def Scope.code : Scope → Nat
  | .cluster => 0 | .die => 1 | .package => 2 | .system => 3

/-- The scope of a two-bit code (R87). -/
def Scope.ofCode : Nat → Scope
  | 0 => .cluster | 1 => .die | 2 => .package | _ => .system

/-- Phaser modes; code 3 is ILLEGAL_FIELD (R87, R297). -/
inductive PhMode where
  | so | wo | sw
  deriving DecidableEq, Repr

/-- Code of a phaser mode (R87). -/
def PhMode.code : PhMode → Nat
  | .so => 0 | .wo => 1 | .sw => 2

/-- The phaser mode of a code (R87). -/
def PhMode.ofCode : Nat → Option PhMode
  | 0 => some .so | 1 => some .wo | 2 => some .sw | _ => none

/-- A scalar register number. -/
abbrev R := BitVec 5
/-- A seven-bit operand field of a micro-order (R89, R90). -/
abbrev F7 := BitVec 7

/-- Token and speculation fields of a long micro-order (R92). -/
structure Tok where
  we : Bool := false
  wfifo : BitVec 5 := 0
  se : Bool := false
  sfifo : BitVec 5 := 0
  pe : Bool := false
  ptag : BitVec 2 := 0
  deriving DecidableEq, Repr

/-- What a long form adds to a micro-order: the fourth operand field, type, mask, rounding and tokens (R92, R95). -/
structure Tail where
  srcC : F7 := 0
  type : BitVec 5 := 0
  mask : BitVec 3 := 0
  rnd : BitVec 3 := 0
  tok : Tok := {}
  deriving DecidableEq, Repr

/-- A micro-order's operands. `long` is absent for a native word (R89). The memory layout of R95 stands in the same fields:
register in `dest`, index in `srcA`, base and displacement in the fourteen bits of `srcB` and `srcC`. -/
structure Micro where
  delay : BitVec 4
  dest : F7
  srcA : F7
  srcB : F7
  long : Option Tail := none
  deriving DecidableEq, Repr

/-- The instructions and events of the ZHV-Z8, one constructor per row of the opcode table. The operands of an event stand in
the state (`Mach.ev`). -/
inductive Instr where
  -- scalar ALU group (R171)
  | add (d a b : R) | sub (d a b : R) | and (d a b : R) | or (d a b : R) | xor (d a b : R) | andn (d a b : R)
  | shl (d a b : R) | shr (d a b : R) | sar (d a b : R) | min (d a b : R) | max (d a b : R) | minn (d a b : R)
  | maxn (d a b : R) | sel (d a b : R) | clz (d a : R) | popc (d a : R) | cmpCc (cc : Cond) (d a b : R)
  -- multiply-divide group (R172)
  | mul (d a b : R) | mulh (d a b : R) | mulhn (d a b : R) | div (d a b : R) | divn (d a b : R) | rem (d a b : R)
  | remn (d a b : R)
  -- immediate forms (R174, R175)
  | addi (d a : R) (i : BitVec 15) | andi (d a : R) (i : BitVec 15) | ori (d a : R) (i : BitVec 15)
  | xori (d a : R) (i : BitVec 15) | shli (d a : R) (i : BitVec 15) | shri (d a : R) (i : BitVec 15)
  | sari (d a : R) (i : BitVec 15) | movi (d : R) (i : BitVec 20) | movh (d : R) (i : BitVec 20)
  -- loads, stores, control registers (R88)
  | ld (w : Width) (d a : R) (off : BitVec 12) | ldAcq (w : Width) (d a : R) (off : BitVec 12)
  | st (w : Width) (d a : R) (off : BitVec 12) | stRel (w : Width) (d a : R) (off : BitVec 12)
  | mfc (d : R) (c : BitVec 15) | mtc (c : BitVec 15) (a : R)
  -- atomics (R281, R288)
  | amo (op : AOp) (w64 : Bool) (d a b : R) | red (op : AOp) (w64 : Bool) (a b : R) | scLd (w64 : Bool) (d a : R)
  | scSt (w64 : Bool) (a b : R) | scAmo (op : AOp) (w64 : Bool) (d a b : R)
  -- fences, regions, phasers (R292 to R302)
  | fence (z : Scope) | publ (a : R) | pubreg (d a b : R) | phreg (m : PhMode) (d a : R) | phdrop (a : R)
  | phdropProxy (d a b : R) | phsig (a : R) | phwait (d a : R) | phsw (d a : R) | phsigp (d a b : R) | phq (d a : R)
  -- copies (R304 to R311)
  | cpy (d a b : R) | cpy2d (d a : R) | cpyprom (d a : R) | gemb (d a : R)
  -- system group
  | nop | halt | cyc (d : R) | ptime (d : R) | waitt (a : R) | trap (code : BitVec 5) | tfence | yield
  -- jobs and streams (R335 to R339)
  | fork (d a b : R) | rdv | tstart (d a b : R) | tstop (d a : R) | trebase (d a b : R) | tstat (d a : R) | tokset (a b : R)
  -- basket (R333)
  | lpatch (d a b : R) | larm (d a : R) | lstat (d a : R)
  -- dictionary (R116)
  | dld (k : Cls) (bank : BitVec 2) (d a b : R) | dsw (k : Cls) (bank : BitVec 2) | dfence
  | drd (k : Cls) (bank : BitVec 2) (d a b : R) | dinv (k : Cls) (bank : BitVec 2) (a : R)
  -- frozen-state instructions (R415)
  | frd (d a b : R) | frdv (d a b : R) | fwr (d a b : R) | fwrv (d a b : R) | ftab (d a b : R) | fstat (d a b : R)
  | fresume (b : R) | fstep (d a b : R) | fkill (b : R)
  -- branches and jumps (R325, R326)
  | brCc (cc : Cond) (a b : R) (off : BitVec 11) | brCcNn (cc : Cond) (a b : R) (off : BitVec 11)
  | brCcNt (cc : Cond) (a b : R) (off : BitVec 11) | j (off : BitVec 25) | jl (off : BitVec 25) | jr (a : R) | jlr (d a : R)
  -- long forms and dictionary words (R91 to R96, R111)
  | scalarLongForm (form : BitVec 64) | dictionaryWord (e : BitVec 8) (h : BitVec 23)
  | engineLongForm (delay : BitVec 4) (form : BitVec 64)
  -- vector column (R97)
  | vmov (m : Micro) | vmovi (m : Micro) | vmvs (m : Micro) | vadd (m : Micro) | vsub (m : Micro) | vadds (m : Micro)
  | vsubs (m : Micro) | vmul (m : Micro) | vmulh (m : Micro) | vmulw (m : Micro) | vmac (m : Micro) | vand (m : Micro)
  | vor (m : Micro) | vxor (m : Micro) | vandn (m : Micro) | vshl (m : Micro) | vshr (m : Micro) | vsar (m : Micro)
  | vmin (m : Micro) | vmax (m : Micro) | vabs (m : Micro) | vneg (m : Micro) | vclz (m : Micro) | vpopc (m : Micro)
  | vcmp (m : Micro) | vsel (m : Micro) | mop (m : Micro) | mpopc (m : Micro) | mfirst (m : Micro) | vfadd (m : Micro)
  | vfsub (m : Micro) | vfmul (m : Micro) | vfma (m : Micro) | vfms (m : Micro) | vfnma (m : Micro) | vfmin (m : Micro)
  | vfmax (m : Micro) | vfabs (m : Micro) | vfneg (m : Micro) | vfcmp (m : Micro) | vrcp (m : Micro) | vrsq (m : Micro)
  | vsqrt (m : Micro) | vexp2 (m : Micro) | vlog2 (m : Micro) | vtanh (m : Micro) | vcvt (m : Micro) | vpack (m : Micro)
  | vunpk (m : Micro) | vredadd (m : Micro) | vredmax (m : Micro) | vredmin (m : Micro) | vscan (m : Micro)
  | vperm (m : Micro) | vshuf (m : Micro) | vslide (m : Micro) | vbcast (m : Micro) | vext (m : Micro) | vins (m : Micro)
  | vcompress (m : Micro) | vexpand (m : Micro) | vld (m : Micro) | vst (m : Micro) | vlds (m : Micro) | vgath (m : Micro)
  | vscat (m : Micro) | vcvtSr (m : Micro) | vmoment (m : Micro) | vnormapply (m : Micro) | vplane (m : Micro)
  -- matrix core (R98); TCFG alone has its own layout (R95)
  | tzero (m : Micro) | lease (m : Micro) | lrel (m : Micro) | mma (m : Micro) | mmas (m : Micro) | bopen (m : Micro)
  | bopenS (m : Micro) | cbatch (m : Micro) | wbatch (m : Micro) | commit (m : Micro) | discard (m : Micro) | accz (m : Micro)
  | tcfg (delay : BitVec 4) (tile : F7) (cfg : BitVec 25) (tok : Tok) | tld (m : Micro) | tst (m : Micro) | accrd (m : Micro)
  | accrdIn (m : Micro)
  -- gather, load/store, strip (R99)
  | gset (m : Micro) | gb (m : Micro) | lsLd (m : Micro) | lsLdAcq (m : Micro) | lsSt (m : Micro) | lsStRel (m : Micro)
  | lsRed (m : Micro) | lsPubl (m : Micro) | rdc (m : Micro) | flt (m : Micro) | mcast (m : Micro) | pass (m : Micro)
  | idle (m : Micro) | rtadv (m : Micro)
  -- capability instructions of the command complex (R387)
  | kskip (b a d : R) | ktrim (b a d : R) | kdrop (b a d : R) | kstamp (b a d : R) | kfld (b a d : R) | kinfo (sl a d : R)
  | ktake (b a d : R) | kgive (b a d : R)
  -- an unlisted word (R86)
  | illegalOp (w : IWord)
  -- host register accesses and the dispatcher (R343 to R346, R425, R6, R330)
  | qtailDoorbell | qctlWrite | cheadWrite | evheadWrite | registerWrite | packetRead | launchDispatch
  -- admin commands (R347)
  | ctxCreate | ctxTeardown | rcbUpdate | basketSize | basketPut | basketDel | energySet | powerCap | queueReset
  | ifst | xinval | rangerSet | hamperSet | partSwap
  -- mailbox atomics (R291)
  | abxAdd | abxAnd | abxOr | abxXor | abxMin | abxMax | abxMinn | abxMaxn | abxSwap | abxCas
  -- ranger invalidations and the reduction-fault log (R382, R285)
  | xinvPage | xinvContext | rfstatPendClear
  -- host memory accesses, interrupts, fabric manager (R384, R374, R358, R372)
  | atomicopFetchadd | atomicopSwap | atomicopCas | hdmRead | hdmWrite | msixUnmask | fmLdInfo | fmLdAllocation
  -- SPDM (R392)
  | getVersion | getCapabilities | negotiateAlgorithms | getDigests | getCertificate | challenge | getMeasurements
  | keyExchange | finish | heartbeat | keyUpdate | endSession | spdmOtherRequest
  -- boot and headcount (R390, R19)
  | powerGood | dieBootStep | reconfiguration
  -- jobs (R48, R49, R41, R39, R461, R342)
  | diePrime | jobStart | streamDone | rendezvousComplete | shareSwitch | shareSwitchEnd | haltStop
  -- results, tokens, store buffers (R105, R44, R253, R257)
  | resultWrite | tokenBeatArrival | storeBufferDrain | releaseComplete
  -- atomics in flight (R268 to R290)
  | atomicSlotServe | atomicUnitServe | atomicReply | scEffect | scPositionReached | seqAtomicResend | redFaultLog
  -- host data (R279, R117)
  | hostCompletion | completionTimeout | dldEntryArrival
  -- copies and retraining (R273, R307 to R312)
  | copyPacketWrite | copyComplete | promiseDue | waittWake | retrainingSchedule | retrainingPauseStart
  | retrainingPauseEnd | trainingError
  -- translation and regions (R377 to R383, R262, R293)
  | translationWalk | translationPauseStart | translationPauseEnd | invalidationForward | invalidationDieAck
  | invalidationComplete | publPublish | pubregComplete
  -- phasers (R296 to R299)
  | phaserSignalArrival | phaserReply | phwaitComplete
  -- matrix, gather and strip events (R220 to R247, R317)
  | leaseGrant | leaseEnd | mmaStepAccept | mmaStepWrite | batchCommit | tagResolve | tldRowWrite | gbLanding
  | landingCreditReturn | stripPacketDelivery
  -- freezing and rangers (R400 to R421, R425)
  | freezeBroadcastArrival | freezeRewind | rangerSpawn | poolReturn | rangerTimeout | resumeStart | eventPost
  | eventBackpressure
  -- scheduling, energy, power (R349 to R369)
  | slotBoundary | thermosSwapEnd | periodBoundary | foldArrival | staticCharge | energyGather | deadlineMiss
  | governorTick | thermalSample | hotRailStep | shedExpire | railSwitchDone | droop | clockRelockDone
  -- completions (R346, R358)
  | completionRecordWrite | coalesceTimer | completionRetryTimer | queueResetComplete
  -- spill, partition swap, self-test, links, capability accesses (R431 to R443, R386)
  | spill | spillComplete | restoreComplete | partSwapHalted | partSwapStart | pinRelease | ifstUnitComplete
  | linkBeatError | linkReplay | capAccess
  -- credits, host link, replies, droop (R45, R308, R333, R415, R354)
  | tokenCreditReturn | hostLinkRetrain | commandComplexReply | frozenStateReply | droopEnd
  deriving DecidableEq, Repr

end Sys2Proof
end

