-- ==== Sys2Proof/WellFormed.lean ====
section
/-! DEFINITION. Which instructions an encoding can carry: the operand limits of R84 to R95, checked field by field.

A decode fault of R100 step 3 is exactly a word whose fields break one of these limits. -/

namespace Sys2Proof

/-- What an operand field of a micro-order may hold (R90). -/
inductive Use where
  /-- the instruction does not use the field: it must be 0 -/
  | none
  /-- a vector register operand (R57) -/
  | vreg
  /-- a tile T0 to T15 -/
  | tile
  /-- an accumulator A0 to A3 -/
  | acc
  /-- a number from `lo` to `hi` -/
  | rng (lo hi : Nat)
  /-- a batch number in the upper four bits (R95) -/
  | batch
  /-- any value: part of an immediate, or checked by the meaning -/
  | any
  deriving DecidableEq, Repr

/-- Whether a field value is legal for its use (R57, R90). -/
def Use.ok : Use → F7 → Bool
  | .none, v => v == 0
  | .vreg, v => v.toNat == 0 || (8 ≤ v.toNat && v.toNat ≤ 15) || 64 ≤ v.toNat
  | .tile, v => 16 ≤ v.toNat && v.toNat ≤ 31
  | .acc, v => 32 ≤ v.toNat && v.toNat ≤ 35
  | .rng lo hi, v => lo ≤ v.toNat && v.toNat ≤ hi
  | .batch, v => v.toNat % 8 == 0
  | .any, _ => true

/-- The uses of the four operand fields of a micro-order. -/
structure Shape where
  d : Use := .none
  a : Use := .none
  b : Use := .none
  c : Use := .none
  deriving DecidableEq, Repr

/-- Token fields: a disabled field is 0 (R92). -/
def Tok.ok (t : Tok) : Bool :=
  (t.we || t.wfifo == 0) && (t.se || t.sfifo == 0) && (t.pe || t.ptag == 0)

/-- The tail of a long form: rounding 7 is illegal (R94), token fields as `Tok.ok`. -/
def Tail.ok (t : Tail) : Bool := t.rnd != 7 && t.tok.ok

/-- A micro-order fits a shape: `nat` for its native form, `lng` for its long form; a long-only instruction has no native
shape (R97). -/
def Micro.fits (m : Micro) (nat : Option Shape) (lng : Shape) : Bool :=
  match m.long with
  | Option.none => match nat with
    | some s => s.d.ok m.dest && s.a.ok m.srcA && s.b.ok m.srcB
    | Option.none => false
  | some t => lng.d.ok m.dest && lng.a.ok m.srcA && lng.b.ok m.srcB && lng.c.ok t.srcC && t.ok

/-- A vector instruction of one source register. -/
def shDA : Shape := { d := .vreg, a := .vreg }
/-- A vector instruction of two source registers. -/
def shDAB : Shape := { d := .vreg, a := .vreg, b := .vreg }
/-- A vector instruction of three source registers (long form). -/
def shDABC : Shape := { d := .vreg, a := .vreg, b := .vreg, c := .vreg }
/-- The memory layout with a vector register (R95). -/
def shMem (idx : Use) : Shape := { d := .vreg, a := idx, b := .any, c := .any }

/-- The well-formed instructions. Events carry data of their own and have no encoding; they are well-formed as they are. -/
def Instr.wf : Instr → Bool
  | .cmpCc cc _ a b | .brCc cc a b _ | .brCcNn cc a b _ | .brCcNt cc a b _ => cc != .al || (a == 0 && b == 0)
  | .red op _ _ _ => op != .swap && op != .cas
  | .phdropProxy _ _ b => b != 0
  | .vmov m | .vabs m | .vneg m | .vclz m | .vpopc m | .vfabs m | .vfneg m | .vrcp m | .vrsq m | .vsqrt m | .vexp2 m | .vlog2 m
  | .vtanh m | .vredadd m | .vredmax m | .vredmin m | .vscan m | .vbcast m | .vcompress m | .vexpand m => m.fits (some shDA) shDA
  | .vmovi m => m.fits (some { d := .vreg, a := .any, b := .any }) { d := .vreg, b := .any, c := .any }
  | .vmvs m => m.fits (some { d := .vreg, a := .rng 0 31 }) { d := .vreg, a := .rng 0 31 }
  | .vadd m | .vsub m | .vadds m | .vsubs m | .vmul m | .vmulh m | .vmulw m | .vand m | .vor m | .vxor m | .vandn m | .vshl m
  | .vshr m | .vsar m | .vmin m | .vmax m | .vfadd m | .vfsub m | .vfmul m | .vfmin m | .vfmax m | .vperm m =>
      m.fits (some shDAB) shDAB
  | .vmac m | .vsel m | .vfma m | .vfms m | .vfnma m | .vshuf m => m.fits (some shDAB) shDABC
  | .vcmp m | .vfcmp m =>
      m.fits (some { d := .rng 1 7, a := .vreg, b := .vreg }) { d := .rng 1 7, a := .vreg, b := .vreg, c := .rng 0 5 }
  | .mop m =>
      m.fits (some { d := .rng 1 7, a := .rng 0 7, b := .rng 0 7 })
        { d := .rng 1 7, a := .rng 0 7, b := .rng 0 7, c := .rng 0 7 }
  | .mpopc m | .mfirst m => m.fits (some { d := .vreg, a := .rng 0 7 }) { d := .vreg, a := .rng 0 7 }
  | .vcvt m | .vpack m | .vunpk m =>
      m.fits (some { d := .vreg, a := .vreg, b := .rng 0 31 }) { d := .vreg, a := .vreg, b := .rng 0 31 }
  | .vslide m | .vext m | .vins m =>
      m.fits (some { d := .vreg, a := .vreg, b := .any }) { d := .vreg, a := .vreg, b := .any, c := .any }
  | .vld m | .vst m => m.fits Option.none (shMem .none)
  | .vlds m => m.fits Option.none (shMem (.rng 0 15))
  | .vgath m | .vscat m => m.fits Option.none (shMem .vreg)
  | .vcvtSr m => m.fits Option.none { d := .vreg, a := .vreg, b := .rng 0 31, c := .vreg }
  | .vmoment m => m.fits Option.none shDA
  | .vnormapply m => m.fits Option.none shDABC
  | .vplane m => m.fits Option.none { d := .vreg, a := .vreg, b := .rng 0 31 }
  | .tzero m => m.fits (some { d := .tile }) { d := .tile }
  | .lease m => m.fits (some { a := .rng 1 64 }) { a := .rng 1 64 }
  | .lrel m => m.fits (some {}) {}
  | .mma m | .mmas m => m.fits (some { d := .acc, a := .tile, b := .tile }) { d := .acc, a := .tile, b := .tile, c := .batch }
  | .bopen m | .bopenS m => m.fits (some { a := .rng 0 15 }) { a := .rng 0 15 }
  | .cbatch m | .wbatch m => m.fits (some {}) { c := .batch }
  | .commit m | .discard m => m.fits (some { a := .rng 0 3 }) { a := .rng 0 3 }
  | .accz m => m.fits (some { d := .acc }) { d := .acc }
  | .tcfg _ tile _ tok => Use.tile.ok tile && tok.ok
  | .tld m | .tst m => m.fits Option.none { d := .tile, a := .rng 0 31, b := .any, c := .any }
  | .accrd m => m.fits Option.none { d := .acc, a := .rng 0 15, b := .any, c := .any }
  | .accrdIn m => m.fits Option.none { d := .acc, a := .rng 16 31, b := .any, c := .any }
  | .gset m => m.fits Option.none { d := .rng 0 7, b := .any, c := .any }
  | .gb m => m.fits Option.none { d := .rng 0 7 }
  | .lsLd m | .lsLdAcq m | .lsSt m | .lsStRel m => m.fits Option.none { d := .rng 0 15, a := .any, b := .any, c := .any }
  | .lsRed m => m.fits Option.none { d := .rng 0 15, a := .rng 0 15, b := .any, c := .any }
  | .lsPubl m => m.fits Option.none { b := .any, c := .any }
  | .rdc m | .mcast m => m.fits (some { d := .rng 0 15, a := .rng 0 15, b := .rng 0 15 })
      { d := .rng 0 15, a := .rng 0 15, b := .rng 0 15 }
  | .flt m | .rtadv m => m.fits (some { a := .rng 0 15 }) { a := .rng 0 15 }
  | .pass m => m.fits (some { d := .rng 0 15, a := .rng 0 15 }) { d := .rng 0 15, a := .rng 0 15 }
  | .idle m => m.fits (some { a := .any, b := .any }) { b := .any, c := .any }
  | .kinfo s _ _ => s.toNat ≤ 5
  | _ => true

end Sys2Proof
end

