-- ==== Sys2Proof/Decode.lean ====
section
/-! DEFINITION. The decoder of instruction words (R81 to R101, R387), total on any bits and refusing by name, and the encoder.

A stream decodes a word by the opcode map of its own class (R82). A long form is decoded in two stages: the word and its two
body words become `scalarLongForm` or `engineLongForm`, and the meaning of that instruction decodes the 64-bit form with
`decodeForm`. Fields are taken out of the word here, once. -/

namespace Sys2Proof

/-- The two decode faults of R100 that a word alone can raise. -/
inductive DecErr where
  /-- ILLEGAL_OP (0x01): the opcode or long opcode is not listed for the class -/
  | illegalOp
  /-- ILLEGAL_FIELD (0x02): a field breaks its limit -/
  | illegalField
  deriving DecidableEq, Repr

/-- What decoding answers. -/
abbrev Dec := Except DecErr Instr

/-- The instruction, if its required-zero and limit conditions hold (R84). -/
def need (c : Bool) (i : Instr) : Dec := if c then .ok i else .error .illegalField

/-- An instruction whose encoding admits it, else ILLEGAL_FIELD. -/
def checked (i : Instr) : Dec := need i.wf i

/-- A register field. -/
def rf (w lo : Nat) : R := BitVec.ofNat 5 (fld w lo 5)

/-! ### Scalar words (R83 to R88) -/

/-- ALU group, opcode 0x01 (R87, R171). -/
def decAlu (d a b : R) (sub md : Nat) : Dec :=
  match sub with
  | 0 => need (md == 0) (.add d a b) | 1 => need (md == 0) (.sub d a b) | 2 => need (md == 0) (.and d a b)
  | 3 => need (md == 0) (.or d a b) | 4 => need (md == 0) (.xor d a b) | 5 => need (md == 0) (.andn d a b)
  | 6 => need (md == 0) (.shl d a b) | 7 => need (md == 0) (.shr d a b) | 8 => need (md == 0) (.sar d a b)
  | 9 => need (md == 0) (.min d a b) | 10 => need (md == 0) (.max d a b) | 11 => need (md == 0) (.minn d a b)
  | 12 => need (md == 0) (.maxn d a b) | 13 => need (md == 0) (.sel d a b)
  | 14 => need (md == 0 && b == 0) (.clz d a) | 15 => need (md == 0 && b == 0) (.popc d a)
  | 16 => match Cond.ofCode md with
    | some cc => checked (.cmpCc cc d a b)
    | none => .error .illegalField
  | _ => .error .illegalField

/-- Multiply-divide group, opcode 0x02 (R172). -/
def decMul (d a b : R) (sub md : Nat) : Dec :=
  match sub with
  | 0 => need (md == 0) (.mul d a b) | 1 => need (md == 0) (.mulh d a b) | 2 => need (md == 0) (.mulhn d a b)
  | 3 => need (md == 0) (.div d a b) | 4 => need (md == 0) (.divn d a b) | 5 => need (md == 0) (.rem d a b)
  | 6 => need (md == 0) (.remn d a b) | _ => .error .illegalField

/-- AMO, RED and SC groups, opcodes 0x13 to 0x15 (R87, R281, R288). -/
def decAmo (d a b : R) (sub md : Nat) : Dec :=
  match AOp.ofCode sub with
  | some op => need (md < 2) (.amo op (md == 1) d a b)
  | none => .error .illegalField

/-- RED, opcode 0x14: subs 8 and 9 are illegal (R87). -/
def decRed (d a b : R) (sub md : Nat) : Dec :=
  match AOp.ofCode sub with
  | some op => need (md < 2 && d == 0 && (Instr.red op (md == 1) a b).wf) (.red op (md == 1) a b)
  | none => .error .illegalField

/-- SC group, opcode 0x15. -/
def decSc (d a b : R) (sub md : Nat) : Dec :=
  match sub with
  | 0 => need (md < 2 && b == 0) (.scLd (md == 1) d a)
  | 1 => need (md < 2 && d == 0) (.scSt (md == 1) a b)
  | 2 => match AOp.ofCode (md / 2) with
    | some op => .ok (.scAmo op (md % 2 == 1) d a b)
    | none => .error .illegalField
  | _ => .error .illegalField

/-- Fence and region group, opcode 0x16. -/
def decFence (d a b : R) (sub md : Nat) : Dec :=
  match sub with
  | 0 => need (md < 4 && d == 0 && a == 0 && b == 0) (.fence (Scope.ofCode md))
  | 1 => need (md == 0 && d == 0 && b == 0) (.publ a)
  | 2 => need (md == 0) (.pubreg d a b)
  | _ => .error .illegalField

/-- Phaser group, opcode 0x17. A PHDROP whose sb is not 0 is the proxy form (R300). -/
def decPh (d a b : R) (sub md : Nat) : Dec :=
  match sub with
  | 0 => match PhMode.ofCode md with
    | some m => need (b == 0) (.phreg m d a)
    | none => .error .illegalField
  | 1 => if b == 0 then need (md == 0 && d == 0) (.phdrop a) else need (md == 0) (.phdropProxy d a b)
  | 2 => need (md == 0 && d == 0 && b == 0) (.phsig a)
  | 3 => need (md == 0 && b == 0) (.phwait d a)
  | 4 => need (md == 0 && b == 0) (.phsw d a)
  | 5 => need (md == 0) (.phsigp d a b)
  | 6 => need (md == 0 && b == 0) (.phq d a)
  | _ => .error .illegalField

/-- Copy group, opcode 0x18. -/
def decCpy (d a b : R) (sub md : Nat) : Dec :=
  match sub with
  | 0 => need (md == 0) (.cpy d a b)
  | 1 => need (md == 0 && b == 0) (.cpy2d d a)
  | 2 => need (md == 0 && b == 0) (.cpyprom d a)
  | 3 => need (md == 0 && b == 0) (.gemb d a)
  | _ => .error .illegalField

/-- System group, opcode 0x19. -/
def decSys (d a b : R) (sub md : Nat) : Dec :=
  match sub with
  | 0 => need (md == 0 && d == 0 && a == 0 && b == 0) .nop
  | 1 => need (md == 0 && d == 0 && a == 0 && b == 0) .halt
  | 2 => need (md == 0 && a == 0 && b == 0) (.cyc d)
  | 3 => need (md == 0 && a == 0 && b == 0) (.ptime d)
  | 4 => need (md == 0 && d == 0 && b == 0) (.waitt a)
  | 5 => need (d == 0 && a == 0 && b == 0) (.trap (BitVec.ofNat 5 md))
  | 6 => need (md == 0 && d == 0 && a == 0 && b == 0) .tfence
  | 7 => need (md == 0 && d == 0 && a == 0 && b == 0) .yield
  | _ => .error .illegalField

/-- Stream group, opcode 0x1A. -/
def decStream (d a b : R) (sub md : Nat) : Dec :=
  match sub with
  | 0 => need (md == 0) (.fork d a b)
  | 1 => need (md == 0 && d == 0 && a == 0 && b == 0) .rdv
  | 2 => need (md == 0) (.tstart d a b)
  | 3 => need (md == 0 && b == 0) (.tstop d a)
  | 4 => need (md == 0) (.trebase d a b)
  | 5 => need (md == 0 && b == 0) (.tstat d a)
  | 6 => need (md == 0 && d == 0) (.tokset a b)
  | _ => .error .illegalField

/-- Basket group, opcode 0x1B. -/
def decBasket (d a b : R) (sub md : Nat) : Dec :=
  match sub with
  | 0 => need (md == 0) (.lpatch d a b)
  | 1 => need (md == 0 && b == 0) (.larm d a)
  | 2 => need (md == 0 && b == 0) (.lstat d a)
  | _ => .error .illegalField

/-- Dictionary group, opcode 0x1C: class in modifier [4:2], bank in [1:0] (R87, R116). -/
def decDict (d a b : R) (sub md : Nat) : Dec :=
  match sub with
  | 0 => match Cls.ofCode (md / 4) with
    | some k => .ok (.dld k (BitVec.ofNat 2 md) d a b)
    | none => .error .illegalField
  | 1 => match Cls.ofCode (md / 4) with
    | some k => need (d == 0 && a == 0 && b == 0) (.dsw k (BitVec.ofNat 2 md))
    | none => .error .illegalField
  | 2 => need (md == 0 && d == 0 && a == 0 && b == 0) .dfence
  | 3 => match Cls.ofCode (md / 4) with
    | some k => .ok (.drd k (BitVec.ofNat 2 md) d a b)
    | none => .error .illegalField
  | 4 => match Cls.ofCode (md / 4) with
    | some k => need (d == 0 && b == 0) (.dinv k (BitVec.ofNat 2 md) a)
    | none => .error .illegalField
  | _ => .error .illegalField

/-- Frozen-state group, opcode 0x1D, decoded in ranger streams only (R415). -/
def decFrozen (d a b : R) (sub md : Nat) : Dec :=
  match sub with
  | 0 => need (md == 0) (.frd d a b) | 1 => need (md == 0) (.frdv d a b) | 2 => need (md == 0) (.fwr d a b)
  | 3 => need (md == 0) (.fwrv d a b) | 4 => need (md == 0) (.ftab d a b) | 5 => need (md == 0) (.fstat d a b)
  | 6 => need (md == 0 && d == 0 && a == 0) (.fresume b) | 7 => need (md == 0) (.fstep d a b)
  | 8 => need (md == 0 && d == 0 && a == 0) (.fkill b)
  | _ => .error .illegalField

/-- Branches: [24:20] sa, [19:15] sb, cond, null, offset with its top bit in the opcode (R83, R325). -/
def decBr (w : Nat) : Dec :=
  let a := rf w 20
  let b := rf w 15
  let off := BitVec.ofNat 11 (fld w 25 1 * 2 ^ 10 + fld w 0 10)
  match Cond.ofCode (fld w 12 3) with
  | none => .error .illegalField
  | some cc => match fld w 10 2 with
    | 0 => checked (.brCc cc a b off)
    | 1 => checked (.brCcNn cc a b off)
    | 2 => checked (.brCcNt cc a b off)
    | _ => .error .illegalField

/-- Loads and stores: width in imm15[14:12], offset in [11:0] (R88). -/
def decMem (mk : Width → R → R → BitVec 12 → Instr) (w : Nat) : Dec :=
  match Width.ofCode (fld w 12 3) with
  | some k => .ok (mk k (rf w 20) (rf w 15) (BitVec.ofNat 12 (fld w 0 12)))
  | none => .error .illegalField

/-- A native scalar word (R86). `ranger` says whether the stream is a ranger's. -/
def decodeScalar (ranger : Bool) (w : Nat) : Dec :=
  let d := rf w 20
  let a := rf w 15
  let b := rf w 10
  let sub := fld w 5 5
  let md := fld w 0 5
  let i15 := BitVec.ofNat 15 (fld w 0 15)
  let i20 := BitVec.ofNat 20 (fld w 0 20)
  match fld w 25 6 with
  | 0x01 => decAlu d a b sub md
  | 0x02 => decMul d a b sub md
  | 0x04 => .ok (.addi d a i15) | 0x05 => .ok (.andi d a i15) | 0x06 => .ok (.ori d a i15) | 0x07 => .ok (.xori d a i15)
  | 0x08 => .ok (.shli d a i15) | 0x09 => .ok (.shri d a i15) | 0x0A => .ok (.sari d a i15)
  | 0x0B => .ok (.movi d i20) | 0x0C => .ok (.movh d i20)
  | 0x0D => decMem .ld w | 0x0E => decMem .ldAcq w | 0x0F => decMem .st w | 0x10 => decMem .stRel w
  | 0x11 => need (a == 0) (.mfc d i15)
  | 0x12 => need (d == 0) (.mtc i15 a)
  | 0x13 => decAmo d a b sub md
  | 0x14 => decRed d a b sub md
  | 0x15 => decSc d a b sub md
  | 0x16 => decFence d a b sub md
  | 0x17 => decPh d a b sub md
  | 0x18 => decCpy d a b sub md
  | 0x19 => decSys d a b sub md
  | 0x1A => decStream d a b sub md
  | 0x1B => decBasket d a b sub md
  | 0x1C => decDict d a b sub md
  | 0x1D => if ranger then decFrozen d a b sub md else .error .illegalOp
  | 0x20 => decBr w | 0x21 => decBr w
  | 0x22 => .ok (.j (BitVec.ofNat 25 (fld w 0 25)))
  | 0x23 => .ok (.jl (BitVec.ofNat 25 (fld w 0 25)))
  | 0x24 => match sub with
    | 0 => need (md == 0 && d == 0 && b == 0) (.jr a)
    | 1 => need (md == 0 && b == 0) (.jlr d a)
    | _ => .error .illegalField
  | _ => .error .illegalOp

/-! ### Micro-orders (R89 to R99) -/

/-- The vector-column map (R97). -/
def vecOp : Nat → Option (Micro → Instr)
  | 0x01 => some .vmov | 0x02 => some .vmovi | 0x03 => some .vmvs | 0x04 => some .vadd | 0x05 => some .vsub
  | 0x06 => some .vadds | 0x07 => some .vsubs | 0x08 => some .vmul | 0x09 => some .vmulh | 0x0A => some .vmulw
  | 0x0B => some .vmac | 0x0C => some .vand | 0x0D => some .vor | 0x0E => some .vxor | 0x0F => some .vandn
  | 0x10 => some .vshl | 0x11 => some .vshr | 0x12 => some .vsar | 0x13 => some .vmin | 0x14 => some .vmax
  | 0x15 => some .vabs | 0x16 => some .vneg | 0x17 => some .vclz | 0x18 => some .vpopc | 0x19 => some .vcmp
  | 0x1A => some .vsel | 0x1B => some .mop | 0x1C => some .mpopc | 0x1D => some .mfirst | 0x1E => some .vfadd
  | 0x1F => some .vfsub | 0x20 => some .vfmul | 0x21 => some .vfma | 0x22 => some .vfms | 0x23 => some .vfnma
  | 0x24 => some .vfmin | 0x25 => some .vfmax | 0x26 => some .vfabs | 0x27 => some .vfneg | 0x28 => some .vfcmp
  | 0x29 => some .vrcp | 0x2A => some .vrsq | 0x2B => some .vsqrt | 0x2C => some .vexp2 | 0x2D => some .vlog2
  | 0x2E => some .vtanh | 0x2F => some .vcvt | 0x30 => some .vpack | 0x31 => some .vunpk | 0x32 => some .vredadd
  | 0x33 => some .vredmax | 0x34 => some .vredmin | 0x35 => some .vscan | 0x36 => some .vperm | 0x37 => some .vshuf
  | 0x38 => some .vslide | 0x39 => some .vbcast | 0x3A => some .vext | 0x3B => some .vins | 0x3C => some .vcompress
  | 0x3D => some .vexpand | 0x40 => some .vld | 0x41 => some .vst | 0x42 => some .vlds | 0x43 => some .vgath
  | 0x44 => some .vscat | 0x45 => some .vcvtSr | 0x46 => some .vmoment | 0x47 => some .vnormapply | 0x48 => some .vplane
  | _ => none

/-- The matrix map (R98). Index bit 4 of lop 0x43 selects the input form (R240). TCFG, lop 0x40, has its own layout. -/
def matOp (lop idx : Nat) : Option (Micro → Instr) :=
  match lop with
  | 0x01 => some .tzero | 0x02 => some .lease | 0x03 => some .lrel | 0x04 => some .mma | 0x05 => some .mmas
  | 0x06 => some .bopen | 0x07 => some .bopenS | 0x08 => some .cbatch | 0x09 => some .wbatch | 0x0A => some .commit
  | 0x0B => some .discard | 0x0C => some .accz | 0x41 => some .tld | 0x42 => some .tst
  | 0x43 => if idx / 16 % 2 == 1 then some .accrdIn else some .accrd
  | _ => none

/-- The load/store map (R99, R314). -/
def lsOp : Nat → Option (Micro → Instr)
  | 0x40 => some .lsLd | 0x41 => some .lsSt | 0x42 => some .lsLdAcq | 0x43 => some .lsStRel | 0x44 => some .lsRed
  | 0x45 => some .lsPubl | _ => none

/-- The gather map (R99). -/
def gatherOp : Nat → Option (Micro → Instr)
  | 0x40 => some .gset | 0x41 => some .gb | _ => none

/-- The strip map (R99). -/
def stripOp : Nat → Option (Micro → Instr)
  | 0x01 => some .rdc | 0x02 => some .flt | 0x03 => some .mcast | 0x04 => some .pass | 0x05 => some .idle
  | 0x06 => some .rtadv | _ => none

/-- The instruction of an opcode or long opcode in an engine class. -/
def engOp (k : Cls) (op idx : Nat) : Option (Micro → Instr) :=
  match k with
  | .scalar => none | .vector => vecOp op | .matrix => matOp op idx | .ldst => lsOp op | .gather => gatherOp op
  | .strip => stripOp op

/-- A native micro-order (R89): opcodes above 0x3D are LONG or unlisted. -/
def decodeMicro (k : Cls) (w : Nat) : Dec :=
  if fld w 25 6 ≥ 0x3E then .error .illegalOp else
  match engOp k (fld w 25 6) 0 with
  | none => .error .illegalOp
  | some mk => checked (mk { delay := BitVec.ofNat 4 (fld w 21 4), dest := BitVec.ofNat 7 (fld w 14 7),
                             srcA := BitVec.ofNat 7 (fld w 7 7), srcB := BitVec.ofNat 7 (fld w 0 7) })

/-- Token fields of a long form: WE [16], WFIFO [15:11], SE [10], SFIFO [9:5], PE [4], PTAG [3:2] (R92). -/
def decTok (f : Nat) : Tok :=
  { we := bitOf f 16, wfifo := BitVec.ofNat 5 (fld f 11 5), se := bitOf f 10, sfifo := BitVec.ofNat 5 (fld f 5 5),
    pe := bitOf f 4, ptag := BitVec.ofNat 2 (fld f 2 2) }

/-- The 64-bit form of an engine micro-order (R92, R95). -/
def decodeEngForm (k : Cls) (delay : BitVec 4) (f : Nat) : Dec :=
  let lop := fld f 56 8
  if k == .matrix && lop == 0x40 then
    need (fld f 17 7 == 0 && fld f 0 2 == 0 && (Instr.tcfg delay (BitVec.ofNat 7 (fld f 49 7)) (BitVec.ofNat 25 (fld f 24 25))
      (decTok f)).wf) (.tcfg delay (BitVec.ofNat 7 (fld f 49 7)) (BitVec.ofNat 25 (fld f 24 25)) (decTok f))
  else match engOp k lop (fld f 42 7) with
  | none => .error .illegalOp
  | some mk =>
    let m : Micro := Micro.mk delay (BitVec.ofNat 7 (fld f 49 7)) (BitVec.ofNat 7 (fld f 42 7)) (BitVec.ofNat 7 (fld f 35 7))
      (some (Tail.mk (BitVec.ofNat 7 (fld f 28 7)) (BitVec.ofNat 5 (fld f 23 5)) (BitVec.ofNat 3 (fld f 20 3))
        (BitVec.ofNat 3 (fld f 17 3)) (decTok f)))
    need (fld f 0 2 == 0 && (mk m).wf) (mk m)

/-- An instruction of a scalar long form. An extended form carries a 32-bit immediate that no native word has (R96). -/
inductive ScalarForm where
  | plain (i : Instr)
  /-- opcode, sd, sa, width code, imm32 of the extended layout -/
  | ext (op : Nat) (d a : R) (w : Nat) (imm : BitVec 32)
  deriving DecidableEq, Repr

/-- The 64-bit form of a scalar long word (R96): extended for opcodes 0x04 to 0x12, wrapped for every other listed opcode. -/
def decodeScalarForm (ranger : Bool) (f : Nat) : Except DecErr ScalarForm :=
  let lop := fld f 56 8
  let d := rf f 51
  let a := rf f 46
  let w := fld f 43 3
  let imm := BitVec.ofNat 32 (fld f 0 32)
  if 0x04 ≤ lop && lop ≤ 0x12 then
    if fld f 32 11 != 0 then .error .illegalField
    else if 0x0D ≤ lop && lop ≤ 0x10 then
      if w == 7 then .error .illegalField else .ok (.ext lop d a w imm)
    else if w != 0 then .error .illegalField
    else if (lop == 0x0B || lop == 0x0C || lop == 0x11) && a != 0 then .error .illegalField
    else if lop == 0x12 && d != 0 then .error .illegalField
    else if lop == 0x0C && fld f 20 12 != 0 then .error .illegalField
    else if (lop == 0x11 || lop == 0x12) && 0x7FFF < fld f 0 32 then .error .illegalField
    else .ok (.ext lop d a 0 imm)
  else if lop ≥ 0x3E || lop == 0 then .error .illegalOp
  else match decodeScalar ranger (lop * 2 ^ 25 + fld f 0 25) with
    | .ok i => if fld f 25 31 != 0 then .error .illegalField else .ok (.plain i)
    | .error .illegalOp => .error .illegalOp
    | .error .illegalField => .error .illegalField

/-! ### Words -/

/-- A LONG word with its two body words (R91). -/
def decodeLong (k : Cls) (w0 w1 w2 : Nat) : Dec :=
  let form := BitVec.ofNat 64 (w2 % 2 ^ 32 * 2 ^ 32 + w1 % 2 ^ 32)
  match k with
  | .scalar => need (fld w0 0 25 == 0) (.scalarLongForm form)
  | _ => need (fld w0 0 21 == 0) (.engineLongForm (BitVec.ofNat 4 (fld w0 21 4)) form)

/-- Whether a word is a LONG word (R81). -/
def isLong (w : Nat) : Bool := fld w 25 7 == 0x3E

/-- One word of a stream of class `k`; for a LONG word `w1` and `w2` are its body words (R81, R82). -/
def decodeWord (k : Cls) (ranger : Bool) (w0 w1 w2 : Nat) : Dec :=
  if bitOf w0 31 then .ok (.dictionaryWord (BitVec.ofNat 8 (fld w0 23 8)) (BitVec.ofNat 23 (fld w0 0 23)))
  else if isLong w0 then decodeLong k w0 w1 w2
  else match k with
  | .scalar => decodeScalar ranger w0
  | _ => decodeMicro k w0

/-- A capability instruction of the command complex: RV64 custom-0 (R387). -/
def decodeCap (w : Nat) : Dec :=
  let b := rf w 20
  let a := rf w 15
  let d := rf w 7
  if fld w 0 7 != 0x0B || fld w 12 3 != 0 then .error .illegalOp else
  match fld w 25 7 with
  | 0 => .ok (.kskip b a d) | 1 => .ok (.ktrim b a d) | 2 => .ok (.kdrop b a d) | 3 => .ok (.kstamp b a d)
  | 4 => .ok (.kfld b a d) | 5 => if b.toNat ≤ 5 then .ok (.kinfo b a d) else .error .illegalOp
  | 6 => .ok (.ktake b a d) | 7 => .ok (.kgive b a d) | _ => .error .illegalOp

/-! ### The encoder -/

/-- A truth value as a bit. -/
def eb (b : Bool) (i : Nat) : Nat := b2n b * 2 ^ i

/-- An RRR word (R83). -/
def rrr (op : Nat) (d a b : R) (sub md : Nat) : Nat :=
  op * 2 ^ 25 + d.toNat * 2 ^ 20 + a.toNat * 2 ^ 15 + b.toNat * 2 ^ 10 + sub * 2 ^ 5 + md

/-- An RRI word (R83). -/
def rri (op : Nat) (d a : R) (i : Nat) : Nat := op * 2 ^ 25 + d.toNat * 2 ^ 20 + a.toNat * 2 ^ 15 + i

/-- A branch word (R325). -/
def brw (a b : R) (cc null : Nat) (off : BitVec 11) : Nat :=
  (0x20 + off.toNat / 2 ^ 10) * 2 ^ 25 + a.toNat * 2 ^ 20 + b.toNat * 2 ^ 15 + cc * 2 ^ 12 + null * 2 ^ 10 + off.toNat % 2 ^ 10

/-- A native scalar word, for the instructions that have one (R86). -/
def encodeScalar : Instr → Option Nat
  | .add d a b => some (rrr 0x01 d a b 0 0) | .sub d a b => some (rrr 0x01 d a b 1 0) | .and d a b => some (rrr 0x01 d a b 2 0)
  | .or d a b => some (rrr 0x01 d a b 3 0) | .xor d a b => some (rrr 0x01 d a b 4 0) | .andn d a b => some (rrr 0x01 d a b 5 0)
  | .shl d a b => some (rrr 0x01 d a b 6 0) | .shr d a b => some (rrr 0x01 d a b 7 0) | .sar d a b => some (rrr 0x01 d a b 8 0)
  | .min d a b => some (rrr 0x01 d a b 9 0) | .max d a b => some (rrr 0x01 d a b 10 0)
  | .minn d a b => some (rrr 0x01 d a b 11 0) | .maxn d a b => some (rrr 0x01 d a b 12 0)
  | .sel d a b => some (rrr 0x01 d a b 13 0) | .clz d a => some (rrr 0x01 d a 0 14 0) | .popc d a => some (rrr 0x01 d a 0 15 0)
  | .cmpCc cc d a b => some (rrr 0x01 d a b 16 cc.code)
  | .mul d a b => some (rrr 0x02 d a b 0 0) | .mulh d a b => some (rrr 0x02 d a b 1 0) | .mulhn d a b => some (rrr 0x02 d a b 2 0)
  | .div d a b => some (rrr 0x02 d a b 3 0) | .divn d a b => some (rrr 0x02 d a b 4 0) | .rem d a b => some (rrr 0x02 d a b 5 0)
  | .remn d a b => some (rrr 0x02 d a b 6 0)
  | .addi d a i => some (rri 0x04 d a i.toNat) | .andi d a i => some (rri 0x05 d a i.toNat)
  | .ori d a i => some (rri 0x06 d a i.toNat) | .xori d a i => some (rri 0x07 d a i.toNat)
  | .shli d a i => some (rri 0x08 d a i.toNat) | .shri d a i => some (rri 0x09 d a i.toNat)
  | .sari d a i => some (rri 0x0A d a i.toNat) | .movi d i => some (rri 0x0B d 0 i.toNat) | .movh d i => some (rri 0x0C d 0 i.toNat)
  | .ld w d a o => some (rri 0x0D d a (w.code * 2 ^ 12 + o.toNat)) | .ldAcq w d a o => some (rri 0x0E d a (w.code * 2 ^ 12 + o.toNat))
  | .st w d a o => some (rri 0x0F d a (w.code * 2 ^ 12 + o.toNat)) | .stRel w d a o => some (rri 0x10 d a (w.code * 2 ^ 12 + o.toNat))
  | .mfc d c => some (rri 0x11 d 0 c.toNat) | .mtc c a => some (rri 0x12 0 a c.toNat)
  | .amo op w d a b => some (rrr 0x13 d a b op.code (b2n w)) | .red op w a b => some (rrr 0x14 0 a b op.code (b2n w))
  | .scLd w d a => some (rrr 0x15 d a 0 0 (b2n w)) | .scSt w a b => some (rrr 0x15 0 a b 1 (b2n w))
  | .scAmo op w d a b => some (rrr 0x15 d a b 2 (op.code * 2 + b2n w))
  | .fence z => some (rrr 0x16 0 0 0 0 z.code) | .publ a => some (rrr 0x16 0 a 0 1 0) | .pubreg d a b => some (rrr 0x16 d a b 2 0)
  | .phreg m d a => some (rrr 0x17 d a 0 0 m.code) | .phdrop a => some (rrr 0x17 0 a 0 1 0)
  | .phdropProxy d a b => some (rrr 0x17 d a b 1 0) | .phsig a => some (rrr 0x17 0 a 0 2 0)
  | .phwait d a => some (rrr 0x17 d a 0 3 0) | .phsw d a => some (rrr 0x17 d a 0 4 0) | .phsigp d a b => some (rrr 0x17 d a b 5 0)
  | .phq d a => some (rrr 0x17 d a 0 6 0)
  | .cpy d a b => some (rrr 0x18 d a b 0 0) | .cpy2d d a => some (rrr 0x18 d a 0 1 0) | .cpyprom d a => some (rrr 0x18 d a 0 2 0)
  | .gemb d a => some (rrr 0x18 d a 0 3 0)
  | .nop => some (rrr 0x19 0 0 0 0 0) | .halt => some (rrr 0x19 0 0 0 1 0) | .cyc d => some (rrr 0x19 d 0 0 2 0)
  | .ptime d => some (rrr 0x19 d 0 0 3 0) | .waitt a => some (rrr 0x19 0 a 0 4 0) | .trap c => some (rrr 0x19 0 0 0 5 c.toNat)
  | .tfence => some (rrr 0x19 0 0 0 6 0) | .yield => some (rrr 0x19 0 0 0 7 0)
  | .fork d a b => some (rrr 0x1A d a b 0 0) | .rdv => some (rrr 0x1A 0 0 0 1 0) | .tstart d a b => some (rrr 0x1A d a b 2 0)
  | .tstop d a => some (rrr 0x1A d a 0 3 0) | .trebase d a b => some (rrr 0x1A d a b 4 0) | .tstat d a => some (rrr 0x1A d a 0 5 0)
  | .tokset a b => some (rrr 0x1A 0 a b 6 0)
  | .lpatch d a b => some (rrr 0x1B d a b 0 0) | .larm d a => some (rrr 0x1B d a 0 1 0) | .lstat d a => some (rrr 0x1B d a 0 2 0)
  | .dld k n d a b => some (rrr 0x1C d a b 0 (k.code * 4 + n.toNat)) | .dsw k n => some (rrr 0x1C 0 0 0 1 (k.code * 4 + n.toNat))
  | .dfence => some (rrr 0x1C 0 0 0 2 0) | .drd k n d a b => some (rrr 0x1C d a b 3 (k.code * 4 + n.toNat))
  | .dinv k n a => some (rrr 0x1C 0 a 0 4 (k.code * 4 + n.toNat))
  | .frd d a b => some (rrr 0x1D d a b 0 0) | .frdv d a b => some (rrr 0x1D d a b 1 0) | .fwr d a b => some (rrr 0x1D d a b 2 0)
  | .fwrv d a b => some (rrr 0x1D d a b 3 0) | .ftab d a b => some (rrr 0x1D d a b 4 0) | .fstat d a b => some (rrr 0x1D d a b 5 0)
  | .fresume b => some (rrr 0x1D 0 0 b 6 0) | .fstep d a b => some (rrr 0x1D d a b 7 0) | .fkill b => some (rrr 0x1D 0 0 b 8 0)
  | .brCc cc a b o => some (brw a b cc.code 0 o) | .brCcNn cc a b o => some (brw a b cc.code 1 o)
  | .brCcNt cc a b o => some (brw a b cc.code 2 o)
  | .j o => some (0x22 * 2 ^ 25 + o.toNat) | .jl o => some (0x23 * 2 ^ 25 + o.toNat)
  | .jr a => some (rrr 0x24 0 a 0 0 0) | .jlr d a => some (rrr 0x24 d a 0 1 0)
  | _ => none

/-- Opcode or long opcode and operands of a micro-order other than TCFG, with its class (R97 to R99). -/
def microOf : Instr → Option (Cls × Nat × Micro)
  | .vmov m => some (.vector, 0x01, m) | .vmovi m => some (.vector, 0x02, m) | .vmvs m => some (.vector, 0x03, m)
  | .vadd m => some (.vector, 0x04, m) | .vsub m => some (.vector, 0x05, m) | .vadds m => some (.vector, 0x06, m)
  | .vsubs m => some (.vector, 0x07, m) | .vmul m => some (.vector, 0x08, m) | .vmulh m => some (.vector, 0x09, m)
  | .vmulw m => some (.vector, 0x0A, m) | .vmac m => some (.vector, 0x0B, m) | .vand m => some (.vector, 0x0C, m)
  | .vor m => some (.vector, 0x0D, m) | .vxor m => some (.vector, 0x0E, m) | .vandn m => some (.vector, 0x0F, m)
  | .vshl m => some (.vector, 0x10, m) | .vshr m => some (.vector, 0x11, m) | .vsar m => some (.vector, 0x12, m)
  | .vmin m => some (.vector, 0x13, m) | .vmax m => some (.vector, 0x14, m) | .vabs m => some (.vector, 0x15, m)
  | .vneg m => some (.vector, 0x16, m) | .vclz m => some (.vector, 0x17, m) | .vpopc m => some (.vector, 0x18, m)
  | .vcmp m => some (.vector, 0x19, m) | .vsel m => some (.vector, 0x1A, m) | .mop m => some (.vector, 0x1B, m)
  | .mpopc m => some (.vector, 0x1C, m) | .mfirst m => some (.vector, 0x1D, m) | .vfadd m => some (.vector, 0x1E, m)
  | .vfsub m => some (.vector, 0x1F, m) | .vfmul m => some (.vector, 0x20, m) | .vfma m => some (.vector, 0x21, m)
  | .vfms m => some (.vector, 0x22, m) | .vfnma m => some (.vector, 0x23, m) | .vfmin m => some (.vector, 0x24, m)
  | .vfmax m => some (.vector, 0x25, m) | .vfabs m => some (.vector, 0x26, m) | .vfneg m => some (.vector, 0x27, m)
  | .vfcmp m => some (.vector, 0x28, m) | .vrcp m => some (.vector, 0x29, m) | .vrsq m => some (.vector, 0x2A, m)
  | .vsqrt m => some (.vector, 0x2B, m) | .vexp2 m => some (.vector, 0x2C, m) | .vlog2 m => some (.vector, 0x2D, m)
  | .vtanh m => some (.vector, 0x2E, m) | .vcvt m => some (.vector, 0x2F, m) | .vpack m => some (.vector, 0x30, m)
  | .vunpk m => some (.vector, 0x31, m) | .vredadd m => some (.vector, 0x32, m) | .vredmax m => some (.vector, 0x33, m)
  | .vredmin m => some (.vector, 0x34, m) | .vscan m => some (.vector, 0x35, m) | .vperm m => some (.vector, 0x36, m)
  | .vshuf m => some (.vector, 0x37, m) | .vslide m => some (.vector, 0x38, m) | .vbcast m => some (.vector, 0x39, m)
  | .vext m => some (.vector, 0x3A, m) | .vins m => some (.vector, 0x3B, m) | .vcompress m => some (.vector, 0x3C, m)
  | .vexpand m => some (.vector, 0x3D, m) | .vld m => some (.vector, 0x40, m) | .vst m => some (.vector, 0x41, m)
  | .vlds m => some (.vector, 0x42, m) | .vgath m => some (.vector, 0x43, m) | .vscat m => some (.vector, 0x44, m)
  | .vcvtSr m => some (.vector, 0x45, m) | .vmoment m => some (.vector, 0x46, m) | .vnormapply m => some (.vector, 0x47, m)
  | .vplane m => some (.vector, 0x48, m)
  | .tzero m => some (.matrix, 0x01, m) | .lease m => some (.matrix, 0x02, m) | .lrel m => some (.matrix, 0x03, m)
  | .mma m => some (.matrix, 0x04, m) | .mmas m => some (.matrix, 0x05, m) | .bopen m => some (.matrix, 0x06, m)
  | .bopenS m => some (.matrix, 0x07, m) | .cbatch m => some (.matrix, 0x08, m) | .wbatch m => some (.matrix, 0x09, m)
  | .commit m => some (.matrix, 0x0A, m) | .discard m => some (.matrix, 0x0B, m) | .accz m => some (.matrix, 0x0C, m)
  | .tld m => some (.matrix, 0x41, m) | .tst m => some (.matrix, 0x42, m) | .accrd m => some (.matrix, 0x43, m)
  | .accrdIn m => some (.matrix, 0x43, m)
  | .gset m => some (.gather, 0x40, m) | .gb m => some (.gather, 0x41, m)
  | .lsLd m => some (.ldst, 0x40, m) | .lsSt m => some (.ldst, 0x41, m) | .lsLdAcq m => some (.ldst, 0x42, m)
  | .lsStRel m => some (.ldst, 0x43, m) | .lsRed m => some (.ldst, 0x44, m) | .lsPubl m => some (.ldst, 0x45, m)
  | .rdc m => some (.strip, 0x01, m) | .flt m => some (.strip, 0x02, m) | .mcast m => some (.strip, 0x03, m)
  | .pass m => some (.strip, 0x04, m) | .idle m => some (.strip, 0x05, m) | .rtadv m => some (.strip, 0x06, m)
  | _ => none

/-- The token bits of a long form (R92). -/
def encTok (t : Tok) : Nat :=
  eb t.we 16 + t.wfifo.toNat * 2 ^ 11 + eb t.se 10 + t.sfifo.toNat * 2 ^ 5 + eb t.pe 4 + t.ptag.toNat * 2 ^ 2

/-- The native word of a micro-order (R89). -/
def encMicro (op : Nat) (m : Micro) : Nat :=
  op * 2 ^ 25 + m.delay.toNat * 2 ^ 21 + m.dest.toNat * 2 ^ 14 + m.srcA.toNat * 2 ^ 7 + m.srcB.toNat

/-- The 64-bit form of a micro-order (R92, R95). -/
def encForm (op : Nat) (m : Micro) (t : Tail) : Nat :=
  op * 2 ^ 56 + m.dest.toNat * 2 ^ 49 + m.srcA.toNat * 2 ^ 42 + m.srcB.toNat * 2 ^ 35 + t.srcC.toNat * 2 ^ 28
    + t.type.toNat * 2 ^ 23 + t.mask.toNat * 2 ^ 20 + t.rnd.toNat * 2 ^ 17 + encTok t.tok

/-- The three words of a long form: the LONG word, bits [31:0], bits [63:32] (R91). -/
def longWords (delay f : Nat) : List Nat := [0x3E * 2 ^ 25 + delay * 2 ^ 21, f % 2 ^ 32, f / 2 ^ 32]

/-- The words of an instruction, first word first. Events have none. -/
def encode (i : Instr) : List Nat :=
  match i with
  | .scalarLongForm f => longWords 0 f.toNat
  | .engineLongForm dl f => longWords dl.toNat f.toNat
  | .dictionaryWord e h => [2 ^ 31 + e.toNat * 2 ^ 23 + h.toNat]
  | .tcfg dl tile cfg tok => longWords dl.toNat (0x40 * 2 ^ 56 + tile.toNat * 2 ^ 49 + cfg.toNat * 2 ^ 24 + encTok tok)
  | .kskip b a d => [rcap 0 b a d] | .ktrim b a d => [rcap 1 b a d] | .kdrop b a d => [rcap 2 b a d]
  | .kstamp b a d => [rcap 3 b a d] | .kfld b a d => [rcap 4 b a d] | .kinfo b a d => [rcap 5 b a d]
  | .ktake b a d => [rcap 6 b a d] | .kgive b a d => [rcap 7 b a d]
  | i => match encodeScalar i with
    | some w => [w]
    | none => match microOf i with
      | some (_, op, m) => match m.long with
        | none => [encMicro op m]
        | some t => longWords m.delay.toNat (encForm op m t)
      | none => []
where
  /-- A capability instruction (R387). -/
  rcap (f : Nat) (b a d : R) : Nat := f * 2 ^ 25 + b.toNat * 2 ^ 20 + a.toNat * 2 ^ 15 + d.toNat * 2 ^ 7 + 0x0B

/-! ### The host's question: one word, no stream -/

/-- The class that gives a word a meaning when no stream says which class it is read in: scalar first, then vector, matrix,
then the strip's. The same 32 bits mean different things to streams of different classes (R82): log 7. -/
def tableClass (w : Nat) : Option (Cls × Instr) :=
  match decodeWord .scalar true w 0 0 with
  | .ok i => some (.scalar, i)
  | .error _ => match decodeWord .vector false w 0 0 with
    | .ok i => some (.vector, i)
    | .error _ => match decodeWord .matrix false w 0 0 with
      | .ok i => some (.matrix, i)
      | .error _ => match decodeWord .strip false w 0 0 with
        | .ok i => some (.strip, i)
        | .error _ => none

/-- What the decoder reads from one word on its own: a stream's class if one decodes it, else the command complex's map. -/
def decodeTableWord (nbits w : Nat) : Option Instr :=
  let w := w % 2 ^ nbits % 2 ^ 32
  match tableClass w with
  | some (_, i) => some i
  | none => match decodeCap w with
    | .ok i => some i
    | .error _ => none

end Sys2Proof
end

