-- ==== Sys2Proof/Machine/State.lean ====
section
/-! DEFINITION. The state of a ZHV-Z8 package: plain data, every piece of state the spec names, in the spec's own terms.

`State` is the package time beside the machine. A stream's registers stand in its record; a context's registers on a cluster (what
a thermos swap exchanges, R429) stand in a `Cctx`; a cluster's clock, rail and slots in a `PClu`; every byte of memory in its home.
INVENTORY.md lists every field with its rule and reset value. -/

namespace Sys2Proof.Machine

/-- A sparse map: (key, value) pairs with keys strictly rising; an unlisted key holds the default the reader names. -/
abbrev SMap (α : Type) := List (Nat × α)

/-- A register wider than 64 bits, in 8-byte chunks as FRDV numbers them (R419): an unlisted chunk is 0. -/
abbrev Wide := SMap Word

/-- Fault codes (R428), and the two admin-level statuses that share them. -/
inductive FCode where
  | illegalOp | illegalField | dictUndef | dictBusy | trap | pageAbsent | pageProt | formatMismatch | align | slotViolation
  | scSlot | promiseMissed | accBusy | leaseShort | unitAbsent | tokenCheck | arith | residue | ecc | link | capFault
  | eventBackpressure | nested | poolEscalated
  deriving DecidableEq, Repr

/-- Numbers of the fault codes (R428). -/
def FCode.num : FCode → Nat
  | .illegalOp => 0x01 | .illegalField => 0x02 | .dictUndef => 0x03 | .dictBusy => 0x04 | .trap => 0x05 | .pageAbsent => 0x10
  | .pageProt => 0x11 | .formatMismatch => 0x12 | .align => 0x13 | .slotViolation => 0x14 | .scSlot => 0x15
  | .promiseMissed => 0x20 | .accBusy => 0x21 | .leaseShort => 0x22 | .unitAbsent => 0x23 | .tokenCheck => 0x24
  | .arith => 0x30 | .residue => 0x31 | .ecc => 0x32 | .link => 0x33 | .capFault => 0x40 | .eventBackpressure => 0x41
  | .nested => 0x50 | .poolEscalated => 0x51

/-- An exception raised by a word or micro-order (R398): its code, and what the composite record says of it (R404). -/
structure Flt where
  code : FCode
  cause : Nat := 0
  fva : Nat := 0
  ptea : Nat := 0
  logorg : Bool := false
  /-- one more than the home of a word that a walk or a fetch found bad and that is logged as the fault is taken (R440); 0 none -/
  bad : Nat := 0
  deriving DecidableEq, Repr

/-- Every byte's home (R251), keyed as `Ops.homeKey` says; an unlisted byte reads 0 unless a garbled range covers it.
`bad` lists the 16-byte words whose ECC is uncorrectable (R440). -/
structure Homes where
  cells : List Host.Cell := []
  /-- (base, length, number of the change): lines whose owner changed and that nothing has written since (R395) -/
  garbled : List (Nat × Nat × Nat) := []
  bad : List Nat := []
  /-- the 16-byte words with one wrong bit, which ECC corrects as they are read (R80) -/
  weak : List Nat := []
  deriving DecidableEq, Repr

/-- Stream states (R43). -/
inductive SState where
  | idle | primed | running | waitToken | waitPhaser | waitRdv | stopped | frozen | done
  deriving DecidableEq, Repr

/-- Codes of the stream states (R43). -/
def SState.code : SState → Nat
  | .idle => 0 | .primed => 1 | .running => 2 | .waitToken => 3 | .waitPhaser => 4 | .waitRdv => 5 | .stopped => 6
  | .frozen => 7 | .done => 8

/-- A stream selector (R416): die kind, logical die, cluster, class, column, unit. -/
structure Sel where
  kind : Nat := 0
  ldie : Nat := 0
  cluster : Nat := 0
  cls : Cls := .scalar
  col : Nat := 0
  unit : Nat := 0
  deriving DecidableEq, Repr

/-- One entry of the scalar fetch queue (R321), with the words fetched and the fetch fault, if any (R323). -/
structure FQ where
  waddr : Nat := 0
  annul : Bool := false
  bank : Nat := 0
  w0 : Nat := 0
  w1 : Nat := 0
  w2 : Nat := 0
  /-- the fault found while fetching -/
  flt : Option Flt := none
  /-- a fault found while fetching a body word of a LONG word (R91) -/
  bodyFlt : Option Flt := none
  deriving DecidableEq, Repr

/-- A store-buffer entry: one aligned 64-byte line with a bit mask (R460). -/
structure SBEnt where
  line : Nat
  mask : Nat
  data : Nat
  /-- scope code of its release attribute: 0 none, 2 package, 3 system (R258) -/
  rel : Nat := 0
  /-- region key of its page's PUBRID, 0 none (R260) -/
  pub : Nat := 0
  /-- job cycle of issue (R401) -/
  cyc : Nat := 0
  seq : Nat := 0
  /-- its release half covers the entries older than this number, its own apart (R258): after a merge, that of the releasing store -/
  relSeq : Nat := 0
  /-- virtual address of its line, for the records of R440 -/
  va : Nat := 0
  /-- swizzle-span code of its page (R70), 7 none -/
  span : Nat := 7
  /-- tag of the predicted path that stored it (R51) -/
  tag : Option Nat := none
  /-- entries whose last one to perform counts a signal (R315) share a number, 0 none -/
  grp : Nat := 0
  deriving DecidableEq, Repr

/-- A cached translation (R379): context key, page base and size code, the leaf's two words, where the entry stands. -/
structure Tlb where
  cx : Nat
  base : Nat
  psz : Nat
  lo : Nat
  hi : Nat
  ptea : Nat
  /-- dies holding copies (slices only) -/
  dies : List Nat := []
  deriving DecidableEq, Repr

/-- A copy ticket of a stream (R304). -/
structure Ticket where
  n : Nat
  copy : Nat
  promise : Nat
  missed : Bool := false
  deriving DecidableEq, Repr

/-- The boundary a held stream performs (R258). -/
inductive Bound where
  | fence (z : Scope)
  /-- a signal: 0 PHSIG, 1 PHSW, 2 PHSIGP; phaser key, issue cycle, destination, signalling member -/
  | ph (kind key cyc : Nat) (d : R) (sid : Nat)
  | rdv | halt
  deriving DecidableEq, Repr

/-- Why a stream that is RUNNING does not issue: the word stands at FQ0 or STEP and its completing event is awaited. -/
inductive Hold where
  /-- not held -/
  | none
  /-- AMO or SC operation in flight (R283, R288): its number in `atoms` -/
  | atomic (id : Nat)
  /-- elastic SC operation waiting for an owned position (R266) -/
  | scPos
  /-- a load from host memory (R279): destination, width, home, whether it acquires, and the value a plain load has -/
  | host (d : R) (w : Width) (home : Nat) (acq : Bool) (v : Word)
  /-- a load from a local store whose cluster's streams have not started (R55) -/
  | start (lc : Nat)
  /-- an atomic whose stream still holds entries overlapping its bytes (R268): home and length -/
  | overlap (home len : Nat)
  /-- CPY2D or GEMB (the second) whose descriptor's data comes from host memory (R305, R306): its words and the destination -/
  | desc (gemb : Bool) (words : List Nat) (d : R)
  /-- DLD (R117): class, bank, next entry, entries left, invalid count so far, address of the next entry, whether its data comes
  from the host and has not arrived, destination -/
  | dld (k : Cls) (bank next left bad va : Nat) (host : Bool) (d : R)
  /-- CPY whose ticket is outstanding (R304) -/
  | ticket (n : Nat)
  /-- a release half (R257): the boundary, the scope code, and the entries older than this number -/
  | release (b : Bound) (scope seq : Nat)
  /-- a signal or request on its way to the phaser engine (R298) -/
  | phSend (id : Nat) (b : Bound)
  /-- counted or applied at the phaser engine, awaiting its reply (R297, R298, R300) -/
  | phReply (d : Option R) (v : Word)
  /-- a wait half (R299): destination, phaser key, issue cycle; of a PHWAIT 0, of a PHSW whose signal has counted 1, of one that the
  queue has passed besides, because a freeze found it so, 2 (R298) -/
  | phWait (d : R) (key cyc sig : Nat)
  /-- RDV or HALT waiting for copies (R336) -/
  | copies
  /-- WAITT (R309): wake time in ns, ticket -/
  | sleep (ns : Nat) (ticket : Option Nat)
  /-- a request to the command complex (R333, R335): its number -/
  | complexReq (id : Nat) (d : R)
  /-- frozen-state reply (R415): destination if any, its value, and the operation performed at the reply: 0 none, 1 resume,
  2 kill; with the record's handle -/
  | frozen (d : Option R) (v : Word) (act handle : Nat)
  /-- LEASE waiting for a grant (R220): steps asked for -/
  | lease (n : Nat)
  /-- a step waiting for array spacing (R231) -/
  | step
  /-- PUBL until T (R262): its number in `publs` -/
  | publ (id : Nat)
  /-- PUBREG (R293): destination, region key, base, length, twin, and the status; length 0 releases -/
  | pubreg (d : R) (pubrid base len twin : Nat) (status : Nat)
  /-- TFENCE until the last declared write cycle (R406) -/
  | tfence (due : Nat)
  /-- YIELD until the region next holds a slot (R341) -/
  | yield
  /-- a micro-order whose wait finds no token (R45) -/
  | token (fifo : Nat)
  /-- a micro-order whose signal finds no room (R45) -/
  | room (fifo : Nat)
  /-- GSET whose descriptor lies in host memory (R244): slot and words -/
  | gset (slot : Nat) (words : List Nat)
  /-- GB without its landing credit (R247) -/
  | credit (slot : Nat)
  /-- a strip micro-order without its packets (R318) -/
  | packet
  /-- a fault deferred on a predicted path (R52) -/
  | deferred (f : Flt) (tag : Nat)
  /-- a load/store micro-order that reached a pausing HBM4E stack of its BFD (R312) -/
  | paused (stack : Nat)
  /-- MTC to XINVC while BUSY (R382) -/
  | busy
  deriving DecidableEq, Repr

/-- What a ranger stream carries (R289, R409). -/
structure RangerInfo where
  handle : Nat
  /-- seat: physical die key, seat number -/
  die : Nat
  seat : Nat
  spawn : Nat
  seqNo : Nat := 0
  /-- the second ranger of R412 -/
  second : Bool := false
  deriving DecidableEq, Repr

/-- A stream (R40 to R43): status, fetch queue or table position, registers, store buffer, snapshot, translation cache. -/
structure Stream where
  job : Nat := 0
  sel : Sel := {}
  state : SState := .idle
  prev : SState := .idle
  spec : Bool := false
  wfifo : Nat := 0
  dbank : Nat := 0
  /-- engine step counter; a scalar stream's PC is `fq0.waddr` -/
  step : Nat := 0
  base : Nat := 0
  len : Nat := 0
  fq0 : FQ := {}
  fq1 : FQ := {}
  fq2 : FQ := {}
  /-- words still to come that stand in a delay slot of an executed branch or jump (R91, R120) -/
  slots : Nat := 0
  /-- the words priming or a refill buffered, from word `fbufAt` (R48, R124) -/
  fbuf : List Nat := []
  fbufAt : Nat := 0
  regs : SMap Word := []
  sb : List SBEnt := []
  snap : Homes := {}
  l1 : List Tlb := []
  /-- job cycle after which the next word issues: the cycle of the last issue -/
  lastIssue : Nat := 0
  /-- true until the first word after a start: its delay counts from the start itself (R41) -/
  fresh : Bool := true
  hold : Hold := .none
  tickets : List Ticket := []
  nextTicket : Nat := 0
  /-- wheel ownership and slot phases (R265, R270) -/
  wheel : Nat := 0
  phases : Nat := 0
  ranger : Option RangerInfo := none
  /-- leading micro-orders primed (R48) -/
  primed : Nat := 0
  /-- secondary fault code (R403) -/
  scode : Nat := 0
  /-- token signal of a held micro-order, counted when it completes: FIFO and speculation tag (R44, R108) -/
  sig : Option (Nat × Option Nat) := none
  /-- signals counted when the last entry of a group has performed (R315): group, FIFO, tag -/
  drainSigs : List (Nat × Nat × Option Nat) := []
  /-- kept words of a rewound window (R401): (job cycle of issue, result), and for a copy also (2^40 + that cycle, its number) -/
  kept : List (Nat × Word) := []
  deriving DecidableEq, Repr

/-- A token FIFO (R44, R339): count, owning job, signals pending above 255, signals in flight to it, and the credit copies of its
remote producers (R45): `credit` is the copy of one that has sent nothing, `copies` those of the others by stream. -/
structure Fifo where
  count : Nat := 0
  owner : Option Nat := none
  pend : Nat := 0
  inflight : Nat := 0
  credit : Nat := 0
  copies : SMap Nat := []
  deriving DecidableEq, Repr

/-- Batch states (R233). -/
inductive BState where
  | free | opened | closed
  deriving DecidableEq, Repr

/-- A batch (R233 to R235). -/
structure Batch where
  state : BState := .free
  tag : Option Nat := none
  lease : Nat := 0
  twins : List Nat := []
  /-- latest write cycle of its steps -/
  lastWrite : Nat := 0
  hasStep : Bool := false
  closeAt : Nat := 0
  /-- its tag has resolved and its cc is set (R235) -/
  resolved : Bool := false
  deriving DecidableEq, Repr

/-- Lease and batches of a matrix core (R217, R220, R233). -/
structure MCore where
  lheld : Bool := false
  lleft : Nat := 0
  leaseNo : Nat := 0
  /-- a pending request, in steps -/
  req : Option Nat := none
  released : Bool := false
  batches : SMap Batch := []
  mrb : Option Nat := none
  /-- last tile landed by a gather slot: (tile, gather context key, slot) -/
  landed : List (Nat × Nat × Nat) := []
  deriving DecidableEq, Repr

/-- A tile's bytes, attributes and scale store (R64, R65, R219). -/
structure Tile where
  bytes : Wide := []
  sg : Nat := 0
  midr : Bool := false
  scales : SMap Nat := []
  deriving DecidableEq, Repr

/-- A gather descriptor slot (R244). -/
structure GSlot where
  words : List Nat := []
  row : Nat := 0
  col : Nat := 0
  credit : Nat := 0
  deriving DecidableEq, Repr

/-- A packet in a strip: where it goes (destination home, partition) and its 512 bytes; `idx` is its contributor index (R317), `hops` the
links between switch dies that it has crossed (R13). -/
structure Packet where
  dst : Nat
  idx : Nat
  hops : Nat := 0
  data : List Byte
  deriving DecidableEq, Repr

/-- A router strip's queues and route epoch (R317, R437). -/
structure Strip where
  ports : SMap (List Packet) := []
  epoch : Nat := 0
  deriving DecidableEq, Repr

/-- A context's state on a cluster: what a thermos swap exchanges (R429), with its dictionary banks (R109) and ECL (R361). -/
structure Cctx where
  /-- control registers by number; an unlisted number holds its Reset value -/
  cregs : SMap Word := []
  fifos : SMap Fifo := []
  /-- entry key: class × 1024 + bank × 256 + entry; 96 bits -/
  dict : SMap Nat := []
  dictWritten : List Nat := []
  /-- V registers: unit × 64 + n -/
  vregs : SMap Wide := []
  /-- L and O: (unit × 5 + column) × 16 + operand code -/
  cols : SMap Wide := []
  masks : SMap Wide := []
  /-- tiles: core × 16 + j -/
  tiles : SMap Tile := []
  /-- committed and tentative accumulators: core × 4 + i; chunk (row × 512 + column) / 2 -/
  acc : SMap Wide := []
  twin : SMap Wide := []
  cores : SMap MCore := []
  gslots : SMap GSlot := []
  strips : SMap Strip := []
  /-- energy: charges not yet folded, residues, saturation (R361) -/
  eclPj : Nat := 0
  dfrac : Nat := 0
  sres : Nat := 0
  esat : Bool := false
  /-- this cluster's copy of the context's total (R363) -/
  ecnt : Nat := 0
  fseq : Nat := 0
  ecntSat : Bool := false
  /-- amount folded and awaiting its arrival -/
  folded : Nat := 0
  /-- ECL as it stood at the start of the last cluster cycle that charged it (R449): one more than that cycle, EPJ, DFRAC, ESAT -/
  eclAt : Nat × Nat × Nat × Bool := (0, 0, 0, false)
  /-- the last step that the array accepted: its job cycle and rows (R231) -/
  lastAccept : Option (Nat × Nat) := none
  /-- 4 KiB chunks of its cluster's local stores that the context wrote since its last restore (R434) -/
  dirty : List Nat := []
  deriving DecidableEq, Repr

/-- Where one byte of a page stands: virtual address, unswizzled home key, swizzle-span code, PUBRID. -/
structure Place where
  va : Nat
  key : Nat
  span : Nat
  pub : Nat
  deriving DecidableEq, Repr

/-- A step accepted by an array (R231, R232): core, accumulator, batch, issue cycle, shape, group size, LAT(9), first tiles of the
two stacks and their configurations, the operands as read so far, and the STEP of its micro-order. -/
structure MStep where
  core : Nat
  acc : Nat
  batch : Nat
  p : Nat
  m : Nat
  n : Nat
  k : Nat
  g : Nat
  lat9 : Nat
  ta : Nat
  tb : Nat
  fa : List Nat
  fb : List Nat
  a : List Tile
  b : List Tile
  step : Nat
  deriving DecidableEq, Repr

/-- A register that results write and words read (R56), each by its key: a scalar register of a stream; a control register, a V, L or O
register, a mask, a tile, an accumulator and a tentative twin of a context-cluster. -/
inductive Loc where
  | scalar (sid n : Nat) | creg (cc c : Nat) | vec (cc k : Nat) | col (cc k : Nat) | mask (cc k : Nat) | tile (cc k : Nat)
  | acc (cc k : Nat) | twin (cc k : Nat)
  deriving DecidableEq, Repr

/-- What a result writes when its declared write cycle comes (R105). -/
inductive Eff where
  /-- a scalar register (S0 is discarded) -/
  | reg (n : Nat) (v : Word)
  /-- LD.ACQ: it reads the homes given and refreshes as it writes (R258, R277); own entries below a number still win. A published
  copy was read at issue (R261): no homes, and the value -/
  | regAcq (n : Nat) (w : Width) (homes : List Nat) (mark : Nat) (v : Word)
  /-- a control register, by MTC's rules already applied -/
  | creg (c : Nat) (v : Word)
  /-- arithmetic flags ORed into an ASTAT (R165) -/
  | flags (c : Nat) (f : Nat)
  /-- vector registers: (operand code, value, write mask); L takes the first of them as merged (R58, R60, R188) -/
  | vec (unit col : Nat) (ws : List (Nat × Wide × Wide))
  /-- a mask register: value and write mask (R192) -/
  | mask (unit m : Nat) (v k : Wide)
  /-- token signal of the cluster's FIFO (R44) -/
  | sig (fifo : Nat)
  /-- a row of TLD (R228): the configuration it issued under, row bytes at a byte offset, attributes at the last row -/
  | tileRow (core tile cfg off : Nat) (bytes : List Byte)
  | tileAttr (core tile : Nat) (sg : Nat) (midr : Bool) (scales : SMap Nat)
  /-- a row of ACCRD.IN (R242) -/
  | accRow (core acc row : Nat) (vals : List Nat)
  /-- store entries of ACCRD's output form entering the buffer (R241) -/
  | enter (es : List SBEnt)
  /-- a step's write (R231) -/
  | twin (s : MStep)
  /-- a row that TST reads and places in the store buffer (R228): core, tile, configuration, row, tag, and each element's bytes -/
  | tst (core tile cfg row : Nat) (tag : Option Nat) (els : List (List Place × Nat))
  /-- TZERO and ACCZ (R224, R239) -/
  | tzero (core tile : Nat)
  | accZero (core acc : Nat)
  /-- a batch's commit or discard at cc (R233) -/
  | commit (core batch : Nat) (keep : Bool)
  /-- COMMIT or DISCARD of a tag taking effect (R236) -/
  | tag (t : Nat) (keep : Bool)
  /-- GB's landing (R246): context-cluster key of the target as GB found it, tile, configuration, attributes, FIFO, and the gather
  slot that earns back a credit -/
  | landing (tcc core tile : Nat) (cfg : Nat) (t : Tile) (fifo : Nat) (gcc slot : Nat)
  /-- a landing credit on its way back to its slot (R247) -/
  | landCredit (gcc slot : Nat)
  /-- TOKSET at the end of its issue cycle (R339): FIFO and count -/
  | tokset (fifo v : Nat)
  /-- a signal pending above 255 joins the count (R339) -/
  | tokUp (fifo : Nat)
  /-- the stop of a fixed-timing job 39 cycles after its HALT (R342) -/
  | halt
  /-- GSET's slot write (R244) -/
  | gslot (slot : Nat) (words : List Nat)
  /-- a load stream's packet landing at its destination homes (R314): its lines, and whether it refreshes -/
  | land (es : List SBEnt) (acq : Bool)
  /-- a strip packet leaving on a port (R317) -/
  | strip (strip port : Nat) (p : Packet)
  deriving DecidableEq, Repr

/-- A result in flight (R105, R402): number, job, logical cluster, context-cluster key, stream, declared write cycle in job
cycles, the order among same-cycle writes (R59), issue cycle. -/
structure Pend where
  id : Nat
  job : Nat
  lc : Nat
  cc : Nat
  sid : Nat
  due : Nat
  ord : Nat := 0
  iss : Nat := 0
  /-- speculation tag holding the signal (R52) -/
  spec : Option Nat := none
  /-- cycles after its declared write cycle at which it is ready (R106) -/
  late : Nat := 0
  /-- a commit waiting for its batch (R235) and other marks that a resumed job keeps -/
  eff : Eff
  deriving DecidableEq, Repr

/-- The packet of a load/store RED (R314): the home of each byte, type, rounding, operand bytes, and the number its signal waits for. -/
structure RedPk where
  homes : List Nat
  type : Nat
  rnd : Nat
  src : List Byte
  grp : Nat
  deriving DecidableEq, Repr

/-- An atomic in flight (R268, R281, R288, R289). -/
structure Atom where
  id : Nat
  sid : Nat
  op : AOp
  /-- plain load or store of an SC.LD or SC.ST: 0 atomic, 1 load, 2 store -/
  form : Nat := 0
  w64 : Bool
  home : Nat
  place : Nat
  opnd : Word
  cmp : Word := 0
  /-- destination, absent for RED -/
  d : Option R := none
  sc : Bool := false
  /-- (turn, position) of an SC operation (R267) -/
  point : Nat := 0
  /-- source and sequence number of a sequenced atomic (R289) -/
  source : Option (Nat × Nat) := none
  resends : Nat := 0
  /-- the old value, once served -/
  done : Option Word := none
  /-- a RED's fault found after issue (R284) -/
  flt : Option Flt := none
  va : Nat := 0
  job : Nat := 0
  cx : Nat := 0
  /-- job cycle of issue (R401) -/
  iss : Nat := 0
  /-- part whose mailbox waits -/
  mbox : Option Nat := none
  /-- a load/store RED's packet -/
  red : Option RedPk := none
  deriving DecidableEq, Repr

/-- A copy request (R304 to R308). -/
structure Copy where
  id : Nat
  sid : Nat
  job : Nat
  cc : Nat
  cx : Nat
  dst : Nat
  src : Nat
  rows : Nat
  rowb : Nat
  dp : Int
  sp : Int
  /-- GEMB's index list -/
  idx : Option (List Nat) := none
  /-- packets written so far -/
  pos : Nat := 0
  promise : Nat := 0
  engine : Nat := 0
  /-- store-buffer entries of the issuing stream numbered below this are older than the copy (R273) -/
  mark : Nat := 0
  failed : Bool := false
  complete : Bool := false
  deriving DecidableEq, Repr

/-- A publishable region (R260, R293): published copy at the homes, draft overlaid by byte. -/
structure Region where
  pubrid : Nat
  base : Nat
  len : Nat
  twin : Nat
  /-- (home, byte) the draft holds apart from the published copy -/
  draft : List Host.Cell := []
  /-- the stores that have reached the draft since the last PUBL, oldest first: job, home, byte left (R276) -/
  writes : List (Nat × Nat × Byte) := []
  deriving DecidableEq, Repr

/-- A PUBL in progress (R262, R263): when it reached the region's directory entry, from which requester port, and when its issue cycle
is over. -/
structure Publ where
  id : Nat
  sid : Nat
  cx : Nat
  pubrid : Nat
  at' : Nat := 0
  port : Nat := 0
  go : Nat := 0
  started : Bool := false
  deriving DecidableEq, Repr

/-- An invalidation in progress (R381). -/
structure Inval where
  id : Nat
  cx : Nat
  all : Bool
  va : Nat
  psz : Nat
  /-- by PUBRID (R383) -/
  pubrid : Nat := 0
  /-- slices still to forward, dies still to acknowledge -/
  slices : List Nat := []
  dies : List Nat := []
  /-- who waits: admin packet (part, pidx), or a ranger's context-cluster, or a PUBL -/
  admin : Option (Nat × Nat) := none
  ranger : Option Nat := none
  publ : Option Nat := none
  deriving DecidableEq, Repr

/-- A record of the reduction-fault log (R286). -/
structure RedRec where
  va : Nat
  w1 : Nat
  opnd : Word
  time : Nat
  deriving DecidableEq, Repr

/-- A cached RCB (R31, R34, R37): its words, HELD, DLMISS, slots and energy used in the period, DEBT. -/
structure Rcb where
  words : List Nat := []
  held : Bool := false
  dlmiss : Bool := false
  slots : Nat := 0
  energy : Nat := 0
  debt : Nat := 0
  /-- charges of its own jobs not yet gathered, in sixteenths of 1/1000 pJ (R364) -/
  chg : Nat := 0
  /-- words that apply at the next period boundary -/
  next : Option (List Nat) := none
  deriving DecidableEq, Repr

/-- A context (R28). -/
structure Context where
  fixed : Bool := false
  root : Nat := 0
  rcb : Nat := 0
  ewgt : List Nat := []
  going : Bool := false
  /-- fault-handler pool (R407): rights, code VA, length, stack VA -/
  pool : Option (Nat × Nat × Nat × Nat) := none
  /-- hamper area (R432): VA, length -/
  hamper : Option (Nat × Nat) := none
  /-- translations of its pages as they stood at HAMPER_SET -/
  hpages : List Tlb := []
  /-- context total (R363) -/
  ecnt : Nat := 0
  esat : Bool := false
  rfrecs : List RedRec := []
  rfovf : Nat := 0
  rflast : Nat := 0
  rfpend : Bool := false
  regions : List Region := []
  rcbs : SMap Rcb := []
  deriving DecidableEq, Repr

/-- A share descriptor (R328). -/
structure Share where
  sel : Sel := {}
  tbase : Nat := 0
  tlen : Nat := 0
  wheel : Nat := 0
  phases : Nat := 0
  tokens : List Nat := []
  deriving DecidableEq, Repr

/-- Where a job stands (R38, R39, R43, R48, R49). -/
inductive JPhase where
  | waiting | priming | primed | running | frozen | halting | ended
  deriving DecidableEq, Repr

/-- A job's clock on a logical cluster (R402): the cluster cycle at job cycle 0, or the job cycle at which it stands. -/
structure JClk where
  origin : Int := 0
  stopped : Option Nat := some 0
  deriving DecidableEq, Repr

/-- Who launched a job (R38, R329). -/
inductive Source where
  | host (pidx : Nat) | basket (i : Nat) | fork (parent : Nat) | ranger
  deriving DecidableEq, Repr

/-- A predicted path (R51 to R53): whether it is open; the drafts of the context's regions by PUBRID, and the homes, as they stood when
it opened; and the draft bytes written under it, by PUBRID and home. -/
structure Tag where
  opened : Bool := false
  base : List (Nat × List Host.Cell) := []
  homes : Homes := {}
  saved : List (Nat × Nat) := []
  deriving DecidableEq, Repr

/-- A job (R38). -/
structure Job where
  cx : Nat := 0
  jobid : Nat := 0
  queue : Nat := 0
  source : Source := .ranger
  image : Nat := 0
  rcb : Nat := 0
  prime : Nat := 0
  dbank : Nat := 0
  args : List Word := []
  lat : List Nat := []
  fixed : Bool := false
  shares : List Share := []
  dictimg : Nat := 0
  imglen : Nat := 0
  phase : JPhase := .waiting
  clk : SMap JClk := []
  /-- logical clusters still to prime, to start, and carried shares still to run (R22) -/
  toPrime : List Nat := []
  /-- logical clusters whose dictionary image is not stored yet (R115) -/
  dictDue : List Nat := []
  startAt : Option Nat := none
  /-- draft values to restore by tag; whether a tag is open on a cluster at 16 + 4 × cluster key + tag (R236) -/
  tags : SMap Tag := []
  deadline : Option Nat := none
  handle : Option Nat := none
  halted : Bool := false
  /-- number of the HALT whose stop is on its way, 0 none (R342) -/
  haltId : Nat := 0
  /-- when it froze during priming (R50) -/
  atPriming : Bool := false
  /-- inside the window F to F + 30 of a fixed-timing freeze (R401) -/
  window : Bool := false
  pauses : Nat := 0
  /-- running share on each carrier: physical die key → logical die (R22) -/
  share : SMap Nat := []
  deriving DecidableEq, Repr

/-- A stream entry of a composite record (R405). -/
structure RecEnt where
  scode : Nat
  sid : Nat
  sel : Sel
  estat : Word
  pos : Word
  next : Nat
  deriving DecidableEq, Repr

/-- A composite record (R404). -/
structure Rec where
  gen : Nat := 0
  nonce : Nat := 0
  live : Bool := false
  rights : Nat := 0
  flt : Flt := { code := .illegalOp }
  code : Nat := 0
  cause : Nat := 0
  fixed : Bool := false
  esc : Bool := false
  nest : Bool := false
  job : Nat := 0
  jobid : Nat := 0
  fcyc : Nat := 0
  cx : Nat := 0
  primary : Nat := 0
  sel : Sel := {}
  word : Nat := 0
  lform : Nat := 0
  wbank : Nat := 0
  wdict : Bool := false
  ftime : Nat := 0
  entries : List RecEnt := []
  pends : List (Sel × Nat × Nat) := []
  die : Nat := 0
  core : Nat := 0
  cluster : Nat := 0
  ranger : Option Nat := none
  tries : Nat := 0
  deriving DecidableEq, Repr

/-- An event for the host's event ring (R426): its four words. -/
structure Event where
  w0 : Nat
  w1 : Nat
  w2 : Nat
  w3 : Nat
  deriving DecidableEq, Repr

/-- A member of a phaser (R296): stream, mode, counters, a signal waiting at the engine. -/
structure Member where
  sid : Nat
  mode : PhMode
  sc : Nat
  wc : Nat
  /-- the stream held for a signal that waits at the engine for the advance -/
  ahead : Option Nat := none
  deriving DecidableEq, Repr

/-- A phaser (R296), with the tick of its last advance (R299). -/
structure Phaser where
  ph : Nat := 0
  cx : Nat := 0
  adv : Nat := 0
  members : List Member := []
  deriving DecidableEq, Repr

/-- A launch on its way to the dispatcher (R329, R345): its eight words and where it came from. -/
structure Launch where
  words : List Nat
  source : Source
  queue : Nat
  cx : Nat
  /-- held under R19 -/
  held : Bool := false
  /-- order of arrival at the dispatcher (R19, R332) -/
  arr : Nat := 0
  deriving DecidableEq, Repr

/-- A host queue (R343 to R346, R358, R389). -/
structure Queue where
  qbase : Word := 0
  qctl : Word := 0x0004400000000140#64
  qtail : Nat := 0
  qhead : Nat := 0
  cbase : Word := 0
  chead : Nat := 0
  ctail : Nat := 0
  cfull : Bool := false
  resetting : Bool := false
  err : Bool := false
  /-- packets read since enable -/
  pidx : Nat := 0
  /-- reading stopped at an unreadable packet (R345) -/
  stuck : Bool := false
  valid : List Launch := []
  /-- admin commands accepted and not yet complete: (pidx) -/
  busy : List Nat := []
  waiting : List (Nat × Nat) := []
  /-- the write of the oldest waiting record failed -/
  cfail : Bool := false
  ipend : Nat := 0
  t1 : Nat := 0
  cf : List Nat := [0, 0, 0, 0]
  deriving DecidableEq, Repr

/-- A basket record (R329, R332). -/
structure Basket where
  words : List Nat
  state : Nat := 0
  status : Nat := 0
  jobid : Nat := 0
  queue : Nat := 0
  deriving DecidableEq, Repr

/-- A partition (R15 to R19, R331, R343, R425). -/
structure Part where
  counts : List Nat := [0, 0, 0, 0, 0]
  own : List Nat := [0, 0, 0, 0, 0]
  manager : Bool := false
  floor : Nat := 0
  hc : List Word := [0, 0, 0, 0, 0]
  gen : Nat := 0
  rcpend : Bool := false
  /-- withdrawn ranges (R23) and kinds whose images did not fit -/
  withdrawn : List (Nat × Nat) := []
  nofold : List Nat := []
  /-- where the share of a logical number that does not run has its images (R23): 16 × kind + number → index among the kind's images;
  an extra share not listed is in its own -/
  images : SMap Nat := []
  queues : SMap Queue := []
  bsize : Nat := 1
  basket : SMap Basket := []
  armed : List Launch := []
  held : List Launch := []
  /-- the queue served last at each priority (R345) -/
  turn : SMap Nat := []
  /-- router strips it owns on each physical switch die, a bit each (R15) -/
  strips : List Nat := [0xFFFF, 0xFFFF, 0xFFFF, 0xFFFF]
  /-- the mailbox registers (R291) -/
  abx : List Word := [0, 0, 0, 0, 0, 0]
  evbase : Word := 0
  evctl : Word := 0
  evtail : Nat := 0
  evhead : Nat := 0
  /-- FULL as the IOD last reported it (R425): 1 while EN is 0 -/
  evfull : Bool := true
  evbp : Bool := false
  evheld : List Event := []
  masked : List Nat := []
  pendVec : List Nat := []
  /-- firmware store of escalated records (R411) -/
  escalated : List Nat := []
  /-- partition swap in progress (R436): admin packet index, then S once known, clusters still swapping -/
  swap : Option (Nat × Nat × List Nat) := none
  /-- the number of the draw that gave the partition its AES-256-XTS key (R394, log 114) -/
  key : Nat := 0
  /-- SPDM session open, key-update count (R392) -/
  session : Bool := false
  handshake : Bool := false
  keyUpdates : Nat := 0
  deriving DecidableEq, Repr

/-- A cluster or partition core (R9, R459): clock, rail, thermos bank, slots, thermal and self-test state. -/
structure PClu where
  cycBase : Nat := 0
  tickBase : Nat := 0
  period : Nat := 40
  stretch : Bool := false
  stretchFrom : Nat := 0
  active : Option Nat := none
  bank : Option Nat := none
  /-- 128-cycle swap in progress until this cycle; the incoming key -/
  swapping : Bool := false
  relock : Bool := false
  pinned : Bool := false
  low : Bool := false
  switching : Bool := false
  /-- residency since the last 1000 ns boundary (R362): (context-cluster, ns) and the current occupant's start -/
  occ : List (Nat × Nat) := []
  occFrom : Nat := 0
  /-- whether the occupant has won the cluster, so that its residency counts -/
  occOn : Bool := false
  /-- on the low rail because every cluster of the die was hot (R369) -/
  thermLow : Bool := false
  /-- slot in force: (context, RCB), turn holders by priority: (context, RCB, slots) -/
  slot : Option (Nat × Nat) := none
  turns : SMap (Nat × Nat × Nat) := []
  yielded : List Nat := []
  temp : Nat := 0
  droops : Nat := 0
  shed : Bool := false
  hot : Bool := false
  /-- when work was last moved to it (R368) -/
  movedAt : Option Nat := none
  /-- array: last lease holder (R221) -/
  lastHolder : Nat := 1
  retired : Bool := false
  /-- a contained event has retired it and its work has not left yet (R441) -/
  retiring : Bool := false
  arrayRetired : Bool := false
  testing : Bool := false
  deriving DecidableEq, Repr

/-- Boot states (R390). -/
inductive Boot where
  | held | ident | verified | measured | present | barred
  deriving DecidableEq, Repr

/-- A bind record of a slot table (R348). -/
structure Bind where
  part : Nat
  ctx : Nat
  resv : Nat
  clmask : Nat
  rcb : Nat
  /-- reserved slots left, by cluster -/
  left : SMap Nat := []
  deriving DecidableEq, Repr

/-- A machine-check bank (R438). -/
structure McBank where
  status : Word := 0
  addr : Word := 0
  misc : Word := 0
  count : Nat := 0
  /-- when the event recorded arrived, and from which requester port (R439) -/
  tick : Nat := 0
  port : Nat := 0
  deriving DecidableEq, Repr

/-- A die link (R442): live, beat being replayed with its tries and waiting stream. -/
structure Link where
  dead : Bool := false
  replay : Option (Nat × Nat) := none
  deriving DecidableEq, Repr

/-- A physical die (R10, R390, R408, R411, R427, R438, R442, R348, R312). -/
structure Die where
  boot : Boot := .present
  retired : Bool := false
  /-- seats: partition core × 4 + seat → stream -/
  seats : SMap Nat := []
  queue : List Nat := []
  window : List (Nat × Event) := []
  /-- by partition, the events that the full window did not keep, and the last code among them (R427) -/
  lost : SMap Nat := []
  lostCode : SMap Nat := []
  banks : SMap McBank := []
  binds : SMap Bind := []
  links : SMap Link := []
  /-- HBM4E stacks: scheduled pauses (stack, start in ns), paused now (R312) -/
  sched : List (Nat × Nat) := []
  paused : List Nat := []
  /-- when its last contained event was logged (R441) -/
  lastContained : Option Nat := none
  /-- its corrected events of the last second (R441): the unit of each, 16 × bank + cluster or link, and its tick -/
  corrected : List (Nat × Nat) := []
  /-- it is to retire for its events: the retirement is due (R441) -/
  failing : Bool := false
  deriving DecidableEq, Repr

/-- A capability with its tag (R385). -/
structure Cap where
  v : BitVec 128 := 0
  tag : Bool := false
  deriving DecidableEq, Repr

/-- A core of the command complex (R385 to R389): capability registers, integer registers, pc, the packet it serves and the last
RV64 exception cause it took. -/
structure Core where
  k : SMap Cap := []
  x : SMap Word := []
  pc : Word := 0
  part : Nat := 0
  queue : Nat := 0
  pidx : Nat := 0
  mcause : Nat := 0
  mepc : Word := 0
  deriving DecidableEq, Repr

/-- A cached tuple of the reply cache (R289). -/
structure Reply where
  seq : Nat
  addr : Nat
  op : Nat
  old : Word
  deriving DecidableEq, Repr

/-- What left the package for the host or fabric manager. -/
inductive Out where
  | msix (part vec : Nat)
  | data (part : Nat) (bytes : List Byte)
  | unsupported (part : Nat)
  | readError (part : Nat)
  | word (part : Nat) (v : Word)
  | reply (part code : Nat) (bytes : List Byte)
  deriving DecidableEq, Repr

/-- What a fixed-timing freeze rewinds to: the job's streams, cluster states and results in flight as they stood at F (R401). -/
structure Save where
  cyc : Nat := 0
  streams : SMap Stream := []
  ccs : SMap Cctx := []
  pend : List Pend := []
  deriving DecidableEq, Repr

/-- The machine: everything but the package time. -/
structure Mach where
  parts : SMap Part := []
  ctxs : SMap Context := []
  ccs : SMap Cctx := []
  pcs : SMap PClu := []
  dies : SMap Die := []
  jobs : SMap Job := []
  streams : SMap Stream := []
  pend : List Pend := []
  atoms : List Atom := []
  copies : List Copy := []
  recs : SMap Rec := []
  saves : SMap Save := []
  phs : SMap Phaser := []
  slices : SMap (List Tlb) := []
  invs : List Inval := []
  publs : List Publ := []
  kcores : SMap Core := []
  /-- the complex's private SRAM by 16-byte granule (R385) -/
  sram : SMap Cap := []
  homes : Homes := {}
  /-- register bytes whose parity does not match (R80) -/
  spoiled : List (Loc × Nat) := []
  replies : SMap (List Reply) := []
  newest : SMap Nat := []
  /-- engine backlog in ns of package time at which each copy engine is free (R308) -/
  engines : SMap Nat := []
  /-- by atomic unit, one more than the 1.75 GHz cycle in which it last accepted an operation (R268) -/
  units : SMap Nat := []
  /-- tick at which the last transfer on its way arrives, by source stream and destination: a later one arrives no sooner (R12) -/
  lanes : SMap Nat := []
  /-- thermal and retirement moves: a physical cluster of R16's carrier → the one of its die where its work now stands (R368, R441) -/
  moves : SMap Nat := []
  hostWidth : Nat := 16
  pcap : Nat := Config.pcapReset
  pidle : Nat := 0
  pnow : Nat := 0
  /-- the governor's steps in force, newest first (R367): 2^16 + a cluster's key for a rail step, 1 spare slots, 2 fixed-timing jobs -/
  gov : List Nat := []
  /-- partitions whose spare slots are withheld, and 8 + those whose fixed-timing jobs are (R367) -/
  withheld : List Nat := []
  /-- measurements by index (R391), accepted security versions (R397) -/
  meas : SMap (BitVec 384) := []
  /-- the manifest read at power-good, while dies boot: whether the factory section was accepted, its version, whether the owner
  section was, its version, then per partition OWN and configured counts by kind, the manager flag and the floor (R396, R397) -/
  manifest : Option (List Nat) := none
  facVer : Nat := 0
  ownVer : Nat := 0
  trdUp : Bool := true
  stopped : Bool := false
  /-- the model's own fields: events to come (due tick, event, operands), next number, free-value counter, executing stream and the
  length of its word, what left the package -/
  agenda : List (Nat × Instr × List Nat) := []
  /-- the package time, as `State.now` has it while steps are taken, for what a charge or an event of a bank must know of it (log 113) -/
  clock : Nat := 0
  /-- a translation missed the L1 while the present word executed (R380) -/
  miss : Bool := false
  /-- operands of the event being taken, as its agenda entry gives them -/
  ev : List Nat := []
  seq : Nat := 0
  fresh : Nat := 0
  cur : Nat := 0
  curLen : Nat := 1
  /-- the command-complex core whose instruction executes, and its turn -/
  kcur : Nat := 0
  kturn : Bool := false
  /-- long form of the word being executed, for the record (R404) -/
  lform : Nat := 0
  out : List Out := []
  deriving DecidableEq, Repr

/-- The state: package time in ticks of 1/84 ns, and the machine. -/
structure State where
  now : Nat := 0
  mach : Mach := {}
  deriving DecidableEq, Repr

/-- Why a step stops the machine. -/
inductive Fault where
  /-- raised by `step` only: a fatal machine check of package scope stopped every partition, the package needs a boot, and no
  power-good is to come (R439). Safe: the spec gives the package no step until then. -/
  | packageStopped
  deriving DecidableEq, Repr

/-- Why the model gives a step no meaning. -/
inductive Refusal where
  /-- an instruction without a meaning in the model; raised by its arm of `exec`. Safe. -/
  | notModelled (mnemonic : String)
  deriving DecidableEq, Repr

/-- What a step answers. -/
abbrev Ans := Host.Outcome State Fault Refusal

/-- The headcount word of a kind right after reset: every die of the kind present and owned by partition 0, carrying its own
number (R16, R17). -/
def resetHc (k : Nat) : Word :=
  let n := Config.dieCount k
  let fold := (List.range n).foldl (fun a l => a + l * 8 ^ l) 0
  wd (n * 2 ^ 52 + n * 2 ^ 48 + fold * 2 ^ 24 + (2 ^ n - 1) * 2 ^ 16 + (2 ^ n - 1))

/-- Partition 0 after a boot without an owner section: it owns every present die, no manager, floor 0 (R397). -/
def resetPart : Part where
  counts := [8, 4, 8, 4, 4]
  own := [0xFF, 0xF, 0xFF, 0xF, 0xF]
  hc := [resetHc 0, resetHc 1, resetHc 2, resetHc 3, resetHc 4]
  queues := [(0, { qctl := 0x0104400000000140#64 })]

/-- The root capability of partition 0 (R385): RD, WR and STAMP over the low 2^40 − 1 bytes. DESIGN CHOICE: log 12. -/
def rootCap : Cap := { v := BitVec.ofNat 128 (0x023 * 2 ^ 116 + (2 ^ 40 - 1) * 2 ^ 56), tag := true }

/-- The machine right after partition reset of a booted ZHV-Z8 whose partition 0 owns every die (log 1). -/
def State.reset : State where
  now := 0
  mach := { parts := [(0, resetPart)], kcores := [(0, { k := [(1, rootCap)] })] }

end Sys2Proof.Machine
end

