-- ==== Sys2Proof/Machine/Ops.lean ====
section
/-! DEFINITION. The named operations over the machine: sparse maps, homes, clocks, store buffers and snapshots, translation, the
fetch queue, results in flight, machine-check banks, events, and taking an exception (a freeze) with the return from it.

Every meaning is written over these. -/

namespace Sys2Proof.Machine

/-! ### Sparse maps -/

/-- The value at a key, if listed. -/
def sget? {α : Type} : SMap α → Nat → Option α
  | [], _ => none
  | (k', v) :: t, k => if k' == k then some v else sget? t k

/-- The value at a key, or the default. -/
def sget {α : Type} (m : SMap α) (k : Nat) (d : α) : α := (sget? m k).getD d

/-- The map with a key set, keys rising. -/
def sset {α : Type} : SMap α → Nat → α → SMap α
  | [], k, v => [(k, v)]
  | (k', v') :: t, k, v =>
    if k < k' then (k, v) :: (k', v') :: t else if k' == k then (k, v) :: t else (k', v') :: sset t k v

/-- The map without a key. -/
def sdel {α : Type} (m : SMap α) (k : Nat) : SMap α := m.filter (fun p => p.1 != k)

/-- The map with a key's value changed. -/
def smod {α : Type} (m : SMap α) (k : Nat) (d : α) (f : α → α) : SMap α := sset m k (f (sget m k d))

/-- Keys of a map. -/
def skeys {α : Type} (m : SMap α) : List Nat := m.map (·.1)

/-! ### Wide registers -/

/-- A chunk of a wide register. -/
def wget (w : Wide) (i : Nat) : Word := sget w i 0

/-- A wide register with a chunk set; a zero chunk is not listed. -/
def wset (w : Wide) (i : Nat) (v : Word) : Wide := if v == 0 then sdel w i else sset w i v

/-- Element `i` of width `w` bits (a divisor of 64), by the layout of R183. -/
def lane (r : Wide) (w i : Nat) : Nat := fld (wget r (i * w / 64)).toNat (i * w % 64) w

/-- A wide register from elements of width `w`, element 0 first. -/
def ofLanes (w : Nat) (vs : List Nat) : Wide :=
  let per := 64 / w
  let rec go (fuel : Nat) (i : Nat) (l : List Nat) : Wide :=
    match fuel with
    | 0 => []
    | f + 1 => match l with
      | [] => []
      | _ =>
        let v := wd ((l.take per).foldr (fun x a => x % 2 ^ w + 2 ^ w * a) 0)
        let rest := go f (i + 1) (l.drop per)
        if v == 0 then rest else (i, v) :: rest
  go (vs.length + 1) 0 vs

/-- The first `n` elements of width `w`. -/
def lanes (w n : Nat) (r : Wide) : List Nat := (List.range n).map (lane r w)

/-- Bits of `new` where `mask` is 1, of `old` elsewhere, chunk by chunk over `n` chunks. -/
def wmerge (n : Nat) (old new mask : Wide) : Wide :=
  (List.range n).foldl (fun a i =>
    let k := wget mask i
    if k == 0 then a else wset a i ((wget old i &&& ~~~k) ||| (wget new i &&& k))) old

/-- All ones over `n` chunks. -/
def wones (n : Nat) : Wide := (List.range n).map (fun i => (i, BitVec.allOnes 64))

/-! ### Homes (R251, R252) -/

/-- A number from little-endian bytes (R4). -/
def leNat (bs : List Byte) : Nat := bs.foldr (fun b a => b.toNat + 256 * a) 0

/-- `n` little-endian bytes of a number (R4). -/
def leBytes (n v : Nat) : List Byte := (List.range n).map (fun i => BitVec.ofNat 8 (v / 256 ^ i))

/-- Little-endian 64-bit words of bytes. -/
def wordsOf (bs : List Byte) : List Nat := (List.range (bs.length / 8)).map (fun i => leNat ((bs.drop (8 * i)).take 8))

/-- A home's byte: the listed one, else a free value on a garbled line (R395), else 0 (log 2). -/
def homeByte (h : Homes) (a : Nat) : Byte :=
  match sget? h.cells a with
  | some b => b
  | none => match h.garbled.find? (fun g => g.1 ≤ a && a < g.1 + g.2.1) with
    | some g => Config.garbledByte g.2.2 a
    | none => 0

/-- The byte map with a byte written, kept canonical: the value an unlisted byte reads as is not listed. -/
def cellSet (c : List Host.Cell) (a : Nat) (b : Byte) : List Host.Cell := if b == 0 then sdel c a else sset c a b

/-- Garbled ranges without one address: a written byte is no longer garbled. -/
def cutGarbled (g : List (Nat × Nat × Nat)) (a : Nat) : List (Nat × Nat × Nat) :=
  g.flatMap (fun (b, n, k) => if b ≤ a && a < b + n then
    (if a == b then [] else [(b, a - b, k)]) ++ (if a + 1 == b + n then [] else [(a + 1, b + n - (a + 1), k)]) else [(b, n, k)])

/-- A byte written at its home. -/
def homeSet (h : Homes) (a : Nat) (b : Byte) : Homes :=
  { h with cells := cellSet h.cells a b, garbled := cutGarbled h.garbled a, weak := h.weak.filter (fun w => w != a / 16) }

/-- `n` bytes at a home, lowest first. -/
def homeRead (h : Homes) (a n : Nat) : List Byte := (List.range n).map (fun i => homeByte h (a + i))

/-- Bytes written at a home, lowest first. -/
def homeWrite (h : Homes) (a : Nat) : List Byte → Homes
  | [] => h
  | b :: t => homeWrite (homeSet h a b) (a + 1) t

/-- Whether any 16-byte ECC word of a range is bad (R440). -/
def badIn (h : Homes) (a n : Nat) : Bool := h.bad.any (fun w => a / 16 ≤ w && w ≤ (a + n - 1) / 16 && 0 < n)

/-- The home of the first ECC word of a place whose data is bad (R440). -/
def firstBad (h : Homes) (a n : Nat) : Nat := match h.bad.find? (fun w => a / 16 ≤ w && w ≤ (a + n - 1) / 16) with | some w => 16 * w | none => a
/-- The canonical form of memory: addresses strictly rising, no entry equal to what an unlisted byte reads as. -/
def Memory.wf (c : List Host.Cell) : Bool :=
  c.all (fun p => p.2 != 0) && (c.zip c.tail).all (fun p => p.1.1 < p.2.1)

/-- Key of a partition-physical or window address (R25, R73). -/
def homeKey (part a : Nat) : Nat := part * 2 ^ 57 + a
/-- Key of a host physical address: one home for every partition (R251). -/
def hostKey (a : Nat) : Nat := 2 ^ 62 + a
/-- Whether a home is host memory. -/
def isHost (k : Nat) : Bool := 2 ^ 62 ≤ k

/-- Buffer-SRAM swizzle of R70 on a home key: bits [9:4] are XORed with the row key under the span code; its own inverse. -/
def swz (span k : Nat) : Nat :=
  if span ≤ 5 then
    let key := fld k 10 6
    let b := fld k 4 6 ^^^ (key - key % 2 ^ span)
    k - fld k 4 6 * 16 + b * 16
  else k

/-! ### Keys -/

/-- Context key. -/
def cxKey (part ctx : Nat) : Nat := part * 64 + ctx
def cxPart (cx : Nat) : Nat := cx / 64
/-- Logical cluster key. -/
def lcKey (kind ldie cluster : Nat) : Nat := (kind * 16 + ldie) * 16 + cluster
def lcKind (lc : Nat) : Nat := lc / 256
def lcDie (lc : Nat) : Nat := lc / 16 % 16
def lcCluster (lc : Nat) : Nat := lc % 16
/-- Logical cluster of a selector. -/
def Sel.lc (s : Sel) : Nat := lcKey s.kind s.ldie s.cluster
/-- Context-cluster key. -/
def ccKey (cx lc : Nat) : Nat := cx * 2048 + lc
def ccCx (cc : Nat) : Nat := cc / 2048
def ccLc (cc : Nat) : Nat := cc % 2048
/-- Physical die key. -/
def dieKey (kind phys : Nat) : Nat := kind * 8 + phys
/-- Physical cluster key: a switch die has one per partition core (R459). -/
def pcKey (kind phys cluster core : Nat) : Nat := ((kind * 8 + phys) * 16 + cluster) * 8 + core
def pcDie (pc : Nat) : Nat := pc / 128
def pcCluster (pc : Nat) : Nat := pc / 8 % 16
def pcKind (pc : Nat) : Nat := pc / 1024
/-- Phaser key: partition, engine (die scope: 0 with the die's logical number; package scope: the SWD), index (R295). -/
def phKey (part scope kind ldie index : Nat) : Nat := (((part * 2 + scope) * 8 + kind) * 16 + ldie) * 64 + index

/-- A selector as a 21-bit word (R416). -/
def Sel.word (s : Sel) : Nat :=
  s.kind * 2 ^ 18 + s.ldie * 2 ^ 14 + s.cluster * 2 ^ 10 + s.cls.code * 2 ^ 7 + s.col * 2 ^ 4 + s.unit

/-- The ranking of R403: kind, logical die, cluster, class, column, unit. -/
def Sel.rank (s : Sel) : Nat := s.word

/-! ### Accessors -/

def Mach.str (m : Mach) (i : Nat) : Stream := sget m.streams i {}
def Mach.setStr (m : Mach) (i : Nat) (s : Stream) : Mach := { m with streams := sset m.streams i s }
def Mach.modStr (m : Mach) (i : Nat) (f : Stream → Stream) : Mach := m.setStr i (f (m.str i))
def Mach.job (m : Mach) (i : Nat) : Job := sget m.jobs i {}
def Mach.setJob (m : Mach) (i : Nat) (j : Job) : Mach := { m with jobs := sset m.jobs i j }
def Mach.modJob (m : Mach) (i : Nat) (f : Job → Job) : Mach := m.setJob i (f (m.job i))
def Mach.cct (m : Mach) (i : Nat) : Cctx := sget m.ccs i {}
def Mach.setCct (m : Mach) (i : Nat) (c : Cctx) : Mach := { m with ccs := sset m.ccs i c }
def Mach.modCct (m : Mach) (i : Nat) (f : Cctx → Cctx) : Mach := m.setCct i (f (m.cct i))
def Mach.ctx (m : Mach) (i : Nat) : Context := sget m.ctxs i {}
def Mach.setCtx (m : Mach) (i : Nat) (c : Context) : Mach := { m with ctxs := sset m.ctxs i c }
def Mach.modCtx (m : Mach) (i : Nat) (f : Context → Context) : Mach := m.setCtx i (f (m.ctx i))
def Mach.part (m : Mach) (i : Nat) : Part := sget m.parts i {}
def Mach.setPart (m : Mach) (i : Nat) (c : Part) : Mach := { m with parts := sset m.parts i c }
def Mach.modPart (m : Mach) (i : Nat) (f : Part → Part) : Mach := m.setPart i (f (m.part i))
def Mach.pcl (m : Mach) (i : Nat) : PClu := sget m.pcs i {}
def Mach.modPcl (m : Mach) (i : Nat) (f : PClu → PClu) : Mach := { m with pcs := smod m.pcs i {} f }
def Mach.die (m : Mach) (i : Nat) : Die := sget m.dies i {}
def Mach.modDie (m : Mach) (i : Nat) (f : Die → Die) : Mach := { m with dies := smod m.dies i {} f }
def Mach.frec (m : Mach) (i : Nat) : Rec := sget m.recs i {}
def Mach.modRec (m : Mach) (i : Nat) (f : Rec → Rec) : Mach := { m with recs := smod m.recs i {} f }
def Mach.queue (m : Mach) (p q : Nat) : Queue := sget (m.part p).queues q {}
def Mach.modQueue (m : Mach) (p q : Nat) (f : Queue → Queue) : Mach :=
  m.modPart p (fun pt => { pt with queues := smod pt.queues q {} f })
/-- A free value's number, and the machine after it. -/
def Mach.draw (m : Mach) : Nat × Mach := (m.fresh, { m with fresh := m.fresh + 1 })
/-- A fresh number for an object of the model. -/
def Mach.newId (m : Mach) : Nat × Mach := (m.seq, { m with seq := m.seq + 1 })
/-- What left the package. -/
def Mach.emit (m : Mach) (o : Out) : Mach := { m with out := m.out ++ [o] }

/-- An event put into the agenda at a tick, behind the events already there for that tick. -/
def agendaAdd : List (Nat × Instr × List Nat) → Nat → Instr → List Nat → List (Nat × Instr × List Nat)
  | [], t, e, a => [(t, e, a)]
  | (t', x) :: r, t, e, a => if t < t' then (t, e, a) :: (t', x) :: r else (t', x) :: agendaAdd r t e a
def Mach.at (m : Mach) (t : Nat) (e : Instr) (a : List Nat) : Mach := { m with agenda := agendaAdd m.agenda t e a }
/-- An event put into the agenda at a tick, ahead of the events already there for that tick. -/
def Mach.atFirst (m : Mach) (t : Nat) (e : Instr) (a : List Nat) : Mach :=
  { m with agenda := m.agenda.filter (fun x => x.1 < t) ++ (t, e, a) :: m.agenda.filter (fun x => t ≤ x.1) }
/-- An operand of the event being taken. -/
def Mach.arg (m : Mach) (i : Nat) : Nat := m.ev.getD i 0
/-- An event after a delay the spec does not fix (log 9): the free value at the counter, at most `bound` ticks. -/
def Mach.after (m : Mach) (now bound : Nat) (e : Instr) (a : List Nat) : Mach :=
  let (i, m) := m.draw
  m.at (now + (if bound == 0 then Config.delayTicks i else Config.delayTicks i % (bound + 1))) e a

/-- The executing stream waits on host memory (R279): the completion comes after a free delay, good or in error as a free value says,
or the host's completion timeout expires first. -/
def Mach.awaitHost (m : Mach) (now : Nat) : Mach :=
  let (i, m) := m.draw
  (m.after now 0 .hostCompletion [m.cur, b2n (bitOf (Config.freeWord i).toNat 0)]).at (now + Config.completionTicks) .completionTimeout [m.cur]
/-- A stream's wait for data from outside its die is over: what was still to come for it is no longer awaited. -/
def Mach.endHostWait (m : Mach) (sid : Nat) : Mach :=
  { m with agenda := m.agenda.filter (fun e =>
      !((e.2.1 == .hostCompletion || e.2.1 == .completionTimeout || e.2.1 == .dldEntryArrival) && e.2.2.headD 0 == sid)) }

/-! ### Routes (R11 to R14) -/

/-- Live switch dies that a compute die's live links reach (R11, R12, R443). -/
def Mach.liveSwitches (m : Mach) (dk : Nat) : List Nat :=
  (([0, 1].filter (fun l => !(sget (m.die dk).links l {}).dead)).map (fun l => (dk % 8 + l) % Config.dieCount 4)).filter (fun s =>
    !(m.die (dieKey 4 s)).retired && (m.die (dieKey 4 s)).boot == .present)
/-- An element put into a list that rises by a key, ahead of those of its own key; a list put in rising order, equal keys in theirs. -/
def putBy {α : Type} (key : α → Nat) (x : α) : List α → List α
  | [] => [x]
  | y :: t => if key x ≤ key y then x :: y :: t else y :: putBy key x t
def sortOn {α : Type} (key : α → Nat) (l : List α) : List α := l.foldr (putBy key) []
/-- The switch dies that a route between two compute dies passes (R12): the lowest shared one, else the lowest of each. -/
def Mach.route (m : Mach) (a b : Nat) : List Nat :=
  let x := sortOn id (m.liveSwitches a)
  let y := sortOn id (m.liveSwitches b)
  match x.find? y.contains with
  | some s => [s]
  | none => x.take 1 ++ y.take 1
/-- Cycles of the route between two physical dies (R13): 9 to a switch die, 6 through one, 9 between switch dies. The I/O die
attaches to every switch die. -/
def Mach.routeCy (m : Mach) (a b : Nat) : Nat :=
  let near := fun (c s : Nat) => 5 ≤ c / 8 || (m.liveSwitches c).contains (s % 8)
  if a == b then 0
  else if a / 8 == 4 then (if b / 8 == 4 || near b a then 9 else 24)
  else if b / 8 == 4 then (if near a b then 9 else 24)
  else if 5 ≤ a / 8 || 5 ≤ b / 8 || (m.route a b).length == 1 then 24 else 39
/-- A transfer of a source stream to a destination die: it takes at least `least` ticks, may take longer (R14), and arrives no sooner
than what the stream sent there before it (R12). -/
def Mach.transfer (m : Mach) (now least src dst : Nat) (e : Instr) (a : List Nat) : Mach :=
  let (i, m) := m.draw
  let key := src * 64 + dst % 64
  let t := max (now + least + Config.delayTicks i) (sget m.lanes key 0)
  ({ m with lanes := sset m.lanes key t } : Mach).at t e a

/-! ### Headcount and carriers (R16, R17) -/

def Part.lcount (p : Part) (k : Nat) : Nat := fld (p.hc.getD k 0).toNat 52 4
def Part.pcount (p : Part) (k : Nat) : Nat := fld (p.hc.getD k 0).toNat 48 4
def Part.carrier (p : Part) (k l : Nat) : Nat := fld (p.hc.getD k 0).toNat (24 + 3 * l) 3
/-- Whether a partition owns a router strip of a logical switch die (R15, R40). -/
def Part.ownsStrip (p : Part) (ldie unit : Nat) : Bool := bitOf (p.strips.getD (p.carrier 4 ldie) 0) unit
/-- The clusters and partition cores of every die of the part (R9), ascending. -/
def allClusters : List Nat :=
  (List.range 5).flatMap (fun k => (List.range (Config.dieCount k)).flatMap (fun i => (List.range (Config.clusterCount k)).flatMap (fun c =>
    (List.range (if k == 4 then 8 else 1)).map (pcKey k i c))))
/-- Those of the dies that boot has made present. -/
def Mach.presentClusters (m : Mach) : List Nat := allClusters.filter (fun pc => (m.die (pcDie pc)).boot == .present)
/-- Physical cluster of a partition's logical cluster: the carrier's, unless work moved it (R368). -/
def Mach.pcOf (m : Mach) (part lc : Nat) : Nat :=
  let pc := pcKey (lcKind lc) ((m.part part).carrier (lcKind lc) (lcDie lc)) (lcCluster lc) (if lcKind lc == 4 then part else 0)
  sget m.moves pc pc

/-! ### Clocks (R180, R354, R402) -/

/-- The cluster's cycle counter at a tick; a stretched, switching or relocking clock stands. -/
def PClu.cycle (c : PClu) (now : Nat) : Nat :=
  c.cycBase + ((if c.stretch || c.switching || c.relock then c.stretchFrom else now) - c.tickBase) / c.period
/-- The tick at which a cluster cycle starts, on a running clock. -/
def PClu.tickOf (c : PClu) (cyc : Nat) : Nat := c.tickBase + (cyc - c.cycBase) * c.period
/-- The counter rebased at a tick, so that the period may change. -/
def PClu.rebase (c : PClu) (now : Nat) : PClu := { c with cycBase := c.cycle now, tickBase := now, stretchFrom := now }
/-- The clock stopped at a tick: its current cycle lasts until it runs again. -/
def PClu.halt (c : PClu) (now : Nat) : PClu := if c.stretch || c.switching || c.relock then c else { c with stretchFrom := now }

/-- The job cycle of a job on a logical cluster (R402). -/
def Mach.jobCyc (m : Mach) (now job lc : Nat) : Nat :=
  let k := sget (m.job job).clk lc {}
  match k.stopped with
  | some c => c
  | none => (((m.pcl (m.pcOf (cxPart (m.job job).cx) lc)).cycle now : Int) - k.origin).toNat
/-- The tick at which a job cycle starts on a running cluster. -/
def Mach.jobTick (m : Mach) (job lc cyc : Nat) : Nat :=
  let k := sget (m.job job).clk lc {}
  (m.pcl (m.pcOf (cxPart (m.job job).cx) lc)).tickOf ((cyc : Int) + k.origin).toNat
/-- A job's clock stopped on a cluster at the current cycle. -/
def Mach.stopClk (m : Mach) (now job lc : Nat) : Mach :=
  let c := m.jobCyc now job lc
  m.modJob job (fun j => { j with clk := sset j.clk lc { (sget j.clk lc {}) with stopped := some c } })
/-- A job's clock running again: its next cycle is the one after the present cluster cycle, or the present one. -/
def Mach.runClk (m : Mach) (now job lc : Nat) : Mach :=
  let k := sget (m.job job).clk lc {}
  match k.stopped with
  | none => m
  | some c =>
    let cyc := (m.pcl (m.pcOf (cxPart (m.job job).cx) lc)).cycle now
    m.modJob job (fun j => { j with clk := sset j.clk lc { origin := (cyc : Int) - c, stopped := none } })

/-- The declared latency of a class (R103); a ranger has no header and takes the native ones. -/
def Job.latOf (j : Job) (c : Nat) : Nat := j.lat.getD c (Config.nativeLat c)

/-- Cycles by which a result of a class is ready after its declared write cycle: the native latency is the real one (R106, log 103). -/
def Job.lateOf (j : Job) (c : Nat) : Nat := Config.nativeLat c - j.latOf c

/-! ### The executing stream -/

def Mach.cs (m : Mach) : Stream := m.str m.cur
def Mach.cj (m : Mach) : Job := m.job m.cs.job
def Mach.clc (m : Mach) : Nat := m.cs.sel.lc
def Mach.ccc (m : Mach) : Nat := ccKey m.cj.cx m.clc
def Mach.cpart (m : Mach) : Nat := cxPart m.cj.cx
def Mach.ccyc (m : Mach) (now : Nat) : Nat := m.jobCyc now m.cs.job m.clc
def Stream.isRanger (s : Stream) : Bool := s.ranger.isSome
/-- A scalar register as it stands (R63): S0 reads 0. -/
def Stream.rd (s : Stream) (r : R) : Word := if r == 0 then 0 else sget s.regs r.toNat 0
/-- A scalar register written: S0 discards (R63). -/
def Stream.wr (s : Stream) (r : Nat) (v : Word) : Stream := if r == 0 then s else { s with regs := sset s.regs r v }
def Mach.rs (m : Mach) (r : R) : Word := m.cs.rd r

/-! ### Results in flight (R105, R107) -/

/-- A result of the executing stream put in flight, to be written in job cycle `due`. -/
def Mach.pushAt (m : Mach) (now due : Nat) (eff : Eff) (ord : Nat := 0) (spec : Option Nat := none) (late : Nat := 0) : Mach :=
  let (i, m) := m.newId
  { m with pend := m.pend ++ [{ id := i, job := m.cs.job, lc := m.clc, cc := m.ccc, sid := m.cur, due := due, ord := ord,
                                 iss := m.ccyc now, spec := spec, late := late, eff := eff }] }
/-- A result put in flight under a latency class: written at issue + LAT − 1, or when it is ready (R105, R106). -/
def Mach.push (m : Mach) (now cls : Nat) (eff : Eff) (ord : Nat := 0) : Mach :=
  m.pushAt now (m.ccyc now + m.cj.latOf cls - 1) eff ord none (m.cj.lateOf cls)
/-- A scalar result under a latency class (R169). -/
def Mach.pushReg (m : Mach) (now cls : Nat) (d : R) (v : Word) : Mach := m.push now cls (.reg d.toNat v)

/-- The bytes of a register whose parity is fresh, because they have been written (R80). -/
def Mach.mend (m : Mach) (l : Loc) (f : Nat → Bool) : Mach :=
  { m with spoiled := m.spoiled.filter (fun x => !(x.1 == l && f x.2)) }
/-- The context-cluster of a register that is no stream's own. -/
def Loc.cc : Loc → Option Nat
  | .scalar .. => none
  | .creg k _ | .vec k _ | .col k _ | .mask k _ | .tile k _ | .acc k _ | .twin k _ => some k
/-- No parity error stands in the registers of a context-cluster. -/
def Mach.mendAll (m : Mach) (cc : Nat) : Mach := { m with spoiled := m.spoiled.filter (fun x => x.1.cc != some cc) }

/-- The four accumulators of a core with their twins. -/
def accLocs (cc core : Nat) : List Loc := (List.range 4).flatMap (fun i => [.acc cc (4 * core + i), .twin cc (4 * core + i)])
/-- The registers that a result writes. -/
def Pend.locs (p : Pend) : List Loc :=
  match p.eff with
  | .reg n _ | .regAcq n .. => [.scalar p.sid n]
  | .creg c _ | .flags c _ => [.creg p.cc c]
  | .vec unit col ws =>
    .col p.cc ((unit * 5 + col) * 16) :: ws.map (fun w => if 64 ≤ w.1 then .vec p.cc (unit * 64 + (w.1 - 64)) else .col p.cc ((unit * 5 + col) * 16 + w.1))
  | .mask unit k _ _ => [.mask p.cc (unit * 8 + k)]
  | .tileRow core j .. | .tileAttr core j .. | .tzero core j => [.tile p.cc (core * 16 + j)]
  | .landing tcc core j .. => [.tile tcc (core * 16 + j)]
  | .accRow core i .. | .accZero core i => [.acc p.cc (4 * core + i), .twin p.cc (4 * core + i)]
  | .twin s => [.twin p.cc (4 * s.core + s.acc)]
  | .commit core _ _ => accLocs p.cc core
  | _ => []
/-- The registers that a result in flight has yet to read: operand tiles of a step, the tile of a stored row, the twins of a commit. -/
def Pend.needs (p : Pend) : List Loc :=
  match p.eff with
  | .twin s => (List.range s.fa.length).map (fun i => .tile p.cc (s.core * 16 + s.ta + i))
      ++ (List.range s.fb.length).map (fun i => .tile p.cc (s.core * 16 + s.tb + i))
  | .tst core j .. => [.tile p.cc (core * 16 + j)]
  | _ => []

/-! ### Energy (R360, R361) -/

/-- A dynamic charge of q sixteenths of a pJ added to an ECL, saturating (R361). -/
def Cctx.chargeQ (c : Cctx) (q : Nat) : Cctx :=
  let t := c.eclPj * 16 + c.dfrac + q
  if t > (2 ^ 48 - 1) * 16 + 15 then { c with eclPj := 2 ^ 48 - 1, dfrac := 15, esat := true }
  else { c with eclPj := t / 16, dfrac := t % 16 }
/-- The weight of an energy class in a context (R361). -/
def Context.weight (c : Context) (k : Nat) : Nat := fld (c.ewgt.getD (k / 4) 0) (16 * (k % 4)) 16
/-- The cluster cycle of a context-cluster at the machine's clock, plus 1. -/
def Mach.eclCycle (m : Mach) (cc : Nat) : Nat := (m.pcl (m.pcOf (cxPart (ccCx cc)) (ccLc cc))).cycle m.clock + 1
/-- An ECL kept as it stands before the first charge of a cluster cycle (R449). -/
def Cctx.keepEcl (c : Cctx) (cyc : Nat) : Cctx :=
  if c.eclAt.1 == cyc then c else { c with eclAt := (cyc, c.eclPj, c.dfrac, c.esat) }
/-- A charge of an energy class to a context's ECL on a cluster (R360); a read sees it from the next cycle on (R449). -/
def Mach.chargeAt (m : Mach) (cc cls units : Nat) : Mach :=
  m.modCct cc (fun c => (c.keepEcl (m.eclCycle cc)).chargeQ ((m.ctx (ccCx cc)).weight cls * units))
/-- The same charge toward the region of a job, where the complex holds its RCB (R364). -/
def Mach.chargeRegion (m : Mach) (cx rcb amount : Nat) : Mach :=
  m.modCtx cx (fun c => { c with rcbs := c.rcbs.map (fun (p : Nat × Rcb) =>
    if p.1 == rcb then (p.1, { p.2 with chg := p.2.chg + amount }) else p) })
/-- The executing word's charge. -/
def Mach.charge (m : Mach) (cls : Nat) (units : Nat := 1) : Mach :=
  (m.chargeAt m.ccc cls units).chargeRegion m.cj.cx m.cj.rcb (1000 * (m.ctx m.cj.cx).weight cls * units)

/-! ### Store buffers, snapshots, reads (R253 to R255, R260, R261) -/

/-- Region of a context that a PUBRID registers, if any. -/
def Context.region (c : Context) (pubrid : Nat) : Option Region :=
  if pubrid == 0 then none else c.regions.find? (fun r => r.pubrid == pubrid)

/-- A byte with some bits replaced. -/
def mixByte (old : Byte) (data mask : Nat) : Byte :=
  BitVec.ofNat 8 ((old.toNat &&& (255 - mask % 256)) ||| (data % 256 &&& mask % 256))

/-- A stream's own entries over a byte: each bit from the newest entry covering it (R253). -/
def ownByte (sb : List SBEnt) (h : Nat) (b : Byte) : Byte :=
  sb.foldl (fun b e =>
    let k := swz e.span h
    if e.line ≤ k && k < e.line + 64 then mixByte b (e.data / 256 ^ (k - e.line)) (e.mask / 256 ^ (k - e.line)) else b) b

/-- The draft's byte: what the draft holds, else the published copy (R260). -/
def Region.draftByte (r : Region) (h : Homes) (a : Nat) : Byte := (sget? r.draft a).getD (homeByte h a)

/-- How a read is served (R255). -/
inductive RMode where
  | plain | home
  deriving DecidableEq, Repr

/-- A stream's read of a byte at a home: own entries, else published copy, home or snapshot (R253, R255, R261). -/
def Mach.readByte (m : Mach) (sid : Nat) (md : RMode) (pub : Bool) (h : Nat) : Byte :=
  let s := m.str sid
  ownByte s.sb h (if pub || md == .home then homeByte m.homes h else homeByte s.snap h)

/-- A read on a predicted path of a tag (R51): a stream's own entries but those of other tags, the draft bytes written under the tag, else
what any read finds. `pub` is the page's registered PUBRID, 0 none. -/
def Mach.pathByte (m : Mach) (sid : Nat) (md : RMode) (t pub h : Nat) : Byte :=
  let s := m.str sid
  let j := m.job s.job
  let under := match (m.ctx j.cx).region pub with
    | some r => if (sget j.tags t {}).saved.contains (pub, h) then some (r.draftByte m.homes h) else none
    | none => none
  ownByte (s.sb.filter (fun e => e.tag == none || e.tag == some t)) h
    (under.getD (if pub != 0 || md == .home then homeByte m.homes h else homeByte s.snap h))

/-- A page as translation found it: the unswizzled home key of the address, page facts of R75. -/
structure Pg where
  key : Nat
  span : Nat
  /-- bytes from the address to the page's end, or to the twin of a registered region in it (R293) -/
  room : Nat
  /-- offset of the address within the page -/
  off : Nat
  lo : Nat
  hi : Nat
  ptea : Nat
  /-- PUBRID when it is registered, else 0 -/
  pub : Nat
  deriving DecidableEq, Repr

def Pg.tgt (p : Pg) : Nat := fld p.lo 57 3
def Pg.fmt (p : Pg) : Nat := fld p.hi 59 5
def Pg.geom (p : Pg) : Nat := fld p.hi 57 2
def Pg.midr (p : Pg) : Bool := bitOf p.hi 56
def Pg.aplace (p : Pg) : Nat := fld p.hi 54 2
def Pg.sysat (p : Pg) : Bool := bitOf p.hi 53
def Pg.pubrid (p : Pg) : Nat := fld p.hi 38 12
/-- The home of a byte of the page. -/
def Pg.home (p : Pg) (i : Nat) : Nat := swz p.span (p.key + i)
/-- The page seen from another of its bytes. -/
def Pg.shift (p : Pg) (i : Int) : Pg :=
  { p with key := ((p.key : Int) + i).toNat, off := ((p.off : Int) + i).toNat, room := ((p.room : Int) - i).toNat }

/-- `n` bytes of a page, read by a stream, on a predicted path where it is on one (R51). -/
def Mach.readPg (m : Mach) (sid : Nat) (md : RMode) (p : Pg) (n : Nat) (path : Option Nat := none) : List Byte :=
  (List.range n).map (fun i => match path with
    | none => m.readByte sid md (p.pub != 0) (p.home i)
    | some t => m.pathByte sid md t p.pub (p.home i))
/-- Whether any byte of a range of a page has an uncorrectable ECC word (R440). -/
def Mach.pgBad (m : Mach) (p : Pg) (n : Nat) : Bool :=
  !m.homes.bad.isEmpty && (List.range n).any (fun i => badIn m.homes (p.home i) 1)
/-- One more than the home of the first bad byte of a page's place (R440). -/
def Mach.badHome (m : Mach) (p : Pg) (n : Nat) : Nat :=
  match (List.range n).find? (fun i => badIn m.homes (p.home i) 1) with | some i => p.home i + 1 | none => 0

/-- The store-buffer entries of bytes at consecutive addresses of a page, one per 64-byte line, ascending (R460). `mask` gives
the bits written of each byte. -/
def pgEntries (p : Pg) (bs : List (Nat × Nat)) (rel cyc : Nat) (va : Nat) (tag : Option Nat) : List SBEnt :=
  let rec go (k : Nat) (va : Nat) (l : List (Nat × Nat)) (acc : List SBEnt) : List SBEnt :=
    match l with
    | [] => acc.reverse
    | (b, mk) :: t =>
      let line := k - k % 64
      let sh := 256 ^ (k % 64)
      match acc with
      | e :: r => if e.line == line then
          go (k + 1) (va + 1) t ({ e with data := e.data + b % 256 * sh, mask := e.mask + mk % 256 * sh } :: r)
        else go (k + 1) (va + 1) t ({ line := line, data := b % 256 * sh, mask := mk % 256 * sh, rel := rel, pub := p.pubrid,
                                      cyc := cyc, va := va - k % 64, span := p.span, tag := tag } :: acc)
      | [] => go (k + 1) (va + 1) t [{ line := line, data := b % 256 * sh, mask := mk % 256 * sh, rel := rel, pub := p.pubrid,
                                       cyc := cyc, va := va - k % 64, span := p.span, tag := tag }]
  go p.key va bs []

/-- Whether two entries overlap in any bit (R253). -/
def SBEnt.overlaps (a b : SBEnt) : Bool := a.line == b.line && a.span == b.span && (a.mask &&& b.mask) != 0
/-- An entry with a newer store to some of its bytes merged into it (R254): it keeps its place in the drain order, and where the newer store
releases, its release half covers what is older than that store. -/
def SBEnt.merge (o e : SBEnt) : SBEnt :=
  { o with data := o.data - (o.data &&& e.mask) + (e.data &&& e.mask), mask := o.mask ||| e.mask, rel := max o.rel e.rel
           relSeq := if e.rel == 0 then o.relSeq else e.seq, cyc := e.cyc, grp := max o.grp e.grp }
/-- The entry of a buffer that a new one may merge into (R254): the newest it overlaps, of the same page and path and no other group; a
releasing store merges only where no release stands behind that entry, whose half would wait for it (log 8). -/
def Stream.mergeable (s : Stream) (e : SBEnt) : Option SBEnt :=
  (s.sb.reverse.find? (fun o => o.overlaps e)).filter (fun o => o.pub == e.pub && o.tag == e.tag && (o.grp == 0 || e.grp == 0)
    && (e.rel == 0 || s.sb.all (fun x => x.rel == 0 || x.seq ≤ o.seq)))

/-- Whether an entry still waits for room (R460). -/
def Stream.full (s : Stream) : Bool := Config.sbDepth < s.sb.length
/-- Whether an entry has entered the buffer, and waits for no room (R460). -/
def Stream.inPlace (s : Stream) (e : SBEnt) : Bool := (s.sb.take Config.sbDepth).any (fun o => o.seq == e.seq)
/-- Entries leave a stream's store buffer; when that lets its last waiting entry enter, later words keep their spacing from this cycle
(R41, R460). -/
def Mach.dropEntries (m : Mach) (now sid : Nat) (gone : SBEnt → Bool) : Mach :=
  let s := m.str sid
  let t := { s with sb := s.sb.filter (fun e => !gone e) }
  m.setStr sid (if s.full && !t.full then { t with lastIssue := max s.lastIssue (m.jobCyc now s.job s.sel.lc) } else t)

/-- A refresh: the snapshot becomes the homes (R255, R257). -/
def Mach.refresh (m : Mach) (sid : Nat) : Mach := m.modStr sid (fun s => { s with snap := m.homes })

/-- Whether a home lies in a scope of a stream (R256): on a GTD or SWD cluster and die scope act as package scope. -/
def inScope (sel : Sel) (part : Nat) (scope : Nat) (h : Nat) : Bool :=
  let scope := if (sel.kind == 3 || sel.kind == 4) && scope < 2 then 2 else scope
  let a := h % 2 ^ 57
  let mine := h / 2 ^ 57 == part && !isHost h
  let w := a / 2 ^ 48
  let l3 := fld a 26 22
  let l4 := fld a 27 21
  match scope with
  | 0 => mine && ((sel.kind == 0 && w == 0xF1 && l3 == sel.ldie && fld a 22 4 / 2 == sel.cluster) ||
                  (sel.kind == 1 && w == 0xF2 && l4 == sel.ldie && fld a 21 6 / 4 == sel.cluster))
  | 1 => mine && ((sel.kind == 0 && w == 0xF1 && l3 == sel.ldie) || (sel.kind == 1 && w == 0xF2 && l4 == sel.ldie) ||
                  (sel.kind == 2 && ((w == 0xF0 && fld a 29 19 == sel.ldie) || (a < 2 ^ 48 && a / 2 ^ 37 == sel.ldie))))
  | 2 => mine
  | _ => true

/-- Whether every entry of a stream older than `seq` whose home lies in the scope has performed (R257). -/
def Stream.drained (s : Stream) (part scope seq : Nat) : Bool :=
  s.sb.all (fun e => seq ≤ e.seq || !inScope s.sel part scope e.line)

/-! ### Translation (R25, R75 to R77, R375 to R379) -/

/-- log2 of a page size (R76). -/
def pszLog : Nat → Nat
  | 0 => 12 | 1 => 16 | 2 => 18 | 3 => 21 | 4 => 24 | 5 => 27 | 6 => 30 | _ => 34

/-- Index of a VA at a walk level, and the page-size codes allowed for a leaf there (R375). -/
def walkIndex (va : Nat) : Nat → Nat
  | 0 => fld va 46 10 | 1 => fld va 34 12 | 2 => fld va 30 4 | 3 => fld va 24 6 | 4 => fld va 18 6 | _ => fld va 12 6
def leafAllowed (lvl psz : Nat) : Bool :=
  match lvl with
  | 0 => false | 1 => psz == 7 | 2 => psz == 6 | 3 => psz == 4 || psz == 5 | 4 => psz == 2 || psz == 3 | _ => psz == 0 || psz == 1

/-- Address checks of R25: bits [63:56] zero, a window of a presented logical number, not a withdrawn part. -/
def Part.addrOk (p : Part) (va : Nat) : Bool :=
  let w := va / 2 ^ 48
  if 2 ^ 56 ≤ va || 0xF3 ≤ w then false
  else if w == 0xF0 then fld va 29 19 < p.lcount 2 && !p.withdrawn.any (fun r => r.1 ≤ va && va < r.1 + r.2)
  else if w == 0xF1 then fld va 26 22 < p.lcount 0
  else if w == 0xF2 then fld va 27 21 < p.lcount 1 && fld va 21 6 < 48
  else true

/-- The target a virtual address's window asks of its leaf (R77). -/
def winTgt (va : Nat) : List Nat :=
  let w := va / 2 ^ 48
  if w == 0xF0 then [2] else if w == 0xF1 then [3] else if w == 0xF2 then [4] else [0, 1]

/-- Whether a present leaf is valid whatever the access (R77, R73). -/
def Part.leafOk (p : Part) (va lo hi : Nat) : Bool :=
  let psz := fld lo 60 3
  let tgt := fld lo 57 3
  let frame := fld lo 12 44 * 2 ^ 12
  let fmt := fld hi 59 5
  let geom := fld hi 57 2
  let apl := fld hi 54 2
  let sys := bitOf hi 53
  let span := fld hi 50 3
  let w := frame / 2 ^ 48
  !bitOf lo 56 && fld lo 6 6 == 0 && !bitOf lo 0 && fld hi 0 38 == 0 && frame % 2 ^ pszLog psz == 0
    && (winTgt va).contains tgt
    && (match tgt with
        | 0 => (apl == 2 || apl == 3) && span == 7 && (!sys || apl == 3) && frame < p.lcount 2 * 2 ^ 37
               && !p.withdrawn.any (fun r => r.1 < frame + 2 ^ pszLog psz && frame < r.1 + r.2)
        | 1 => apl == 3 && span == 7
        | 2 => 1 ≤ psz && psz ≤ 5 && apl == 1 && !sys && w == 0xF0 && fld frame 29 19 == fld va 29 19
        | 3 => psz ≤ 3 && apl == 0 && span == 7 && !sys && w == 0xF1 && frame / 2 ^ 22 == va / 2 ^ 22
        | _ => psz ≤ 3 && apl == 0 && span == 7 && !sys && w == 0xF2 && frame / 2 ^ 21 == va / 2 ^ 21)
    && geom != 3 && (geom == 0 || (4 ≤ fmt && fmt ≤ 28)) && (!bitOf hi 56 || (13 ≤ fmt && fmt ≤ 26))

/-! ### Where a home lies -/

/-- Logical cluster of a local-store home. -/
def homeLc (k : Nat) : Option Nat :=
  let a := k % 2 ^ 57
  if isHost k then none
  else if a / 2 ^ 48 == 0xF1 then some (lcKey 0 (fld a 26 22) (fld a 22 4 / 2))
  else if a / 2 ^ 48 == 0xF2 then some (lcKey 1 (fld a 27 21) (fld a 21 6 / 4))
  else none
/-- Logical BFD of a buffer-SRAM home, and of an HBM4E home. -/
def homeSram (k : Nat) : Option Nat :=
  let a := k % 2 ^ 57
  if !isHost k && a / 2 ^ 48 == 0xF0 then some (fld a 29 19) else none
def homeHbm (k : Nat) : Option Nat :=
  let a := k % 2 ^ 57
  if !isHost k && a < 2 ^ 48 then some (a / 2 ^ 37) else none

/-- Physical die of a home: the I/O die for host memory (R251). -/
def Mach.homeDie (m : Mach) (part home : Nat) : Nat :=
  if isHost home then dieKey 5 0 else match homeLc home with
  | some lc => pcDie (m.pcOf part lc)
  | none => dieKey 2 ((m.part part).carrier 2 (((homeSram home).orElse (fun _ => homeHbm home)).getD 0))

/-! ### Machine-check banks (R438, R439) -/

/-- Classes of a machine-check event (R438): corrected, contained, fatal. -/
def mcStatus (cls scope code part ctx ret cluster sub job : Nat) : Nat :=
  2 ^ 63 + cls * 2 ^ 60 + scope * 2 ^ 58 + code * 2 ^ 48 + part * 2 ^ 45 + ctx * 2 ^ 39 + ret * 2 ^ 32 + cluster * 2 ^ 28
    + sub * 2 ^ 24 + job

/-- A bank after one more event, which arrives at a tick from a requester port: the first or the graver one stands, of two of one class in the
same cycle that of the lower port, and every event counts (R438, R439). -/
def McBank.log (b : McBank) (tick port status addr misc : Nat) : McBank :=
  let n := if b.count + 1 < 2 ^ 32 then b.count + 1 else 2 ^ 32 - 1
  let c := fld b.status.toNat 60 2
  if b.status.toNat / 2 ^ 63 == 0 then { status := wd status, addr := wd addr, misc := wd misc, count := n, tick := tick, port := port }
  else if c < fld status 60 2
      || (c == fld status 60 2 && b.tick / Config.fixedPeriod == tick / Config.fixedPeriod && port < b.port) then
    { status := wd (status ||| 2 ^ 62), addr := wd addr, misc := wd misc, count := n, tick := tick, port := port }
  else { b with status := b.status ||| wd (2 ^ 62), count := n }
/-- The requester port from which a stream reaches a bank of its own die (R353). -/
def Sel.port (s : Sel) : Nat :=
  if s.kind == 2 then (if s.cls == .scalar then 2 + s.cluster else 6 + 8 * s.cluster + s.unit)
  else if s.cls == .scalar then 2 else 3 + s.unit
/-- One second of package time, in ticks (R441). -/
def secondTicks : Nat := 1000000000 * Config.tick
/-- A die with one more event of a bank at a tick (R438). A second contained event within 1 s, and the 256th corrected event of one unit within
1 s, are the die's end: its retirement is due, and the event's record names the die as the unit retired (R441). -/
def Die.log (d : Die) (tick port bank status addr misc : Nat) : Die :=
  let cls := fld status 60 2
  let unit := 16 * bank + (if bank == 4 then fld status 24 4 else fld status 28 4)
  let corr := if cls == 1 && bank < 6 then
      (d.corrected.filter (fun (u : Nat × Nat) => tick < u.2 + secondTicks)) ++ [(unit, tick)] else d.corrected
  let ends : Bool :=
    (cls == 2 && (match d.lastContained with | some t => decide (tick < t + secondTicks) | none => false))
      || (cls == 1 && 256 ≤ (corr.filter (fun u => u.1 == unit)).length)
  let status := if ends then status - fld status 32 3 * 2 ^ 32 + 4 * 2 ^ 32 else status
  { d with banks := smod d.banks bank {} (fun b => b.log tick port status addr misc), corrected := corr
           lastContained := if cls == 2 then some tick else d.lastContained, failing := d.failing || ends }
/-- An event logged in a bank of a die (R438). -/
def Mach.bankLog (m : Mach) (die bank status addr misc : Nat) (port : Nat := 0) : Mach :=
  m.modDie die (fun d => d.log m.clock port bank status addr misc)
/-- An event logged; one of class fatal and scope 2 on the IOD or the TRD stops the package (R439). -/
def Mach.mcLog (m : Mach) (die bank status addr misc : Nat) (port : Nat := 0) : Mach :=
  { m with stopped := m.stopped || (40 ≤ die && fld status 58 4 == 14) }.bankLog die bank status addr misc port

/-- Words with one wrong bit, among those that an access of a context reads: each is corrected, and logged as corrected in bank 3, or bank 2
for a local store (R80, R438, R440; log 102). Host memory is no memory of the package. -/
def Mach.softWords (m : Mach) (cx : Nat) (rd : Nat → Bool) : Mach :=
  (m.homes.weak.filter (fun w => rd w && !isHost (16 * w))).foldl (fun m w =>
    let (bank, cl) := match homeLc (16 * w) with | some lc => (2, lcCluster lc) | none => (3, 0)
    let die := m.homeDie (cxPart cx) (16 * w)
    m.bankLog die bank (mcStatus 1 0 0 (cxPart cx) (cx % 64) 0 cl 0 0) (16 * w % 2 ^ 57) 0) m
/-- The same for the words of some homes. -/
def Mach.soft (m : Mach) (cx : Nat) (hs : List Nat) : Mach := m.softWords cx (fun w => hs.any (fun h => h / 16 == w))
/-- A read of `n` bytes of a page for the executing stream: its words with one wrong bit are corrected (R80). -/
def Mach.softPg (m : Mach) (p : Pg) (n : Nat) : Mach := m.soft m.cj.cx ((List.range n).map p.home)

/-! ### Pages -/

/-- What an access needs of its page: permissions. -/
structure Need where
  rd : Bool := false
  wr : Bool := false
  ex : Bool := false
  /-- a check of PUBREG, which is no access through a twin's addresses (R293) -/
  look : Bool := false
  deriving DecidableEq, Repr

/-- The walker's answer: the leaf's words and where it stands, and the machine with A and D set (R377). -/
def Mach.walk (m : Mach) (cx va : Nat) (wr : Bool) : Except Flt (Mach × Nat × Nat × Nat × Nat) :=
  let part := cxPart cx
  let p := m.part part
  let root := (m.ctx cx).root
  let rec go (fuel : Nat) (m : Mach) (lvl tbl : Nat) (host : Bool) : Except Flt (Mach × Nat × Nat × Nat × Nat) :=
    match fuel with
    | 0 => .error { code := .pageProt, fva := va }
    | f + 1 =>
      let ea := tbl + 16 * walkIndex va lvl
      let hk := if host then hostKey ea else homeKey part ea
      if !host && p.lcount 2 * 2 ^ 37 ≤ tbl then .error { code := .pageProt, fva := va, ptea := ea }
      else if badIn m.homes hk 16 then .error { code := .ecc, fva := va, ptea := ea, bad := hk + 1 }
      else
        let m := m.soft cx [hk]
        let lo := leNat (homeRead m.homes hk 8)
        let hi := leNat (homeRead m.homes (hk + 8) 8)
        if !bitOf lo 63 then .error { code := .pageAbsent, fva := va, ptea := ea }
        else if fld lo 57 3 == 7 then
          if lvl == 5 || hi != 0 || fld lo 60 3 != 0 || fld lo 0 12 != 0 then .error { code := .pageProt, fva := va, ptea := ea }
          else go f m (lvl + 1) (fld lo 12 44 * 2 ^ 12) (bitOf lo 56)
        else if !leafAllowed lvl (fld lo 60 3) then .error { code := .pageProt, fva := va, ptea := ea }
        else if !p.leafOk va lo hi then .error { code := .pageProt, fva := va, ptea := ea }
        else
          let lo' := lo ||| 16 ||| (if wr && bitOf lo 2 then 32 else 0)
          .ok ({ m with homes := homeWrite m.homes hk (leBytes 1 (lo' % 256)) }, lo', hi, ea, fld lo 60 3)
  go 6 m 0 (fld root 12 44 * 2 ^ 12) (bitOf root 0)

/-- The slices of a partition's second-level cache, one on each of its live compute dies (R379): owned, present and not retired, as its
headcount words tell (R17). -/
def Mach.sliceCount (m : Mach) (part : Nat) : Nat :=
  ((List.range 4).map (fun k => let h := ((m.part part).hc.getD k 0).toNat
    ((List.range 8).filter (fun i => bitOf h i && bitOf h (16 + i) && !bitOf h (8 + i))).length)).sum
def sliceHash (va cx : Nat) : Nat := fld va 24 8 ^^^ fld va 32 8 ^^^ fld va 40 8 ^^^ fld va 48 8 ^^^ (cx % 64)

/-- A cached translation that serves an access. -/
def tlbFind (l : List Tlb) (cx va : Nat) : Option Tlb :=
  l.find? (fun t => t.cx == cx && t.base == va - va % 2 ^ pszLog t.psz)
/-- An L1 fill: newest first, 64 entries, least recently used out (R379). -/
def tlbFill (l : List Tlb) (t : Tlb) (n : Nat) : List Tlb :=
  (t :: l.filter (fun u => !(u.cx == t.cx && u.base == t.base && u.psz == t.psz))).take n

/-- The page of a translation, or the fault of the access: permissions after validity (R77), the twin of a registered region
(R293), the address checks of R25. -/
def Mach.pageOf (m : Mach) (cx va : Nat) (nd : Need) (t : Tlb) : Except Flt Pg :=
  let c := m.ctx cx
  let off := va % 2 ^ pszLog t.psz
  let bad : Except Flt Pg := .error { code := .pageProt, fva := va, ptea := t.ptea }
  if (nd.rd && !bitOf t.lo 1) || (nd.wr && !bitOf t.lo 2) || (nd.ex && !bitOf t.lo 3) then bad
  else if !nd.look && c.regions.any (fun r => r.twin ≤ va && va < r.twin + r.len) then bad
  else
    let frame := fld t.lo 12 44 * 2 ^ 12
    let key := if fld t.lo 57 3 == 1 then hostKey (frame + off) else homeKey (cxPart cx) (frame + off)
    -- an access that goes on into the twin of a registered region meets its page there again (R293)
    let room := c.regions.foldl (fun a r => if !nd.look && va < r.twin && 0 < r.len then min a (r.twin - va) else a) (2 ^ pszLog t.psz - off)
    .ok { key := key, span := if fld t.lo 57 3 == 2 then fld t.hi 50 3 else 7, room := room, off := off,
          lo := t.lo, hi := t.hi, ptea := t.ptea,
          pub := match c.region (fld t.hi 38 12) with | some r => r.pubrid | none => 0 }

/-- Translation by a context's tables without a cache: the host's mailbox, the spill engine, a copy engine (R291, R307). -/
def Mach.xlatCx (m : Mach) (cx va : Nat) (nd : Need) : Except Flt (Mach × Pg) :=
  if !(m.part (cxPart cx)).addrOk va then .error { code := .pageProt, fva := va } else
  match m.walk cx va nd.wr with
  | .error f => .error f
  | .ok (m, lo, hi, ea, psz) =>
    match m.pageOf cx va nd { cx := cx, base := va - va % 2 ^ pszLog psz, psz := psz, lo := lo, hi := hi, ptea := ea } with
    | .error f => .error f
    | .ok p => .ok (m, p)

/-- A stream's translation through its L1, the home slice and the walker (R379); a write through an entry whose D is 0 walks
again, so that the walker sets D (R75). A miss fills both levels; a faulting walk fills nothing (R378). -/
def Mach.xlat (m : Mach) (sid va : Nat) (nd : Need) : Except Flt (Mach × Pg) :=
  let s := m.str sid
  let cx := (m.job s.job).cx
  let part := cxPart cx
  if !(m.part part).addrOk va then .error { code := .pageProt, fva := va } else
  let usable := fun (t : Tlb) => !nd.wr || bitOf t.lo 5 || !bitOf t.lo 2
  let use := fun (m : Mach) (t : Tlb) => match m.pageOf cx va nd t with
    | .error f => .error f
    | .ok p => .ok (m.modStr sid (fun s => { s with l1 := tlbFill s.l1 t 64 }), p)
  match (tlbFind s.l1 cx va).filter usable with
  | some t => use m t
  | none =>
    let m := { m with miss := true }
    let n := m.sliceCount part
    let sl := part * 64 + (if n == 0 then 0 else sliceHash va cx % n)
    let dk := s.sel.kind * 16 + s.sel.ldie
    match (tlbFind (sget m.slices sl []) cx va).filter usable with
    | some t =>
      let t := { t with dies := if t.dies.contains dk then t.dies else t.dies ++ [dk] }
      use { m with slices := smod m.slices sl [] (fun l => tlbFill l t 16384) } { t with dies := [] }
    | none => match m.walk cx va nd.wr with
      | .error f => .error f
      | .ok (m, lo, hi, ea, psz) =>
        let t : Tlb := { cx := cx, base := va - va % 2 ^ pszLog psz, psz := psz, lo := lo, hi := hi, ptea := ea, dies := [dk] }
        use { m with slices := smod m.slices sl [] (fun l => tlbFill l t 16384) } { t with dies := [] }

/-! ### Events, messages (R358, R425 to R427, R441) -/

/-- A cluster retired by a contained event as it is logged; its work leaves it in the step after (R441). -/
def Mach.retireMark (m : Mach) (pc : Nat) : Mach := m.modPcl pc (fun c => { c with retired := true, retiring := true })
/-- Whether a retirement is due, at once (R441). -/
def Mach.retireDue (m : Mach) : Bool := m.dies.any (fun d => d.2.failing) || m.pcs.any (fun p => p.2.retiring)

/-- A bad word logged as a contained event (R440): bank 3, or bank 2 of a local store, with its physical address. -/
def Mach.eccLog (m : Mach) (sid home : Nat) : Mach :=
  let s := m.str sid
  let j := m.job s.job
  let part := cxPart j.cx
  let (bank, cl, ret) := match homeLc home with
    | some lc => (2, lcCluster lc, 1)
    | none => (3, 0, 0)
  let die := m.homeDie part home
  let m := match homeLc home with | some lc => m.retireMark (m.pcOf part lc) | none => m
  m.mcLog die bank (mcStatus 2 0 0x32 part (j.cx % 64) ret cl 0 j.jobid) (home % 2 ^ 57) 0 s.sel.port

/-- A bad word that an agent of a context other than a stream meets, logged as a contained event (R440). -/
def Mach.badLog (m : Mach) (cx home : Nat) : Mach :=
  if isHost home then m else
  let (bank, cl, ret) := match homeLc home with
    | some lc => (2, lcCluster lc, 1)
    | none => (3, 0, 0)
  let die := m.homeDie (cxPart cx) home
  let m := match homeLc home with | some lc => m.retireMark (m.pcOf (cxPart cx) lc) | none => m
  m.mcLog die bank (mcStatus 2 0 0x32 (cxPart cx) (cx % 64) ret cl 0 0) (home % 2 ^ 57) 0

/-- An MSI-X message on a vector, or its pending mark when the host masked the vector (R358). -/
def Mach.msix (m : Mach) (part vec : Nat) : Mach :=
  if (m.part part).masked.contains vec then
    m.modPart part (fun p => { p with pendVec := if p.pendVec.contains vec then p.pendVec else p.pendVec ++ [vec] })
  else m.emit (.msix part vec)

/-- Slots of the event ring (R425). -/
def Part.evSize (p : Part) : Nat := 2 ^ fld p.evctl.toNat 16 4
def Part.evEn (p : Part) : Bool := bitOf p.evctl.toNat 20
def Part.evRoom (p : Part) : Bool := p.evEn && (p.evtail + 1) % p.evSize != p.evhead % p.evSize
/-- FULL (R425): 64 events held and no room in the ring, or EN 0. -/
def Part.evFull (p : Part) : Bool := !p.evEn || (64 ≤ p.evheld.length && !p.evRoom)
/-- FULL brought up to date: as it changes from 0 to 1 the IOD sends a message at once (R425). -/
def Mach.fullEdge (m : Mach) (part : Nat) : Mach :=
  let p := m.part part
  if p.evFull == p.evfull then m else
  let m := m.modPart part (fun p => { p with evfull := p.evFull })
  if p.evFull then m.msix part (fld p.evctl.toNat 21 11) else m
/-- Whether a die keeps events of a partition for the IOD, or has lost some (R427). -/
def Die.waits (d : Die) (part : Nat) : Bool := d.window.any (fun w => w.1 == part) || sget d.lost part 0 != 0

/-- An event handed to the IOD for a partition (R425, R427): held for the ring when the IOD has room and the die keeps none of the partition
before it, else kept in the die's window, else counted as overflow in bank 6. -/
def Mach.postEvent (m : Mach) (now part die : Nat) (e : Event) : Mach :=
  let p := m.part part
  if p.evEn && p.evheld.length < 64 && !(m.die die).waits part then
    ((m.modPart part (fun p => { p with evheld := p.evheld ++ [e] })).fullEdge part).at now .eventPost [part]
  else
    let m := m.modPart part (fun p => { p with evbp := true })
    let d := m.die die
    if d.window.length < 16 then m.modDie die (fun d => { d with window := d.window ++ [(part, e)] })
    else
      let code := fld e.w0 56 8
      let m := m.modDie die (fun d => { d with lost := smod d.lost part 0 (· + 1), lostCode := sset d.lostCode part code })
      m.mcLog die 6 (mcStatus 1 0 0 part 0 0 0 0 0) 0 (code * 2 ^ 32 + (d.lost.map (·.2)).sum + 1)

/-! ### The fetch queue (R321 to R323) -/

/-- The word at a word address of a scalar stream's code, through translation for execution; a fault is deferred (R323). -/
def Mach.fetchWord (m : Mach) (sid waddr : Nat) : Mach × Except Flt Nat :=
  let s := m.str sid
  if s.len ≤ waddr then (m, .error { code := .illegalOp }) else
  match m.xlat sid (s.base + 4 * waddr) { ex := true } with
  | .error f => (m, .error f)
  | .ok (m, p) => if m.pgBad p 4 then (m, .error { code := .ecc, fva := s.base + 4 * waddr, bad := m.badHome p 4 })
    else (m.soft (m.job s.job).cx [p.home 0], .ok (leNat (m.readPg sid .plain p 4)))

/-- An entry of the fetch queue as it is fetched: the word, and the two body words of a LONG word (R91, R321). -/
def Mach.fetch (m : Mach) (sid waddr bank : Nat) : Mach × FQ :=
  let waddr := waddr % 2 ^ 24
  match m.fetchWord sid waddr with
  | (m, .error f) => (m, { waddr := waddr, bank := bank, flt := some f })
  | (m, .ok w) =>
    if isLong w then
      -- a body beyond the code makes the word ILLEGAL_OP, ahead of any fault of a body word's page (R91, R100)
      if (m.str sid).len ≤ waddr + 2 then (m, { waddr := waddr, bank := bank, w0 := w, bodyFlt := some { code := .illegalOp } }) else
      match m.fetchWord sid (waddr + 1) with
      | (m, .error f) => (m, { waddr := waddr, bank := bank, w0 := w, bodyFlt := some f })
      | (m, .ok w1) => match m.fetchWord sid (waddr + 2) with
        | (m, .error f) => (m, { waddr := waddr, bank := bank, w0 := w, w1 := w1, bodyFlt := some f })
        | (m, .ok w2) => (m, { waddr := waddr, bank := bank, w0 := w, w1 := w1, w2 := w2 })
    else (m, { waddr := waddr, bank := bank, w0 := w })

/-- The next word in line after an entry (R322, R323). -/
def FQ.succ (e : FQ) : Nat := if e.flt.isNone && isLong e.w0 then e.waddr + 3 else e.waddr + 1

/-- One executed word advances the queue (R322): `redirect` is a taken target, `annul` whether the word annuls its slots. -/
def Mach.advance (m : Mach) (now sid : Nat) (redirect : Option Nat) (annul : Bool) : Mach :=
  let s := m.str sid
  let cyc := m.jobCyc now s.job s.sel.lc
  let (m, e) := m.fetch sid (redirect.getD s.fq2.succ) s.dbank
  m.modStr sid (fun s => { s with
    fq0 := if annul then { s.fq1 with annul := true } else s.fq1
    fq1 := if annul then { s.fq2 with annul := true } else s.fq2
    fq2 := e, lastIssue := cyc, fresh := false, hold := .none, slots := s.slots - 1 })

/-- The three queued words fetched again, each under its binding, as DFENCE and a resume do (R120, R123, R125). -/
def Mach.refetch (m : Mach) (sid : Nat) (rebind : Bool) : Mach :=
  let s := m.str sid
  let bk := fun (b : Nat) => if rebind then s.dbank else b
  let (m, a) := m.fetch sid s.fq0.waddr (bk s.fq0.bank)
  let (m, b) := m.fetch sid s.fq1.waddr (bk s.fq1.bank)
  let (m, c) := m.fetch sid s.fq2.waddr (bk s.fq2.bank)
  m.modStr sid (fun s => { s with fq0 := { a with annul := s.fq0.annul }, fq1 := { b with annul := s.fq1.annul },
                                  fq2 := { c with annul := s.fq2.annul } })

/-- The queue at stream start: the first three words in line from word 0 (R321). -/
def Mach.startQueue (m : Mach) (sid : Nat) : Mach :=
  let bk := (m.str sid).dbank
  let (m, a) := m.fetch sid 0 bk
  let (m, b) := m.fetch sid a.succ bk
  let (m, c) := m.fetch sid b.succ bk
  m.modStr sid (fun s => { s with fq0 := a, fq1 := b, fq2 := c })

/-- An engine word at a step: from the fetch buffer where it stands there, else from the table (R48, R124). -/
def Mach.engineWord (m : Mach) (sid i : Nat) : Mach × Except Flt Nat :=
  let s := m.str sid
  if s.fbufAt ≤ i && i < s.fbufAt + s.fbuf.length then (m, .ok (s.fbuf.getD (i - s.fbufAt) 0))
  else m.fetchWord sid i

/-- The fetch buffer filled from a step: up to 16 words of the table; a word that faults ends the fill, and its fault is raised
when the word is reached (R48, R338). -/
def Mach.fillBuffer (m : Mach) (sid from' : Nat) : Mach :=
  let rec go (fuel i : Nat) (m : Mach) (acc : List Nat) : Mach × List Nat :=
    match fuel with
    | 0 => (m, acc.reverse)
    | f + 1 => match m.fetchWord sid i with
      | (m, .ok w) => go f (i + 1) m (w :: acc)
      | (m, .error _) => (m, acc.reverse)
  let m0 := m.modStr sid (fun s => { s with fbuf := [], fbufAt := from' })
  let (m, l) := go 16 from' m0 []
  m.modStr sid (fun s => { s with fbuf := l })

/-- An issued micro-order of an engine stream: STEP past its words (R41). -/
def Mach.stepOn (m : Mach) (now sid n : Nat) : Mach :=
  let s := m.str sid
  let cyc := m.jobCyc now s.job s.sel.lc
  m.modStr sid (fun s => { s with step := s.step + n, lastIssue := cyc, fresh := false, hold := .none, wfifo := 0,
                                  state := if s.state == .waitToken then .running else s.state })

/-- The executing word retires: the queue or STEP moves past it. -/
def Mach.retire (m : Mach) (now : Nat) : Mach :=
  if m.cs.sel.cls == .scalar then m.advance now m.cur none false else m.stepOn now m.cur m.curLen

/-! ### Status words -/

/-- PC or STEP. -/
def Stream.pos (s : Stream) : Nat := if s.sel.cls == .scalar then s.fq0.waddr else s.step

/-- ESTAT (R42). -/
def Stream.estat (s : Stream) (jobid : Nat) : Word :=
  wd (s.pos * 2 ^ 40 + s.state.code * 2 ^ 36 + s.sel.cls.code * 2 ^ 32 + s.dbank * 2 ^ 30 + b2n s.spec * 2 ^ 29
    + (if s.state == .waitToken then s.wfifo else 0) * 2 ^ 24 + jobid * 2 ^ 8
    + (if s.state == .frozen then s.prev.code else 0) * 2 ^ 4)

/-- A fetch-queue entry as a word (R321). -/
def FQ.word (e : FQ) : Word := wd (e.waddr * 2 ^ 40 + b2n e.annul * 4 + e.bank)

/-! ### Streams of a job -/

def Mach.streamsOf (m : Mach) (job : Nat) : List Nat := (m.streams.filter (fun p => p.2.job == job)).map (·.1)
def Mach.streamsOn (m : Mach) (job lc : Nat) : List Nat :=
  (m.streams.filter (fun p => p.2.job == job && p.2.sel.lc == lc)).map (·.1)
/-- The clusters a job runs on. -/
def Mach.clustersOf (m : Mach) (job : Nat) : List Nat :=
  (m.streams.filter (fun p => p.2.job == job)).foldl (fun a p => if a.contains p.2.sel.lc then a else a ++ [p.2.sel.lc]) []
/-- The stream of a job under a selector. -/
def Mach.findSel (m : Mach) (job : Nat) (sel : Sel) : Option Nat :=
  (m.streams.find? (fun p => p.2.job == job && p.2.sel == sel)).map (·.1)
/-- Whether a logical cluster belongs to the share that its carrier runs now. -/
def Job.shareRuns (j : Job) (p : Part) (lc : Nat) : Bool :=
  let k := lcKind lc
  match sget? j.share (dieKey k (p.carrier k (lcDie lc))) with
  | some l => l == lcDie lc
  | none => true
/-- Clusters that a job has a share on. -/
def Job.lcs (j : Job) : List Nat := (j.shares.map (fun s => s.sel.lc)).eraseDups
/-- Whether a job has its streams somewhere: between priming and its end. -/
def Job.live (j : Job) : Bool := j.phase != .ended
def Mach.modStreams (m : Mach) (ids : List Nat) (f : Stream → Stream) : Mach := ids.foldl (fun m i => m.modStr i f) m

/-- Every stream changed. -/
def Mach.mapStreams (m : Mach) (f : Stream → Stream) : Mach :=
  { m with streams := m.streams.map (fun (p : Nat × Stream) => (p.1, f p.2)) }

/-! ### Taking an exception: the freeze (R398 to R405) -/

/-- Job cycle at which a stream's next word issues (R405 NEXT). -/
def Stream.next (s : Stream) (delay : Nat) : Nat :=
  if s.sel.cls == .scalar then (if s.fresh then s.lastIssue else s.lastIssue + 1)
  else if s.fresh then s.lastIssue + delay else s.lastIssue + max delay 1

/-- The delay of the micro-order at an engine stream's STEP, as its table word gives it (R41, R91, R111). -/
def Mach.delayAt (m : Mach) (sid : Nat) : Nat :=
  let s := m.str sid
  if s.sel.cls == .scalar then 0 else
  match (m.engineWord sid s.step).2 with
  | .ok w => if bitOf w 31 then fld w 19 4 else fld w 21 4
  | .error _ => 0

/-- Whether a stream has issued a HALT that has not ended its job (R342). -/
def Stream.halts (s : Stream) : Bool := match s.hold with | .release .halt _ _ => true | _ => false

/-- A held word is abandoned and stays at FQ0, unless its effect has already performed at its home or engine: that word completes
first, and the queue moves past it (R324). -/
def Mach.abandon (m : Mach) (now sid : Nat) : Mach :=
  match (m.str sid).hold with
  -- a PHSW whose signal has counted is past, and its wait half goes on (R298)
  | .phWait d key cyc 1 => (m.advance now sid none false).modStr sid (fun s => { s with hold := .phWait d key cyc 2 })
  | .none | .phWait .. | .frozen .. => m
  | .phReply .. => { { m with cur := sid }.retire now with cur := m.cur }
  | .atomic id =>
    let m := m.endHostWait sid
    let rest := m.atoms.filter (fun a => a.id != id)
    match (m.atoms.find? (fun a => a.id == id)).map (fun a => (a.done, a.d)) with
    | some (some v, d) =>
      { (({ m with cur := sid, atoms := rest }.modStr sid (fun s => s.wr (d.getD 0).toNat v)).mend (.scalar sid (d.getD 0).toNat) (fun _ => true)).retire now with
          cur := m.cur }
    | _ => { m with atoms := rest }.modStr sid (fun s => { s with hold := .none })
  | .host .. | .dld .. | .gset .. | .desc .. => (m.endHostWait sid).modStr sid (fun s => { s with hold := .none })
  | .lease _ =>
    let s := m.str sid
    (m.modCct (ccKey (m.job s.job).cx s.sel.lc) (fun c => { c with cores := smod c.cores s.sel.unit {} (fun k => { k with req := none }) })).modStr
      sid (fun s => { s with hold := .none })
  | .publ id => { m with publs := m.publs.filter (fun p => p.id != id) }.modStr sid (fun s => { s with hold := .none })
  -- a HALT that a freeze cuts short runs again (R342)
  | .release .halt _ _ => { m with pend := m.pend.filter (fun p => !(p.sid == sid && p.eff == Eff.halt)) }.modStr sid (fun s =>
      { s with hold := .none, state := .running })
  | _ => m.modStr sid (fun s => { s with hold := .none })

/-- Whether every stream of a job that takes part in a freeze has stopped. -/
def Mach.allStopped (m : Mach) (job : Nat) : Bool :=
  (m.streamsOf job).all (fun i => let t := (m.str i).state; t == .frozen || t == .idle || t == .done)

/-- One cluster of a job stopped: its clock stands, its streams that take part are FROZEN with PREV, and enter the record. -/
def Mach.freezeCluster (m : Mach) (now job lc handle : Nat) : Mach :=
  let m := m.stopClk now job lc
  let cyc := m.jobCyc now job lc
  let ids := (m.streamsOn job lc).filter (fun i => (m.str i).state != .idle && (m.str i).state != .done
    && (m.str i).state != .frozen)
  let m := ids.foldl (fun m i => m.abandon now i) m
  let m := m.modStreams ids (fun s => { s with prev := s.state, state := .frozen })
  let ents := ids.map (fun i =>
    let s := m.str i
    { scode := s.scode, sid := i, sel := s.sel, estat := s.estat (m.job job).jobid,
      pos := if s.sel.cls == .scalar then s.fq0.word else wd s.base, next := max cyc (s.next (m.delayAt i)) })
  m.modRec handle (fun r => { r with entries := r.entries ++ ents, ftime := now / Config.tick })

/-- Destination codes of a pending result, one entry of the record each (R405, R419); what has no code there, such as a packet on
its way to its home, has no entry. -/
def Mach.dests (m : Mach) (p : Pend) : List Nat :=
  match p.eff with
  | .reg n _ | .regAcq n _ _ _ _ => [0xC0 + n]
  | .vec _ _ ws => ws.map (·.1)
  | .mask _ k _ _ => [0x80 + k]
  | .sig f => [0xE0 + f]
  | .tileRow _ t _ _ _ | .landing _ _ t _ _ _ _ _ | .tzero _ t => [0x10 + t]
  | .accRow _ a _ _ | .accZero _ a => [0x20 + a]
  | .twin s => [0xA0 + s.acc]
  | .commit core b keep =>
    (sget (sget (m.cct p.cc).cores core {}).batches b {}).twins.map (fun a => (if keep then 0x20 else 0xA0) + a)
  | _ => []

/-- The first record number of a partition not in use. -/
def Mach.newHandle (m : Mach) (part : Nat) : Nat :=
  ((List.range 4096).find? (fun h => !(m.frec (part * 4096 + h)).live)).getD 0 + part * 4096

/-- The physical die and partition core a stream stands on. -/
def Mach.dieOf (m : Mach) (sid : Nat) : Nat :=
  let s := m.str sid
  pcDie (m.pcOf (cxPart (m.job s.job).cx) s.sel.lc)

/-- Whether a segment of a partition runs: a live job that is not frozen (R19). -/
def Mach.segmentsRun (m : Mach) (part : Nat) : Bool :=
  m.jobs.any (fun k => cxPart k.2.cx == part && k.2.phase != .ended && k.2.phase != .frozen)
/-- A pending reconfiguration goes on once no segment of its partition runs (R19). -/
def Mach.tryReconfig (m : Mach) (now part : Nat) : Mach :=
  if (m.part part).rcpend && !m.segmentsRun part then m.after now (1000000 * Config.tick) .reconfiguration [part] else m

/-- A stream at its start position, as its share descriptor places it (R48, R328). -/
def Job.shareStream (j : Job) (job : Nat) (s : Share) : Stream :=
  { job := job, sel := s.sel, state := .primed, dbank := fld j.dbank (2 * s.sel.cls.code) 2,
    base := j.image + s.tbase, len := s.tlen, wheel := s.wheel, phases := s.phases }
/-- The streams of a job that no die has primed yet, for a freeze that stops them at their start positions (R50). -/
def Mach.standUnprimed (m : Mach) (job : Nat) : Mach :=
  let j := m.job job
  j.shares.foldl (fun m s => if (m.findSel job s.sel).isSome then m else
    let (id, m) := m.newId
    m.setStr id (j.shareStream job s)) m

/-- A freeze whose last cluster has stopped: the pending entries are listed, the event posted, the ranger sought (R402, R408,
R426). A context without a pool has no ranger: recovery fails (R413). -/
def Mach.frozenWhole (m : Mach) (now job handle : Nat) : Mach :=
  let r := m.frec handle
  let ps := (m.pend.filter (fun p => p.job == job)).flatMap (fun p => (m.dests p).map (fun d => ((m.str p.sid).sel, d, p.due)))
  let m := m.modRec handle (fun r => { r with pends := ps })
  let j := m.job job
  let part := cxPart j.cx
  let m := m.tryReconfig now part
  let m := m.postEvent now part r.die
    { w0 := r.code * 2 ^ 56 + r.cause * 2 ^ 48 + handle % 4096 * 2 ^ 16 + j.jobid, w1 := j.cx % 64 * 2 ^ 58 + r.sel.word,
      w2 := r.flt.fva, w3 := now / Config.tick }
  if r.nest then m.after now 0 .poolReturn [part, 1, handle] else
  let m := if (m.die r.die).queue.length < 16 then m.modDie r.die (fun d => { d with queue := d.queue ++ [handle] })
    else ((m.modRec handle (fun r => { r with esc := true, code := FCode.poolEscalated.num, cause := r.flt.code.num })).modPart part
      (fun p => { p with escalated := p.escalated ++ [handle] })).at now .poolReturn [part, 0]
  m.at now .rangerSpawn [r.die, r.core]

/-- Taking an exception (R398): the job of the stream freezes with a composite record, and a ranger is sought. In elastic mode
the stream's cluster stops at once and a broadcast goes to the others (R400); in fixed timing the job runs on to F + 30 and is
then rewound to F (R401). A ranger's own fault is NESTED (R412). -/
def Mach.takeFreeze (m : Mach) (now sid : Nat) (f : Flt) : Mach :=
  let m := if f.bad == 0 || (m.job (m.str sid).job).window then m else m.eccLog sid (f.bad - 1)
  let s := m.str sid
  let job := s.job
  let j := m.job job
  let lc := s.sel.lc
  -- squashed with its word, where the stream stops until the rewind; raised again on resume if its cause stands (R403)
  if j.window then m.modStr sid (fun s => if s.state == .frozen then s else { s with prev := s.state, state := .frozen })
  else match j.handle with
  | some h =>            -- a secondary fault before the broadcast arrived (R403)
    if s.state == .frozen then m else
    let m := m.modStr sid (fun s => { s with scode := f.code.num })
    let m := m.freezeCluster now job lc h
    if m.allStopped job then m.frozenWhole now job h else m
  | none =>
    let part := cxPart j.cx
    let h := m.newHandle part
    let (n, m) := m.draw
    let dk := m.dieOf sid
    let w := if s.sel.cls == .scalar then s.fq0.w0 else match (m.engineWord sid s.step).2 with | .ok w => w | .error _ => 0
    let cyc := m.jobCyc now job lc
    let nest := s.isRanger
    let old := m.frec h
    let r : Rec := {
      gen := (old.gen + 1) % 256, nonce := (Config.freeWord n).toNat % 2 ^ 40, live := true,
      rights := match (m.ctx j.cx).pool with | some (r, _, _, _) => r | none => 0
      flt := f, code := if nest then FCode.nested.num else f.code.num, cause := if nest then f.code.num else f.cause
      fixed := j.fixed, nest := nest, job := job, jobid := if nest then 0xFFFF else j.jobid, fcyc := cyc, cx := j.cx,
      primary := sid, sel := s.sel, word := w, lform := if isLong w || bitOf w 31 then m.lform else 0
      wbank := if s.sel.cls == .scalar then s.fq0.bank else s.dbank, wdict := bitOf w 31, ftime := now / Config.tick, die := dk
      core := if s.sel.kind == 4 then part else 0, cluster := pcCluster (m.pcOf part lc) }
    let m := { m with recs := sset m.recs h r }
    let early := j.phase == .priming || j.phase == .primed
    let m := m.modJob job (fun j => { j with handle := some h, phase := .frozen, atPriming := early, halted := false, haltId := 0 })
    let m := if early then m.standUnprimed job else m
    if j.fixed && j.phase == .running && !nest then
      let sv : Save := { cyc := cyc, streams := m.streams.filter (fun p => p.2.job == job),
                         ccs := m.ccs.filter (fun p => ccCx p.1 == j.cx && (m.clustersOf job).contains (ccLc p.1)), pend := m.pend.filter (fun p => p.job == job) }
      let m := { m with saves := sset m.saves job sv }
      let m := m.modStr sid (fun s => { s with prev := s.state, state := .frozen })
      (m.modJob job (fun j => { j with window := true })).at (m.jobTick job lc (cyc + 31)) .freezeRewind [job]
    else
      let m := m.freezeCluster now job lc h
      let rest := (m.clustersOf job).filter (· != lc)
      if m.allStopped job then m.frozenWhole now job h
      else rest.foldl (fun m c => m.after now 0 .freezeBroadcastArrival [job, c]) m

/-- The return from an exception (R421): on one cluster of a resumed job the clock runs again, each frozen stream returns to
PREV, and the queued words of scalar streams are fetched afresh (R125). -/
def Mach.resumeCluster (m : Mach) (now job lc : Nat) : Mach :=
  let m := m.runClk now job lc
  let ids := (m.streamsOn job lc).filter (fun i => (m.str i).state == .frozen)
  ids.foldl (fun m i =>
    let m := m.modStr i (fun s => { s with state := s.prev, prev := .idle, scode := 0 })
    if (m.str i).sel.cls == .scalar then m.refetch i false else m) m

/-! ### What a word's meaning answers -/

/-- How a word ends: it retires; it retires as a branch with an optional target and an annul mark; it stays at FQ0 or STEP held
for a reason; it raises an exception; it has moved its stream itself. -/
inductive Res where
  | go (m : Mach)
  | br (m : Mach) (target : Option Nat) (annul : Bool)
  | hold (m : Mach) (h : Hold)
  | flt (m : Mach) (f : Flt)
  | moved (m : Mach)

/-- A word that raises a fault with no more to say. -/
def Res.err (m : Mach) (c : FCode) (fva : Nat := 0) : Res := .flt m { code := c, fva := fva }

/-- A translation miss of a fixed-timing job starts a translation pause of the whole job at the miss + 31 (R380). -/
def Mach.missPause (m : Mach) (now : Nat) : Mach :=
  if !m.miss then m else
  let m := { m with miss := false }
  let j := m.cj
  if j.fixed && j.phase == .running && !m.cs.isRanger then
    m.at (m.jobTick m.cs.job m.clc (m.ccyc now + 31)) .translationPauseStart [m.cs.job]
  else m

/-- The machine after a word's meaning, before a miss is accounted for. -/
def Res.settle (r : Res) (now : Nat) : Mach :=
  match r with
  | .go m => m.retire now
  | .br m t a => (m.advance now m.cur t a).modStr m.cur (fun s => { s with slots := 2 })
  | .hold m h => m.modStr m.cur (fun s => { s with hold := h })
  | .flt m f => m.takeFreeze now m.cur f
  | .moved m => m

/-- The machine after a word's meaning. -/
def Res.finish (r : Res) (now : Nat) : Mach := (r.settle now).missPause now

/-- A meaning over the machine as an answer: the package time stays and the step always goes on. -/
def onMach (f : Nat → Mach → Mach) (s : State) : Ans := .next { s with mach := f s.now s.mach }

/-- The meaning of a word from what it does to the machine. -/
def onWord (f : Nat → Mach → Res) (s : State) : Ans := onMach (fun now m => (f now m).finish now) s

end Sys2Proof.Machine
end

