-- ==== Sys2Proof/Machine/Flags.lean ====
section
/-! DEFINITION. Flag computations: the sticky flags of R165, the divide and residue rules of R163, R172 and R173, saturation, and
the conditions of R85. -/

namespace Sys2Proof.Machine

/-- Bit positions of ASTAT's flags (R165), as masks. -/
def fSAT : Nat := 1
def fIX : Nat := 2
def fUF : Nat := 4
def fOF : Nat := 8
def fDZ : Nat := 16
def fIV : Nat := 32

/-- Union of flag sets. -/
def fOr (a b : Nat) : Nat := a ||| b

end Sys2Proof.Machine

namespace Sys2Proof

/-- Whether a condition holds between two 64-bit values (R85). -/
def Cond.holds (c : Cond) (a b : Word) : Bool :=
  match c with
  | .eq => a == b
  | .ne => a != b
  | .lt => a.slt b
  | .ge => !a.slt b
  | .ltn => a.ult b
  | .gen => !a.ult b
  | .al => true

end Sys2Proof

namespace Sys2Proof.Machine

/-- Signed quotient truncated toward zero; all ones for a zero divisor (R163, R172). -/
def divS (a b : Word) : Word := if b == 0 then BitVec.allOnes 64 else BitVec.ofInt 64 (a.toInt.tdiv b.toInt)
/-- Unsigned quotient; all ones for a zero divisor. -/
def divU (a b : Word) : Word := if b == 0 then BitVec.allOnes 64 else wd (a.toNat / b.toNat)
/-- Signed remainder, with the dividend's sign; the dividend for a zero divisor. -/
def remS (a b : Word) : Word := if b == 0 then a else BitVec.ofInt 64 (a.toInt.tmod b.toInt)
/-- Unsigned remainder; the dividend for a zero divisor. -/
def remU (a b : Word) : Word := if b == 0 then a else wd (a.toNat % b.toNat)
/-- DZ of a division (R165). -/
def dzOf (b : Word) : Nat := if b == 0 then fDZ else 0

/-- High half of the signed product (R172). -/
def mulHS (a b : Word) : Word := BitVec.ofInt 64 (a.toInt * b.toInt / 2 ^ 64)
/-- High half of the unsigned product. -/
def mulHU (a b : Word) : Word := wd (a.toNat * b.toNat / 2 ^ 64)

/-- The residue check of a multiply on magnitudes (R173). -/
def residueMul (a b p : Nat) : Bool := (a % 7) * (b % 7) % 7 == p % 7
/-- The residue check of a divide on magnitudes; a division by zero is not checked (R173). -/
def residueDiv (a b q r : Nat) : Bool := b == 0 || ((q % 7) * (b % 7) + r % 7) % 7 == a % 7

/-- A shift left by a whole, unmasked amount (R163). -/
def shlW (a : Word) (n : Nat) : Word := if 64 ≤ n then 0 else a <<< n
/-- A logical shift right by a whole, unmasked amount. -/
def shrW (a : Word) (n : Nat) : Word := if 64 ≤ n then 0 else a >>> n
/-- An arithmetic shift right by a whole, unmasked amount. -/
def sarW (a : Word) (n : Nat) : Word := if 64 ≤ n then (if a.msb then BitVec.allOnes 64 else 0) else a.sshiftRight n

/-- Leading zeros of an `n`-bit number. -/
def clzN (n v : Nat) : Nat := if v == 0 then n else n - 1 - Nat.log2 v
/-- One bits of an `n`-bit number. -/
def popN (n v : Nat) : Nat := (List.range n).foldl (fun a i => a + v / 2 ^ i % 2) 0

/-- An integer clamped to a range, with SAT when clamped (R163). -/
def clampI (lo hi v : Int) : Int × Nat := if v < lo then (lo, fSAT) else if hi < v then (hi, fSAT) else (v, 0)

end Sys2Proof.Machine
end

