-- ==== Sys2Proof/Machine/Float.lean ====
section
/-! DEFINITION. Number formats and rounding (R145 to R162): values as exact dyadic numbers, one rounding per result, the special
functions of R195 from enclosures of their exact values, and the element types of R93 and R183. -/

namespace Sys2Proof.Machine

/-! ### Formats and values (R145, R146) -/

/-- What a format reserves: infinities and NaNs, only NaN (E4M3), or nothing (FP6, FP4). -/
inductive FKind where
  | ieee | e4m3 | finite
  deriving DecidableEq, Repr

/-- A floating-point format: exponent bits, mantissa bits, bias (R145). -/
structure FFmt where
  eb : Nat
  mb : Nat
  bias : Nat
  kind : FKind := .ieee
  deriving DecidableEq, Repr

def f32 : FFmt := { eb := 8, mb := 23, bias := 127 }
def f64 : FFmt := { eb := 11, mb := 52, bias := 1023 }
def f16 : FFmt := { eb := 5, mb := 10, bias := 15 }
def bf16 : FFmt := { eb := 8, mb := 7, bias := 127 }
def f19 : FFmt := { eb := 8, mb := 10, bias := 127 }
def e4m3 : FFmt := { eb := 4, mb := 3, bias := 7, kind := .e4m3 }
def e5m2 : FFmt := { eb := 5, mb := 2, bias := 15 }
def e3m2 : FFmt := { eb := 3, mb := 2, bias := 3, kind := .finite }
def e2m3 : FFmt := { eb := 2, mb := 3, bias := 1, kind := .finite }
def e2m1 : FFmt := { eb := 2, mb := 1, bias := 1, kind := .finite }

/-- An exact value: a NaN (signalling, or the result of an invalid operation), an infinity, or ± mag × 2^exp; a zero keeps its
sign. -/
inductive FV where
  | nan (sig : Bool)
  | inf (neg : Bool)
  | fin (neg : Bool) (mag : Nat) (exp : Int)
  deriving DecidableEq, Repr

/-- The value of an encoding (R145, R146). -/
def FFmt.dec (f : FFmt) (b : Nat) : FV :=
  let neg := bitOf b (f.eb + f.mb)
  let e := fld b f.mb f.eb
  let m := fld b 0 f.mb
  let top := 2 ^ f.eb - 1
  if f.kind == .ieee && e == top then
    if m == 0 then .inf neg else .nan (!bitOf m (f.mb - 1) && 4 < f.mb)
  else if f.kind == .e4m3 && e == top && m == 7 then .nan false
  else if e == 0 then .fin neg m (1 - (f.bias : Int) - f.mb)
  else .fin neg (2 ^ f.mb + m) ((e : Int) - f.bias - f.mb)

/-- The canonical NaN (R145, R146); a format without NaN takes +0 (R157). -/
def FFmt.canon (f : FFmt) : Nat :=
  match f.kind with
  | .ieee => (2 ^ f.eb - 1) * 2 ^ f.mb + 2 ^ (f.mb - 1)
  | .e4m3 => 0x7F
  | .finite => 0
/-- The largest finite magnitude: mantissa and exponent of its last place (R145). -/
def FFmt.maxFin (f : FFmt) : Nat × Int :=
  match f.kind with
  | .ieee => (2 ^ (f.mb + 1) - 1, (2 ^ f.eb : Nat) - 2 - (f.bias : Int) - f.mb)
  | .e4m3 => (14, 5)
  | .finite => (2 ^ (f.mb + 1) - 1, (2 ^ f.eb : Nat) - 1 - (f.bias : Int) - f.mb)
/-- Its encoding, without the sign. -/
def FFmt.maxBits (f : FFmt) : Nat :=
  match f.kind with
  | .ieee => (2 ^ f.eb - 1) * 2 ^ f.mb - 1
  | .e4m3 => 0x7E
  | .finite => 2 ^ (f.eb + f.mb) - 1
/-- A sign in its place. -/
def FFmt.sgn (f : FFmt) (neg : Bool) : Nat := b2n neg * 2 ^ (f.eb + f.mb)
/-- The encoding of an infinity of a format that has one (R145). -/
def FFmt.infBits (f : FFmt) (neg : Bool) : Nat := f.sgn neg + (2 ^ f.eb - 1) * 2 ^ f.mb

/-! ### Rounding (R156 to R159) -/

/-- Rounding modes (R156); stochastic rounding carries k and the random word (R159). -/
inductive Rnd where
  | rne | rz | ru | rd | rna
  | sr (k r : Nat)
  deriving DecidableEq, Repr

/-- The mode of a code 0 to 4 (R94). -/
def Rnd.ofCode : Nat → Rnd
  | 1 => .rz | 2 => .ru | 3 => .rd | 4 => .rna | _ => .rne

/-- Whether a magnitude is rounded away from zero: `rem` of `unit` is left below its last place, and `more` says that something
smaller than the last bit of `rem` is left besides (R156, R159). -/
def Rnd.up (md : Rnd) (neg odd : Bool) (rem unit : Nat) (more : Bool) : Bool :=
  let some' := rem != 0 || more
  match md with
  | .rne => unit < 2 * rem || (2 * rem == unit && (more || odd))
  | .rna => unit ≤ 2 * rem && rem != 0
  | .rz => false
  | .ru => some' && !neg
  | .rd => some' && neg
  | .sr k r => 2 ^ k ≤ rem * 2 ^ k / unit + r % 2 ^ k

/-- A magnitude cut at the place 2^q: quotient, rest, unit. -/
def cutAt (mag : Nat) (exp q : Int) : Nat × Nat × Nat :=
  if q ≤ exp then (mag * 2 ^ (exp - q).toNat, 0, 1)
  else
    let u := 2 ^ (q - exp).toNat
    (mag / u, mag % u, u)
/-- A magnitude rounded at the place 2^q, and whether that was inexact. -/
def roundAt (md : Rnd) (neg : Bool) (mag : Nat) (exp : Int) (more : Bool) (q : Int) : Nat × Bool :=
  let (t, rem, u) := cutAt mag exp q
  (if md.up neg (t % 2 == 1) rem u more then t + 1 else t, rem != 0 || more)

/-- Whether t × 2^q exceeds the largest finite magnitude. -/
def FFmt.exceeds (f : FFmt) (t : Nat) (q : Int) : Bool :=
  let (mm, mq) := f.maxFin
  if mq ≤ q then mm < t * 2 ^ (q - mq).toNat else mm * 2 ^ (mq - q).toNat < t

/-- Flags of an inexact result (R147, R156). -/
def ixFlag (b : Bool) : Nat := if b then fIX else 0

/-- The encoding of ± mag × 2^exp, rounded once, with its flags (R147, R156, R157). With `more` the value lies strictly between mag
and mag + 1 at that exponent; mag then has bits to spare. -/
def FFmt.encMag (f : FFmt) (md : Rnd) (neg : Bool) (mag : Nat) (exp : Int) (more : Bool := false) : Nat × Nat :=
  if mag == 0 then (f.sgn neg, 0) else
  let top : Int := (Nat.log2 mag : Int) + exp
  let emin : Int := 1 - f.bias
  let q0 := top - f.mb
  let q := max q0 (emin - f.mb)
  let (t, ix) := roundAt md neg mag exp more q
  if f.exceeds t q then
    if f.kind == .ieee then
      let toMax := match md with | .rz => true | .ru => neg | .rd => !neg | _ => false
      (if toMax then f.sgn neg + f.maxBits else f.infBits neg, fOr fOF fIX)
    else (f.sgn neg + f.maxBits, fOr fOF (fOr fSAT fIX))
  else
    -- tininess is detected after rounding with an unbounded exponent (R147)
    let (tu, _) := roundAt md neg mag exp more q0
    let tiny := top < emin && !(2 ^ (f.mb + 1) ≤ tu && top + 1 == emin)
    let fl := fOr (ixFlag ix) (if ix && tiny then fUF else 0)
    let (t, q) := if 2 ^ (f.mb + 1) ≤ t then (t / 2, q + 1) else (t, q)
    if t < 2 ^ f.mb then (f.sgn neg + t, fl)
    else (f.sgn neg + (q + f.mb + f.bias).toNat * 2 ^ f.mb + (t - 2 ^ f.mb), fl)

/-- The encoding of a value, rounded once, with its flags (R146, R156, R157). -/
def FFmt.enc (f : FFmt) (md : Rnd) (v : FV) : Nat × Nat :=
  match v with
  | .nan s => (f.canon, if s || f.kind == .finite then fIV else 0)
  | .inf neg => if f.kind == .ieee then (f.infBits neg, 0) else (f.sgn neg + f.maxBits, fSAT)
  | .fin neg mag exp => f.encMag md neg mag exp

/-! ### Exact arithmetic on values -/

def FV.isNan : FV → Bool
  | .nan _ => true | _ => false
def FV.sig : FV → Bool
  | .nan s => s | _ => false
def FV.isZero : FV → Bool
  | .fin _ m _ => m == 0 | _ => false
def FV.neg : FV → FV
  | .nan s => .nan s | .inf n => .inf (!n) | .fin n m e => .fin (!n) m e
/-- The sign of a value that is no NaN. -/
def FV.isNeg : FV → Bool
  | .nan _ => false | .inf n => n | .fin n _ _ => n

/-- A signed integer times a power of two. -/
structure Dy where
  m : Int
  e : Int
  deriving DecidableEq, Repr

def Dy.add (a b : Dy) : Dy :=
  let e := min a.e b.e
  { m := a.m * (2 ^ (a.e - e).toNat : Nat) + b.m * (2 ^ (b.e - e).toNat : Nat), e := e }
def Dy.mul (a b : Dy) : Dy := { m := a.m * b.m, e := a.e + b.e }
/-- The number of a finite value. -/
def FV.dy : FV → Dy
  | .fin n m e => { m := if n then -(m : Int) else m, e := e }
  | _ => { m := 0, e := 0 }
/-- The value of a number; a zero takes the sign given. -/
def Dy.fv (d : Dy) (zneg : Bool) : FV := if d.m == 0 then .fin zneg 0 0 else .fin (d.m < 0) d.m.natAbs d.e

/-- The exact sum (R146, R156); `rd` says whether the rounding is toward −∞, which settles the sign of a zero. -/
def FV.add (rd : Bool) (x y : FV) : FV :=
  match x, y with
  | .nan a, y => .nan (a || y.sig)
  | x, .nan b => .nan (x.sig || b)
  | .inf a, .inf b => if a == b then .inf a else .nan true
  | .inf a, _ => .inf a
  | _, .inf b => .inf b
  | x, y => (x.dy.add y.dy).fv (if x.isZero && y.isZero && x.isNeg == y.isNeg then x.isNeg else rd)
/-- The exact product (R146). -/
def FV.mul (x y : FV) : FV :=
  match x, y with
  | .nan a, y => .nan (a || y.sig)
  | x, .nan b => .nan (x.sig || b)
  | .fin a m e, .fin b n g => .fin (a != b) (m * n) (e + g)
  | x, y => if x.isZero || y.isZero then .nan true else .inf (x.isNeg != y.isNeg)
/-- The order of two values that are no NaN; −0 equals +0. -/
def FV.lt (x y : FV) : Bool :=
  match x, y with
  | .inf a, .inf b => a && !b
  | .inf a, _ => a
  | _, .inf b => !b
  | x, y => (x.dy.add { m := -y.dy.m, e := y.dy.e }).m < 0
def FV.eq (x y : FV) : Bool := !x.lt y && !y.lt x
/-- The order in which −0 is below +0 (R194). -/
def FV.below (x y : FV) : Bool := x.lt y || (x.isZero && y.isZero && x.isNeg && !y.isNeg)
/-- Minimum and maximum; a NaN operand gives NaN (R194). -/
def FV.min (x y : FV) : FV := if x.isNan || y.isNan then .nan (x.sig || y.sig) else if y.below x then y else x
def FV.max (x y : FV) : FV := if x.isNan || y.isNan then .nan (x.sig || y.sig) else if x.below y then y else x
def FV.abs (x : FV) : FV :=
  match x with
  | .nan s => .nan s | .inf _ => .inf false | .fin _ m e => .fin false m e

def Rnd.isRd : Rnd → Bool
  | .rd => true | _ => false

/-- An integer as a value. -/
def FV.ofInt (i : Int) : FV := .fin (i < 0) i.natAbs 0

/-! ### Element types (R93, R148, R183) -/

/-- An element type: an integer, a float in a container of `w` bits, or bit-planes in a byte. -/
inductive ETy where
  | int (w : Nat) (sg : Bool)
  | flt (w : Nat) (f : FFmt)
  | plane (k : Nat) (sg : Bool)
  deriving DecidableEq, Repr

/-- The element type of a TYPE code (R93). -/
def ETy.of : Nat → ETy
  | 0 => .int 32 true | 1 => .int 32 false | 2 => .int 16 true | 3 => .int 16 false | 4 => .int 8 true | 5 => .int 8 false
  | 6 => .int 4 true | 7 => .int 4 false | 8 => .flt 32 f32 | 9 => .flt 64 f64 | 10 => .flt 16 f16 | 11 => .flt 16 bf16
  | 12 => .flt 32 f19 | 13 => .flt 8 e4m3 | 14 => .flt 8 e5m2 | 15 => .flt 8 e3m2 | 16 => .flt 8 e2m3 | 17 => .flt 4 e2m1
  | c => if c ≤ 24 then .plane (c - 16) true else .plane (c - 23) false
/-- Container width. -/
def ETy.w : ETy → Nat
  | .int w _ => w | .flt w _ => w | .plane _ _ => 8
/-- Elements of a 512-byte register (R183). -/
def ETy.n (t : ETy) : Nat := 4096 / t.w
def ETy.isFlt : ETy → Bool
  | .flt _ _ => true | _ => false
def ETy.signed : ETy → Bool
  | .int _ s => s | .plane _ s => s | .flt _ _ => true
/-- An integer element; a bit-plane register is read as an 8-bit integer (R183). -/
def ETy.int' (t : ETy) (b : Nat) : Int := if t.signed then sInt t.w b else (b % 2 ^ t.w : Nat)
/-- The value of an element. -/
def ETy.val (t : ETy) (b : Nat) : FV :=
  match t with
  | .flt _ f => f.dec b
  | t => .ofInt (t.int' b)
/-- The range of an integer type. -/
def ETy.lo (t : ETy) : Int := if t.signed then -(2 ^ (t.w - 1) : Nat) else 0
def ETy.hi (t : ETy) : Int := if t.signed then (2 ^ (t.w - 1) : Nat) - 1 else (2 ^ t.w : Nat) - 1
/-- An integer clamped to a type, as bits (R158, R163). -/
def ETy.clamp (t : ETy) (i : Int) : Nat × Nat :=
  let (v, f) := clampI t.lo t.hi i
  (wrapN t.w v, f)
/-- A value encoded in a type: a float rounded once; an integer rounded by mode and clamped (R157, R158). -/
def ETy.enc (t : ETy) (md : Rnd) (v : FV) : Nat × Nat :=
  match t with
  | .flt _ f => f.enc md v
  | t => match v with
    | .nan _ => (0, fIV)
    | .inf n => t.clamp (if n then t.lo - 1 else t.hi + 1)
    | .fin n m e =>
      let (k, ix) := roundAt md n m e false 0
      let (b, f) := t.clamp (if n then -(k : Int) else k)
      (b, fOr f (ixFlag ix))
/-- A conversion between two types (R157, R158, R200): between integers the low bits are kept, or extended by the source's sign. -/
def ETy.conv (s t : ETy) (md : Rnd) (b : Nat) : Nat × Nat :=
  if s.isFlt || t.isFlt then t.enc md (s.val b) else (wrapN t.w (s.int' b), 0)

/-! ### Trees and prefix sums (R162) -/

/-- One level of the tree of R162. -/
def treeLevel {α : Type} (node : α → α → α) : List α → List α
  | a :: b :: t => node a b :: treeLevel node t
  | l => l
/-- The tree of R162 over at most 2^fuel contributions. -/
def tree {α : Type} (node : α → α → α) (dflt : α) : Nat → List α → α
  | 0, l => l.headD dflt
  | fuel + 1, l => match l with
    | [] => dflt
    | [a] => a
    | l => tree node dflt fuel (treeLevel node l)

/-! ### Special functions (R195) -/

/-- The rounded value of x / y for positive integers, times 2^exp. -/
def FFmt.encQuot (f : FFmt) (md : Rnd) (neg : Bool) (x y : Nat) (exp : Int) : Nat × Nat :=
  let k := Nat.log2 y + f.mb + 4
  f.encMag md neg (x * 2 ^ k / y) (exp - k) (x * 2 ^ k % y != 0)

/-- A magnitude with an even exponent. -/
def evenExp (m : Nat) (e : Int) : Nat × Int := if e % 2 == 0 then (m, e) else (2 * m, e - 1)

/-- Terms of ln 2 = Σ 1 / (k 2^k) in units of 2^-p: a number at most p units below the exact one. -/
def ln2At (p : Nat) : Nat :=
  let rec go (n : Nat) (acc : Nat) : Nat :=
    match n with
    | 0 => acc
    | k + 1 => go k (acc + 2 ^ (p - (k + 1)) / (k + 1))
  go p 0

/-- exp(y / 2^p) in units of 2^-p for 0 ≤ y < 2^p, by its series. -/
def expAt (p y : Nat) : Nat :=
  let rec go (fuel k term acc : Nat) : Nat :=
    match fuel with
    | 0 => acc
    | n + 1 => if term == 0 then acc else
      let t := term * y / 2 ^ p / k
      go n (k + 1) t (acc + t)
  go p 1 (2 ^ p) (2 ^ p)

/-- ln((1 + z) / (1 − z)) in units of 2^-p, for z ≤ 1/3 in units of 2^-p, by the series of the inverse hyperbolic tangent. -/
def lnRatioAt (p z : Nat) : Nat :=
  let z2 := z * z / 2 ^ p
  let rec go (fuel k pw acc : Nat) : Nat :=
    match fuel with
    | 0 => acc
    | n + 1 => if pw == 0 then acc else go n (k + 2) (pw * z2 / 2 ^ p) (acc + pw / k)
  2 * go p 1 z 0

/-- The error allowed on either side of an enclosure, in its units: a bound on the truncations of the series above (log 10). -/
def slack : Nat := 2 ^ 24

/-- The result of a function whose exact value is no dyadic number, from an approximation at each precision: the first enclosure
whose two ends round alike gives it (log 10). -/
def FFmt.encEnclosed (f : FFmt) (md : Rnd) (neg : Bool) (op bits : Nat) (approx : Nat → Nat × Int) : Nat × Nat :=
  let at' := fun (p : Nat) =>
    let (x, e) := approx p
    let a := f.encMag md neg (x - slack) e true
    let b := f.encMag md neg (x + slack - 1) e true
    if slack < x && a == b then some a else none
  match at' 160 with
  | some r => r
  | none => match at' 320 with
    | some r => r
    | none => match at' 640 with
      | some r => r
      | none => (Config.unstated op bits % 2 ^ (f.eb + f.mb + 1), fIX)

/-- 2^a for a value that is finite and not 0 (R195). -/
def FFmt.exp2 (f : FFmt) (md : Rnd) (bits : Nat) (neg : Bool) (m : Nat) (e : Int) : Nat × Nat :=
  let top : Int := (Nat.log2 m : Int) + e
  if 13 ≤ top then f.encMag md false 3 (if neg then -8192 else 8192)
  else if top < -200 then
    -- 1 plus or minus less than 2^-190
    if neg then f.encMag md false (2 ^ 100 - 1) (-100) true else f.encMag md false (2 ^ 100) (-100) true
  else
    let i : Int := if neg then -(m : Int) else m
    if 0 ≤ e then f.encMag md false 1 (i * (2 ^ e.toNat : Nat))
    else
      let u : Int := (2 ^ (-e).toNat : Nat)
      let n := i / u
      let r := (i % u).toNat
      if r == 0 then f.encMag md false 1 n
      else f.encEnclosed md false 0x2C bits (fun p =>
        (expAt p (ln2At p * r / 2 ^ (-e).toNat), n - p))

/-- log₂ of a positive finite value (R195). -/
def FFmt.log2 (f : FFmt) (md : Rnd) (bits m : Nat) (e : Int) : Nat × Nat :=
  let l := Nat.log2 m
  let n : Int := (l : Int) + e
  if m == 2 ^ l then f.encMag md (n < 0) n.natAbs 0
  else
    -- m = x 2^l with 1 < x < 2: log₂ = n + ln x / ln 2
    let part := fun (p : Nat) => lnRatioAt p ((m - 2 ^ l) * 2 ^ p / (m + 2 ^ l)) * 2 ^ p / ln2At p
    if 0 ≤ n then f.encEnclosed md false 0x2D bits (fun p => (n.toNat * 2 ^ p + part p, -(p : Int)))
    else f.encEnclosed md true 0x2D bits (fun p => (n.natAbs * 2 ^ p - part p, -(p : Int)))

/-- tanh of a finite value that is not 0: on its magnitude (R195). -/
def FFmt.tanh (f : FFmt) (md : Rnd) (bits : Nat) (neg : Bool) (m : Nat) (e : Int) : Nat × Nat :=
  let top : Int := (Nat.log2 m : Int) + e
  if 6 ≤ top then f.encMag md neg (2 ^ 100 - 1) (-100) true
  else if top < -60 then f.encMag md neg (m * 2 ^ 64 - 1) (e - 64) true
  else f.encEnclosed md neg 0x2E bits (fun p =>
    -- y = 2a = n ln 2 + r, and tanh a = (1 − 2^-n e^-r) / (1 + 2^-n e^-r)
    let y := if 0 ≤ e + 1 then m * 2 ^ (e + 1).toNat * 2 ^ p else m * 2 ^ p / 2 ^ (-(e + 1)).toNat
    let l := ln2At p
    let n := y / l
    let w := 2 ^ (2 * p) / expAt p (y % l) / 2 ^ n
    ((2 ^ p - w) * 2 ^ p / (2 ^ p + w), -(p : Int)))

/-- The six functions of R195 by opcode. -/
def FFmt.special (f : FFmt) (op : Nat) (md : Rnd) (bits : Nat) : Nat × Nat :=
  match f.dec bits with
  | .nan s => f.enc md (.nan s)
  | .inf n =>
    match op with
    | 0x29 => (f.sgn n, 0)
    | 0x2A => if n then f.enc md (.nan true) else (0, 0)
    | 0x2B | 0x2D => if n then f.enc md (.nan true) else (f.infBits false, 0)
    | 0x2C => if n then (0, 0) else (f.infBits false, 0)
    | _ => f.encMag md n 1 0
  | .fin n m e =>
    if m == 0 then
      match op with
      | 0x29 | 0x2A => (f.infBits n, fDZ)
      | 0x2C => f.encMag md false 1 0
      | 0x2D => (f.infBits true, fDZ)
      | _ => (f.sgn n, 0)
    else match op with
    | 0x29 => f.encQuot md n 1 m (-e)
    | 0x2A => if n then f.enc md (.nan true) else
      let (m, e) := evenExp m e
      let k := Nat.log2 m + f.mb + 4
      let q := 2 ^ (2 * k) / m
      let r := Nat.sqrt q
      f.encMag md false r (-(e / 2) - k) (2 ^ (2 * k) % m != 0 || r * r != q)
    | 0x2B => if n then f.enc md (.nan true) else
      let (m, e) := evenExp m e
      let k := f.mb + 4
      let q := m * 2 ^ (2 * k)
      let r := Nat.sqrt q
      f.encMag md false r (e / 2 - k) (r * r != q)
    | 0x2C => f.exp2 md bits n m e
    | 0x2D => if n then f.enc md (.nan true) else f.log2 md bits m e
    | _ => f.tanh md bits n m e

end Sys2Proof.Machine
end

