-- ==== Sys2Proof/Machine/Operands.lean ====
section
/-! DEFINITION. Operand forms: immediates of the scalar words (R83, R88, R96, R175, R176), effective addresses (R177), access
widths (R88), and the operand fields and common tail of the micro-orders (R57, R90 to R95). -/

namespace Sys2Proof.Machine

/-! ### Scalar -/

/-- A 15-bit or 20-bit immediate, sign-extended (R83, R88). -/
def imm15 (i : BitVec 15) : Word := i.signExtend 64
def imm20 (i : BitVec 20) : Word := i.signExtend 64
/-- The 32-bit immediate of the extended long form, sign-extended (R176). -/
def imm32 (i : BitVec 32) : Word := i.signExtend 64
/-- Effective address: register plus a sign-extended offset, wrapping (R177). -/
def effAddr (base : Word) (off : Word) : Nat := (base + off).toNat
/-- Byte offset of a native load or store (R88). -/
def off12 (o : BitVec 12) : Word := o.signExtend 64

end Sys2Proof.Machine

namespace Sys2Proof

/-- A loaded value extended to 64 bits as its width says (R88). -/
def Width.extend (w : Width) (bs : List Byte) : Word :=
  let v := Machine.leNat bs
  match w with
  | .n8 | .n16 | .n32 | .d64 => wd v
  | .s8 => (BitVec.ofNat 8 v).signExtend 64
  | .s16 => (BitVec.ofNat 16 v).signExtend 64
  | .s32 => (BitVec.ofNat 32 v).signExtend 64

end Sys2Proof

namespace Sys2Proof.Machine

/-- Word offset of a branch or jump, from its own word, modulo 2^24 (R83, R322). -/
def jumpTarget (waddr : Nat) (off : Int) : Nat := (((waddr : Int) + off) % (2 ^ 24 : Int)).toNat

/-! ### Micro-orders -/

/-- An operand of a vector micro-order (R57): L, an O register or a V register of the core. -/
inductive VOp where
  | l | o (n : Nat) | v (n : Nat)
  deriving DecidableEq, Repr

/-- The register a 7-bit field names; any other value is ILLEGAL_FIELD (R57). -/
def VOp.of (f : F7) : Option VOp :=
  let n := f.toNat
  if n == 0 then some .l else if 8 ≤ n && n ≤ 15 then some (.o (n - 8)) else if 64 ≤ n then some (.v (n - 64)) else none

end Sys2Proof.Machine

namespace Sys2Proof

/-- Type, mask, rounding code and tokens of a micro-order's tail (R92); a native word has none of its own (R89). -/
def Micro.tail (m : Micro) : Tail := m.long.getD {}
def Micro.isLong (m : Micro) : Bool := m.long.isSome
/-- The 14-bit immediate of the operate-with-immediate layout, and of a native word that carries one (R95, R97). -/
def Micro.imm14 (m : Micro) : Nat :=
  match m.long with
  | some t => m.srcB.toNat * 128 + t.srcC.toNat
  | none => m.srcA.toNat * 128 + m.srcB.toNat
/-- Base register and displacement of the memory layout (R95). -/
def Micro.memBase (m : Micro) : Nat := m.imm14 / 1024
def Micro.memDisp (m : Micro) : Int := sInt 10 (m.imm14 % 1024)
/-- The FIFO of a WE field (R92). -/
def Tok.wait (t : Tok) : Option Nat := if t.we then some t.wfifo.toNat else none
/-- The third input: srcC of a long form, dest of a native word (R97). -/
def Micro.third (m : Micro) : F7 := match m.long with | some t => t.srcC | none => m.dest

end Sys2Proof
end

