-- ==== Sys2Proof/Machine/Creg.lean ====
section
/-! DEFINITION. The control registers (R6, R88, R178, R179): which numbers an issuing cluster has, what each field allows, what a
read returns and what a write does. -/

namespace Sys2Proof.Machine

/-- Access of a control register: bits that an MTC writes, bits that a 1 clears, and reserved bits (R6). -/
structure CAcc where
  rw : Nat := 0
  w1c : Nat := 0
  rsv : Nat := 0

/-- Bits `hi` down to `lo`. -/
def bits (hi lo : Nat) : Nat := 2 ^ (hi + 1) - 2 ^ lo

/-- Access of ASTAT (R165). -/
def astatAcc : CAcc := { rw := bits 13 8, w1c := bits 5 0, rsv := bits 63 14 + bits 7 6 }

/-- The register a number names on a cluster of kind `k`, for a ranger or another stream (R179 and the maps it refers to). -/
def cregAcc (k : Nat) (ranger : Bool) (c : Nat) : Option CAcc :=
  if 0x40 ≤ c && c ≤ 0x44 then some { rsv := bits 63 56 }
  else if c == 0x45 then some { rsv := bits 63 33 }
  else if 0x50 ≤ c && c ≤ 0x53 then some {}
  else if c == 0x54 then some { rsv := bits 63 16 }
  else if c == 0x60 then some astatAcc
  else if 0x64 ≤ c && c ≤ 0x77 && k == 1 then some astatAcc
  else if 0x78 ≤ c && c ≤ 0x79 && k == 0 then some astatAcc
  else if 0x80 ≤ c && c ≤ 0x8F && k == 0 then some { rw := bits 32 8, rsv := bits 63 33 + bits 7 0 }
  else if 0x90 ≤ c && c ≤ 0x91 && k == 0 then some { rw := bits 35 22 + bits 14 0, rsv := bits 63 36 + bits 21 15 }
  else if 0x92 ≤ c && c ≤ 0x93 && k == 0 then some { rsv := bits 23 13 }
  else if c == 0x94 && k == 0 then some { rw := 1, rsv := bits 63 1 }
  else if 0xA0 ≤ c && c ≤ 0xDF && k == 1 then some { rw := bits 63 0 }
  else if 0xE0 ≤ c && c ≤ 0xF3 && k == 1 then
    some { rw := bits 63 32 + bits 18 8 + bits 4 0, rsv := bits 31 19 + bits 7 5 }
  else if 0x100 ≤ c && c ≤ 0x11F && k == 0 then some { rw := bits 63 0 }
  else if 0x130 ≤ c && c ≤ 0x13F && k == 3 then some { rw := bits 63 0 }
  else if c == 0x140 then some { rsv := bits 63 20 }
  else if c == 0x141 then some { rsv := bits 63 16 }
  else if 0x148 ≤ c && c ≤ 0x14F && k == 2 then some { rsv := bits 63 16 }
  else if c == 0x150 && ranger then some { w1c := 1, rsv := bits 23 13 + bits 7 1 }
  else if 0x158 ≤ c && c ≤ 0x15F && k == 2 then some astatAcc
  else if 0x160 ≤ c && c ≤ 0x19F && ranger then some { rsv := if c % 4 == 1 then bits 39 16 else 0 }
  else if 0x1A0 ≤ c && c ≤ 0x1AF && k == 4 then some { rw := bits 7 0, rsv := bits 63 8 }
  else if 0x200 ≤ c && c ≤ 0x27F && k == 2 then some { rw := bits 63 0 }
  else if c == 0x300 then some {}
  else if c == 0x301 then some { rsv := 2 ^ 62 }
  else if c == 0x302 then some { rsv := bits 63 32 }
  else if c == 0x303 then some { rsv := bits 63 56 + bits 15 12 + bits 7 0 }
  else if 0x304 ≤ c && c ≤ 0x307 then some {}
  else if c == 0x310 && ranger then some { rw := bits 63 0 }
  else if c == 0x311 && ranger then some { rw := bits 11 8 + bits 5 0, rsv := bits 62 12 + bits 7 6 }
  else if 0x320 ≤ c && c ≤ 0x33F && ranger then some (match c % 4 with
    | 0 => { w1c := 2 ^ 63, rsv := bits 57 56 + bits 38 35 + bits 23 16 }
    | 3 => { rsv := bits 63 32 }
    | _ => {})
  else none

/-- Whether the executing stream's partition has a register: an SMODE is that of a strip it owns (R316). -/
def Mach.cregHere (m : Mach) (c : Nat) : Bool :=
  !(0x1A0 ≤ c && c ≤ 0x1AF) || (m.part m.cpart).ownsStrip m.cs.sel.ldie (c - 0x1A0)
/-- Access of a register of the executing stream, if it has one. -/
def Mach.cregAccess (m : Mach) (ranger : Bool) (c : Nat) : Option CAcc :=
  if m.cregHere c then cregAcc m.cs.sel.kind ranger c else none

/-- Reset value of a register held by a context on a cluster (R64, R165, R184, R216, R316). -/
def cregReset (c : Nat) : Word :=
  if c == 0x60 || (0x64 ≤ c && c ≤ 0x79) || (0x158 ≤ c && c ≤ 0x15F) || 2 ^ 24 ≤ c then 0x3800
  else if 0xE0 ≤ c && c ≤ 0xF3 then (if (c - 0xE0) % 5 == 2 || (c - 0xE0) % 5 == 3 then 8 else 0)
  else if 0x90 ≤ c && c ≤ 0x91 then wd (0x3F * 2 ^ 9 + 0x1FF)
  else if 0x1A0 ≤ c && c ≤ 0x1AF then 8
  else 0

/-- A register held by a context on a cluster. -/
def Cctx.creg (c : Cctx) (n : Nat) : Word := (sget? c.cregs n).getD (cregReset n)
def Cctx.setCreg (c : Cctx) (n : Nat) (v : Word) : Cctx := { c with cregs := sset c.cregs n v }

/-- Where TCFGj of core `n` is held (R64, R218). -/
def tcfgKey (core j : Nat) : Nat := 0x1000 + core * 16 + j
/-- Where a stream's own ASTAT is held (R165, R166): a ranger has one of its own. -/
def Stream.astatKey (s : Stream) (sid : Nat) : Nat :=
  match s.sel.cls with
  | .scalar => if s.isRanger then 2 ^ 24 + sid else 0x60
  | .vector => 0x64 + 5 * s.sel.unit + s.sel.col
  | .matrix => 0x78 + s.sel.unit
  | .ldst => 0x158 + s.sel.unit
  | _ => 0x60
/-- ASTAT with flags set (R165). -/
def Cctx.setFlags (c : Cctx) (k f : Nat) : Cctx := if f == 0 then c else c.setCreg k (c.creg k ||| wd f)

/-- Width and row bytes of a matrix format (R65): 0 for a code that is not a tile format. -/
def rowBytes (fmt cols : Nat) : Nat :=
  if fmt == 1 || fmt == 2 then 2 * cols
  else if fmt == 3 then 4 * cols
  else if fmt == 4 || fmt == 5 || fmt == 9 || fmt == 10 || fmt == 6 || fmt == 7 then cols
  else if fmt == 8 || fmt == 11 || fmt == 12 then ceilDiv cols 2
  else if 13 ≤ fmt && fmt ≤ 19 then (fmt - 11) * ceilDiv cols 8
  else if 20 ≤ fmt && fmt ≤ 26 then (fmt - 18) * ceilDiv cols 8
  else if fmt == 27 || fmt == 28 then ceilDiv cols 4
  else 0

/-- Fields of a TCFG value (R64). -/
def tcPair (v : Nat) : Bool := bitOf v 32
def tcFmt (v : Nat) : Nat := fld v 27 5
def tcRows (v : Nat) : Nat := fld v 18 9
def tcCols (v : Nat) : Nat := fld v 8 10

/-- Whether a value may be written to TCFGj (R64). -/
def tcfgOk (j v : Nat) : Bool :=
  v == 0 || (1 ≤ tcFmt v && tcFmt v ≤ 28 && 1 ≤ tcRows v && tcRows v ≤ 256 && 1 ≤ tcCols v && tcCols v ≤ 512
    && !(tcPair v && j % 2 == 1) && tcRows v * rowBytes (tcFmt v) (tcCols v) ≤ (if tcPair v then 262144 else 131072))

/-- Whether a value breaks a field's own limit (R64, R184, R216, R316, R382). -/
def Mach.cregValueOk (m : Mach) (c : Nat) (v : Word) : Bool :=
  let n := v.toNat
  if 0x80 ≤ c && c ≤ 0x8F then tcfgOk (c - 0x80) n
  else if c == 0x90 || c == 0x91 then fld n 25 2 != 3 && fld n 22 2 != 3
  else if 0xE0 ≤ c && c ≤ 0xF3 then fld n 14 2 != 3 && fld n 11 3 ≤ 4
  else if 0x1A0 ≤ c && c ≤ 0x1AF then [0, 1, 8, 10, 11].contains (fld n 0 5) && fld n 5 3 ≤ 4
  else if c == 0x311 then fld n 0 6 == m.cj.cx % 64
    && (bitOf n 8 || ((m.cct m.ccc).creg 0x310).toNat % 2 ^ pszLog (fld n 9 3) == 0)
  else true

/-- MSTAT of a matrix core (R217). -/
def MCore.stat (c : MCore) : Word :=
  let bs := (List.range 16).map (fun b => (b, sget c.batches b {}))
  let sum := fun (p : Nat × Batch → Bool) => (bs.filter p).foldl (fun a x => a + 2 ^ x.1) 0
  let twins := (List.range 4).foldl (fun a i =>
    if bs.any (fun x => x.2.state != .free && x.2.twins.contains i) then a + 2 ^ i else a) 0
  let spec := (List.range 4).foldl (fun a t =>
    if bs.any (fun x => x.2.state != .free && x.2.tag == some t) then a + 2 ^ t else a) 0
  wd (sum (fun x => x.2.state == .opened) * 2 ^ 48 + sum (fun x => x.2.state == .closed) * 2 ^ 32 + twins * 2 ^ 28
    + spec * 2 ^ 24 + (match c.mrb with | some b => 2 ^ 12 + b * 2 ^ 8 | none => 0) + b2n c.lheld * 2 ^ 7
    + (if c.lheld then c.lleft else 0))

/-- CPWR of a cluster (R357). -/
def Mach.cpwr (m : Mach) (pc : Nat) : Word :=
  let p := m.pcl pc
  let fixed := match p.active with | some cx => (m.ctx cx).fixed | none => false
  wd (p.temp % 4096 * 2 ^ 44 + (Config.thot pc).toNat * 2 ^ 32 + min p.droops 0xFFFF * 2 ^ 16 + b2n p.shed * 2 ^ 11
    + b2n p.hot * 2 ^ 10 + b2n p.low * 2 ^ 9 + b2n fixed * 2 ^ 8)

/-- RFSTAT of a context (R285). -/
def Context.rfstat (c : Context) : Word :=
  wd (c.rfovf * 2 ^ 32 + c.rflast * 2 ^ 24 + c.rfrecs.length * 2 ^ 8 + b2n c.rfpend)
/-- Word `w` of record `i` of the reduction-fault log (R286). -/
def Context.rfword (c : Context) (i w : Nat) : Word :=
  match c.rfrecs[i]? with
  | none => 0
  | some r => match w with | 0 => wd r.va | 1 => wd r.w1 | 2 => r.opnd | _ => wd r.time

/-- What MFC reads (R178): the register as it stands. -/
def Mach.cregRead (m : Mach) (c : Nat) : Word :=
  let s := m.cs
  let cc := m.cct m.ccc
  let p := m.part m.cpart
  let pc := m.pcOf m.cpart m.clc
  if 0x40 ≤ c && c ≤ 0x44 then p.hc.getD (c - 0x40) 0
  else if c == 0x45 then wd (p.gen % 2 ^ 32 + b2n p.rcpend * 2 ^ 32)
  else if c == 0x60 then cc.creg (s.astatKey m.cur)
  else if 0x80 ≤ c && c ≤ 0x8F then cc.creg (tcfgKey ((cc.creg 0x94).toNat % 2) (c - 0x80))
  else if c == 0x92 || c == 0x93 then (sget cc.cores (c - 0x92) {}).stat
  else if c == 0x140 then wd s.wheel
  else if c == 0x141 then wd s.phases
  else if 0x148 ≤ c && c ≤ 0x14F then
    match m.findSel s.job { s.sel with cls := .ldst, col := 0, unit := c - 0x148 } with
    | some i => wd (m.str i).phases
    | none => 0
  else if c == 0x150 then (m.ctx m.cj.cx).rfstat
  else if 0x160 ≤ c && c ≤ 0x19F then (m.ctx m.cj.cx).rfword ((c - 0x160) / 4) ((c - 0x160) % 4)
  else if c == 0x300 then wd (b2n cc.ecntSat * 2 ^ 63 + cc.fseq % 2 ^ 15 * 2 ^ 48 + cc.ecnt)
  else if c == 0x301 then
    -- the charges of the present cycle are seen from the next on (R449)
    let (_, pj, df, sat) := (cc.keepEcl (m.eclCycle m.ccc)).eclAt
    wd (b2n sat * 2 ^ 63 + cc.sres * 2 ^ 52 + df * 2 ^ 48 + pj)
  else if c == 0x302 then wd (Config.sest pc).toNat
  else if c == 0x303 then m.cpwr pc
  else if 0x304 ≤ c && c ≤ 0x307 then wd ((m.ctx m.cj.cx).ewgt.getD (c - 0x304) 0)
  else if 0x320 ≤ c && c ≤ 0x33F then
    let b := sget (m.die (m.dieOf m.cur)).banks ((c - 0x320) / 4) {}
    match c % 4 with | 0 => b.status | 1 => b.addr | 2 => b.misc | _ => wd b.count
  else cc.creg c

/-- Where an MTC's value lands, as it stands at its issue: the stream's own ASTAT, the TCFG register MXSEL selects (R218). -/
def Mach.cregTarget (m : Mach) (c : Nat) : Nat :=
  if c == 0x60 then m.cs.astatKey m.cur
  else if 0x80 ≤ c && c ≤ 0x8F then tcfgKey (((m.cct m.ccc).creg 0x94).toNat % 2) (c - 0x80)
  else c

/-- Access bits of a place that an MTC lands on. -/
def placeAcc (c : Nat) : CAcc :=
  if 2 ^ 24 ≤ c || c == 0x60 || (0x64 ≤ c && c ≤ 0x79) || (0x158 ≤ c && c ≤ 0x15F) then astatAcc
  else if 0x1000 ≤ c then { rw := bits 32 8 }
  else if 0x90 ≤ c && c ≤ 0x91 then { rw := bits 35 22 + bits 14 0 }
  else if c == 0x94 then { rw := 1 }
  else if 0xE0 ≤ c && c ≤ 0xF3 then { rw := bits 63 32 + bits 18 8 + bits 4 0 }
  else if 0x1A0 ≤ c && c ≤ 0x1AF then { rw := bits 7 0 }
  else if (0xA0 ≤ c && c ≤ 0xDF) || (0x100 ≤ c && c ≤ 0x13F) || (0x200 ≤ c && c ≤ 0x27F) || c == 0x310 then { rw := bits 63 0 }
  else if c == 0x311 then { rw := bits 11 8 + bits 5 0 }
  else {}

/-- The write of R178 field by field: RW bits take the value, W1C bits clear on 1, RO bits stay. -/
def Cctx.cregWrite (c : Cctx) (n : Nat) (v : Word) : Cctx :=
  let a := placeAcc n
  let old := c.creg n
  if a.rw == 0 && a.w1c == 0 then c
  else c.setCreg n (((old &&& ~~~(wd a.rw)) ||| (v &&& wd a.rw)) &&& ~~~(v &&& wd a.w1c))

/-- An MTC's write in its declared write cycle, for the registers a context holds on a cluster, and the machine-check banks of a
ranger's host die, whose VAL clears the record (R438). RFSTAT and XINVC have steps of their own. -/
def Mach.cregApply (m : Mach) (cc sid c : Nat) (v : Word) : Mach :=
  if 0x320 ≤ c && c ≤ 0x33F then
    if c % 4 == 0 && bitOf v.toNat 63 then
      m.modDie (m.dieOf sid) (fun d => { d with banks := smod d.banks ((c - 0x320) / 4) {} (fun b => { count := b.count }) })
    else m
  else m.modCct cc (fun x => x.cregWrite c v)

/-- The tick at which the present cycle of the executing stream's cluster started. -/
def Mach.cycleStart (m : Mach) (now : Nat) : Nat :=
  let p := m.pcl (m.pcOf m.cpart m.clc)
  min now (p.tickOf (p.cycle now))

end Sys2Proof.Machine
end

