-- ==== Sys2Proof/Machine/Memory.lean ====
section
/-! DEFINITION. Scalar loads and stores (R277 to R280), the draining of store buffers (R253, R254, R460). -/

namespace Sys2Proof.Machine

/-! ### Ways to a home -/

/-- Whether a bank lies on the issuing die (R283). -/
def onDie (sel : Sel) (home : Nat) : Bool :=
  match homeLc home with
  | some lc => lcKind lc == sel.kind && lcDie lc == sel.ldie
  | none => sel.kind == 2 && (homeSram home == some sel.ldie || homeHbm home == some sel.ldie)
/-- Clock period of a stream's cluster. -/
def Mach.periodOf (m : Mach) (sid : Nat) : Nat := (m.pcl (m.pcOf (cxPart (m.job (m.str sid).job).cx) (m.str sid).sel.lc)).period
/-- Ticks that a delivery between a stream and a home takes at least: 39 cycles in fixed timing, else its route counted in the sending
cluster's cycles, given as a period; none on the home's own die. -/
def Mach.wayTicks (m : Mach) (sid home period : Nat) : Nat :=
  let st := m.str sid
  let j := m.job st.job
  if onDie st.sel home then 0
  else if j.fixed && !st.isRanger then 39 * Config.fixedPeriod
  else m.routeCy (m.dieOf sid) (m.homeDie (cxPart j.cx) home) * period
/-! ### Entering the store buffer (R253, R254, R460) -/

/-- One entry into a stream's store buffer (R253): merged into an earlier one where the buffer does so, as a free value says (R254), else
behind those there, to drain after a delay that the spec leaves open (log 8), no sooner than its way to its home takes (R14). -/
def Mach.enterOne (m : Mach) (now sid : Nat) (e : SBEnt) : Mach :=
  let (n, m) := m.newId
  let e := { e with seq := n, relSeq := n }
  let put := fun (m : Mach) => (m.modStr sid (fun s => { s with sb := s.sb ++ [e] })).after (now + m.wayTicks sid e.line (m.periodOf sid)) 0 .storeBufferDrain [sid, n]
  match (m.str sid).mergeable e with
  | none => put m
  | some o =>
    let (i, m) := m.draw
    if bitOf (Config.freeWord i).toNat 0 then
      m.modStr sid (fun s => { s with sb := s.sb.map (fun x => if x.seq == o.seq then x.merge e else x) })
    else put m
/-- Entries entering a stream's store buffer (R253). An entry beyond the 32nd waits for room: it does not perform, and the stream issues
nothing while one waits (R460, `Stream.full`, `Stream.inPlace`). -/
def Mach.enter (m : Mach) (now sid : Nat) (es : List SBEnt) : Mach :=
  (es.filter (fun e => e.mask != 0)).foldl (fun m e => m.enterOne now sid e) m

/-- Chunk of a cluster's local stores that a local-store home lies in (R434). -/
def chunkOf (k : Nat) : Nat := fld (k % 2 ^ 57) 12 11
/-- The chunks of homes that a context has written are dirty (R434). -/
def Mach.touched (m : Mach) (cx : Nat) (hs : List Nat) : Mach :=
  (hs.filterMap (fun h => (homeLc h).map (fun lc => (lc, chunkOf h)))).eraseDups.foldl (fun m q =>
    m.modCct (ccKey cx q.1) (fun c => if c.dirty.contains q.2 then c else { c with dirty := c.dirty ++ [q.2] })) m

/-- Latency class and route cycles of a load by where its data lies (R279). -/
def loadClass (sel : Sel) (home : Nat) : Nat × Nat :=
  match homeLc home with
  | some lc => (3, if lc == sel.lc then 0 else 78)
  | none => (4, if sel.kind == 2 && homeSram home == some sel.ldie then 0 else 78)
/-- Declared write cycle of a load (R279). -/
def Mach.loadDue (m : Mach) (now : Nat) (home : Nat) : Nat :=
  let (k, x) := loadClass m.cs.sel home
  m.ccyc now + m.cj.latOf k + x - 1

/-- Cycles by which the data of a load comes after its declared write cycle (R106): none in fixed timing; in elastic mode the class's native
latency is the real one, and off the die, or to another cluster, the way there and back with a delay that the spec leaves open (R14). -/
def Mach.loadLate (m : Mach) (home : Nat) : Nat × Mach :=
  let (k, x) := loadClass m.cs.sel home
  if m.cj.fixed then (0, m)
  else if x == 0 then (m.cj.lateOf k, m)
  else (Config.nativeLat k + 2 * m.wayTicks m.cur home 1 + Config.delayTicks m.draw.1 - (m.cj.latOf k + x), m.draw.2)

/-- Whether a job of a context that is on its way to a cluster has not started there (R55): it has a share there that its carrier runs,
priming has begun, and its streams there are missing or still at their start positions. -/
def Mach.awaits (m : Mach) (cx lc : Nat) (q : Nat × Job) : Bool :=
  let j := q.2
  let at' := fun (st : Stream) => st.state == .primed || (st.state == .frozen && st.prev == .primed)
  j.cx == cx && j.live && j.phase != .waiting && j.phase != .halting
    && ((m.streamsOn q.1 lc).any (fun i => at' (m.str i))
      || (j.lcs.contains lc && j.shareRuns (m.part (cxPart cx)) lc && (m.streamsOn q.1 lc).isEmpty))
/-- Whether a local store of a context waits for the streams of the job that is to run on its cluster (R55). A share that does not run
has its local store in its images, and holds nothing (log 86). -/
def Mach.awaitsStart (m : Mach) (cx lc : Nat) : Bool := m.jobs.any (m.awaits cx lc)
/-- The cluster of a local-store home that an access by a job waits for (R55). -/
def Mach.unstarted (m : Mach) (job home : Nat) : Option Nat :=
  match homeLc home with
  | none => none
  | some lc => if m.awaitsStart (m.job job).cx lc then some lc else none

/-! ### Draining -/

/-- Whether the release half of a releasing entry is complete (R258). -/
def Stream.released (s : Stream) (part : Nat) (e : SBEnt) : Bool :=
  e.rel == 0 || s.sb.all (fun o => o.seq == e.seq || e.relSeq ≤ o.seq || !inScope s.sel part e.rel o.line)

/-- Whether an entry may perform now: it has entered (R460), nothing older overlaps it, its release half is complete, its cluster has started, and in
fixed timing 32 cycles have passed since its issue, or its job is frozen and rewound, so that nothing squashed is left (R253, R258, R55,
R401). -/
def Mach.mayDrain (m : Mach) (now sid : Nat) (e : SBEnt) : Bool :=
  let s := m.str sid
  let j := m.job s.job
  let part := cxPart j.cx
  s.sb.all (fun o => e.seq ≤ o.seq || !o.overlaps e)
    && s.inPlace e && s.released part e
    && (m.unstarted s.job e.line).isNone
    && (!j.fixed || s.isRanger || j.phase == .ended || j.phase == .frozen || e.cyc + 32 ≤ m.jobCyc now s.job s.sel.lc)
    && !j.window

/-- A byte written into a region's draft, kept apart only where it differs from the published copy (R260). -/
def Region.draftSet (r : Region) (h : Homes) (a : Nat) (b : Byte) : Region :=
  { r with draft := if b == homeByte h a then sdel r.draft a else sset r.draft a b }

/-- A byte stored into a region's draft by a job, noted until the next PUBL (R260, R276). -/
def Region.store (r : Region) (h : Homes) (job a : Nat) (b : Byte) : Region :=
  { r.draftSet h a b with writes := r.writes ++ [(job, a, b)] }
/-- A job's stores taken out of a draft: each byte it reached takes what the last other store left there, else the published value
(R276). -/
def Region.unstore (r : Region) (h : Homes) (job : Nat) : Region :=
  let left := r.writes.filter (fun w => w.1 != job)
  ((r.writes.filter (fun w => w.1 == job)).map (fun w => w.2.1)).eraseDups.foldl (fun r a =>
    r.draftSet h a (((left.reverse.find? (fun w => w.2.1 == a)).map (fun w => w.2.2)).getD (homeByte h a))) { r with writes := left }

def Mach.modRegion (m : Mach) (cx pubrid : Nat) (f : Region → Region) : Mach :=
  m.modCtx cx (fun c => { c with regions := c.regions.map (fun r => if r.pubrid == pubrid then f r else r) })

/-- A draft byte noted as written under a predicted path, so that a DISCARD restores it (R53). -/
def Mach.saveDraft (m : Mach) (job : Nat) (tag : Option Nat) (pubrid a : Nat) : Mach :=
  match tag with
  | none => m
  | some t => m.modJob job (fun j => { j with tags := smod j.tags t {} (fun g =>
      if g.saved.contains (pubrid, a) then g else { g with saved := g.saved ++ [(pubrid, a)] }) })

/-- Bytes of an entry that it writes, as (home, data, mask). -/
def SBEnt.bytes (e : SBEnt) : List (Nat × Nat × Nat) :=
  (List.range 64).filterMap (fun i =>
    let mk := e.mask / 256 ^ i % 256
    if mk == 0 then none else some (swz e.span (e.line + i), e.data / 256 ^ i % 256, mk))

/-- 16-byte ECC words that bytes fall in, and those among them the bytes cover whole (R440; word size: log 14). -/
def eccTouched (bs : List (Nat × Nat × Nat)) : List Nat := (bs.map (fun b => b.1 / 16)).eraseDups
def eccWhole (bs : List (Nat × Nat × Nat)) (w : Nat) : Bool :=
  (bs.filter (fun b => b.1 / 16 == w && b.2.2 == 255)).length == 16

/-- A parity mismatch that a stream meets in a register of a cluster: a contained event in bank 2, which retires the cluster (R80, R438,
R441). -/
def Mach.parityLog (m : Mach) (sid pc : Nat) : Mach :=
  let s := m.str sid
  let j := m.job s.job
  let sub := match s.sel.cls with | .vector => s.sel.col | .matrix => s.sel.unit | _ => 0
  (m.mcLog (pcDie pc) 2 (mcStatus 2 0 0x32 (cxPart j.cx) (j.cx % 64) 1 (pcCluster pc) sub j.jobid) 0
    (if s.sel.cls == .scalar then 0 else s.step * 2 ^ 40) s.sel.port).retireMark pc

/-- Bytes with masks written at homes (R252, R460). -/
def putBytes (h : Homes) (bs : List (Nat × Nat × Nat)) : Homes :=
  bs.foldl (fun h b => homeSet h b.1 (mixByte (homeByte h b.1) b.2.1 b.2.2)) h

/-- The signals of a group of entries whose last has performed are counted in this cycle (R315). -/
def Mach.groupDone (m : Mach) (now sid grp : Nat) : Mach :=
  let s := m.str sid
  if grp == 0 || s.sb.any (fun e => e.grp == grp) then m else
  let m := m.modStr sid (fun s => { s with drainSigs := s.drainSigs.filter (fun x => x.1 != grp) })
  (s.drainSigs.filter (fun x => x.1 == grp)).foldl (fun m x =>
    let cur := m.cur
    { { m with cur := sid }.pushAt now (m.jobCyc now s.job s.sel.lc) (.sig x.2.1) 2 x.2.2 with cur := cur }) m

/-- An entry performs at its home, or into the draft of a registered region (R251, R260, R293); a partial write of a bad word is
dropped and freezes the storing stream's job (R440). -/
def Mach.performEntry (m : Mach) (now sid : Nat) (e : SBEnt) : Mach :=
  let s := m.str sid
  let cx := (m.job s.job).cx
  let bs := e.bytes
  let m := (m.dropEntries now sid (fun o => o.seq == e.seq)).groupDone now sid e.grp
  match (m.ctx cx).region e.pub with
  | some _ => bs.foldl (fun m b =>
      let m := m.saveDraft s.job e.tag e.pub b.1
      m.modRegion cx e.pub (fun r => r.store m.homes s.job b.1 (mixByte (r.draftByte m.homes b.1) b.2.1 b.2.2))) m
  | none =>
    let badw := (eccTouched bs).filter (fun w => m.homes.bad.contains w)
    let drop := badw.filter (fun w => !eccWhole bs w)
    let m := { m with homes := { putBytes m.homes (bs.filter (fun b => !drop.contains (b.1 / 16))) with
                                   bad := m.homes.bad.filter (fun w => drop.contains w || !badw.contains w) } }
    let m := m.touched cx (bs.map (fun b => b.1))
    match drop with
    | [] => m
    | w :: _ => (m.eccLog sid (16 * w)).takeFreeze now sid { code := .ecc, fva := e.va }

/-- Cycle of a bank's clock at a tick: the owning cluster's clock for a local store, 1.75 GHz for buffer SRAM (R269). -/
def Mach.bankCycle (m : Mach) (part home tick : Nat) : Nat :=
  match homeLc home with
  | some lc => (m.pcl (m.pcOf part lc)).cycle tick
  | none => tick / Config.fixedPeriod
/-- The requester port of a stream at a home (R353): the link it arrives on, which leads to the switch die of the home's own number or to
the other, else its own port there. A stream of another cluster of the die, which the table does not name, takes port 0 (log 97). -/
def Mach.portOf (m : Mach) (part : Nat) (sel : Sel) (home : Nat) : Nat :=
  if !onDie sel home then
    let d := m.homeDie part home
    let s := pcDie (m.pcOf part sel.lc)
    let hop := if s / 8 == 4 then (if (m.liveSwitches d).contains (s % 8) then s % 8 else (sortOn id (m.liveSwitches d)).headD 0)
      else ((m.route s d).getLast?).getD 0
    if hop == d % 8 % Config.dieCount 4 then 0 else 1
  else match homeLc home with
    | some lc => if lc != sel.lc then 0 else if sel.cls == .scalar then 2 else 3 + sel.unit
    | none => if sel.cls == .scalar then 2 + sel.cluster else 6 + 8 * sel.cluster + sel.unit
/-- Virtual destination and source of row `i`; a row of zeros has no source (R305, R306). -/
def Copy.row (c : Copy) (i : Nat) : Nat × Option Nat :=
  let dst := wrapN 64 ((c.dst : Int) + c.dp * i)
  match c.idx with
  | none => (dst, some (wrapN 64 ((c.src : Int) + c.sp * i)))
  | some l => (dst, if l.getD i 0 == 0xFFFFFFFF then none else some ((c.src + l.getD i 0 * c.rowb) % 2 ^ 64))
/-- Rows in ascending order of destination (R307). -/
def Copy.rowAt (c : Copy) (i : Nat) : Nat := if c.dp < 0 then c.rows - 1 - i else i
/-- 512-byte packets of a row, and of a copy. -/
def Copy.perRow (c : Copy) : Nat := ceilDiv c.rowb 512
def Copy.packets (c : Copy) : Nat := c.rows * c.perRow
/-- The next packet of a copy: virtual destination, source if any, and length (R307). -/
def Copy.packet (c : Copy) : Nat × Option Nat × Nat :=
  let k := c.pos % c.perRow
  let (d, s) := c.row (c.rowAt (c.pos / c.perRow))
  (d + 512 * k, s.map (· + 512 * k), min 512 (c.rowb - 512 * k))
/-- Homes of `n` bytes from a virtual address, page by page, for a copy engine; none where a page is gone. -/
def Mach.copyHomes (m : Mach) (cx va n : Nat) (nd : Need) : Option (List (Nat × Bool)) :=
  match m.xlatCx cx va nd with
  | .error _ => none
  | .ok (m, p) =>
    if n ≤ p.room then some ((List.range n).map (fun i => (p.home i, p.pub != 0)))
    else match m.xlatCx cx (va + p.room) nd with
      | .error _ => none
      | .ok (_, q) => some ((List.range p.room).map (fun i => (p.home i, p.pub != 0))
          ++ (List.range (n - p.room)).map (fun i => (q.home i, q.pub != 0)))
/-- The requester port of a copy engine at a home (R353): engine number as `Mach.acceptCopy` gives it. -/
def Mach.enginePort (m : Mach) (part eng home : Nat) : Nat :=
  let e := eng % 1024
  if e < 512 then
    let sel : Sel := { kind := 2, ldie := e / 4, cluster := e % 4 }
    if onDie sel home then 38 + e % 4 else m.portOf part sel home
  else m.portOf part { kind := 3, ldie := e - 512 } home
/-- The tick of a store or copy beat of a lower requester port that performs at one of some homes in the same bank cycle (R251). -/
def Mach.portFirst (m : Mach) (now part port : Nat) (hs : List Nat) : Option Nat :=
  let meets := fun (t : Nat) (h p : Nat) => hs.contains h && !isHost h && p < port && m.bankCycle part h t == m.bankCycle part h now
  (m.agenda.find? (fun e => match e.2.1 with
    | .storeBufferDrain =>
      let sid := e.2.2.headD 0
      let s := m.str sid
      (match s.sb.find? (fun x => x.seq == e.2.2.getD 1 0) with
      | none => false
      | some x => cxPart (m.job s.job).cx == part && m.mayDrain now sid x
          && x.bytes.any (fun b => meets e.1 b.1 (m.portOf part s.sel b.1)))
    | .copyPacketWrite =>
      (match m.copies.find? (fun c => c.id == e.2.2.headD 0) with
      | none => false
      | some c => cxPart c.cx == part && !c.complete && !c.failed
          && ((m.copyHomes c.cx c.packet.1 c.packet.2.2 { wr := true }).getD []).any (fun h => meets e.1 h.1 (m.enginePort part c.engine h.1)))
    | _ => false)).map (fun e => e.1)

/-- STORE_BUFFER_DRAIN (R253): the named entry performs, or waits on if something must perform before it; a store of the same cycle from
a lower port goes first (R251). -/
def execStoreBufferDrain (s : State) : Ans :=
  onMach (fun now m =>
    let sid := m.arg 0
    let st := m.str sid
    let part := cxPart (m.job st.job).cx
    match st.sb.find? (fun e => e.seq == m.arg 1) with
    | none => m
    | some e =>
      if !m.mayDrain now sid e then (m.draw.2).at (now + 1 + Config.delayTicks m.draw.1) .storeBufferDrain [sid, e.seq]
      else match m.portFirst now part (m.portOf part st.sel e.line) (e.bytes.map (fun b => b.1)) with
        | some t => m.at t .storeBufferDrain [sid, e.seq]
        | none => m.performEntry now sid e) s

/-! ### Checks (R278) -/

/-- The page of a scalar access after the checks of R278, in order: alignment, address, presence, permission, HBM4E target. -/
def Mach.scalarPage (m : Mach) (ea n : Nat) (nd : Need) (hbm : Bool) : Except Flt (Mach × Pg) :=
  if ea % n != 0 then .error { code := .align, fva := ea }
  else match m.xlat m.cur ea nd with
    | .error f => .error f
    | .ok (m, p) => if p.tgt == 0 && !hbm then .error { code := .pageProt, fva := ea, ptea := p.ptea } else .ok (m, p)

/-- Fault codes that the reduction-fault log holds (R286). -/
def logCode (n : Nat) : FCode := if n == 0x10 then .pageAbsent else if n == 0x14 then .slotViolation else .pageProt

/-- The freeze of R287: a boundary with a release half, reached by a stream that is no ranger while PEND stands. -/
def Mach.redFreeze (m : Mach) : Option Flt :=
  let c := m.ctx m.cj.cx
  if !c.rfpend || m.cs.isRanger then none
  else some { code := logCode (match c.rfrecs with | r :: _ => r.w1 / 2 ^ 56 | [] => c.rflast), logorg := true }

/-! ### Loads and stores (R277) -/

/-- LD and LD.ACQ at an effective address. -/
def loadOp (acq : Bool) (w : Width) (d : R) (ea : Mach → Nat) (s : State) : Ans :=
  onWord (fun now m =>
    let ea := ea m
    match m.scalarPage ea w.bytes { rd := true } false with
    | .error f => .flt m f
    | .ok (m, p) =>
      let home := p.home 0
      match m.unstarted m.cs.job home with
      | some lc => .hold m (.start lc)
      | none =>
        if m.pgBad p w.bytes then .flt m { code := .ecc, fva := ea, bad := m.badHome p w.bytes } else
        let v := w.extend (m.readPg m.cur (if acq then .home else .plain) p w.bytes)
        let m := (m.charge 2).softPg p w.bytes
        let hs := if p.pub != 0 then [] else (List.range w.bytes).map p.home
        if p.tgt == 1 then .hold (m.awaitHost now) (.host d w home acq v)
        else
          let (late, m) := m.loadLate home
          .go (m.pushAt now (m.loadDue now home) (if acq then .regAcq d.toNat w hs m.seq v else .reg d.toNat v) 0 none late)) s

/-- ST and ST.REL at an effective address. -/
def storeOp (rel : Bool) (w : Width) (d : R) (ea : Mach → Nat) (s : State) : Ans :=
  onWord (fun now m =>
    let ea := ea m
    match m.scalarPage ea w.bytes { wr := true } false with
    | .error f => .flt m f
    | .ok (m, p) =>
      match (if rel then m.redFreeze else none) with
      | some f => .flt m f
      | none =>
        let m := m.charge 2
        let es := pgEntries p ((leBytes w.bytes (m.rs d).toNat).map (fun b => (b.toNat, 255)))
          (if !rel then 0 else if p.tgt == 1 || p.sysat then 3 else 2) (m.ccyc now) ea none
        .go (m.enter now m.cur es)) s

def execLd (w : Width) (d a : R) (off : BitVec 12) (s : State) : Ans :=
  loadOp false w d (fun m => effAddr (m.rs a) (off12 off)) s
def execLdAcq (w : Width) (d a : R) (off : BitVec 12) (s : State) : Ans :=
  loadOp true w d (fun m => effAddr (m.rs a) (off12 off)) s
def execSt (w : Width) (d a : R) (off : BitVec 12) (s : State) : Ans :=
  storeOp false w d (fun m => effAddr (m.rs a) (off12 off)) s
def execStRel (w : Width) (d a : R) (off : BitVec 12) (s : State) : Ans :=
  storeOp true w d (fun m => effAddr (m.rs a) (off12 off)) s

/-! ### Replies (R279) -/

/-- A held word whose reply writes a scalar register in the arrival cycle; the stream issues in the next (R279, R283, R333). -/
def Mach.replyReg (m : Mach) (now sid : Nat) (d : R) (v : Word) : Mach :=
  let m := { m with cur := sid }
  ((m.modStr sid (fun s => s.wr d.toNat v)).mend (.scalar sid d.toNat) (fun _ => true)).retire now

end Sys2Proof.Machine
end

