-- ==== Sys2Proof/Machine/Atomic.lean ====
section
/-! DEFINITION. Atomics at memory (R268 to R272, R281 to R283), sequentially consistent operations (R264 to R267, R288), the
reduction-fault log (R284 to R287), sequenced atomics and the reply cache (R289, R290). -/

namespace Sys2Proof.Machine

/-- The value an atomic leaves at its home; none where it writes nothing (R281). -/
def amoNew (op : AOp) (w64 : Bool) (old b cmp : Word) : Option Word :=
  let n := if w64 then 64 else 32
  let o := old.toNat % 2 ^ n
  let x := b.toNat % 2 ^ n
  match op with
  | .add => some (wd ((o + x) % 2 ^ n))
  | .and => some (wd (o &&& x))
  | .or => some (wd (o ||| x))
  | .xor => some (wd (o ^^^ x))
  | .min => some (wd (if sInt n x < sInt n o then x else o))
  | .max => some (wd (if sInt n o < sInt n x then x else o))
  | .minn => some (wd (min o x))
  | .maxn => some (wd (max o x))
  | .swap => some (wd x)
  | .cas => if o == cmp.toNat % 2 ^ n then some (wd x) else none

/-- Bytes of an operation. -/
def Atom.bytes (a : Atom) : Nat := if a.w64 then 8 else 4

/-! ### Banks and slots (R269 to R271) -/

/-- Tick at which a bank cycle starts. -/
def Mach.bankTick (m : Mach) (part home cyc : Nat) : Nat :=
  match homeLc home with
  | some lc => (m.pcl (m.pcOf part lc)).tickOf cyc
  | none => cyc * Config.fixedPeriod
/-- The first slot at or after a bank cycle whose phase is among the given ones (R269). -/
def nextSlot (phases cyc : Nat) : Option Nat :=
  ((List.range 16).map (fun i => ceilDiv cyc 4 + i)).find? (fun j => bitOf phases (j % 16))
/-- The bank of a home: segment and bank of R69, or core window and bank of R68. -/
def bankOf (home : Nat) : Nat :=
  let a := home % 2 ^ 57
  match homeSram home with
  | some l => 2 ^ 40 + l * 512 + fld a 26 3 * 64 + fld a 4 6
  | none => a / 2 ^ 21 * 32 + fld a 4 5
/-- The place an atomic is served at, for the reply cache (R289). -/
def placeOf (aplace home : Nat) : Nat :=
  if aplace ≤ 1 then bankOf home else match homeHbm home with | some l => 2 ^ 41 + l | none => 2 ^ 41 + 16
/-- Phases that streams of a partition's running jobs own, on every bank of its (R270, R290). -/
def Mach.ownedPhases (m : Mach) (part : Nat) : Nat :=
  m.streams.foldl (fun a p => let j := m.job p.2.job
    if j.phase == .running && cxPart j.cx == part then a ||| p.2.phases else a) 0
/-- Phases an atomic may use: its stream's, or for a ranger those no running job owns (R270, R290); so too for the mailbox, whose
requests no stream issues (number 2^40 + partition). -/
def Mach.phasesFor (m : Mach) (a : Atom) : Nat :=
  let s := m.str a.sid
  if s.isRanger || 2 ^ 40 ≤ a.sid then 65535 - m.ownedPhases (cxPart a.cx) % 65536 else s.phases

/-- Whether two atomics are served at one bank. -/
def Atom.shares (a b : Atom) : Bool := cxPart a.cx == cxPart b.cx && bankOf a.home == bankOf b.home
/-- The requester port of an atomic at its home (R353). -/
def Mach.atomPort (m : Mach) (a : Atom) : Nat := if 2 ^ 40 ≤ a.sid then 0 else m.portOf (cxPart a.cx) (m.str a.sid).sel a.home
/-- When the operation of slot `j` of an atomic's bank acts: as the cycle that reads ends, ahead of what reaches the bank later, since
ordinary accesses of the slot's next two cycles are served after its write (R269). -/
def Mach.slotTick (m : Mach) (a : Atom) (j : Nat) : Nat := m.bankTick (cxPart a.cx) a.home (4 * j + 1)

/-- The operations placed in slot `j` of an atomic's bank, and whether each is a sequentially consistent one. -/
def Mach.claims (m : Mach) (a : Atom) (j : Nat) : List (Bool × Atom) :=
  m.agenda.filterMap (fun e => if e.1 != m.slotTick a j then none
    else match m.atoms.find? (fun b => b.id == e.2.2.getD 0 0 && a.shares b) with
      | none => none
      | some b => if e.2.1 == .atomicSlotServe && e.2.2.getD 1 0 == 1 then some (false, b)
        else if e.2.1 == .scEffect && e.2.2.getD 3 0 == 1 then some (true, b) else none)
/-- Whether slot `j` of an atomic's bank is another operation's: one of another job at a lower port (R271), an earlier one of the
same stream, or a sequentially consistent one, which took it whoever owns it (R267). -/
def Mach.slotTaken (m : Mach) (a : Atom) (j : Nat) : Bool :=
  (m.claims a j).any (fun (q : Bool × Atom) => q.2.id != a.id
    && (q.1 || q.2.sid == a.sid || (q.2.job != a.job && m.atomPort q.2 ≤ m.atomPort a)))

/-- The first slot from a bank cycle on that is an atomic's to take. -/
def Mach.freeSlot (m : Mach) (a : Atom) (phases : Nat) : Nat → Nat → Option Nat
  | 0, _ => none
  | fuel + 1, cyc => match nextSlot phases cyc with
    | none => none
    | some j => if m.slotTaken a j then m.freeSlot a phases fuel (4 * j + 4) else some j
/-- An atomic's place in slot `j` of its bank given up. -/
def Mach.unplace (m : Mach) (b : Atom) (j : Nat) : Mach :=
  { m with agenda := m.agenda.filter (fun e => !(e.1 == m.slotTick b j && e.2.1 == Instr.atomicSlotServe && e.2.2 == [b.id, 1])) }

/-- An atomic given a slot of its bank (R271, R290): one of another job at a higher port that stands in it goes on to its own next slot.
With no slot to take now, it asks again. -/
def Mach.giveSlotN (m : Mach) : Nat → Atom → Nat → Mach
  | 0, a, cyc => m.at (m.bankTick (cxPart a.cx) a.home (cyc + 64)) .atomicSlotServe [a.id, 0]
  | fuel + 1, a, cyc => match m.freeSlot a (m.phasesFor a) 64 cyc with
    | none => m.at (m.bankTick (cxPart a.cx) a.home (cyc + 64)) .atomicSlotServe [a.id, 0]
    | some j =>
      let out := ((m.claims a j).filter (fun (q : Bool × Atom) => !q.1 && q.2.job != a.job)).map (·.2)
      let m := (out.foldl (fun (m : Mach) b => m.unplace b j) m).atFirst (m.slotTick a j) .atomicSlotServe [a.id, 1]
      out.foldl (fun (m : Mach) b => m.giveSlotN fuel b (4 * j + 4)) m
def Mach.giveSlot (m : Mach) (a : Atom) (cyc : Nat) : Mach := m.giveSlotN (m.atoms.length + 1) a cyc

/-- A sequentially consistent operation takes slot `j` of its bank: an owned atomic displaced from it goes on to its owner's next
slot (R267). -/
def Mach.displace (m : Mach) (a : Atom) (j : Nat) : Mach :=
  let out := ((m.claims a j).filter (fun (q : Bool × Atom) => !q.1)).map (·.2)
  out.foldl (fun (m : Mach) b => (m.unplace b j).giveSlot b (4 * j + 4)) m

/-! ### The way to a place and back (R12 to R14, R268, R283) -/

/-- A request of a stream on its way to the place of a home. -/
def Mach.sendHome (m : Mach) (now sid home least : Nat) (e : Instr) (a : List Nat) : Mach :=
  let st := m.str sid
  let part := cxPart (m.job st.job).cx
  m.transfer now (max least (m.wayTicks sid home (m.periodOf sid))) sid (m.homeDie part home) e a
/-- The reply of an atomic that has performed, leaving its place at a tick: at a bank in fixed timing it arrives then on the issuing die and
38 cycles later elsewhere (R283); else after its way (R268). -/
def Mach.sendReply (m : Mach) (t : Nat) (a : Atom) : Mach :=
  let st := m.str a.sid
  if a.mbox.isSome || isHost a.home then m.after t 0 .atomicReply [a.id]
  else if a.place ≤ 1 && (m.job a.job).fixed && !st.isRanger then
    m.at (if onDie st.sel a.home then t else t + 38 * Config.fixedPeriod) .atomicReply [a.id]
  else
    let period := match homeLc a.home with | some lc => (m.pcl (m.pcOf (cxPart a.cx) lc)).period | none => Config.fixedPeriod
    m.transfer t (m.wayTicks a.sid a.home period) (2 ^ 42 + placeOf a.place a.home) (m.dieOf a.sid) .atomicReply [a.id]

/-! ### Serving -/

/-- Key of a source at a place, for the reply cache (R289). -/
def replyKey (place src : Nat) : Nat := place * 2 ^ 32 + src

/-- What the reply cache says of a sequenced request (R289): the saved value, a refusal code, or leave to perform. -/
inductive Seq where
  | saved (v : Word) | conflict | stale | fresh
  deriving DecidableEq, Repr

def Mach.seqCheck (m : Mach) (key seq addr op : Nat) : Seq :=
  match (sget m.replies key []).find? (fun r => r.seq == seq) with
  | some r => if r.addr == addr && r.op == op then .saved r.old else .conflict
  | none =>
    let d := (seq + 65536 - sget m.newest key 0) % 65536
    if 1 ≤ d && d ≤ 32767 then .fresh else .stale

def Mach.atom? (m : Mach) (id : Nat) : Option Atom := m.atoms.find? (fun a => a.id == id)
def Mach.dropAtom (m : Mach) (id : Nat) : Mach := { m with atoms := m.atoms.filter (fun a => a.id != id) }
/-- An atomic that is over; inside a freeze window it stays listed until the rewind (R401). -/
def Mach.endAtom (m : Mach) (a : Atom) : Mach := if (m.job a.job).window then m else m.dropAtom a.id
def Mach.modAtom (m : Mach) (id : Nat) (f : Atom → Atom) : Mach :=
  { m with atoms := m.atoms.map (fun a => if a.id == id then f a else a) }

/-- One element of a RED packet: new bits and flags (R314). -/
def lsRedElem (op : AOp) (ty : Nat) (rnd : Nat) (old x : Nat) : Nat × Nat :=
  match ETy.of ty with
  | .flt _ f =>
    let md := Rnd.ofCode rnd
    let a := f.dec old
    let b := f.dec x
    f.enc md (match op with | .min => a.min b | .max => a.max b | _ => a.add md.isRd b)
  | t =>
    let w := t.w
    let v := match op with
      | .and => old &&& x | .or => old ||| x | .xor => old ^^^ x
      | .min => if sInt w x < sInt w old then x else old
      | .max => if sInt w old < sInt w x then x else old
      | .minn => min old x | .maxn => max old x
      | _ => (old + x) % 2 ^ w
    (v, 0)
/-- A packet reduced into its home: new bytes and flags. -/
def lsRedPacket (op : AOp) (ty rnd : Nat) (old src : List Byte) : List Byte × Nat :=
  let k := (ETy.of ty).w / 8
  (List.range (old.length / k)).foldl (fun (a : List Byte × Nat) i =>
    let g := fun (l : List Byte) => leNat ((l.drop (k * i)).take k)
    let (v, fl) := lsRedElem op ty rnd (g old) (g src)
    (a.1 ++ leBytes k v, a.2 ||| fl)) ([], 0)

/-- Homes that an atomic reads and writes. -/
def Atom.homes (a : Atom) : List Nat :=
  match a.red with
  | some r => r.homes
  | none => (List.range a.bytes).map (a.home + ·)

/-- The atomic performs at its home: the value before (of a packet, the flags it raises), and the home after (R281, R288, R314). -/
def Mach.atomPerform (m : Mach) (a : Atom) : Mach :=
  let (old, m) : Word × Mach := match a.red with
    | some r =>
      let (bs, fl) := lsRedPacket a.op r.type r.rnd (r.homes.map (homeByte m.homes)) r.src
      (wd fl, { m with homes := (r.homes.zip bs).foldl (fun (h : Homes) (x : Nat × Byte) => homeSet h x.1 x.2) m.homes })
    | none =>
      let old := wd (leNat (homeRead m.homes a.home a.bytes))
      (old, match a.form with
        | 1 => m
        | 2 => { m with homes := homeWrite m.homes a.home (leBytes a.bytes a.opnd.toNat) }
        | _ => match amoNew a.op a.w64 old a.opnd a.cmp with
          | some v => { m with homes := homeWrite m.homes a.home (leBytes a.bytes v.toNat) }
          | none => m)
  let m := if a.form == 1 then m else m.touched a.cx a.homes
  let m := match a.source with
    | none => m
    | some (src, seq) =>
      let key := replyKey (placeOf a.place a.home) src
      { m with replies := smod m.replies key []
                 (fun l => (Reply.mk seq a.va (a.form * 16 + a.op.code) old :: l).take 32),
               newest := sset m.newest key seq }
  m.modAtom a.id (fun b => { b with done := some old })

/-- A RED packet is over: its flags are set and its signals counted in the cycle in which its last bank word performed (R314, R315), the
one before the tick given. -/
def Mach.packetDone (m : Mach) (t : Nat) (a : Atom) (grp : Nat) : Mach :=
  let s := m.str a.sid
  let c := m.jobCyc (t - 1) s.job s.sel.lc
  let cur := m.cur
  let fl := (((m.atom? a.id).bind (fun b => b.done)).getD 0).toNat
  let m := { m with cur := a.sid }.pushAt t c (.flags (0x158 + s.sel.unit) fl) 1
  let m := (s.drainSigs.filter (fun x => x.1 == grp)).foldl (fun m x => m.pushAt t c (.sig x.2.1) 2 x.2.2) m
  { m.modStr a.sid (fun s => { s with drainSigs := s.drainSigs.filter (fun x => x.1 != grp) }) with cur := cur }

/-- ABX_STAT and ABX_RES after a mailbox atomic (R291). -/
def Mach.mboxDone (m : Mach) (part code : Nat) (res : Option Word) : Mach :=
  m.modPart part (fun p => { p with abx := (match res with | some v => p.abx.set 4 v | none => p.abx).set 5 (wd code) })

/-- One atomic reaches its turn: the reply cache, the ECC of its bytes, then the operation; a RED is then over, any other
operation's reply leaves at the given tick, at which its write is done (R268, R281, R289, R440). -/
def Mach.atomServe (m : Mach) (now : Nat) (a : Atom) (t : Nat) : Mach :=
  let reply : Mach → Mach := fun m => m.sendReply t a
  let drop : Mach → Mach := fun m => m.dropAtom a.id
  let fin : Mach → Mach := fun m => match a.red with
    | some r => (m.packetDone t a r.grp).endAtom a
    | none => if a.d.isNone && a.mbox.isNone && !a.sc then m.endAtom a else reply m
  let go : Mach → Mach := fun m =>
    match a.homes.find? (fun h => badIn m.homes h 1) with
    | some h => match a.mbox with
      | some p => ((drop m).badLog (64 * p) h).mboxDone p 0x32 none
      | none => ((drop m).eccLog a.sid h).takeFreeze now a.sid { code := .ecc, fva := a.va }
    | none => fin ((m.soft a.cx a.homes).atomPerform a)
  -- a ranger's request that the cache refuses performs nothing; the value its register gets is not stated (log 9)
  let refused : Mach → Mach := fun m =>
    reply ((m.draw.2).modAtom a.id (fun b => { b with done := some (Config.freeWord m.draw.1) }))
  if a.done.isSome then fin m else
  match a.source with
  | none => go m
  | some (src, seq) =>
    match m.seqCheck (replyKey (placeOf a.place a.home) src) seq a.va (a.form * 16 + a.op.code) with
    | .fresh => go m
    | .saved v => reply (m.modAtom a.id (fun b => { b with done := some v }))
    | .conflict => match a.mbox with | some p => (drop m).mboxDone p 3 none | none => refused m
    | .stale => match a.mbox with | some p => (drop m).mboxDone p 4 none | none => refused m

/-- When the write of the slot that an atomic acts in now is done: two cycles after the one that begins now (R269). -/
def Mach.slotDone (m : Mach) (now : Nat) (a : Atom) : Nat :=
  m.bankTick (cxPart a.cx) a.home (m.bankCycle (cxPart a.cx) a.home now + 2)

/-- ATOMIC_SLOT_SERVE (R269, R271): an atomic arrives at its bank and is given a slot, or is served in it. -/
def execAtomicSlotServe (s : State) : Ans :=
  onMach (fun now m => match m.atom? (m.arg 0) with
    | none => m
    | some a =>
      if m.arg 1 == 0 then m.giveSlot a (m.bankCycle (cxPart a.cx) a.home now)
      else m.atomServe now a (m.slotDone now a)) s

/-- Whether a request that waits at an atomic unit, by its agenda entry, comes before another that arrived in a cycle at a port: it arrived
earlier, or in the same cycle at a lower port (R268). -/
def Mach.unitBefore (m : Mach) (e : Nat × Instr × List Nat) (u c port id : Nat) : Bool :=
  e.2.1 == .atomicUnitServe && e.2.2.length == 2 && e.2.2.getD 0 0 != id
    && (match m.atom? (e.2.2.getD 0 0) with
      | none => false
      | some b =>
        let c' := e.2.2.getD 1 0
        let port' := m.atomPort b
        placeOf b.place b.home == u && (c' < c || (c' == c && (port' < port || (port' == port && b.id < id)))))

/-- ATOMIC_UNIT_SERVE (R268): a request arrives at a BFD atomic unit, and with the cycle of its arrival as the second operand is accepted
there: one in each cycle of 1.75 GHz, in order of arrival, same-cycle arrivals by ascending port. The host serves its own memory's. -/
def execAtomicUnitServe (s : State) : Ans :=
  onMach (fun now m => match m.atom? (m.arg 0) with
    | none => m
    | some a =>
      let u := placeOf a.place a.home
      let c := now / Config.fixedPeriod
      if isHost a.home then m.atomServe now a now
      else if m.ev.length == 1 then m.at ((c + 1) * Config.fixedPeriod) .atomicUnitServe [a.id, c]
      else if sget m.units u 0 == c + 1 then m.at ((c + 1) * Config.fixedPeriod) .atomicUnitServe m.ev
      else match m.agenda.find? (fun e => m.unitBefore e u (m.arg 1) (m.atomPort a) a.id) with
        | some e => m.at (max now e.1) .atomicUnitServe m.ev
        | none => { m with units := sset m.units u (c + 1) }.atomServe now a now) s

/-- ATOMIC_REPLY (R283, R288, R291): the old value is written and the held stream goes on; an SC load or atomic refreshes. -/
def execAtomicReply (s : State) : Ans :=
  onMach (fun now m => match m.atom? (m.arg 0) with
    | none => m
    | some a =>
      let old := a.done.getD 0
      let m := m.endAtom a
      match a.mbox with
      | some p => m.mboxDone p 0 (some old)
      | none =>
        if (m.str a.sid).hold != .atomic a.id then m else
        let m := if isHost a.home then m.endHostWait a.sid else m
        let m := if a.sc && a.form != 2 then m.refresh a.sid else m
        m.replyReg now a.sid (a.d.getD 0) old) s

/-- SEQ_ATOMIC_RESEND (R289): 10 µs without a reply; the packet goes again, up to four times, then the loss is
LINK_UNCORRECTABLE. -/
def execSeqAtomicResend (s : State) : Ans :=
  onMach (fun now m => match m.atom? (m.arg 0) with
    | none => m
    | some a =>
      -- a RED that is to be logged never performs (R284); an SC operation stands in the total order already
      if a.flt.isSome then m
      else if a.resends ≥ 4 then
        let m := m.dropAtom a.id
        match a.mbox with
        | some p => m.mboxDone p 0x33 none
        | none => m.takeFreeze now a.sid { code := .link, fva := a.va }
      else
        let m := m.modAtom a.id (fun b => { b with resends := b.resends + 1 })
        let go : Mach → Instr → List Nat → Mach := fun m e l => if a.mbox.isSome then m.after now 0 e l else m.sendHome now a.sid a.home 0 e l
        let m := if a.sc then m else if a.place ≤ 1 then go m .atomicSlotServe [a.id, 0] else go m .atomicUnitServe [a.id]
        m.at (now + 10000 * Config.tick) .seqAtomicResend [a.id]) s

/-! ### AMO and RED (R281 to R284) -/

/-- Whether a stream's buffer holds bytes of a range (R268). -/
def Stream.holds (s : Stream) (home n : Nat) : Bool :=
  s.sb.any (fun e => e.bytes.any (fun b => home ≤ b.1 && b.1 < home + n))

/-- Source and sequence number of a ranger's atomic, and the stream with its counter advanced (R289, R290). -/
def Mach.nextSeq (m : Mach) : Option (Nat × Nat) × Mach :=
  match m.cs.ranger with
  | none => (none, m)
  | some r => (some (0x10000 + m.cur, (r.seqNo + 1) % 65536),
      m.modStr m.cur (fun s => { s with ranger := some { r with seqNo := (r.seqNo + 1) % 65536 } }))

/-- An atomic put on its way to its place; a ranger's is resent after 10 µs without a reply. -/
def Mach.sendAtom (m : Mach) (now : Nat) (mk : Nat → Option (Nat × Nat) → Atom) : Mach × Nat :=
  let (src, m) := m.nextSeq
  let (id, m) := m.newId
  let cyc := m.ccyc now
  -- a word kept through a rewind does not perform again (R401)
  let a := { mk id src with iss := cyc, done := (m.cs.kept.find? (fun k => k.1 == cyc)).map (fun k => k.2) }
  let m := m.modStr m.cur (fun s => { s with kept := s.kept.filter (fun k => k.1 != cyc) })
  let m := { m with atoms := m.atoms ++ [a] }
  let m := if src.isSome then m.at (now + 10000 * Config.tick) .seqAtomicResend [id] else m
  (m, id)

/-- Job cycle in which a fixed-timing atomic reaches a bank (R283). -/
def Mach.bankArrival (m : Mach) (now home : Nat) : Nat :=
  m.ccyc now + (if onDie m.cs.sel home then 1 else 39)

/-- Whether a fixed-timing atomic's arrival is the first cycle of an owned slot (R271). -/
def Mach.slotOk (m : Mach) (now home : Nat) : Bool :=
  let c := m.bankCycle m.cpart home (m.jobTick m.cs.job m.clc (m.bankArrival now home))
  c % 4 == 0 && bitOf m.cs.phases (c / 4 % 16)

/-- The atomic's way to its place in its timing mode (R268, R271, R283). -/
def Mach.routeAtom (m : Mach) (now id aplace home : Nat) : Mach :=
  if 2 ≤ aplace then m.sendHome now m.cur home 0 .atomicUnitServe [id]
  else if m.cj.fixed && !m.cs.isRanger then
    let t := m.jobTick m.cs.job m.clc (m.bankArrival now home)
    match m.atom? id with
    | some a => m.giveSlot a (m.bankCycle m.cpart home t)
    | none => m
  else m.sendHome now m.cur home 0 .atomicSlotServe [id, 0]

/-- The executing stream waits on an atomic that reaches host memory (R279): an error completion may come, as a free value says, and the
completion timeout may expire. The good completion is the atomic's reply (R283). -/
def Mach.awaitAtomic (m : Mach) (now : Nat) : Mach :=
  let (i, m) := m.draw
  let m := m.at (now + Config.completionTicks) .completionTimeout [m.cur]
  if bitOf (Config.freeWord i).toNat 0 then m.after now 0 .hostCompletion [m.cur, 1] else m

/-- AMO.op (R281 to R283). -/
def amoOp (op : AOp) (w64 : Bool) (d a b : R) (s : State) : Ans :=
  onWord (fun now m =>
    let n := if w64 then 8 else 4
    let ea := (m.rs a).toNat
    match m.scalarPage ea n { rd := true, wr := true } true with
    | .error f => .flt m f
    | .ok (m, p) =>
      let home := p.home 0
      if p.pub != 0 then .flt m { code := .pageProt, fva := ea, ptea := p.ptea }
      else if p.aplace ≤ 1 && !m.cs.isRanger && (if m.cj.fixed then !m.slotOk now home else m.cs.phases == 0) then
        Res.err m .slotViolation ea
      else match m.unstarted m.cs.job home with
      | some lc => .hold m (.start lc)
      | none =>
        if m.cs.holds home n then .hold m (.overlap home n) else
        let m := m.charge 2
        let (m, id) := m.sendAtom now (fun id src =>
          { id := id, sid := m.cur, op := op, w64 := w64, home := home, place := p.aplace, opnd := m.rs b, cmp := m.rs d,
            d := some d, source := src, va := ea, job := m.cs.job, cx := m.cj.cx })
        .hold ((if p.tgt == 1 then m.awaitAtomic now else m).routeAtom now id p.aplace home) (.atomic id)) s

def execAmo (op : AOp) (w64 : Bool) (d a b : R) (s : State) : Ans := amoOp op w64 d a b s

/-- Word 1 of a reduction-fault record (R286). -/
def Mach.redWord1 (m : Mach) (code : FCode) (op : AOp) (w64 : Bool) : Nat :=
  let s := m.cs.sel
  code.num * 2 ^ 56 + op.code * 2 ^ 52 + b2n w64 * 2 ^ 51 + s.kind * 2 ^ 48 + s.ldie * 2 ^ 44 + s.cluster * 2 ^ 40 + m.cj.jobid

/-- RED.op (R281, R282, R284): it never holds its stream, and a page fault found later is logged. -/
def redOp (op : AOp) (w64 : Bool) (a b : R) (s : State) : Ans :=
  onWord (fun now m =>
    let n := if w64 then 8 else 4
    let ea := (m.rs a).toNat
    let sid := m.cur
    let lose : Mach → Flt → Res := fun m f =>
      let (m, id) := (m.charge 2).sendAtom now (fun id src =>
        { id := id, sid := sid, op := op, w64 := w64, home := 0, place := m.redWord1 f.code op w64, opnd := m.rs b, source := src,
          flt := some f, va := ea, job := m.cs.job, cx := m.cj.cx })
      .go (m.after now 0 .redFaultLog [id])
    match m.scalarPage ea n { wr := true } true with
    | .error f => if f.code == .align || f.code == .ecc then .flt m f else lose m f
    | .ok (m, p) =>
      let home := p.home 0
      if p.pub != 0 then lose m { code := .pageProt, fva := ea }
      else if p.aplace ≤ 1 && !m.cs.isRanger && m.cj.fixed && !m.slotOk now home then Res.err m .slotViolation ea
      else if p.aplace ≤ 1 && !m.cs.isRanger && !m.cj.fixed && m.cs.phases == 0 then lose m { code := .slotViolation, fva := ea }
      else match m.unstarted m.cs.job home with
      | some lc => .hold m (.start lc)
      | none =>
        if m.cs.holds home n then .hold m (.overlap home n) else
        let m := m.charge 2
        let (m, id) := m.sendAtom now (fun id src =>
          { id := id, sid := sid, op := op, w64 := w64, home := home, place := p.aplace, opnd := m.rs b, source := src, va := ea,
            job := m.cs.job, cx := m.cj.cx })
        .go (m.routeAtom now id p.aplace home)) s

def execRed (op : AOp) (w64 : Bool) (a b : R) (s : State) : Ans := redOp op w64 a b s

/-- A RED dropped and recorded, or counted in OVF when the log is full; never without one of these marks (R284). -/
def Mach.redLog (m : Mach) (now : Nat) (a : Atom) : Mach :=
  let code := match a.flt with | some f => f.code.num | none => 0
  (m.dropAtom a.id).modCtx a.cx (fun c =>
    let c := { c with rflast := code, rfpend := true }
    if c.rfrecs.length < 16 then
      { c with rfrecs := c.rfrecs ++ [{ va := a.va, w1 := a.place, opnd := a.opnd, time := now / Config.tick }] }
    else { c with rfovf := min (c.rfovf + 1) (2 ^ 32 - 1) })
/-- RED_FAULT_LOG (R284): the fault of a RED is found. -/
def execRedFaultLog (s : State) : Ans :=
  onMach (fun now m => match m.atom? (m.arg 0) with
    | none => m
    | some a => m.redLog now a) s

/-- RFSTAT_PEND_CLEAR (R285): a 1 written to PEND clears the log. -/
def execRfstatPendClear (s : State) : Ans :=
  onMach (fun _ m => match m.pend.find? (fun p => p.id == m.arg 0) with
    | some p =>
      let m := { m with pend := m.pend.filter (fun q => q.id != p.id) }
      match p.eff with
      | .creg 0x150 v => if bitOf v.toNat 0 then
          m.modCtx (ccCx p.cc) (fun c => { c with rfrecs := [], rfovf := 0, rflast := 0, rfpend := false }) else m
      | _ => m
    | none => m) s

/-! ### Sequentially consistent operations (R264 to R267, R288) -/

/-- Whether a wheel position is owned (R265). -/
def wheelOwns (wheel pos : Nat) : Bool :=
  (pos + 1024 - fld wheel 10 10) % 1024 % 2 ^ fld wheel 6 4 < fld wheel 0 6

/-- Whether an SC operation may issue in the present cycle (R266): a ranger always may (R290). -/
def Mach.scOwned (m : Mach) (now : Nat) : Bool :=
  m.cs.isRanger || wheelOwns m.cs.wheel (m.cycleStart now / 21 % 1024)

/-- Place of an SC operation in the total order (R267): wheel point, then the tie order. -/
def Mach.scPoint (m : Mach) (now : Nat) : Nat :=
  let s := m.cs.sel
  (m.cycleStart now / 21) * 2 ^ 37
    + (((((m.cj.cx * 65536 + m.cj.jobid) * 8 + s.kind) * 16 + s.ldie) * 16 + s.cluster) % 2 ^ 36)
/-- The place of a ranger's SC operation before it has arrived: none yet. -/
def scFar : Nat := 2 ^ 128
/-- A ranger's SC operation arrives, and takes its place there: after every operation of a job at the same point, and among rangers by
source number (R290). -/
def Mach.scArrive (m : Mach) (now : Nat) (a : Atom) : Mach :=
  if a.point == scFar then m.modAtom a.id (fun b => { b with
    point := now / 21 * 2 ^ 37 + 2 ^ 36 + (match a.source with | some q => q.1 | none => 0) }) else m

/-- SC.LD (form 1), SC.ST (form 2) and SC.AMO (form 0). -/
def scOp (form : Nat) (op : AOp) (w64 : Bool) (d a b : R) (s : State) : Ans :=
  onWord (fun now m =>
    if !m.cs.isRanger && (if m.cj.fixed then !m.scOwned now else fld m.cs.wheel 0 6 == 0) then
      Res.err m .scSlot (m.rs a).toNat
    else if !m.scOwned now then .hold m .scPos
    else
      let n := if w64 then 8 else 4
      let ea := (m.rs a).toNat
      match m.scalarPage ea n { rd := form != 2, wr := form != 1 } true with
      | .error f => .flt m f
      | .ok (m, p) =>
        let home := p.home 0
        if p.pub != 0 then .flt m { code := .pageProt, fva := ea, ptea := p.ptea }
        else match (if form == 1 then none else m.redFreeze) with
        | some f => .flt m f
        | none => match m.unstarted m.cs.job home with
          | some lc => .hold m (.start lc)
          | none =>
            if m.cs.holds home n then .hold m (.overlap home n) else
            let m := m.charge 2
            let pt := if m.cs.isRanger then scFar else m.scPoint now
            let rel := if form == 1 then 0 else if p.tgt == 1 || p.sysat then 3 else 2
            let (m, id) := m.sendAtom now (fun id src =>
              { id := id, sid := m.cur, op := op, form := form, w64 := w64, home := home, place := p.aplace, opnd := m.rs b,
                cmp := m.rs d, d := if form == 2 then none else some d, sc := true, point := pt, source := src, va := ea,
                job := m.cs.job, cx := m.cj.cx })
            let m := if p.tgt == 1 then m.awaitAtomic now else m
            -- it arrives at its place, and acts no sooner than its position is over
            let past := (m.cycleStart now / 21 + 1) * 21
            .hold (if m.cj.fixed && !m.cs.isRanger && p.aplace ≤ 1 then
                m.at (max past (m.jobTick m.cs.job m.clc (m.bankArrival now home))) .scEffect [id, rel, m.seq]
              else m.sendHome now m.cur home (past - now) .scEffect [id, rel, m.seq]) (.atomic id)) s

def execScLd (w64 : Bool) (d a : R) (s : State) : Ans := scOp 1 .add w64 d a 0 s
def execScSt (w64 : Bool) (a b : R) (s : State) : Ans := scOp 2 .add w64 0 a b s
def execScAmo (op : AOp) (w64 : Bool) (d a b : R) (s : State) : Ans := scOp 0 op w64 d a b s

/-- The first slot of its bank from a cycle on that no other sequentially consistent operation has. -/
def Mach.scSlot (m : Mach) (a : Atom) : Nat → Nat → Nat
  | 0, j => j
  | fuel + 1, j => if (m.claims a j).any (fun (q : Bool × Atom) => q.1) then m.scSlot a fuel (j + 1) else j

/-- SC_EFFECT (R267): the operation has arrived, with (number, scope of its release half, mark), and takes effect once its release half is
complete and every earlier operation of the total order has: at a bank in the first slot that begins from then on, whoever owns it, with a
fourth operand as it acts there, or, for a ranger, in the first slot that no running job owns (R290); elsewhere as the atomic unit accepts
it (R268). -/
def execScEffect (s : State) : Ans :=
  onMach (fun now m => match m.atom? (m.arg 0) with
    | none => m
    | some a =>
      let m := m.scArrive now a
      let a := (m.atom? a.id).getD a
      let st := m.str a.sid
      let part := cxPart a.cx
      if m.arg 3 == 1 then m.atomServe now a (m.slotDone now a)
      else if a.done.isSome then m.atomServe now a now
      else if (m.arg 1 != 0 && !st.drained part (m.arg 1) (m.arg 2))
          || m.atoms.any (fun b => b.sc && b.done.isNone && b.point < a.point) then
        m.at (now + 21) .scEffect m.ev
      else if 2 ≤ a.place then m.at now .atomicUnitServe [a.id]
      else if st.isRanger then m.giveSlot a (m.bankCycle part a.home now)
      else
        let j := m.scSlot a (m.atoms.length + 1) (ceilDiv (m.bankCycle part a.home now) 4)
        (m.displace a j).atFirst (m.slotTick a j) .scEffect [a.id, m.arg 1, m.arg 2, 1]) s

/-- SC_POSITION_REACHED (R266): the held operation issues in this cycle, which starts in an owned position. -/
def execScPositionReached (s : State) : Ans :=
  onMach (fun _ m => m.modStr (m.arg 0) (fun st => if st.hold == .scPos then { st with hold := .none } else st)) s

end Sys2Proof.Machine
end

