-- ==== Sys2Proof/Machine/Handle.lean ====
section
/-! DEFINITION. Frozen-thread capabilities (R410) and stream selectors (R416), and the signal of a held micro-order. -/

namespace Sys2Proof.Machine

/-- Rights of an FTC as bits of its top nibble (R410). -/
def ftcKill : Nat := 8
def ftcResume : Nat := 4
def ftcPatch : Nat := 2
def ftcInspect : Nat := 1

/-- The record a value names with a right, if the value is a valid FTC for the executing stream (R410). -/
def Mach.ftc (m : Mach) (v : Word) (right : Nat) : Option Nat :=
  let n := v.toNat
  let h := m.cpart * 4096 + fld n 48 12
  let r := m.frec h
  let rights := fld n 60 4
  if m.cs.isRanger && r.live && fld n 40 8 == r.gen && fld n 0 40 == r.nonce && rights &&& right == right
    && rights ||| r.rights == r.rights then some h else none

/-- The FTC of a record, with every right it grants (R410). -/
def Rec.ftc (r : Rec) (h : Nat) : Word := wd (r.rights * 2 ^ 60 + h % 4096 * 2 ^ 48 + r.gen * 2 ^ 40 + r.nonce)

/-- The stream selector in bits [20:0] of a word; bits [31:21] are reserved (R416). -/
def selOf (v : Word) : Option Sel :=
  let n := v.toNat
  match Cls.ofCode (fld n 7 3) with
  | some k => if fld n 21 11 == 0 then
      some { kind := fld n 18 3, ldie := fld n 14 4, cluster := fld n 10 4, cls := k, col := fld n 4 3, unit := fld n 0 4 }
    else none
  | none => none

/-- Scope of a phaser key: whether its engine is package-scope (R295). -/
def phPkg (key : Nat) : Bool := key / 8192 % 2 == 1
/-- R and D of R299. -/
def phReply (j : Job) (key : Nat) : Nat := j.latOf 13 + (if phPkg key then 48 else 0)
def phSpread (j : Job) (key : Nat) : Nat := j.latOf 13 / 2 + (if phPkg key then 24 else 0)

/-- Where a job keeps whether a speculation tag is open on a cluster (R236). -/
def tagKey (lc t : Nat) : Nat := 16 + 4 * lc + t
/-- Whether a speculation tag of a job is open on a cluster, and whether it is on any. -/
def Job.tagOpen (j : Job) (lc t : Nat) : Bool := (sget j.tags (tagKey lc t) {}).opened
def Job.tagAny (j : Job) (t : Nat) : Bool := j.tags.any (fun g => 16 ≤ g.1 && g.1 % 4 == t && g.2.opened)

/-- A signal counted at a FIFO of a context's cluster: above 255 it waits (R44, R339). -/
def Cctx.signal (c : Cctx) (f : Nat) : Cctx :=
  { c with fifos := smod c.fifos f {} (fun x =>
      if x.count < 255 && x.pend == 0 then { x with count := x.count + 1, inflight := x.inflight - 1 }
      else { x with pend := x.pend + 1, inflight := x.inflight - 1 }) }

/-- Signals pending above 255 join the count one per cycle after a wait has issued, while the count is below 255 (R339): the next of them
put in flight for a cycle, unless it is already. -/
def Mach.pendUp (m : Mach) (p : Pend) (f due : Nat) : Mach :=
  let x := sget (m.cct p.cc).fifos f {}
  if x.pend == 0 || 255 ≤ x.count || m.pend.any (fun q => q.cc == p.cc && q.eff == .tokUp f) then m
  else { m with seq := m.seq + 1, pend := m.pend ++ [{ p with id := m.seq, due := due, ord := 1, spec := none, eff := .tokUp f }] }

/-- A token effect in its cycle (R44, R339): a signal counted, a pending one moved up, a TOKSET. A FIFO that belongs to another job keeps its
count, a free one is claimed. Each remote producer's copy takes the new count and its own signals still in flight. -/
def Mach.tokenEff (m : Mach) (p : Pend) : Mach :=
  match p.eff with
  | .sig f => m.modCct p.cc (fun c => c.signal f)
  | .tokUp f =>
    (m.modCct p.cc (fun c => { c with fifos := smod c.fifos f {} (fun x =>
      if x.pend != 0 && x.count < 255 then { x with count := x.count + 1, pend := x.pend - 1 } else x) })).pendUp p f (p.due + 1)
  | .tokset f v =>
    let x := sget (m.cct p.cc).fifos f {}
    if x.owner.isSome && x.owner != some p.job then m else
    let own := fun (sid : Nat) => (m.pend.filter (fun q => q.sid == sid && (match q.eff with
      | .landing tcc _ _ _ _ g _ _ => tcc == p.cc && g == f
      | _ => false))).length
    (m.modCct p.cc (fun c => { c with fifos := sset c.fifos f { x with
      count := v, owner := some p.job, credit := v, copies := x.copies.map (fun (q : Nat × Nat) => (q.1, v + own q.1)) } })).pendUp p f (p.due + 1)
  | _ => m

/-- A signal given at once by a micro-order that completes now: withheld while its predicted path is open (R52). -/
def Mach.signalNow (m : Mach) (now sid : Nat) (sg : Option (Nat × Option Nat)) : Mach :=
  match sg with
  | none => m
  | some (f, tag) =>
    let s := m.str sid
    let cyc := m.jobCyc now s.job s.sel.lc
    { m with cur := sid }.pushAt now cyc (.sig f) 2 tag

/-- Length in words of the micro-order at an engine stream's STEP (R41). -/
def Mach.wordLen (m : Mach) (sid : Nat) : Nat :=
  match (m.engineWord sid (m.str sid).step).2 with
  | .ok w => if isLong w then 3 else 1
  | .error _ => 1

/-- A held micro-order or word completes: its signal is counted in this cycle, and its stream moves past it (R108). -/
def Mach.complete (m : Mach) (now sid : Nat) : Mach :=
  let m := { m with cur := sid, curLen := if (m.str sid).sel.cls == Cls.scalar then 1 else m.wordLen sid }
  let m := m.signalNow now sid m.cs.sig
  (m.modStr sid (fun s => { s with sig := none })).retire now

end Sys2Proof.Machine
end

