-- ==== Sys2Proof/Machine/Fence.lean ====
section
/-! DEFINITION. Fences and publishable regions (R256 to R263, R292 to R294) and the invalidations they and others start
(R381 to R383). -/

namespace Sys2Proof.Machine

/-! ### Release halves (R257) -/

/-- FENCE.scope (R292): held until its release half has performed, then it refreshes. -/
def execFence (z : Scope) (s : State) : Ans :=
  onWord (fun _ m => match m.redFreeze with
    | some f => .flt m f
    | none => .hold (m.charge 2) (.release (.fence z) z.code m.seq)) s

/-- Whether a held boundary's release half is complete (R257); PHSIGP's is over the frozen member's entries (R301). -/
def Mach.releaseDone (m : Mach) (sid : Nat) : Bool :=
  let st := m.str sid
  let part := cxPart (m.job st.job).cx
  match st.hold with
  | .release (.ph 2 _ _ _ target) scope seq => (m.str target).drained part scope seq
  | .release _ scope seq => st.drained part scope seq
  | _ => false

/-- RELEASE_COMPLETE (R257): every entry the boundary covers has performed, and the boundary goes on. -/
def execReleaseComplete (s : State) : Ans :=
  onMach (fun now m =>
    let sid := m.arg 0
    let st := m.str sid
    let j := m.job st.job
    match st.hold with
    | .release b _ _ =>
      if st.state == .frozen || !m.releaseDone sid then m
      else match b with
        | .fence _ => ({ m with cur := sid }.retire now).refresh sid
        | .ph k key cyc d target =>
          -- the signal reaches the engine R − D cycles after the word's issue, or its crossing after the release half (R13, R298)
          let (id, m) := m.newId
          let lat := phReply j key - phSpread j key
          let t := max (now + (if phPkg key then 24 * m.periodOf sid else 0)) (m.jobTick st.job st.sel.lc (cyc + lat))
          let m := m.modStr sid (fun s => { s with hold := .phSend id (.ph k key cyc d target) })
          if j.fixed then m.at t .phaserSignalArrival [sid, id] else
            (m.draw.2).at (t + Config.delayTicks m.draw.1) .phaserSignalArrival [sid, id]
        | .rdv => m.modStr sid (fun s => { s with state := .waitRdv, hold := .none })
        | .halt =>
          let m := m.modStr sid (fun s => { s with hold := .none, state := .waitRdv })
          if st.isRanger then m.at now .rangerTimeout [sid, 1] else m
    | _ => m) s

/-! ### Invalidations (R381 to R383) -/

/-- Whether a cached translation is one an invalidation removes. -/
def Inval.hits (v : Inval) (t : Tlb) : Bool :=
  t.cx == v.cx && (if v.pubrid != 0 then fld t.hi 38 12 == v.pubrid
    else v.all || (t.psz == v.psz && t.base == v.va))

/-- Dies whose L1s hold a translation that an invalidation removes. -/
def Mach.invalDies (m : Mach) (v : Inval) : List Nat :=
  ((m.streams.filter (fun p => p.2.l1.any v.hits)).map (fun p => p.2.sel.kind * 16 + p.2.sel.ldie)).eraseDups

/-- An invalidation sent to every slice that may hold the page: the home slice up to 16 MiB, else every slice (R381). With no
slice in the partition it is complete at once. -/
def Mach.startInval (m : Mach) (now : Nat) (v : Nat → Inval) : Mach :=
  let (id, m) := m.newId
  let v := v id
  let part := cxPart v.cx
  let n := m.sliceCount part
  let sl := if v.all || v.pubrid != 0 || 4 < v.psz then List.range n else if n == 0 then [] else [sliceHash v.va v.cx % n]
  let m := { m with invs := m.invs ++ [{ v with slices := sl }] }
  if sl.isEmpty then m.after now 0 .invalidationComplete [id]
  else sl.foldl (fun m i => m.after now 0 .invalidationForward [id, i]) m

def Mach.modInval (m : Mach) (id : Nat) (f : Inval → Inval) : Mach :=
  { m with invs := m.invs.map (fun v => if v.id == id then f v else v) }

/-- INVALIDATION_FORWARD (R381): a slice removes the matching translations and forwards the removal to every die its directory
names. -/
def execInvalidationForward (s : State) : Ans :=
  onMach (fun now m => match m.invs.find? (fun v => v.id == m.arg 0) with
    | none => m
    | some v =>
      if !v.slices.contains (m.arg 1) then m else
      let key := cxPart v.cx * 64 + m.arg 1
      let hit := (sget m.slices key []).filter v.hits
      let dies := ((hit.flatMap (fun t => t.dies)) ++ m.invalDies v).eraseDups.filter (fun d => !v.dies.contains d)
      let m := { m with slices := smod m.slices key [] (fun l => l.filter (fun t => !v.hits t)) }
      let left := v.slices.filter (· != m.arg 1)
      let m := m.modInval v.id (fun v => { v with slices := left, dies := v.dies ++ dies })
      let m := dies.foldl (fun m d => m.after now 0 .invalidationDieAck [v.id, d]) m
      if left.isEmpty && (v.dies ++ dies).isEmpty then m.after now 0 .invalidationComplete [v.id] else m) s

/-- Whether a store-buffer entry translated through a page that an invalidation names. -/
def Inval.covers (v : Inval) (cx : Nat) (e : SBEnt) : Bool :=
  cx == v.cx && (if v.pubrid != 0 then e.pub == v.pubrid
    else v.all || (v.va ≤ e.va + 63 && e.va < v.va + 2 ^ pszLog v.psz))

/-- INVALIDATION_DIE_ACK (R381): a die removes its L1 copies and, once what translated through them has performed,
acknowledges. -/
def execInvalidationDieAck (s : State) : Ans :=
  onMach (fun now m => match m.invs.find? (fun v => v.id == m.arg 0) with
    | none => m
    | some v =>
      let d := m.arg 1
      if !v.dies.contains d then m else
      let onDie := fun (st : Stream) => st.sel.kind * 16 + st.sel.ldie == d && (m.job st.job).cx == v.cx
      let m := m.mapStreams (fun st => if onDie st then { st with l1 := st.l1.filter (fun t => !v.hits t) } else st)
      let busy := m.streams.any (fun p => onDie p.2 && p.2.sb.any (v.covers v.cx))
        || m.atoms.any (fun a => a.cx == v.cx && a.done.isNone && a.flt.isNone && onDie (m.str a.sid) && v.pubrid == 0
              && (v.all || (v.va ≤ a.va && a.va < v.va + 2 ^ pszLog v.psz)))
      -- a packet or a store of a running job that is on its way, too
      let busy := busy || m.pend.any (fun q => onDie (m.str q.sid) && (m.job q.job).phase == .running && (match q.eff with
        | .land es _ | .enter es => es.any (v.covers v.cx)
        | _ => false))
      if busy then (m.draw.2).at (now + 1 + Config.delayTicks m.draw.1) .invalidationDieAck [v.id, d]
      else
        let left := v.dies.filter (· != d)
        let m := m.modInval v.id (fun v => { v with dies := left })
        if left.isEmpty && v.slices.isEmpty then m.after now 0 .invalidationComplete [v.id] else m) s

/-- An admin command completes: its record waits for the completion ring (R346, R347). Words w0 to w3 as R346 lays them out are
formed when it is written: (partition, queue, TYPE, STATUS, JOBID, PIDX, VALUE). -/
def Mach.adminDone (m : Mach) (now part pidx status value : Nat) : Mach :=
  let m := m.modQueue part 0 (fun q => { q with busy := q.busy.filter (· != pidx) })
  m.at now .completionRecordWrite [part, 0, 3, status, 0, pidx, value]

/-- INVALIDATION_COMPLETE (R381 to R383): the command, the ranger's register, or the PUBL goes on. -/
def execInvalidationComplete (s : State) : Ans :=
  onMach (fun now m => match m.invs.find? (fun v => v.id == m.arg 0) with
    | none => m
    | some v =>
      let m := { m with invs := m.invs.filter (fun w => w.id != v.id) }
      match v.admin, v.ranger, v.publ with
      | some (part, pidx), _, _ => m.adminDone now part pidx 0 (now / Config.tick)
      | _, some cc, _ => m.modCct cc (fun c => c.setCreg 0x311 (wd ((c.creg 0x311).toNat % 2 ^ 63)))
      | _, _, some id => m.at now .publPublish [id]
      | _, _, _ => m) s

/-- A ranger's write of XINVC starts an invalidation in its declared write cycle, and BUSY stands until it completes (R382). -/
def xinvStart (all : Bool) (s : State) : Ans :=
  onMach (fun now m => match m.pend.find? (fun p => p.id == m.arg 0) with
    | none => m
    | some p =>
      let m := { m with pend := m.pend.filter (fun q => q.id != p.id) }
      match p.eff with
      | .creg 0x311 v =>
        let m := m.modCct p.cc (fun c => c.setCreg 0x311 (wd (v.toNat &&& (bits 11 8 + bits 5 0) ||| 2 ^ 63)))
        let va := ((m.cct p.cc).creg 0x310).toNat
        m.startInval now (fun id => { id := id, cx := ccCx p.cc, all := all, va := va, psz := fld v.toNat 9 3, ranger := some p.cc })
      | _ => m) s

def execXinvPage (s : State) : Ans := xinvStart false s
def execXinvContext (s : State) : Ans := xinvStart true s

/-! ### PUBL (R262, R263, R294) -/

/-- Whether a PUBL is the next of its region: of those under way none came before it to the directory entry, or in the same cycle from a
lower port (R263). -/
def Mach.publNext (m : Mach) (p : Publ) : Bool :=
  m.publs.all (fun q => q.id == p.id || q.cx != p.cx || q.pubrid != p.pubrid
    || p.at' < q.at' || (p.at' == q.at' && (p.port < q.port || (p.port == q.port && p.id < q.id))))
/-- Whether a PUBL may begin its invalidations: its issue cycle is over, its stream's own entries of the region have performed, and it is
next (R262, R263). -/
def Mach.publMayStart (m : Mach) (now : Nat) (p : Publ) : Bool :=
  p.go ≤ now && !(m.str p.sid).sb.any (fun e => e.pub == p.pubrid) && m.publNext p

/-- PUBL of the region of a page's PUBRID: the issuing stream's own entries drain first, PUBLs of one region are served in
order, then the invalidations; T is issue + 1 when no die holds the region's pages and nothing made it wait. -/
def Mach.publ (m : Mach) (now home pubrid : Nat) : Res :=
  let cx := m.cj.cx
  let (pb, m) := match m.publs.find? (fun p => p.sid == m.cur) with
    | some p => (p, m)
    | none =>
      let (id, m) := m.newId
      let p : Publ := { id := id, sid := m.cur, cx := cx, pubrid := pubrid, at' := now, port := m.portOf (cxPart cx) m.cs.sel home,
                        go := m.jobTick m.cs.job m.clc (m.ccyc now + 1) }
      (p, { m with publs := m.publs ++ [p] })
  if !m.publMayStart now pb then .hold m (.publ pb.id)
  else
    let m := { m with publs := m.publs.map (fun (p : Publ) => if p.id == pb.id then { p with started := true } else p) }
    let v : Nat → Inval := fun id => { id := id, cx := cx, all := false, va := 0, psz := 0, pubrid := pubrid, publ := some pb.id }
    let held := (m.invalDies (v 0)).isEmpty && m.slices.all (fun s => s.2.all (fun t => !(v 0).hits t))
    .hold (if held then m.at now .publPublish [pb.id] else m.startInval now v) (.publ pb.id)

/-- The translation a PUBL makes for its checks. It fills no cache: else the issuing die would always hold the region's page, and the last
sentence of R263 could never apply (DEDUCED, log 96). -/
def Mach.publPage (m : Mach) (ea : Nat) : Except Flt (Mach × Pg) :=
  match m.xlat m.cur ea {} with
  | .error f => .error f
  | .ok (m', p) => .ok ({ m' with streams := m.streams, slices := m.slices }, p)
/-- The checks of R294 on the page of an address: its PUBRID, if registered. -/
def Mach.publCheck (m : Mach) (ea : Nat) : Except Flt (Mach × Pg) :=
  match m.publPage ea with
  | .error f => .error f
  | .ok (m, p) => if p.pub == 0 then .error { code := .pageProt, fva := ea, ptea := p.ptea } else .ok (m, p)

def execPubl (a : R) (s : State) : Ans :=
  onWord (fun now m => match m.publCheck (m.rs a).toNat with
    | .error f => .flt m f
    | .ok (m, p) =>
      let m := if m.publs.any (fun q => q.sid == m.cur) then m else m.charge 2
      m.publ now (p.home 0) p.pub) s

/-- PUBL_PUBLISH (R262): at T the draft becomes the published copy, and the draft restarts from it. -/
def execPublPublish (s : State) : Ans :=
  onMach (fun now m => match m.publs.find? (fun p => p.id == m.arg 0) with
    | none => m
    | some p =>
      let m := { m with publs := m.publs.filter (fun q => q.id != p.id) }
      let m := match (m.ctx p.cx).region p.pubrid with
        | some r => (({ m with homes := r.draft.foldl (fun (h : Homes) (c : Host.Cell) => homeSet h c.1 c.2) m.homes } : Mach).touched p.cx
            (r.draft.map (fun c => c.1))).modRegion p.cx p.pubrid
            (fun r => { r with draft := [], writes := [] })
        | none => m
      if (m.str p.sid).hold == .publ p.id then m.complete now p.sid else m) s

/-! ### PUBREG (R293) -/

/-- The pages of a region and of its twin, checked page by page: one PUBRID throughout, twin pages unpublishable, readable and
writable, and like their region page in target and size (R293). -/
def Mach.pubregPages (m : Mach) (base twin pubrid : Nat) : Nat → Nat → Except Flt Mach
  | 0, _ => .ok m
  | fuel + 1, off =>
    match m.xlat m.cur (base + off) {} with
    | .error f => .error f
    | .ok (m, p) =>
      if p.pubrid != pubrid || pubrid == 0 then .error { code := .pageProt, fva := base + off, ptea := p.ptea }
      else match m.xlat m.cur (twin + off) { rd := true, wr := true, look := true } with
        | .error f => .error f
        | .ok (m, q) =>
          if q.pubrid != 0 || q.tgt != p.tgt || fld q.lo 60 3 != fld p.lo 60 3 then
            .error { code := .pageProt, fva := twin + off, ptea := q.ptea }
          else m.pubregPages base twin pubrid fuel (off + 4096)

/-- PUBREG: every check at issue, then registration or release within 4 µs. -/
def execPubreg (d a b : R) (s : State) : Ans :=
  onWord (fun now m =>
    let len := (m.rs d).toNat
    let base := (m.rs a).toNat
    let twin := (m.rs b).toNat
    let start : Mach → Nat → Nat → Nat → Res := fun m pubrid len twin =>
      .hold ((m.charge 2).after now (4000 * Config.tick) .pubregComplete [m.cur]) (.pubreg d pubrid base len twin 0)
    if len == 0 then
      match m.xlat m.cur base {} with
      | .error f => .flt m f
      | .ok (m, p) => if p.pubrid == 0 then .flt m { code := .pageProt, fva := base, ptea := p.ptea } else start m p.pubrid 0 0
    else if len % 4096 != 0 || base % 4096 != 0 || twin % 4096 != 0 then Res.err m .pageProt base
    else match m.xlat m.cur base {} with
      | .error f => .flt m f
      | .ok (m, p) => match m.pubregPages base twin p.pubrid (len / 4096) 0 with
        | .error f => .flt m f
        | .ok m => start m p.pubrid len twin) s

/-- PUBREG_COMPLETE (R293): the region is registered or released, and Sd gets the status. -/
def execPubregComplete (s : State) : Ans :=
  onMach (fun now m =>
    let sid := m.arg 0
    let st := m.str sid
    let cx := (m.job st.job).cx
    match st.hold with
    | .pubreg d pubrid base len twin _ =>
      if st.state == .frozen then m else
      let c := m.ctx cx
      let known := (c.region pubrid).isSome
      let status := if len == 0 then (if known then 0 else 3) else if 64 ≤ c.regions.length then 1 else if known then 2 else 0
      let m := if status != 0 then m
        else if len == 0 then m.modCtx cx (fun c => { c with regions := c.regions.filter (fun r => r.pubrid != pubrid) })
        else m.modCtx cx (fun c => { c with regions := c.regions ++ [{ pubrid := pubrid, base := base, len := len, twin := twin }] })
      m.replyReg now sid d (wd status)
    | _ => m) s

end Sys2Proof.Machine
end

