-- ==== Sys2Proof/Machine/Phaser.lean ====
section
/-! DEFINITION. Phasers (R295 to R303). -/

namespace Sys2Proof.Machine

/-- The phaser a value names for the executing stream, or none where the name is illegal (R295). -/
def Mach.phName (m : Mach) (v : Word) : Option Nat :=
  let n := v.toNat
  let s := m.cs.sel
  let part := m.cpart
  if bitOf n 9 then
    if fld n 6 3 < (m.part part).lcount 4 then some (phKey part 1 4 (fld n 6 3) (fld n 0 6)) else none
  else if s.kind == 2 || s.kind == 4 || fld n 6 3 != 0 then none
  else some (phKey part 0 s.kind s.ldie (fld n 0 6))

def Mach.phaser (m : Mach) (key : Nat) : Phaser := sget m.phs key {}
/-- A phaser changed; one without members is at rest (R296). -/
def Mach.setPhaser (m : Mach) (key : Nat) (p : Phaser) : Mach :=
  { m with phs := if p.members.isEmpty then sdel m.phs key else sset m.phs key p }
def Phaser.member (p : Phaser) (sid : Nat) : Option Member := p.members.find? (fun x => x.sid == sid)
def Phaser.modMember (p : Phaser) (sid : Nat) (f : Member → Member) : Phaser :=
  { p with members := p.members.map (fun x => if x.sid == sid then f x else x) }
def Member.signals (x : Member) : Bool := x.mode != .wo
def Member.waits (x : Member) : Bool := x.mode != .so
/-- Comparison of phases (R296). -/
def phGt (x y : Nat) : Bool :=
  let d := (x + 2 ^ 32 - y % 2 ^ 32) % 2 ^ 32
  1 ≤ d && d ≤ 2 ^ 31

/-- The acknowledgement of a counted signal, or the wait half of a PHSW (R298, R299). -/
def Mach.phAck (m : Mach) (now sid key : Nat) : Mach :=
  let st := m.str sid
  let j := m.job st.job
  match st.hold with
  | .phSend id (.ph kind k cyc d _) =>
    if k != key then m
    else if kind == 1 then
      m.modStr sid (fun s => { s with hold := .phWait d key cyc 1, state := .waitPhaser })
    else
      let t := max (m.jobTick st.job st.sel.lc (cyc + phReply j key)) (now + phSpread j key * m.periodOf sid)
      let m := m.modStr sid (fun s => { s with hold := .phReply none 0 })
      if j.fixed then m.at t .phaserReply [sid, id, 2] else
        (m.draw.2).at (t + Config.delayTicks m.draw.1) .phaserReply [sid, id, 2]
  | _ => m

/-- Advances of a phaser while every signaller has signalled the present phase; a signal that waited at the engine then counts for
the new phase, unless its stream withdrew it (R296, R298). -/
def Mach.phAdvance (m : Mach) (now key : Nat) : Nat → Mach
  | 0 => m
  | fuel + 1 =>
    let p := m.phaser key
    if p.members.any Member.signals && p.members.all (fun x => !x.signals || x.sc != p.ph) then
      let ph := (p.ph + 1) % 2 ^ 32
      let kept : Member → Bool := fun x => match x.ahead with
        | some i => match (m.str i).hold with | .phSend .. => true | _ => false
        | none => false
      let acks := (p.members.filter kept).filterMap (fun x => x.ahead)
      let ms := p.members.map (fun x =>
        if kept x then { x with sc := (x.sc + 1) % 2 ^ 32, ahead := none } else { x with ahead := none })
      let m := m.setPhaser key { p with ph := ph, adv := now, members := ms }
      (acks.foldl (fun m i => m.phAck now i key) m).phAdvance now key fuel
    else m

/-- A signal that counts inside a freeze window is kept (R401). -/
def Mach.phKeep (m : Mach) (issuer : Nat) : Mach :=
  match (m.str issuer).hold with
  | .phSend _ (.ph _ _ cyc _ _) => if (m.job (m.str issuer).job).window then
      m.modStr issuer (fun s => { s with kept := s.kept ++ [(cyc, 0)] }) else m
  | _ => m

/-- A signal reaches the engine for a member, from the stream that is held for it (R298). -/
def Mach.phCount (m : Mach) (now key sid issuer : Nat) : Mach :=
  let p := m.phaser key
  match p.member sid with
  | none => m
  | some x =>
    if x.sc == p.ph then
      (((m.phKeep issuer).setPhaser key (p.modMember sid (fun x => { x with sc := (x.sc + 1) % 2 ^ 32 }))).phAck now issuer key).phAdvance now key 4
    else m.setPhaser key (p.modMember sid (fun x => { x with ahead := some issuer }))

/-- A member leaves: a signaller that has not signalled the phase counts as arrived first (R300). -/
def Mach.phLeave (m : Mach) (now key sid : Nat) : Mach :=
  let p := m.phaser key
  match p.member sid with
  | none => m
  | some x =>
    let m := if x.signals && x.sc == p.ph then
        (m.setPhaser key (p.modMember sid (fun x => { x with sc := (x.sc + 1) % 2 ^ 32 }))).phAdvance now key 4 else m
    let p := m.phaser key
    (m.setPhaser key { p with members := p.members.filter (fun x => x.sid != sid) }).phAdvance now key 4

/-- Every membership of some streams dropped, as a job's end does (R303). -/
def Mach.phLeaveAll (m : Mach) (now : Nat) (sids : List Nat) : Mach :=
  (skeys m.phs).foldl (fun m key => sids.foldl (fun m i => m.phLeave now key i) m) m

/-- A registration in force that a rewind reaches is kept with its phase, as a counted signal is (R401; DEDUCED, log 18). -/
def Mach.phKeepReg (m : Mach) (sid cyc ph : Nat) : Mach :=
  if (m.job (m.str sid).job).window then m.modStr sid (fun s => { s with kept := s.kept ++ [(cyc, wd ph)] }) else m

/-- A request to the engine whose reply comes at issue + R − 1, later in elastic mode (R297, R300). A kept registration is answered
with its phase and performs no more. -/
def Mach.phRequest (m : Mach) (now key req mode d target : Nat) : Res :=
  let (id, m) := m.newId
  let cyc := m.ccyc now
  let (m, req, target) := match (if req == 0 then m.cs.kept.find? (fun k => k.1 == cyc) else none) with
    | some k => (m.modStr m.cur (fun s => { s with kept := s.kept.filter (fun x => x.1 != cyc) }), 3, k.2.toNat)
    | none => (m, req, target)
  let t := m.jobTick m.cs.job m.clc (cyc + phReply m.cj key - 1)
  let m := m.charge 2
  let m := if m.cj.fixed then m.at t .phaserReply [m.cur, id, req, key, mode, d, target]
    else (m.draw.2).at (t + Config.delayTicks m.draw.1) .phaserReply [m.cur, id, req, key, mode, d, target]
  .hold m (.phSend id (.ph 3 key cyc (BitVec.ofNat 5 d) target))

/-- PHREG.mode (R297). -/
def execPhreg (md : PhMode) (d a : R) (s : State) : Ans :=
  onWord (fun now m => match m.phName (m.rs a) with
    | none => Res.err m .illegalField
    | some key => m.phRequest now key 0 md.code d.toNat m.cur) s
/-- PHDROP (R300). -/
def execPhdrop (a : R) (s : State) : Ans :=
  onWord (fun now m => match m.phName (m.rs a) with
    | none => Res.err m .illegalField
    | some key => m.phRequest now key 1 0 0 m.cur) s
/-- The member a ranger's proxy word names: a stream of the FTC's record, by selector (R300, R301, R416). -/
def Mach.proxy (m : Mach) (d b : R) : Except Flt Nat :=
  match m.ftc (m.rs b) ftcPatch with
  | none => .error { code := .capFault }
  | some h => match selOf (m.rs d) with
    | none => .error { code := .illegalField }
    | some sel => match m.findSel (m.frec h).job sel with
      | none => .error { code := .illegalField }
      | some i => .ok i
/-- The proxy form of PHDROP (R300). -/
def execPhdropProxy (d a b : R) (s : State) : Ans :=
  onWord (fun now m => match m.proxy d b with
    | .error f => .flt m f
    | .ok i => match m.phName (m.rs a) with
      | none => Res.err m .illegalField
      | some key => m.phRequest now key 1 0 0 i) s

/-- A signal's checks and its release half (R298). -/
def Mach.phSignal (m : Mach) (now kind : Nat) (d a : R) (ok : Member → Bool) : Res :=
  let cyc := m.ccyc now
  if m.cs.kept.any (fun k => k.1 == cyc) then
    -- counted before the rewind: the word waits for what follows its signal and sends nothing (R401)
    let m := (m.charge 2).modStr m.cur (fun s => { s with kept := s.kept.filter (fun k => k.1 != cyc) })
    match m.phName (m.rs a) with
    | none => Res.err m .illegalField
    | some key =>
      if kind == 1 then .hold (m.modStr m.cur (fun s => { s with state := .waitPhaser })) (.phWait d key cyc 1)
      else .hold (m.at (m.jobTick m.cs.job m.clc (cyc + phReply m.cj key)) .phaserReply [m.cur, 0, 2]) (.phReply none 0)
  else
  match m.phName (m.rs a) with
  | none => Res.err m .illegalField
  | some key => match (m.phaser key).member m.cur with
    | none => Res.err m .illegalField
    | some x => if !ok x then Res.err m .illegalField else match m.redFreeze with
      | some f => .flt m f
      | none => .hold (m.charge 2) (.release (.ph kind key (m.ccyc now) d m.cur) (if phPkg key then 2 else 1) m.seq)

def execPhsig (a : R) (s : State) : Ans := onWord (fun now m => m.phSignal now 0 0 a Member.signals) s
def execPhsw (d a : R) (s : State) : Ans := onWord (fun now m => m.phSignal now 1 d a (fun x => x.mode == .sw)) s

/-- PHWAIT (R299). -/
def execPhwait (d a : R) (s : State) : Ans :=
  onWord (fun now m => match m.phName (m.rs a) with
    | none => Res.err m .illegalField
    | some key => match (m.phaser key).member m.cur with
      | none => Res.err m .illegalField
      | some x => if !x.waits then Res.err m .illegalField else
        .hold ((m.charge 2).modStr m.cur (fun s => { s with state := .waitPhaser })) (.phWait d key (m.ccyc now) 0)) s

/-- PHSIGP (R301): the release half is over the frozen member's entries, whose scope is that member's. -/
def execPhsigp (d a b : R) (s : State) : Ans :=
  onWord (fun now m => match m.proxy d b with
    | .error f => .flt m f
    | .ok i => match m.phName (m.rs a) with
      | none => Res.err m .illegalField
      | some key => match (m.phaser key).member i with
        | none => Res.err m .illegalField
        | some x => if !x.signals then Res.err m .illegalField else
          .hold (m.charge 2) (.release (.ph 2 key (m.ccyc now) 0 i) (if phPkg key then 2 else 1) m.seq)) s

/-- PHQ (R302): Sd is written at issue + R − 1. The phaser is read in the issue cycle (log 21). -/
def execPhq (d a : R) (s : State) : Ans :=
  onWord (fun now m => match m.phName (m.rs a) with
    | none => Res.err m .illegalField
    | some key =>
      let p := m.phaser key
      let w := if !p.members.isEmpty && p.cx != m.cj.cx then 3 * 2 ^ 6 else
        let sg := p.members.filter Member.signals
        let me := p.member m.cur
        p.ph * 2 ^ 32 + sg.length * 2 ^ 24 + (sg.filter (fun x => x.sc != p.ph)).length * 2 ^ 16 + p.members.length * 2 ^ 8
          + (match me with | some x => x.mode.code | none => 3) * 2 ^ 6
          + (match me with | some x => b2n (x.signals && x.sc != p.ph) | none => 0) * 2 ^ 5
      .go ((m.charge 2).pushAt now (m.ccyc now + phReply m.cj key - 1) (.reg d.toNat (wd w)) 0 none (m.cj.lateOf 13))) s

/-- PHASER_SIGNAL_ARRIVAL (R298): a signal reaches the engine and is counted, or waits for the advance. A signal whose stream a
freeze stopped before it counted is withdrawn. -/
def execPhaserSignalArrival (s : State) : Ans :=
  onMach (fun now m =>
    let sid := m.arg 0
    match (m.str sid).hold with
    | .phSend id (.ph _ key _ _ target) => if id == m.arg 1 then m.phCount now key target sid else m
    | _ => m) s

/-- The tick at which a signal on its way reaches a phaser in the present engine cycle of 1.75 GHz (R296). -/
def Mach.signalNear (m : Mach) (now key : Nat) : Option Nat :=
  (m.agenda.find? (fun e => e.2.1 == .phaserSignalArrival && e.1 / Config.fixedPeriod == now / Config.fixedPeriod
    && (match (m.str (e.2.2.headD 0)).hold with
      | .phSend id (.ph _ k _ _ _) => id == e.2.2.getD 1 0 && k == key
      | _ => false))).map (fun e => e.1)

/-- PHASER_REPLY (R297, R298, R300): the engine registers, drops or acknowledges, and the stream goes on. A registration or drop of the
cycle of an advance is applied after it, and so after every signal of the cycle (R296). -/
def execPhaserReply (s : State) : Ans :=
  onMach (fun now m =>
    let sid := m.arg 0
    let st := m.str sid
    if m.arg 2 < 2 && (m.signalNear now (m.arg 3)).isSome then m.at ((m.signalNear now (m.arg 3)).getD now) .phaserReply m.ev
    else if m.arg 2 == 2 then
      match st.hold with
      | .phReply .. => m.replyReg now sid 0 0
      | _ => m
    else match st.hold with
    | .phSend id b =>
      if id != m.arg 1 then m else
      let key := m.arg 3
      if m.arg 2 == 3 then m.replyReg now sid (BitVec.ofNat 5 (m.arg 5)) (wd (m.arg 6))
      else if m.arg 2 == 0 then
        let p := m.phaser key
        let cx := (m.job st.job).cx
        if (p.member sid).isSome || 255 ≤ p.members.length || (!p.members.isEmpty && p.cx != cx) then
          m.replyReg now sid (BitVec.ofNat 5 (m.arg 5)) (BitVec.allOnes 64)
        else
          let x : Member := { sid := sid, mode := (PhMode.ofCode (m.arg 4)).getD .so, sc := p.ph, wc := p.ph }
          let m := m.phKeepReg sid (match b with | .ph _ _ cyc _ _ => cyc | _ => 0) p.ph
          (m.setPhaser key { p with cx := cx, members := p.members ++ [x] }).replyReg now sid (BitVec.ofNat 5 (m.arg 5)) (wd p.ph)
      else (m.phLeave now key (m.arg 6)).replyReg now sid 0 0
    | _ => m) s

/-- When a wait half may complete: PH > WC, R after the issue and D after the advance (R299). -/
def Mach.phWaitDue (m : Mach) (sid : Nat) : Option Nat :=
  let st := m.str sid
  match st.hold with
  | .phWait _ key cyc _ => match (m.phaser key).member sid with
    | none => none
    | some x => if phGt (m.phaser key).ph x.wc then
        let j := m.job st.job
        some (max (m.jobTick st.job st.sel.lc (cyc + phReply j key))
          ((m.phaser key).adv + phSpread j key * (m.pcl (m.pcOf (cxPart j.cx) st.sel.lc)).period))
      else none
  | _ => none

/-- PHWAIT_COMPLETE (R299): Sd gets WC, WC advances, the snapshot refreshes. -/
def execPhwaitComplete (s : State) : Ans :=
  onMach (fun now m =>
    let sid := m.arg 0
    let st := m.str sid
    match st.hold, m.phWaitDue sid with
    | .phWait d key _ sig, some t =>
      if now < t || st.state != .waitPhaser then m else
      match (m.phaser key).member sid with
      | none => m
      | some x =>
        let m := m.setPhaser key ((m.phaser key).modMember sid (fun x => { x with wc := (x.wc + 1) % 2 ^ 32 }))
        let m := m.modStr sid (fun s => { s with state := .running })
        -- the queue may already be past a PHSW that a freeze met (R298)
        let m := if sig == 2 then (m.modStr sid (fun s => { s.wr d.toNat (wd x.wc) with hold := .none, lastIssue := m.jobCyc now s.job s.sel.lc })).mend (.scalar sid d.toNat) (fun _ => true)
          else m.replyReg now sid d (wd x.wc)
        m.refresh sid
    | _, _ => m) s

end Sys2Proof.Machine
end

