-- ==== Sys2Proof/Machine/CopyOps.lean ====
section
/-! DEFINITION. Copies and their promises (R273, R304 to R312, R336, R440): CPY, CPY2D, GEMB, CPYPROM, WAITT, the copy engines, and
the retraining of HBM4E stacks. -/

namespace Sys2Proof.Machine

/-! ### Rows of a copy -/

/-- The pages of a range checked in ascending order; what a page must satisfy is `ok` (R307). -/
def Mach.rangePages (m : Mach) (cx va len : Nat) (nd : Need) (ok : Pg → Bool) : Nat → Except Flt (Mach × Bool)
  | 0 => .ok (m, false)
  | fuel + 1 =>
    if len == 0 then .ok (m, false) else
    match m.xlatCx cx va nd with
    | .error f => .error f
    | .ok (m, p) =>
      if !ok p then .error { code := .pageProt, fva := va, ptea := p.ptea }
      else match (if len ≤ p.room then .ok (m, false) else m.rangePages cx (va + p.room) (len - p.room) nd ok fuel) with
        | .error f => .error f
        | .ok (m, h) => .ok (m, h || p.tgt == 1)

/-- Fuel for the pages of a range. -/
def pageFuel (len : Nat) : Nat := len / 4096 + 2

/-- A number put into a rising list. -/
def insertUp (a : Nat) : List Nat → List Nat
  | [] => [a]
  | b :: t => if a ≤ b then a :: b :: t else b :: insertUp a t
/-- Destination rows, and source rows, in ascending address order (R307). -/
def Copy.dsts (c : Copy) : List Nat := (List.range c.rows).map (fun i => (c.row (c.rowAt i)).1)
def Copy.srcs (c : Copy) : List Nat :=
  match c.idx with
  | none => (List.range c.rows).filterMap (fun i => (c.row (if c.sp < 0 then c.rows - 1 - i else i)).2)
  | some l => ((l.filter (· != 0xFFFFFFFF)).foldr insertUp []).map (fun x => (c.src + x * c.rowb) % 2 ^ 64)

/-- The rows at some addresses checked, page by page, and whether any lies in host memory (R307). -/
def Mach.copyRows (m : Mach) (cx rowb : Nat) (nd : Need) (ok : Pg → Bool) : List Nat → Except Flt (Mach × Bool)
  | [] => .ok (m, false)
  | va :: t => match m.rangePages cx va rowb nd ok (pageFuel rowb) with
    | .error f => .error f
    | .ok (m, h) => match m.copyRows cx rowb nd ok t with
      | .error f => .error f
      | .ok (m, h') => .ok (m, h || h')

/-- Every source row, then every destination row, checked (R307); both ranges in host memory are refused. -/
def Mach.copyCheck (m : Mach) (c : Copy) : Except Flt (Mach × Bool × Bool) :=
  match m.copyRows c.cx c.rowb { rd := true } (fun _ => true) c.srcs with
  | .error f => .error f
  | .ok (m, hs) => match m.copyRows c.cx c.rowb { wr := true } (fun p => p.pub == 0 && !(hs && p.tgt == 1)) c.dsts with
    | .error f => .error f
    | .ok (m, hd) => .ok (m, hs, hd)

/-! ### Engines and promises (R304, R308) -/

/-- Logical BFD holding an address of a context, if one does. -/
def Mach.bfdOf (m : Mach) (cx va : Nat) : Option Nat :=
  match m.xlatCx cx va {} with
  | .error _ => none
  | .ok (_, p) => (homeSram (p.home 0)).orElse (fun _ => homeHbm (p.home 0))

/-- HBM4E stacks a range touches, as (logical BFD, stack). -/
def Mach.stacksOf (m : Mach) (cx : Nat) : Nat → Nat → Nat → List (Nat × Nat)
  | 0, _, _ => []
  | fuel + 1, va, len => match m.xlatCx cx va {} with
    | .error _ => []
    | .ok (m, p) => ((homeHbm (p.home 0)).map (fun l => (l, (p.home 0) % 2 ^ 57 / 2 ^ 36 % 2))).toList
        ++ (if len ≤ p.room then [] else m.stacksOf cx fuel (va + p.room) (len - p.room))

/-- Starts in ns of the scheduled pauses on the stacks a copy touches, ascending (R308, R312). -/
def Mach.pausesOf (m : Mach) (c : Copy) : List Nat :=
  let part := cxPart c.cx
  let st := ((c.dsts ++ c.srcs).flatMap (fun va => m.stacksOf c.cx (pageFuel c.rowb) va c.rowb)).eraseDups
  (st.flatMap (fun (x : Nat × Nat) =>
    ((m.die (dieKey 2 ((m.part part).carrier 2 x.1))).sched.filter (fun q => q.1 == x.2)).map (fun q => q.2))).foldr insertUp []

/-- E of R308: backlog, transfer, the 200 ns allowance, and 3200 ns for each scheduled pause that overlaps. -/
def promiseE (t0 base : Nat) (pauses : List Nat) : Nat :=
  pauses.foldl (fun e p => if p < t0 + e && t0 < p + 3200 then e + 3200 else e) base

/-- Physical die on which an address of a context lies, if it is mapped. -/
def Mach.vaDie (m : Mach) (cx va : Nat) : Option Nat :=
  match m.xlatCx cx va {} with
  | .error _ => none
  | .ok (_, p) => some (m.homeDie (cxPart cx) (p.home 0))
/-- A copy accepted: its engine, its promise, its ticket; the ticket word is the stream's result (R304, R308). -/
def Mach.acceptCopy (m : Mach) (now : Nat) (c : Copy) (hs hd : Bool) : Mach × Word :=
  let t0 := now / Config.tick
  let l := ((m.bfdOf c.cx c.dst).orElse (fun _ => match (c.row 0).2 with | some a => m.bfdOf c.cx a | none => none)).getD 0
  let eng := match c.idx with
    | some _ => cxPart c.cx * 1024 + 512 + c.engine
    | none => cxPart c.cx * 1024 + l * 4 + m.cs.sel.cluster % 4
  let rate := if hs || hd then (if m.hostWidth == 8 then 50 else 100) else 1600
  let work := ceilDiv (c.rows * c.rowb) rate
  let free := max t0 (sget m.engines eng 0)
  let e := promiseE t0 ((free - t0) + work + 200) (m.pausesOf c)
  let t := t0 + max (8 * m.cj.latOf 15) (8 * ceilDiv e 8)
  let (id, m) := m.newId
  let n := m.cs.nextTicket
  let empty := c.packets == 0
  let c := { c with id := id, engine := eng, promise := t, mark := m.seq, complete := empty }
  let m := { m with copies := m.copies ++ [c], engines := sset m.engines eng (free + work) }
  let m := m.modStr m.cur (fun s => { s with
    nextTicket := (n + 1) % 128, tickets := s.tickets.filter (fun k => k.n != n) ++ [{ n := n, copy := id, promise := t }] })
  let m := if !m.cj.window then m else m.modStr m.cur (fun s => { s with
    kept := s.kept ++ [(m.ccyc now, wd (2 ^ 63 + n * 2 ^ 56 + t % 2 ^ 56)), (2 ^ 40 + m.ccyc now, wd id)] })
  -- a packet takes its route at least (R14)
  let way := match m.vaDie c.cx c.dst, (c.row 0).2.bind (m.vaDie c.cx) with | some a, some b => m.routeCy b a | _, _ => 0
  let m := if empty then m else (m.after (now + way * Config.fixedPeriod) 0 .copyPacketWrite [id]).at (t * Config.tick) .promiseDue [id]
  (m, wd (2 ^ 63 + n * 2 ^ 56 + t % 2 ^ 56))

def Mach.copy? (m : Mach) (id : Nat) : Option Copy := m.copies.find? (fun c => c.id == id)
def Mach.modCopy (m : Mach) (id : Nat) (f : Copy → Copy) : Mach :=
  { m with copies := m.copies.map (fun (c : Copy) => if c.id == id then f c else c) }
/-- The copy of a ticket of a stream. -/
def Mach.ticketCopy (m : Mach) (sid n : Nat) : Option (Ticket × Copy) :=
  match (m.str sid).tickets.find? (fun t => t.n == n) with
  | none => none
  | some t => (m.copy? t.copy).map (fun c => (t, c))

/-- A copy instruction after its own field checks: its ticket free, its pages checked, then accepted. -/
def Mach.startCopy (m : Mach) (now : Nat) (d : R) (c : Copy) : Res :=
  let cyc := m.ccyc now
  match m.cs.kept.find? (fun k => k.1 == cyc), m.cs.kept.find? (fun k => k.1 == 2 ^ 40 + cyc) with
  | some w, some i =>
    -- accepted before the rewind: the ticket stands and nothing is sent (R401)
    .go ((m.modStr m.cur (fun s => { s with
      kept := s.kept.filter (fun k => k.1 != cyc && k.1 != 2 ^ 40 + cyc), nextTicket := (fld w.2.toNat 56 7 + 1) % 128,
      tickets := s.tickets.filter (fun k => k.n != fld w.2.toNat 56 7)
        ++ [{ n := fld w.2.toNat 56 7, copy := i.2.toNat, promise := w.2.toNat % 2 ^ 56 }] })).pushReg now 0 d w.2)
  | _, _ =>
  match m.ticketCopy m.cur m.cs.nextTicket with
  | some (_, k) => if !k.complete then .hold m (.ticket m.cs.nextTicket) else go m
  | none => go m
where
  go (m : Mach) : Res :=
    match (if c.rowb == 0 then .ok (m, false, false) else m.copyCheck c) with
    | .error f => .flt m f
    | .ok (m, hs, hd) =>
      let (m, w) := m.acceptCopy now c hs hd
      .go (m.pushReg now 0 d w)

/-- Whether two ranges overlap. -/
def rangesMeet (a b n : Nat) : Bool := a < b + n && b < a + n

/-- CPY (R304). -/
def execCpy (d a b : R) (s : State) : Ans :=
  onWord (fun now m =>
    let n := (m.rs d).toNat
    let dst := (m.rs a).toNat
    let src := (m.rs b).toNat
    if 2 ^ 40 < n || (0 < n && rangesMeet dst src n) then Res.err m .illegalField
    else m.startCopy now d { id := 0, sid := m.cur, job := m.cs.job, cc := m.ccc, cx := m.cj.cx, dst := dst, src := src, rows := 1,
                             rowb := n, dp := 0, sp := 0 }) s

/-- The eight words of a 64-byte-aligned descriptor's page (R305, R306). -/
def Mach.descWords (m : Mach) (p : Pg) : List Nat := wordsOf (m.readPg m.cur .plain p 64)

/-- A copy instruction reads its descriptor as raw scalar loads and goes on from its words (R305, R306): at once, when those in host memory
have come (R279), or once the streams of the cluster whose local store holds it have started (R55). -/
def Mach.withDescriptor (m : Mach) (now : Nat) (gemb : Bool) (d : R) (ea : Nat) (k : Mach → List Nat → Res) : Res :=
  match m.scalarPage ea 64 { rd := true } false with
  | .error f => .flt m f
  | .ok (m, p) => match m.unstarted m.cs.job (p.home 0) with
    | some lc => .hold m (.start lc)
    | none =>
      if m.pgBad p 64 then .flt m { code := .ecc, fva := ea, bad := m.badHome p 64 }
      else if p.tgt == 1 then .hold (m.awaitHost now) (.desc gemb (m.descWords p) d)
      else k (m.softPg p 64) (m.descWords p)

/-- Whether any destination row overlaps any source row (R305): each destination row is compared with the source rows nearest it. -/
def rowsMeet (dst src : Nat) (dp sp : Int) (rows rowb : Nat) : Bool :=
  (List.range rows).any (fun i =>
    let d := (dst : Int) + dp * i
    let near : List Int := if sp == 0 then [0] else
      let q := (d - src) / sp
      [q - 1, q, q + 1, q + 2, ((d - src - rowb) / sp), ((d - src + rowb) / sp), 0, (rows : Int) - 1]
    near.any (fun j => 0 ≤ j && j < rows && ((src : Int) + sp * j - d).natAbs < rowb))

/-- CPY2D's copy from its descriptor. -/
def Mach.cpy2dCopy (m : Mach) (now : Nat) (d : R) (w : List Nat) : Res :=
  let dst := w.getD 0 0
  let src := w.getD 1 0
  let rows := fld (w.getD 2 0) 32 32
  let rowb := fld (w.getD 2 0) 0 32
  let dp := sInt 64 (w.getD 3 0)
  let sp := sInt 64 (w.getD 4 0)
  if w.getD 5 0 != 0 || w.getD 6 0 != 0 || w.getD 7 0 != 0 || rows == 0 || rowb == 0 || (1 < rows && dp.natAbs < rowb)
      || 2 ^ 40 < rows * rowb || rowsMeet dst src dp sp rows rowb then Res.err m .illegalField
  else m.startCopy now d { id := 0, sid := m.cur, job := m.cs.job, cc := m.ccc, cx := m.cj.cx, dst := dst, src := src,
                           rows := rows, rowb := rowb, dp := dp, sp := sp }
/-- CPY2D (R305). -/
def execCpy2d (d a : R) (s : State) : Ans :=
  onWord (fun now m => m.withDescriptor now false d (m.rs a).toNat (fun m w => m.cpy2dCopy now d w)) s

/-- The index list of a GEMB, read whole (R306). -/
def Mach.indexList (m : Mach) (idx : Nat) : Nat → Nat → Except Flt (Mach × List Nat)
  | 0, _ => .ok (m, [])
  | fuel + 1, i => match m.scalarPage (idx + 4 * i) 4 { rd := true } true with
    | .error f => .error f
    | .ok (m, p) =>
      if m.pgBad p 4 then .error { code := .ecc, fva := idx + 4 * i, bad := m.badHome p 4 } else
      let x := leNat (m.readPg m.cur .home p 4)
      let m := m.softPg p 4
      match m.indexList idx fuel (i + 1) with
      | .error f => .error f
      | .ok (m, l) => .ok (m, x :: l)

/-- GEMB's copy from its descriptor: its gather engine is that of the logical GTD it names. -/
def Mach.gembCopy (m : Mach) (now : Nat) (d : R) (w : List Nat) : Res :=
  let idx := w.getD 1 0
  let nrows := fld (w.getD 3 0) 32 32
  let count := fld (w.getD 3 0) 0 32
  let dp := fld (w.getD 4 0) 32 32
  let rowb := fld (w.getD 4 0) 0 32
  if w.getD 5 0 % 2 ^ 61 != 0 || w.getD 6 0 != 0 || w.getD 7 0 != 0 || idx % 4 != 0 || nrows == 0 || count == 0 || 65536 < count
      || rowb == 0 || 65536 < rowb || dp < rowb || (m.part m.cpart).lcount 3 ≤ fld (w.getD 5 0) 61 3 then Res.err m .illegalField
  else match m.indexList idx count 0 with
    | .error f => .flt m f
    | .ok (m, l) =>
      if l.any (fun x => x != 0xFFFFFFFF && nrows ≤ x) then Res.err m .illegalField
      else m.startCopy now d { id := 0, sid := m.cur, job := m.cs.job, cc := m.ccc, cx := m.cj.cx, dst := w.getD 2 0,
                               src := w.getD 0 0, rows := count, rowb := rowb, dp := dp, sp := 0, idx := some l,
                               engine := fld (w.getD 5 0) 61 3 }
/-- GEMB (R306). -/
def execGemb (d a : R) (s : State) : Ans :=
  onWord (fun now m =>
    if (m.part m.cpart).lcount 3 == 0 then Res.err m .unitAbsent
    else m.withDescriptor now true d (m.rs a).toNat (fun m w => m.gembCopy now d w)) s

/-! ### The engines (R273, R307, R440) -/

/-- The next copy of an engine after one is over. -/
def Mach.engineNext (m : Mach) (now eng : Nat) : Mach :=
  match m.copies.find? (fun c => c.engine == eng && !c.complete && !c.failed) with
  | some c => m.after now 0 .copyPacketWrite [c.id]
  | none => m

/-- Whether an HBM4E stack of a home is in a retraining pause (R312). -/
def Mach.homePaused (m : Mach) (part home : Nat) : Bool :=
  match homeHbm home with
  | none => false
  | some l => (m.die (dieKey 2 ((m.part part).carrier 2 l))).paused.contains (home % 2 ^ 57 / 2 ^ 36 % 2)

/-- COPY_PACKET_WRITE: the engine reads one packet whole and writes it at its destination homes, lowest byte first. It waits while
the issuing stream still holds entries of the source, while a stack it needs pauses, and while a cluster whose local store it needs has not started; a beat of the same bank cycle from a lower port goes first (R251). -/
def execCopyPacketWrite (s : State) : Ans :=
  onMach (fun now m => match m.copy? (m.arg 0) with
    | none => m
    | some c =>
      if c.complete || c.failed then m
      else if m.copies.any (fun o => o.engine == c.engine && !o.complete && !o.failed && o.id < c.id) then m
      else
        let (d, sv, n) := c.packet
        let part := cxPart c.cx
        let fail := fun (m : Mach) => (m.modCopy c.id (fun c => { c with failed := true })).engineNext now c.engine
        let wait := fun (m : Mach) => (m.draw.2).at (now + 1 + Config.delayTicks m.draw.1) .copyPacketWrite [c.id]
        let src : Option (List (Nat × Bool)) := match sv with
          | none => some []
          | some a => m.copyHomes c.cx a n { rd := true }
        match src, m.copyHomes c.cx d n { wr := true } with
        | some hs, some hd =>
          let older := (m.str c.sid).sb.any (fun e => e.seq < c.mark
            && hs.any (fun h => e.line ≤ swz e.span h.1 && swz e.span h.1 < e.line + 64))
          if older || (hs ++ hd).any (fun h => m.homePaused part h.1) || (hs ++ hd).any (fun h => (m.unstarted c.job h.1).isSome) then wait m
          else match m.portFirst now part (m.enginePort part c.engine (hd.headD (0, false)).1) (hd.map (fun h => h.1)) with
          | some t => m.at t .copyPacketWrite [c.id]
          | none =>
            let ws := (hd.map (fun h => (h.1, 0, 255)))
            if hs.any (fun h => badIn m.homes h.1 1)
                || (eccTouched ws).any (fun w => m.homes.bad.contains w && !eccWhole ws w) then fail (m.eccLog c.sid
                (((hs.map (fun h => h.1)).find? (fun h => badIn m.homes h 1)).getD
                  (16 * (((eccTouched ws).find? (fun w => m.homes.bad.contains w && !eccWhole ws w)).getD 0))))
            else
              let bs := if sv.isNone then List.replicate n (0 : Byte) else hs.map (fun h => homeByte m.homes h.1)
              let h := (hd.zip bs).foldl (fun (h : Homes) x => homeSet h x.1.1 x.2) m.homes
              let h := { h with bad := h.bad.filter (fun w => !(eccTouched ws).contains w) }
              let m := m.soft c.cx (hs.map (fun h => h.1))
              let m := (({ m with homes := h } : Mach).touched c.cx (hd.map (fun h => h.1))).chargeAt c.cc 13 1
              let m := m.chargeRegion c.cx (m.job c.job).rcb (1000 * (m.ctx c.cx).weight 13)
              let m := m.modCopy c.id (fun c => { c with pos := c.pos + 1 })
              if c.pos + 1 == c.packets then m.after now 0 .copyComplete [c.id] else m.after now 0 .copyPacketWrite [c.id]
        | _, _ => fail m) s

/-- COPY_COMPLETE: the copy is over; a WAITT past its sleep that waits for it completes and refreshes (R309). -/
def execCopyComplete (s : State) : Ans :=
  onMach (fun now m => match m.copy? (m.arg 0) with
    | none => m
    | some c =>
      let m := (m.modCopy c.id (fun c => { c with complete := true })).engineNext now c.engine
      match (m.str c.sid).hold with
      | .sleep ns (some n) =>
        if (m.str c.sid).state != .frozen && ns * Config.tick ≤ now
            && (m.ticketCopy c.sid n).map (fun t => t.2.id) == some c.id then (m.replyReg now c.sid 0 0).refresh c.sid
        else m
      | _ => m) s

/-- A promise marked missed (R310). -/
def Mach.markMissed (m : Mach) (sid copy : Nat) : Mach :=
  m.modStr sid (fun s => { s with tickets := s.tickets.map (fun (t : Ticket) => if t.copy == copy then { t with missed := true } else t) })
/-- A failed copy reported once at a word of its stream (R440). -/
def Mach.clearFailed (m : Mach) (copy : Nat) : Mach :=
  m.modCopy copy (fun c => { c with failed := false, complete := true })

/-- What WAITT finds when its sleep is over (R309, R310, R440). -/
def Mach.waittTake (m : Mach) (now n : Nat) : Res :=
  match m.ticketCopy m.cur n with
  | none => .go (m.refresh m.cur)
  | some (t, c) =>
    if c.failed then Res.err (m.clearFailed c.id) .ecc
    else if c.complete then .go (m.refresh m.cur)
    else if t.promise * Config.tick ≤ now && !t.missed then Res.err (m.markMissed m.cur c.id) .promiseMissed
    else .hold m (.sleep 0 (some n))

/-- WAITT (R309): package time, or a ticket word. -/
def execWaitt (a : R) (s : State) : Ans :=
  onWord (fun now m =>
    let v := (m.rs a).toNat
    let t := now / Config.tick
    let m := m.charge 0
    if bitOf v 63 then
      let n := fld v 56 7
      let want := fld v 0 56
      if want ≤ t % 2 ^ 56 then m.waittTake now n
      else
        let ns := t - t % 2 ^ 56 + want
        .hold (m.at (ns * Config.tick) .waittWake [m.cur]) (.sleep ns (some n))
    else if v ≤ t then .go m
    else .hold (m.at (v * Config.tick) .waittWake [m.cur]) (.sleep v none)) s

/-- WAITT_WAKE: the sleep time is reached. -/
def execWaittWake (s : State) : Ans :=
  onMach (fun now m =>
    let sid := m.arg 0
    let st := m.str sid
    match st.hold with
    | .sleep ns tk =>
      if st.state == .frozen || now < ns * Config.tick then m else
      let m := { m with cur := sid }
      match tk with
      | none => (Res.go m).finish now
      | some n => (m.waittTake now n).finish now
    | _ => m) s

/-- PROMISE_DUE (R310): the promise falls due with the copy incomplete, and a WAITT that waits on it faults. -/
def execPromiseDue (s : State) : Ans :=
  onMach (fun now m => match m.copy? (m.arg 0) with
    | none => m
    | some c =>
      match (m.str c.sid).hold with
      | .sleep ns (some n) =>
        if (m.str c.sid).state != .frozen && ns * Config.tick ≤ now
            && (m.ticketCopy c.sid n).map (fun t => t.2.id) == some c.id then
          (({ m with cur := c.sid } : Mach).waittTake now n).finish now
        else m
      | _ => m) s

/-- CPYPROM (R311). -/
def execCpyprom (d a : R) (s : State) : Ans :=
  onWord (fun now m =>
    let v := (m.rs a).toNat
    if !bitOf v 63 then Res.err m .illegalField else
    match m.ticketCopy m.cur (fld v 56 7) with
    | none => .go ((m.charge 0).pushReg now 0 d (wd (3 * 2 ^ 62)))
    | some (t, c) =>
      if c.failed then Res.err (m.clearFailed c.id) .ecc else
      let late := !c.complete && t.promise * Config.tick ≤ now
      let st := if c.complete then 1 else if late then 2 else 0
      let m := if late then m.markMissed m.cur c.id else m
      .go ((m.charge 0).pushReg now 0 d (wd (st * 2 ^ 62 + t.promise % 2 ^ 56)))) s

/-! ### Retraining (R308, R312) -/

/-- RETRAINING_SCHEDULE: a BFD schedules a frequency change of a stack; less than 20 µs ahead it counts as unscheduled. -/
def execRetrainingSchedule (s : State) : Ans :=
  onMach (fun now m =>
    let die := m.arg 0
    let stack := m.arg 1
    let start := m.arg 2
    let m := if now / Config.tick + 20000 ≤ start then m.modDie die (fun d => { d with sched := d.sched ++ [(stack, start)] }) else m
    m.at (max now (start * Config.tick)) .retrainingPauseStart [die, stack]) s

/-- RETRAINING_PAUSE_START: the stack pauses for 3.2 µs. -/
def execRetrainingPauseStart (s : State) : Ans :=
  onMach (fun now m =>
    (m.modDie (m.arg 0) (fun d => { d with paused := d.paused ++ [m.arg 1] })).at (now + 3200 * Config.tick)
      .retrainingPauseEnd [m.arg 0, m.arg 1]) s

/-- RETRAINING_PAUSE_END: held micro-orders and packets proceed. -/
def execRetrainingPauseEnd (s : State) : Ans :=
  onMach (fun now m => m.modDie (m.arg 0) (fun d => { d with
    paused := d.paused.filter (· != m.arg 1)
    sched := d.sched.filter (fun q => q.1 != m.arg 1 || now / Config.tick < q.2 + 3200) })) s

/-- TRAINING_ERROR: an unscheduled pause begins; it changes no promise already given. -/
def execTrainingError (s : State) : Ans :=
  onMach (fun now m => m.at now .retrainingPauseStart [m.arg 0, m.arg 1]) s

/-- HOST_LINK_RETRAIN (R308): the host link trains to another width, which later promises use. -/
def execHostLinkRetrain (s : State) : Ans :=
  onMach (fun _ m => { m with hostWidth := if m.arg 0 == 8 then 8 else 16 }) s

end Sys2Proof.Machine
end

