-- ==== Sys2Proof/Machine/Branch.lean ====
section
/-! DEFINITION. Branches and jumps (R321 to R326). -/

namespace Sys2Proof.Machine

/-- Null forms of a branch (R85, R325): when its slots are annulled. -/
def annuls (null : Nat) (taken : Bool) : Bool := (null == 1 && !taken) || (null == 2 && taken)

/-- BR.cc in its three null forms (R325): the target counts from the branch's own word. -/
def branchOp (null : Nat) (cc : Cond) (a b : R) (off : BitVec 11) (s : State) : Ans :=
  onWord (fun _ m =>
    let taken := cc.holds (m.rs a) (m.rs b)
    let target := jumpTarget m.cs.fq0.waddr off.toInt
    .br (m.charge 0) (if taken then some target else none) (annuls null taken)) s

def execBrCc (cc : Cond) (a b : R) (off : BitVec 11) (s : State) : Ans := branchOp 0 cc a b off s
def execBrCcNn (cc : Cond) (a b : R) (off : BitVec 11) (s : State) : Ans := branchOp 1 cc a b off s
def execBrCcNt (cc : Cond) (a b : R) (off : BitVec 11) (s : State) : Ans := branchOp 2 cc a b off s

/-- Own byte address + 12: the third word after the jump in line (R326). -/
def Mach.link (m : Mach) : Word := wd (4 * m.cs.fq0.waddr + 12)

def execJ (off : BitVec 25) (s : State) : Ans :=
  onWord (fun _ m => .br (m.charge 0) (some (jumpTarget m.cs.fq0.waddr off.toInt)) false) s
/-- JL links in S31 (R326). -/
def execJl (off : BitVec 25) (s : State) : Ans :=
  onWord (fun now m =>
    .br ((m.charge 0).pushReg now 0 31 m.link) (some (jumpTarget m.cs.fq0.waddr off.toInt)) false) s
/-- JR: the target is Sa / 4; a misaligned address neither redirects nor links (R326). -/
def execJr (a : R) (s : State) : Ans :=
  onWord (fun _ m =>
    let v := (m.rs a).toNat
    if v % 4 != 0 then Res.err m .align v else .br (m.charge 0) (some (v / 4 % 2 ^ 24)) false) s
def execJlr (d a : R) (s : State) : Ans :=
  onWord (fun now m =>
    let v := (m.rs a).toNat
    if v % 4 != 0 then Res.err m .align v
    else .br ((m.charge 0).pushReg now 0 d m.link) (some (v / 4 % 2 ^ 24)) false) s

end Sys2Proof.Machine
end

