-- ==== Sys2Proof/Machine/Dict.lean ====
section
/-! DEFINITION. The decode dictionary (R109 to R126): entries and their check, expansion, and DLD, DSW, DFENCE, DRD, DINV. -/

namespace Sys2Proof.Machine

/-- Whether a cluster of a die kind hosts a class (R109). -/
def hosts (kind : Nat) (k : Cls) : Bool :=
  match k with
  | .scalar => true | .matrix => kind == 0 | .vector => kind == 1 | .ldst => kind == 2 | .gather => kind == 3 | .strip => kind == 4

/-- Key of an entry: class, bank, index. -/
def dictKey (k : Cls) (bank e : Nat) : Nat := k.code * 1024 + bank * 256 + e

/-- Holes of a hole map in order, up to the first absent one: (position, width) (R110). -/
def holesOf (map : Nat) : List (Nat × Nat) :=
  let h := [fld map 0 10, fld map 10 10, fld map 20 10]
  (h.takeWhile (fun x => x != 0x3FF)).map (fun x => (x / 16, x % 16 + 1))

/-- Hole bits available to a class (R111). -/
def availOf (k : Cls) : Nat := if k == .scalar then 23 else 19

/-- The check made as an entry is stored (R112): whether a valid source entry stays valid. -/
def entryOk (k : Cls) (map tail : Nat) : Bool :=
  let h := [fld map 0 10, fld map 10 10, fld map 20 10]
  let hs := holesOf map
  let absentThenReal := (h.dropWhile (fun x => x != 0x3FF)).any (fun x => x != 0x3FF)
  let fits := hs.all (fun x => x.1 + x.2 ≤ 56)
  let apart := (List.range hs.length).all (fun i => (List.range i).all (fun j =>
    let x := hs.getD i (0, 0)
    let y := hs.getD j (0, 0)
    x.1 + x.2 ≤ y.1 || y.1 + y.2 ≤ x.1))
  fits && apart && !absentThenReal && (hs.map (·.2)).sum ≤ availOf k && tail == 0

/-- A 16-byte source entry as it is stored: 96 bits, and whether it lost its VALID (R112, R114). -/
def entryOf (k : Cls) (src : Nat) : Nat × Bool :=
  let e := src % 2 ^ 96
  let map := e / 2 ^ 64
  if bitOf map 31 && !entryOk k map (src / 2 ^ 96) then (e - 2 ^ 95, true) else (e, false)

/-- An entry of a context's bank on a cluster; an unwritten one is invalid (R109). -/
def Cctx.entry (c : Cctx) (k : Cls) (bank e : Nat) : Nat := sget c.dict (dictKey k bank e) 0
/-- An entry stored: its bank counts as written since the launch (R126; DESIGN CHOICE, log 91). -/
def Cctx.setEntry (c : Cctx) (k : Cls) (bank e v : Nat) : Cctx :=
  let bk := k.code * 4 + bank
  { c with dict := sset c.dict (dictKey k bank e) v,
           dictWritten := if c.dictWritten.contains bk then c.dictWritten else c.dictWritten ++ [bk] }

/-- Expansion of a word against an entry: the long form, and whether a hole bit is left over (R111). -/
def expand (k : Cls) (entry word : Nat) : Nat × Bool :=
  let r := (holesOf (entry / 2 ^ 64)).foldl (fun (a : Nat × Nat) h =>
    let (form, used) := a
    (form - fld form h.1 h.2 * 2 ^ h.1 + fld word used h.2 * 2 ^ h.1, used + h.2)) (entry % 2 ^ 64, 0)
  (r.1, fld word r.2 (availOf k - r.2) != 0 && r.2 < availOf k)

/-- A dictionary word as a number: bit 31, the entry's number, the bits for its holes (R101). -/
def dictNumber (e : BitVec 8) (h : BitVec 23) : Nat := 2 ^ 31 + e.toNat * 2 ^ 23 + h.toNat

/-- Whether an entry is valid, and reserved to rangers (R110). -/
def entryValid (e : Nat) : Bool := bitOf e 95
def entryPriv (e : Nat) : Bool := bitOf e 94

/-- A range operand: first entry and count (R116). -/
def rangeOf (v : Word) : Nat × Nat := (fld v.toNat 0 8, fld v.toNat 8 8 + 1)

/-- Whether an engine stream of a class on the cluster uses a bank and is not quiescent (R124). -/
def Mach.bankBusy (m : Mach) (k : Cls) (bank : Nat) : Bool :=
  k != .scalar && m.streams.any (fun p => p.2.sel.lc == m.clc && p.2.sel.cls == k && (m.job p.2.job).cx == m.cj.cx
    && p.2.dbank == bank
    && !(p.2.state == .idle || p.2.state == .stopped || p.2.state == .done || p.2.state == .frozen))

/-- Whether a DSW of a class finds a stream of it that is not at rest (R119). -/
def Mach.classBusy (m : Mach) (k : Cls) : Bool :=
  k != .scalar && (m.streamsOn m.cs.job m.clc).any (fun i =>
    (m.str i).sel.cls == k && (let t := (m.str i).state; !(t == .idle || t == .stopped || t == .done)))
/-- Whether a dictionary word of opcode 0x1C, by its fn and modifier, raises DICT_BUSY, which comes ahead of any fault of its fields
(R100). -/
def Mach.dictBusyAt (m : Mach) (sub md : Nat) : Bool :=
  match Cls.ofCode (md / 4) with
  | none => false
  | some k => if sub == 0 || sub == 4 then m.bankBusy k (md % 4) else sub == 1 && m.classBusy k

/-- Whether a queued word of a stream is bound to a bank. -/
def Stream.binds (s : Stream) (bank : Nat) : Bool := s.fq0.bank == bank || s.fq1.bank == bank || s.fq2.bank == bank
/-- Scalar queues of the context on the cluster with a word bound to a written bank are fetched again as DFENCE does, each word under its
binding: the next word issues 3 cycles later, whatever R117 says of a DLD's successor (R120, R123; DESIGN CHOICE, log 88). A frozen queue executes nothing until its resume (R125). -/
def Mach.rebind (m : Mach) (k : Cls) (bank : Nat) : Mach :=
  if k != .scalar then m else
  ((m.streams.filter (fun p => p.2.sel.cls == .scalar && p.2.sel.lc == m.clc && (m.job p.2.job).cx == m.cj.cx && p.2.binds bank
      && !(p.2.state == .frozen || p.2.state == .idle || p.2.state == .done))).map (·.1)).foldl (fun m i =>
    (m.refetch i false).modStr i (fun s => { s with lastIssue := s.lastIssue + 3 })) m

/-- The next entry of a DLD on its way: checked, and due in its cycle or when the host's data comes (R117). -/
def Mach.dldNext (m : Mach) (now : Nat) (first : Bool) (k : Cls) (bank next left bad va : Nat) (d : R) : Res :=
  match m.xlat m.cur va { rd := true, ex := true } with
  | .error f => .flt m f
  | .ok (m, p) =>
    if p.tgt == 0 then .flt m { code := .pageProt, fva := va, ptea := p.ptea }
    else if m.pgBad p 16 then .flt m { code := .ecc, fva := va, bad := m.badHome p 16 }
    else match m.unstarted m.cs.job (p.home 0) with
    | some lc => .hold m (.start lc)
    | none =>
      let m := m.softPg p 16
      if p.tgt == 1 then .hold (m.awaitHost now) (.dld k bank next left bad va true d)
      else
        let cyc := if first then m.loadDue now (p.home 0) + 1 else m.ccyc now + 1
        .hold (m.at (m.jobTick m.cs.job m.clc cyc) .dldEntryArrival [m.cur]) (.dld k bank next left bad va false d)

/-- DLD (R117). -/
def execDld (k : Cls) (bank : BitVec 2) (d a b : R) (s : State) : Ans :=
  onWord (fun now m =>
    let (first, n) := rangeOf (m.rs b)
    let va := (m.rs a).toNat
    if m.bankBusy k bank.toNat then Res.err m .dictBusy
    else if !hosts m.cs.sel.kind k || 256 < first + n then Res.err m .illegalField
    else if va % 16 != 0 then Res.err m .align va
    else m.dldNext now true k bank.toNat first n 0 va d) s

/-- DLD_ENTRY_ARRIVAL (R117): an entry's data arrives and is stored; after the last, Sd gets the count of entries that lost VALID
and queued words bound to the bank are fetched again (R123). -/
def execDldEntryArrival (s : State) : Ans :=
  onMach (fun now m =>
    let sid := m.arg 0
    match (m.str sid).hold with
    | .dld k bank next left bad va false d =>
      if (m.str sid).state == .frozen then m else
      let m := { m with cur := sid }
      match m.xlat sid va { rd := true, ex := true } with
      | .error f => m.takeFreeze now sid f
      | .ok (m, p) =>
        let (e, lost) := entryOf k (leNat (m.readPg sid .plain p 16))
        let m := (m.modCct m.ccc (fun c => c.setEntry k bank next e)).charge 3
        let bad := bad + b2n lost
        if left ≤ 1 then (m.replyReg now sid d (wd bad)).rebind k bank
        else (m.dldNext now false k bank (next + 1) (left - 1) bad (va + 16) d).finish now
    | _ => m) s

/-- DINV (R118). -/
def execDinv (k : Cls) (bank : BitVec 2) (a : R) (s : State) : Ans :=
  onWord (fun now m =>
    let (first, n) := rangeOf (m.rs a)
    let bk := bank.toNat
    if m.bankBusy k bk then Res.err m .dictBusy
    else if !hosts m.cs.sel.kind k || 256 < first + n then Res.err m .illegalField
    else
      let m := (m.charge 3).modCct m.ccc (fun c => (List.range n).foldl (fun c i =>
        let e := c.entry k bk (first + i)
        c.setEntry k bk (first + i) (if entryValid e then e - 2 ^ 95 else e)) c)
      .moved ((m.retire now).rebind k bk)) s

/-- DSW (R119): the scalar bank applies from the word fetched after this one executes. -/
def execDsw (k : Cls) (bank : BitVec 2) (s : State) : Ans :=
  onWord (fun now m =>
    if !hosts m.cs.sel.kind k then Res.err m .illegalField
    else if k == .scalar then
      .moved (((m.charge 3).retire now).modStr m.cur (fun s => { s with dbank := bank.toNat }))
    else if m.classBusy k then Res.err m .dictBusy
    else .go ((m.charge 3).modStreams ((m.streamsOn m.cs.job m.clc).filter (fun i => (m.str i).sel.cls == k))
      (fun s => { s with dbank := bank.toNat }))) s

/-- DFENCE (R120): the queued words are fetched again under the present bank, and the next word issues three cycles later. -/
def execDfence (s : State) : Ans :=
  onWord (fun now m =>
    if m.cs.slots != 0 then Res.err m .illegalOp
    else
      let m := ((m.charge 3).retire now).refetch m.cur true
      .moved (m.modStr m.cur (fun s => { s with lastIssue := s.lastIssue + 3 }))) s

/-- What DRD writes (R121): the expansion, or 0 where the word or the entry has no meaning. -/
def Cctx.drd (c : Cctx) (k : Cls) (bank : Nat) (word : Nat) : Word :=
  let e := c.entry k bank (fld word 23 8)
  if bitOf word 31 && entryValid e then wd (expand k e word).1 else 0

/-- DRD (R121): the issuing context's copy, or with a capability the copy on the primary stream's cluster of its record, as it stands when
the word issues (DESIGN CHOICE: the spec says only that the stream is held until Sd is written; log 92). -/
def execDrd (k : Cls) (bank : BitVec 2) (d a b : R) (s : State) : Ans :=
  onWord (fun now m =>
    let w := (m.rs a).toNat % 2 ^ 32
    if b == 0 then
      if !hosts m.cs.sel.kind k then Res.err m .illegalField
      else .go ((m.charge 3).pushReg now 1 d ((m.cct m.ccc).drd k bank.toNat w))
    else match m.ftc (m.rs b) ftcInspect with
      | none => Res.err m .capFault
      | some h =>
        let r := m.frec h
        if !hosts r.sel.kind k then Res.err m .illegalField
        else
          let v := (m.cct (ccKey r.cx r.sel.lc)).drd k bank.toNat w
          .hold ((m.charge 3).after now (2000 * Config.tick) .frozenStateReply [m.cur]) (.frozen (some d) v 0 h)) s

end Sys2Proof.Machine
end

