-- ==== Sys2Proof/Machine/Launch.lean ====
section
/-! DEFINITION. Launches, jobs and their ends: reading RCBs and images (R32, R33, R102, R104, R114, R327, R328), the dispatcher's
checks (R21, R330), priming and starting (R47 to R50, R452), predicted paths (R51 to R53), rendezvous, halts and kills (R39, R342,
R423), and deadlines (R36). -/

namespace Sys2Proof.Machine

/-! ### Reading by the command complex -/

/-- `n` bytes of a context's space as the complex or a priming die reads them, or the fault: an absent or unreadable page, a broken
address, an uncorrectable word (R32, R115, R330, R345). -/
def Mach.readVa (m : Mach) (cx : Nat) : Nat → Nat → Nat → Except Flt (Mach × List Byte)
  | _, _, 0 => .ok (m, [])
  | 0, va, _ => .error { code := .pageAbsent, fva := va }
  | fuel + 1, va, n =>
    match m.xlatCx cx va { rd := true } with
    | .error f => .error f
    | .ok (m, p) =>
      let k := min p.room n
      if m.pgBad p k then .error { code := .ecc, fva := va, bad := m.badHome p k } else
      let m := m.soft cx ((List.range k).map p.home)
      match m.readVa cx fuel (va + k) (n - k) with
      | .error f => .error f
      | .ok (m, r) => .ok (m, (List.range k).map (fun i => homeByte m.homes (p.home i)) ++ r)

/-- `n` words of a context's space. -/
def Mach.readWordsF (m : Mach) (cx va n : Nat) : Except Flt (Mach × List Nat) :=
  (m.readVa cx (n + 1) va (8 * n)).map (fun (m, bs) => (m, wordsOf bs))
/-- The same, or none where they cannot be read. -/
def Mach.readWords (m : Mach) (cx va n : Nat) : Option (Mach × List Nat) := (m.readWordsF cx va n).toOption

/-! ### Regions (R31 to R37) -/

def Rcb.w (r : Rcb) (i : Nat) : Nat := r.words.getD i 0
def Rcb.ovr (r : Rcb) (i : Nat) : Bool := bitOf (r.w 0) (48 + i)
def Mach.rcbOf (m : Mach) (cx va : Nat) : Rcb := sget (m.ctx cx).rcbs va {}
def Mach.modRcb (m : Mach) (cx va : Nat) (f : Rcb → Rcb) : Mach :=
  m.modCtx cx (fun c => { c with rcbs := c.rcbs.map (fun (p : Nat × Rcb) => if p.1 == va then (p.1, f p.2) else p) })
/-- A region and its ancestors, as the complex holds them. -/
def Mach.chain (m : Mach) (cx : Nat) : Nat → Nat → List Nat
  | 0, _ => []
  | fuel + 1, va => va :: (let p := (m.rcbOf cx va).w 1; if p == 0 then [] else m.chain cx fuel p)
/-- The nearest ancestor-or-self that overrides an item: 0 budget, 1 priority, 2 fault domain, 3 energy cap, 4 deadline (R33). -/
def Mach.effRcb (m : Mach) (cx va item : Nat) : Option Nat := (m.chain cx 8 va).find? (fun v => (m.rcbOf cx v).ovr item)
def Mach.effPrio (m : Mach) (cx va : Nat) : Nat :=
  match m.effRcb cx va 1 with | some v => fld ((m.rcbOf cx v).w 0) 44 4 | none => 0
def Mach.effFdom (m : Mach) (cx va : Nat) : Nat :=
  match m.effRcb cx va 2 with | some v => fld ((m.rcbOf cx v).w 0) 32 12 | none => 0
def Mach.effDeadline (m : Mach) (cx va : Nat) : Option Nat :=
  (m.effRcb cx va 4).map (fun v => (m.rcbOf cx v).w 5 % 2 ^ 48)

/-- The checks of R32 on one record, with its address. -/
def rcbOk (cx va : Nat) (w : List Nat) : Bool :=
  let w0 := w.getD 0 0
  let par := w.getD 1 0
  let o := fun (i : Nat) => bitOf w0 (48 + i)
  bitOf w0 63 && va % 64 == 0 && par % 64 == 0 && (par != 0 || (fld w0 60 3 == 0 && o 0 && o 1 && o 2))
    && fld w0 56 4 == 0 && fld w0 53 3 == 0 && fld w0 25 7 == 0 && fld w0 0 16 == 0
    && (!o 0 || (1 ≤ fld w0 16 9 && fld w0 16 9 ≤ 256)) && (!o 3 || w.getD 4 0 != 0) && (!o 4 || w.getD 5 0 != 0)
    && w.getD 4 0 < 2 ^ 48 && w.getD 5 0 < 2 ^ 48 && w.getD 6 0 / 4 == 0 && fld (w.getD 7 0) 0 58 == 0
    && w.getD 7 0 / 2 ^ 58 == cx % 64

/-- An RCB and its ancestors validated (R32): each with its words, or none for REFUSED_RCB. -/
def Mach.validRcb (m : Mach) (cx : Nat) : Nat → Nat → Option (Mach × List (Nat × List Nat))
  | 0, _ => none
  | fuel + 1, va =>
    if va % 64 != 0 then none else
    match m.readWords cx va 8 with
    | none => none
    | some (m, w) =>
      if !rcbOk cx va w then none
      else if w.getD 1 0 == 0 then some (m, [(va, w)])
      else match m.validRcb cx fuel (w.getD 1 0) with
        | none => none
        | some (m, l) =>
          if fld (w.getD 0 0) 60 3 == fld ((l.headD (0, [])).2.getD 0 0) 60 3 + 1 then some (m, (va, w) :: l) else none

/-- Whether a bind record or a live launch of a context names an RCB, itself or by a descendant (R32, R37). -/
def Mach.rcbNamed (m : Mach) (cx va : Nat) : Bool :=
  ((m.jobs.filter (fun j => j.2.cx == cx && j.2.phase != .ended)).map (fun j => j.2.rcb)
    ++ m.dies.flatMap (fun d => (d.2.binds.filter (fun b => b.2.part == cxPart cx && b.2.ctx == cx % 64)).map (fun b => b.2.rcb))).any
    (fun v => (m.chain cx 8 v).contains va)

/-- RCBs cached as a bind record or a launch names them; one that another names already stays in force, and of one that nothing named
the complex held no copy (R37). -/
def Mach.cacheRcbs (m : Mach) (cx : Nat) (l : List (Nat × List Nat)) : Mach :=
  m.modCtx cx (fun c => { c with rcbs := l.foldl (fun (r : SMap Rcb) p =>
    match sget? r p.1 with
    | some old => if m.rcbNamed cx p.1 then r else sset r p.1 { old with words := p.2, next := none }
    | none => sset r p.1 { words := p.2 }) c.rcbs })

/-- A bind record in the first free entry of a die's slot table (R47, R348). Which records firmware makes is the model's choice
(log 13): every cluster, no reserved slot, the root region. -/
def Die.bindRoot (d : Die) (part ctx rcb kind : Nat) : Die :=
  match (List.range 64).find? (fun e => (sget? d.binds e).isNone) with
  | none => d
  | some e => { d with binds := sset d.binds e { part := part, ctx := ctx, resv := 0, clmask := 2 ^ Config.clusterCount kind - 1, rcb := rcb } }
/-- Dies of kinds MXD to SWD that a partition owns (R15, R17). -/
def Mach.ownedDies (m : Mach) (part : Nat) : List Nat :=
  (List.range 5).flatMap (fun k => ((List.range 8).filter (fun i => bitOf ((m.part part).own.getD k 0) i)).map (dieKey k))
/-- The bind records of a context on its partition's dies, made once its root RCB is valid (R32, log 13): at its creation, or else at
its first launch that finds the root valid. -/
def Mach.bindContext (m : Mach) (cx : Nat) : Mach :=
  let part := cxPart cx
  let root := (m.ctx cx).rcb
  if (m.ownedDies part).any (fun dk => (m.die dk).binds.any (fun b => b.2.part == part && b.2.ctx == cx % 64)) then m else
  match m.validRcb cx 8 root with
  | none => m
  | some (m, l) => ((m.ownedDies part).foldl (fun m dk => m.modDie dk (fun d => d.bindRoot part (cx % 64) root (dk / 8))) m).cacheRcbs cx l

/-- The device's fields of an RCB, word 6, written in memory (R31). -/
def Mach.writeWord6 (m : Mach) (cx va : Nat) : Mach :=
  let r := m.rcbOf cx va
  match m.xlatCx cx (va + 48) {} with
  | .error _ => m
  | .ok (m, p) => { m with homes := (List.range 8).foldl (fun (h : Homes) i =>
      homeSet h (p.home i) (if i == 0 then BitVec.ofNat 8 (b2n r.dlmiss * 2 + b2n r.held) else 0)) m.homes }

/-- Whether a holder's allowance of slots or of energy is spent in the present period (R34, R351). -/
def Rcb.spent (r : Rcb) : Bool :=
  (r.ovr 0 && (r.debt != 0 || fld (r.w 0) 16 9 ≤ r.slots)) || (r.ovr 3 && 16000 * (r.w 4 % 2 ^ 48) ≤ r.energy)
/-- HELD of every cached region brought up to date (R34), in the cache and in memory. -/
def Mach.updateHeld (m : Mach) (cx : Nat) : Mach :=
  (skeys (m.ctx cx).rcbs).foldl (fun m va =>
    let h := (m.chain cx 8 va).any (fun v => (m.rcbOf cx v).spent)
    if h == (m.rcbOf cx va).held then m else (m.modRcb cx va (fun r => { r with held := h })).writeWord6 cx va) m

/-! ### The image and its checks (R102, R104, R114, R115, R327, R328) -/

/-- A share descriptor, or none where it breaks a limit of R328 or names a strip that is not `own` (R40). -/
def shareOf (decl : Nat → Nat) (own : Nat → Nat → Bool) (w : List Nat) : Option Share :=
  let w0 := w.getD 0 0
  let w1 := w.getD 1 0
  let w2 := w.getD 2 0
  let kind := fld w0 61 3
  let ldie := fld w0 57 4
  let cl := fld w0 53 4
  let unit := fld w0 49 4
  let col := fld w0 42 3
  let tokens := (List.range 32).map (fun f => fld (w.getD (4 + f / 8) 0) (8 * (f % 8)) 8)
  match Cls.ofCode (fld w0 45 4) with
  | none => none
  | some k =>
    let units := match k with | .scalar | .gather => 1 | .matrix => 2 | .vector => 4 | .ldst => 8 | .strip => 16
    if kind ≤ 4 && hosts kind k && ldie < decl kind && cl < Config.clusterCount kind && unit < units
        && (k != .strip || own ldie unit) && (if k == .vector then col ≤ 4 else col == 0) && fld w0 0 42 == 0 && fld w1 24 8 == 0 && fld w1 32 32 % 64 == 0
        && fld w2 44 20 == 0 && fld w2 16 8 == 0 && (k == .scalar || fld w2 24 20 == 0)
        && (k == .scalar || k == .ldst || fld w2 0 16 == 0) && w.getD 3 0 == 0 then
      some { sel := { kind := kind, ldie := ldie, cluster := cl, cls := k, col := col, unit := unit }, tbase := fld w1 32 32,
             tlen := fld w1 0 24, wheel := fld w2 24 20, phases := fld w2 0 16, tokens := tokens }
    else none

/-- Whether two descriptors agree: different streams, and no FIFO of one cluster with two different counts (R328). -/
def sharesAgree (a b : Share) : Bool :=
  a.sel != b.sel && (a.sel.lc != b.sel.lc || (List.range 32).all (fun f =>
    let x := a.tokens.getD f 0
    let y := b.tokens.getD f 0
    x == 0 || y == 0 || x == y))
/-- Every pair of a list. -/
def pairwise {α : Type} (f : α → α → Bool) : List α → Bool
  | [] => true
  | a :: t => t.all (f a) && pairwise f t

/-- Whether two streams own a common wheel position or slot phase (R265, R270). -/
def slotsMeet (a b : Share) : Bool :=
  (a.phases &&& b.phases) != 0 || (a.sel.cls == .scalar && b.sel.cls == .scalar
    && (List.range 1024).any (fun p => wheelOf a.wheel p && wheelOf b.wheel p))
where
  wheelOf (w p : Nat) : Bool := (p + 1024 - fld w 10 10) % 1024 % 2 ^ fld w 6 4 < fld w 0 6
/-- Limits of WHEEL (R265). -/
def wheelOk (w : Nat) : Bool := fld w 6 4 ≤ 10 && fld w 0 6 ≤ 2 ^ fld w 6 4

/-- Header limits (R102, R104). -/
def headerOk (w : List Nat) : Bool :=
  let w0 := w.getD 0 0
  let fixed := bitOf w0 0
  let cnt := fun (k : Nat) => fld (w.getD 1 0) (8 * k + 4) 4
  let car := fun (k : Nat) => fld (w.getD 1 0) (8 * k) 4
  let lat := fun (c : Nat) => if c < 10 then fld (w.getD 2 0) (6 * c) 6 else fld (w.getD 3 0) (6 * (c - 10)) 6
  fld w0 32 32 == 0x5A484B31 && fld w0 16 16 == 1 && fld w0 1 15 == 0 && fld (w.getD 1 0) 40 24 == 0
    && fld (w.getD 2 0) 60 4 == 0 && fld (w.getD 3 0) 36 28 == 0 && fld (w.getD 6 0) 32 32 == 0 && w.getD 7 0 == 0
    && (List.range 5).all (fun k => cnt k ≤ 8 &&
        (if cnt k == 0 || k == 2 || k == 4 || !fixed then car k == 0 else 1 ≤ car k && car k ≤ cnt k))
    && (List.range 16).all (fun c => (if c == 9 then true else if c == 14 then lat c == 32 else if c == 15 then 15 ≤ lat c
        else 1 ≤ lat c) && (!fixed || 13 < c || Config.nativeLat c ≤ lat c))

/-- The records of a dictionary image: (class, bank, first, source entries); or a memory fault, or none where the image is malformed
(R114, R115). -/
def Mach.dictRecords (m : Mach) (cx image len : Nat) : Nat → Nat → Except (Option Flt) (Mach × List (Cls × Nat × Nat × List Nat))
  | 0, _ => .error none
  | fuel + 1, off =>
    if len < off + 16 then .error none else
    match m.readWordsF cx (image + off) 2 with
    | .error f => .error (some f)
    | .ok (m, d) =>
      let w := d.getD 0 0
      let first := fld w 8 8
      let n := fld w 0 8 + 1
      match Cls.ofCode (fld w 18 3) with
      | none => .error none
      | some k =>
        if d.getD 1 0 != 0 || fld w 21 42 != 0 || 256 < first + n || len < off + 16 + 16 * n then .error none else
        match m.readWordsF cx (image + off + 16) (2 * n) with
        | .error f => .error (some f)
        | .ok (m, e) =>
          let es := (List.range n).map (fun i => e.getD (2 * i) 0 + 2 ^ 64 * e.getD (2 * i + 1) 0)
          let r := (k, fld w 16 2, first, es)
          if bitOf w 63 then .ok (m, [r]) else
          match m.dictRecords cx image len fuel (off + 16 + 16 * n) with
          | .error e => .error e
          | .ok (m, l) => .ok (m, r :: l)

/-- The complex's look at a dictionary image: malformed, or not as far as it can be read; a memory fault is left for priming (R115). -/
def Mach.dictOk (m : Mach) (cx image len dict : Nat) : Bool :=
  dict == 0 || (match m.dictRecords cx image len (len / 16 + 1) dict with
    | .error none => false
    | _ => true)

/-- The share descriptors of a segment, one after another. -/
def Mach.readShares (m : Mach) (cx : Nat) (decl : Nat → Nat) (own : Nat → Nat → Bool) : Nat → Nat → Except Nat (Mach × List Share)
  | 0, _ => .ok (m, [])
  | n + 1, va =>
    match m.readWords cx va 8 with
    | none => .error 0x127
    | some (m, w) => match shareOf decl own w with
      | none => .error 0x123
      | some s => match m.readShares cx decl own n (va + 64) with
        | .error e => .error e
        | .ok (m, l) => .ok (m, s :: l)

/-- The share descriptors of a segment by way of its directory entry; a segment number beyond the directory has none (R327). -/
def Mach.segShares (m : Mach) (cx : Nat) (decl : Nat → Nat) (own : Nat → Nat → Bool) (image : Nat) (entry : Option Nat) :
    Except Nat (Mach × List Share) :=
  match entry with
  | none => .ok (m, [])
  | some e =>
    let n := fld e 32 32
    let off := fld e 0 32
    if n == 0 || 4096 < n || off % 64 != 0 then .error 0x123 else m.readShares cx decl own n (image + off)

/-- The dispatcher's checks on a launch (R330), in the order of its table: the job it describes, or the status. `q` is the queue's
CTXID for a host packet. -/
def Mach.checkLaunch (m : Mach) (cx : Nat) (w : List Nat) (host : Bool) : Except Nat (Mach × Job) :=
  let part := cxPart cx
  let p := m.part part
  let c := m.ctx cx
  let image := w.getD 0 0
  let w2 := w.getD 2 0
  if (sget? m.ctxs cx).isNone || c.going then .error 0x125
  else if host && w.getD 7 0 / 2 ^ 58 != cx % 64 then .error 0x129
  else if image % 64 != 0 then .error 0x127
  else match m.readWords cx image 8 with
  | none => .error 0x127
  | some (m, h) =>
    let dir := image + h.getD 4 0
    -- the whole directory is read before anything in it or in the header is judged
    match (m.readWords cx dir 1).bind (fun (m, d0) =>
      let n := min (fld (d0.getD 0 0) 0 16) 4096
      (m.readWords cx (dir + 8) n).map (fun (m, e) => (m, d0 ++ e))) with
    | none => .error 0x127
    | some (m, d0) =>
      let nseg := fld (d0.getD 0 0) 0 16
      let seg := fld w2 52 12
      let fixed := bitOf (h.getD 0 0) 0
      let decl := fun (k : Nat) => fld (h.getD 1 0) (8 * k + 4) 4
      let car := fun (k : Nat) => fld (h.getD 1 0) (8 * k) 4
      if !headerOk h || d0.getD 0 0 / 2 ^ 16 != 0 || nseg == 0 || 4096 < nseg || 16 < fld w2 47 5 || fld w2 44 3 != 0
          || fld w2 0 32 != 0 || (host && fld (w.getD 7 0) 0 58 != 0) then .error 0x123
      else if !m.dictOk cx image (h.getD 6 0) (h.getD 5 0) then .error 0x123
      else
        match m.segShares cx decl p.ownsStrip image (if nseg ≤ seg then none else d0[1 + seg]?) with
        | .error e => .error e
        | .ok (m, shares) =>
          if !pairwise sharesAgree shares then .error 0x123
          else if nseg ≤ seg then .error 0x126
          else if fixed != c.fixed then .error 0x121
          else match (List.range 5).findSome? (fun k =>
              if decl k != p.lcount k then some (0x110 + k)
              else if (fixed && (k == 0 || k == 1 || k == 3) && car k != p.pcount k)
                || (p.nofold.contains k && p.pcount k < decl k) then some (0x118 + k) else none) with
          | some e => .error e
          | none => match m.validRcb cx 8 (w.getD 1 0) with
            | none => .error 0x120
            | some (m, l) =>
              let m := m.bindContext cx
              let bound := shares.all (fun s =>
                (m.die (dieKey s.sel.kind (p.carrier s.sel.kind s.sel.ldie))).binds.any (fun b =>
                  b.2.part == part && b.2.ctx == cx % 64 && bitOf b.2.clmask s.sel.cluster))
              if !bound then .error 0x122
              else if !shares.all (fun s => wheelOk s.wheel) || !pairwise (fun a b => !slotsMeet a b) shares then .error 0x124
              else if 65536 ≤ (m.jobs.filter (fun j => j.2.cx == cx && j.2.phase != .ended)).length then .error 0x128
              else
                let m := m.cacheRcbs cx l
                .ok (m, { cx := cx, image := image, rcb := w.getD 1 0, prime := fld w2 47 5, dbank := fld w2 32 12,
                          args := (List.range 4).map (fun i => wd (w.getD (3 + i) 0)),
                          lat := (List.range 16).map (fun c => if c < 10 then fld (h.getD 2 0) (6 * c) 6
                            else fld (h.getD 3 0) (6 * (c - 10)) 6),
                          fixed := fixed, shares := shares, dictimg := h.getD 5 0,
                          imglen := h.getD 6 0 })

/-! ### Which clusters a job primes, and when (R22, R30, R48, R370) -/

/-- The lowest carried number of a job on a physical die that has a share, if the die carries several of them (R22). -/
def Job.carried (j : Job) (p : Part) (kind phys : Nat) : List Nat :=
  (List.range 16).filter (fun l => j.shares.any (fun s => s.sel.kind == kind && s.sel.ldie == l) && p.carrier kind l == phys)

/-- Every job still waiting to prime tries its clusters again, and every die with records waiting its seats. -/
def Mach.retryWaiting (m : Mach) (now : Nat) : Mach :=
  let m := m.dies.foldl (fun m d => match d.2.queue with
    | h :: _ => m.at now .rangerSpawn [d.1, (m.frec h).core]
    | [] => m) m
  m.jobs.foldl (fun m j => if j.2.phase == .waiting || j.2.phase == .priming || j.2.phase == .running then
    j.2.toPrime.foldl (fun m lc => m.after now 0 .diePrime [j.1, lc]) m else m) m

/-- A launch accepted: the lowest free JOBID, and the announcement to its dies, which prime later than the cycle of acceptance (R38,
R47, R334). -/
def Mach.accept (m : Mach) (now : Nat) (j : Job) (src : Source) (q : Nat) : Mach × Nat :=
  let used := (m.jobs.filter (fun k => k.2.cx == j.cx && k.2.live)).map (fun k => k.2.jobid)
  let jobid := ((List.range 65536).find? (fun i => !used.contains i)).getD 0
  let (id, m) := m.newId
  let p := m.part (cxPart j.cx)
  let share := j.lcs.foldl (fun (a : SMap Nat) lc =>
    let k := lcKind lc
    let l := j.carried p k (p.carrier k (lcDie lc))
    if 2 ≤ l.length then sset a (dieKey k (p.carrier k (lcDie lc))) (l.headD 0) else a) []
  let j := { j with jobid := jobid, source := src, queue := q, share := share }
  let j := { j with toPrime := j.lcs.filter (j.shareRuns p) }
  let m := m.setJob id j
  (j.toPrime.foldl (fun m lc => m.after (now + Config.fixedPeriod) 0 .diePrime [id, lc]) m, jobid)

/-- Whether a cluster may take a job's share now: no share of another job of its context stands on the same physical cluster (R30), no
self-test runs there (R370), it is not retired, its arrays are good for a matrix share (R441), and for a fixed-timing job it is not hot
(R369). -/
def Mach.clusterFree (m : Mach) (job lc : Nat) : Bool :=
  let j := m.job job
  let pc := m.pcl (m.pcOf (cxPart j.cx) lc)
  !pc.testing && !pc.retired && !(pc.arrayRetired && j.shares.any (fun s => s.sel.cls == .matrix && s.sel.lc == lc)) && !(j.fixed && (pc.hot || m.withheld.contains (8 + cxPart j.cx)))
    && !m.jobs.any (fun k => k.1 != job && k.2.cx == j.cx && k.2.live && k.2.phase != .waiting
        && k.2.lcs.any (fun l => m.pcOf (cxPart j.cx) l == m.pcOf (cxPart j.cx) lc))
/-- Whether a job may begin priming: every cluster of its first shares may take it (R30, R48; log 81). -/
def Mach.jobFree (m : Mach) (job : Nat) : Bool := (m.job job).toPrime.all (m.clusterFree job)

/-- Whether a context has a usable hamper area (R432). -/
def Mach.hamperOk (m : Mach) (cx : Nat) : Bool :=
  let p := m.part (cxPart cx)
  match (m.ctx cx).hamper with
  | none => false
  | some (_, len) => 2 ^ 25 * ((List.range 5).map (fun k => p.lcount k * Config.clusterCount k)).sum ≤ len

/-! ### Residency, boundaries that must be over, swaps (R275, R324, R362, R429) -/

/-- The present occupant's residency up to now put down, and a new occupant counted from now (R362, R450). -/
def PClu.occupy (c : PClu) (now : Nat) (cx : Option Nat) : PClu :=
  let ns := (now - c.occFrom) / Config.tick
  let occ := match c.active with | some a => if c.occOn && 0 < ns then c.occ ++ [(a, ns)] else c.occ | none => c.occ
  { c with occ := occ, occFrom := now, occOn := cx.isSome, active := cx }

/-- The streams of a context on a physical cluster. -/
def Mach.streamsAt (m : Mach) (cx pc : Nat) : List Nat :=
  (m.streams.filter (fun s => (m.job s.2.job).cx == cx && m.pcOf (cxPart cx) s.2.sel.lc == pc && !s.2.isRanger)).map (·.1)

/-- Entries of some streams performed now, oldest first, as a boundary that must be over requires (R258, R275); one that waits for the start
of the cluster it writes to, or for an older entry that does, stays (R55). -/
def Mach.drainNow (m : Mach) (now : Nat) (ids : List Nat) : Mach :=
  ids.foldl (fun m i => (m.str i).sb.foldl (fun m e =>
    let s := m.str i
    if (m.unstarted s.job e.line).isSome || s.sb.any (fun o => o.seq < e.seq && o.overlaps e)
      || !s.released (cxPart (m.job s.job).cx) e then m
    else m.performEntry now i e) m) m

/-- Whether a held word awaits a reply, and is abandoned when its stream stops (R324). -/
def Hold.awaitsReply : Hold → Bool
  | .atomic _ | .host .. | .desc .. | .dld .. | .gset .. | .complexReq .. | .phSend .. | .phReply .. | .pubreg .. => true
  | _ => false
/-- Streams that stop between words, as a swap stops them (R324). -/
def Mach.stopWords (m : Mach) (now : Nat) (ids : List Nat) : Mach :=
  ids.foldl (fun m i => if (m.str i).state != .frozen && (m.str i).hold.awaitsReply then m.abandon now i else m) m

/-- A thermos swap ordered: the outgoing context stops between words and is saved (R275, R324), occupancy changes now, and the exchange
ends after 128 cycles. -/
def Mach.thermosSwap (m : Mach) (now pc : Nat) : Mach :=
  let c := m.pcl pc
  let m := match c.active with
    | some a => (m.stopWords now (m.streamsAt a pc)).drainNow now (m.streamsAt a pc)
    | none => m
  let first := if now ≤ c.tickOf (c.cycle now) then c.cycle now else c.cycle now + 1
  let m := m.modPcl pc (fun c => { c.occupy now c.bank with bank := c.active, swapping := true })
  m.at (max now ((m.pcl pc).tickOf (first + 128))) .thermosSwapEnd [pc]

/-- A context placed on a cluster: it stands there already, or takes a free bank after a restore; with both banks taken, firmware
spills the context of the thermos bank (R431). True when it stands there. -/
def Mach.reside (m : Mach) (now cx lc job : Nat) : Mach × Bool :=
  let pc := m.pcOf (cxPart cx) lc
  let p := m.pcl pc
  if p.active == some cx || p.bank == some cx then (m, true)
  else if p.bank.isNone then (m.after now 0 .restoreComplete [pc, cx, lc, job], false)
  else if p.active.isNone then (if p.swapping || p.relock then m else m.thermosSwap now pc, false)
  else match p.bank with
    | some v => if m.hamperOk v && !m.streams.any (fun s => (m.job s.2.job).cx == v && s.2.sel.lc == lc
          && (m.job s.2.job).fixed && (m.job s.2.job).phase == .running)
        then (m.after now 0 .spill [pc, v, lc], false) else (m, false)
    | none => (m, false)

/-! ### Priming (R48, R50, R63, R66, R67, R115, R452) -/

/-- A stream of a share, PRIMED: its fetch buffer or queue filled, its wheel and phases as the descriptor gives them. One that a freeze
during priming left at its start position is the stream of its share, with the registers that it has been given (R50). -/
def Mach.primeStream (m : Mach) (job : Nat) (s : Share) : Mach :=
  let (id, m) := match m.findSel job s.sel with
    | some i => (i, m)
    | none =>
      let (id, m) := m.newId
      (id, m.setStr id ((m.job job).shareStream job s))
  let m := m.modStr id (fun t => { t with snap := m.homes })
  if s.sel.cls == .scalar then m.startQueue id else m.fillBuffer id 0

/-- Control registers that take their Reset value at job start: MMODE and VMODE, the address bases AB, MB, GA and LB, the strides and the
strip modes (R184, R185, R216, R218, R243, R313, R316). -/
def jobCreg (n : Nat) : Bool :=
  n == 0x90 || n == 0x91 || (0xA0 ≤ n && n < 0xF4) || (0x100 ≤ n && n < 0x120) || (0x130 ≤ n && n < 0x140)
    || (0x1A0 ≤ n && n < 0x1B0) || (0x200 ≤ n && n < 0x280)
/-- The arithmetic status registers (R165). -/
def astatCreg (n : Nat) : Bool := n == 0x60 || (0x64 ≤ n && n < 0x7A) || (0x158 ≤ n && n < 0x160)
/-- Job-start values of a cluster's registers, masks, tiles, accumulators and control registers: the flags of an ASTAT are cleared, its
TRAPEN stands (R62, R63, R66, R67, R165). Banks stay as they are (R109), and none has been written since the launch (R126; DESIGN CHOICE where
the two rules meet: log 91). -/
def Cctx.jobStart (c : Cctx) : Cctx :=
  { c with vregs := [], cols := [], masks := [], tiles := [], acc := [], twin := [], cores := [], gslots := [], dictWritten := [], lastAccept := none
           cregs := (c.cregs.filter (fun p => !jobCreg p.1)).map (fun (p : Nat × Word) =>
             if astatCreg p.1 then (p.1, p.2 &&& wd (bits 13 8)) else p) }

/-- The job registers JARG0 to JARG3 and JSELF, written at priming (R337). -/
def Cctx.jobRegs (c : Cctx) (j : Job) : Cctx :=
  { c with cregs := (List.range 4).foldl (fun (r : SMap Word) i => sset r (0x50 + i) (j.args.getD i 0)) (sset c.cregs 0x54 (wd j.jobid)) }

/-- The token FIFOs of a job on a cluster set to their launch counts (R44, R48). -/
def Cctx.launchTokens (c : Cctx) (job : Nat) (ss : List Share) : Cctx :=
  (List.range 32).foldl (fun c f =>
    let n := ss.foldl (fun a s => max a (s.tokens.getD f 0)) 0
    { c with fifos := sset c.fifos f { count := n, owner := some job, credit := n } }) c

/-- Whether every load stream of a primed cluster has issued its prime depth and its data has landed (R48). -/
def Mach.clusterPrimed (m : Mach) (job lc : Nat) : Bool :=
  let j := m.job job
  !(m.streamsOn job lc).isEmpty && !j.toPrime.contains lc && !j.dictDue.contains lc
    && !m.pend.any (fun p => p.job == job && p.lc == lc && (match p.eff with | .land _ _ => false | _ => true))
    && (m.streamsOn job lc).all (fun i => let s := m.str i
        s.sel.cls != .ldst || 4 ≤ s.sel.unit || s.primed == j.prime || s.len ≤ s.step)

/-! ### Starting (R43, R49, R54, R421) -/

/-- The clock of a cluster aligned for a mode: 1.75 GHz phase-locked to the package reference, or the elastic clock (R355, R356). -/
def PClu.setMode (c : PClu) (now : Nat) (fixed : Bool) : PClu :=
  let per := if fixed then Config.fixedPeriod else if c.low then Config.lowPeriod else Config.elasticPeriod
  if c.period == per then c
  else
    let edge := if fixed then ceilDiv now Config.fixedPeriod * Config.fixedPeriod else now
    { c with cycBase := c.cycle now, tickBase := edge, stretchFrom := edge, period := per }

/-- Packets that priming brought for a local store whose streams had not started perform as they start (R48, R55). -/
def Mach.landHeld (m : Mach) (now job lc : Nat) : Mach :=
  m.pend.foldl (fun m p => match p.eff with
    | .land es _ =>
      if p.job == job && es.any (fun e => homeLc e.line == some lc) && p.due ≤ m.jobCyc now job p.lc then
        es.foldl (fun m e =>
          let (i, m) := m.newId
          m.performEntry now p.sid { e with seq := i }) { m with pend := m.pend.filter (fun q => q.id != p.id) }
      else m
    | _ => m) m

/-- All streams of a job on one cluster start in one cycle: the start refresh, the clock at job cycle 0 (R49, R258, R402). -/
def Mach.startCluster (m : Mach) (now job lc : Nat) : Mach :=
  let m := m.landHeld now job lc
  let m := m.runClk now job lc
  let c := m.jobCyc now job lc
  (m.streamsOn job lc).foldl (fun m i =>
    if (m.str i).state == .primed then
      m.modStr i (fun s => { s with state := .running, lastIssue := c, fresh := true, snap := m.homes })
    else m) m

/-- JOB_START (R49): an elastic cluster starts as soon as it is primed; every cluster of a fixed-timing job at T, unless its region
is HELD then: it does not start, and another T follows (R351). -/
def execJobStart (s : State) : Ans :=
  onMach (fun now m =>
    let job := m.arg 0
    let lc := m.arg 1
    let j := m.job job
    if !(j.phase == .priming || j.phase == .primed || j.phase == .running) then m
    else if lc == 2048 && (m.rcbOf j.cx j.rcb).held then m else
    let first := j.phase != .running
    let m := (if lc == 2048 then j.lcs.filter (j.shareRuns (m.part (cxPart j.cx))) else [lc]).foldl (fun m l =>
      let m := if j.fixed then m.modPcl (m.pcOf (cxPart j.cx) l) (fun c => c.setMode now true) else m
      m.startCluster now job l) m
    let m := m.modJob job (fun j => { j with phase := .running })
    if !first then m else
    let m := match j.source with
      | .basket i => m.modPart (cxPart j.cx) (fun p => { p with basket := smod p.basket i { words := [] } (fun b => { b with jobid := j.jobid }) })
      | _ => m
    match m.effDeadline j.cx j.rcb with
    | some ns => (m.modJob job (fun j => { j with deadline := some (now + ns * Config.tick) })).at (now + ns * Config.tick)
        .deadlineMiss [job]
    | none => m) s

/-- DEADLINE_MISS (R36): DLMISS is set and a deadline event is posted on the job's queue. A rendezvous at exactly the start plus DEADLINE comes
after this event and is counted as a miss (DESIGN CHOICE: the spec does not say on which side that instant lies; log 104). -/
def execDeadlineMiss (s : State) : Ans :=
  onMach (fun now m =>
    let job := m.arg 0
    let j := m.job job
    if j.deadline != some now || !j.live then m else
    let m := (m.modRcb j.cx j.rcb (fun r => { r with dlmiss := true })).writeWord6 j.cx j.rcb
    let pidx := match j.source with | .host p => p | _ => 0
    m.at now .completionRecordWrite [cxPart j.cx, j.queue, 1, 0, j.jobid, pidx, now / Config.tick]) s

/-! ### Predicted paths (R51 to R53, R233) -/

/-- A batch's owned twins committed or given back, and the batch FREE (R233). -/
def Cctx.endBatch (c : Cctx) (core b : Nat) (keep : Bool) : Cctx :=
  let mc := sget c.cores core {}
  let bt := sget mc.batches b {}
  let c := bt.twins.foldl (fun (c : Cctx) i =>
    let k := core * 4 + i
    if keep then { c with acc := sset c.acc k (sget c.twin k []) } else { c with twin := sset c.twin k (sget c.acc k []) }) c
  { c with cores := sset c.cores core { mc with batches := sdel mc.batches b } }

/-- Drafts written under a tag take back the values they held when the path opened (R53). -/
def Mach.restoreDrafts (m : Mach) (job t : Nat) : Mach :=
  let g := sget (m.job job).tags t {}
  g.saved.foldl (fun m q =>
    let was := (((g.base.find? (fun x => x.1 == q.1)).map (·.2)).bind (fun d => sget? d q.2)).getD (homeByte g.homes q.2)
    m.modRegion (m.job job).cx q.1 (fun r => r.draftSet m.homes q.2 was)) m

/-- A tag of a job discarded at its end: drafts, store-buffer entries under the tag, held signals and open batches (R53). -/
def Mach.discardTag (m : Mach) (job t : Nat) : Mach :=
  let m := m.restoreDrafts job t
  let ids := m.streamsOf job
  let m := m.modStreams ids (fun s => { s with sb := s.sb.filter (fun e => e.tag != some t) })
  let m := { m with pend := m.pend.filter (fun p => !(p.job == job && p.spec == some t)) }
  m.modJob job (fun j => { j with tags := j.tags.filter (fun (g : Nat × Tag) => !(if g.1 < 16 then g.1 == t else g.1 % 4 == t)) })

/-! ### The end of a job (R39, R233, R303, R342, R423) -/

/-- Batches of a job's cores resolved at its end: open ones and, at a kill, all are discarded; an ordinary closed batch still
commits at its cc (R233, R238). -/
def Cctx.endBatches (c : Cctx) (kill : Bool) : Cctx :=
  (skeys c.cores).foldl (fun c core =>
    (skeys (sget c.cores core {}).batches).foldl (fun c b =>
      let bt := sget (sget c.cores core {}).batches b {}
      if kill || bt.state == .opened || (bt.tag.isSome && !bt.resolved) then c.endBatch core b false else c) c) c

/-- The end of a job with a status: 0 DONE, 2 HALTED, 3 KILLED; 0x125 for a basket launch that a tear-down finds before priming (R334). -/
def Mach.jobGone (m : Mach) (now job status : Nat) : Mach :=
  let j := m.job job
  let part := cxPart j.cx
  let kill := status != 0 && status != 2
  let ids := m.streamsOf job
  let m := (List.range 4).foldl (fun m t => if j.tagAny t then m.discardTag job t else m) m
  let m := m.phLeaveAll now ids
  let m := if j.source == .ranger then m else (m.clustersOf job).foldl (fun m lc => m.modCct (ccKey j.cx lc) (fun c =>
    let c := c.endBatches kill
    { c with fifos := c.fifos.filter (fun f => f.2.owner != some job),
             cores := c.cores.map (fun (k : Nat × MCore) => (k.1, { k.2 with lheld := false, lleft := 0, req := none, released := false })) })) m
  -- a RED found faulty is recorded all the same (R284)
  let m := if kill then (m.atoms.filter (fun a => a.job == job && a.flt.isSome && a.done.isNone)).foldl (fun m a => m.redLog now a) m else m
  let keepPend : Pend → Bool := fun p => p.job != job || (!kill && (match p.eff with | .commit .. => true | _ => false))
  let m := { m with pend := m.pend.filter keepPend,
                    atoms := if kill then m.atoms.filter (fun a => a.job != job || a.done.isSome) else m.atoms,
                    copies := m.copies.filter (fun c => c.job != job),
                    publs := m.publs.filter (fun p => !ids.contains p.sid) }
  -- a stream that ends with entries left for host memory keeps them until they perform (R257)
  let m := { m with streams := m.streams.filterMap (fun (p : Nat × Stream) =>
      if p.2.job != job then some p
      else if kill || p.2.sb.isEmpty then none
      else some (p.1, { p.2 with state := .idle, prev := .idle, hold := .none, regs := [], fbuf := [] })) }
  let m := match j.handle with | some h => m.modRec h (fun r => { r with live := false }) | none => m
  let m := { m with saves := sdel m.saves job }
  let m := m.modJob job (fun j => { j with phase := .ended, handle := none, deadline := none, window := false })
  let m := match j.source with
    | .host pidx => m.at now .completionRecordWrite [part, j.queue, 0, status, j.jobid, pidx, now / Config.tick]
    | .basket i => m.modPart part (fun p => { p with basket := smod p.basket i { words := [] } (fun b => { b with state := 0, status := status }) })
    | _ => m
  (m.tryReconfig now part).retryWaiting now

/-- RENDEZVOUS_COMPLETE (R39): every scalar stream has executed RDV, every engine stream is DONE, and every carried share has run;
the job ends. -/
def Mach.atRendezvous (m : Mach) (job : Nat) : Bool :=
  let j := m.job job
  j.phase == .running && !j.halted && j.toPrime.isEmpty && !j.shares.isEmpty && j.shares.all (fun s => match m.findSel job s.sel with
    | some i => let t := m.str i; t.state == (if s.sel.cls == .scalar then .waitRdv else .done) && t.hold == .none
    | none => false)

def execRendezvousComplete (s : State) : Ans :=
  onMach (fun now m => if m.atRendezvous (m.arg 0) then m.jobGone now (m.arg 0) 0 else m) s

/-- Whether an entry in flight is a result that its stream or job still awaits: a signal withheld on an open predicted path is none (R52),
nor are a credit on its way, a new token count or a HALT's stop. -/
def Pend.awaited (p : Pend) : Bool :=
  match p.eff with
  | .sig _ => p.spec.isNone
  | .halt | .landCredit .. | .tokset .. | .tokUp _ => false
  | _ => true

/-- A stream reaches its table length: DONE once its results are written, with its release half (R41, R258). -/
def Mach.mayFinish (m : Mach) (sid : Nat) : Bool :=
  let s := m.str sid
  let j := m.job s.job
  s.sel.cls != .scalar && s.state == .running && s.len ≤ s.step && s.hold == .none && !m.pend.any (fun p => p.sid == sid && p.awaited)
    && s.drained (cxPart j.cx) 2 m.seq && !(m.ctx j.cx).rfpend

/-- STREAM_DONE (R41). A reduction-fault record that stands at the boundary freezes the job instead (R287). -/
def execStreamDone (s : State) : Ans :=
  onMach (fun now m =>
    let sid := m.arg 0
    let st := m.str sid
    if m.mayFinish sid then m.modStr sid (fun s => { s with state := .done })
    else if st.sel.cls != .scalar && st.state == .running && st.len ≤ st.step && st.hold == .none then
      match ({ m with cur := sid } : Mach).redFreeze with
      | some f => { m with cur := sid }.takeFreeze now sid f
      | none => m
    else m) s

/-- Whether a halted job has come to rest: results written, buffers drained at package scope, copies complete (R342). -/
def Mach.haltOver (m : Mach) (job : Nat) : Bool :=
  let j := m.job job
  j.halted && j.phase == .halting && !m.pend.any (fun p => p.job == job && p.awaited) && !m.copies.any (fun c => c.job == job && !c.complete && !c.failed)
    && (m.streamsOf job).all (fun i => (m.str i).state != .running && (m.str i).state != .waitToken
        && (m.str i).state != .waitPhaser && (m.str i).drained (cxPart j.cx) 2 m.seq)

/-- The streams of a halted job stop on a cluster, or on all with 2048 (R342). A stream that issued a HALT goes on with its release half. A
freeze that took effect before stands. -/
def Mach.haltStop (m : Mach) (now job lc : Nat) : Mach :=
  let j := m.job job
  if j.phase == .frozen || !j.live then m
  else
    let ids := (if lc == 2048 then m.streamsOf job else m.streamsOn job lc).filter (fun i => let s := m.str i
      s.state != .done && s.state != .idle && !s.halts)
    let m := ids.foldl (fun m i => m.abandon now i) m
    let m := m.modStreams ids (fun s => { s with state := if s.sel.cls == .scalar then .waitRdv else .stopped })
    m.modJob job (fun j => { j with halted := true, phase := .halting })

/-- HALT_STOP (R342): at (job, cluster, number of the HALT), a halt broadcast arrives; one of a HALT that a freeze has cut short does
nothing. With 2049 for the cluster the halted job, at rest, ends. -/
def execHaltStop (s : State) : Ans :=
  onMach (fun now m =>
    let job := m.arg 0
    let lc := m.arg 1
    if lc == 2049 then (if m.haltOver job then m.jobGone now job 2 else m)
    else if (m.job job).haltId == m.arg 2 then m.haltStop now job lc else m) s

/-- A job killed, as FKILL does (R423). -/
def Mach.killJob (m : Mach) (now job : Nat) : Mach := if (m.job job).live then m.jobGone now job 3 else m

/-- The dictionary image of a job stored on a cluster (R115). A memory fault freezes the job, reported against the scalar stream there
(R50), and the image is read again after the resume. An image found malformed only now ends the job, KILLED (DESIGN CHOICE, log 47). -/
def Mach.storeImage (m : Mach) (now job lc : Nat) : Mach :=
  let j := m.job job
  if !j.dictDue.contains lc then m else
  match m.dictRecords j.cx j.image j.imglen (j.imglen / 16 + 1) j.dictimg with
  | .error (some f) =>
    let sid := ((m.streamsOn job lc).find? (fun i => (m.str i).sel.cls == .scalar)).getD ((m.streamsOn job lc).headD 0)
    ({ m with cur := sid } : Mach).takeFreeze now sid f
  | .error none => m.killJob now job
  | .ok (m, rs) =>
    let m := m.modJob job (fun j => { j with dictDue := j.dictDue.filter (· != lc) })
    rs.foldl (fun m r =>
      if hosts (lcKind lc) r.1 then
        m.modCct (ccKey j.cx lc) (fun c => (List.range r.2.2.2.length).foldl (fun c i =>
          c.setEntry r.1 r.2.1 (r.2.2.1 + i) (entryOf r.1 (r.2.2.2.getD i 0)).1) c)
      else m) m

/-- Priming begins on the first of a job's clusters: an armed record is LAUNCHED from then on (R332). -/
def Mach.beginPriming (m : Mach) (job : Nat) : Mach :=
  let j := m.job job
  if j.phase != .waiting then m else
  let m := m.modJob job (fun j => { j with phase := .priming })
  match j.source with
  | .basket i => m.modPart (cxPart j.cx) (fun p => { p with basket := smod p.basket i { words := [] } (fun b => { b with state := 2 }) })
  | _ => m

/-- DIE_PRIME (R48): a die primes one cluster of a job, once every cluster of the job's first shares is free (R30, log 81) and the
context stands there. With the operand
2048 it is the complex's announcement of a start time, when every die has reported ready (R49); a job whose region was HELD at that
time (R351) starts at the first whole microsecond at which the region is HELD no longer (DEDUCED, log 46). -/
def execDiePrime (s : State) : Ans :=
  onMach (fun now m =>
    let job := m.arg 0
    let lc := m.arg 1
    let j := m.job job
    if lc == 2048 then
      let us := 1000 * Config.tick
      let t := if j.startAt.isSome then ceilDiv now us * us else ceilDiv (now + 2 * us) us * us
      (m.modJob job (fun j => { j with startAt := some t })).at t .jobStart [job, 2048]
    else if !j.toPrime.contains lc || !(j.phase == .waiting || j.phase == .priming || j.phase == .running) then m
    else if j.phase == .waiting && !m.jobFree job then m
    else
      let (m, there) := m.reside now j.cx lc job
      if !there then m else
      let cc := ccKey j.cx lc
      let ss := j.shares.filter (fun s => s.sel.lc == lc)
      let m := (m.beginPriming job).modJob job (fun j => { j with toPrime := j.toPrime.filter (· != lc) })
      let m := (m.modCct cc (fun c => (c.jobStart.jobRegs j).launchTokens job ss)).mendAll cc
      let m := ss.foldl (fun m s => m.primeStream job s) m
      (if j.dictimg == 0 then m else (m.modJob job (fun j => { j with dictDue := lc :: j.dictDue })).storeImage now job lc)) s

/-- Recovery has failed: the fault domain of a region is killed and the host hears of it (R35, R413). -/
def Mach.killDomain (m : Mach) (now handle : Nat) : Mach :=
  let r := m.frec handle
  let j := m.job r.job
  let dom := (m.effRcb j.cx j.rcb 2).getD j.rcb
  let ids := (m.jobs.filter (fun k => k.2.cx == j.cx && k.2.live && (m.chain j.cx 8 k.2.rcb).contains dom)).map (·.1)
  let fd := m.effFdom j.cx j.rcb
  let m := m.postEvent now (cxPart j.cx) r.die
    { w0 := r.code * 2 ^ 56 + r.cause * 2 ^ 48 + 3 * 2 ^ 44 + r.jobid, w1 := j.cx % 64 * 2 ^ 58 + r.sel.word, w2 := fd,
      w3 := now / Config.tick }
  let m := (r.job :: ids).eraseDups.foldl (fun m k => m.killJob now k) m
  m.modRec handle (fun r => { r with live := false })

/-! ### The dispatcher (R330, R332, R335, R345) -/

/-- A launch checked and accepted or refused: the JOBID, or the status. -/
def Mach.dispatch (m : Mach) (now : Nat) (l : Launch) : Mach × Except Nat Nat :=
  match m.checkLaunch l.cx l.words (match l.source with | .host _ => true | _ => false) with
  | .error e => (m, .error e)
  | .ok (m, j) =>
    let (m, id) := m.accept now j l.source l.queue
    (m, .ok id)

/-- What a refusal leaves: a completion record for a host packet, the basket record READY with its status, and for a FORK that
was held a record on its queue (R332, R335, R346). -/
def Mach.refuse (m : Mach) (now part : Nat) (l : Launch) (status : Nat) : Mach :=
  match l.source with
  | .host pidx => m.at now .completionRecordWrite [part, l.queue, 0, status, 0, pidx, now / Config.tick]
  | .basket i => m.modPart part (fun p => { p with basket := smod p.basket i { words := [] } (fun b => { b with state := 0, status := status }) })
  | .fork _ => m.at now .completionRecordWrite [part, l.queue, 0, status, 0, 0x0FFFFFFF, now / Config.tick]
  | .ranger => m

/-- The launch of a list with the least value of a key. -/
def leastLaunch (key : Launch → Nat) (l : List Launch) : Option Launch :=
  l.foldl (fun (a : Option Launch) x => match a with
    | none => some x
    | some y => if key x < key y then some x else a) none
/-- Priority of a queue (R344). -/
def Part.queuePrio (p : Part) (q : Nat) : Nat := fld (sget p.queues q {}).qctl.toNat 52 4

/-- The next launch of the dispatcher. Launches that a reconfiguration held come first, in their order of arrival (R19). Then the highest
priority with a launch waiting: an armed record stands at the priority of its queue, and those of one priority are taken in the order of
their LARMs (R332), before the packets of that priority (log 82); queues of one priority take turns, in ascending number (R345). -/
def Mach.nextLaunch (m : Mach) (part : Nat) : Option Launch :=
  let p := m.part part
  let heads := p.queues.filterMap (fun q => q.2.valid.head?)
  match leastLaunch (·.arr) ((p.held ++ p.armed ++ heads).filter (·.held)) with
  | some l => some l
  | none =>
    let top := (p.armed ++ heads).foldl (fun a l => max a (p.queuePrio l.queue)) 0
    let at' := fun (l : List Launch) => l.filter (fun x => p.queuePrio x.queue == top)
    ((leastLaunch (·.arr) (at' p.armed)).orElse (fun _ =>
      leastLaunch (·.queue) ((at' heads).filter (fun x => sget p.turn top 0 < x.queue)))).orElse (fun _ => leastLaunch (·.queue) (at' heads))

/-- A launch taken out of where it waited; a packet's queue has had its turn at its priority. -/
def Mach.takeLaunch (m : Mach) (part : Nat) (l : Launch) : Mach :=
  m.modPart part (fun p => { p with
    turn := match l.source with | .host _ => sset p.turn (p.queuePrio l.queue) l.queue | _ => p.turn
    armed := p.armed.filter (fun x => x != l), held := p.held.filter (fun x => x != l)
    queues := p.queues.map (fun (q : Nat × Queue) => if q.1 == l.queue && q.2.valid.head? == some l then (q.1, { q.2 with valid := q.2.valid.tail }) else q) })

/-- The launch record of a FORK (R335): the parent's image, region, prime depth and banks. -/
def Job.forkWords (j : Job) (sa sb : Nat) : List Nat :=
  [j.image, j.rcb, sa % 4096 * 2 ^ 52 + j.prime * 2 ^ 47 + j.dbank * 2 ^ 32, sb, j.jobid, 0, 0, j.cx % 64 * 2 ^ 58]

/-- LAUNCH_DISPATCH (R330, R335, R345): the dispatcher takes one launch; with operands (partition, 1, stream, request, Sa, Sb) a
FORK reaches it. A launch is never checked while RCPEND stands (R19). -/
def execLaunchDispatch (s : State) : Ans :=
  onMach (fun now m =>
    let part := m.arg 0
    if m.arg 1 == 1 then
      let sid := m.arg 2
      let st := m.str sid
      match st.hold with
      | .complexReq id d =>
        if id != m.arg 3 || st.state == .frozen then m else
        let j := m.job st.job
        let l : Launch := { words := j.forkWords (m.arg 4) (m.arg 5), source := .fork st.job, queue := j.queue, cx := j.cx, arr := m.seq }
        if (m.part part).rcpend then
          ({ m with seq := m.seq + 1 }.modPart part (fun p => { p with held := p.held ++ [{ l with held := true }] })).replyReg now sid d (wd (2 ^ 62))
        else match m.dispatch now l with
          | (m, .ok id) => m.replyReg now sid d (wd id)
          | (m, .error e) => m.replyReg now sid d (wd (2 ^ 63 + e * 2 ^ 32))
      | _ => m
    else if (m.part part).rcpend then m
    else match m.nextLaunch part with
      | none => m
      | some l =>
        let m := m.takeLaunch part l
        let m := match m.dispatch now l with
          | (m, .ok _) => m
          | (m, .error e) => m.refuse now part l e
        m.after now 0 .launchDispatch [part]) s

end Sys2Proof.Machine
end

