-- ==== Sys2Proof/Machine/System.lean ====
section
/-! DEFINITION. HALT, TRAP, TFENCE and YIELD (R340 to R342, R406), jobs and engine streams as words act on them (R335 to R339),
the basket (R331 to R333), and tokens in flight (R44 to R46). -/

namespace Sys2Proof.Machine

/-! ### System words -/

/-- HALT (R342): the release half, and the stop of every stream of the job; a ranger's HALT ends the ranger (R409). -/
def execHalt (s : State) : Ans :=
  onWord (fun now m =>
    let m := m.charge 0
    let j := m.cs.job
    let t := m.jobTick j m.clc (m.ccyc now + 1)
    let id := if m.cj.haltId == 0 then m.seq + 1 else m.cj.haltId
    let go := fun (m : Mach) => { m with seq := m.seq + 1 }.modJob j (fun j => { j with haltId := id })
    let m := if m.cs.isRanger then m
      else if m.cj.fixed then (go m).pushAt now (m.ccyc now + 39) .halt
      else ((m.clustersOf j).filter (· != m.clc)).foldl (fun m c => 
        let die := pcDie (m.pcOf m.cpart c)
        m.transfer now (m.routeCy (m.dieOf m.cur) die * m.periodOf m.cur) m.cur die .haltStop [j, c, id]) ((go m).at t .haltStop [j, m.clc, id])
    .hold m (.release .halt 2 m.seq)) s

/-- TRAP (R340): it counts as executed, and the record shows its word, with the word's address in FVA (log 17). -/
def execTrap (code : BitVec 5) (s : State) : Ans :=
  onWord (fun now m =>
    let q := m.cs.fq0
    let job := m.cs.job
    let m := (((m.charge 0).retire now).takeFreeze now m.cur { code := .trap, cause := code.toNat, fva := q.waddr })
    match (m.job job).handle with
    | some h => .moved (if (m.frec h).primary == m.cur && (m.frec h).code == 5 then
        m.modRec h (fun r => { r with word := q.w0, wbank := q.bank, wdict := bitOf q.w0 31 }) else m)
    | none => .moved m) s

/-- The ASTATs that a TFENCE reads: its own and those of the job's engine streams on the cluster (R406). -/
def Mach.fenceKeys (m : Mach) : List Nat :=
  let ids := (m.streamsOn m.cs.job m.clc).filter (fun i => (m.str i).sel.cls != .scalar)
  m.cs.astatKey m.cur :: ids.map (fun i => (m.str i).astatKey i)
/-- What they hold. -/
def Mach.fenceStats (m : Mach) : List Nat := m.fenceKeys.map (fun k => ((m.cct m.ccc).creg k).toNat)

/-- TFENCE (R406): held until every earlier result of the job on the cluster is written, then the enabled flags raise ARITH. -/
def execTfence (s : State) : Ans :=
  onWord (fun now m =>
    let cyc := m.ccyc now
    let due := match m.cs.hold with
      | .tfence d => d
      | _ => (m.pend.filter (fun p => p.job == m.cs.job && p.lc == m.clc && p.awaited)).foldl (fun a p => max a p.due) 0
    if due != 0 && cyc ≤ due then .hold m (.tfence due)
    else
      let cause := m.fenceStats.foldl (fun a v => a ||| (fld v 0 6 &&& fld v 8 6)) 0
      if cause != 0 then .flt m { code := .arith, cause := cause }
      else
        let m := (m.charge 0).retire now
        .moved (if due == 0 then m else m.modStr m.cur (fun s => { s with lastIssue := due }))) s

/-- YIELD (R341): in elastic mode the region gives back the rest of its slot. -/
def execYield (s : State) : Ans :=
  onWord (fun now m =>
    let m := m.charge 0
    if m.cj.fixed || m.cs.isRanger then .go m
    else
      let pc := m.pcOf m.cpart m.clc
      .hold ((m.modPcl pc (fun p => { p with yielded := m.cj.cx :: p.yielded, slot := none })).at now .slotBoundary [1, pc]) .yield) s

/-! ### Jobs (R335, R336) -/

/-- FORK (R335): held until the dispatcher answers. A ranger's FORK is illegal (R409). -/
def execFork (d a b : R) (s : State) : Ans :=
  onWord (fun now m =>
    if m.cs.isRanger then Res.err m .illegalOp else
    let (id, m) := (m.charge 0).newId
    .hold (m.after now (2000 * Config.tick) .launchDispatch [m.cpart, 1, m.cur, id, (m.rs a).toNat, (m.rs b).toNat]) (.complexReq id d)) s

/-- RDV (R336): its copies first, then the release half, then the wait for the job's end. -/
def execRdv (s : State) : Ans :=
  onWord (fun now m =>
    if m.cs.isRanger then Res.err m .illegalOp else
    let mine := m.copies.filter (fun c => c.sid == m.cur)
    match mine.find? (fun c => c.failed) with
    | some c => Res.err (m.clearFailed c.id) .ecc
    | none =>
      let open' := mine.filter (fun c => !c.complete)
      match open'.find? (fun c => c.promise * Config.tick ≤ now
          && m.cs.tickets.any (fun t => t.copy == c.id && !t.missed)) with
      | some c => Res.err (m.markMissed m.cur c.id) .promiseMissed
      | none =>
        if !open'.isEmpty then .hold m .copies
        else match m.redFreeze with
          | some f => .flt m f
          | none => .hold (m.charge 0) (.release .rdv 2 m.seq)) s

/-! ### Engine streams (R338) and FIFOs (R339) -/

/-- The engine selector of TSTART, TSTOP, TREBASE and TSTAT, on the issuing cluster. -/
def Mach.engSel (m : Mach) (v : Word) : Option Sel :=
  let n := v.toNat
  let s := m.cs.sel
  match Cls.ofCode (fld n 7 3) with
  | none => none
  | some k =>
    let units := match k with | .scalar => 0 | .matrix => 2 | .vector => 4 | .ldst => 8 | .gather => 1 | .strip => 16
    if hosts s.kind k && fld n 0 4 < units && (if k == .vector then fld n 4 3 ≤ 4 else fld n 4 3 == 0) then
      some { s with cls := k, col := fld n 4 3, unit := fld n 0 4 }
    else none

/-- A word on an engine stream: Sd gets its ESTAT of the issue cycle, or 0 where the job has no stream there. -/
def engineOp (d a : R) (bad : Mach → Option FCode) (f : Nat → Mach → Nat → Mach) (s : State) : Ans :=
  onWord (fun now m => match m.engSel (m.rs a) with
    | none => Res.err m .illegalField
    | some sel => match bad m with
      | some c => Res.err m c
      | none =>
        let m := m.charge 0
        match m.findSel m.cs.job sel with
        | none => .go (m.pushReg now 0 d 0)
        | some i => .go (f now (m.pushReg now 0 d ((m.str i).estat m.cj.jobid)) i)) s

/-- Whether a held micro-order has issued and awaits only its completion (R244, R294). -/
def Hold.issued : Hold → Bool
  | .gset .. | .publ _ => true
  | _ => false
/-- A wait of an engine stream cancelled: its micro-order stays unissued, and one that has issued completes. -/
def Mach.cancelWait (m : Mach) (now i : Nat) : Mach :=
  if (m.str i).hold.issued then m
  else (m.abandon now i).modStr i (fun s => { s with hold := .none, state := if s.state == .waitToken then .running else s.state })

/-- TSTART (R338). A stream that the new length finds at its end becomes DONE as R41 says, with its release half: one that waits issues its
micro-order no more. -/
def execTstart (d a b : R) (s : State) : Ans :=
  engineOp d a (fun m => if (m.rs b).toNat / 2 ^ 24 != 0 then some .illegalField else none)
    (fun now m i =>
      let len := (m.rs b).toNat
      let m := m.modStr i (fun s => { s with len := len })
      let st := m.str i
      if len ≤ st.step then
        if st.state == .stopped then m.modStr i (fun s => { s with state := .running })
        else if st.state == .running || st.state == .waitToken then m.cancelWait now i else m
      else if st.state == .stopped || st.state == .done then
        m.modStr i (fun s => { s with state := .running, lastIssue := m.ccyc now + 1, fresh := true })
      else m) s

/-- TSTOP (R338): the waiting micro-order stays unissued. -/
def execTstop (d a : R) (s : State) : Ans :=
  engineOp d a (fun _ => none)
    (fun now m i =>
      let t := (m.str i).state
      if t == .running || t == .waitToken || t == .waitPhaser then
        (m.cancelWait now i).modStr i (fun s => { s with state := .stopped })
      else m) s

/-- TREBASE (R338). -/
def execTrebase (d a b : R) (s : State) : Ans :=
  engineOp d a (fun m => if (m.rs b).toNat % 64 != 0 then some .align else none)
    (fun _ m i =>
      let t := (m.str i).state
      if t == .stopped || t == .done then
        (m.modStr i (fun s => { s with base := (m.rs b).toNat, step := 0, state := .stopped })).fillBuffer i 0
      else m) s

def execTstat (d a : R) (s : State) : Ans := engineOp d a (fun _ => none) (fun _ m _ => m) s

/-- TOKSET (R339): the count is set at the end of the issue cycle. -/
def execTokset (a b : R) (s : State) : Ans :=
  onWord (fun now m =>
    let v := (m.rs b).toNat
    if 255 < v then Res.err m .illegalField
    else .go ((m.charge 0).pushAt now (m.ccyc now) (.tokset ((m.rs a).toNat % 32) v))) s

/-- TOKEN_BEAT_ARRIVAL (R44, R46): a signal from another cluster is counted as it arrives, at (context-cluster, FIFO). -/
def execTokenBeatArrival (s : State) : Ans :=
  onMach (fun _ m => m.modCct (m.arg 0) (fun c => c.signal (m.arg 1))) s

/-- TOKEN_CREDIT_RETURN (R45): every remote producer's copy of the count falls by the tokens a wait took. -/
def execTokenCreditReturn (s : State) : Ans :=
  onMach (fun _ m => m.modCct (m.arg 0) (fun c => { c with fifos := smod c.fifos (m.arg 1) {} (fun x =>
    { x with credit := x.credit - m.arg 2, copies := x.copies.map (fun (p : Nat × Nat) => (p.1, p.2 - m.arg 2)) }) })) s

/-! ### The basket (R331 to R333) -/

/-- A request of a stream to the command complex, which reaches its effect and its reply within 2 µs (R320, R333). -/
def complexOp (op : Nat) (d a b : R) (s : State) : Ans :=
  onWord (fun now m =>
    if op == 1 && m.cs.isRanger then Res.err m .illegalOp else
    let (id, m) := (m.charge 0).newId
    .hold (m.after now (2000 * Config.tick) .commandComplexReply [m.cur, id, op, (m.rs a).toNat, (m.rs b).toNat]) (.complexReq id d)) s

def execLpatch (d a b : R) (s : State) : Ans := complexOp 0 d a b s
def execLarm (d a : R) (s : State) : Ans := complexOp 1 d a 0 s
def execLstat (d a : R) (s : State) : Ans := complexOp 2 d a 0 s

/-- A record of the basket that a context reaches (R331). -/
def Part.record (p : Part) (ctx i : Nat) : Option Basket :=
  if i < p.bsize then (sget? p.basket i).filter (fun b => b.words.getD 7 0 / 2 ^ 58 == ctx) else none
/-- Word 7 of a record as it reads (R329). -/
def Basket.word7 (b : Basket) : Word :=
  let w := b.words.getD 7 0
  wd (fld w 53 11 * 2 ^ 53 + b.state * 2 ^ 44 + b.status * 2 ^ 16 + b.jobid)

/-- COMMAND_COMPLEX_REPLY (R333): the effect on the record, and Sd. -/
def execCommandComplexReply (s : State) : Ans :=
  onMach (fun now m =>
    let sid := m.arg 0
    let st := m.str sid
    let j := m.job st.job
    let part := cxPart j.cx
    let i := m.arg 3 % 1024
    let fldn := fld (m.arg 3) 10 3
    match st.hold with
    | .complexReq id d =>
      if id != m.arg 1 || st.state == .frozen then m else
      match (m.part part).record (j.cx % 64) i with
      | none => m.replyReg now sid d (if m.arg 2 == 2 then 0 else 3)
      | some b =>
        if m.arg 2 == 2 then m.replyReg now sid d b.word7
        else if m.arg 2 == 1 then
          if b.state != 0 then m.replyReg now sid d 2
          else
            let l : Launch := { words := b.words, source := .basket i, queue := j.queue, cx := j.cx, arr := m.seq }
            let m := { m with seq := m.seq + 1 }
            let m := m.modPart part (fun p => { p with basket := sset p.basket i { b with state := 1, queue := j.queue },
                                                       armed := p.armed ++ [l] })
            (m.after now 0 .launchDispatch [part]).replyReg now sid d 0
        else if 5 ≤ fldn || (fldn == 0 && m.arg 4 / 2 ^ 12 != 0) then m.replyReg now sid d 4
        else if b.state != 0 then m.replyReg now sid d 2
        else if !bitOf (b.words.getD 7 0) (53 + fldn) then m.replyReg now sid d 1
        else
          let w := if fldn == 0 then b.words.set 2 (b.words.getD 2 0 % 2 ^ 52 + m.arg 4 % 2 ^ 12 * 2 ^ 52)
            else b.words.set (2 + fldn) (m.arg 4)
          (m.modPart part (fun p => { p with basket := sset p.basket i { b with words := w } })).replyReg now sid d 0
    | _ => m) s

end Sys2Proof.Machine
end

