-- ==== Sys2Proof/Machine/Frozen.lean ====
section
/-! DEFINITION. Freezes under way (R400 to R403), the frozen-state instructions (R415 to R424), rangers and recovery (R407 to
R413), and the event ring (R425 to R427). FSTEP stands in LongForm.lean, beside the dispatch of words. -/

namespace Sys2Proof.Machine

/-! ### Freezes under way -/

/-- FREEZE_BROADCAST_ARRIVAL (R400): the job's streams on another cluster stop. -/
def execFreezeBroadcastArrival (s : State) : Ans :=
  onMach (fun now m =>
    let job := m.arg 0
    match (m.job job).handle with
    | none => m
    | some h =>
      if m.allStopped job then m else
      let m := m.freezeCluster now job (m.arg 1) h
      if m.allStopped job then m.frozenWhole now job h else m) s

/-- A word that was held at F and whose signal or registration the engine counted inside the window is past its sending (R298, R401):
it completes, or waits in the wait half of a PHSW. -/
def Stream.settleKept (s : Stream) : Stream :=
  match s.hold with
  | .phSend _ (.ph kind key cyc d _) | .release (.ph kind key cyc d _) _ _ =>
    match s.kept.find? (fun k => k.1 == cyc) with
    | none => s
    | some k =>
      let s := { s with kept := s.kept.filter (fun x => x.1 != cyc) }
      if kind == 1 then { s with hold := .phWait d key cyc 1, state := .waitPhaser }
      else if kind == 3 then { (s.wr d.toNat k.2) with hold := .phReply none 0 }
      else { s with hold := .phReply none 0 }
  | _ => s

/-- A stream as it stood at F, with what the window kept (R401). -/
def Stream.rewound (old cur : Stream) (atoms : List Atom) (sid f : Nat) : Stream :=
  Stream.settleKept
    { old with l1 := cur.l1, kept := cur.kept ++ (atoms.filter (fun a => a.sid == sid && f ≤ a.iss)).filterMap (fun a => a.done.map (fun v => (a.iss, v))) }

/-- A context's state on a cluster as it stood at F; the charges of the words that did issue, the totals that arrived meanwhile, and what has been
written to its local stores stand (R360, R363, R434, log 112). -/
def Cctx.rewound (old cur : Cctx) : Cctx :=
  { old with eclPj := cur.eclPj, dfrac := cur.dfrac, sres := cur.sres, esat := cur.esat, ecnt := cur.ecnt, fseq := cur.fseq
             ecntSat := cur.ecntSat, folded := cur.folded, eclAt := cur.eclAt, dirty := cur.dirty }
/-- FREEZE_REWIND (R401): at Z a fixed-timing job is rewound to F: what its streams issued from F on is squashed, but for the words
kept. -/
def execFreezeRewind (s : State) : Ans :=
  onMach (fun now m =>
    let job := m.arg 0
    match sget? m.saves job, (m.job job).handle with
    | some sv, some h =>
      let f := sv.cyc
      let prim := (m.frec h).primary
      let ids := m.streamsOf job
      let lcs := m.clustersOf job
      let kept := fun (c : Copy) => c.job != job || !ids.contains c.sid || c.complete || c.failed
        || (m.str c.sid).kept.any (fun k => 2 ^ 40 ≤ k.1 && k.2 == wd c.id)
        || (match sget? sv.streams c.sid with | some o => o.tickets.any (fun t => t.copy == c.id) | none => false)
      let strs := m.streams.map (fun (p : Nat × Stream) => match sget? sv.streams p.1 with
        | some o => (p.1, o.rewound p.2 m.atoms p.1 f)
        | none => p)
      let ccs := sv.ccs.foldl (fun (c : SMap Cctx) (p : Nat × Cctx) => sset c p.1 (p.2.rewound (sget c p.1 {}))) m.ccs
      let pend := m.pend.filter (fun (p : Pend) => p.job != job) ++ sv.pend
      let atoms := m.atoms.filter (fun (a : Atom) => a.job != job || a.iss < f)
      let m : Mach := { m with streams := strs, ccs := ccs, pend := pend, atoms := atoms, copies := m.copies.filter kept,
                               saves := sdel m.saves job }
      let m := m.modJob job (fun j => { j with window := false })
      let m := m.modJob job (fun j => { j with clk := lcs.foldl (fun (k : SMap JClk) lc =>
        sset k lc { (sget k lc {}) with stopped := some f }) j.clk })
      let m := m.modStr prim (fun s => if s.state == .frozen then { s with state := s.prev, prev := .idle } else s)
      (lcs.foldl (fun m lc => m.freezeCluster now job lc h) m).frozenWhole now job h
    | _, _ => m) s

/-- A job resumed on some clusters (R421). -/
def Mach.resumeJob (m : Mach) (now job : Nat) : Mach :=
  let j := m.job job
  let lcs := m.clustersOf job
  let m := match j.handle with | some h => m.modRec h (fun r => { r with live := false }) | none => m
  let m := m.modJob job (fun j => { j with handle := none, atPriming := false, startAt := if j.atPriming then none else j.startAt,
                                           phase := if j.atPriming then .priming else .running })
  if j.fixed && !j.atPriming then
    let us := 1000 * Config.tick
    m.at (ceilDiv (now + 2 * us) us * us) .resumeStart [job, 2048]
  else lcs.foldl (fun m lc => m.after now 0 .resumeStart [job, lc]) m

/-- RESUME_START (R421): on each cluster named the clock runs again and each stream returns to PREV. -/
def execResumeStart (s : State) : Ans :=
  onMach (fun now m =>
    let job := m.arg 0
    if (m.job job).handle.isSome then m
    else ((if m.arg 1 == 2048 then m.clustersOf job else [m.arg 1]).foldl (fun m lc =>
      let m := if (m.job job).atPriming || (m.job job).phase == .priming then
          m.modStreams (m.streamsOn job lc) (fun s => if s.state == .frozen then { s with state := s.prev, prev := .idle } else s)
        else m.resumeCluster now job lc
      m.storeImage now job lc) m).retryWaiting now) s

/-! ### The record (R404, R405) -/

/-- Number of words of a record. -/
def Rec.size (r : Rec) : Nat := 8 + 4 * r.entries.length + r.pends.length
/-- Word `i` of a record. -/
def Rec.wordAt (r : Rec) (i : Nat) : Word :=
  let n := r.entries.length
  match i with
  | 0 => wd (r.code * 2 ^ 56 + r.cause * 2 ^ 48 + b2n r.fixed * 2 ^ 47 + b2n r.esc * 2 ^ 46 + b2n r.flt.logorg * 2 ^ 45
      + b2n r.nest * 2 ^ 44 + n % 2 ^ 16 * 2 ^ 16 + r.jobid)
  | 1 => wd r.fcyc
  | 2 => wd (r.cx % 64 * 2 ^ 58 + cxPart r.cx * 2 ^ 55 + r.pends.length % 2 ^ 16 * 2 ^ 39 + r.sel.word)
  | 3 => wd r.flt.fva
  | 4 => wd r.flt.ptea
  | 5 => wd (r.wbank * 2 ^ 34 + b2n r.wdict * 2 ^ 33 + r.word)
  | 6 => wd r.lform
  | 7 => wd r.ftime
  | i =>
    if i < 8 + 4 * n then
      match r.entries[(i - 8) / 4]? with
      | none => 0
      | some e => match (i - 8) % 4 with
        | 0 => wd (e.scode * 2 ^ 56 + e.sel.word)
        | 1 => e.estat
        | 2 => e.pos
        | _ => wd e.next
    else match r.pends[i - 8 - 4 * n]? with
      | none => 0
      | some (sel, d, due) => wd (sel.word * 2 ^ 43 + d * 2 ^ 35 + due % 2 ^ 32)

/-! ### Frozen-state instructions (R415 to R420) -/

/-- A frozen-state instruction: its capability, then what it answers, held until its reply within 2 µs (R415, R417). -/
def frozenOp (right : Nat) (b : R) (d : Option R) (act : Nat) (f : Nat → Mach → Nat → Except Flt (Mach × Word)) (s : State) : Ans :=
  onWord (fun now m => match m.ftc (m.rs b) right with
    | none => Res.err m .capFault
    | some h =>
      if (m.job (m.frec h).job).handle != some h then Res.err m .capFault
      else match f now m h with
        | .error e => .flt m e
        | .ok (m, v) =>
          .hold ((m.charge 0).after now (2000 * Config.tick) .frozenStateReply [m.cur]) (.frozen d v act h)) s

/-- The stream a selector names in a record's job (R416, R417). -/
def Mach.frozenStream (m : Mach) (h : Nat) (v : Word) : Option Nat :=
  match selOf v with
  | none => none
  | some sel => m.findSel (m.frec h).job sel

/-- An item or index outside its limits (R417). -/
def badItem {α : Type} : Except Flt α := .error { code := .illegalField }

/-- A token FIFO of a stream's cluster that is free or belongs to a job (R418). -/
def Mach.fifoOf (m : Mach) (i f : Nat) : Fifo := sget (m.cct (ccKey (m.job (m.str i).job).cx (m.str i).sel.lc)).fifos f {}

/-- FRD's value of an item (R418). -/
def Mach.frdItem (m : Mach) (i item : Nat) : Except Flt Word :=
  let s := m.str i
  let sc := s.sel.cls == .scalar
  if item / 2 ^ 16 != 0 then badItem
  else if item < 0x20 && sc then .ok (s.rd (BitVec.ofNat 5 item))
  else if item == 0x100 && sc then .ok s.fq0.word
  else if item == 0x101 && sc then .ok s.fq1.word
  else if item == 0x102 && sc then .ok s.fq2.word
  else if item == 0x200 && !sc then .ok (wd s.step)
  else if item == 0x201 && !sc then .ok (wd s.dbank)
  else if 0x300 ≤ item && item < 0x320 then .ok (wd (m.fifoOf i (item - 0x300)).count)
  else if 0x8000 ≤ item && ({ m with cur := i }.cregAccess false (item - 0x8000)).isSome then .ok ({ m with cur := i }.cregRead (item - 0x8000))
  else badItem

/-- A fetch-queue entry from a word written to it (R321). -/
def FQ.ofWord (v : Nat) : FQ := { waddr := v / 2 ^ 40, annul := bitOf v 2, bank := v % 4 }

/-- Pending entries of one destination removed (R418). -/
def Mach.dropPend (m : Mach) (f : Pend → Bool) : Mach := { m with pend := m.pend.filter (fun p => !f p) }
/-- Whether an entry in flight is a count of a token FIFO of a cluster. -/
def Pend.counts (p : Pend) (cc f : Nat) : Bool :=
  p.cc == cc && (match p.eff with | .sig g | .tokUp g | .tokset g _ => g == f | _ => false)
/-- An entry in flight without its write of a wide register of a core: none of it where that is all it does; a landing keeps its signal. -/
def Pend.spare (p : Pend) (cc unit col code : Nat) : Option Pend :=
  match p.eff with
  | .vec u k ws =>
    if p.cc != cc || u != unit then some p else
    let l := ws.filter (fun x => !(x.1 == code && (64 ≤ code || k == col)))
    if l.isEmpty then none else some { p with eff := .vec u k l }
  | .mask u k _ _ => if p.cc == cc && u == unit && code == 0x80 + k then none else some p
  | .tileRow u t .. | .tileAttr u t .. | .tzero u t => if p.cc == cc && u == unit && code == 0x10 + t then none else some p
  | .landing tcc u t _ _ f _ _ => if tcc == cc && u == unit && code == 0x10 + t then some { p with cc := tcc, eff := .sig f } else some p
  | .accRow u k .. | .accZero u k => if p.cc == cc && u == unit && (code == 0x20 + k || code == 0xA0 + k) then none else some p
  | .twin st => if p.cc == cc && st.core == unit && code == 0xA0 + st.acc then none else some p
  | _ => some p

/-- FWR's write of an item (R418). -/
def Mach.fwrItem (m : Mach) (i item : Nat) (w : Word) : Except Flt Mach :=
  let s := m.str i
  let v := w.toNat
  let sc := s.sel.cls == .scalar
  let job := s.job
  if item / 2 ^ 16 != 0 then badItem
  else if item < 0x20 && sc then
    .ok (((m.dropPend (fun p => p.sid == i && (match p.eff with | .reg n _ | .regAcq n _ _ _ _ => n == item | _ => false))).modStr i
      (fun s => s.wr item w)).mend (.scalar i item) (fun _ => true))
  else if 0x100 ≤ item && item ≤ 0x102 && sc then
    if fld v 3 37 != 0 then badItem
    else .ok (m.modStr i (fun s => if item == 0x100 then { s with fq0 := .ofWord v } else if item == 0x101 then { s with fq1 := .ofWord v }
      else { s with fq2 := .ofWord v }))
  else if item == 0x200 && !sc then
    if v / 2 ^ 24 != 0 then badItem else .ok ((m.modStr i (fun s => { s with step := v })).fillBuffer i v)
  else if item == 0x201 && !sc then
    if 4 ≤ v then badItem else .ok (m.modStr i (fun s => { s with dbank := v }))
  else if 0x300 ≤ item && item < 0x320 then
    let f := item - 0x300
    let x := m.fifoOf i f
    if 256 ≤ v || (x.owner.isSome && x.owner != some job) then badItem
    else
      let cc := ccKey (m.job job).cx s.sel.lc
      let gone := (m.pend.filter (fun p => p.counts cc f && (match p.eff with | .sig _ => true | _ => false))).length
      .ok ((m.dropPend (fun p => p.counts cc f)).modCct cc (fun c =>
        { c with fifos := sset c.fifos f { x with count := v, pend := 0, inflight := x.inflight - gone, owner := some job } }))
  else if 0x8000 ≤ item then
    let c := item - 0x8000
    let mt : Mach := { m with cur := i }
    match mt.cregAccess false c with
    | none => badItem
    | some acc =>
      if v &&& acc.rsv != 0 || !mt.cregValueOk c w then badItem
      else
        let t := mt.cregTarget c
        let cc := mt.ccc
        .ok ((m.dropPend (fun p => p.cc == cc && (match p.eff with | .creg k _ | .flags k _ => k == t | _ => false))).cregApply cc i t w)
  else badItem

/-- Where a wide register of FRDV and FWRV lies (R419): its map, key and chunk limit. -/
inductive WReg where
  | v (k : Nat) | col (k : Nat) | mask (k : Nat) (m0 : Bool) | tile (k : Nat) | acc (k : Nat) | twin (k : Nat)
  deriving DecidableEq, Repr

/-- The register that REG names on a stream (R419), with its chunk count. -/
def wregOf (sel : Sel) (r : Nat) : Option (WReg × Nat) :=
  match sel.cls with
  | .vector =>
    if r == 0 || (8 ≤ r && r ≤ 15) then some (.col ((sel.unit * 5 + sel.col) * 16 + r), 64)
    else if 0x40 ≤ r && r < 0x80 then some (.v (sel.unit * 64 + (r - 0x40)), 64)
    else if 0x80 ≤ r && r < 0x88 then some (.mask (sel.unit * 8 + (r - 0x80)) (r == 0x80), 16)
    else none
  | .matrix =>
    if 0x10 ≤ r && r < 0x20 then some (.tile (sel.unit * 16 + (r - 0x10)), 16384)
    else if 0x20 ≤ r && r < 0x24 then some (.acc (sel.unit * 4 + (r - 0x20)), 16384)
    else if 0xA0 ≤ r && r < 0xA4 then some (.twin (sel.unit * 4 + (r - 0xA0)), 16384)
    else none
  | _ => none

def Cctx.wreg (c : Cctx) : WReg → Wide
  | .v k => sget c.vregs k [] | .col k => sget c.cols k [] | .mask k m0 => if m0 then wones 16 else sget c.masks k []
  | .tile k => (sget c.tiles k {}).bytes | .acc k => sget c.acc k [] | .twin k => sget c.twin k []
def Cctx.setWreg (c : Cctx) (w : WReg) (v : Wide) : Cctx :=
  match w with
  | .v k => { c with vregs := sset c.vregs k v } | .col k => { c with cols := sset c.cols k v }
  | .mask k m0 => if m0 then c else { c with masks := sset c.masks k v }
  | .tile k => { c with tiles := smod c.tiles k {} (fun t => { t with bytes := v }) }
  | .acc k => { c with acc := sset c.acc k v } | .twin k => { c with twin := sset c.twin k v }

def Mach.ccOf (m : Mach) (i : Nat) : Nat := ccKey (m.job (m.str i).job).cx (m.str i).sel.lc

/-- A wide register as parity knows it (R80). -/
def WReg.loc (cc : Nat) : WReg → Loc
  | .v k => .vec cc k | .col k => .col cc k | .mask k _ => .mask cc k
  | .tile k => .tile cc k | .acc k => .acc cc k | .twin k => .twin cc k
/-- A read of a frozen register by item (R417), where the parity of a byte that it would take does not match: the ranger is the master that
would consume the value, and faults (R80). -/
def frozenRead (d a b : R) (bytes : Mach → Nat → Nat → List (Loc × Nat)) (f : Nat → Mach → Nat → Except Flt (Mach × Word)) (s : State) : Ans :=
  let m := s.mach
  let met : Option Nat :=
    if m.spoiled.isEmpty then none else
    match m.ftc (m.rs b) ftcInspect with
    | none => none
    | some h => if (m.job (m.frec h).job).handle != some h then none else match m.frozenStream h (m.rs a) with
      | none => none
      | some i => if (bytes m i ((m.rs a).toNat / 2 ^ 32)).any m.spoiled.contains then some i else none
  match met with
  | some i => onWord (fun _ m => .flt (m.parityLog m.cur (m.pcOf (cxPart (m.job (m.str i).job).cx) (m.str i).sel.lc)) { code := .ecc }) s
  | none => frozenOp ftcInspect b (some d) 0 f s
/-- FRD. -/
def execFrd (d a b : R) (s : State) : Ans :=
  frozenRead d a b (fun m i it => if it < 0x20 && (m.str i).sel.cls == .scalar then (List.range 8).map (fun j => (Loc.scalar i it, j)) else []) (fun _ m h => match m.frozenStream h (m.rs a) with
    | none => badItem
    | some i => (m.frdItem i ((m.rs a).toNat / 2 ^ 32)).map (fun v => (m, v))) s
/-- FWR. -/
def execFwr (d a b : R) (s : State) : Ans :=
  frozenOp ftcPatch b none 0 (fun _ m h => match m.frozenStream h (m.rs a) with
    | none => badItem
    | some i => (m.fwrItem i ((m.rs a).toNat / 2 ^ 32) (m.rs d)).map (fun m => (m, 0))) s
/-- FRDV (R419). -/
def execFrdv (d a b : R) (s : State) : Ans :=
  frozenRead d a b (fun m i it => match wregOf (m.str i).sel (it % 256) with
    | some (w, n) => if fld it 8 8 != 0 || n ≤ it / 2 ^ 16 then [] else (List.range 8).map (fun j => (w.loc (m.ccOf i), 8 * (it / 2 ^ 16) + j))
    | none => []) (fun _ m h => match m.frozenStream h (m.rs a) with
    | none => badItem
    | some i =>
      let it := (m.rs a).toNat / 2 ^ 32
      match wregOf (m.str i).sel (it % 256) with
      | none => badItem
      | some (w, n) => if fld it 8 8 != 0 || n ≤ it / 2 ^ 16 then badItem
        else .ok (m, wget ((m.cct (m.ccOf i)).wreg w) (it / 2 ^ 16))) s
/-- FWRV (R419): M0 cannot be written. -/
def execFwrv (d a b : R) (s : State) : Ans :=
  frozenOp ftcPatch b none 0 (fun _ m h => match m.frozenStream h (m.rs a) with
    | none => badItem
    | some i =>
      let it := (m.rs a).toNat / 2 ^ 32
      match wregOf (m.str i).sel (it % 256) with
      | none => badItem
      | some (w, n) => if fld it 8 8 != 0 || n ≤ it / 2 ^ 16 || it % 256 == 0x80 then badItem
        else
          let cc := m.ccOf i
          let code := it % 256
          let sel := (m.str i).sel
          let m := { m with pend := m.pend.filterMap (fun (p : Pend) => p.spare cc sel.unit sel.col code) }
          let b8 := 8 * (it / 2 ^ 16)
          .ok ((m.modCct cc (fun c => c.setWreg w (wset (c.wreg w) (it / 2 ^ 16) (m.rs d)))).mend (w.loc cc) (fun b => b8 ≤ b && b < b8 + 8), 0)) s
/-- FTAB (R420). -/
def execFtab (d a b : R) (s : State) : Ans :=
  frozenOp ftcInspect b (some d) 0 (fun _ m h => match m.frozenStream h (m.rs a) with
    | none => badItem
    | some i =>
      let it := (m.rs a).toNat / 2 ^ 32
      let st := m.str i
      if it == 0 then .ok (m, st.estat (m.job st.job).jobid)
      else if it == 1 then .ok (m, wd st.base)
      else if it == 2 then .ok (m, wd st.len)
      else if it ≤ 6 then .ok (m, wd ((List.range 8).foldl (fun a j =>
        let x := m.fifoOf i (8 * (it - 3) + j)
        a + (if x.owner.isSome then x.count else 0) * 256 ^ j) 0))
      else badItem) s
/-- FSTAT (R420). -/
def execFstat (d a b : R) (s : State) : Ans :=
  frozenOp ftcInspect b (some d) 0 (fun _ m h =>
    let v := (m.rs a).toNat
    if (m.frec h).size ≤ v then badItem else .ok (m, (m.frec h).wordAt v)) s
/-- FRESUME (R421). -/
def execFresume (b : R) (s : State) : Ans := frozenOp ftcResume b none 1 (fun _ m _ => .ok (m, 0)) s
/-- FKILL (R423). -/
def execFkill (b : R) (s : State) : Ans := frozenOp ftcKill b none 2 (fun _ m _ => .ok (m, 0)) s

/-- FROZEN_STATE_REPLY (R415, R421, R423, R424): the resume or kill performs, Sd is written, and the ranger goes on. A ranger that
is itself frozen keeps its word. -/
def execFrozenStateReply (s : State) : Ans :=
  onMach (fun now m =>
    let sid := m.arg 0
    match (m.str sid).hold with
    | .frozen d v act h =>
      if (m.str sid).state == .frozen then m else
      let r := m.frec h
      let live := r.live && (m.job r.job).handle == some h
      if act != 0 && !live then ({ m with cur := sid }.modStr sid (fun s => { s with hold := .none })).takeFreeze now sid { code := .capFault }
      else
        let m := if act == 1 then m.resumeJob now r.job else if act == 2 then m.killJob now r.job else m
        m.replyReg now sid (d.getD 0) v
    | _ => m) s

/-! ### Rangers (R407 to R413) -/

/-- Seats of a die in the order they are tried: the one the faulting stream's cluster hosts, then ascending (R408). -/
def seatOrder (kind cluster : Nat) : List Nat :=
  let c := max 1 (Config.clusterCount kind)
  let l := [0, 1, 2, 3]
  l.filter (fun k => k % c == cluster % c) ++ l.filter (fun k => k % c != cluster % c)
/-- Whether a seat is free, and its host cluster runs no job of a fixed-timing context (R408). -/
def Mach.seatUsable (m : Mach) (die core k : Nat) : Bool :=
  let kind := die / 8
  let pc := pcKey kind (die % 8) (k % max 1 (Config.clusterCount kind)) core
  (sget? (m.die die).seats (core * 4 + k)).isNone
    && !m.streams.any (fun s => !s.2.isRanger && s.2.state != .idle && (m.job s.2.job).fixed && ((m.job s.2.job).phase == .running || (m.job s.2.job).phase == .halting)
        && m.pcOf (cxPart (m.job s.2.job).cx) s.2.sel.lc == pc)

/-- A ranger started in a seat for a record (R409). -/
def Mach.spawn (m : Mach) (now die core k h : Nat) : Mach :=
  let r := m.frec h
  match (m.ctx r.cx).pool with
  | none => m.killDomain now h
  | some (_, va, len, sp) =>
    let kind := die / 8
    let sel : Sel := { kind := kind, ldie := r.sel.ldie, cluster := k % max 1 (Config.clusterCount kind), cls := .scalar }
    let (jid, m) := m.newId
    let (sid, m) := m.newId
    let m := m.setJob jid { cx := r.cx, jobid := 0xFFFF, rcb := (m.ctx r.cx).rcb, phase := .running }
    let m := m.runClk now jid sel.lc
    let regs : SMap Word := [(1, r.ftc h), (2, r.wordAt 0), (3, wd r.flt.fva), (4, wd r.sel.word), (30, wd sp)]
    let m := m.setStr sid { job := jid, sel := sel, state := .running, base := va, len := len, regs := regs.filter (fun p => p.2 != 0),
                            snap := m.homes, lastIssue := m.jobCyc now jid sel.lc,
                            ranger := some { handle := h, die := die, seat := core * 4 + k, spawn := now, second := r.tries != 0 } }
    let m := m.startQueue sid
    let m := m.modDie die (fun d => { d with seats := sset d.seats (core * 4 + k) sid })
    (m.modRec h (fun r => { r with ranger := some sid, tries := r.tries + 1 })).at (now + 10000000 * Config.tick) .rangerTimeout [sid, 0]

/-- Room in a die's queue may let the firmware pool of each partition move an escalated record back (R411). -/
def Mach.poolRoom (m : Mach) (now : Nat) : Mach :=
  (skeys m.parts).foldl (fun m p => if (m.part p).escalated.isEmpty then m else m.at now .poolReturn [p, 0]) m
/-- RANGER_SPAWN (R408, R411): the oldest pending record of a die gets the first free, usable seat. -/
def execRangerSpawn (s : State) : Ans :=
  onMach (fun now m =>
    let die := m.arg 0
    match (m.die die).queue with
    | [] => m
    | h :: rest =>
      let r := m.frec h
      if !r.live then ((m.modDie die (fun d => { d with queue := rest })).at now .rangerSpawn m.ev).poolRoom now
      else if (m.ctx r.cx).pool.isNone then
        (((m.modDie die (fun d => { d with queue := rest })).killDomain now h).at now .rangerSpawn m.ev).poolRoom now
      else match (seatOrder (die / 8) r.cluster).find? (fun k => m.seatUsable die r.core k) with
        | none => m
        | some k =>
          let m := (m.modDie die (fun d => { d with queue := rest })).spawn now die r.core k h
          let m := if rest.isEmpty then m else m.at now .rangerSpawn [die, (m.frec (rest.headD 0)).core]
          m.poolRoom now) s

/-- A ranger over: its seat is free, and a job still frozen by its record has no recovery left (R409, R413). -/
def Mach.rangerOver (m : Mach) (now sid : Nat) (status : Nat) : Mach :=
  match (m.str sid).ranger with
  | none => m
  | some i =>
    let job := (m.str sid).job
    let m := m.modDie i.die (fun d => { d with seats := sdel d.seats i.seat })
    let m := m.jobGone now job status
    let m := m.at now .rangerSpawn [i.die, i.seat / 4]
    let r := m.frec i.handle
    if r.live && r.ranger == some sid && (m.job r.job).handle == some i.handle then m.killDomain now i.handle else m

/-- RANGER_TIMEOUT (R409): a ranger halted (operand 1), or still running 10 ms after its spawn. -/
def execRangerTimeout (s : State) : Ans :=
  onMach (fun now m =>
    let sid := m.arg 0
    let st := m.str sid
    if !st.isRanger then m
    else if m.arg 1 == 1 then (if st.state == .waitRdv then m.rangerOver now sid 2 else m)
    else if st.state == .frozen then m
    else m.rangerOver now sid 3) s

/-- POOL_RETURN (R411, R412): the firmware pool moves its oldest escalated record back as room allows; with operand 1 it serves a
NESTED record: the frozen ranger is killed, and a fresh one is spawned for the original record, once. -/
def execPoolReturn (s : State) : Ans :=
  onMach (fun now m =>
    let part := m.arg 0
    if m.arg 1 == 1 then
      let h := m.arg 2
      let r := m.frec h
      match (m.str r.primary).ranger with
      | none => m
      | some i =>
        let m := m.modRec h (fun r => { r with live := false })
        let m := m.modRec i.handle (fun r => { r with ranger := none })
        let m := m.rangerOver now r.primary 3
        if !(m.frec i.handle).live then m
        else if i.second then m.killDomain now i.handle
        else (m.modDie i.die (fun d => { d with queue := i.handle :: d.queue })).at now .rangerSpawn [i.die, i.seat / 4]
    else
      let esc := (m.part part).escalated
      if 256 < esc.length then (m.modPart part (fun p => { p with escalated := esc.dropLast })).killDomain now (esc.getLastD 0)
      else match esc.find? (fun h => (m.die (m.frec h).die).queue.length < 16) with
        | none => m
        | some h =>
          let m := m.modPart part (fun p => { p with escalated := esc.filter (· != h) })
          if !(m.frec h).live then m.at now .poolReturn [part, 0] else
          let m := m.modRec h (fun r => { r with code := r.flt.code.num, cause := r.flt.cause })
          let r := m.frec h
          ((m.modDie r.die (fun d => { d with queue := d.queue ++ [h] })).at now .rangerSpawn [r.die, r.core]).at now .poolReturn [part, 0]) s

/-! ### Events (R425 to R427) -/

/-- Bytes of an event (R426). -/
def Event.bytes (e : Event) : List Byte := leBytes 8 e.w0 ++ leBytes 8 e.w1 ++ leBytes 8 e.w2 ++ leBytes 8 e.w3

/-- EVENT_POST (R425): the IOD writes its oldest event of a partition into the ring; room gained lets a die post its block. -/
def execEventPost (s : State) : Ans :=
  onMach (fun now m =>
    let part := m.arg 0
    let p := m.part part
    let m := match p.evheld with
      | [] => m
      | e :: rest =>
        if !p.evRoom then m else
        let ring := hostKey (p.evbase.toNat / 4096 * 4096 + 32 * (p.evtail % p.evSize))
        let m := { m with homes := homeWrite m.homes ring e.bytes }
        let m := (m.modPart part (fun p => { p with evheld := rest, evtail := (p.evtail + 1) % p.evSize })).fullEdge part
        if rest.isEmpty then m else m.at now .eventPost [part]
    if !(m.part part).evFull && m.dies.any (fun d => d.2.waits part) then m.at now .eventBackpressure [part] else m) s

/-- The package time of a die's oldest waiting event of a partition (R427). -/
def Die.waitsFrom (d : Die) (part : Nat) : Nat := match d.window.find? (fun w => w.1 == part) with | some w => w.2.w3 | none => 0
/-- EVENT_BACKPRESSURE (R427): the die with the oldest waiting event posts its block: a type 1 event with the count, the waiting
events, and a type 2 event when its window overflowed. -/
def execEventBackpressure (s : State) : Ans :=
  onMach (fun now m =>
    let part := m.arg 0
    let p := m.part part
    match (m.dies.filter (fun d => d.2.waits part)).foldl (fun (a : Option (Nat × Die)) d => match a with
        | none => some d
        | some x => if d.2.waitsFrom part < x.2.waitsFrom part then some d else a) none with
    | none => m
    | some (dk, d) =>
      let mine := (d.window.filter (fun w => w.1 == part)).map (fun w => w.2)
      let t := now / Config.tick
      let first : Event := { w0 := 0x41 * 2 ^ 56 + 2 ^ 44, w1 := 0, w2 := mine.length, w3 := t }
      let n := sget d.lost part 0
      let last : List Event :=
        if n == 0 then [] else [{ w0 := 0x41 * 2 ^ 56 + sget d.lostCode part 0 * 2 ^ 48 + 2 * 2 ^ 44, w1 := 0, w2 := n, w3 := t }]
      let block := first :: mine ++ last
      if 64 < p.evheld.length + block.length then m
      else
        let m := m.modDie dk (fun d => { d with window := d.window.filter (fun w => w.1 != part), lost := sdel d.lost part, lostCode := sdel d.lostCode part })
        ((m.modPart part (fun p => { p with evheld := p.evheld ++ block })).fullEdge part).at now .eventPost [part]) s

end Sys2Proof.Machine
end

