-- ==== Sys2Proof/Machine/Hamper.lean ====
section
/-! DEFINITION. Hampers: the coding of a context's image on a cluster (R434, R435, R437) and the halves of its area (R432, R433). -/

namespace Sys2Proof.Machine

/-! ### The coding of an item's body (R435) -/

/-- Maximal groups of equal words: (word, count). -/
def wordGroups : List Nat → List (Nat × Nat)
  | [] => []
  | w :: t => match wordGroups t with
    | (v, n) :: r => if v == w then (v, n + 1) :: r else (w, 1) :: (v, n) :: r
    | [] => [(w, 1)]

/-- A literal run of words. -/
def literalRun (ws : List Nat) : List Nat := if ws.isEmpty then [] else ws.length :: ws

/-- Groups as runs; `lit` holds the words of the literal run under way, newest first. -/
def codeGroups : List (Nat × Nat) → List Nat → List Nat
  | [], lit => literalRun lit.reverse
  | (w, n) :: t, lit =>
    if n == 1 then codeGroups t (w :: lit)
    else literalRun lit.reverse ++ (if w == 0 then [2 ^ 62 + n] else [2 ^ 63 + n, w]) ++ codeGroups t []

/-- The coded body of an item: its runs, or one literal run where they would be longer than the raw words and one header. -/
def codeBody (ws : List Nat) : List Nat :=
  let c := codeGroups (wordGroups ws) []
  if ws.length + 1 < c.length then literalRun ws else c

/-- `n` raw words from coded words, and the rest; none where a run is broken. -/
def decodeBody : Nat → Nat → List Nat → Option (List Nat × List Nat)
  | _, 0, l => some ([], l)
  | 0, _, _ => none
  | _, _, [] => none
  | fuel + 1, n, h :: t =>
    let k := h % 2 ^ 32
    if fld h 32 30 != 0 || k == 0 || n < k then none
    else match h / 2 ^ 62 with
      | 0 => if t.length < k then none else
          (decodeBody fuel (n - k) (t.drop k)).map (fun r => (t.take k ++ r.1, r.2))
      | 1 => (decodeBody fuel (n - k) t).map (fun r => (List.replicate k 0 ++ r.1, r.2))
      | 2 => (decodeBody fuel (n - k) t.tail).map (fun r => (List.replicate k (t.headD 0) ++ r.1, r.2))
      | _ => none

/-- An item: its identifier and raw words (R434). -/
abbrev Item := Nat × List Nat
/-- An item with its header, coded (R434, R435). -/
def codeItem (i : Item) : List Nat := (i.1 * 2 ^ 48 + 8 * i.2.length) :: codeBody i.2
/-- The items of a coded image, or none for a broken one. -/
def decodeItems : Nat → List Nat → Option (List Item)
  | _, [] => some []
  | 0, _ => none
  | fuel + 1, h :: t =>
    let raw := h % 2 ^ 48
    if raw % 8 != 0 then none
    else match decodeBody (raw / 8 + 1) (raw / 8) t with
      | none => none
      | some (ws, r) => (decodeItems fuel r).map (fun l => (h / 2 ^ 48, ws) :: l)

/-! ### What an image holds (R434, R437); the raw layouts the spec does not give are the model's own (log 40) -/

/-- Words of a wide register. -/
def wideWords (n : Nat) (w : Wide) : List Nat := (List.range n).map (fun i => (wget w i).toNat)
def wideOf (ws : List Nat) : Wide := (ws.mapIdx (fun i w => (i, wd w))).filter (fun p => p.2 != 0)

/-- A tile's raw words: its bytes, then SG, MIDR and the scale store (R434). -/
def Tile.words (t : Tile) : List Nat :=
  wideWords 16384 t.bytes ++ [t.sg, b2n t.midr] ++ t.scales.flatMap (fun s => [s.1, s.2])
/-- Pairs of consecutive words. -/
def pairsOf : List Nat → List (Nat × Nat)
  | a :: b :: t => (a, b) :: pairsOf t
  | _ => []
def Tile.ofWords (ws : List Nat) : Tile :=
  { bytes := wideOf (ws.take 16384), sg := ws.getD 16384 0, midr := ws.getD 16385 0 == 1, scales := pairsOf (ws.drop 16386) }

/-- The save block of a strip (R437), 17 KiB. -/
def stripWords (estat smode base len : Nat) (s : Strip) : List Nat :=
  let port := fun (p : Nat) => sget s.ports p []
  let occ := (List.range 16).foldl (fun a p => a + min (port p).length 2 * 4 ^ p) 0
  let pk := fun (i : Nat) => (port (i / 2))[i % 2]?
  [estat, smode, base, len, s.epoch, occ] ++ List.replicate 26 0
    ++ ((List.range 32).flatMap (fun i => match pk i with | some x => [x.dst, x.idx + 2 ^ 32 * x.hops] | none => [0, 0])) ++ List.replicate 32 0
    ++ ((List.range 32).flatMap (fun i => match pk i with
        | some x => (List.range 64).map (fun j => leNat ((x.data.drop (8 * j)).take 8))
        | none => List.replicate 64 0))

/-- The strip of a save block, or none where a reserved field is not 0 or an OCC count is 3 (R437). -/
def stripOf (ws : List Nat) : Option Strip :=
  let w := fun (i : Nat) => ws.getD i 0
  let n := fun (p : Nat) => fld (w 5) (2 * p) 2
  if w 3 / 2 ^ 24 != 0 || w 4 / 16 != 0 || w 5 / 2 ^ 32 != 0 || ((ws.drop 6).take 26).any (· != 0)
      || (List.range 16).any (fun p => n p == 3) then none
  else some {
    epoch := w 4
    ports := (List.range 16).filterMap (fun p => if n p == 0 then none else some (p, (List.range (n p)).map (fun q =>
      { dst := w (32 + 2 * (2 * p + q)), idx := w (33 + 2 * (2 * p + q)) % 2 ^ 32, hops := w (33 + 2 * (2 * p + q)) / 2 ^ 32,
        data := (List.range 64).flatMap (fun j => leBytes 8 (w (128 + 64 * (2 * p + q) + j))) }))) }

/-- Streams of a context on a logical cluster, rangers apart. -/
def Mach.ccStreams (m : Mach) (cx lc : Nat) : List Nat :=
  (m.streams.filter (fun s => (m.job s.2.job).cx == cx && s.2.sel.lc == lc && !s.2.isRanger && s.2.state != .idle)).map (·.1)

/-- The home of byte 0 of chunk `i` of a cluster's local stores. -/
def chunkHome (part lc i : Nat) : Nat :=
  homeKey part ((if lcKind lc == 0 then 0xF1 * 2 ^ 48 + lcDie lc * 2 ^ 26 + lcCluster lc * 2 ^ 23
    else 0xF2 * 2 ^ 48 + lcDie lc * 2 ^ 27 + lcCluster lc * 2 ^ 23) + 4096 * i)

/-- The items of a context on a cluster (R434): every register the context has written there, and its dirty chunks. -/
def Mach.imageItems (m : Mach) (cx lc : Nat) : List Item :=
  let c := m.cct (ccKey cx lc)
  let ids := m.ccStreams cx lc
  let sc := match ids.find? (fun i => (m.str i).sel.cls == .scalar) with
    | none => []
    | some i =>
      let s := m.str i
      [(0, (List.range 32).map (fun r => (s.rd (BitVec.ofNat 5 r)).toNat) ++ [s.fq0.word.toNat, s.fq1.word.toNat, s.fq2.word.toNat])]
  let strip := c.strips.map (fun (p : Nat × Strip) =>
    let st := match ids.find? (fun i => (m.str i).sel.cls == .strip && (m.str i).sel.unit == p.1) with
      | some i => m.str i
      | none => {}
    (0x5000 + p.1, stripWords (st.estat (m.job st.job).jobid).toNat (c.creg (0x1A0 + p.1)).toNat st.base st.len p.2))
  let log := m.ctx cx
  sc ++ c.vregs.map (fun p => (0x1000 + p.1 / 64 * 256 + 0x40 + p.1 % 64, wideWords 64 p.2))
    ++ c.masks.map (fun p => (0x1000 + p.1 / 8 * 256 + 0x80 + p.1 % 8, wideWords 16 p.2))
    ++ c.tiles.map (fun p => (0x1000 + p.1 / 16 * 256 + 0x10 + p.1 % 16, p.2.words))
    ++ c.acc.map (fun p => (0x1000 + p.1 / 4 * 256 + 0x20 + p.1 % 4, wideWords 16384 p.2))
    ++ c.twin.map (fun p => (0x1000 + p.1 / 4 * 256 + 0xA0 + p.1 % 4, wideWords 16384 p.2))
    -- with the dictionary bank of each stream (R126)
    ++ [(0x2000, c.cregs.flatMap (fun p => [p.1, p.2.toNat]) ++ ids.flatMap (fun i => [2 ^ 32 + (m.str i).sel.word, (m.str i).dbank]))]
    ++ c.dirty.map (fun i => (0x3000 + i, (List.range 512).map (fun j =>
        leNat (homeRead m.homes (chunkHome (cxPart cx) lc i + 8 * j) 8))))
    ++ c.dictWritten.map (fun b => (0x4000 + b, (List.range 256).flatMap (fun e =>
        let v := sget c.dict (b / 4 * 1024 + b % 4 * 256 + e) 0
        [v % 2 ^ 64, v / 2 ^ 64])))
    ++ strip
    ++ [(0x6000, (List.range 32).map (fun f => (sget c.fifos f {}).count + 256 * (sget c.fifos f {}).pend) ++ [log.rfstat.toNat]
        ++ (List.range 64).map (fun i => (log.rfword (i / 4) (i % 4)).toNat))]
    ++ c.cols.map (fun p => (0x7000 + p.1, wideWords 64 p.2))

/-- An item put back (R431); none where a save block is broken. The reduction-fault log stays where it is. -/
def Mach.restoreItem (m : Mach) (cx lc : Nat) (it : Item) : Option Mach :=
  let cc := ccKey cx lc
  let id := it.1
  let n := id % 4096
  let ws := it.2
  match id / 4096 with
  | 0 => match (m.ccStreams cx lc).find? (fun i => (m.str i).sel.cls == .scalar) with
    | none => some m
    | some i =>
      let regs := ((ws.take 32).mapIdx (fun k v => (k, wd v))).filter (fun p => p.1 != 0 && p.2 != 0)
      some ((m.modStr i (fun s => { s with regs := regs, fq0 := .ofWord (ws.getD 32 0), fq1 := .ofWord (ws.getD 33 0),
                                           fq2 := .ofWord (ws.getD 34 0) })).refetch i false)
  | 1 =>
    let u := n / 256
    let r := n % 256
    some (m.modCct cc (fun c =>
      if 0x10 ≤ r && r < 0x20 then { c with tiles := sset c.tiles (u * 16 + (r - 0x10)) (.ofWords ws) }
      else if 0x20 ≤ r && r < 0x24 then { c with acc := sset c.acc (u * 4 + (r - 0x20)) (wideOf ws) }
      else if 0xA0 ≤ r && r < 0xA4 then { c with twin := sset c.twin (u * 4 + (r - 0xA0)) (wideOf ws) }
      else if 0x40 ≤ r && r < 0x80 then { c with vregs := sset c.vregs (u * 64 + (r - 0x40)) (wideOf ws) }
      else { c with masks := sset c.masks (u * 8 + (r - 0x80)) (wideOf ws) }))
  | 2 =>
    let (bk, cr) := (pairsOf ws).partition (fun p => 2 ^ 32 ≤ p.1)
    let m := m.modCct cc (fun c => { c with cregs := cr.map (fun p => (p.1, wd p.2)) })
    some ((m.ccStreams cx lc).foldl (fun m i => m.modStr i (fun s => match bk.find? (fun b => b.1 == 2 ^ 32 + s.sel.word) with
      | some b => { s with dbank := b.2 % 4 }
      | none => s)) m)
  | 3 => some { m with homes := homeWrite m.homes (chunkHome (cxPart cx) lc n) (ws.flatMap (fun w => leBytes 8 w)) }
  | 4 => some (m.modCct cc (fun c => { c with dict := (pairsOf ws).zipIdx.foldl (fun (d : SMap Nat) p =>
      sset d (n / 4 * 1024 + n % 4 * 256 + p.2) (p.1.1 + 2 ^ 64 * p.1.2)) c.dict }))
  | 5 => match stripOf ws with
    | none => none
    | some s =>
      let m := m.modCct cc (fun c => ({ c with strips := sset c.strips n s } : Cctx).setCreg (0x1A0 + n) (wd (ws.getD 1 8)))
      match (m.ccStreams cx lc).find? (fun i => (m.str i).sel.cls == .strip && (m.str i).sel.unit == n) with
      | some i => some (m.modStr i (fun s => { s with base := ws.getD 2 0, len := ws.getD 3 0, dbank := fld (ws.getD 0 0) 30 2 }))
      | none => some m
  | 6 => some (m.modCct cc (fun c => { c with fifos := c.fifos.map (fun (p : Nat × Fifo) => (p.1, { p.2 with count := ws.getD p.1 0 % 256, pend := ws.getD p.1 0 / 256 })) }))
  | _ => some (m.modCct cc (fun c => { c with cols := sset c.cols n (wideOf ws) }))

/-- A context's registers on a cluster at their reset values, as a first bind finds them (R433). -/
def Cctx.toReset (c : Cctx) : Cctx :=
  { c with cregs := [], dict := [], dictWritten := [], vregs := [], cols := [], masks := [], tiles := [], acc := [], twin := [],
           strips := [], dirty := [] }

/-! ### The hamper area (R432, R433) -/

/-- Slot of a cluster in its partition's hamper areas (R432). -/
def Part.hamperSlot (p : Part) (lc : Nat) : Nat :=
  ((List.range (lcKind lc)).map (fun k => p.lcount k * Config.clusterCount k)).sum + lcDie lc * Config.clusterCount (lcKind lc) + lcCluster lc

/-- The home of a byte of a hamper area, by the translations kept since HAMPER_SET (R432). -/
def Mach.hamperHome (m : Mach) (cx va : Nat) : Option Nat :=
  match tlbFind (m.ctx cx).hpages cx va with
  | none => none
  | some t => match m.pageOf cx va { rd := true, wr := true } t with
    | .ok p => some (p.home 0)
    | .error _ => none

/-- A word of a hamper area read, or none where it cannot be read (R440). -/
def Mach.hamperWord (m : Mach) (cx va : Nat) : Option Nat :=
  match m.hamperHome cx va with
  | some h => if badIn m.homes h 8 then none else some (leNat (homeRead m.homes h 8))
  | none => none
/-- Words written into a hamper area. -/
def Mach.hamperPut (m : Mach) (cx : Nat) : Nat → List Nat → Option Mach
  | _, [] => some m
  | va, w :: t => match m.hamperHome cx va with
    | some h => { m with homes := homeWrite m.homes h (leBytes 8 w) }.hamperPut cx (va + 8) t
    | none => none
def Mach.hamperGet (m : Mach) (cx : Nat) : Nat → Nat → Option (List Nat)
  | _, 0 => some []
  | va, n + 1 => match m.hamperWord cx va with
    | some w => (m.hamperGet cx (va + 8) n).map (fun l => w :: l)
    | none => none

/-- Word 1 of a hamper header (R433). -/
def hamperName (cx lc : Nat) : Nat := cx % 64 * 2 ^ 58 + lcKind lc * 2 ^ 55 + lcDie lc * 2 ^ 51 + lcCluster lc * 2 ^ 47
/-- A half's header: GEN and coded length, where the header is valid (R433). -/
def Mach.hamperHeader (m : Mach) (cx lc va : Nat) : Option (Nat × Nat) :=
  match m.hamperGet cx va 8 with
  | some [w0, w1, w2, 0, 0, 0, 0, 0] =>
    if w0 / 2 ^ 32 == 0x48414D50 && w1 == hamperName cx lc && w2 % 8 == 0 && w2 + 64 ≤ 2 ^ 24 then some (w0 % 2 ^ 32, w2) else none
  | _ => none

/-- The half that holds the newest valid hamper: (half, GEN, coded length); GEN compares in modular order (R433). -/
def Mach.newestHalf (m : Mach) (cx lc base : Nat) : Option (Nat × Nat × Nat) :=
  match m.hamperHeader cx lc base, m.hamperHeader cx lc (base + 2 ^ 24) with
  | some (g, l), none => some (0, g, l)
  | none, some (g, l) => some (1, g, l)
  | some (g, l), some (g', l') => if (g + 2 ^ 32 - g') % 2 ^ 32 < 2 ^ 31 then some (0, g, l) else some (1, g', l')
  | none, none => none

/-- Items of the newest hamper: none where an image stands that cannot be read or decoded. -/
def Mach.hamperItems (m : Mach) (cx lc base : Nat) : Option (List Item) :=
  match m.newestHalf cx lc base with
  | none => some []
  | some (h, _, l) => match m.hamperGet cx (base + h * 2 ^ 24 + 64) (l / 8) with
    | none => none
    | some ws => decodeItems (l / 8 + 1) ws

/-- Ticks that a copy of some bytes of image between a cluster and its context's hamper area takes at least, at the path rates of R308, with the
strips' blocks at 2 bytes per ns (R431, R437). -/
def Mach.imageTicks (m : Mach) (cx lc bytes strips : Nat) : Nat :=
  let host := match (m.ctx cx).hamper with
    | some (va, _) => (match m.hamperHome cx (va + 2 ^ 25 * (m.part (cxPart cx)).hamperSlot lc) with | some h => isHost h | none => false)
    | none => false
  let rate := if host then (if m.hostWidth == 8 then 50 else 100) else 1600
  (ceilDiv bytes rate + strips * 8704) * Config.tick
/-- Whether a register or a dirty chunk of a context on a cluster cannot be read for a save: its parity or its ECC word is bad (R80, R440). -/
def Mach.saveBad (m : Mach) (cx lc : Nat) : Bool :=
  (m.cct (ccKey cx lc)).dirty.any (fun i => badIn m.homes (chunkHome (cxPart cx) lc i) 4096)
    || m.spoiled.any (fun x => match x.1 with
      | .scalar i _ => (m.ccStreams cx lc).contains i
      | l => l.cc == some (ccKey cx lc))
/-- The homes of the words of a cluster's hamper area that a save or a restore reads: both headers, and the newest image (R433). -/
def Mach.hamperHomes (m : Mach) (cx lc base : Nat) : List Nat :=
  let n := match m.newestHalf cx lc base with | some (_, _, l) => l / 8 | none => 0
  let half := match m.newestHalf cx lc base with | some (h, _, _) => h | none => 0
  (List.range 8 ++ (List.range 8).map (· + 2 ^ 21) ++ (List.range n).map (· + (half * 2 ^ 21 + 8))).filterMap (fun i =>
    m.hamperHome cx (base + 8 * i))
/-- The contained event of a save or a restore that met a bad word (R440), or of a save that met a bad register (R80, R438, R441). -/
def Mach.imageLog (m : Mach) (cx lc : Nat) (save : Bool) : Mach :=
  let pc := m.pcOf (cxPart cx) lc
  let chunk := if save then ((m.cct (ccKey cx lc)).dirty.map (chunkHome (cxPart cx) lc)).find? (fun h => badIn m.homes h 4096) else none
  match chunk with
  | some h => m.badLog cx (firstBad m.homes h 4096)
  | none =>
    if save && m.saveBad cx lc then
      (m.mcLog (pcDie pc) 2 (mcStatus 2 0 0x32 (cxPart cx) (cx % 64) 1 (pcCluster pc) 0 0) 0 0).retireMark pc
    else match (m.ctx cx).hamper with
      | none => m
      | some (va, _) =>
        match (m.hamperHomes cx lc (va + 2 ^ 25 * (m.part (cxPart cx)).hamperSlot lc)).find? (fun h => badIn m.homes h 8) with
        | some h => m.badLog cx h
        | none => m
/-- The words with one wrong bit among the dirty chunks that a save reads, and among the words of the hamper area, corrected (R80). -/
def Mach.saveSoft (m : Mach) (cx lc base : Nat) : Mach :=
  let chunks := (m.cct (ccKey cx lc)).dirty.map (chunkHome (cxPart cx) lc)
  if m.homes.weak.isEmpty then m else
  let hs := m.hamperHomes cx lc base
  m.softWords cx (fun w => chunks.any (fun b => b ≤ 16 * w && 16 * w < b + 4096) || hs.any (fun h => h / 16 == w))

/-- A spill: the items that stand on the cluster, and the clean items of the current half that the cluster does not list, written
into the other half; the header last (R431, R433, R434). -/
def Mach.writeHamper (m : Mach) (cx lc : Nat) (header : Bool) : Option Mach :=
  match (m.ctx cx).hamper with
  | none => none
  | some (va, _) =>
    let base := va + 2 ^ 25 * (m.part (cxPart cx)).hamperSlot lc
    if m.saveBad cx lc then none else
    let m := m.saveSoft cx lc base
    match m.hamperItems cx lc base with
    | none => none
    | some old =>
      let now := m.imageItems cx lc
      let all := sortOn (·.1) (now ++ old.filter (fun o => now.all (fun n => n.1 != o.1)))
      let ws := all.flatMap codeItem
      let (h, g) := match m.newestHalf cx lc base with
        | some (h, g, _) => (1 - h, (g + 1) % 2 ^ 32)
        | none => (0, 1)
      match m.hamperPut cx (base + h * 2 ^ 24 + 64) ws with
      | none => none
      | some m => if header then
          m.hamperPut cx (base + h * 2 ^ 24) [0x48414D50 * 2 ^ 32 + g, hamperName cx lc, 8 * ws.length, 0, 0, 0, 0, 0]
        else some m

end Sys2Proof.Machine
end

