-- ==== Sys2Proof/Machine/Sched.lean ====
section
/-! DEFINITION. Scheduling, thermos swaps, energy, rails, heat and power (R348 to R369, R429, R430), translation pauses (R380),
and carriers at a reconfiguration (R16, R19, R23). -/

namespace Sys2Proof.Machine

/-! ### Clocks that stop (R354, R356) -/

/-- A clock that has stopped runs again at a tick, unless another cause still stops it. -/
def PClu.go (c : PClu) (now : Nat) : PClu :=
  if c.stretch || c.switching || c.relock then c else { c with cycBase := c.cycBase + (c.stretchFrom - c.tickBase) / c.period, tickBase := now }

/-- DROOP (R354, R355): the detector counts; an elastic clock that is not pinned stretches. -/
def execDroop (s : State) : Ans :=
  onMach (fun now m => m.modPcl (m.arg 0) (fun c =>
    let c := { c with droops := min (c.droops + 1) 0xFFFF }
    let fixed := match c.active with | some cx => (m.ctx cx).fixed | none => false
    if fixed || c.pinned then c else { c.halt now with stretch := true })) s
/-- DROOP_END (R354). -/
def execDroopEnd (s : State) : Ans :=
  onMach (fun now m => m.modPcl (m.arg 0) (fun c => if c.stretch then ({ c with stretch := false } : PClu).go now else c)) s

/-- A rail switch ordered (R356): the clock stops, and the switch ends within 20 ns. -/
def Mach.railSwitch (m : Mach) (now pc : Nat) (low : Bool) : Mach :=
  if (m.pcl pc).low == low then m else
  (m.modPcl pc (fun c => { c.halt now with switching := true })).after now (20 * Config.tick) .railSwitchDone [pc, b2n low]
/-- RAIL_SWITCH_DONE (R356). -/
def execRailSwitchDone (s : State) : Ans :=
  onMach (fun now m => m.modPcl (m.arg 0) (fun c =>
    let c := ({ c with switching := false } : PClu).go now
    let fixed := c.pinned || (match c.active with | some cx => (m.ctx cx).fixed | none => false)
    ({ c with low := m.arg 1 == 1 } : PClu).setMode now fixed)) s

/-- CLOCK_RELOCK_DONE (R356): the clock runs in the incoming context's mode, and its streams may issue. -/
def execClockRelockDone (s : State) : Ans :=
  onMach (fun now m => m.modPcl (m.arg 0) (fun c =>
    let fixed := match c.active with | some cx => (m.ctx cx).fixed | none => false
    let c := ({ c with relock := false } : PClu).go now
    let c := if fixed then { c with low := false } else c
    { c.setMode now fixed with swapping := false })) s

/-! ### Swaps end (R429, R430, R436) -/

/-- Streams of a context on a cluster that a YIELD holds go on: their region holds a slot again (R341). -/
def Mach.endYield (m : Mach) (now cx pc : Nat) : Mach :=
  (m.streamsAt cx pc).foldl (fun m i => if (m.str i).hold == .yield && (m.str i).state == .running then
    ({ m with cur := i } : Mach).retire now else m) m

/-- THERMOS_SWAP_END (R429, R356): the incoming streams refresh and issue, after a relock when the modes differ. -/
def execThermosSwapEnd (s : State) : Ans :=
  onMach (fun now m =>
    let pc := m.arg 0
    let c := m.pcl pc
    let fixed := match c.active with | some cx => (m.ctx cx).fixed | none => false
    let m := match c.active with
      | some cx => (m.modStreams (m.streamsAt cx pc) (fun s => { s with snap := m.homes })).endYield now cx pc
      | none => m
    -- after a partition swap the command reports the last resume, and an elastic context has the pin released (R436)
    let m := match m.parts.find? (fun p => match p.2.swap with | some (_, _, l) => l.contains pc | none => false) with
      | none => m
      | some (part, p) => match p.swap with
        | some (pidx, st, l) =>
          let l := l.filter (· != pc)
          let m := if l.isEmpty then (m.modPart part (fun p => { p with swap := none })).adminDone now part pidx 0 (now / Config.tick)
            else m.modPart part (fun p => { p with swap := some (pidx, st, l) })
          if fixed then m.modPcl pc (fun c => { c with pinned := false })
          else m.after now (20 * Config.tick + Config.fixedPeriod) .pinRelease [pc]
        | none => m
    let per := if fixed then Config.fixedPeriod else if c.low then Config.lowPeriod else Config.elasticPeriod
    -- a launch may have waited for the thermos bank that the swap has emptied
    let m := if c.bank.isNone then m.retryWaiting now else m
    if c.period == per || c.pinned then m.modPcl pc (fun c => { c with swapping := false })
    else (m.modPcl pc (fun c => { c.halt now with relock := true })).after now (20 * Config.tick + Config.fixedPeriod) .clockRelockDone [pc]) s

/-- PIN_RELEASE (R436): the pinned clock returns to the elastic clock. -/
def execPinRelease (s : State) : Ans :=
  onMach (fun now m => m.modPcl (m.arg 0) (fun c => { c.setMode now false with pinned := false })) s

/-! ### Slots (R349 to R352) -/

/-- A region ready on a cluster: (context, RCB, runs fixed-timing). A running fixed-timing job keeps its region ready on each of its clusters
until its rendezvous or a freeze, whatever its streams there wait for (R351). -/
def Mach.readyRegion (m : Mach) (pc cx : Nat) : Option (Nat × Nat × Bool) :=
  let ids := m.streamsAt cx pc
  match m.jobs.find? (fun j => j.2.cx == cx && j.2.fixed && (j.2.phase == .running || j.2.phase == .halting)
      && j.2.lcs.any (fun lc => m.pcOf (cxPart cx) lc == pc)) with
  | some j => some (cx, j.2.rcb, true)
  | none => match ids.find? (fun i => let t := (m.str i).state
      !(t == .idle || t == .done || t == .waitRdv || t == .stopped || t == .frozen)) with
  | none => none
  | some i =>
    let j := m.job (m.str i).job
    if (m.rcbOf cx j.rcb).held then none else some (cx, j.rcb, false)

/-- Reserved slots left of a region on a cluster (R348). -/
def Mach.leftOf (m : Mach) (pc cx rcb : Nat) : Nat :=
  match (m.die (pcDie pc)).binds.find? (fun b => b.2.part == cxPart cx && b.2.ctx == cx % 64 && b.2.rcb == rcb && bitOf b.2.clmask (pcCluster pc)) with
  | some b => sget b.2.left (pcCluster pc) b.2.resv
  | none => 0

/-- The turns of the levels that a slot does not go to by turn (R349): the holder of the slot has held one more, another's slots are no longer
consecutive, and one that has left the pool has lost its turn. -/
def passTurns (turns : SMap (Nat × Nat × Nat)) (pool : List (Nat × Nat)) (win : Option (Nat × Nat)) : SMap (Nat × Nat × Nat) :=
  turns.map (fun (t : Nat × Nat × Nat × Nat) =>
    let h := (t.2.1, t.2.2.1)
    (t.1, h.1, h.2, if win == some h then min 16 (t.2.2.2 + 1) else if pool.contains h then 0 else 16))

/-- The choice of R349: the winner, and every level's turn holder after it. -/
def Mach.chooseSlot (m : Mach) (pc : Nat) : Option (Nat × Nat) × SMap (Nat × Nat × Nat) :=
  let c := m.pcl pc
  let ready := (c.active.toList ++ c.bank.toList).filterMap (m.readyRegion pc)
  let cand := ready.filter (fun r => r.2.2 || (!c.yielded.contains r.1 && (m.part (cxPart r.1)).swap.isNone))
  let owed := cand.filter (fun r => 0 < m.leftOf pc r.1 r.2.1)
  let spare := cand.filter (fun r => !m.withheld.contains (cxPart r.1))
  let pool := if owed.isEmpty then spare else owed
  let mine := pool.map (fun r => (r.1, r.2.1))
  match cand.find? (fun r => r.2.2) with
  | some r => (some (r.1, r.2.1), passTurns c.turns mine (some (r.1, r.2.1)))
  | none =>
    let lvl := pool.foldl (fun a r => max a (m.effPrio r.1 r.2.1)) 0
    let top := mine.filter (fun r => m.effPrio r.1 r.2 == lvl)
    let turns := passTurns c.turns mine none
    if top.isEmpty then (none, turns)
    else
      let lt := fun (a b : Nat × Nat) => a.1 < b.1 || (a.1 == b.1 && a.2 < b.2)
      let least := fun (l : List (Nat × Nat)) => l.foldl (fun (a : Option (Nat × Nat)) x => match a with
        | none => some x
        | some y => if lt x y then some x else a) none
      let nextAfter := fun (h : Nat × Nat) => ((least (top.filter (fun x => lt h x))).orElse (fun _ => least top)).getD h
      match sget? c.turns lvl with
      | some (a, b, n) =>
        if top.contains (a, b) && n < 16 then (some (a, b), sset turns lvl (a, b, n + 1))
        else
          let w := nextAfter (a, b)
          (some w, sset turns lvl (w.1, w.2, 1))
      | none =>
        let w := (least top).getD (0, 0)
        (some w, sset turns lvl (w.1, w.2, 1))

/-- A slot charged to every budget holder of a region (R34, R351). -/
def Mach.chargeSlot (m : Mach) (r : Nat × Nat) : Mach :=
  (m.chain r.1 8 r.2).foldl (fun m v => m.modRcb r.1 v (fun x =>
    if !x.ovr 0 then x
    else if x.slots < fld (x.w 0) 16 9 then { x with slots := x.slots + 1 } else { x with debt := min (x.debt + 1) 0xFFFF })) m

/-- One reserved slot of a region on a cluster used (R349). -/
def Mach.useLeft (m : Mach) (pc : Nat) (r : Nat × Nat) : Mach :=
  m.modDie (pcDie pc) (fun d => { d with binds := d.binds.map (fun (b : Nat × Bind) =>
    if b.2.part == cxPart r.1 && b.2.ctx == r.1 % 64 && b.2.rcb == r.2 && bitOf b.2.clmask (pcCluster pc) then
      (b.1, { b.2 with left := sset b.2.left (pcCluster pc) (sget b.2.left (pcCluster pc) b.2.resv - 1) }) else b) })

/-- One cluster chooses its slot: the winner runs, from the thermos bank by a swap, whose slots are its own; a YIELD held there ends
when its region holds
the slot again (R341, R349, R350). -/
def Mach.clusterSlot (m : Mach) (now pc : Nat) : Mach :=
  let c := m.pcl pc
  if c.testing || c.retired then m else
  if c.swapping || c.relock then
    match c.slot with
    | some r => (m.modPcl pc (fun c => { c with turns := c.turns.map (fun (t : Nat × Nat × Nat × Nat) =>
        if t.1 == m.effPrio r.1 r.2 && t.2.1 == r.1 && t.2.2.1 == r.2 then (t.1, t.2.1, t.2.2.1, t.2.2.2 + 1) else t) })).useLeft pc r
    | none => m
  else
  let (win, turns) := m.chooseSlot pc
  let m := m.modPcl pc (fun c => { c with slot := win, turns := turns })
  match win with
  | none => m
  | some (cx, rcb) =>
    let m := m.useLeft pc (cx, rcb)
    if c.active == some cx then
      let m := if c.occOn then m else m.modPcl pc (fun c => { c with occOn := true, occFrom := now })
      m.endYield now cx pc
    -- PUBLs of the outgoing context complete before it is saved (R275)
    else if (match c.active with | some a => m.publs.any (fun p => (m.streamsAt a pc).contains p.sid) | none => false) then m
    else m.thermosSwap now pc

/-- SLOT_BOUNDARY (R349): every cluster chooses, and each region that holds a slot is charged once for it (log 22). With operands
(1, cluster) the rest of a slot given up by a YIELD is handed out. -/
def execSlotBoundary (s : State) : Ans :=
  onMach (fun now m =>
    let one := m.arg 0 == 1
    let pcs := if one then [m.arg 1] else skeys m.pcs
    let m := if one then m else { m with pcs := m.pcs.map (fun (p : Nat × PClu) => (p.1, { p.2 with yielded := [] })) }
    let m := pcs.foldl (fun m pc => m.clusterSlot now pc) m
    let winners := (pcs.filterMap (fun pc => (m.pcl pc).slot)).eraseDups
    let m := winners.foldl (fun m r => m.chargeSlot r) m
    (winners.map (fun r => r.1)).eraseDups.foldl (fun m cx => m.updateHeld cx) m) s

/-- Clusters on which a context is resident, as physical keys. -/
def Mach.residentOn (m : Mach) (cx : Nat) : List Nat :=
  (m.pcs.filter (fun p => p.2.active == some cx || p.2.bank == some cx)).map (·.1)
/-- Context-cluster keys of a context that stand on a cluster where it is resident. -/
def Mach.residentCcs (m : Mach) (cx : Nat) : List Nat :=
  let on := m.residentOn cx
  (m.ccs.filter (fun c => ccCx c.1 == cx && on.contains (m.pcOf (cxPart cx) (ccLc c.1)))).map (·.1)

/-- The charges of some of a context's clusters that no fold has taken yet, added to its total (R363). -/
def Mach.foldSum (m : Mach) (cx : Nat) (src : List Nat) : Mach :=
  let sum := src.foldl (fun a k => a + ((m.cct k).eclPj - (m.cct k).folded)) 0
  let sat := src.any (fun k => (m.cct k).esat)
  m.modCtx cx (fun c =>
    let t := c.ecnt + sum
    { c with ecnt := min t (2 ^ 48 - 1), esat := c.esat || sat || 2 ^ 48 - 1 < t })
/-- A context's total on its way to every cluster where it is resident, with each cluster's own part of what was folded (R363). -/
def Mach.sendTotal (m : Mach) (now cx : Nat) (part : Nat → Nat) : Mach :=
  let tot := (m.ctx cx).ecnt
  let st := b2n (m.ctx cx).esat
  (m.residentCcs cx).foldl (fun m k =>
    (m.modCct k (fun c => { c with folded := c.folded + part k })).after now (1000 * Config.tick) .foldArrival [k, tot, part k, st]) m
/-- Charges of some of a context's clusters folded into its total, and the new total on its way to every cluster of it (R363). -/
def Mach.fold (m : Mach) (now cx : Nat) (src : List Nat) : Mach :=
  (m.foldSum cx src).sendTotal now cx (fun k => if src.contains k then (m.cct k).eclPj - (m.cct k).folded else 0)
/-- What was charged to images that leave their clusters folded at once: their ECL.EPJ reads 0, and nothing of it is subtracted again when a
total on its way arrives; DFRAC and SRES travel with the image (R363). -/
def Mach.takeOut (m : Mach) (cx : Nat) (src : List Nat) : Mach :=
  let m := m.foldSum cx src
  let m := src.foldl (fun (m : Mach) k => m.modCct k (fun c => { c with eclPj := 0, folded := 0 })) m
  { m with agenda := m.agenda.map (fun (e : Nat × Instr × List Nat) => match e with
    | (t, .foldArrival, k :: tot :: amt :: r) => (t, .foldArrival, k :: tot :: (if src.contains k then 0 else amt) :: r)
    | e => e) }
/-- An image that leaves or has left its cluster folded, and the new total sent to every cluster where the context is then resident (R363). -/
def Mach.foldOut (m : Mach) (now cx : Nat) (src : List Nat) : Mach := (m.takeOut cx src).sendTotal now cx (fun _ => 0)

/-- The cycle of a cluster in which an effect due at a tick is first seen: the one after the first that starts at or after it (R449). -/
def PClu.seenFrom (c : PClu) (now : Nat) : Nat := c.cycle now + (if c.tickOf (c.cycle now) == now then 1 else 2)
/-- An event that takes effect on a cluster at the end of its first cycle that starts at or after now (R449): it is put off to that cycle's end
with the cycle in its operands, and taken there. A cluster whose clock stands or that has another place by then is asked again, or takes it. -/
def Mach.atCycleEnd (m : Mach) (now pc : Nat) (e : Instr) (a : List Nat) (mark : Nat) (act : Mach → Mach) : Mach :=
  let c := m.pcl pc
  if mark == 0 then
    let k := c.seenFrom now
    m.at (max (now + 1) (c.tickOf k)) e (a ++ [k + 1, pc])
  else if m.arg (a.length + 1) == pc && c.cycle now + 1 < mark then m.at (max (now + Config.fixedPeriod) (c.tickOf (mark - 1))) e m.ev
  else act m

/-- FOLD_ARRIVAL (R363): the copy, FSEQ and the cluster's own part change in one cycle, at the end of the first that starts at or after the
arrival (R449). -/
def execFoldArrival (s : State) : Ans :=
  onMach (fun now m =>
    let k := m.arg 0
    m.atCycleEnd now (m.pcOf (cxPart (ccCx k)) (ccLc k)) .foldArrival [k, m.arg 1, m.arg 2, m.arg 3] (m.arg 4) (fun m =>
      m.modCct k (fun c => { c with
        ecnt := m.arg 1, fseq := (c.fseq + 1) % 2 ^ 15, eclPj := c.eclPj - m.arg 2, folded := c.folded - m.arg 2,
        ecntSat := c.ecntSat || m.arg 3 == 1 }))) s

/-- PERIOD_BOUNDARY (R34, R37, R348, R351, R363): new allowances, debts first; updates apply; energies fold. -/
def execPeriodBoundary (s : State) : Ans :=
  onMach (fun now m =>
    let m := { m with
      ctxs := m.ctxs.map (fun (c : Nat × Context) => (c.1, { c.2 with rcbs := c.2.rcbs.map (fun (r : Nat × Rcb) =>
        let x := match r.2.next with | some w => { r.2 with words := w, next := none } | none => r.2
        let used := min x.debt (fld (x.w 0) 16 9)
        (r.1, { x with slots := used, debt := x.debt - used, energy := 0 })) })) }
    let m := { m with dies := m.dies.map (fun (d : Nat × Die) => (d.1, { d.2 with binds := d.2.binds.map (fun (b : Nat × Bind) => (b.1, { b.2 with left := [] })) })) }
    let m := (skeys m.ctxs).foldl (fun m cx => m.updateHeld cx) m
    (skeys m.ctxs).foldl (fun m cx => m.fold now cx (m.residentCcs cx)) m) s

/-- The static charge of a context-cluster for some ns of residency on a cluster (R362). -/
def Cctx.chargeStatic (c : Cctx) (sest ns : Nat) : Cctx :=
  let x := sest * ns + c.sres
  { c.chargeQ (16 * (x / 1000)) with sres := x % 1000 }
/-- STATIC_CHARGE (R362): every occupant of the last 1000 ns is charged for its residency, in ECL at the end of the cluster's first cycle that starts
at or after the boundary (R449). With operands it is that charge: (1 + context-cluster, ns, region, cycle, cluster). The region is that
of the context's first stream there (log 109). -/
def execStaticCharge (s : State) : Ans :=
  onMach (fun now m =>
    if m.arg 0 == 0 then (skeys m.pcs).foldl (fun m pc =>
      let c := (m.pcl pc).occupy now (m.pcl pc).active
      let on := (m.pcl pc).occOn
      let m := m.modPcl pc (fun _ => { c with occ := [], occOn := on })
      c.occ.foldl (fun m o =>
        match (m.ccs.map (·.1)).find? (fun k => ccCx k == o.1 && m.pcOf (cxPart o.1) (ccLc k) == pc) with
        | none => m
        | some k =>
          let rcb := match (m.streamsAt o.1 pc).head? with | some i => (m.job (m.str i).job).rcb | none => (m.ctx o.1).rcb
          m.atCycleEnd now pc .staticCharge [k + 1, o.2, rcb] 0 id) m) m
    else
      let k := m.arg 0 - 1
      let sest := (Config.sest (m.arg 4)).toNat
      m.atCycleEnd now (m.pcOf (cxPart (ccCx k)) (ccLc k)) .staticCharge [m.arg 0, m.arg 1, m.arg 2] (m.arg 3) (fun m =>
        (m.modCct k (fun c => c.chargeStatic sest (m.arg 1))).chargeRegion (ccCx k) (m.arg 2) (16 * sest * m.arg 1))) s

/-- ENERGY_GATHER (R364): region charges are gathered, and caps enforced. -/
def execEnergyGather (s : State) : Ans :=
  onMach (fun _ m => (skeys m.ctxs).foldl (fun m cx =>
    let m := (skeys (m.ctx cx).rcbs).foldl (fun m va =>
      let e := (m.rcbOf cx va).chg
      if e == 0 then m else
      (m.chain cx 8 va).foldl (fun m v => m.modRcb cx v (fun x => if x.ovr 3 then { x with energy := x.energy + e } else x))
        (m.modRcb cx va (fun x => { x with chg := 0 }))) m
    m.updateHeld cx) m) s

/-! ### Power and heat (R365 to R369) -/

/-- The cluster with an extreme temperature among some, ties to the lower key. -/
def Mach.hottest (m : Mach) (l : List Nat) : Option Nat :=
  l.foldl (fun (a : Option Nat) pc => match a with
    | none => some pc
    | some x => if (m.pcl x).temp < (m.pcl pc).temp then some pc else a) none
def Mach.coolest (m : Mach) (l : List Nat) : Option Nat :=
  l.foldl (fun (a : Option Nat) pc => match a with
    | none => some pc
    | some x => if (m.pcl pc).temp < (m.pcl x).temp then some pc else a) none
/-- Whether firmware may select the low rail on a cluster (R356). -/
def Mach.elasticHigh (m : Mach) (pc : Nat) : Bool :=
  let c := m.pcl pc
  let fx := fun (o : Option Nat) => match o with | some cx => (m.ctx cx).fixed | none => false
  !c.low && !fx c.active && !fx c.bank && !c.pinned && !c.switching && c.active.isSome

/-- GOVERNOR_TICK (R365, R367): the averages are measured, and the governor takes or undoes one step. -/
def execGovernorTick (s : State) : Ans :=
  onMach (fun now m =>
    let (i, m) := m.draw
    let (k, m) := m.draw
    let (b, m) := m.draw
    let m := { m with pnow := (Config.idlePower i).toNat, pidle := (Config.idlePower k).toNat }
    let cap := max m.pcap m.pidle
    -- partitions that draw more than their floors: as measured
    let big := (skeys m.parts).filter (fun p => bitOf (Config.freeWord b).toNat p)
    if cap < m.pnow then
      match m.hottest ((skeys m.pcs).filter m.elasticHigh) with
      | some pc => { m with gov := (2 ^ 16 + pc) :: m.gov }.railSwitch now pc true
      | none =>
        if !m.gov.contains 1 then { m with gov := 1 :: m.gov, withheld := m.withheld ++ big }
        else if !m.gov.contains 2 then { m with gov := 2 :: m.gov, withheld := m.withheld ++ big.map (8 + ·) }
        else m
    else if m.pnow * 100 < cap * 95 then
      match m.gov with
      | [] => m
      | g :: rest =>
        let m := { m with gov := rest }
        if g == 1 then { m with withheld := m.withheld.filter (fun p => 8 ≤ p) }
        else if g == 2 then ({ m with withheld := m.withheld.filter (fun p => p < 8) } : Mach).retryWaiting now
        else m.railSwitch now (g - 2 ^ 16) false
    else m) s

/-- Logical clusters of a context whose state stands on a cluster. -/
def Mach.lcsOn (m : Mach) (cx pc : Nat) : List Nat :=
  ((m.ccs.filter (fun k => ccCx k.1 == cx && m.pcOf (cxPart cx) (ccLc k.1) == pc)).map (fun k => ccLc k.1)).eraseDups
/-- A cluster's place taken by another of its die: what R16 places on the one stands on the other from now on, and the other way round, but
that nothing comes to a cluster that is retired or has a retired array (R368, R441, log 110). -/
def Mach.exchange (m : Mach) (pc target : Nat) : Mach :=
  let c := m.pcl pc
  let on := fun (q : Nat) => allClusters.filter (fun d => sget m.moves d d == q)
  let mv := (on pc).foldl (fun (v : SMap Nat) d => sset v d target) m.moves
  { m with moves := if c.retired || c.arrayRetired then mv else (on target).foldl (fun v d => sset v d pc) mv }

/-- The resident work of a cluster moved to another of its die (R368, R441): both banks, and every logical cluster they hold. -/
def Mach.moveWork (m : Mach) (now pc target : Nat) : Mach :=
  let c := m.pcl pc
  let cxs := c.active.toList ++ c.bank.toList
  let m := cxs.foldl (fun m cx => (m.stopWords now (m.streamsAt cx pc)).drainNow now (m.streamsAt cx pc)) m
  let t := m.pcl target
  -- the spill engine writes the hampers that the move reads (R431); an absent area moves its context without one
  let m := cxs.foldl (fun m cx => (m.lcsOn cx pc).foldl (fun m lc =>
    if m.hamperOk cx then (m.writeHamper cx lc true).getD m else m) m) m
  -- the image leaves the cluster, and what it was charged there folds at once (R363)
  let m := cxs.foldl (fun m cx => m.foldOut now cx ((m.lcsOn cx pc).map (ccKey cx))) m
  -- job clocks go on from the cycle they stood at, on the new cluster's counter (R402)
  let m := { m with jobs := m.jobs.map (fun (j : Nat × Job) =>
    (j.1, { j.2 with clk := j.2.clk.map (fun (k : Nat × JClk) =>
      if m.pcOf (cxPart j.2.cx) k.1 == pc then (k.1, { k.2 with origin := k.2.origin + (t.cycle now : Int) - (c.cycle now : Int) }) else k) })) }
  let m := m.exchange pc target
  let m := m.modPcl pc (fun c => { c.occupy now none with bank := none, slot := none, shed := true })
  let fixed := match c.active with | some cx => (m.ctx cx).fixed | none => false
  let m := m.modPcl target (fun t => { (({ t with low := t.low && !fixed } : PClu).setMode now fixed).occupy now c.active with
    bank := c.bank, movedAt := some now, occOn := false })
  (m.at (now + 10000000 * Config.tick) .shedExpire [pc]).retryWaiting now

/-- Clusters of the same die and partition core that work may move to (R368). -/
def Mach.eligible (m : Mach) (pc : Nat) (limits : Bool) : List Nat :=
  (m.presentClusters.filter (fun q => pcDie q == pcDie pc && q % 8 == pc % 8)).filter (fun q =>
    let c := m.pcl q
    q != pc && !c.hot && c.active.isNone && c.bank.isNone && !(limits && c.shed) && !c.retired && !c.testing)

/-- Whether a fixed-timing job is under way on a cluster (R368). -/
def Mach.runsFixed (m : Mach) (pc : Nat) : Bool :=
  m.jobs.any (fun j => j.2.fixed && j.2.live && j.2.phase != .waiting && j.2.lcs.any (fun lc => m.pcOf (cxPart j.2.cx) lc == pc))

/-- HOT_RAIL_STEP (R369): on a die whose every cluster is hot the hottest elastic one steps down; cooled ones return, coolest first. -/
def execHotRailStep (s : State) : Ans :=
  onMach (fun now m => (m.presentClusters.map pcDie).eraseDups.foldl (fun m dk =>
    let mine := m.presentClusters.filter (fun p => pcDie p == dk)
    if mine.all (fun p => (m.pcl p).hot) then
      match m.hottest (mine.filter m.elasticHigh) with
      | some pc => (m.modPcl pc (fun c => { c with thermLow := true })).railSwitch now pc true
      | none => m
    else match m.coolest (mine.filter (fun p => (m.pcl p).thermLow && !(m.pcl p).hot)) with
      | some pc => (m.modPcl pc (fun c => { c with thermLow := false })).railSwitch now pc false
      | none => m) (m.retryWaiting now)) s

/-- SHED_EXPIRE (R357). -/
def execShedExpire (s : State) : Ans := onMach (fun _ m => m.modPcl (m.arg 0) (fun c => { c with shed := false })) s

/-! ### Translation walks and pauses (R377, R380) -/

/-- TRANSLATION_WALK (R377 to R379): a miss of (stream, address, write) walks the tables and fills both levels, or faults. -/
def execTranslationWalk (s : State) : Ans :=
  onMach (fun now m => match m.xlat (m.arg 0) (m.arg 1) { wr := m.arg 2 == 1 } with
    | .ok (m, _) => { m with miss := false }
    | .error f => m.takeFreeze now (m.arg 0) f) s

/-- TRANSLATION_PAUSE_START (R380): every cluster of a fixed-timing job stops. -/
def execTranslationPauseStart (s : State) : Ans :=
  onMach (fun now m =>
    let job := m.arg 0
    let j := m.job job
    if j.phase != .running || !j.fixed || j.window then m else
    let m := m.modJob job (fun j => { j with pauses := j.pauses + 1 })
    let m := if j.pauses == 0 then (m.clustersOf job).foldl (fun m lc => m.stopClk now job lc) m else m
    m.after now 0 .translationPauseEnd [job]) s
/-- TRANSLATION_PAUSE_END (R380): the clusters resume together once every awaited translation is in its L1. -/
def execTranslationPauseEnd (s : State) : Ans :=
  onMach (fun now m =>
    let job := m.arg 0
    let j := m.job job
    let m := m.modJob job (fun j => { j with pauses := j.pauses - 1 })
    if j.pauses == 1 && j.phase == .running then (m.clustersOf job).foldl (fun m lc => m.runClk now job lc) m else m) s

/-! ### Carriers (R16, R19, R23, R395) -/

/-- Live owned dies of a kind, ascending (R16); of a switch die the partition owns strips (R15). -/
def Mach.liveOwned (m : Mach) (p : Part) (k : Nat) : List Nat :=
  (List.range 8).filter (fun i => bitOf (p.own.getD k 0) i && !(m.die (dieKey k i)).retired && (m.die (dieKey k i)).boot == .present
    && (k != 4 || p.strips.getD i 0 != 0))

/-- A headcount word (R17). -/
def Mach.headcount (m : Mach) (p : Part) (k : Nat) : Word :=
  let s := m.liveOwned p k
  let n := s.length
  let foldable := k == 0 || k == 1 || k == 3
  let l := if n == 0 then 0 else if foldable then p.counts.getD k 0 else n
  let pc := min n (p.counts.getD k 0)
  let fold := (List.range l).foldl (fun a i => a + s.getD (if foldable then i % n else i) 0 * 8 ^ i) 0
  let bitsOf := fun (f : Die → Bool) => (List.range (Config.dieCount k)).foldl (fun a i => a + (if f (m.die (dieKey k i)) then 2 ^ i else 0)) 0
  wd (l * 2 ^ 52 + pc * 2 ^ 48 + fold * 2 ^ 24 + p.own.getD k 0 * 2 ^ 16 + bitsOf (fun d => d.retired) * 2 ^ 8
    + bitsOf (fun d => d.boot == .present))

/-- Bytes of one extra share's images: of its local stores in buffer SRAM, of its state in HBM4E (R23). -/
def imageSize (k : Nat) : Nat × Nat :=
  if k == 0 then (64 * 2 ^ 20, 64 * 2 ^ 20) else if k == 1 then (96 * 2 ^ 20, 96 * 2 ^ 20) else (0, 32 * 2 ^ 20)
/-- Extra shares of a kind (R23). -/
def Mach.extraShares (m : Mach) (p : Part) (k : Nat) : Nat := p.counts.getD k 0 - min (p.counts.getD k 0) (m.liveOwned p k).length
/-- The kinds whose images fit, in the order in which they are reserved, each with the buffer SRAM and HBM4E that those before it take. -/
def Mach.foldPlan (m : Mach) (p : Part) : List (Nat × Nat × Nat) :=
  let nb := (m.liveOwned p 2).length
  ([0, 1, 3].foldl (fun (a : List (Nat × Nat × Nat) × Nat × Nat) k =>
    let n := m.extraShares p k
    let us := a.2.1 + n * (imageSize k).1
    let uh := a.2.2 + n * (imageSize k).2
    if !(m.liveOwned p k).isEmpty && us ≤ nb * 2 ^ 29 && uh ≤ nb * 2 ^ 37 then (a.1 ++ [(k, a.2.1, a.2.2)], us, uh) else a) ([], 0, 0)).1

/-- Fold images of R23: space withdrawn from the top of the windows downward, kind by kind, and kinds that do not fit. -/
def Mach.foldImages (m : Mach) (p : Part) : List (Nat × Nat) × List Nat :=
  let nb := (m.liveOwned p 2).length
  let plan := m.foldPlan p
  let us := (plan.map (fun x => m.extraShares p x.1 * (imageSize x.1).1)).sum
  let uh := (plan.map (fun x => m.extraShares p x.1 * (imageSize x.1).2)).sum
  ((if us == 0 then [] else [(0xF0 * 2 ^ 48 + nb * 2 ^ 29 - us, us)]) ++ (if uh == 0 then [] else [(nb * 2 ^ 37 - uh, uh)]),
    [0, 1, 3].filter (fun k => !(m.liveOwned p k).isEmpty && plan.all (fun x => x.1 != k)))

/-- RECONFIGURATION (R19): once no segment of the partition runs, carriers are reassigned, GEN counts a change of LCOUNT, PCOUNT, FOLD or
OWN (R17; where none of them changes GEN stands, log 84), and held launches are checked in the order of their arrival. -/
def Mach.reassign (m : Mach) (part : Nat) : Mach :=
  let p := m.part part
  let hc := (List.range 5).map (m.headcount p)
  let key := fun (w : Word) => (w.toNat / 2 ^ 24, fld w.toNat 16 8)
  let changed := (List.range 5).any (fun k => key (hc.getD k 0) != key (p.hc.getD k 0))
  let (wdr, no) := m.foldImages p
  let hold := fun (l : Launch) => { l with held := true }
  m.modPart part (fun p => { p with hc := hc, gen := (if changed then (p.gen + 1) % 2 ^ 32 else p.gen), rcpend := false, withdrawn := wdr,
                                    nofold := no, images := if changed then [] else p.images, held := p.held.map hold, armed := p.armed.map hold
                                    queues := p.queues.map (fun (q : Nat × Queue) => (q.1, { q.2 with valid := q.2.valid.map hold })) })

def execReconfiguration (s : State) : Ans :=
  onMach (fun now m =>
    let part := m.arg 0
    let p := m.part part
    if !p.rcpend || m.segmentsRun part then m
    else (m.reassign part).at now .launchDispatch [part]) s

/-- Fixed-timing jobs with a stream on a retired unit are killed (R441). -/
def Mach.killFixedOn (m : Mach) (now : Nat) (unit : Sel → Nat → Bool) : Mach :=
  (m.jobs.filter (fun j => j.2.live && j.2.fixed && m.streams.any (fun s =>
    s.2.job == j.1 && !s.2.isRanger && unit s.2.sel (m.pcOf (cxPart j.2.cx) s.2.sel.lc)))).foldl (fun m j => m.killJob now j.1) m

/-- The code of the contained event that took a die, as a bank of it tells; else that of a link (R26, R428, log 85). -/
def Mach.containedCode (m : Mach) (dk : Nat) : FCode :=
  match (m.die dk).banks.find? (fun b => b.2.status.toNat / 2 ^ 63 == 1 && 2 ≤ fld b.2.status.toNat 60 2) with
  | some b => (([.residue, .ecc, .link] : List FCode).find? (fun c => c.num == fld b.2.status.toNat 48 8)).getD .link
  | none => .link

/-- The segments of a partition that use gather dies freeze as it loses the last of them, so that no running stream sees UNIT_ABSENT from
the loss (R26). -/
def Mach.loseGather (m : Mach) (now part dk : Nat) : Mach :=
  if dk / 8 != 3 || !(m.liveOwned (m.part part) 3).isEmpty then m else
  (m.jobs.filter (fun j => cxPart j.2.cx == part && j.2.phase == .running && j.2.shares.any (fun s => s.sel.kind == 3))).foldl (fun m j =>
    match (m.streamsOf j.1).find? (fun i => (m.str i).sel.kind == 3) with
    | some i => m.takeFreeze now i { code := m.containedCode dk }
    | none => m) m

/-- One die retired (R18, R19, R441): fixed-timing jobs on it are killed, its bit shows at once, and each owner's reconfiguration is
pending. -/
def Mach.retireOne (m : Mach) (now dk : Nat) : Mach :=
  if (m.die dk).retired then m else
  let m := (m.modDie dk (fun d => { d with retired := true })).killFixedOn now (fun _ pc => pcDie pc == dk)
  (skeys m.parts).foldl (fun m part =>
    let p := m.part part
    let k := dk / 8
    let m := m.modPart part (fun p => { p with hc := p.hc.set k (p.hc.getD k 0 ||| wd (2 ^ (8 + dk % 8))) })
    if bitOf (p.own.getD k 0) (dk % 8) then
      ((m.modPart part (fun p => { p with rcpend := true })).loseGather now part dk).tryReconfig now part
    else m) m

/-- A die retired, and with a switch die every compute die that no live switch die reaches any more (R12). -/
def Mach.retireDie (m : Mach) (now dk : Nat) : Mach :=
  let m := m.retireOne now dk
  if dk / 8 != 4 then m else
  ([0, 1, 2, 3].flatMap (fun k => (List.range (Config.dieCount k)).map (dieKey k))).foldl (fun m d =>
    if (m.die d).boot == .present && (m.liveSwitches d).isEmpty then m.retireOne now d else m) m

/-- Whether a launch waits for a cluster, or a context stands there. -/
def Mach.wanted (m : Mach) (pc : Nat) : Bool :=
  (m.pcl pc).active.isSome || (m.pcl pc).bank.isSome
    || m.jobs.any (fun j => j.2.live && j.2.toPrime.any (fun lc => m.pcOf (cxPart j.2.cx) lc == pc))
/-- A cluster retired by a contained event (R441): fixed-timing jobs on it are killed and its work moves; without an eligible cluster for
work that stands or waits there the die retires. -/
def Mach.retireCluster (m : Mach) (now pc : Nat) : Mach :=
  let m := (m.modPcl pc (fun c => { c with retired := true, retiring := false })).killFixedOn now (fun _ p => p == pc)
  match m.coolest (m.eligible pc false) with
  | some q => m.moveWork now pc q
  | none => if m.wanted pc then m.retireDie now (pcDie pc) else m

/-- Jobs with a matrix share on a cluster. -/
def Mach.matrixJobs (m : Mach) (pc : Nat) : List Job :=
  (m.jobs.filter (fun j => j.2.live && j.2.shares.any (fun s =>
    s.sel.cls == .matrix && m.pcOf (cxPart j.2.cx) s.sel.lc == pc))).map (·.2)

/-- Matrix work leaves a cluster with a retired array (R441): fixed-timing jobs under way there are killed, the cluster's work moves to
one whose arrays are good, and without an eligible cluster the die retires. -/
def Mach.leaveArray (m : Mach) (now pc : Nat) : Mach :=
  let m := m.killFixedOn now (fun sel p => sel.cls == .matrix && p == pc)
  if (m.matrixJobs pc).isEmpty then m else
  match m.coolest ((m.eligible pc false).filter (fun q => !(m.pcl q).arrayRetired)) with
  | some q => m.moveWork now pc q
  | none => m.retireDie now (pcDie pc)

/-- What contained and corrected events have retired leaves (R441): a die that a second contained event or 256 corrected ones of a unit have
ended, and the work of a cluster or an array. -/
def Mach.retirements (m : Mach) (now : Nat) : Mach :=
  let m := (skeys m.dies).foldl (fun m dk =>
    if (m.die dk).failing then (m.modDie dk (fun d => { d with failing := false })).retireDie now dk else m) m
  (skeys m.pcs).foldl (fun m pc =>
    let c := m.pcl pc
    if c.retiring || (c.retired && m.wanted pc && !(m.die (pcDie pc)).retired) then m.retireCluster now pc
    else if c.arrayRetired then m.leaveArray now pc else m) m

/-- One cluster's temperature measured, and its hotness judged (R368); one sensor serves the partition cores of a switch die's
cluster (R9). -/
def Mach.sample (m : Mach) (pc : Nat) : Mach :=
  let (t, m) := if pc % 8 == 0 then ((Config.tempAt m.draw.1).toNat, m.draw.2) else ((m.pcl (pc - pc % 8)).temp, m)
  let th := (Config.thot (pc - pc % 8)).toNat
  m.modPcl pc (fun c => { c with temp := t, hot := if c.hot then th ≤ t + 64 else th ≤ t })
/-- A hot cluster sheds its resident work (R368), unless it must stay: for 2 ms after a move, while a fixed-timing job is under way or a PUBL is
outstanding there (R275), and without a hamper area (R432). -/
def Mach.shedHot (m : Mach) (now pc : Nat) : Mach :=
  let c := m.pcl pc
  let cxs := c.active.toList ++ c.bank.toList
  let soon : Bool := match c.movedAt with | some t => decide (now < t + 2000000 * Config.tick) | none => false
  if !c.hot || cxs.isEmpty || c.swapping || c.relock || soon || m.runsFixed pc || !cxs.all m.hamperOk
      || cxs.any (fun cx => m.publs.any (fun p => (m.streamsAt cx pc).contains p.sid)) then m
  else match m.coolest (m.eligible pc true) with
    | none => m
    | some q => m.moveWork now pc q

/-- THERMAL_SAMPLE (R357, R368): each temperature is measured, hotness is judged, and a cluster that is hot
sheds its work. With operand 1 only what contained events have retired leaves (R441). -/
def execThermalSample (s : State) : Ans :=
  onMach (fun now m =>
    let m := m.retirements now
    if m.arg 0 == 1 then m else
    let m := m.presentClusters.foldl Mach.sample m
    m.presentClusters.foldl (fun m pc => m.shedHot now pc) m) s

end Sys2Proof.Machine
end

