-- ==== Sys2Proof/Machine/Elem.lean ====
section
/-! DEFINITION. Page elements (R78, R149 to R155): containers, bit-planes, block scales, legal pairings, and the checks that the
vector, tile and gather paths make element by element (R207 to R210, R225, R226). -/

namespace Sys2Proof.Machine

/-! ### Page formats (R148, R149, R151) -/

/-- Whether a format is bit-plane, and its planes (R148). -/
def fmtPlane (f : Nat) : Bool := 13 ≤ f && f ≤ 26
def fmtPlanes (f : Nat) : Nat := if f ≤ 19 then f - 11 else f - 18
/-- Container bits of a format (R149); 0 for a bit-plane format. -/
def fmtBits (f : Nat) : Nat :=
  if f == 0 || f == 3 || f == 31 then 32 else if f == 29 then 64 else if f == 1 || f == 2 || f == 30 then 16
  else if f == 8 || f == 11 || f == 12 then 4 else if f == 27 || f == 28 then 2 else if fmtPlane f then 0 else 8
/-- Bytes of a container, as alignment counts them (R208). -/
def fmtBytes (f : Nat) : Nat := max 1 (fmtBits f / 8)
/-- The element type whose own format a page holds (R154), by its signed code where two share it. -/
def fmtType : Nat → Nat
  | 0 => 8 | 29 => 9 | 1 => 10 | 2 => 11 | 3 => 12 | 4 => 13 | 5 => 14 | 6 => 15 | 7 => 16 | 8 => 17 | 9 => 4 | 10 => 5
  | 11 => 6 | 12 => 7 | 30 => 2 | 31 => 0
  | f => if f ≤ 19 then f + 5 else if f ≤ 26 then f + 5 else 32
/-- Whether T is the own type of a format (R154). -/
def ownType (f t : Nat) : Bool := fmtType f == t || (f == 30 && t == 3) || (f == 31 && t == 1)

/-- Legal pairings of a decoding load into a register (R154). -/
def loadPair (f geom t : Nat) : Bool :=
  if f == 27 || f == 28 then false
  else if geom != 0 then t == 8 && 4 ≤ f && f ≤ 26
  else ownType f t || (t == 8 && 1 ≤ f && f ≤ 26)
    || ((f == 9 || f == 11) && (t == 2 || t == 0)) || ((f == 10 || f == 12) && (t == 3 || t == 1))
    || (13 ≤ f && f ≤ 19 && 18 ≤ t && t ≤ f + 5) || (20 ≤ f && f ≤ 26 && 25 ≤ t && t ≤ f + 5)
/-- Legal pairings of an encoding store (R155). -/
def storePair (f t : Nat) : Bool := !fmtPlane f && ownType f t
/-- Legal pairings of a tile load (R154), tile format second. -/
def tilePair (f tf : Nat) : Bool :=
  (1 ≤ f && f ≤ 12 && f == tf) || (f == tf && (f == 27 || f == 28)) || (13 ≤ f && f ≤ 19 && 13 ≤ tf && tf ≤ f)
    || (20 ≤ f && f ≤ 26 && 20 ≤ tf && tf ≤ f)

/-- Offsets of the bytes that hold element `e`, counted from an element boundary, lowest plane or byte first, and the place of
its lowest bit in them (R149, R151). -/
def elemBytes (f : Nat) (e : Int) : List Int × Nat :=
  if fmtPlane f then
    let j : Int := fmtPlanes f
    let base := e / 64 * (8 * j) + e % 64 / 8
    ((List.range (fmtPlanes f)).map (fun (q : Nat) => base + 8 * (q : Int)), (e % 8).toNat)
  else
    let w : Int := fmtBits f
    ((List.range (fmtBytes f)).map (fun (q : Nat) => e * w / 8 + (q : Int)), (e * w % 8).toNat)
/-- Index within its page of an element whose first byte lies at a page offset (R152). -/
def elemIndex (f off bit : Nat) : Nat :=
  if fmtPlane f then
    let j := fmtPlanes f
    off / (8 * j) * 64 + off % (8 * j) % 8 * 8 + bit
  else if fmtBits f == 0 then 0 else (off * 8 + bit) / fmtBits f

/-! ### Values (R150, R152, R153) -/

/-- The value of the first p planes of an 8-bit value (R150). -/
def planeVal (sg midr : Bool) (p v : Nat) : Int :=
  let top := v / 2 ^ (8 - p)
  let val : Int := (if sg then sInt p top else (top % 2 ^ p : Nat)) * (2 ^ (8 - p) : Nat)
  if midr && p < 8 then val + (2 ^ (7 - p) : Nat) else val
/-- Whether a bit-plane format is signed. -/
def fmtSigned (f : Nat) : Bool := f ≤ 19

/-- The scale of a byte (R152). -/
def scaleVal (geom b : Nat) : FV :=
  if geom == 1 then (if b == 0xFF then .nan false else .fin false 1 ((b : Int) - 127)) else e4m3.dec b
/-- Group size of a scaled page (R152). -/
def groupOf (geom : Nat) : Nat := if geom == 1 then 32 else 16

/-- The value of a raw element of a matrix or page format: raw bits of its container, planes most significant first in a byte
(R145, R148, R150). -/
def fmtVal (f : Nat) (midr : Bool) (raw : Nat) : FV :=
  if fmtPlane f then .ofInt (planeVal (fmtSigned f) midr (fmtPlanes f) raw)
  else if f == 27 then .ofInt (sInt 2 raw) else if f == 28 then .ofInt (raw % 4 : Nat)
  else (ETy.of (fmtType f)).val raw

/-! ### Elements in memory -/

/-- An element that passed its checks: its number in the micro-order, its bytes as places on pages with their virtual addresses,
the place of its lowest bit, and its index within its page. -/
structure ElemAt where
  i : Nat
  bytes : List (Nat × Pg)
  bit : Nat
  idx : Nat

/-- An address of a walk over elements: the translated pages seen so far. -/
abbrev PgCache := List (Nat × Pg)

/-- The page of an address, from the pages this micro-order has already translated or by a translation of its own (R210). -/
def Mach.pageAt (m : Mach) (c : PgCache) (va : Nat) (nd : Need) : Except Flt (Mach × PgCache × Pg) :=
  match c.find? (fun p => p.1 ≤ va && va < p.1 + (p.2.room + p.2.off)) with
  | some (b, p) => .ok (m, c, p.shift ((va : Int) - b))
  | none => match m.xlat m.cur va nd with
    | .error f => .error f
    | .ok (m, p) => .ok (m, (va - p.off, p.shift (-(p.off : Int))) :: c, p)

/-- The pages of an element's bytes. -/
def Mach.bytesAt (m : Mach) (c : PgCache) (nd : Need) : List Nat → Except Flt (Mach × PgCache × List (Nat × Pg))
  | [] => .ok (m, c, [])
  | va :: t => match m.pageAt c va nd with
    | .error f => .error f
    | .ok (m, c, p) => match m.bytesAt c nd t with
      | .error f => .error f
      | .ok (m, c, l) => .ok (m, c, (va, p) :: l)

/-- Planes of a bit-plane page that a destination of an element type reads (R151). -/
def planesRead (t : Nat) : Nat := match ETy.of t with | .plane k _ => k | _ => 8
/-- Planes of a bit-plane page that a tile of a format reads (R151). -/
def tilePlanes (f : Nat) : Nat := if fmtPlane f then fmtPlanes f else 8

/-- The element checks of R209, R210 and R226, in ascending order of the list: translation and permissions, target, format. `same`
relates each page to the first element's; of a bit-plane page only the first `pl` planes are reached (R151). -/
def Mach.elems (m : Mach) (ea f pl : Nat) (nd : Need) (pair : Pg → Bool) (same : Pg → Pg → Bool) (c : PgCache) (one : Option Pg) :
    List (Nat × Int) → Except Flt (Mach × List ElemAt)
  | [] => .ok (m, [])
  | (i, pos) :: t =>
    let (offs, bit) := elemBytes f pos
    let vas := (if fmtPlane f then offs.take pl else offs).map (fun o => (((ea : Int) + o) % (2 ^ 64 : Int)).toNat)
    match m.bytesAt c nd vas with
    | .error e => .error e
    | .ok (m, c, bs) =>
      match bs with
      | [] => .ok (m, [])
      | (va, p) :: _ =>
        let o := one.getD p
        if bs.any (fun b => b.2.tgt < 2 || b.2.tgt != o.tgt) then .error { code := .pageProt, fva := va, ptea := p.ptea }
        else if bs.any (fun b => b.2.fmt != f || !pair b.2 || !same o b.2) then
          .error { code := .formatMismatch, fva := va, ptea := p.ptea }
        else match (if nd.rd then bs.find? (fun b => m.pgBad b.2 1) else none) with
        | some b => .error { code := .ecc, fva := va, bad := m.badHome b.2 1 }
        | none =>
        match (if nd.rd then m.soft m.cj.cx (bs.map (fun b => b.2.home 0)) else m).elems ea f pl nd pair same c (some o) t with
          | .error e => .error e
          | .ok (m, l) => .ok (m, { i := i, bytes := bs, bit := bit, idx := elemIndex f p.off bit } :: l)

/-- ea's page, translated with no permission (R207). -/
def Mach.eaPage (m : Mach) (ea : Nat) : Except Flt (Mach × Pg) := m.xlat m.cur ea {}

/-- Alignment of ea to the container of its page's format, and to whole blocks of a bit-plane page for a load (R208). -/
def eaAligned (p : Pg) (ea : Nat) (planes : Bool) : Bool :=
  ea % fmtBytes p.fmt == 0 && !(planes && fmtPlane p.fmt && p.off % (8 * fmtPlanes p.fmt) != 0)

/-- The raw bits of an element as its stream reads it; planes fill a byte from its top (R149, R151). -/
def Mach.elemRaw (m : Mach) (f : Nat) (e : ElemAt) : Nat :=
  let rd := fun (p : Pg) => (m.readByte m.cur .plain (p.pub != 0) (p.home 0)).toNat
  if fmtPlane f then
    (e.bytes.foldl (fun (a : Nat × Nat) b => (a.1 + fld (rd b.2) e.bit 1 * 2 ^ a.2, a.2 - 1)) (0, 7)).1
  else
    let v := leNat (e.bytes.map (fun b => BitVec.ofNat 8 (rd b.2)))
    fld v e.bit (fmtBits f)
/-- The scale byte of an element's group on its page (R152). -/
def Mach.elemScale (m : Mach) (e : ElemAt) : Nat :=
  match e.bytes with
  | [] => 0
  | (_, p) :: _ =>
    let sz := p.room + p.off
    let q := p.shift ((3 * sz / 4 + e.idx / groupOf p.geom : Nat) - (p.off : Int))
    (m.readByte m.cur .plain (q.pub != 0) (q.home 0)).toNat
/-- The geometry and midpoint restore of an element's page. -/
def ElemAt.geom (e : ElemAt) : Nat := match e.bytes with | (_, p) :: _ => p.geom | [] => 0
def ElemAt.midr (e : ElemAt) : Bool := match e.bytes with | (_, p) :: _ => p.midr | [] => false

/-- A raw element of a page as bits of a register type, with its flags (R153, R154). -/
def Mach.elemLoad (m : Mach) (f t : Nat) (e : ElemAt) : Nat × Nat :=
  let raw := m.elemRaw f e
  if t == 8 && e.geom != 0 then f32.enc .rne ((fmtVal f e.midr raw).mul (scaleVal e.geom (m.elemScale e)))
  else if ownType f t && !fmtPlane f then (match ETy.of t with
    | .flt _ k => (raw % 2 ^ (1 + k.eb + k.mb), 0)
    | _ => (raw, 0))
  else match ETy.of t with
    | .plane k sg => (wrapN 8 (planeVal sg e.midr k raw), 0)
    | ty => ty.enc .rne (fmtVal f e.midr raw)

/-! ### Entries of element stores (R209, R212, R460) -/

/-- A page's byte as a place. -/
def Pg.place (p : Pg) (va : Nat) : Place := { va := va, key := p.key, span := p.span, pub := p.pubrid }

/-- Bits put into the entry of their line, later ones over earlier ones; a new line is added behind. -/
def putEntry (es : List SBEnt) (p : Place) (data mask cyc : Nat) (tag : Option Nat) : List SBEnt :=
  let line := p.key - p.key % 64
  let sh := 256 ^ (p.key % 64)
  match es with
  | [] => [{ line := line, data := data * sh, mask := mask * sh, pub := p.pub, cyc := cyc, va := p.va - p.key % 64, span := p.span,
             tag := tag }]
  | e :: t =>
    if e.line == line && e.span == p.span && e.pub == p.pub then
      let keep := e.data - (e.data &&& (mask * sh))
      { e with data := keep + data * sh, mask := e.mask ||| mask * sh } :: t
    else e :: putEntry t p data mask cyc tag

/-- An element's bits put into entries: its container's value, with container bits outside the value written 0 (R149). -/
def putElem (f v cyc : Nat) (tag : Option Nat) (es : List SBEnt) (places : List Place) (bit : Nat) : List SBEnt :=
  if fmtPlane f then
    (places.foldl (fun (a : List SBEnt × Nat) p =>
      (putEntry a.1 p (fld v a.2 1 * 2 ^ bit) (2 ^ bit) cyc tag, a.2 - 1)) (es, 7)).1
  else if fmtBits f < 8 then match places with
    | p :: _ => putEntry es p (v % 2 ^ fmtBits f * 2 ^ bit) ((2 ^ fmtBits f - 1) * 2 ^ bit) cyc tag
    | [] => es
  else (places.foldl (fun (a : List SBEnt × Nat) p => (putEntry a.1 p (a.2 % 256) 255 cyc tag, a.2 / 256)) (es, v)).1
/-- The places of an element. -/
def ElemAt.places (e : ElemAt) : List Place := e.bytes.map (fun b => b.2.place b.1)
def ElemAt.store (e : ElemAt) (f v cyc : Nat) (tag : Option Nat) (es : List SBEnt) : List SBEnt :=
  putElem f v cyc tag es e.places e.bit

/-- Entries in ascending address order (R460). -/
def sortEntries (es : List SBEnt) : List SBEnt := sortOn (·.va) es

/-- The cluster whose streams an access to local stores must await (R55). -/
def Mach.elemsUnstarted (m : Mach) (es : List ElemAt) : Option Nat :=
  es.findSome? (fun e => e.bytes.findSome? (fun b => m.unstarted m.cs.job (b.2.home 0)))
/-- Whether every element lies on a page of a registered publishable region (R51, R79). -/
def draftOnly (es : List ElemAt) : Bool := es.all (fun e => e.bytes.all (fun b => b.2.pub != 0))

end Sys2Proof.Machine
end

