-- ==== Sys2Proof/Machine/Engine.lean ====
section
/-! DEFINITION. What every micro-order shares: tokens (R44 to R46, R92, R108), predicted paths (R51, R52), and its end. -/

namespace Sys2Proof.Machine

/-- How a micro-order ends: it issues, and its signal is counted in a job cycle (rank 3 for one that waits for its store entries,
R460); it stays unissued and held; it issues and is held until an event completes it; it counts as
issued in a later cycle, from which the next delay counts as from a start where `start` says so (R235, R317); it issues, and its
signal is counted when a group of store-buffer entries has performed (R315); it raises a fault. -/
inductive Eng where
  | go (m : Mach) (sig : Nat) (ord : Nat)
  | hold (m : Mach) (h : Hold)
  | wait (m : Mach) (h : Hold)
  | late (m : Mach) (cyc sig : Nat) (start : Bool)
  | drain (m : Mach) (grp : Nat)
  | flt (m : Mach) (f : Flt)

def Eng.err (m : Mach) (c : FCode) (fva : Nat := 0) : Eng := .flt m { code := c, fva := fva }

/-- The open predicted path that a micro-order lies on (R51). -/
def Mach.pathOf (m : Mach) (tok : Tok) : Option Nat :=
  if tok.pe && m.cj.tagOpen m.clc tok.ptag.toNat then some tok.ptag.toNat else none

/-- A fault of a micro-order: deferred on an open predicted path (R52). -/
def Mach.pathFault (m : Mach) (tok : Tok) (f : Flt) : Res :=
  match m.pathOf tok with
  | some t => .hold (m.modStr m.cur (fun s => { s with spec := true })) (.deferred f t)
  | none => .flt m f

/-- A wait that has been satisfied takes one token; a signal pending above 255 moves up in the next cycle (R44, R339), and the credit of
producers on other clusters is returned (R45). -/
def Mach.takeToken (m : Mach) (now : Nat) (w : Option Nat) : Mach :=
  match w with
  | none => m
  | some f =>
    let cc := m.ccc
    let m := m.modCct cc (fun c => { c with fifos := smod c.fifos f {} (fun x => { x with count := x.count - 1 }) })
    let m := m.pendUp { id := 0, job := m.cs.job, lc := m.clc, cc := cc, sid := m.cur, due := 0, eff := .tokUp f } f (m.ccyc now + 1)
    -- the way to the farthest producer (R14)
    if m.cs.sel.kind == 0 then m.after (now + 39 * m.periodOf m.cur) 0 .tokenCreditReturn [cc, f, 1] else m

/-- Whether a FIFO has room for one more signal beside those in flight (R45). -/
def Fifo.room (x : Fifo) : Bool := x.count + x.pend + x.inflight < 255

/-- A micro-order with its token fields: `bad` are the decode checks of its own fields, `late` those that read registers, made as it
would issue (log 45), `path` whether a predicted path admits it (R51), `w` the FIFO it waits on. A signal that would take a count above
255 is judged by the signals counted, pending and in flight when it issues, and by no later wait (R46; DESIGN CHOICE, log 105). -/
def microWord (tok : Tok) (bad late : Mach → Option FCode) (path : Bool) (w : Mach → Option Nat) (body : Nat → Mach → Eng)
    (s : State) : Ans :=
  onWord (fun now m =>
    let wf := w m
    let count := fun (f : Nat) => (sget (m.cct m.ccc).fifos f {}).count
    let dry := wf.filter (fun f => count f == 0)
    let own := (bad m).or (if tok.pe && !path then some FCode.illegalField else none)
    match own.or (if dry.isSome && !m.cj.fixed then none else late m) with
    | some c => m.pathFault tok { code := c }
    | none =>
      match dry with
      | some f =>
        if m.cj.fixed then m.pathFault tok { code := .tokenCheck }
        else .hold (m.modStr m.cur (fun s => { s with state := (if s.state == .primed then .primed else .waitToken), wfifo := f })) (.token f)
      | none =>
        let ready := fun (m : Mach) => m.modStr m.cur (fun s => { s with state := (if s.state == .waitToken then .running else s.state), wfifo := 0 })
        let sf : Option Nat := if tok.se then some tok.sfifo.toNat else none
        let tag := m.pathOf tok
        let issued := fun (m : Mach) => (ready (m.takeToken now wf)).modStr m.cur (fun s => { s with spec := tag.isSome })
        let roomy := fun (m : Mach) => match sf with
          | none => true
          | some f => (sget (m.cct m.ccc).fifos f {}).room
        let inflight := fun (m : Mach) (f : Nat) =>
          m.modCct m.ccc (fun c => { c with fifos := smod c.fifos f {} (fun x => { x with inflight := x.inflight + 1 }) })
        -- a primed micro-order's signal is already counted when its stream starts (R48)
        let signal := fun (m : Mach) (c f ord : Nat) =>
          if m.cs.state == .primed then m.modCct m.ccc (fun x => x.signal f) else m.pushAt now c (.sig f) ord tag
        let full := fun (f : Nat) => if m.cj.fixed then m.pathFault tok { code := .tokenCheck } else .hold (ready m) (.room f)
        match body now m with
        | .flt m f => (ready m).pathFault tok f
        | .hold m h => .hold (ready m) h
        | .go m' c ord =>
          let m' := issued m'
          match sf with
          | none => .go m'
          | some f => if !roomy m' then full f else .go (signal (inflight m' f) c f ord)
        | .late m' lc c start =>
          let m' := issued m'
          let done := fun (m : Mach) => Res.moved ((m.retire now).modStr m.cur (fun s =>
            { s with lastIssue := max s.lastIssue lc, fresh := start }))
          match sf with
          | none => done m'
          | some f => if !roomy m' then full f else done (signal (inflight m' f) c f 2)
        | .drain m' g =>
          let m' := issued m'
          match sf with
          | none => .go m'
          | some f => if !roomy m' then full f
            else .go ((inflight m' f).modStr m.cur (fun s => { s with drainSigs := s.drainSigs ++ [(g, f, tag)] }))
        | .wait m' h =>
          let m' := issued m'
          match sf with
          | none => .hold m' h
          | some f => if !roomy m' then full f
            else .hold ((inflight m' f).modStr m.cur (fun s => { s with sig := some (f, tag) })) h) s

end Sys2Proof.Machine
end

