-- ==== Sys2Proof/Machine/VecBase.lean ====
section
/-! DEFINITION. What every vector micro-order shares: columns (R97), types, masks and rounding (R184, R187, R188, R62), register
reads at issue (R186), group operands (R189), lane reads (R196), and the write of a result (R58, R60, R190). -/

namespace Sys2Proof.Machine

/-- The columns that host an opcode (R97): A 0, B 1, F 2, X 3, P 4. -/
def vecHosts (op col : Nat) : Bool :=
  if op ≤ 0x02 then true
  else if op == 0x03 || (0x32 ≤ op && op ≤ 0x44) then col == 4
  else if op ≤ 0x1D then col ≤ 1
  else if op ≤ 0x28 || op == 0x46 || op == 0x47 then col == 2
  else col == 3

/-- A vector micro-order at issue: where it runs, its mode register, type, mask number, rounding code, and the cluster's registers. -/
structure VEnv where
  unit : Nat
  col : Nat
  vm : Nat
  tc : Nat
  t : ETy
  mr : Nat
  rc : Nat
  c : Cctx
  /-- the scalar registers of the job's scalar stream on the cluster (R206) -/
  sregs : Nat → Word

def VEnv.w (e : VEnv) : Nat := e.t.w
def VEnv.n (e : VEnv) : Nat := e.t.n
/-- The rounding of the micro-order (R94). -/
def VEnv.rnd (e : VEnv) : Rnd := Rnd.ofCode e.rc
/-- Where an operand stands (R57). -/
def VEnv.key (e : VEnv) (f : Nat) : Nat := if 64 ≤ f then e.unit * 64 + (f - 64) else (e.unit * 5 + e.col) * 16 + f
/-- A register as it stands. -/
def VEnv.reg (e : VEnv) (f : Nat) : Wide := if 64 ≤ f then sget e.c.vregs (e.key f) [] else sget e.c.cols (e.key f) []
/-- The elements of an operand under the micro-order's type. -/
def VEnv.els (e : VEnv) (f : F7) : List Nat := lanes e.w e.n (e.reg f.toNat)
/-- A mask register's first n bits; M0 reads all ones (R62). -/
def VEnv.maskBits (e : VEnv) (k n : Nat) : List Bool :=
  if k == 0 then List.replicate n true else (lanes 1 n (sget e.c.masks (e.unit * 8 + k) [])).map (· == 1)
/-- Active lanes of the micro-order over n elements. -/
def VEnv.act (e : VEnv) (n : Nat) : List Bool := e.maskBits e.mr n
/-- The FILL element (R184). -/
def VEnv.fill (e : VEnv) : Nat := e.vm / 2 ^ 32 % 2 ^ min e.w 32
/-- Value bits of a container (R183). -/
def ETy.valBits (t : ETy) : Nat := match t with | .flt _ f => 1 + f.eb + f.mb | t => t.w
def VEnv.trim (e : VEnv) (v : Nat) : Nat := v % 2 ^ e.t.valBits

/-- What a vector micro-order writes: registers (field, value, write mask), a mask register (number, value, write mask), flags. -/
structure VOut where
  ws : List (Nat × Wide × Wide) := []
  mask : Option (Nat × Wide × Wide) := none
  fl : Nat := 0

/-- Full elements where a lane is written. -/
def laneMask (w : Nat) (act : List Bool) : Wide := ofLanes w (act.map (fun a => if a then 2 ^ w - 1 else 0))
/-- A masked result of one register (R188). -/
def VEnv.out (e : VEnv) (d : F7) (vs : List Nat) (act : List Bool) (fl : Nat := 0) : VOut :=
  { ws := [(d.toNat, ofLanes e.w vs, laneMask e.w act)], fl := fl }
/-- A whole register written. -/
def VEnv.whole (e : VEnv) (d : F7) (vs : List Nat) (fl : Nat := 0) : VOut := { ws := [(d.toNat, ofLanes e.w vs, wones 64)], fl := fl }

/-- One list of results with flags: the flags of active lanes only. -/
def flagsOf (act : List Bool) (rs : List (Nat × Nat)) : Nat :=
  (act.zip rs).foldl (fun a x => if x.1 then a ||| x.2.2 else a) 0

/-- An element-wise operation with flags (R191, R194). -/
def VEnv.lanewise (e : VEnv) (d : F7) (rs : List (Nat × Nat)) : VOut :=
  let act := e.act e.n
  e.out d (rs.map (·.1)) act (flagsOf act rs)

/-- The element type codes of the families. -/
def tyInt : List Nat := [0, 1, 2, 3, 4, 5, 6, 7]
def tyFloat : List Nat := [8, 9, 10, 11]
def tyAny : List Nat := List.range 18
def tyPlane : List Nat := (List.range 14).map (· + 18)

/-- Whether a field names a register group of r registers from the V file (R60). -/
def groupOk (f : F7) (r : Nat) : Bool := r == 1 || (64 ≤ f.toNat && (f.toNat - 64) % r == 0)
/-- Group size of a 16-bit operand over N elements (R189). -/
def group16 (n : Nat) : Nat := if n ≤ 256 then 1 else if n ≤ 512 then 2 else 4
/-- The 16-bit group operand: the value of element i (R189). -/
def VEnv.idx16 (e : VEnv) (f : F7) (n : Nat) : List Nat :=
  let g := group16 n
  (List.range n).map (fun i => lane (e.reg (f.toNat + i % g)) 16 (i / g))

/-- Each lane's readable value: itself where active, else the nearest active lane below, else the identity (R196). -/
def nearest (ident : Nat) : List Nat → List Bool → List Nat
  | v :: vs, a :: as => let x := if a then v else ident; x :: nearest x vs as
  | _, _ => []
/-- A lane read (R196). -/
def readLane (near : List Nat) (fill : Nat) (t : Int) : Nat :=
  if t < 0 then fill else match near[t.toNat]? with | some v => v | none => fill

/-- A result put in flight: registers ranked by column, flags after a same-cycle clear (R59, R165, R190). -/
def Mach.pushVec (m : Mach) (now due late : Nat) (e : VEnv) (o : VOut) : Mach :=
  let m := if o.ws.isEmpty then m else m.pushAt now due (.vec e.unit e.col o.ws) e.col none late
  let m := match o.mask with
    | none => m
    | some (k, v, km) => m.pushAt now due (.mask e.unit k v km) e.col none late
  if o.fl == 0 then m else m.pushAt now due (.flags (m.cs.astatKey m.cur) o.fl) 1 none late
/-- Cycles by which a result is ready after its declared write cycle, its latency being given as a function of the job (R106). -/
def Job.lateBy (j : Job) (lat : Job → Nat) : Nat := lat { j with lat := [] } - lat j

/-- The environment of the executing vector micro-order. -/
def Mach.venv (m : Mach) (mi : Micro) : VEnv :=
  let s := m.cs
  let c := m.cct m.ccc
  let vm := (c.creg (0xE0 + 5 * s.sel.unit + s.sel.col)).toNat
  let tc := match mi.long with | some t => t.type.toNat | none => fld vm 0 5
  let rc := match mi.long with | some t => (if t.rnd == 6 then fld vm 11 3 else t.rnd.toNat) | none => fld vm 11 3
  { unit := s.sel.unit, col := s.sel.col, vm := vm, tc := tc, t := ETy.of tc,
    mr := match mi.long with | some t => t.mask.toNat | none => fld vm 8 3,
    rc := rc, c := c,
    sregs := match m.findSel s.job { s.sel with cls := .scalar, col := 0, unit := 0 } with
      | some i => fun (n : Nat) => (m.str i).rd (BitVec.ofNat 5 n)
      | none => fun _ => 0 }

/-- The checks of R97, R187 and R94 that every vector micro-order makes: hosting, type, rounding. -/
def Mach.vecBad (m : Mach) (op : Nat) (mi : Micro) (types : List Nat) (rounds : Nat → Bool) : Option FCode :=
  let e := m.venv mi
  if !vecHosts op e.col then some .illegalOp
  else if !types.contains e.tc then some .illegalField
  else match mi.long with
    | none => none
    | some t =>
      let ok := if op == 0x45 then t.rnd == 5 else if rounds e.tc then t.rnd != 5 && t.rnd != 7 else t.rnd == 0
      if ok then none else some .illegalField

/-- The part of these checks that the word alone decides: its column, and what a long form writes out. -/
def Mach.vecBadWord (m : Mach) (op : Nat) (mi : Micro) (types : List Nat) (rounds : Nat → Bool) : Option FCode :=
  if !vecHosts op m.cs.sel.col then some .illegalOp else if mi.long.isNone then none else m.vecBad op mi types rounds

/-- A vector micro-order that writes registers or a mask: `types` it takes, whether it rounds for a type, its latency as write
cycle from issue, its energy class; `lim` are its own limits and `f` its result (R187, R190). -/
def vecOp (op : Nat) (mi : Micro) (types : List Nat) (rounds : Nat → Bool) (lat : Job → Nat) (en : Nat)
    (lim : VEnv → Bool) (f : VEnv → VOut) (s : State) : Ans :=
  microWord mi.tail.tok (fun m => m.vecBadWord op mi types rounds)
    (fun m => match m.vecBad op mi types rounds with
      | some c => some c
      | none => if lim (m.venv mi) then none else some .illegalField)
    false (fun _ => mi.tail.tok.wait)
    (fun now m =>
      let e := m.venv mi
      let due := m.ccyc now + lat m.cj - 1
      .go ((m.charge en).pushVec now due (m.cj.lateBy lat) e (f e)) due 2) s

/-- A product that fails its residue check: a contained event with STEP in the miscellaneous word, the cluster retired, and the
fault (R213, R441). -/
def vecResidue (m : Mach) : Eng :=
  let pc := m.pcOf m.cpart m.clc
  let m := m.mcLog (pcDie pc) 1 (mcStatus 2 0 0x31 m.cpart (m.cj.cx % 64) 1 (pcCluster pc) m.cs.sel.col m.cj.jobid) 0
    (m.cs.step * 2 ^ 40)
  Eng.err (m.retireMark pc) .residue

/-- A vector micro-order whose products are checked modulo 7 on their magnitudes, as the multiplier forms them (R213). -/
def vecMulOp (op : Nat) (mi : Micro) (types : List Nat) (rounds : Nat → Bool) (lat : Job → Nat) (en : Nat)
    (lim : VEnv → Bool) (prods : VEnv → List (Nat × Nat × Nat)) (f : VEnv → VOut) (s : State) : Ans :=
  microWord mi.tail.tok (fun m => m.vecBadWord op mi types rounds)
    (fun m => match m.vecBad op mi types rounds with
      | some c => some c
      | none => if lim (m.venv mi) then none else some .illegalField)
    false (fun _ => mi.tail.tok.wait)
    (fun now m =>
      let e := m.venv mi
      if !(prods e).all (fun p => residueMul p.1 p.2.1 p.2.2) then vecResidue m else
      let due := m.ccyc now + lat m.cj - 1
      .go ((m.charge en).pushVec now due (m.cj.lateBy lat) e (f e)) due 2) s

/-- No rounding, always rounding, and rounding of float types only. -/
def noRnd : Nat → Bool := fun _ => false
def doesRnd : Nat → Bool := fun _ => true
def floatRnd : Nat → Bool := fun t => 8 ≤ t
/-- No limit of its own. -/
def noLim : VEnv → Bool := fun _ => true
/-- A latency class as a write cycle. -/
def latCls (k : Nat) : Job → Nat := fun j => j.latOf k

end Sys2Proof.Machine
end

