-- ==== Sys2Proof/Machine/Vector.lean ====
section
/-! DEFINITION. Vector instructions on registers (R191 to R206): integers, comparisons and masks, floats, special functions, lane
instructions, conversions, normalisation and moves. -/

namespace Sys2Proof.Machine

/-! ### Integers (R191) -/

/-- An integer micro-order of columns A and B over elements as bits. -/
def vecInt (op : Nat) (mi : Micro) (k : Nat) (f : VEnv → Nat → Nat → Nat → Nat × Nat) (s : State) : Ans :=
  vecOp op mi tyInt noRnd (latCls k) 4 noLim (fun e =>
    let a := e.els mi.srcA
    let b := e.els mi.srcB
    let c := e.els mi.third
    e.lanewise mi.dest ((List.range e.n).map (fun i => f e (a.getD i 0) (b.getD i 0) (c.getD i 0)))) s
/-- A result without a flag. -/
def plain (f : VEnv → Nat → Nat → Nat → Int) : VEnv → Nat → Nat → Nat → Nat × Nat := fun e a b c => (wrapN e.w (f e a b c), 0)
/-- The magnitudes of the products of active lanes (R213). -/
def intProds (mi : Micro) (e : VEnv) : List (Nat × Nat × Nat) :=
  let ps := ((e.els mi.srcA).zip (e.els mi.srcB)).map (fun p =>
    let a := e.t.int' p.1
    let b := e.t.int' p.2
    (a.natAbs, b.natAbs, (a * b).natAbs))
  ((e.act e.n).zip ps).filterMap (fun p => if p.1 then some p.2 else none)
/-- A multiplying integer micro-order (R191, R213). -/
def vecIntMul (op : Nat) (mi : Micro) (f : VEnv → Nat → Nat → Nat → Nat × Nat) (s : State) : Ans :=
  vecMulOp op mi tyInt noRnd (latCls 6) 4 noLim (intProds mi) (fun e =>
    let a := e.els mi.srcA
    let b := e.els mi.srcB
    let c := e.els mi.third
    e.lanewise mi.dest ((List.range e.n).map (fun i => f e (a.getD i 0) (b.getD i 0) (c.getD i 0)))) s

def execVadd (mi : Micro) (s : State) : Ans := vecInt 0x04 mi 5 (plain (fun _ a b _ => (a : Int) + b)) s
def execVsub (mi : Micro) (s : State) : Ans := vecInt 0x05 mi 5 (plain (fun _ a b _ => (a : Int) - b)) s
def execVadds (mi : Micro) (s : State) : Ans := vecInt 0x06 mi 5 (fun e a b _ => e.t.clamp (e.t.int' a + e.t.int' b)) s
def execVsubs (mi : Micro) (s : State) : Ans := vecInt 0x07 mi 5 (fun e a b _ => e.t.clamp (e.t.int' a - e.t.int' b)) s
def execVmul (mi : Micro) (s : State) : Ans := vecIntMul 0x08 mi (plain (fun _ a b _ => (a : Int) * b)) s
def execVmulh (mi : Micro) (s : State) : Ans :=
  vecIntMul 0x09 mi (plain (fun e a b _ => e.t.int' a * e.t.int' b / (2 ^ e.w : Nat))) s
/-- VMULW: products of twice the width to a pair of registers, element i to register n + (i mod 2) (R164, R191). -/
def execVmulw (mi : Micro) (s : State) : Ans :=
  vecMulOp 0x0A mi [2, 3, 4, 5, 6, 7] noRnd (latCls 6) 4 (fun _ => groupOk mi.dest 2) (intProds mi) (fun e =>
    let a := e.els mi.srcA
    let b := e.els mi.srcB
    let act := e.act e.n
    let w := 2 * e.w
    let half := fun (h : Nat) => (List.range (e.n / 2)).map (fun i => 2 * i + h)
    let vals := fun (h : Nat) => (half h).map (fun i => wrapN w (e.t.int' (a.getD i 0) * e.t.int' (b.getD i 0)))
    let msk := fun (h : Nat) => laneMask w ((half h).map (fun i => act.getD i false))
    { ws := [(mi.dest.toNat, ofLanes w (vals 0), msk 0), (mi.dest.toNat + 1, ofLanes w (vals 1), msk 1)] }) s
def execVmac (mi : Micro) (s : State) : Ans := vecIntMul 0x0B mi (plain (fun _ a b c => (c : Int) + a * b)) s
def execVand (mi : Micro) (s : State) : Ans := vecInt 0x0C mi 5 (fun _ a b _ => (a &&& b, 0)) s
def execVor (mi : Micro) (s : State) : Ans := vecInt 0x0D mi 5 (fun _ a b _ => (a ||| b, 0)) s
def execVxor (mi : Micro) (s : State) : Ans := vecInt 0x0E mi 5 (fun _ a b _ => (a ^^^ b, 0)) s
def execVandn (mi : Micro) (s : State) : Ans := vecInt 0x0F mi 5 (fun _ a b _ => (a - (a &&& b), 0)) s
def execVshl (mi : Micro) (s : State) : Ans := vecInt 0x10 mi 5 (fun e a b _ => (if e.w ≤ b then 0 else a * 2 ^ b % 2 ^ e.w, 0)) s
def execVshr (mi : Micro) (s : State) : Ans := vecInt 0x11 mi 5 (fun e a b _ => (if e.w ≤ b then 0 else a / 2 ^ b, 0)) s
def execVsar (mi : Micro) (s : State) : Ans :=
  vecInt 0x12 mi 5 (plain (fun e a b _ => sInt e.w a / (2 ^ min b e.w : Nat))) s
def execVmin (mi : Micro) (s : State) : Ans := vecInt 0x13 mi 5 (fun e a b _ => (if e.t.int' b < e.t.int' a then b else a, 0)) s
def execVmax (mi : Micro) (s : State) : Ans := vecInt 0x14 mi 5 (fun e a b _ => (if e.t.int' a < e.t.int' b then b else a, 0)) s
def execVabs (mi : Micro) (s : State) : Ans := vecInt 0x15 mi 5 (plain (fun e a _ _ => (e.t.int' a).natAbs)) s
def execVneg (mi : Micro) (s : State) : Ans := vecInt 0x16 mi 5 (plain (fun _ a _ _ => -(a : Int))) s
def execVclz (mi : Micro) (s : State) : Ans := vecInt 0x17 mi 5 (fun e a _ _ => (clzN e.w a, 0)) s
def execVpopc (mi : Micro) (s : State) : Ans := vecInt 0x18 mi 5 (fun e a _ _ => (popN e.w a, 0)) s
def execVsel (mi : Micro) (s : State) : Ans := vecInt 0x1A mi 5 (fun _ a b c => (if c != 0 then a else b, 0)) s

/-! ### Comparisons and masks (R192, R193) -/

/-- The condition or mask operation of a micro-order: srcC of a long form, VMODE.COND of a native one. -/
def VEnv.cond (e : VEnv) (mi : Micro) : Nat := match mi.long with | some t => t.srcC.toNat | none => fld e.vm 16 3
/-- Bits as a mask value over 1024, and the write mask of the lanes given, with bits at or above N written 0 (R62). -/
def maskOf (bs : List Bool) : Wide := ofLanes 1 (bs.map b2n)
def maskWrite (act : List Bool) : Wide := ofLanes 1 (act.map b2n ++ List.replicate (1024 - act.length) 1)

/-- An integer condition (R192). -/
def intCond (t : ETy) (c a b : Nat) : Bool :=
  match c with
  | 0 => a == b | 1 => a != b | 2 => sInt t.w a < sInt t.w b | 3 => sInt t.w b ≤ sInt t.w a | 4 => a < b | _ => b ≤ a
/-- A float condition with its flag (R192). -/
def fltCond (c : Nat) (x y : FV) : Bool × Nat :=
  if x.isNan || y.isNan then (c == 1 || c == 4, if c == 2 || c == 3 || x.sig || y.sig then fIV else 0)
  else (match c with | 0 => x.eq y | 1 => !x.eq y | 2 => x.lt y | 3 => !x.lt y | 4 => false | _ => true, 0)

/-- A comparison into a mask. -/
def VEnv.cmp (e : VEnv) (mi : Micro) (f : Nat → Nat → Nat → Bool × Nat) : VOut :=
  let act := e.act e.n
  let rs := ((e.els mi.srcA).zip (e.els mi.srcB)).map (fun p => f (e.cond mi) p.1 p.2)
  { mask := some (mi.dest.toNat, maskOf (rs.map (·.1)), maskWrite act), fl := flagsOf act (rs.map (fun r => (0, r.2))) }
def execVcmp (mi : Micro) (s : State) : Ans :=
  vecOp 0x19 mi tyInt noRnd (latCls 5) 4 (fun e => e.cond mi ≤ 5) (fun e => e.cmp mi (fun c a b => (intCond e.t c a b, 0))) s
def execVfcmp (mi : Micro) (s : State) : Ans :=
  vecOp 0x28 mi tyFloat noRnd (latCls 5) 5 (fun e => e.cond mi ≤ 5)
    (fun e => e.cmp mi (fun c a b => fltCond c (e.t.val a) (e.t.val b))) s

/-- An operation of MOP (R193). -/
def mopBit (op : Nat) (a b : Bool) : Bool :=
  match op with
  | 0 => a && b | 1 => a || b | 2 => a != b | 3 => a && !b | 4 => !a | 5 => a | 6 => true | _ => false
def execMop (mi : Micro) (s : State) : Ans :=
  vecOp 0x1B mi tyAny noRnd (latCls 12) 4
    (fun e => (e.cond mi < 4 || mi.srcB == 0) && (e.cond mi < 6 || mi.srcA == 0))
    (fun e =>
      let a := e.maskBits mi.srcA.toNat e.n
      let b := e.maskBits mi.srcB.toNat e.n
      { mask := some (mi.dest.toNat, maskOf ((a.zip b).map (fun p => mopBit (e.cond mi) p.1 p.2)), maskWrite (List.replicate e.n true)) }) s
/-- All 128 32-bit slots of the destination take a count (R193). -/
def slots32 (mi : Micro) (v : Nat) : VOut := { ws := [(mi.dest.toNat, ofLanes 32 (List.replicate 128 v), wones 64)] }
def execMpopc (mi : Micro) (s : State) : Ans :=
  vecOp 0x1C mi tyAny noRnd (latCls 12) 4 noLim (fun e => slots32 mi ((e.maskBits mi.srcA.toNat e.n).countP id)) s
def execMfirst (mi : Micro) (s : State) : Ans :=
  vecOp 0x1D mi tyAny noRnd (latCls 12) 4 noLim (fun e => slots32 mi ((e.maskBits mi.srcA.toNat e.n).findIdx id)) s

/-! ### Floats (R194) -/

/-- A float micro-order of column F over values. -/
def vecFlt (op : Nat) (mi : Micro) (rounds : Nat → Bool) (k : Nat) (f : VEnv → FV → FV → FV → FV) (s : State) : Ans :=
  vecOp op mi tyFloat rounds (latCls k) 5 noLim (fun e =>
    let v := fun (r : F7) => (e.els r).map e.t.val
    let a := v mi.srcA
    let b := v mi.srcB
    let c := v mi.third
    e.lanewise mi.dest ((List.range e.n).map (fun i =>
      e.t.enc e.rnd (f e (a.getD i (.inf false)) (b.getD i (.inf false)) (c.getD i (.inf false)))))) s
/-- The significand products of active lanes with finite operands (R213). -/
def fltProds (mi : Micro) (e : VEnv) : List (Nat × Nat × Nat) :=
  let ps := ((e.els mi.srcA).zip (e.els mi.srcB)).map (fun p => (e.t.val p.1, e.t.val p.2))
  ((e.act e.n).zip ps).filterMap (fun p => match p with
    | (true, .fin _ a _, .fin _ b _) => some (a, b, a * b)
    | _ => none)
/-- A multiplying float micro-order (R194, R213). -/
def vecFltMul (op : Nat) (mi : Micro) (f : VEnv → FV → FV → FV → FV) (s : State) : Ans :=
  vecMulOp op mi tyFloat doesRnd (latCls 6) 5 noLim (fltProds mi) (fun e =>
    let v := fun (r : F7) => (e.els r).map e.t.val
    let a := v mi.srcA
    let b := v mi.srcB
    let c := v mi.third
    e.lanewise mi.dest ((List.range e.n).map (fun i =>
      e.t.enc e.rnd (f e (a.getD i (.inf false)) (b.getD i (.inf false)) (c.getD i (.inf false)))))) s

def execVfadd (mi : Micro) (s : State) : Ans := vecFlt 0x1E mi doesRnd 6 (fun e a b _ => a.add e.rnd.isRd b) s
def execVfsub (mi : Micro) (s : State) : Ans := vecFlt 0x1F mi doesRnd 6 (fun e a b _ => a.add e.rnd.isRd b.neg) s
def execVfmul (mi : Micro) (s : State) : Ans := vecFltMul 0x20 mi (fun _ a b _ => a.mul b) s
def execVfma (mi : Micro) (s : State) : Ans := vecFltMul 0x21 mi (fun e a b c => (a.mul b).add e.rnd.isRd c) s
def execVfms (mi : Micro) (s : State) : Ans := vecFltMul 0x22 mi (fun e a b c => (a.mul b).add e.rnd.isRd c.neg) s
def execVfnma (mi : Micro) (s : State) : Ans := vecFltMul 0x23 mi (fun e a b c => (a.mul b).neg.add e.rnd.isRd c) s
def execVfmin (mi : Micro) (s : State) : Ans := vecFlt 0x24 mi noRnd 5 (fun _ a b _ => a.min b) s
def execVfmax (mi : Micro) (s : State) : Ans := vecFlt 0x25 mi noRnd 5 (fun _ a b _ => a.max b) s
def execVfabs (mi : Micro) (s : State) : Ans := vecFlt 0x26 mi noRnd 5 (fun _ a _ _ => a.abs) s
def execVfneg (mi : Micro) (s : State) : Ans := vecFlt 0x27 mi noRnd 5 (fun _ a _ _ => a.neg) s

/-! ### Special functions (R195) -/

/-- A special function of column X. -/
def vecSpecial (op : Nat) (mi : Micro) (s : State) : Ans :=
  vecOp op mi [8, 10, 11] doesRnd (latCls 7) 6 noLim (fun e =>
    let f := match e.t with | .flt _ f => f | _ => f32
    e.lanewise mi.dest ((e.els mi.srcA).map (fun b => f.special op e.rnd b))) s
def execVrcp (mi : Micro) (s : State) : Ans := vecSpecial 0x29 mi s
def execVrsq (mi : Micro) (s : State) : Ans := vecSpecial 0x2A mi s
def execVsqrt (mi : Micro) (s : State) : Ans := vecSpecial 0x2B mi s
def execVexp2 (mi : Micro) (s : State) : Ans := vecSpecial 0x2C mi s
def execVlog2 (mi : Micro) (s : State) : Ans := vecSpecial 0x2D mi s
def execVtanh (mi : Micro) (s : State) : Ans := vecSpecial 0x2E mi s

/-! ### Reductions and scans (R197, R198) -/

/-- One rounded addition of elements (R162, R198). -/
def ETy.addEl (t : ETy) (md : Rnd) (a b : Nat) : Nat × Nat :=
  if t.isFlt then t.enc md ((t.val a).add md.isRd (t.val b)) else (wrapN t.w ((a : Int) + b), 0)
/-- Maximum and minimum of elements. -/
def ETy.maxEl (t : ETy) (a b : Nat) : Nat × Nat :=
  if t.isFlt then t.enc .rne ((t.val a).max (t.val b)) else (if t.int' a < t.int' b then b else a, 0)
def ETy.minEl (t : ETy) (a b : Nat) : Nat × Nat :=
  if t.isFlt then t.enc .rne ((t.val a).min (t.val b)) else (if t.int' b < t.int' a then b else a, 0)
/-- The identities of R196. -/
def ETy.lowest (t : ETy) : Nat := match t with | .flt _ f => f.infBits true | t => wrapN t.w t.lo
def ETy.highest (t : ETy) : Nat := match t with | .flt _ f => f.infBits false | t => wrapN t.w t.hi
/-- A node that gathers flags. -/
def flagNode (f : Nat → Nat → Nat × Nat) (a b : Nat × Nat) : Nat × Nat :=
  let (v, g) := f a.1 b.1
  (v, a.2 ||| b.2 ||| g)
/-- A reduction of all lanes: inactive ones contribute the identity (R197). -/
def VEnv.reduce (e : VEnv) (mi : Micro) (ident : Nat) (f : Nat → Nat → Nat × Nat) : VOut :=
  let vs := ((e.act e.n).zip (e.els mi.srcA)).map (fun p => (if p.1 then p.2 else ident, 0))
  let (v, g) := tree (flagNode f) (ident, 0) 12 vs
  e.whole mi.dest [v] g
def tyRed : List Nat := tyInt ++ tyFloat
def execVredadd (mi : Micro) (s : State) : Ans :=
  vecOp 0x32 mi tyRed floatRnd (latCls 8) 7 noLim (fun e => e.reduce mi 0 (e.t.addEl e.rnd)) s
def execVredmax (mi : Micro) (s : State) : Ans :=
  vecOp 0x33 mi tyRed noRnd (latCls 8) 7 noLim (fun e => e.reduce mi e.t.lowest e.t.maxEl) s
def execVredmin (mi : Micro) (s : State) : Ans :=
  vecOp 0x34 mi tyRed noRnd (latCls 8) 7 noLim (fun e => e.reduce mi e.t.highest e.t.minEl) s
/-- VSCAN: an inclusive prefix sum over active lanes, one rounding per step (R198). -/
def execVscan (mi : Micro) (s : State) : Ans :=
  vecOp 0x35 mi tyAny floatRnd (latCls 8) 7 noLim (fun e =>
    let act := e.act e.n
    let r := (act.zip (e.els mi.srcA)).foldl (fun (a : Nat × Nat × List Nat) p =>
      let (run, fl, out) := a
      if p.1 then
        let (v, g) := e.t.addEl e.rnd run p.2
        (v, fl ||| g, v :: out)
      else (run, fl, 0 :: out)) (0, 0, [])
    e.out mi.dest r.2.2.reverse act r.2.1) s

/-! ### Permutes (R199) -/

/-- A permute of one source: each active lane reads the lane that `idx` names for it. -/
def VEnv.permute (e : VEnv) (d : F7) (near : List Nat) (idx : Nat → Int) : VOut :=
  e.out d ((List.range e.n).map (fun i => e.trim (readLane near e.fill (idx i)))) (e.act e.n)
/-- The readable values of srcA (R196). -/
def VEnv.near (e : VEnv) (mi : Micro) : List Nat := nearest e.fill (e.els mi.srcA) (e.act e.n)
def execVperm (mi : Micro) (s : State) : Ans :=
  vecOp 0x36 mi tyAny noRnd (latCls 8) 7 (fun e => groupOk mi.srcB (group16 e.n))
    (fun e =>
      let ix := e.idx16 mi.srcB e.n
      e.permute mi.dest (e.near mi) (fun i => (ix.getD i 0 : Nat))) s
def execVshuf (mi : Micro) (s : State) : Ans :=
  vecOp 0x37 mi tyAny noRnd (latCls 8) 7 (fun e => groupOk mi.third (group16 e.n))
    (fun e =>
      let ix := e.idx16 mi.third e.n
      let act := e.act e.n
      e.permute mi.dest (nearest e.fill (e.els mi.srcA ++ e.els mi.srcB) (act ++ act)) (fun i => (ix.getD i 0 : Nat))) s
/-- The immediate of VSLIDE, VEXT and VINS: seven bits native, fourteen long (R199). -/
def immLane (mi : Micro) : Nat := match mi.long with | some _ => mi.imm14 | none => mi.srcB.toNat
def immSlide (mi : Micro) : Int := match mi.long with | some _ => sInt 14 mi.imm14 | none => sInt 7 mi.srcB.toNat
def execVslide (mi : Micro) (s : State) : Ans :=
  vecOp 0x38 mi tyAny noRnd (latCls 8) 7 noLim (fun e => e.permute mi.dest (e.near mi) (fun i => (i : Int) - immSlide mi)) s
def execVbcast (mi : Micro) (s : State) : Ans :=
  vecOp 0x39 mi tyAny noRnd (latCls 8) 7 noLim (fun e => e.permute mi.dest (e.near mi) (fun _ => 0)) s
def execVext (mi : Micro) (s : State) : Ans :=
  vecOp 0x3A mi tyAny noRnd (latCls 8) 7 (fun e => immLane mi < e.n)
    (fun e => e.whole mi.dest [e.trim (readLane (e.near mi) e.fill (immLane mi : Nat))]) s
def execVins (mi : Micro) (s : State) : Ans :=
  vecOp 0x3B mi tyAny noRnd (latCls 8) 7 (fun e => immLane mi < e.n)
    (fun e =>
      let j := immLane mi
      e.out mi.dest (List.replicate j 0 ++ [e.trim (lane (e.reg mi.srcA.toNat) e.w 0)]) (List.replicate j false ++ [true])) s
def execVcompress (mi : Micro) (s : State) : Ans :=
  vecOp 0x3C mi tyAny noRnd (latCls 8) 7 noLim (fun e =>
    let vs := ((e.act e.n).zip (e.els mi.srcA)).filterMap (fun p => if p.1 then some (e.trim p.2) else none)
    e.whole mi.dest (vs ++ List.replicate (e.n - vs.length) (e.trim e.fill))) s
/-- VEXPAND reads Va[j] as it stands, without R196's search below an inactive lane (DESIGN CHOICE: R199 writes no read of R196 for it, and
R196's identity table does not name it; log 107). -/
def execVexpand (mi : Micro) (s : State) : Ans :=
  vecOp 0x3D mi tyAny noRnd (latCls 8) 7 noLim (fun e =>
    let act := e.act e.n
    let r := act.foldl (fun (a : List Nat × List Nat) on =>
      if on then (a.1.tail, e.trim (a.1.headD 0) :: a.2) else (a.1, 0 :: a.2)) (e.els mi.srcA, [])
    e.out mi.dest r.2.reverse act) s

/-! ### Conversions (R200 to R203) -/

/-- Ratio of two widths, and the number of elements converted (R200). -/
def cvtRatio (t u : ETy) : Nat := max t.w u.w / min t.w u.w
def cvtN (t u : ETy) : Nat := 4096 / min t.w u.w
/-- Whether a conversion's register group is legal. -/
def cvtOk (mi : Micro) (t u : ETy) : Bool :=
  let r := cvtRatio t u
  r ≤ 4 && groupOk (if u.w < t.w then mi.dest else mi.srcA) r
/-- A conversion of every element from source type u (R200): `f` gives the bits and flags of element i. -/
def VEnv.convert (e : VEnv) (mi : Micro) (u : ETy) (f : Nat → Nat → Nat × Nat) : VOut :=
  let r := cvtRatio e.t u
  let n := cvtN e.t u
  let a := mi.srcA.toNat
  let src := fun (i : Nat) => if e.t.w < u.w then lane (e.reg (a + i % r)) u.w (i / r) else lane (e.reg a) u.w i
  let rs := (List.range n).map (fun i => f i (src i))
  let act := e.act n
  let fl := flagsOf act rs
  if u.w < e.t.w then
    { ws := (List.range r).map (fun j =>
        let is := (List.range (n / r)).map (fun q => q * r + j)
        (mi.dest.toNat + j, ofLanes e.w (is.map (fun i => (rs.getD i (0, 0)).1)), laneMask e.w (is.map (fun i => act.getD i false)))),
      fl := fl }
  else { ws := [(mi.dest.toNat, ofLanes e.w (rs.map (·.1)), laneMask e.w act)], fl := fl }
/-- The source type of a conversion (R200). -/
def srcType (mi : Micro) : ETy := ETy.of mi.srcB.toNat
def execVcvt (mi : Micro) (s : State) : Ans :=
  vecOp 0x2F mi tyAny doesRnd (latCls 7) 6 (fun e => mi.srcB.toNat ≤ 17 && cvtOk mi e.t (srcType mi))
    (fun e => e.convert mi (srcType mi) (fun _ b => (srcType mi).conv e.t e.rnd b)) s
/-- The k of VMODE.SRK (R184, R201). -/
def srkOf (v : Nat) : Nat := if v == 0 then 8 else if v == 1 then 12 else 16
def execVcvtSr (mi : Micro) (s : State) : Ans :=
  vecOp 0x45 mi ([0, 1, 2, 3, 4, 5, 6, 7] ++ [10, 11, 12, 13, 14, 15, 16, 17]) doesRnd (latCls 7) 6
    (fun e => 8 ≤ mi.srcB.toNat && mi.srcB.toNat ≤ 17 && cvtOk mi e.t (srcType mi)
      && groupOk mi.third (group16 (cvtN e.t (srcType mi))))
    (fun e =>
      let rw' := e.idx16 mi.third (cvtN e.t (srcType mi))
      e.convert mi (srcType mi) (fun i b => (srcType mi).conv e.t (.sr (srkOf (fld e.vm 14 2)) (rw'.getD i 0)) b)) s
def execVpack (mi : Micro) (s : State) : Ans :=
  vecOp 0x30 mi tyInt noRnd (latCls 7) 6
    (fun e => mi.srcB.toNat ≤ 7 && e.w < (srcType mi).w && cvtOk mi e.t (srcType mi))
    (fun e => e.convert mi (srcType mi) (fun _ b => e.t.clamp ((srcType mi).int' b))) s
def execVunpk (mi : Micro) (s : State) : Ans :=
  vecOp 0x31 mi tyInt noRnd (latCls 7) 6
    (fun e => mi.srcB.toNat ≤ 7 && (srcType mi).w < e.w && cvtOk mi e.t (srcType mi))
    (fun e => e.convert mi (srcType mi) (fun _ b => (wrapN e.w ((srcType mi).int' b), 0))) s
/-- VPLANE: the block layout of R151 from 512 bytes (R203). -/
def execVplane (mi : Micro) (s : State) : Ans :=
  vecOp 0x48 mi tyPlane noRnd (latCls 7) 6
    (fun e => e.mr == 0 && mi.srcB.toNat == (if e.t.signed then 4 else 5))
    (fun e =>
      let j := match e.t with | .plane k _ => k | _ => 8
      let a := lanes 8 512 (e.reg mi.srcA.toNat)
      let byte := fun (x : Nat) =>
        let b := x / (8 * j)
        let q := x % (8 * j) / 8
        (List.range 8).foldl (fun v i => v + fld (a.getD (64 * b + 8 * (x % 8) + i) 0) (7 - q) 1 * 2 ^ i) 0
      { ws := [(mi.dest.toNat, ofLanes 8 ((List.range (64 * j)).map byte), wones 64)] }) s

/-! ### Normalisation (R204, R205) -/

/-- One rounded FP32 operation on bits. -/
def f32Op (md : Rnd) (f : FV → FV → FV) (a b : Nat) : Nat × Nat := f32.enc md (f (f32.dec a) (f32.dec b))
def execVmoment (mi : Micro) (s : State) : Ans :=
  vecMulOp 0x46 mi [8] doesRnd (fun j => j.latOf 6 + j.latOf 8) 5 (fun _ => groupOk mi.dest 2)
    (fun e => fltProds { mi with srcB := mi.srcA } e)
    (fun e =>
      let md := e.rnd
      let va := (e.act 128).zip (e.els mi.srcA)
      let add := flagNode (f32Op md (fun x y => x.add md.isRd y))
      let sum := tree add (0, 0) 8 (va.map (fun p => (if p.1 then p.2 else 0, 0)))
      let sq := tree add (0, 0) 8 (va.map (fun p => if p.1 then f32Op md FV.mul p.2 p.2 else (0, 0)))
      { ws := [(mi.dest.toNat, ofLanes 32 [sum.1], wones 64), (mi.dest.toNat + 1, ofLanes 32 [sq.1], wones 64)],
        fl := sum.2 ||| sq.2 }) s
def execVnormapply (mi : Micro) (s : State) : Ans :=
  let steps := fun (e : VEnv) (a b : Nat) =>
    let md := e.rnd
    let st := fun (i : Nat) => lane (e.reg mi.third.toNat) 32 i
    let (t, f1) := f32Op md (fun x y => x.add md.isRd y.neg) a (st 0)
    let (u, f2) := f32Op md FV.mul t (st 1)
    let (v, f3) := f32.enc md (((f32.dec u).mul (f32.dec b)).add md.isRd (f32.dec (st 2)))
    (t, u, v, f1 ||| f2 ||| f3)
  vecMulOp 0x47 mi [8] doesRnd (latCls 6) 5 noLim
    (fun e => ((e.act 128).zip ((e.els mi.srcA).zip (e.els mi.srcB))).flatMap (fun p =>
      let (t, u, _, _) := steps e p.2.1 p.2.2
      match p.1, f32.dec t, f32.dec (lane (e.reg mi.third.toNat) 32 1), f32.dec u, f32.dec p.2.2 with
      | true, .fin _ a _, .fin _ b _, .fin _ c _, .fin _ d _ => [(a, b, a * b), (c, d, c * d)]
      | _, _, _, _, _ => []))
    (fun e => e.lanewise mi.dest (((e.els mi.srcA).zip (e.els mi.srcB)).map (fun p =>
      let (_, _, v, f) := steps e p.1 p.2
      (v, f)))) s

/-! ### Moves (R206) -/

def execVmov (mi : Micro) (s : State) : Ans :=
  vecOp 0x01 mi tyAny noRnd (latCls 5) 7 noLim (fun e => e.out mi.dest (e.els mi.srcA) (e.act e.n)) s
def execVmovi (mi : Micro) (s : State) : Ans :=
  vecOp 0x02 mi (List.range 12) noRnd (latCls 5) 7 noLim (fun e =>
    let i := sInt 14 mi.imm14
    e.lanewise mi.dest (List.replicate e.n (if e.t.isFlt then e.t.enc .rne (FV.ofInt i) else (wrapN e.w i, 0)))) s
def execVmvs (mi : Micro) (s : State) : Ans :=
  vecOp 0x03 mi (List.range 12) noRnd (latCls 8) 7 noLim (fun e =>
    e.out mi.dest (List.replicate e.n ((e.sregs mi.srcA.toNat).toNat % 2 ^ e.w)) (e.act e.n)) s

end Sys2Proof.Machine
end

