-- ==== Sys2Proof/Machine/VecMem.lean ====
section
/-! DEFINITION. Vector memory (R207 to R212). -/

namespace Sys2Proof.Machine

/-- Base address of the memory layout over a base register: displacement in 512-byte units, modulo 2^64 (R95, R207, R225). -/
def memEa (base : Word) (mi : Micro) : Nat := (base + BitVec.ofInt 64 (512 * mi.memDisp)).toNat
/-- An address-base register of a vector core (R185). -/
def VEnv.ab (e : VEnv) (j : Nat) : Word := e.c.creg (0xA0 + 16 * e.unit + j)

/-- The elements a vector memory micro-order moves: active lanes with their positions from ea (R207). -/
def VEnv.memLanes (e : VEnv) (n : Nat) (pos : Nat → Int) : List (Nat × Int) :=
  (List.range n).filterMap (fun i => if (e.act e.n).getD i false then some (i, pos i) else none)

/-- The alignment of ea (R208): 16 bytes for VLD and VST, else the container; whole blocks on a bit-plane page for a load; a stride
that is no whole number of blocks breaks VLDS there. -/
def vecAligned (whole load : Bool) (p : Pg) (ea : Nat) : Bool :=
  (if whole then ea % 16 == 0 else ea % fmtBytes p.fmt == 0)
    && !(load && fmtPlane p.fmt && p.off % (8 * fmtPlanes p.fmt) != 0)

/-- A decoding load (R207 to R212): `whole` for VLD; `stride` of VLDS; positions of the elements. ALIGN of ea and the FORMAT_MISMATCH of a
stride come after ea's translation and before any element (DESIGN CHOICE: R210 gives them no place; log 106). -/
def vecLoad (op : Nat) (mi : Micro) (whole : Bool) (count : VEnv → Nat) (stride : VEnv → Int) (pos : VEnv → Nat → Int)
    (s : State) : Ans :=
  microWord mi.tail.tok (fun m => m.vecBadWord op mi (List.range 32) noRnd) (fun m => m.vecBad op mi (List.range 32) noRnd) false (fun _ => mi.tail.tok.wait)
    (fun now m =>
      let e := m.venv mi
      let ea := memEa (e.ab mi.memBase) mi
      match m.eaPage ea with
      | .error f => .flt m f
      | .ok (m, p0) =>
        if !vecAligned whole true p0 ea then Eng.err m .align ea
        else if fmtPlane p0.fmt && stride e % 64 != 0 then Eng.err m .formatMismatch ea
        else match m.elems ea p0.fmt (planesRead e.tc) { rd := true } (fun p => loadPair p.fmt p.geom e.tc) (fun _ _ => true) [] none
            (e.memLanes (count e) (pos e)) with
          | .error f => .flt m f
          | .ok (m, es) => match m.elemsUnstarted es with
            | some lc => .hold m (.start lc)
            | none =>
              let rs := es.map (fun x => (x.i, m.elemLoad p0.fmt e.tc x))
              let at' := fun (i : Nat) => (rs.find? (fun r => r.1 == i)).map (·.2)
              let vs := (List.range e.n).map (fun i => match at' i with | some r => r.1 | none => 0)
              let on := (List.range e.n).map (fun i => (at' i).isSome)
              let fl := rs.foldl (fun a r => a ||| r.2.2) 0
              let due := m.loadDue now (p0.home 0)
              let (late, m) := (m.charge 8).loadLate (p0.home 0)
              .go (m.pushVec now due late e (e.out mi.dest vs on fl)) due 2) s

/-- An encoding store (R207 to R212): its entries enter the store buffer at issue; on a predicted path every element must lie on a
publishable page (R51). -/
def vecStore (op : Nat) (mi : Micro) (whole : Bool) (count : VEnv → Nat) (pos : VEnv → Nat → Int) (s : State) : Ans :=
  microWord mi.tail.tok (fun m => m.vecBadWord op mi tyAny noRnd) (fun m => m.vecBad op mi tyAny noRnd) true (fun _ => mi.tail.tok.wait)
    (fun now m =>
      let e := m.venv mi
      let ea := memEa (e.ab mi.memBase) mi
      match m.eaPage ea with
      | .error f => .flt m f
      | .ok (m, p0) =>
        if !vecAligned whole false p0 ea then Eng.err m .align ea
        else match m.elems ea p0.fmt 8 { wr := true } (fun p => storePair p.fmt e.tc) (fun _ _ => true) [] none
            (e.memLanes (count e) (pos e)) with
          | .error f => .flt m f
          | .ok (m, es) =>
            if mi.tail.tok.pe && !draftOnly es then Eng.err m .illegalField else
            let vs := e.els mi.dest
            let ents := es.foldl (fun a x => x.store p0.fmt (e.trim (vs.getD x.i 0)) (m.ccyc now) (m.pathOf mi.tail.tok) a) []
            .go ((m.charge 8).enter now m.cur (if op == 0x44 then ents else sortEntries ents)) (m.ccyc now) 3) s

def execVld (mi : Micro) (s : State) : Ans := vecLoad 0x40 mi true (·.n) (fun _ => 0) (fun _ i => (i : Int)) s
def execVst (mi : Micro) (s : State) : Ans := vecStore 0x41 mi true (·.n) (fun _ i => (i : Int)) s
/-- The stride of VLDS: an address-base register read as signed (R207). -/
def VEnv.stride (e : VEnv) (mi : Micro) : Int := (e.ab mi.srcA.toNat).toInt
def execVlds (mi : Micro) (s : State) : Ans :=
  vecLoad 0x42 mi false (·.n) (fun e => e.stride mi) (fun e i => (i : Int) * e.stride mi) s
/-- The indices of VGATH and VSCAT: 32-bit slots of a register (R207). -/
def VEnv.slot (e : VEnv) (mi : Micro) (i : Nat) : Int := (lane (e.reg mi.srcA.toNat) 32 i : Nat)
def execVgath (mi : Micro) (s : State) : Ans :=
  vecLoad 0x43 mi false (fun e => min e.n 128) (fun _ => 0) (fun e i => e.slot mi i) s
def execVscat (mi : Micro) (s : State) : Ans := vecStore 0x44 mi false (fun e => min e.n 128) (fun e i => e.slot mi i) s

end Sys2Proof.Machine
end

