-- ==== Sys2Proof/Machine/Matrix.lean ====
section
/-! DEFINITION. The matrix core (R214 to R242, R249): tiles, leases, steps, batches, predicted paths as COMMIT and DISCARD end them,
and accumulators read out and in. -/

namespace Sys2Proof

/-- TYPE, MASK and RND are 0 (R225, R229). -/
def Micro.plain (mi : Micro) : Bool := mi.tail.type == 0 && mi.tail.mask == 0 && mi.tail.rnd == 0
/-- The token fields of an engine instruction. -/
def Instr.tok (i : Instr) : Tok :=
  match i with
  | .tcfg _ _ _ t => t
  | i => match microOf i with | some (_, _, m) => m.tail.tok | none => {}

end Sys2Proof

namespace Sys2Proof.Machine

/-! ### Tiles (R64 to R66, R219) -/

/-- The configuration of a tile that may be named: none when it is unconfigured or the second half of a pair (R64, R65). -/
def Cctx.tcfg (c : Cctx) (core j : Nat) : Option Nat :=
  let v := (c.creg (tcfgKey core j)).toNat
  if tcFmt v == 0 || (j % 2 == 1 && tcPair (c.creg (tcfgKey core (j - 1))).toNat) then none else some v
/-- A tile as it stands; a pair is one tile of twice the bytes (R64). -/
def Cctx.tile (c : Cctx) (core j cfg : Nat) : Tile :=
  let t := sget c.tiles (core * 16 + j) {}
  if tcPair cfg then
    { t with bytes := t.bytes ++ (sget c.tiles (core * 16 + j + 1) {}).bytes.map (fun (p : Nat × Word) => (p.1 + 16384, p.2)) }
  else t
/-- A tile set; a pair's second half goes to the tile above. -/
def Cctx.setTile (c : Cctx) (core j cfg : Nat) (t : Tile) : Cctx :=
  if tcPair cfg then
    let lo := t.bytes.filter (fun (p : Nat × Word) => p.1 < 16384)
    let hi := (t.bytes.filter (fun (p : Nat × Word) => 16384 ≤ p.1)).map (fun (p : Nat × Word) => (p.1 - 16384, p.2))
    let a := sset c.tiles (core * 16 + j) { t with bytes := lo }
    { c with tiles := smod a (core * 16 + j + 1) {} (fun (u : Tile) => { u with bytes := hi }) }
  else { c with tiles := sset c.tiles (core * 16 + j) t }

/-- A byte of a wide register, and bytes written at an offset. -/
def wbyte (w : Wide) (i : Nat) : Nat := fld (wget w (i / 8)).toNat (8 * (i % 8)) 8
def wputs (w : Wide) (off : Nat) : List Byte → Wide
  | [] => w
  | b :: t =>
    let sh := 2 ^ (8 * (off % 8))
    let v := (wget w (off / 8)).toNat
    wputs (wset w (off / 8) (wd (v - v / sh % 256 * sh + b.toNat * sh))) (off + 1) t
/-- Bytes below a cut from one register, the rest from another. -/
def wsplice (cut : Nat) (old new : Wide) : Wide :=
  let k := cut / 8
  let mid := (List.range 8).foldl (fun a i => a + wbyte (if 8 * k + i < cut then old else new) (8 * k + i) * 256 ^ i) 0
  wset (old.filter (fun (p : Nat × Word) => p.1 < k) ++ new.filter (fun (p : Nat × Word) => k ≤ p.1)) k (wd mid)
/-- A 32-bit element of an accumulator set. -/
def wlane32 (w : Wide) (i v : Nat) : Wide :=
  let sh := 2 ^ (32 * (i % 2))
  let x := (wget w (i / 2)).toNat
  wset w (i / 2) (wd (x - x / sh % 2 ^ 32 * sh + v % 2 ^ 32 * sh))

/-- Value bits of a tile element (R65). -/
def tileValBits (f : Nat) : Nat := if f == 27 || f == 28 then 2 else (ETy.of (fmtType f)).valBits
/-- The raw element (r, c) of a tile (R65): planes fill a byte from its top, and container bits outside the value are ignored. -/
def tileRaw (w : Wide) (cfg r c : Nat) : Nat :=
  let f := tcFmt cfg
  let cols := tcCols cfg
  let o := r * rowBytes f cols
  if fmtPlane f then
    (List.range (fmtPlanes f)).foldl (fun a q => a + fld (wbyte w (o + q * ceilDiv cols 8 + c / 8)) (c % 8) 1 * 2 ^ (7 - q)) 0
  else
    let b := c * fmtBits f
    let v := (List.range (fmtBytes f)).foldl (fun a i => a + wbyte w (o + b / 8 + i) * 256 ^ i) 0
    fld v (b % 8) (fmtBits f) % 2 ^ tileValBits f
/-- The bytes of a tile row from its raw elements (R65). -/
def tileRow (f cols : Nat) (raws : List Nat) : List Byte :=
  let at' := fun (i : Nat) => raws.getD i 0
  if fmtPlane f then
    (List.range (fmtPlanes f)).flatMap (fun q => (List.range (ceilDiv cols 8)).map (fun b =>
      BitVec.ofNat 8 ((List.range 8).foldl (fun a i => a + fld (at' (8 * b + i)) (7 - q) 1 * 2 ^ i) 0)))
  else
    let w := fmtBits f
    let v := fun (i : Nat) => at' i % 2 ^ tileValBits f
    if 8 ≤ w then (List.range cols).flatMap (fun i => leBytes (w / 8) (v i))
    else
      let per := 8 / w
      (List.range (ceilDiv cols per)).map (fun b =>
        BitVec.ofNat 8 ((List.range per).foldl (fun a i => a + v (per * b + i) * 2 ^ (w * i)) 0))

/-! ### Steps in an array see tile writes until they have read a row (R231) -/

/-- The operands of a step after a write of cycle `w`: rows read in a later cycle hold what stands now, with the scales of groups
whose first row is read later. -/
def MStep.refresh (st : MStep) (c : Cctx) (w : Nat) : MStep :=
  let d := w + 1 - (st.p + st.lat9)
  let upd := fun (t0 : Nat) (fs : List Nat) (row : Nat → Nat) (unread : Nat → Nat → Bool) (ts : List Tile) =>
    ts.mapIdx (fun s t =>
      let cfg := fs.getD s 0
      let cur := c.tile st.core (t0 + s) cfg
      { t with bytes := wsplice (row s * rowBytes (tcFmt cfg) (tcCols cfg)) t.bytes cur.bytes,
               scales := t.scales.filter (fun (p : Nat × Nat) => !unread s (p.1 / 1024))
                 ++ cur.scales.filter (fun (p : Nat × Nat) => unread s (p.1 / 1024)) })
  let j0 := ceilDiv (d * st.k) 14
  { st with a := upd st.ta st.fa (fun _ => d) (fun _ r => d ≤ r) st.a,
            b := upd st.tb st.fb (fun s => j0 - 256 * s) (fun s g => j0 - 256 * s ≤ g * st.g) st.b }
/-- Every step in the array of a core after a write of a cycle to one of the core's tiles. -/
def Mach.refreshSteps (m : Mach) (cc core w : Nat) : Mach :=
  let c := m.cct cc
  { m with pend := m.pend.map (fun (p : Pend) => match p.eff with
      | .twin st => if p.cc == cc && st.core == core then { p with eff := .twin (st.refresh c w) } else p
      | _ => p) }
/-- A tile written in a cycle under a configuration. -/
def Mach.tileWriteAs (m : Mach) (cc core j cfg w : Nat) (f : Tile → Tile) : Mach :=
  (m.modCct cc (fun c => c.setTile core j cfg (f (c.tile core j cfg)))).refreshSteps cc core w
/-- A tile written in a cycle under the configuration that stands. -/
def Mach.tileWrite (m : Mach) (cc core j w : Nat) (f : Nat → Tile → Tile) : Mach :=
  let cfg := ((m.cct cc).creg (tcfgKey core j)).toNat
  m.tileWriteAs cc core j cfg w (f cfg)

/-! ### Matrix-core state -/

def Mach.mcore (m : Mach) (cc core : Nat) : MCore := sget (m.cct cc).cores core {}
def Mach.modCore (m : Mach) (cc core : Nat) (f : MCore → MCore) : Mach :=
  m.modCct cc (fun c => { c with cores := smod c.cores core {} f })
/-- MMODE of the executing core (R216), and its fields. -/
def Mach.mmode (m : Mach) : Nat := ((m.cct m.ccc).creg (0x90 + m.cs.sel.unit)).toNat
/-- An address-base register of the executing core (R218). -/
def Mach.mbReg (m : Mach) (j : Nat) : Word := (m.cct m.ccc).creg (0x100 + 16 * m.cs.sel.unit + j)
/-- The batch that owns an accumulator's twin (R237). -/
def MCore.owner (c : MCore) (acc : Nat) : Option (Nat × Batch) :=
  c.batches.find? (fun b => b.2.state != .free && b.2.twins.contains acc)
/-- Whether a batch opened under the lease is OPEN. -/
def MCore.leaseOpen (c : MCore) : Bool := c.batches.any (fun b => b.2.state == .opened && b.2.lease == c.leaseNo)
/-- Whether a lease ends at the end of this cycle (R221). -/
def MCore.leaseOver (c : MCore) : Bool := c.lheld && (c.lleft == 0 || c.released) && !c.leaseOpen

/-- The tile of an operand field, if it may be named. -/
def Mach.tcfgOf (m : Mach) (f : F7) : Option Nat := (m.cct m.ccc).tcfg m.cs.sel.unit (f.toNat % 16)

/-- A matrix micro-order whose TYPE, MASK and RND are 0. -/
def matWord (mi : Micro) (path : Bool) (bad : Mach → Bool) (body : Nat → Mach → Eng) (s : State) : Ans :=
  microWord mi.tail.tok (fun _ => if mi.plain then none else some .illegalField) (fun m => if bad m then some .illegalField else none)
    path (fun _ => mi.tail.tok.wait) body s

/-- A lease looked at again when something may have ended it (R221): it ends at the end of the present cycle. -/
def Mach.leaseCheck (m : Mach) (now job lc core : Nat) : Mach :=
  let cc := ccKey (m.job job).cx lc
  let k := m.mcore cc core
  if k.leaseOver then m.at (max now (m.jobTick job lc (m.jobCyc now job lc + 1))) .leaseEnd [cc, core, k.leaseNo] else m

/-! ### Tile instructions (R223, R224) -/

/-- TCFG (R223). -/
def execTcfg (_delay : BitVec 4) (tile : F7) (cfg : BitVec 25) (tok : Tok) (s : State) : Ans :=
  microWord tok
    (fun _ => if tcfgOk (tile.toNat % 16) (cfg.toNat * 256) then none else some .illegalField)
    (fun m =>
      let j := tile.toNat % 16
      if j % 2 == 1 && tcPair ((m.cct m.ccc).creg (tcfgKey m.cs.sel.unit (j - 1))).toNat then some .illegalField else none)
    false (fun _ => tok.wait)
    (fun now m =>
      let c := m.ccyc now
      .go ((m.charge 11).pushAt now c (.creg (tcfgKey m.cs.sel.unit (tile.toNat % 16)) (wd (cfg.toNat * 256)))) c 2) s

/-- TZERO (R224). -/
def execTzero (mi : Micro) (s : State) : Ans :=
  matWord mi false (fun m => (m.tcfgOf mi.dest).isNone)
    (fun now m =>
      let c := m.ccyc now
      .go ((m.charge 11).pushAt now c (.tzero m.cs.sel.unit (mi.dest.toNat % 16))) c 2) s

/-- ACCZ (R239). -/
def execAccz (mi : Micro) (s : State) : Ans :=
  matWord mi false (fun _ => false)
    (fun now m =>
      let c := m.ccyc now
      let i := mi.dest.toNat % 4
      if ((m.mcore m.ccc m.cs.sel.unit).owner i).isSome then Eng.err m .accBusy
      else .go ((m.charge 11).pushAt now c (.accZero m.cs.sel.unit i)) c 2) s

/-! ### Leases (R220 to R222) -/

/-- The micro-order at an engine stream's STEP. -/
def Mach.peek (m : Mach) (sid step : Nat) : Option (Instr × Nat) :=
  let s := m.str sid
  let w := fun (i : Nat) => match (m.engineWord sid i).2 with | .ok w => w | .error _ => 0
  let w0 := w step
  let ok := fun (d : Dec) (n : Nat) => match d with | .ok i => some (i, n) | .error _ => none
  if bitOf w0 31 then
    let e := (m.cct (ccKey (m.job s.job).cx s.sel.lc)).entry s.sel.cls s.dbank (fld w0 23 8)
    if entryValid e then ok (decodeEngForm s.sel.cls 0 (expand s.sel.cls e w0).1) 1 else none
  else if isLong w0 then ok (decodeEngForm s.sel.cls 0 (w (step + 2) * 2 ^ 32 + w (step + 1))) 3
  else ok (decodeMicro s.sel.cls w0) 1

/-- Whether the other core of the array issues a LEASE in this very cycle (R220, R221). -/
def Mach.leaseNow (m : Mach) (now : Nat) : Bool :=
  match m.findSel m.cs.job { m.cs.sel with unit := 1 - m.cs.sel.unit } with
  | none => false
  | some i =>
    let s := m.str i
    let fifo := fun (f : Nat) => sget (m.cct m.ccc).fifos f {}
    s.state == .running && s.hold == .none && s.step < s.len && s.next (m.delayAt i) ≤ m.ccyc now
      && (match m.peek i s.step with
        | some (.lease mi, _) =>
          let t := mi.tail.tok
          mi.plain && !t.pe && (match t.wait with | some f => (fifo f).count != 0 | none => true)
            && (!t.se || (fifo t.sfifo.toNat).room)
        | _ => false)

/-- A lease granted (R220): LHELD, LLEFT, and the last holder of the array. -/
def Mach.grant (m : Mach) (cc core pc n : Nat) : Mach :=
  (m.modCore cc core (fun k => { k with lheld := true, lleft := n, leaseNo := k.leaseNo + 1, req := none, released := false })).modPcl
    pc (fun p => { p with lastHolder := core })

/-- LEASE (R220). -/
def execLease (mi : Micro) (s : State) : Ans :=
  matWord mi false (fun _ => false)
    (fun now m =>
      let n := mi.srcA.toNat
      let core := m.cs.sel.unit
      let cc := m.ccc
      let me := m.mcore cc core
      let other := m.mcore cc (1 - core)
      let pc := m.pcOf m.cpart m.clc
      let c := m.ccyc now
      let mc := m.charge 11
      if me.lheld && other.req.isNone then .go (mc.modCore cc core (fun k => { k with lleft := n })) c 2
      else if me.lheld then
        if me.leaseOpen then Eng.err m .leaseShort
        else
          let m := mc.modCore cc core (fun k => { k with released := true, req := some n })
          .wait (m.leaseCheck now m.cs.job m.clc core) (.lease n)
      else
        let last := (m.pcl pc).lastHolder == core
        -- of two requests of one cycle on a free array, the last holder's waits, and is looked at again as the cycle ends (R221)
        let free := !other.lheld && !(last && (m.leaseNow now || other.req.isSome))
        if m.cj.fixed then (if free then .go (mc.grant cc core pc n) c 2 else Eng.err m .leaseShort)
        else if free then .go (mc.grant cc core pc n) c 2
        else
          let mc := mc.modCore cc core (fun k => { k with req := some n })
          .wait (if other.lheld then mc else mc.at (max now (m.jobTick m.cs.job m.clc (c + 1))) .leaseGrant [cc, core]) (.lease n)) s

/-- LREL (R221). -/
def execLrel (mi : Micro) (s : State) : Ans :=
  matWord mi false (fun _ => false)
    (fun now m =>
      let core := m.cs.sel.unit
      let me := m.mcore m.ccc core
      let c := m.ccyc now
      if !me.lheld then .go (m.charge 11) c 2
      else if me.leaseOpen then Eng.err m .leaseShort
      else
        let m := (m.charge 11).modCore m.ccc core (fun k => { k with released := true })
        .go (m.leaseCheck now m.cs.job m.clc core) c 2) s

/-- LEASE_END (R221): the lease ends, and a pending request of the other core is granted. -/
def execLeaseEnd (s : State) : Ans :=
  onMach (fun now m =>
    let cc := m.arg 0
    let core := m.arg 1
    let k := m.mcore cc core
    if !k.leaseOver || k.leaseNo != m.arg 2 then m else
    let m := m.modCore cc core (fun k => { k with lheld := false, lleft := 0, released := false })
    if (m.mcore cc (1 - core)).req.isSome then m.at now .leaseGrant [cc, 1 - core]
    else if k.req.isSome then m.at now .leaseGrant [cc, core] else m) s

/-- LEASE_GRANT (R220): a waiting LEASE is granted and issues. -/
def execLeaseGrant (s : State) : Ans :=
  onMach (fun now m =>
    let cc := m.arg 0
    let core := m.arg 1
    let k := m.mcore cc core
    match k.req with
    | none => m
    | some n =>
      if (m.mcore cc (1 - core)).lheld || k.lheld then m else
      let m := m.grant cc core (m.pcOf (cxPart (ccCx cc)) (ccLc cc)) n
      match m.streams.find? (fun (p : Nat × Stream) => p.2.sel.lc == ccLc cc && p.2.sel.cls == .matrix && p.2.sel.unit == core
          && (m.job p.2.job).cx == ccCx cc && (match p.2.hold with | .lease _ => true | _ => false)) with
      | some (i, _) => m.complete now i
      | none => m) s

/-! ### Batches (R233 to R235) -/

/-- BOPEN and BOPEN.S (R234). -/
def bopenOp (spec : Bool) (mi : Micro) (s : State) : Ans :=
  matWord mi spec (fun _ => false)
    (fun now m =>
      let core := m.cs.sel.unit
      let b := mi.srcA.toNat
      let me := m.mcore m.ccc core
      let tok := mi.tail.tok
      if !me.lheld then Eng.err m .leaseShort
      else if (sget me.batches b {}).state != .free then Eng.err m .accBusy
      else
        let tag : Option Nat := if spec then some (if tok.pe then tok.ptag.toNat else 0) else none
        let m := (m.charge 11).modCore m.ccc core (fun k => { k with
          batches := sset k.batches b { state := .opened, tag := tag, lease := k.leaseNo }, mrb := some b })
        let m := match tag with
          | none => m
          | some t =>
            if m.cj.tagOpen m.clc t then m else
            let lcs := m.clustersOf m.cs.job
            let base := (m.ctx m.cj.cx).regions.map (fun r => (r.pubrid, r.draft))
            m.modJob m.cs.job (fun j =>
              let g : SMap Tag := if j.tagAny t then j.tags else sset j.tags t { base := base, homes := m.homes }
              { j with tags := lcs.foldl (fun (g : SMap Tag) lc => sset g (tagKey lc t) { opened := true }) g })
        .go m (m.ccyc now) 2) s
def execBopen (mi : Micro) (s : State) : Ans := bopenOp false mi s
def execBopenS (mi : Micro) (s : State) : Ans := bopenOp true mi s

/-- The batch that a micro-order names: srcC of a long form, MRB of a native one (R229, R235). -/
def Mach.batchOf (m : Mach) (mi : Micro) : Option Nat :=
  match mi.long with
  | some t => some (t.srcC.toNat / 8)
  | none => (m.mcore m.ccc m.cs.sel.unit).mrb
/-- W and cc of R235 for a batch closed in cycle K. -/
def Batch.w (b : Batch) (k : Nat) : Nat := if b.hasStep then b.lastWrite else k
def Batch.cc (b : Batch) (k : Nat) : Nat := max (b.w k) k + 1
/-- Whether a batch is speculative under a tag that has not resolved. -/
def Batch.waits (b : Batch) : Bool := b.tag.isSome && !b.resolved

/-- CBATCH and WBATCH (R235). A native one with no batch named (MRBV 0) has no effect, and so has a CBATCH on a CLOSED batch; the signal of
either is counted in its issue cycle (DESIGN CHOICE: the spec gives no outcome of the first and no cycle of the second; log 108). -/
def closeBatch (wait : Bool) (mi : Micro) (s : State) : Ans :=
  matWord mi true (fun _ => false)
    (fun now m =>
      let core := m.cs.sel.unit
      let k := m.ccyc now
      let m := m.charge 11
      match m.batchOf mi with
      | none => .go m k 2
      | some b =>
        let bt := sget (m.mcore m.ccc core).batches b {}
        let done := fun (m : Mach) (bt : Batch) =>
          let at' := if bt.waits then bt.w bt.closeAt + 1 else bt.cc bt.closeAt
          if wait then Eng.late m at' (max k at') false else .go m (max k at') 2
        match bt.state with
        | .free => .go m k 2
        | .closed => if wait then done m bt else .go m k 2
        | .opened =>
          let bt : Batch := { bt with state := .closed, closeAt := k }
          let m := m.modCore m.ccc core (fun c => { c with batches := sset c.batches b bt })
          let m := if bt.tag.isNone then m.pushAt now (bt.cc k) (.commit core b true) else m
          done (m.leaseCheck now m.cs.job m.clc core) bt) s
def execCbatch (mi : Micro) (s : State) : Ans := closeBatch false mi s
def execWbatch (mi : Micro) (s : State) : Ans := closeBatch true mi s

/-- Whether a mask covers a byte. -/
def coversByte (k : Wide) (b : Nat) : Bool := wbyte k b == 255
/-- Fresh parity for the register bytes that a result writes (R80). -/
def Mach.mendPend (m : Mach) (p : Pend) : Mach :=
  if m.spoiled.isEmpty then m else
  let all : Nat → Bool := fun _ => true
  match p.eff with
  | .vec unit col ws => (ws.foldl (fun (m : Mach) w =>
      m.mend (if 64 ≤ w.1 then .vec p.cc (unit * 64 + (w.1 - 64)) else .col p.cc ((unit * 5 + col) * 16 + w.1)) (coversByte w.2.2)) m).mend
        (.col p.cc ((unit * 5 + col) * 16)) all
  | .mask unit k _ km => m.mend (.mask p.cc (unit * 8 + k)) (coversByte km)
  | .tileRow core j _ off bs =>
    (m.mend (.tile p.cc (core * 16 + j)) (fun b => off ≤ b && b < off + bs.length)).mend (.tile p.cc (core * 16 + j + 1))
      (fun b => off ≤ b + 131072 && b + 131072 < off + bs.length)
  | .tileAttr .. => m
  | .accRow core i r vs =>
    let f : Nat → Bool := fun b => 2048 * r ≤ b && b < 2048 * r + 4 * vs.length
    (m.mend (.acc p.cc (4 * core + i)) f).mend (.twin p.cc (4 * core + i)) f
  | .twin s => m.mend (.twin p.cc (4 * s.core + s.acc)) (fun b => b / 2048 < s.m && b % 2048 < 4 * s.n)
  | .commit core b keep =>
    -- a twin takes its accumulator's bytes, or gives it its own, with their parity
    (sget (m.mcore p.cc core).batches b {}).twins.foldl (fun (m : Mach) i =>
      let (src, dst) : Loc × Loc := if keep then (.twin p.cc (4 * core + i), .acc p.cc (4 * core + i)) else (.acc p.cc (4 * core + i), .twin p.cc (4 * core + i))
      let m := m.mend dst all
      { m with spoiled := m.spoiled ++ (m.spoiled.filter (fun x => x.1 == src)).map (fun (x : Loc × Nat) => (dst, x.2)) }) m
  | _ => p.locs.foldl (fun m l => m.mend l all) m

/-- A result in flight taken out to be written, with the machine without it. -/
def Mach.takePend (m : Mach) (id : Nat) : Option (Mach × Pend) :=
  (m.pend.find? (fun p => p.id == id)).map (fun p => ({ m with pend := m.pend.filter (fun q => q.id != id) }.mendPend p, p))

/-- BATCH_COMMIT (R233, R235): at cc the batch's twins become committed, or take their committed values again. -/
def execBatchCommit (s : State) : Ans :=
  onMach (fun _ m => match m.takePend (m.arg 0) with
    | some (m', p) => match p.eff with
      | .commit core b keep => m'.modCct p.cc (fun c => c.endBatch core b keep)
      | _ => m
    | none => m) s

/-! ### Predicted paths end (R236, R51 to R53) -/

/-- The step past the micro-orders of a tag that stand in line from a step (R52). -/
def Mach.pastPath (m : Mach) (sid t : Nat) : Nat → Nat → Nat
  | 0, i => i
  | fuel + 1, i =>
    if (m.str sid).len ≤ i then i else
    match m.peek sid i with
    | some (ins, n) => if ins.tok.pe && ins.tok.ptag.toNat == t then m.pastPath sid t fuel (i + n) else i
    | none => i

/-- COMMIT or DISCARD of a tag takes effect on a cluster of a job in cycle E (R236): its speculative batches close and resolve, held
signals go or are dropped, drafts stay or take back their values, deferred faults are raised or dropped. -/
def Mach.resolveTag (m : Mach) (now job lc t : Nat) (keep : Bool) (e : Nat) : Mach :=
  let j := m.job job
  if !j.tagOpen lc t then m else
  let cc := ccKey j.cx lc
  let ids := m.streamsOn job lc
  -- batches
  let m := (skeys (m.cct cc).cores).foldl (fun m core =>
    (m.mcore cc core).batches.foldl (fun m (q : Nat × Batch) =>
      if q.2.tag == some t && q.2.waits && q.2.state != .free then
        let at' := if q.2.state == .closed then q.2.closeAt else e
        let bt : Batch := { q.2 with state := .closed, closeAt := at', resolved := true }
        let m := m.modCore cc core (fun c => { c with batches := sset c.batches q.1 bt })
        let sid := (m.findSel job { kind := 0, ldie := lcDie lc, cluster := lcCluster lc, cls := .matrix, unit := core }).getD 0
        (({ m with cur := sid }.pushAt now (max (bt.w at' + 1) e) (.commit core q.1 keep)).leaseCheck now job lc core)
      else m) m) m
  -- held signals, tentative entries and drafts
  let mine := fun (p : Pend) => p.job == job && p.lc == lc
  let untag := fun (x : Option Nat) => if x == some t then none else x
  let ent := fun (x : SBEnt) => { x with tag := untag x.tag }
  let m := if keep then
      { m with pend := m.pend.map (fun (p : Pend) => if mine p then
          { p with spec := untag p.spec,
                   eff := match p.eff with
                     | .enter es => .enter (es.map ent)
                     | .tst c j g r tg els => .tst c j g r (untag tg) els
                     | .land es a => .land (es.map ent) a
                     | x => x } else p) }.modStreams ids
        (fun s => { s with
          sb := s.sb.map ent
          sig := s.sig.map (fun (x : Nat × Option Nat) => (x.1, untag x.2))
          drainSigs := s.drainSigs.map (fun (x : Nat × Nat × Option Nat) => (x.1, x.2.1, untag x.2.2)) })
    else
      let held := m.pend.filterMap (fun p => if mine p && p.spec == some t then (match p.eff with | .sig f => some f | _ => none) else none)
      let m := { m with pend := (m.pend.filter (fun p => !(mine p && (p.spec == some t || (match p.eff with
          | .tst _ _ _ _ tg _ => tg == some t | _ => false))))).map (fun (p : Pend) => if mine p then
            { p with eff := match p.eff with
                | .enter es => .enter (es.filter (fun x => x.tag != some t))
                | .land es a => .land (es.filter (fun x => x.tag != some t)) a
                | x => x } else p) }
      let m := m.modCct cc (fun c => { c with fifos := held.foldl (fun (f : SMap Fifo) i =>
        smod f i {} (fun x => { x with inflight := x.inflight - 1 })) c.fifos })
      ((ids.foldl (fun m i => m.dropEntries now i (fun x => x.tag == some t)) m).modStreams ids (fun s =>
        { s with drainSigs := s.drainSigs.filter (fun x => x.2.2 != some t) })).restoreDrafts job t
  -- the tag is closed here, and its saved values go with its last cluster
  let m := m.modJob job (fun j =>
    let g := sdel j.tags (tagKey lc t)
    let j := { j with tags := g }
    if j.tagAny t then j else { j with tags := sdel g t })
  let open' := (List.range 4).any (fun u => (m.job job).tagOpen lc u)
  let m := m.modStreams ids (fun s => { s with spec := s.spec && open' })
  -- deferred faults
  ids.foldl (fun m i => match (m.str i).hold with
    | .deferred f u =>
      if u != t then m
      else if keep then (m.modStr i (fun s => { s with hold := .none })).takeFreeze now i f
      else
        let k := m.pastPath i t (m.str i).len (m.str i).step
        m.modStr i (fun s => { s with hold := .none, step := k, spec := false })
    | _ => m) m

/-- COMMIT and DISCARD (R236). -/
def endTag (keep : Bool) (mi : Micro) (s : State) : Ans :=
  matWord mi true (fun _ => false)
    (fun now m =>
      let t := mi.srcA.toNat
      let c := m.ccyc now
      let job := m.cs.job
      let m := m.charge 11
      let ord := if keep then 8 else 7
      if m.cj.fixed then
        let push := fun (m : Mach) (lc : Nat) =>
          let (i, m) := m.newId
          { m with pend := m.pend ++ [{ id := i, job := job, lc := lc, cc := ccKey m.cj.cx lc, sid := m.cur, due := c + 39,
                                        ord := ord, iss := c, eff := .tag t keep }] }
        .go ((m.clustersOf job).foldl push m) (c + 39) 2
      else
        let m := m.pushAt now (c + 1) (.tag t keep) ord
        .go (((m.clustersOf job).filter (· != m.clc)).foldl (fun m lc => 
            let die := pcDie (m.pcOf m.cpart lc)
            m.transfer now (m.routeCy (m.dieOf m.cur) die * m.periodOf m.cur) m.cur die .tagResolve [job, lc, t, b2n keep]) m) (c + 1) 2) s
def execCommit (mi : Micro) (s : State) : Ans := endTag true mi s
def execDiscard (mi : Micro) (s : State) : Ans := endTag false mi s

/-- TAG_RESOLVE (R236): on the issuing cluster in its cycle, as a result in flight; elsewhere in the cycle in which the broadcast arrives,
with (job, cluster, tag, COMMIT). Of a COMMIT and a DISCARD of one cycle the DISCARD comes first, and closes the tag. -/
def execTagResolve (s : State) : Ans :=
  onMach (fun now m =>
    if m.ev.length == 1 then match m.takePend (m.arg 0) with
      | some (m', p) => match p.eff with
        | .tag t keep => m'.resolveTag now p.job p.lc t keep p.due
        | _ => m
      | none => m
    else
      let (job, lc, t, keep) := (m.arg 0, m.arg 1, m.arg 2, m.arg 3 == 1)
      let (i, m) := m.newId
      let c := m.jobCyc now job lc
      { m with pend := m.pend ++ [{ id := i, job := job, lc := lc, cc := ccKey (m.job job).cx lc, sid := 0, due := c,
                                    ord := if keep then 8 else 7, iss := c, eff := .tag t keep }] }) s

/-! ### The step (R160, R161, R214, R215, R229 to R232, R249) -/

/-- Cell cost of a format in quarters of a cell, and its pairing class (R214). -/
def cellCost (f : Nat) : Nat :=
  if 1 ≤ f && f ≤ 3 then 8
  else if fmtPlane f then (if 5 ≤ fmtPlanes f then 4 else if 3 ≤ fmtPlanes f then 2 else 1)
  else if f == 8 || f == 11 || f == 12 then 2 else if f == 27 || f == 28 then 1 else 4
def pairClass (f : Nat) : Nat := if f ≤ 3 then 0 else if f ≤ 8 then 1 else 2

/-- The configurations of a stack of tiles that may all be named. -/
def Cctx.stack (c : Cctx) (core t depth : Nat) : Option (List Nat) := (List.range depth).mapM (fun s => c.tcfg core (t + s))
/-- What every tile of a stack shares (R215). -/
def Cctx.alike (c : Cctx) (core t : Nat) (fs : List Nat) (dim : Nat → Nat) : Bool :=
  let at' := fun (s : Nat) => sget c.tiles (core * 16 + t + s) {}
  (List.range fs.length).all (fun s => dim (fs.getD s 0) == dim (fs.getD 0 0) && tcFmt (fs.getD s 0) == tcFmt (fs.getD 0 0)
    && (at' s).sg == (at' 0).sg && (at' s).midr == (at' 0).midr)

/-- The step a micro-order describes, if it passes the decode checks of R230. -/
def Mach.stepOf (m : Mach) (mi : Micro) (now : Nat) : Option MStep :=
  let c := m.cct m.ccc
  let core := m.cs.sel.unit
  let mm := m.mmode
  let ta := mi.srcA.toNat % 16
  let tb := mi.srcB.toNat % 16
  let da := if bitOf mm 24 then 2 else 1
  let db := 2 ^ fld mm 22 2
  match c.stack core ta da, c.stack core tb db with
  | some fa, some fb =>
    let k := (fa.map tcCols).sum
    let ff := tcFmt (fa.getD 0 0)
    let fg := tcFmt (fb.getD 0 0)
    let sa := (sget c.tiles (core * 16 + ta) {}).sg
    let sb := (sget c.tiles (core * 16 + tb) {}).sg
    let rows := tcRows (fa.getD 0 0)
    let b := (m.batchOf mi).getD 0
    let tok := mi.tail.tok
    let path := !tok.pe || (m.batchOf mi).any (fun b =>
      let bt := sget (m.mcore m.ccc core).batches b {}
      bt.state != .free && bt.tag == some tok.ptag.toNat)
    if ta % da == 0 && tb % db == 0 && c.alike core ta fa tcRows && c.alike core tb fb tcCols
        && fa.dropLast.all (fun f => tcCols f == 512) && fb.dropLast.all (fun f => tcRows f == 256)
        && k == (fb.map tcRows).sum && rows ≤ 64 && k * max (cellCost ff) (cellCost fg) ≤ 1024 && pairClass ff == pairClass fg
        && (sa == 0 || sb == 0 || sa + 4 == sb) && sa < 5 && (sb == 0 || 5 ≤ sb) && path then
      some { core := core, acc := mi.dest.toNat % 4, batch := b, p := m.ccyc now, m := rows, n := tcCols (fb.getD 0 0), k := k,
             g := if pairClass ff == 0 then 8 else if sa == 2 || sb == 6 then 16 else 32, lat9 := m.cj.latOf 9, ta := ta, tb := tb,
             fa := fa, fb := fb, a := fa.mapIdx (fun s f => c.tile core (ta + s) f),
             b := fb.mapIdx (fun s f => c.tile core (tb + s) f), step := m.cs.step }
    else none
  | _, _ => none

/-- Whether the array of a stream's cluster accepts a step of its stream now, in job cycles, as the steps in flight count them (R231, R402). -/
def Mach.arrayFree (m : Mach) (now sid : Nat) : Bool :=
  let s := m.str sid
  match (m.cct (ccKey (m.job s.job).cx s.sel.lc)).lastAccept with
  | some (p, n) => p + max n 14 ≤ m.jobCyc now s.job s.sel.lc
  | none => true

/-- MMA and MMAS (R229, R230, R248). -/
def mmaOp (gather : Bool) (mi : Micro) (s : State) : Ans :=
  microWord mi.tail.tok
    (fun m =>
      if gather && (m.part m.cpart).lcount 3 == 0 then some .unitAbsent
      else if !mi.plain then some .illegalField else none)
    (fun m => if (gather && fld m.mmode 22 2 != 0) || (m.stepOf mi 0).isNone then some .illegalField else none)
    true
    (fun m => match mi.tail.tok.wait with
      | some f => some f
      | none => if gather then some (fld m.mmode 31 5) else none)
    (fun now m =>
      let core := m.cs.sel.unit
      let cc := m.ccc
      let me := m.mcore cc core
      match m.stepOf mi now with
      | none => Eng.err m .illegalField
      | some st =>
        let named := (m.batchOf mi).isSome
        let bt := sget me.batches st.batch {}
        if !me.lheld || me.lleft == 0 || (named && bt.state != .free && bt.lease != me.leaseNo) then Eng.err m .leaseShort
        else if !named || bt.state != .opened || ((me.owner st.acc).any (fun o => o.1 != st.batch)) then Eng.err m .accBusy
        else if !m.arrayFree now m.cur then .hold m .step
        else
          let w := st.p + st.m + m.cj.latOf 10 - 1
          let m := (m.charge 9 st.m).modCct cc (fun c => { c with lastAccept := some (st.p, st.m) })
          let m := m.modCore cc core (fun k => { k with
            lleft := k.lleft - 1,
            batches := smod k.batches st.batch {} (fun b => { b with
              twins := if b.twins.contains st.acc then b.twins else b.twins ++ [st.acc],
              lastWrite := max b.lastWrite w, hasStep := true }) })
          let m := m.pushAt now w (.twin st) 1 none (m.cj.lateOf 10)
          let m := if !gather then m else
            match me.landed.find? (fun x => x.1 == st.tb) with
            | none => m
            | some x => (m.modCore cc core (fun k => { k with landed := k.landed.filter (fun y => y.1 != st.tb) })).pushAt now
                (st.p + st.lat9 + 14) (.landCredit x.2.1 x.2.2)
          .go m w 2) s
def execMma (mi : Micro) (s : State) : Ans := mmaOp false mi s
def execMmas (mi : Micro) (s : State) : Ans := mmaOp true mi s

/-- A group sum (R160, R161): exact, with IEEE special cases. -/
def groupSum (ps : List FV) : FV :=
  let pos := ps.any (fun p => p == .inf false)
  let neg := ps.any (fun p => p == .inf true)
  if ps.any (·.isNan) || (pos && neg) then .nan (ps.any (·.sig) || (pos && neg))
  else if pos || neg then .inf neg
  else (ps.foldl (fun (a : Dy) p => a.add p.dy) { m := 0, e := 0 }).fv (ps.all (·.isNeg))

/-- Operand values of a step. -/
def MStep.av (st : MStep) (i kk : Nat) : FV :=
  let t := st.a.getD (kk / 512) {}
  let f := st.fa.getD (kk / 512) 0
  fmtVal (tcFmt f) t.midr (tileRaw t.bytes f i (kk % 512))
def MStep.bv (st : MStep) (kk j : Nat) : FV :=
  let t := st.b.getD (kk / 256) {}
  let f := st.fb.getD (kk / 256) 0
  fmtVal (tcFmt f) t.midr (tileRaw t.bytes f (kk % 256) j)
/-- Scales of group g for row i and column j; none where the tile is unscaled. -/
def MStep.aScale (st : MStep) (i g : Nat) : Option FV :=
  let kk := g * st.g
  let t := st.a.getD (kk / 512) {}
  if t.sg == 0 then none else some (scaleVal t.sg (sget t.scales (i * 1024 + kk % 512 / st.g) 0))
def MStep.bScale (st : MStep) (g j : Nat) : Option FV :=
  let kk := g * st.g
  let t := st.b.getD (kk / 256) {}
  if t.sg == 0 then none else some (scaleVal (t.sg - 4) (sget t.scales (kk % 256 / st.g * 1024 + j) 0))
/-- The k indices of a group. -/
def MStep.group (st : MStep) (g : Nat) : List Nat := (List.range (min st.g (st.k - g * st.g))).map (· + g * st.g)
/-- A product of a step: a zero among integers has no sign. -/
def MStep.prod (st : MStep) (i j kk : Nat) : FV :=
  let v := (st.av i kk).mul (st.bv kk j)
  if pairClass (tcFmt (st.fa.getD 0 0)) == 2 && v.isZero then .fin false 0 0 else v
/-- The unscaled group sum of element (i, j). -/
def MStep.gsum (st : MStep) (i j g : Nat) : FV := groupSum ((st.group g).map (st.prod i j))
/-- One element of a step (R160): its new bits and flags. -/
def MStep.elem (st : MStep) (acc i j : Nat) : Nat × Nat :=
  (List.range (ceilDiv st.k st.g)).foldl (fun (a : Nat × Nat) g =>
    let s := st.gsum i j g
    let s := match st.aScale i g with | some x => s.mul x | none => s
    let s := match st.bScale g j with | some x => s.mul x | none => s
    let (r, fl) := f32.enc .rne ((f32.dec a.1).add false s)
    (r, a.2 ||| fl ||| (if s.sig then fIV else 0))) (acc, 0)
/-- The checksums of R249 on groups of finite operands: for each row and group, and each column and group. -/
def MStep.checks (st : MStep) : Bool :=
  let dy := fun (l : List Dy) => l.foldl Dy.add { m := 0, e := 0 }
  let eq := fun (x y : Dy) => (x.add { m := -y.m, e := y.e }).m == 0
  let ms := List.range st.m
  let ns := List.range st.n
  let fin := fun (v : FV) => match v with | .fin _ _ _ => true | _ => false
  (List.range (ceilDiv st.k st.g)).all (fun g =>
    let ks := st.group g
    !(ks.all (fun kk => ms.all (fun i => fin (st.av i kk)) && ns.all (fun j => fin (st.bv kk j))))
      || (ms.all (fun i => eq (dy (ns.map (fun j => (st.gsum i j g).dy)))
            (dy (ks.map (fun kk => (st.av i kk).dy.mul (dy (ns.map (fun j => (st.bv kk j).dy)))))))
        && ns.all (fun j => eq (dy (ms.map (fun i => (st.gsum i j g).dy)))
            (dy (ks.map (fun kk => (dy (ms.map (fun i => (st.av i kk).dy))).mul (st.bv kk j).dy))))))
/-- A step's twin and flags (R232). -/
def MStep.out (st : MStep) (tw : Wide) : Wide × Nat :=
  (List.range st.m).foldl (fun (a : Wide × Nat) i => (List.range st.n).foldl (fun (a : Wide × Nat) j =>
    let (v, fl) := st.elem (lane tw 32 (i * 512 + j)) i j
    (wlane32 a.1 (i * 512 + j) v, a.2 ||| fl)) a) (tw, 0)

/-- MMA_STEP_WRITE (R231, R232, R249): the twin and the flags, or the containment of a failed check, whose misc word holds STEP and, in
bits that R438 gives no field, the array's index, its cluster's number (DESIGN CHOICE, log 94). -/
def execMmaStepWrite (s : State) : Ans :=
  onMach (fun now m => match m.takePend (m.arg 0) with
    | some (m', p) => match p.eff with
      | .twin st =>
        let k := st.core * 4 + st.acc
        if st.checks then m'.modCct p.cc (fun c =>
          let (tw, fl) := st.out (sget c.twin k [])
          { c with twin := sset c.twin k tw }.setFlags (0x78 + st.core) fl)
        else
          let cx := ccCx p.cc
          let pc := m'.pcOf (cxPart cx) p.lc
          let m' := m'.mcLog (pcDie pc) 1 (mcStatus 2 0 0x31 (cxPart cx) (cx % 64) 2 (pcCluster pc) st.core (m'.job p.job).jobid) 0
            (st.step * 2 ^ 40 + pcCluster pc)
          ((m'.modPcl pc (fun c => { c with arrayRetired := true })).takeFreeze now p.sid { code := .residue }).leaveArray now pc
      | _ => m
    | none => m) s

/-! ### TLD and TST (R225 to R228) -/

/-- Page elements of a tile from ea, row by row (R225). -/
def tileEls (cfg : Nat) (tr : Bool) (p : Nat) : List (Nat × Int) :=
  let p := if p == 0 then (if tr then tcRows cfg else tcCols cfg) else p
  (List.range (tcRows cfg)).flatMap (fun r => (List.range (tcCols cfg)).map (fun c =>
    (r * tcCols cfg + c, ((if tr then c * p + r else r * p + c : Nat) : Int))))
/-- Cycles between the rows of a tile transfer (R228). -/
def rowCyc (bytes : Nat) : Nat := ceilDiv bytes 512

/-- TLD (R225 to R228). -/
def execTld (mi : Micro) (s : State) : Ans :=
  matWord mi false (fun m => (m.tcfgOf mi.dest).isNone)
    (fun now m =>
      let cfg := (m.tcfgOf mi.dest).getD 0
      let core := m.cs.sel.unit
      let j := mi.dest.toNat % 16
      let tr := bitOf mi.srcA.toNat 4
      let ea := memEa (m.mbReg mi.memBase) mi
      let pr := (m.mbReg (mi.srcA.toNat % 16)).toNat
      let pit := if pr == 0 then (if tr then tcRows cfg else tcCols cfg) else pr
      match m.eaPage ea with
      | .error f => .flt m f
      | .ok (m, p0) =>
        let f := p0.fmt
        let gs := groupOf p0.geom
        let e0 := elemIndex f p0.off 0
        if !eaAligned p0 ea true then Eng.err m .align ea
        else if p0.geom != 0 && (e0 % gs != 0 || pit % gs != 0 || (if tr then tcRows cfg else tcCols cfg) % gs != 0) then
          .flt m { code := .formatMismatch, fva := ea, ptea := p0.ptea }
        else match m.elems ea f (tilePlanes (tcFmt cfg)) { rd := true } (fun p => tilePair p.fmt (tcFmt cfg))
            (fun o p => o.geom == p.geom && o.midr == p.midr) [] none (tileEls cfg tr pr) with
          | .error f => .flt m f
          | .ok (m, es) => match m.elemsUnstarted es with
            | some lc => .hold m (.start lc)
            | none =>
              let rows := tcRows cfg
              let cols := tcCols cfg
              let rb := rowBytes (tcFmt cfg) cols
              let due := m.loadDue now (p0.home 0)
              let raws := es.map (fun x => (x.i, m.elemRaw f x))
              let sc : SMap Nat := if p0.geom == 0 then [] else
                es.foldl (fun (a : SMap Nat) x =>
                  let r := x.i / cols
                  let c := x.i % cols
                  if tr then (if r % gs == 0 then sset a (r / gs * 1024 + c) (m.elemScale x) else a)
                  else if c % gs == 0 then sset a (r * 1024 + c / gs) (m.elemScale x) else a) []
              let sg := if p0.geom == 0 then 0 else p0.geom + (if tr then 4 else 0)
              let last := due + (rows - 1) * rowCyc rb
              let (late, m) := (m.charge 10 rows).loadLate (p0.home 0)
              let m := (List.range rows).foldl (fun (m : Mach) r =>
                m.pushAt now (due + r * rowCyc rb) (.tileRow core j cfg (r * rb)
                  (tileRow (tcFmt cfg) cols (((raws.drop (r * cols)).take cols).map (·.2)))) 0 none late) m
              .go (m.pushAt now last (.tileAttr core j sg p0.midr sc) 1 none late) last 2) s

/-- TST (R225 to R228): each row is read and placed in the store buffer in its own cycle. -/
def execTst (mi : Micro) (s : State) : Ans :=
  matWord mi true (fun m => (m.tcfgOf mi.dest).isNone)
    (fun now m =>
      let cfg := (m.tcfgOf mi.dest).getD 0
      let tr := bitOf mi.srcA.toNat 4
      let ea := memEa (m.mbReg mi.memBase) mi
      match m.eaPage ea with
      | .error f => .flt m f
      | .ok (m, p0) =>
        if !eaAligned p0 ea true then Eng.err m .align ea
        else match m.elems ea p0.fmt 8 { wr := true } (fun p => p.fmt == tcFmt cfg)
            (fun o p => o.geom == p.geom && o.midr == p.midr) [] none (tileEls cfg tr (m.mbReg (mi.srcA.toNat % 16)).toNat) with
          | .error f => .flt m f
          | .ok (m, es) =>
            if mi.tail.tok.pe && !draftOnly es then Eng.err m .illegalField else
            let rows := tcRows cfg
            let cols := tcCols cfg
            let k := rowCyc (rowBytes (tcFmt cfg) cols)
            let c := m.ccyc now
            let m := (List.range rows).foldl (fun (m : Mach) r =>
              m.pushAt now (c + r * k - 1) (.tst m.cs.sel.unit (mi.dest.toNat % 16) cfg r (m.pathOf mi.tail.tok)
                (((es.drop (r * cols)).take cols).map (fun x => (x.places, x.bit)))) 9) (m.charge 10 rows)
            .go m (c + (rows - 1) * k) 3) s

/-! ### ACCRD (R240 to R242) -/

/-- Shape of an accumulator transfer (R216). -/
def Mach.accRows (m : Mach) : Nat := fld m.mmode 9 6 + 1
def Mach.accCols (m : Mach) : Nat := fld m.mmode 0 9 + 1
/-- Page elements of an accumulator transfer (R240). -/
def accEls (rs cs p : Nat) : List (Nat × Int) :=
  let p := if p == 0 then cs else p
  (List.range rs).flatMap (fun r => (List.range cs).map (fun c => (r * cs + c, ((r * p + c : Nat) : Int))))

/-- The output form (R240, R241). -/
def execAccrd (mi : Micro) (s : State) : Ans :=
  let t := mi.tail
  let ty := t.type.toNat
  microWord t.tok
    (fun _ =>
      let okT := ty ≤ 8 || (10 ≤ ty && ty ≤ 17)
      if okT && t.rnd.toNat ≤ 5 && t.mask == 0 then none else some .illegalField)
    (fun m =>
      let rt := fld m.mmode 27 4
      let sr := t.rnd == 5
      let okR := !sr || (match (m.cct m.ccc).tcfg m.cs.sel.unit rt with
        | some c => 2 * m.accRows * m.accCols ≤ tcRows c * rowBytes (tcFmt c) (tcCols c)
        | none => false)
      if okR then none else some .illegalField)
    true (fun _ => t.tok.wait)
    (fun now m =>
      let core := m.cs.sel.unit
      let rs := m.accRows
      let cs := m.accCols
      let i := mi.dest.toNat % 4
      let mm := m.mmode
      let ea := memEa (m.mbReg mi.memBase) mi
      match m.eaPage ea with
      | .error f => .flt m f
      | .ok (m, p0) =>
        if !eaAligned p0 ea false then Eng.err m .align ea
        else match m.elems ea p0.fmt 8 { wr := true } (fun p => storePair p.fmt ty && p.geom == 0) (fun _ _ => true) [] none
            (accEls rs cs (m.mbReg (mi.srcA.toNat % 16)).toNat) with
          | .error f => .flt m f
          | .ok (m, es) =>
            if t.tok.pe && !draftOnly es then Eng.err m .illegalField else
            let c := m.cct m.ccc
            let own := (m.mcore m.ccc core).owner i
            let src := if t.tok.pe && own.any (fun o => o.2.tag == some t.tok.ptag.toNat) then sget c.twin (core * 4 + i) []
              else sget c.acc (core * 4 + i) []
            let rt := fld mm 27 4
            let rnd := (c.tile core rt ((c.tcfg core rt).getD 0)).bytes
            let md := fun (x : Nat) => if t.rnd == 5 then
                Rnd.sr ([8, 12, 16].getD (fld mm 25 2) 8) (wbyte rnd (2 * x) + 256 * wbyte rnd (2 * x + 1))
              else Rnd.ofCode t.rnd.toNat
            let cv := fun (x : Nat) =>
              let v := lane src 32 (x / cs * 512 + x % cs)
              if ty == 8 then (v, 0) else ETy.conv (ETy.of 8) (ETy.of ty) (md x) v
            let rsl := es.map (fun x => (x, cv x.i))
            let ents := rsl.foldl (fun a x => x.1.store p0.fmt (x.2.1 % 2 ^ (ETy.of ty).valBits) (m.ccyc now) (m.pathOf t.tok) a) []
            let fl := rsl.foldl (fun a x => a ||| x.2.2) 0
            let due := m.ccyc now + m.cj.latOf 11 - 1
            let m := (m.charge 10 rs).pushAt now (due - 1) (.enter (sortEntries ents)) 9 none (m.cj.lateOf 11)
            .go (if fl == 0 then m else m.pushAt now due (.flags (m.cs.astatKey m.cur) fl) 1 none (m.cj.lateOf 11)) due 3) s

/-- The input form (R240, R242). -/
def execAccrdIn (mi : Micro) (s : State) : Ans :=
  let t := mi.tail
  microWord t.tok
    (fun _ => if t.type == 8 && t.rnd == 0 && t.mask == 0 then none else some .illegalField) (fun _ => none)
    false (fun _ => t.tok.wait)
    (fun now m =>
      let core := m.cs.sel.unit
      let rs := m.accRows
      let cs := m.accCols
      let i := mi.dest.toNat % 4
      let ea := memEa (m.mbReg mi.memBase) mi
      match m.eaPage ea with
      | .error f => .flt m f
      | .ok (m, p0) =>
        if !eaAligned p0 ea true then Eng.err m .align ea
        else match m.elems ea p0.fmt 8 { rd := true } (fun p => loadPair p.fmt p.geom 8 && ownType p.fmt 8 && p.geom == 0)
            (fun _ _ => true) [] none (accEls rs cs (m.mbReg (mi.srcA.toNat % 16)).toNat) with
          | .error f => .flt m f
          | .ok (m, es) => match m.elemsUnstarted es with
            | some lc => .hold m (.start lc)
            | none =>
              if ((m.mcore m.ccc core).owner i).isSome then Eng.err m .accBusy else
              let due := m.loadDue now (p0.home 0)
              let vs := es.map (fun x => m.elemRaw p0.fmt x)
              let k := rowCyc (4 * cs)
              let (late, m) := (m.charge 10 rs).loadLate (p0.home 0)
              let m := (List.range rs).foldl (fun (m : Mach) r =>
                m.pushAt now (due + r * k) (.accRow core i r ((vs.drop (r * cs)).take cs)) 0 none late) m
              .go m (due + (rs - 1) * k) 2) s

/-! ### Rows and zeroes as they are written -/

/-- What a tile or accumulator result does in its declared write cycle (R224, R228, R239, R242). -/
def Mach.matrixEff (m : Mach) (now : Nat) (p : Pend) : Mach :=
  match p.eff with
  | .tileRow core j cfg off bs => m.tileWriteAs p.cc core j cfg p.due (fun t => { t with bytes := wputs t.bytes off bs })
  | .tileAttr core j sg midr sc =>
    (m.modCct p.cc (fun c => { c with tiles := smod c.tiles (core * 16 + j) {} (fun t => { t with sg := sg, midr := midr, scales := sc }) })).refreshSteps
      p.cc core p.due
  | .tzero core j => m.tileWrite p.cc core j p.due (fun _ t => { t with bytes := [], sg := 0, midr := false })
  | .accRow core i r vs => m.modCct p.cc (fun c =>
      let put := fun (w : Wide) => (vs.foldl (fun (a : Wide × Nat) v => (wlane32 a.1 (r * 512 + a.2) v, a.2 + 1)) (w, 0)).1
      let k := core * 4 + i
      { c with acc := sset c.acc k (put (sget c.acc k [])), twin := sset c.twin k (put (sget c.twin k [])) })
  | .accZero core i => m.modCct p.cc (fun c => { c with acc := sset c.acc (core * 4 + i) [], twin := sset c.twin (core * 4 + i) [] })
  | .tst core j cfg r tag els =>
    let w := ((m.cct p.cc).tile core j cfg).bytes
    let es := (els.foldl (fun (a : List SBEnt × Nat) x =>
      (putElem (tcFmt cfg) (tileRaw w cfg r a.2) p.iss tag a.1 x.1 x.2, a.2 + 1)) ([], 0)).1
    m.enter now p.sid (sortEntries es)
  | _ => m

/-- TLD_ROW_WRITE (R228, R242): a row of TLD or ACCRD.IN is written in its declared write cycle. -/
def execTldRowWrite (s : State) : Ans :=
  onMach (fun now m => match m.takePend (m.arg 0) with
    | some (m', p) => m'.matrixEff now p
    | none => m) s

/-! ### A held step (R231) -/

/-- MMA_STEP_ACCEPT (R231): a held step issues once the array accepts it. -/
def execMmaStepAccept (s : State) : Ans :=
  let sid := s.mach.arg 0
  let m := { s.mach with cur := sid, curLen := s.mach.wordLen sid }
  let t : State := { s with mach := m }
  if (m.str sid).hold != .step || (m.str sid).state == .frozen || !m.arrayFree s.now sid then .next s else
  match m.peek sid (m.str sid).step with
  | some (.mma mi, _) => execMma mi t
  | some (.mmas mi, _) => execMmas mi t
  | _ => .next { s with mach := m.modStr sid (fun s => { s with hold := .none }) }

end Sys2Proof.Machine
end

