-- ==== Sys2Proof/Machine/Gather.lean ====
section
/-! DEFINITION. The gather engine (R243 to R247), and data that a host completes (R279). -/

namespace Sys2Proof.Machine

/-- An address-base register of the gather engine (R243). -/
def Mach.gaReg (m : Mach) (j : Nat) : Word := (m.cct m.ccc).creg (0x130 + j)
def GSlot.w (g : GSlot) (i : Nat) : Nat := g.words.getD i 0
def GSlot.fmt (g : GSlot) : Nat := fld (g.w 4) 0 5
def GSlot.rows (g : GSlot) : Nat := fld (g.w 4) 14 8 + 1
def GSlot.cols (g : GSlot) : Nat := fld (g.w 4) 5 9 + 1
def GSlot.tileNo (g : GSlot) : Nat := fld (g.w 4) 22 4
def GSlot.core (g : GSlot) : Nat := fld (g.w 4) 26 4 % 2
def GSlot.fifo (g : GSlot) : Nat := fld (g.w 4) 33 5
/-- The target cluster of a descriptor. -/
def GSlot.lc (g : GSlot) : Nat := lcKey 0 (fld (g.w 4) 30 3) (fld (g.w 4) 26 4 / 2)
def GSlot.ktot (g : GSlot) : Nat := g.w 3 % 2 ^ 32
def GSlot.ntot (g : GSlot) : Nat := g.w 3 / 2 ^ 32

/-- The slot a descriptor makes: its cursor at (KB0, NB0) and one landing credit (R244). -/
def slotOf (ws : List Nat) : GSlot := { words := ws, row := ws.getD 5 0 % 2 ^ 32, col := ws.getD 5 0 / 2 ^ 32, credit := 1 }
def Cctx.setSlot (c : Cctx) (slot : Nat) (ws : List Nat) : Cctx := { c with gslots := sset c.gslots slot (slotOf ws) }

/-- Limits of a descriptor (R244). -/
def Mach.slotOkay (m : Mach) (ws : List Nat) : Bool :=
  let g := slotOf ws
  let tc := m.cct (ccKey m.cj.cx g.lc)
  fld (g.w 4) 38 26 == 0 && g.w 6 / 2 ^ 16 == 0 && g.w 7 == 0 && 1 ≤ g.fmt && g.fmt ≤ 28
    && fld (g.w 4) 30 3 < (m.part m.cpart).lcount 0 && g.rows * rowBytes g.fmt g.cols ≤ 131072
    && !(g.tileNo % 2 == 1 && tcPair (tc.creg (tcfgKey g.core (g.tileNo - 1))).toNat)

/-- GSET (R244). -/
def execGset (mi : Micro) (s : State) : Ans :=
  microWord mi.tail.tok
    (fun m => if (m.part m.cpart).lcount 3 == 0 then some .unitAbsent else if mi.plain then none else some .illegalField)
    (fun _ => none) false (fun _ => mi.tail.tok.wait)
    (fun now m =>
      let ea := memEa (m.gaReg mi.memBase) mi
      match m.scalarPage ea 64 { rd := true } false with
      | .error f => .flt m f
      | .ok (m, p) => match m.unstarted m.cs.job (p.home 0) with
        | some lc => .hold m (.start lc)
        | none =>
          if m.pgBad p 64 then .flt m { code := .ecc, fva := ea, bad := m.badHome p 64 } else
          let ws := wordsOf (m.readPg m.cur .plain p 64)
          let m := m.softPg p 64
          let slot := mi.dest.toNat
          if !m.slotOkay ws then Eng.err m .illegalField
          else
            let m := m.charge 14
            if p.tgt == 1 then .wait (m.awaitHost now) (.gset slot ws)
            else
              let due := m.loadDue now (p.home 0)
              .go (m.pushAt now due (.gslot slot ws)) due 2) s

/-- A raw 32-bit read of GB: row pointers and column indices (R245); host memory and HBM4E are out of reach (R73, R74). -/
def Mach.gbRead (m : Mach) (va : Nat) : Except Flt (Mach × Nat) :=
  match m.scalarPage va 4 { rd := true } false with
  | .error f => .error f
  | .ok (m, p) =>
    if p.tgt < 2 then .error { code := .pageProt, fva := va, ptea := p.ptea }
    else if m.pgBad p 4 then .error { code := .ecc, fva := va, bad := m.badHome p 4 }
    else .ok (m.softPg p 4, leNat (m.readPg m.cur .plain p 4))

/-- The entries of one row that fall into the tile, as (column in the tile, q), from entry `q` on. -/
def Mach.gbRow (m : Mach) (g : GSlot) : Nat → Nat → Except Flt (Mach × List (Nat × Nat))
  | 0, _ => .ok (m, [])
  | n + 1, q => match m.gbRead (g.w 1 + 4 * q) with
    | .error f => .error f
    | .ok (m, c) => match m.gbRow g n (q + 1) with
      | .error f => .error f
      | .ok (m, l) =>
        .ok (m, if g.col ≤ c && c < g.col + g.cols && c < g.ntot then (c - g.col, q) :: l else l)

/-- The rows of a tile: the entries that fall into it as (row, column, q), and the number scanned (R245). -/
def Mach.gbScan (m : Mach) (g : GSlot) : Nat → Nat → Except Flt (Mach × List (Nat × Nat × Nat) × Nat)
  | 0, _ => .ok (m, [], 0)
  | n + 1, r =>
    if g.ktot ≤ g.row + r then .ok (m, [], 0) else
    match m.gbRead (g.w 0 + 4 * (g.row + r)) with
    | .error f => .error f
    | .ok (m, lo) => match m.gbRead (g.w 0 + 4 * (g.row + r + 1)) with
      | .error f => .error f
      | .ok (m, hi) => match m.gbRow g (hi - lo) lo with
        | .error f => .error f
        | .ok (m, l) => match m.gbScan g n (r + 1) with
          | .error f => .error f
          | .ok (m, t, e) => .ok (m, l.map (fun x => (r, x.1, x.2)) ++ t, e + (hi - lo))

/-- The cursor after a tile (R245). -/
def GSlot.advance (g : GSlot) : GSlot :=
  let kb := g.w 5 % 2 ^ 32
  let nb := g.w 5 / 2 ^ 32
  let r := g.row + g.rows
  let (r, c) := if g.ktot ≤ r then (kb, g.col + g.cols) else (r, g.col)
  { g with row := r, col := if g.ntot ≤ c then nb else c, credit := g.credit - 1 }

/-- Whether a remote producer's copy of a FIFO, and the FIFO itself, admit one more signal (R45). -/
def Fifo.roomFor (x : Fifo) (sid : Nat) : Bool := x.room && sget x.copies sid x.credit < 255
/-- A remote producer's signal on its way: counted in its copy and among those in flight (R45). -/
def Fifo.sent (x : Fifo) (sid : Nat) : Fifo :=
  { x with inflight := x.inflight + 1, copies := sset x.copies sid (sget x.copies sid x.credit + 1) }

/-- Cycles of the way of what a stream sends to a cluster's die: 39 in fixed timing, else its route and a delay that the spec leaves open (R13,
R14). -/
def Mach.trip (m : Mach) (die : Nat) : Nat × Mach :=
  if m.cj.fixed then (39, m) else (m.routeCy (m.dieOf m.cur) die + Config.delayTicks m.draw.1, m.draw.2)
/-- The last write cycle of what the executing stream has sent to a die already: what follows it lands no sooner (R12). -/
def Mach.sentDue (m : Mach) (die : Nat) : Nat :=
  m.pend.foldl (fun a p => if p.sid != m.cur then a else match p.eff with
    | .landing tcc .. => if pcDie (m.pcOf m.cpart (ccLc tcc)) == die then max a p.due else a
    | .land es _ => if es.any (fun e => m.homeDie m.cpart e.line == die) then max a p.due else a
    | _ => a) 0

/-- GB (R245 to R247). -/
def execGb (mi : Micro) (s : State) : Ans :=
  microWord mi.tail.tok
    (fun m => if (m.part m.cpart).lcount 3 == 0 then some .unitAbsent
      else if mi.plain && !mi.tail.tok.se then none else some .illegalField)
    (fun _ => none) false (fun _ => mi.tail.tok.wait)
    (fun now m =>
      let slot := mi.dest.toNat
      let g := sget (m.cct m.ccc).gslots slot {}
      let tcc := ccKey m.cj.cx g.lc
      let x := sget (m.cct tcc).fifos g.fifo {}
      if g.credit == 0 || !x.roomFor m.cur then
        if m.cj.fixed then Eng.err m .tokenCheck else .hold m (.credit slot)
      else match m.gbScan g g.rows 0 with
      | .error f => .flt m f
      | .ok (m, hits, scanned) =>
        match m.eaPage (g.w 2) with
        | .error f => .flt m f
        | .ok (m, p0) =>
          let f := p0.fmt
          let cols := g.cols
          let gs := groupOf p0.geom
          if !eaAligned p0 (g.w 2) true then Eng.err m .align (g.w 2)
          else match m.elems (g.w 2) f (tilePlanes g.fmt) { rd := true } (fun p => tilePair p.fmt g.fmt)
              (fun o p => o.geom == p.geom && o.midr == p.midr) [] none (hits.map (fun h => (h.1 * cols + h.2.1, ((h.2.2 : Nat) : Int)))) with
          | .error f => .flt m f
          | .ok (m, es) => match m.elemsUnstarted es with
            | some lc => .hold m (.start lc)
            | none =>
              let vals := es.map (fun x => (x.i, m.elemRaw f x))
              let key := fun (x : ElemAt) => x.i / cols / gs * 1024 + x.i % cols
              let scs := if p0.geom == 0 then [] else es.map (fun x => (key x, m.elemScale x))
              if scs.any (fun a => scs.any (fun b => a.1 == b.1 && a.2 != b.2)) then
                .flt m { code := .formatMismatch, fva := g.w 2, ptea := p0.ptea }
              else
                let one := if p0.geom == 1 then 0x7F else 0x38
                let sc : SMap Nat := if p0.geom == 0 then [] else
                  (List.range (ceilDiv g.rows gs)).flatMap (fun q => (List.range cols).map (fun c =>
                    (q * 1024 + c, ((scs.find? (fun s => s.1 == q * 1024 + c)).map (·.2)).getD one)))
                let rb := rowBytes g.fmt cols
                -- a later entry overwrites an earlier one of its place
                let last := fun (i : Nat) => ((vals.reverse.find? (fun v => v.1 == i)).map (·.2)).getD 0
                let bytes := (List.range g.rows).foldl (fun (w : Wide) r =>
                  wputs w (r * rb) (tileRow g.fmt cols ((List.range cols).map (fun c => last (r * cols + c))))) []
                let t : Tile := { bytes := bytes, sg := if p0.geom == 0 then 0 else p0.geom + 4, midr := p0.midr, scales := sc }
                let cfg := g.fmt * 2 ^ 27 + g.rows * 2 ^ 18 + cols * 2 ^ 8
                let d := 48 + g.rows + ceilDiv scanned 8
                let m := m.charge 14 g.rows
                let die := pcDie (m.pcOf m.cpart g.lc)
                let (extra, m) := m.trip die
                let due := max (m.ccyc now + max (d + extra) (fld (g.w 6) 0 16) - 1) (m.sentDue die)
                let m := m.modCct m.ccc (fun c => { c with gslots := sset c.gslots slot g.advance })
                let m := m.modCct tcc (fun c => { c with fifos := smod c.fifos g.fifo {} (fun x => x.sent m.cur) })
                .go (m.pushAt now due (.landing tcc g.core g.tileNo cfg t g.fifo m.ccc slot)) due 2) s

/-- GB_LANDING (R246, R247): the tile, its configuration and attributes are written in the landing cycle, the descriptor's FIFO is
signalled, and the tile remembers the slot that landed it. The landing stands in the record of its gather engine. -/
def execGbLanding (s : State) : Ans :=
  onMach (fun now m => match m.takePend (m.arg 0) with
    | some (m', p) => match p.eff with
      | .landing tcc core j cfg t fifo gcc slot =>
        let lc := ccLc tcc
        let m' := m'.modCct tcc (fun c => c.setCreg (tcfgKey core j) (wd cfg))
        let m' := m'.tileWriteAs tcc core j cfg (m'.jobCyc now p.job lc - 1) (fun _ => t)
        let m' := m'.modCore tcc core (fun k => { k with landed := (j, gcc, slot) :: k.landed.filter (fun x => x.1 != j) })
        m'.at now .tokenBeatArrival [tcc, fifo]
      | _ => m
    | none => m) s

/-- LANDING_CREDIT_RETURN (R247): a step that read a landed tile returns the credit to the slot, in the job cycle of its way back. -/
def execLandingCreditReturn (s : State) : Ans :=
  onMach (fun _ m => match m.takePend (m.arg 0) with
    | some (m', p) => match p.eff with
      | .landCredit gcc slot => m'.modCct gcc (fun c => { c with gslots := smod c.gslots slot {} (fun g => { g with credit := g.credit + 1 }) })
      | _ => m
    | none => m) s

/-! ### Host data (R279) -/

/-- HOST_COMPLETION (R279): data arrives for a stream waiting on host memory; status 0 is a good completion, any other an error
completion, which raises LINK_UNCORRECTABLE at the waiting word. -/
def execHostCompletion (s : State) : Ans :=
  onMach (fun now m =>
    let sid := m.arg 0
    match (m.str sid).hold with
    | .host d w home acq v =>
      if (m.str sid).state == .frozen then m
      else if m.arg 1 != 0 then { m with cur := sid }.takeFreeze now sid { code := .link }
      else
        let m := m.endHostWait sid
        let v := if acq then w.extend ((List.range w.bytes).map (fun i => m.readByte sid .home false (home + i))) else v
        let m := m.replyReg now sid d v
        if acq then m.refresh sid else m
    | .dld k bank next left bad home true d =>
      if (m.str sid).state == .frozen then m
      else if m.arg 1 != 0 then { m with cur := sid }.takeFreeze now sid { code := .link }
      else ((m.endHostWait sid).modStr sid (fun s => { s with hold := .dld k bank next left bad home false d })).at now .dldEntryArrival [sid]
    | .desc gemb ws d =>
      if (m.str sid).state == .frozen then m
      else if m.arg 1 != 0 then { m with cur := sid }.takeFreeze now sid { code := .link }
      else
        let m := (({ m with cur := sid } : Mach).endHostWait sid).modStr sid (fun s => { s with hold := .none })
        (if gemb then m.gembCopy now d ws else m.cpy2dCopy now d ws).finish now
    -- an atomic's error completion (R279); its good completion is its reply (R283)
    | .atomic id => match m.atoms.find? (fun a => a.id == id) with
      | some a => if m.arg 1 != 0 && isHost a.home && a.done.isNone && (m.str sid).state != .frozen then
          { m with cur := sid, atoms := m.atoms.filter (fun x => x.id != id) }.takeFreeze now sid { code := .link }
        else m
      | none => m
    | .gset slot ws =>
      if (m.str sid).state == .frozen then m
      else if m.arg 1 != 0 then { m with cur := sid }.takeFreeze now sid { code := .link }
      else
        let m := (m.endHostWait sid).modCct (ccKey (m.job (m.str sid).job).cx (m.str sid).sel.lc) (fun c => c.setSlot slot ws)
        m.complete now sid
    | _ => m) s

/-- COMPLETION_TIMEOUT (R279): the CXL completion timeout expires at the waiting word, which writes no register. -/
def execCompletionTimeout (s : State) : Ans :=
  onMach (fun now m =>
    let sid := m.arg 0
    let st := m.str sid
    if st.state == .frozen then m else
    match st.hold with
    | .host .. | .dld .. | .gset .. | .desc .. => { m with cur := sid }.takeFreeze now sid { code := .link }
    | .atomic id =>
      match m.atoms.find? (fun a => a.id == id) with
      | some a => if isHost a.home && a.done.isNone then
          { m with cur := sid, atoms := m.atoms.filter (fun x => x.id != id) }.takeFreeze now sid { code := .link }
        else m
      | none => m
    | _ => m) s

end Sys2Proof.Machine
end

