-- ==== Sys2Proof/Machine/LdSt.lean ====
section
/-! DEFINITION. Load and store streams of a BFD (R313 to R315). -/

namespace Sys2Proof.Machine

/-- An address-base register of a load or store stream (R313), and an address with a displacement in 512-byte units (R314). -/
def Mach.lbReg (m : Mach) (j : Nat) : Word := (m.cct m.ccc).creg (0x200 + 16 * m.cs.sel.unit + j)
def lbAddr (b : Word) (d : Int) : Nat := (b + BitVec.ofInt 64 (512 * d)).toNat
def Mach.lsEa (m : Mach) (mi : Micro) : Nat := lbAddr (m.lbReg mi.memBase) mi.memDisp
/-- The other address of LD and ST: register and signed index (R314). -/
def Mach.lsOther (m : Mach) (mi : Micro) : Nat := lbAddr (m.lbReg (mi.dest.toNat % 16)) (sInt 7 mi.srcA.toNat)

/-- Whether a page is the issuing BFD's own buffer SRAM or HBM4E; or a local store or buffer SRAM (R314). -/
def ownBfd (ldie : Nat) (p : Pg) : Bool :=
  (p.tgt == 2 && homeSram (p.home 0) == some ldie) || (p.tgt == 0 && homeHbm (p.home 0) == some ldie)
def onPackage (p : Pg) : Bool := 2 ≤ p.tgt

/-- The 64-byte lines of a packet, each translated and checked in ascending order. -/
def Mach.packetAt (m : Mach) (nd : Need) (ok : Pg → Bool) : Nat → Nat → Except Flt (Mach × List (Nat × Pg))
  | 0, _ => .ok (m, [])
  | n + 1, va => match m.xlat m.cur va nd with
    | .error f => .error f
    | .ok (m, p) =>
      if !ok p then .error { code := .pageProt, fva := va, ptea := p.ptea }
      else match m.packetAt nd ok n (va + 64) with
        | .error f => .error f
        | .ok (m, l) => .ok (m, (va, p) :: l)
/-- A packet address with every check of R278 in its order (R314). -/
def Mach.packet (m : Mach) (ea : Nat) (nd : Need) (ok : Pg → Bool) : Except Flt (Mach × List (Nat × Pg)) :=
  if ea % 64 != 0 then .error { code := .align, fva := ea } else m.packetAt nd ok 8 ea

/-- The bytes of a packet as a stream reads them, on a predicted path where it is on one. -/
def Mach.packetBytes (m : Mach) (md : RMode) (ls : List (Nat × Pg)) (path : Option Nat := none) : List Byte :=
  ls.flatMap (fun x => m.readPg m.cur md x.2 64 path)
/-- Store entries of a packet, one per line. -/
def packetEntries (ls : List (Nat × Pg)) (bs : List Byte) (rel cyc grp : Nat) (tag : Option Nat) : List SBEnt :=
  ((ls.mapIdx (fun i x => pgEntries x.2 (((bs.drop (64 * i)).take 64).map (fun b => (b.toNat, 255))) rel cyc x.1 tag)).flatten).map
    (fun e => { e with grp := grp })
/-- The cluster that a packet's lines must await (R55), and a line with an uncorrectable word, with one more than that word's home. -/
def Mach.packetStart (m : Mach) (ls : List (Nat × Pg)) : Option Nat := ls.findSome? (fun x => m.unstarted m.cs.job (x.2.home 0))
/-- The pausing HBM4E stack that a packet's lines reach (R312). -/
def Mach.packetPaused (m : Mach) (ls : List (Nat × Pg)) : Option Nat :=
  (ls.find? (fun x => m.homePaused m.cpart (x.2.home 0))).map (fun x => x.2.home 0 % 2 ^ 57 / 2 ^ 36 % 2)
/-- A packet read: its words with one wrong bit are corrected (R80). -/
def Mach.packetSoft (m : Mach) (ls : List (Nat × Pg)) : Mach := ls.foldl (fun m x => m.softPg x.2 64) m
def Mach.packetBad (m : Mach) (ls : List (Nat × Pg)) : Option (Nat × Nat) :=
  (ls.find? (fun x => m.pgBad x.2 64)).map (fun x => (x.1, m.badHome x.2 64))

/-- A packet lands: each line performs at its home (R314). -/
def Mach.landPacket (m : Mach) (now sid : Nat) (es : List SBEnt) : Mach :=
  es.foldl (fun m e =>
    let (i, m) := m.newId
    m.performEntry now sid { e with seq := i }) m

/-- LD and LD.ACQ of a load stream (R314, R315). A primed packet stands in the queue when its stream starts (R48). -/
def lsLoad (acq : Bool) (mi : Micro) (s : State) : Ans :=
  microWord mi.tail.tok (fun _ => if mi.plain then none else some .illegalField) (fun _ => none) true (fun _ => mi.tail.tok.wait)
    (fun now m =>
      let ldie := m.cs.sel.ldie
      match m.packet (m.lsEa mi) { rd := true } (ownBfd ldie) with
      | .error f => .flt m f
      | .ok (m, src) => match m.packet (m.lsOther mi) { wr := true } onPackage with
        | .error f => .flt m f
        | .ok (m, dst) =>
          if mi.tail.tok.pe && !dst.all (fun x => x.2.pub != 0) then Eng.err m .illegalField else
          match m.packetPaused src with
          | some st => .hold m (.paused st)
          | none => match m.packetBad src with
          | some (va, h) => .flt m { code := .ecc, fva := va, bad := h }
          | none =>
            let c := m.ccyc now
            let m := m.packetSoft src
            let es := packetEntries dst (m.packetBytes (if acq then .home else .plain) src (m.pathOf mi.tail.tok)) 0 c 0 (m.pathOf mi.tail.tok)
            if m.cs.state == .primed then
              let m := m.charge 12
              if (m.packetStart dst).isSome then .go (m.pushAt now 0 (.land es acq)) c 2
              else .go (m.landPacket now m.cur es) c 2
            else match m.packetStart dst with
            | some lc => .hold m (.start lc)
            | none =>
              let own := dst.all (fun x => homeSram (x.2.home 0) == some ldie)
              let m := m.charge 12
              let die := m.homeDie m.cpart ((dst.head?.map (fun x => x.2.home 0)).getD 0)
              let (due, m) := if src.all (fun x => x.2.tgt == 2) then (c + m.cj.latOf 4 + (if own then 0 else 39) + 6, m)
                else if own then (c + m.cj.latOf 4 + Config.delayTicks m.draw.1, m.draw.2)
                else let (t, m) := m.trip die; (c + m.cj.latOf 4 + t + Config.delayTicks m.draw.1, m.draw.2)
              let due := max due (m.sentDue die)
              .go (m.pushAt now due (.land es acq) 0 none (m.cj.lateOf 4)) due 2) s
def execLsLd (mi : Micro) (s : State) : Ans := lsLoad false mi s
def execLsLdAcq (mi : Micro) (s : State) : Ans := lsLoad true mi s

/-- ST and ST.REL of a store stream (R314): the checks of ea come first, then those of the packet's source. -/
def lsStore (rel : Bool) (mi : Micro) (s : State) : Ans :=
  microWord mi.tail.tok (fun _ => if mi.plain then none else some .illegalField) (fun _ => none) true (fun _ => mi.tail.tok.wait)
    (fun now m =>
      match m.packet (m.lsEa mi) { wr := true } (ownBfd m.cs.sel.ldie) with
      | .error f => .flt m f
      | .ok (m, dst) => match m.packet (m.lsOther mi) { rd := true } onPackage with
        | .error f => .flt m f
        | .ok (m, src) =>
          if mi.tail.tok.pe && !dst.all (fun x => x.2.pub != 0) then Eng.err m .illegalField else
          match m.packetPaused dst with
          | some st => .hold m (.paused st)
          | none => match m.packetBad src with
          | some (va, h) => .flt m { code := .ecc, fva := va, bad := h }
          | none => match m.packetStart src with
          | some lc => .hold m (.start lc)
          | none => match (if rel then m.redFreeze else none) with
            | some f => .flt m f
            | none =>
              let (g, m) := (m.packetSoft src).newId
              let es := packetEntries dst (m.packetBytes .plain src (m.pathOf mi.tail.tok))
                (if !rel then 0 else if dst.any (fun x => x.2.sysat) then 3 else 2) (m.ccyc now) (g + 1) (m.pathOf mi.tail.tok)
              .drain ((m.charge 12).enter now m.cur es) (g + 1)) s
def execLsSt (mi : Micro) (s : State) : Ans := lsStore false mi s
def execLsStRel (mi : Micro) (s : State) : Ans := lsStore true mi s

/-- Types, operations and rounding of a RED packet (R314). -/
def lsRedOk (mi : Micro) : Bool :=
  let t := mi.tail.type.toNat
  let op := mi.srcA.toNat
  let flt := t == 8 || t == 10 || t == 11
  mi.tail.mask == 0 && (if flt then (op == 0 || op == 4 || op == 5) && (mi.tail.rnd.toNat ≤ 4 && (op == 0 || mi.tail.rnd == 0))
    else t ≤ 3 && op ≤ 7 && mi.tail.rnd == 0)

/-- RED of a load or store stream (R314): one slot for the packet at the bank (R271), or the BFD's atomic unit. -/
def execLsRed (mi : Micro) (s : State) : Ans :=
  microWord mi.tail.tok (fun _ => if lsRedOk mi then none else some .illegalField) (fun _ => none) false (fun _ => mi.tail.tok.wait)
    (fun now m =>
      let ea := m.lsEa mi
      let sa := (m.lbReg (mi.dest.toNat % 16)).toNat
      let op := (AOp.ofCode mi.srcA.toNat).getD .add
      match m.packet ea { wr := true } (ownBfd m.cs.sel.ldie) with
      | .error f => .flt m f
      | .ok (m, dst) => match dst.find? (fun x => x.2.pub != 0) with
        | some (va, p) => .flt m { code := .pageProt, fva := va, ptea := p.ptea }
        | none => match m.packet sa { rd := true } (fun p => p.tgt != 1) with
          | .error f => .flt m f
          | .ok (m, src) =>
            let homes := dst.flatMap (fun x => (List.range 64).map (fun i => x.2.home i))
            let h0 := homes.headD 0
            let aplace := (dst.head?.map (fun x => x.2.aplace)).getD 0
            -- exact in both modes, as every fault of these micro-orders (R314; log 63)
            if aplace ≤ 1 && (if m.cj.fixed then !m.slotOk now h0 else m.cs.phases == 0) then Eng.err m .slotViolation ea
            else match m.packetPaused dst with
            | some st => .hold m (.paused st)
            | none => match m.packetStart src with
            | some lc => .hold m (.start lc)
            | none => match homes.find? (fun h => m.cs.holds h 1) with
              | some h => .hold m (.overlap h 1)
              | none => match m.packetBad src with
                | some (va, h) => .flt m { code := .ecc, fva := va, bad := h }
                | none =>
                  let (g, m) := ((m.charge 12).packetSoft src).newId
                  let pk : RedPk := { homes := homes, type := mi.tail.type.toNat, rnd := mi.tail.rnd.toNat,
                                      src := m.packetBytes .plain src, grp := g + 1 }
                  let (m, id) := m.sendAtom now (fun id q =>
                    { id := id, sid := m.cur, op := op, w64 := false, home := h0, place := aplace, opnd := 0, source := q, va := ea,
                      job := m.cs.job, cx := m.cj.cx, red := some pk })
                  .drain (m.routeAtom now id aplace h0) (g + 1)) s

/-- PUBL of a load or store stream (R294, R314). -/
def execLsPubl (mi : Micro) (s : State) : Ans :=
  microWord mi.tail.tok (fun _ => if mi.plain then none else some .illegalField) (fun _ => none) false (fun _ => mi.tail.tok.wait)
    (fun now m =>
      let ea := m.lsEa mi
      if ea % 64 != 0 then Eng.err m .align ea else
      match m.publPage ea with
      | .error f => .flt m f
      | .ok (m, p) =>
        if !ownBfd m.cs.sel.ldie p || p.pub == 0 then .flt m { code := .pageProt, fva := ea, ptea := p.ptea }
        else match m.publ now (p.home 0) p.pub with
          | .hold m' (.publ id) =>
            if (m'.publs.find? (fun q => q.id == id)).any (fun q => q.started) then .wait (m'.charge 12) (.publ id)
            else .hold m' (.publ id)
          | _ => .hold m .none) s

/-- What a packet does as it lands or performs (R314, R315, R440). -/
def Mach.packetEff (m : Mach) (now : Nat) (p : Pend) : Mach :=
  match p.eff with
  | .land es acq =>
    let m := m.landPacket now p.sid es
    if acq then m.refresh p.sid else m
  | _ => m

end Sys2Proof.Machine
end

