-- ==== Sys2Proof/Machine/Strip.lean ====
section
/-! DEFINITION. Router strips (R316 to R318). -/

namespace Sys2Proof.Machine

/-- What a router port leads to: a compute die (kind, physical number), the IOD, or a switch die (R11). The order of the ports is the
model's (log 30): compute dies by kind and number, the IOD, the other switch dies. -/
inductive PortTo where
  | die (kind phys : Nat) | iod | switch (phys : Nat) | none
  deriving DecidableEq, Repr
def portTo (w port : Nat) : PortTo :=
  let n := Config.dieCount 4
  let dies := (List.range 4).flatMap (fun k => ((List.range (Config.dieCount k)).filter (fun j => j % n == w || (j + 1) % n == w)).map
    (fun j => (k, j)))
  match dies[port]? with
  | some (k, j) => .die k j
  | none => if port == dies.length then .iod
    else match ((List.range n).filter (· != w))[port - dies.length - 1]? with | some x => .switch x | none => .none
/-- The physical switch die of a strip stream. -/
def Mach.swdOf (m : Mach) (sid : Nat) : Nat :=
  let s := m.str sid
  (m.part (cxPart (m.job s.job).cx)).carrier 4 s.sel.ldie
/-- Whether a port leads to a die outside the partition (R374). -/
def Mach.portForeign (m : Mach) (port : Nat) : Bool :=
  let p := m.part m.cpart
  match portTo (m.swdOf m.cur) port with
  | .die k j => !bitOf (p.own.getD k 0) j
  | .switch j => !bitOf (p.own.getD 4 0) j
  | .none => true
  | .iod => false

/-- SMODE of the executing strip (R316). -/
def Mach.smode (m : Mach) : Nat := ((m.cct m.ccc).creg (0x1A0 + m.cs.sel.unit)).toNat
/-- Type and rounding of a strip micro-order (R317). -/
def Mach.stripType (m : Mach) (mi : Micro) : Nat := match mi.long with | some t => t.type.toNat | none => fld m.smode 0 5
def Mach.stripRnd (m : Mach) (mi : Micro) : Nat := match mi.long with | some t => t.rnd.toNat | none => fld m.smode 5 3

def Mach.strip (m : Mach) : Strip := sget (m.cct m.ccc).strips m.cs.sel.unit {}
def Mach.modStrip (m : Mach) (cc u : Nat) (f : Strip → Strip) : Mach :=
  m.modCct cc (fun c => { c with strips := smod c.strips u {} f })
/-- The next packet of a port taken. -/
def Strip.take (t : Strip) (port : Nat) : Option (Packet × Strip) :=
  match sget t.ports port [] with
  | [] => none
  | p :: r => some (p, { t with ports := sset t.ports port r })

/-- Packets of strips on a physical switch die that leave on a port in a cycle of a job's clock on a cluster: those of strips lower, or
higher, than `u`, whichever partition's (R318, R459). -/
def Mach.rivals (m : Mach) (w u port job lc d : Nat) (low : Bool) : List Pend :=
  m.pend.filter (fun q => match q.eff with
    | .strip v o _ => o == port && (if low then v < u else u < v) && (m.part (cxPart (ccCx q.cc))).carrier 4 (lcDie q.lc) == w
        && m.jobCyc (m.jobTick q.job q.lc q.due) job lc == d
    | _ => false)
/-- The first cycle from `d` on in which no lower strip's packet leaves on a port (R318). -/
def Mach.portCycle (m : Mach) (w u port job lc : Nat) : Nat → Nat → Nat
  | 0, d => d
  | fuel + 1, d => if (m.rivals w u port job lc d true).isEmpty then d else m.portCycle w u port job lc fuel (d + 1)
/-- A packet put off to a later cycle, and its signal no earlier than that. -/
def Mach.putOff (m : Mach) (q : Pend) (d : Nat) : Mach :=
  { m with pend := m.pend.map (fun (x : Pend) => if x.id == q.id then { x with due := d }
      else if x.sid == q.sid && x.iss == q.iss && (match x.eff with | .sig _ => true | _ => false) then { x with due := max x.due d } else x) }
/-- Higher strips' packets that meet one in its cycle on its port follow in the next cycle that is theirs (R318). -/
def Mach.makeWay (m : Mach) (w : Nat) : Nat → Pend → Mach
  | 0, _ => m
  | fuel + 1, p => match p.eff with
    | .strip u port _ => (m.rivals w u port p.job p.lc p.due false).foldl (fun m q => match q.eff with
        | .strip v _ _ =>
          let d := m.portCycle w v port q.job q.lc m.pend.length (q.due + 1)
          (m.putOff q d).makeWay w fuel { q with due := d }
        | _ => m) m
    | _ => m
/-- A packet sent out on a port after a traversal: one packet per port and cycle, a lower strip's first (R318). Answers the cycle in
which it leaves. -/
def Mach.leave (m : Mach) (now : Nat) (port lat : Nat) (p : Packet) : Nat × Mach :=
  let u := m.cs.sel.unit
  let w := m.swdOf m.cur
  let d := m.portCycle w u port m.cs.job m.clc m.pend.length (m.ccyc now + lat)
  let n := m.pushAt now d (.strip u port p)
  (d, match n.pend.getLast? with | some q => n.makeWay w n.pend.length q | none => n)

/-- A strip micro-order over its packets: `ports` it sends on, `bad` its own limits, `f` the packets it takes and what it does with
them, or none while one is missing (R318). Its fields are checked at decode (R100). -/
def stripWord (mi : Micro) (plain : Bool) (ports : List Nat) (bad : Mach → Bool) (f : Nat → Mach → Option Eng) (s : State) : Ans :=
  microWord mi.tail.tok
    (fun m => if (plain && !mi.plain) || bad m || ports.any m.portForeign then some .illegalField else none)
    (fun _ => none)
    false (fun _ => mi.tail.tok.wait)
    (fun now m => match f now m with
      | some e => e
      | none => if m.cj.fixed then Eng.err m .tokenCheck else .hold m .packet) s

/-- The element sum of a node (R162, R317). -/
def nodeSum (ty rnd : Nat) (a b : List Byte) : List Byte :=
  let k := (ETy.of ty).w / 8
  (List.range (512 / k)).flatMap (fun i =>
    let g := fun (l : List Byte) => leNat ((l.drop (k * i)).take k)
    leBytes k (lsRedElem .add ty rnd (g a) (g b)).1)

/-- RDC (R317). -/
def execRdc (mi : Micro) (s : State) : Ans :=
  let dst := mi.dest.toNat
  let pa := mi.srcA.toNat
  let pb := mi.srcB.toNat
  stripWord mi false [dst, pa, pb]
    (fun m => !([0, 1, 8, 10, 11].contains (m.stripType mi)) || 4 < m.stripRnd mi || mi.tail.mask != 0)
    (fun now m =>
      match m.strip.take pa with
      | none => none
      | some (a, t) => match t.take pb with
        | none => none
        | some (b, t) =>
          let ty := m.stripType mi
          let rnd := m.stripRnd mi
          let m := (m.charge 15).modStrip m.ccc m.cs.sel.unit (fun _ => t)
          let (d, m) := m.leave now dst 10 { a with data := nodeSum ty rnd a.data b.data }
          some (.go m d 2)) s

/-- FLT (R317). -/
def execFlt (mi : Micro) (s : State) : Ans :=
  stripWord mi true [mi.srcA.toNat] (fun _ => false)
    (fun now m => match m.strip.take mi.srcA.toNat with
      | none => none
      | some (_, t) => some (.go ((m.charge 15).modStrip m.ccc m.cs.sel.unit (fun _ => t)) (m.ccyc now) 2)) s

/-- MCAST (R317): lo in dest, the source in srcA, hi in srcB. -/
def execMcast (mi : Micro) (s : State) : Ans :=
  let lo := mi.dest.toNat
  let hi := mi.srcB.toNat
  let outs := (List.range (hi + 1 - lo)).map (· + lo)
  stripWord mi true (mi.srcA.toNat :: outs) (fun _ => hi < lo)
    (fun now m => match m.strip.take mi.srcA.toNat with
      | none => none
      | some (p, t) =>
        let m := (m.charge 15).modStrip m.ccc m.cs.sel.unit (fun _ => t)
        let (d, m) := outs.foldl (fun (a : Nat × Mach) o =>
          let (d, m) := a.2.leave now o 6 p
          (max a.1 d, m)) (0, m)
        some (.go m d 2)) s

/-- PASS (R317). -/
def execPass (mi : Micro) (s : State) : Ans :=
  stripWord mi true [mi.dest.toNat, mi.srcA.toNat] (fun _ => false)
    (fun now m => match m.strip.take mi.srcA.toNat with
      | none => none
      | some (p, t) =>
        let (d, m) := ((m.charge 15).modStrip m.ccc m.cs.sel.unit (fun _ => t)).leave now mi.dest.toNat 6 p
        some (.go m d 2)) s

/-- IDLE n (R317): the next micro-order issues n + its delay cycles later. -/
def execIdle (mi : Micro) (s : State) : Ans :=
  stripWord mi true [] (fun _ => false)
    (fun now m =>
      let c := m.ccyc now
      let n := mi.imm14 + 1
      some (.late (m.charge 15) (c + n) (c + n - 1) true)) s

/-- RTADV (R317): the strip's route epoch. What a partition's route tables hold under each epoch is nowhere in the spec, and every other
micro-order names its ports (log 99). -/
def execRtadv (mi : Micro) (s : State) : Ans :=
  stripWord mi true [] (fun _ => false)
    (fun now m => some (.go ((m.charge 15).modStrip m.ccc m.cs.sel.unit (fun t => { t with epoch := mi.srcA.toNat })) (m.ccyc now) 2)) s

/-- Cycles that a packet is on the link of a port: 9, and in fixed timing to a die 15 more where it has passed one switch die only, so that
every die-to-die delivery is padded to 39 cycles, and 4 more for each reducing traversal (R13; log 100). -/
def Mach.linkCycles (m : Mach) (p : Pend) (port : Nat) (pk : Packet) : Nat :=
  match portTo ((m.part (cxPart (ccCx p.cc))).carrier 4 (lcDie p.lc)) port with
  | .die .. => if (m.job p.job).fixed && pk.hops == 0 then 24 else 9
  | _ => 9
/-- The port of another switch die at which a strip's packet arrives: logical number of that die, and the port that leads back. -/
def Mach.farPort (m : Mach) (p : Pend) (port : Nat) : Option (Nat × Nat) :=
  let part := m.part (cxPart (ccCx p.cc))
  let me := part.carrier 4 (lcDie p.lc)
  match portTo me port with
  | .switch w => ((List.range (part.lcount 4)).find? (fun l => part.carrier 4 l == w)).bind (fun l =>
      ((List.range 16).find? (fun q => portTo w q == .switch me)).map (fun q => (l, q)))
  | _ => none
/-- A strip's packet reaches the far side of its port: at a die it performs at its home (R273), at another switch die it joins the port that
leads back. -/
def Mach.deliverPacket (m : Mach) (p : Pend) : Mach :=
  match p.eff with
  | .strip u port pk =>
    match portTo ((m.part (cxPart (ccCx p.cc))).carrier 4 (lcDie p.lc)) port with
    | .switch _ => match m.farPort p port with
      | some (l, back) =>
        let m := m.modStrip (ccKey (ccCx p.cc) (lcKey 4 l 0)) u (fun t => { t with ports := smod t.ports back [] (fun q => q ++ [{ pk with hops := pk.hops + 1 }]) })
        m.mapStreams (fun s => if s.sel.lc == lcKey 4 l 0 && s.sel.cls == .strip && s.sel.unit == u && s.hold == .packet
          then { s with hold := .none } else s)
      | none => m
    | _ => ({ m with homes := homeWrite m.homes pk.dst pk.data } : Mach).touched (ccCx p.cc) [pk.dst]
  | _ => m
/-- Whether a packet on a link between switch dies has room at its port, two packets deep (R437), and none before it waits for that. -/
def Mach.portRoom (m : Mach) (p : Pend) : Bool :=
  match p.eff with
  | .strip u port _ => (match m.farPort p port with
    | some (l, back) =>
      (sget (sget (m.cct (ccKey (ccCx p.cc) (lcKey 4 l 0))).strips u {}).ports back []).length < 2
        && !m.pend.any (fun q => q.id < p.id && 2 ^ 40 ≤ q.due && q.cc == p.cc && (match q.eff with | .strip v o _ => v == u && o == port | _ => false))
    | none => true)
  | _ => true

/-- STRIP_PACKET_DELIVERY (R13, R273, R317): a packet that leaves a strip reaches the far side of its port after the link. The operands of
the second part are its number and 1; a packet without room at the far port waits a cycle (log 101). -/
def execStripPacketDelivery (s : State) : Ans :=
  onMach (fun now m => match m.takePend (m.arg 0) with
    | none => m
    | some (m', p) => match p.eff with
      | .strip _ port pk =>
        if m.ev.length == 1 then
          -- the packet is on the link
          let (i, m1) := m'.newId
          { m1 with pend := m1.pend ++ [{ p with id := i, due := p.due + 2 ^ 40 }] }.at
            (m1.jobTick p.job p.lc (p.due + m1.linkCycles p port pk)) .stripPacketDelivery [i, 1]
        else if m.portRoom p then m'.deliverPacket p
        else m.at (now + Config.fixedPeriod) .stripPacketDelivery m.ev
      | _ => m) s

/-- The packets that a context's strips of a cluster have under way complete their traversals (R437). -/
def Mach.finishTraversals (m : Mach) (cc : Nat) : Mach :=
  let mine := fun (p : Pend) => p.cc == cc && (match p.eff with | .strip .. => true | _ => false)
  (m.pend.filter mine).foldl (fun m p => m.deliverPacket p) { m with pend := m.pend.filter (fun p => !mine p) }

end Sys2Proof.Machine
end

