-- ==== Sys2Proof/Machine/Results.lean ====
section
/-! DEFINITION. Results in their declared write cycle (R59, R105 to R108). -/

namespace Sys2Proof.Machine

/-- What a result writes when its declared write cycle comes. -/
def Mach.resultEff (m : Mach) (now : Nat) (p : Pend) : Mach :=
  match p.eff with
  | .reg n v => m.modStr p.sid (fun s => s.wr n v)
  | .regAcq n w hs mark v =>
    let own := (m.str p.sid).sb.filter (fun e => e.seq < mark)
    let x := if hs.isEmpty then v else w.extend (hs.map (fun h => ownByte own h (homeByte m.homes h)))
    (m.modStr p.sid (fun s => s.wr n x)).refresh p.sid
  | .creg c v => m.cregApply p.cc p.sid c v
  | .flags k f => m.modCct p.cc (fun c => c.setFlags k f)
  | .vec unit col ws => m.modCct p.cc (fun c =>
      let key := fun (d : Nat) => if 64 ≤ d then unit * 64 + (d - 64) else (unit * 5 + col) * 16 + d
      let old := fun (c : Cctx) (d : Nat) => if 64 ≤ d then sget c.vregs (key d) [] else sget c.cols (key d) []
      let put := fun (c : Cctx) (d : Nat) (v : Wide) =>
        if 64 ≤ d then { c with vregs := sset c.vregs (key d) v } else { c with cols := sset c.cols (key d) v }
      let c' := ws.foldl (fun c w => put c w.1 (wmerge 64 (old c w.1) w.2.1 w.2.2)) c
      match ws with
      | (d, _, _) :: _ => put c' 0 (old c' d)
      | [] => c')
  | .mask unit k v km => m.modCct p.cc (fun c =>
      { c with masks := smod c.masks (unit * 8 + k) [] (fun o => wmerge 16 o v km) })
  | .sig _ | .tokUp _ | .tokset .. => m.tokenEff p
  | .halt => m.haltStop now p.job 2048
  | .enter es => m.enter now p.sid es
  | .gslot slot ws => m.modCct p.cc (fun c => c.setSlot slot ws)
  | .land _ _ => m.packetEff now p
  | _ => m.matrixEff now p

/-- RESULT_WRITE (R105): a result in flight is written in its declared write cycle. -/
def execResultWrite (s : State) : Ans :=
  onMach (fun now m => match m.takePend (m.arg 0) with
    | some (m', p) => m'.resultEff now p
    | none => m) s

end Sys2Proof.Machine
end

