-- ==== Sys2Proof/Machine/Spill.lean ====
section
/-! DEFINITION. Spills and restores (R431), share switches (R22, R23, R461), partition swaps (R436), in-field self-test (R370) and link errors (R442, R443). -/

namespace Sys2Proof.Machine

/-! ### Spills and restores (R431) -/

/-- A spill or restore that met a bad word or a broken image: the fault domain of the context's region is killed (R435, R440). -/
def Mach.killFor (m : Mach) (now cx rcb die : Nat) : Mach :=
  let dom := (m.effRcb cx rcb 2).getD rcb
  let fd := m.effFdom cx rcb
  let ids := (m.jobs.filter (fun k => k.2.cx == cx && k.2.live && (k.2.rcb == rcb || (m.chain cx 8 k.2.rcb).contains dom))).map (·.1)
  let m := m.postEvent now (cxPart cx) die
    { w0 := 0x32 * 2 ^ 56 + 3 * 2 ^ 44, w1 := cx % 64 * 2 ^ 58, w2 := fd, w3 := now / Config.tick }
  ids.foldl (fun m k => m.killJob now k) m

/-- The region a context runs on a cluster: the RCB of a job of it there, else its root. -/
def Mach.rcbOn (m : Mach) (cx lc : Nat) : Nat :=
  match (m.ccStreams cx lc).head? with
  | some i => (m.job (m.str i).job).rcb
  | none => (m.ctx cx).rcb

/-- SPILL (R431): at (physical cluster, context, logical cluster), the engine writes the image of the context in the thermos bank;
its store buffers have drained (R275). -/
def execSpill (s : State) : Ans :=
  onMach (fun now m =>
    let pc := m.arg 0
    let cx := m.arg 1
    let lc := m.arg 2
    if (m.pcl pc).bank != some cx || !m.hamperOk cx then m else
    let m := (m.drainNow now (m.ccStreams cx lc)).finishTraversals (ccKey cx lc)
    -- the save is over only when every entry has performed (R275)
    if (m.ccStreams cx lc).any (fun i => !(m.str i).sb.isEmpty) then
      (m.draw.2).at (now + 1 + Config.delayTicks m.draw.1) .spill m.ev
    else
    match m.writeHamper cx lc false with
    | some m =>
      let items := m.imageItems cx lc
      let took := m.imageTicks cx lc (8 * (items.flatMap codeItem).length) (items.filter (fun i => i.1 / 4096 == 5)).length
      m.after (now + took) 0 .spillComplete [pc, cx, lc]
    | none => (m.imageLog cx lc true).killFor now cx (m.rcbOn cx lc) (pcDie pc)) s

/-- SPILL_COMPLETE (R431): the image as it now stands has its header, and the thermos bank is free. -/
def execSpillComplete (s : State) : Ans :=
  onMach (fun now m =>
    let pc := m.arg 0
    let cx := m.arg 1
    let lc := m.arg 2
    if (m.pcl pc).bank != some cx || (m.pcl pc).swapping || !m.hamperOk cx then m else
    match m.writeHamper cx lc true with
    | some m => ((m.modPcl pc (fun c => { c with bank := none })).foldOut now cx [ccKey cx lc]).retryWaiting now
    | none => (m.imageLog cx lc true).killFor now cx (m.rcbOn cx lc) (pcDie pc)) s

/-- RESTORE_COMPLETE (R431, R433): the fill of the thermos bank is complete, and the context may win slots on the cluster; an active bank that
holds no context takes it at once. -/
def execRestoreComplete (s : State) : Ans :=
  onMach (fun now m =>
    let pc := m.arg 0
    let cx := m.arg 1
    let lc := m.arg 2
    let c := m.pcl pc
    if c.active == some cx || c.bank.isSome || c.testing || c.retired then m.retryWaiting now else
    let m0 := (m.modCct (ccKey cx lc) Cctx.toReset).mendAll (ccKey cx lc)
    let m0 := match (m.ctx cx).hamper with
      | none => m0
      | some (va, _) => m0.saveSoft cx lc (va + 2 ^ 25 * (m.part (cxPart cx)).hamperSlot lc)
    let items := match (m.ctx cx).hamper with
      | none => some []
      | some (va, _) => if m.hamperOk cx then m.hamperItems cx lc (va + 2 ^ 25 * (m.part (cxPart cx)).hamperSlot lc) else some []
    let words := match items with | some l => l | none => []
    -- the fill takes its time (R431)
    if m.arg 4 == 0 && !words.isEmpty then
      m.at (now + m.imageTicks cx lc (8 * (words.flatMap codeItem).length) (words.filter (fun i => i.1 / 4096 == 5)).length)
        .restoreComplete [pc, cx, lc, m.arg 3, 1]
    else
    let filled := match items with
      | none => none
      | some l => l.foldl (fun (o : Option Mach) it => o.bind (fun m => m.restoreItem cx lc it)) (some m0)
    match filled with
    | some m =>
      -- an active bank that holds no context takes it without a swap (R362, R450, log 111)
      let fixed := (m.ctx cx).fixed
      (m.modPcl pc (fun c => if c.active.isSome || c.swapping || c.relock then { c with bank := some cx }
        else { ({ c with low := c.low && !fixed } : PClu).setMode now fixed with active := some cx, occOn := false })).retryWaiting now
    | none => (m.imageLog cx lc false).killFor now cx (m.rcbOn cx lc) (pcDie pc)) s

/-! ### Share switches (R22, R23, R452, R461) -/

/-- Whether a stream of a running share is waiting at a phaser, at the rendezvous, or stopped (R22, R452). -/
def waitsShare (st : SState) : Bool := st == .waitPhaser || st == .waitRdv || st == .stopped || st == .done
/-- The share descriptors of a job on a logical die. -/
def Job.sharesOn (j : Job) (kind ldie : Nat) : List Share := j.shares.filter (fun s => s.sel.kind == kind && s.sel.ldie == ldie)
/-- Whether every stream of a logical die's share has come to a state. -/
def Mach.shareAll (m : Mach) (job kind ldie : Nat) (f : SState → Bool) : Bool :=
  ((m.job job).sharesOn kind ldie).all (fun s => match m.findSel job s.sel with
    | some i => f (m.str i).state
    | none => false)
/-- The next share of a carrier after one: the next higher, or the lowest not at the rendezvous. -/
def Mach.nextShare (m : Mach) (job dk cur : Nat) : Option Nat :=
  let j := m.job job
  let l := j.carried (m.part (cxPart j.cx)) (dk / 8) (dk % 8)
  let ended := fun (d : Nat) => m.shareAll job (dk / 8) d (fun t => t == .waitRdv || t == .done)
  match l.find? (fun d => cur < d && !ended d) with
  | some d => some d
  | none => l.find? (fun d => d != cur && !ended d)
/-- Whether a carrier switches away from its running share: every stream of the share, on every cluster that it names, waits, and another
share is to run. -/
def Mach.switchDue (m : Mach) (job dk : Nat) : Option Nat :=
  let j := m.job job
  match sget? j.share dk with
  | none => none
  | some cur =>
    if j.phase == .running && cur < 16 && !(j.sharesOn (dk / 8) cur).isEmpty && m.shareAll job (dk / 8) cur waitsShare then
      m.nextShare job dk cur else none

/-- Job cycles of a fixed-timing share switch (R461). -/
def shareCycles (kind : Nat) : Nat := if kind == 0 then 57344 else if kind == 1 then 53248 else 4096

/-- Homes of the images of a kind's image number (R23): the local-store image in the buffer-SRAM windows and the state image in HBM4E, below
those of the kinds before it and of the lower numbers (log 83). -/
def Mach.imageHomes (m : Mach) (part kind i : Nat) : Nat × Nat :=
  let p := m.part part
  let nb := (m.liveOwned p 2).length
  let (us, uh) := match (m.foldPlan p).find? (fun x => x.1 == kind) with | some x => x.2 | none => (0, 0)
  let (sz, hz) := imageSize kind
  (homeKey part (0xF0 * 2 ^ 48 + (nb * 2 ^ 29 - us - (i + 1) * sz)), homeKey part (nb * 2 ^ 37 - uh - (i + 1) * hz))

/-- Words written at a home. -/
def Mach.putWords (m : Mach) (h : Nat) (ws : List Nat) : Mach :=
  { m with homes := homeWrite m.homes h (ws.flatMap (leBytes 8)) }

/-- The images of one cluster of an outgoing share (R23): the dirty chunks of its local stores raw at their own offsets, and, unless the share
is over (R452), every other item of the cluster, coded, in the cluster's 8 MiB of the state image. -/
def Mach.writeImages (m : Mach) (part cx lc sram hbm : Nat) (ended : Bool) : Mach :=
  let c := m.cct (ccKey cx lc)
  let items := (m.imageItems cx lc).filter (fun i => i.1 / 4096 != 3)
  let m := c.dirty.foldl (fun (m : Mach) i =>
    { m with homes := homeWrite m.homes (sram + lcCluster lc * 2 ^ 23 + 4096 * i) (homeRead m.homes (chunkHome part lc i) 4096) }) m
  -- the reduction-fault log stays with the context
  if ended then m else m.putWords (hbm + lcCluster lc * 2 ^ 23) (items.flatMap (fun i => codeItem (if i.1 == 0x6000 then (i.1, i.2.take 32) else i)))

/-- The switch's exchange of images (R23): the outgoing share's take the place of the incoming one's. -/
def Mach.exchangeImages (m : Mach) (job kind cur nx : Nat) : Mach :=
  let j := m.job job
  let part := cxPart j.cx
  let p := m.part part
  let i := (sget? p.images (16 * kind + nx)).getD (nx - p.pcount kind)
  let m := m.modPart part (fun p => { p with images := sset (sdel p.images (16 * kind + nx)) (16 * kind + cur) i })
  let (sram, hbm) := m.imageHomes part kind i
  let ended := m.shareAll job kind cur (fun t => t == .waitRdv || t == .done)
  ((j.sharesOn kind cur).map (fun s => s.sel.lc)).eraseDups.foldl (fun m lc => m.writeImages part j.cx lc sram hbm ended) m

/-- SHARE_SWITCH (R461): a carrier leaves its running share in the next cycle; neither share runs until the switch ends. A share that
runs for the first time is primed meanwhile (R452). -/
def execShareSwitch (s : State) : Ans :=
  onMach (fun now m =>
    let job := m.arg 0
    let dk := m.arg 1
    match m.switchDue job dk with
    | none => m
    | some nx =>
      let j := m.job job
      let cur := sget j.share dk 0
      let ids := (m.streamsOf job).filter (fun i => (m.str i).sel.kind == dk / 8 && (m.str i).sel.ldie == cur)
      let m := m.drainNow now ids
      match (j.sharesOn (dk / 8) cur).find? (fun s => m.saveBad j.cx s.sel.lc) with
      | some s => (m.imageLog j.cx s.sel.lc true).killFor now j.cx j.rcb dk
      | none =>
      let m := m.exchangeImages job (dk / 8) cur nx
      let first := ((j.sharesOn (dk / 8) nx).map (fun s => s.sel.lc)).eraseDups.filter (fun lc => (m.streamsOn job lc).isEmpty)
      let m := m.modJob job (fun j => { j with share := sset j.share dk (16 + nx), toPrime := j.toPrime ++ first })
      let m := first.foldl (fun m lc => m.at now .diePrime [job, lc]) m
      let lc := match ids with | i :: _ => (m.str i).sel.lc | [] => 0
      let pc := m.pcl (m.pcOf (cxPart j.cx) lc)
      let begins := pc.tickOf (pc.cycle now + 1)
      if j.fixed then
        let c := m.jobCyc now job lc + 1 + shareCycles (dk / 8)
        m.at (m.jobTick job lc c) .shareSwitchEnd [job, dk, nx, lc, c]
      else m.after begins (200000 * Config.tick) .shareSwitchEnd [job, dk, nx, lc, 0]) s

/-- SHARE_SWITCH_END (R22, R23, R452, R461): the incoming share's images are loaded; a share that runs for the first time starts, another
refreshes and goes on. In fixed timing that is the named job cycle, and the incoming clusters count the job cycles of the outgoing ones.
An image that cannot be read ends the fault domain, as a restore does (R440). -/
def execShareSwitchEnd (s : State) : Ans :=
  onMach (fun now m =>
    let job := m.arg 0
    let dk := m.arg 1
    let nx := m.arg 2
    let lc0 := m.arg 3
    let j := m.job job
    if !j.live || sget j.share dk 0 != 16 + nx then m
    else if j.fixed && m.jobCyc now job lc0 < m.arg 4 then m.at (now + Config.fixedPeriod) .shareSwitchEnd m.ev
    else
      let part := cxPart j.cx
      let lcs := ((j.sharesOn (dk / 8) nx).map (fun s => s.sel.lc)).eraseDups
      let i := (m.part part).images.find? (fun x => x.1 == 16 * (dk / 8) + lcDie lc0)
      let (sram, hbm) := m.imageHomes part (dk / 8) (match i with | some x => x.2 | none => 0)
      match (lcs.flatMap (fun lc => [sram + lcCluster lc * 2 ^ 23, hbm + lcCluster lc * 2 ^ 23])).find? (fun h => badIn m.homes h (2 ^ 23)) with
      | some h => (m.badLog j.cx (firstBad m.homes h (2 ^ 23))).killFor now j.cx j.rcb dk
      | none =>
        let image := fun (b w : Nat) => lcs.any (fun lc => b + lcCluster lc * 2 ^ 23 ≤ 16 * w && 16 * w < b + (lcCluster lc + 1) * 2 ^ 23)
        let m := m.softWords j.cx (fun w => image sram w || image hbm w)
        let m := m.modJob job (fun j => { j with share := sset j.share dk nx })
        lcs.foldl (fun m lc =>
          if (m.streamsOn job lc).all (fun i => (m.str i).state == .primed) && !(m.job job).toPrime.contains lc then
            let c := m.jobCyc now job lc0
            let cyc := (m.pcl (m.pcOf part lc)).cycle now
            (if j.fixed then m.modJob job (fun j => { j with clk := sset j.clk lc { origin := (cyc : Int) - c, stopped := none } }) else m).startCluster
              now job lc
          else m.modStreams (m.streamsOn job lc) (fun s => { s with snap := m.homes })) m) s

/-! ### Partition swap (R436) -/

/-- Physical clusters on which a partition has a context. -/
def Mach.swapClusters (m : Mach) (part : Nat) : List Nat :=
  (m.pcs.filter (fun p => (p.2.active.toList ++ p.2.bank.toList).any (fun cx => cxPart cx == part))).map (·.1)

/-- PART_SWAP_HALTED (R436): once no fixed-timing job of the partition runs, every active stream stops between words; at the last
halt report the clusters move to the pinned high rail. -/
def execPartSwapHalted (s : State) : Ans :=
  onMach (fun now m =>
    let part := m.arg 0
    if (m.part part).swap.isNone then m
    else if m.jobs.any (fun j => cxPart j.2.cx == part && j.2.fixed && j.2.phase == .running)
        || m.publs.any (fun p => cxPart p.cx == part) then
      (m.draw.2).at (now + 1 + Config.delayTicks m.draw.1) .partSwapHalted [part]
    else
      let pcs := m.swapClusters part
      let m := pcs.foldl (fun m pc =>
        let m := m.modPcl pc (fun c => { c with slot := none, pinned := true, stretch := false })
        if (m.pcl pc).low then m.railSwitch now pc false else m.modPcl pc (fun c => (c.go now).setMode now true)) m
      let g := 50 * Config.tick
      m.at (ceilDiv (now + 250 * Config.tick) g * g) .partSwapStart [part]) s

/-- PART_SWAP_START (R436): at S every cluster of the partition starts its thermos swap. -/
def execPartSwapStart (s : State) : Ans :=
  onMach (fun now m =>
    let part := m.arg 0
    match (m.part part).swap with
    | none => m
    | some (pidx, _, _) =>
      let pcs := m.swapClusters part
      if pcs.isEmpty then (m.modPart part (fun p => { p with swap := none })).adminDone now part pidx 0 (now / Config.tick)
      else
        let m := m.modPart part (fun p => { p with swap := some (pidx, now, pcs) })
        pcs.foldl (fun m pc =>
          let m := match (m.pcl pc).active with
            | some cx => m.foldOut now cx ((m.residentCcs cx).filter (fun k => m.pcOf part (ccLc k) == pc))
            | none => m
          let m := m.thermosSwap now pc
          match (m.pcl pc).active.bind (m.readyRegion pc) with
          | some r => m.modPcl pc (fun c => { c with slot := some (r.1, r.2.1) })
          | none => m) m) s

/-! ### In-field self-test (R370) -/

/-- Units of a test, in the order they are tested: 2 × cluster, and for an array 2 × cluster + 1. -/
def ifstUnits (kind mask : Nat) (arrays : Bool) : List Nat :=
  ((List.range (Config.clusterCount kind)).filter (fun c => bitOf mask c)).flatMap (fun c =>
    (2 * c) :: (if arrays && kind == 0 then [2 * c + 1] else []))

/-- A cluster left by the contexts that hold it, if none of them has work there and each can be spilled (R370, R431, R432). -/
def Mach.vacate (m : Mach) (now pc : Nat) : Option Mach :=
  let c := m.pcl pc
  let l := c.active.toList ++ c.bank.toList
  let idle := match c.active with | some cx => (m.streamsAt cx pc).all (fun i => (m.str i).state == .idle) | none => true
  if c.swapping || c.relock || c.retired || !idle || !l.all m.hamperOk then none
  else
    let m := l.foldl (fun m cx =>
      let m := m.drainNow now (m.streamsAt cx pc)
      (m.lcsOn cx pc).foldl (fun m lc => (m.writeHamper cx lc true).getD m) m) m
    let m := m.modPcl pc (fun c => { c.occupy now none with bank := none, slot := none })
    some (l.foldl (fun m cx => m.foldOut now cx ((m.lcsOn cx pc).map (ccKey cx))) m)

/-- The next unit of a test starts, or the command completes with the mask of units that passed. -/
def Mach.ifstNext (m : Mach) (now part pidx dk got tested : Nat) : List Nat → Mach
  | [] => m.adminDone now part pidx 0 got
  | u :: rest =>
    let pc := pcKey (dk / 8) (dk % 8) (u / 2) (if dk / 8 == 4 then part else 0)
    let start := fun (m : Mach) (us : Nat) => m.at (now + us * 1000 * Config.tick) .ifstUnitComplete
      [part, pidx, dk, u, (rest.map (2 ^ ·)).sum, got, tested]
    if u % 2 == 1 then (if (m.pcl pc).testing then start m 400 else m.ifstNext now part pidx dk got tested rest)
    else match m.vacate now pc with
      | some m => start (m.modPcl pc (fun c => { c with testing := true })) 150
      | none => m.ifstNext now part pidx dk got tested rest

/-- IFST_UNIT_COMPLETE (R370): at (partition, packet, die, unit, units to come, units that passed, units tested), a unit finishes;
whether it passed is a free value. One that fails is logged as contained in bank 7 and retired. -/
def execIfstUnitComplete (s : State) : Ans :=
  onMach (fun now m =>
    let part := m.arg 0
    let dk := m.arg 2
    let u := m.arg 3
    let rest := (List.range 32).filter (fun v => bitOf (m.arg 4) v)
    let array := u % 2 == 1
    let pc := pcKey (dk / 8) (dk % 8) (u / 2) (if dk / 8 == 4 then part else 0)
    let pidx := m.arg 1
    let tested := m.arg 6
    let got := m.arg 5
    let (i, m) := m.draw
    let pass := bitOf (Config.freeWord i).toNat 0
    let m := if pass then m else
      let m := m.mcLog dk 7 (mcStatus 2 0 0 part 0 (if array then 2 else 1) (u / 2) 0 0) 0 0
      if array then (m.modPcl pc (fun c => { c with arrayRetired := true })).leaveArray now pc else m.retireMark pc
    -- bit 12 tells of the arrays taken together: it stands only while every array tested has passed
    let bit := if array then 12 else u / 2
    let got := if pass then (if array && bitOf tested 12 then got else got ||| 2 ^ bit) else (if bitOf got bit then got - 2 ^ bit else got)
    let m := if pass && rest.head? == some (u + 1) && !array then m
      else (m.modPcl pc (fun c => { c with testing := false })).retryWaiting now
    m.ifstNext now part pidx dk got (tested ||| 2 ^ bit) rest) s

/-! ### Links (R442, R443) -/

def Mach.modLink (m : Mach) (dk l : Nat) (f : Link → Link) : Mach :=
  m.modDie dk (fun d => { d with links := smod d.links l {} f })

/-- A corrected event of a die's link, in bank 4 (R442). -/
def Mach.linkCorrected (m : Mach) (dk l : Nat) : Mach := m.mcLog dk 4 (mcStatus 1 0 0 0 0 0 0 l 0) 0 0

/-- LINK_BEAT_ERROR (R443): at (die, link, stream), the receiver discards a beat. A fixed-timing job that waits on it freezes at
once; the link replays the beat. With no waiting stream only the link is concerned. -/
def execLinkBeatError (s : State) : Ans :=
  onMach (fun now m =>
    let dk := m.arg 0
    let l := m.arg 1 % 2
    let sid := m.arg 2
    if (sget (m.die dk).links l {}).dead then m else
    let m := m.modLink dk l (fun k => { k with replay := some (0, sid) })
    let j := m.job (m.str sid).job
    let m := if sid != 0 && j.fixed && j.phase == .running && (m.str sid).state != .idle then m.takeFreeze now sid { code := .link } else m
    m.after now 0 .linkReplay [dk, l, 1, sid]) s

/-- LINK_REPLAY (R443): at (die, link, try, stream), a replay succeeds or fails, as a free value says; four failures are
LINK_UNCORRECTABLE, and the link is retired, with the die when its other link is dead (R441). -/
def execLinkReplay (s : State) : Ans :=
  onMach (fun now m =>
    let dk := m.arg 0
    let l := m.arg 1 % 2
    let n := m.arg 2
    let sid := m.arg 3
    let (i, m) := m.draw
    let j := m.job (m.str sid).job
    if bitOf (Config.freeWord i).toNat 0 then (m.modLink dk l (fun k => { k with replay := none })).linkCorrected dk l
    else if n < 4 then (m.modLink dk l (fun k => { k with replay := some (n, sid) })).after now 0 .linkReplay [dk, l, n + 1, sid]
    else
      let frozen : Option Nat := match j.handle with
        | some h => if sid != 0 && j.fixed && (m.frec h).code == FCode.link.num && (m.frec h).primary == sid then some h else none
        | none => none
      let m := m.mcLog dk 4 (mcStatus 2 0 0x33 (cxPart j.cx) (j.cx % 64) 3 0 l (if sid != 0 then j.jobid else 0)) 0 0
      let m := m.modLink dk l (fun _ => { dead := true })
      let m : Mach := match frozen with
        | some h => m.modRec h (fun r => { r with cause := 0x33 })
        | none => if sid != 0 && !j.fixed && j.phase == JPhase.running && (m.str sid).state != SState.idle then m.takeFreeze now sid { code := .link } else m
      if (sget (m.die dk).links (1 - l) {}).dead || (dk / 8 < 4 && (m.liveSwitches dk).isEmpty) then m.retireDie now dk else m) s

end Sys2Proof.Machine
end

