-- ==== Sys2Proof/Machine/Host.lean ====
section
/-! DEFINITION. The host's side of the package: queues and their registers (R343 to R346), completion records and messages (R346,
R358, R359), the register block (R6, R17, R291, R348, R365, R389, R425, R438), and the event ring's registers.

A host access is an event of the agenda; its operands stand in `Mach.ev`, the partition first. -/

namespace Sys2Proof.Machine

/-- Whether the host's link works: the trust die released the I/O die (R390). -/
def Mach.linkUp (m : Mach) : Bool := m.trdUp && (m.die (dieKey 5 0)).boot == .present
/-- A host access to a partition's block; without a link, or for an absent partition, nothing happens. -/
def hostMach (f : Nat → Mach → Nat → Mach) (s : State) : Ans :=
  onMach (fun now m => if m.linkUp && (sget? m.parts (m.arg 0)).isSome then f now m (m.arg 0) else m) s

/-! ### Fields of QCTL (R344) -/

def Queue.c (q : Queue) : Nat := q.qctl.toNat
def Queue.en (q : Queue) : Bool := bitOf q.c 57
def Queue.size (q : Queue) : Nat := 2 ^ fld q.c 48 4
def Queue.csize (q : Queue) : Nat := 2 ^ fld q.c 44 4
def Queue.vec (q : Queue) : Nat := fld q.c 21 11
def Queue.icount (q : Queue) : Nat := fld q.c 8 8
def Queue.ihold (q : Queue) : Nat := fld q.c 0 8
/-- QSTAT (R343). -/
def Queue.stat (q : Queue) : Nat := b2n q.cfull * 8 + b2n q.resetting * 4 + b2n q.err * 2 + b2n q.en

/-- A queue's context (R344). -/
def Queue.cx (q : Queue) (part : Nat) : Nat := cxKey part (fld q.c 58 6)

/-! ### Completion records (R346, R358, R359) -/

/-- The message of a queue's pending records is sent, and counting starts again (R358). -/
def Mach.sendMessage (m : Mach) (part q : Nat) : Mach :=
  (m.modQueue part q (fun x => { x with ipend := 0 })).msix part (m.queue part q).vec

/-- A record written now is counted (R358). -/
def Mach.countRecord (m : Mach) (now part q : Nat) : Mach :=
  let x := m.queue part q
  let first := x.ipend == 0
  let m := m.modQueue part q (fun x => { x with t1 := if first then now else x.t1, ipend := x.ipend + 1 })
  if x.icount ≤ x.ipend + 1 then m.sendMessage part q
  else if first then
    -- a record written at the instant itself counts first, so each timer stands one tick behind it
    (m.at (now + 4000 * Config.tick + 1) .coalesceTimer [part, q, now, 0]).at (now + 1000 * x.ihold * Config.tick + 1) .coalesceTimer
      [part, q, now, 1]
  else m

/-- The homes of a ring slot of a queue: host physical, or device virtual in its context (R343). -/
def Mach.ringHomes (m : Mach) (part : Nat) (x : Queue) (base : Word) (off n : Nat) (nd : Need) : Option (Mach × List Nat) :=
  let a := base.toNat / 4096 * 4096 + off
  if !bitOf base.toNat 0 then some (m, (List.range n).map (fun i => hostKey (a + i)))
  else if (sget? m.ctxs (x.cx part)).isNone then none
  else match m.xlatCx (x.cx part) a nd with
    | .ok (m, p) => some (m, (List.range n).map p.home)
    | .error _ => none

/-- Records waiting at the I/O die written in order while there is room and the writes perform (R346). -/
def Mach.flushRecords (m : Mach) (now part q : Nat) : Nat → Mach
  | 0 => m
  | fuel + 1 =>
    let x := m.queue part q
    match x.waiting with
    | [] => m.modQueue part q (fun x => { x with cfull := false, cfail := false })
    | (w0, w1) :: rest =>
      if (x.ctail + 1) % x.csize == x.chead % x.csize then m.modQueue part q (fun x => { x with cfull := true })
      else
        let fail := fun (m : Mach) =>
          if (m.queue part q).cfail then m
          else ((m.modQueue part q (fun x => { x with err := true, cfail := true })).msix part x.vec).at
            (now + 100000 * Config.tick) .completionRetryTimer [part, q]
        match m.ringHomes part x x.cbase (16 * (x.ctail % x.csize)) 16 { wr := true } with
        | none => fail m
        | some (m, hs) =>
          match hs.find? (fun h => badIn m.homes h 1) with
          | some h => fail (m.badLog (x.cx part) h)
          | none =>
          let m := { m with homes := (hs.zip (leBytes 8 w0 ++ leBytes 8 w1)).foldl (fun (h : Homes) (b : Nat × Byte) => homeSet h b.1 b.2) m.homes }
          let m := m.modQueue part q (fun x => { x with waiting := rest, ctail := (x.ctail + 1) % x.csize, cfail := false })
          -- what was tried again is written: the next record that fails is a failure of its own
          let m := { m with agenda := m.agenda.filter (fun e => !(e.2.1 == Instr.completionRetryTimer && e.2.2 == [part, q])) }
          (m.countRecord now part q).flushRecords now part q fuel

/-- COMPLETION_RECORD_WRITE (R346): (partition, queue, TYPE, STATUS, JOBID, PIDX, VALUE) becomes a record at CTAIL, behind the
records that wait. -/
def execCompletionRecordWrite (s : State) : Ans :=
  onMach (fun now m =>
    let part := m.arg 0
    let q := m.arg 1
    let w0 := m.arg 2 % 16 * 2 ^ 60 + m.arg 5 % 2 ^ 28 * 2 ^ 32 + m.arg 3 % 2 ^ 16 * 2 ^ 16 + m.arg 4 % 2 ^ 16
    let m := m.modQueue part q (fun x => { x with waiting := x.waiting ++ [(w0, m.arg 6 % 2 ^ 64)] })
    m.flushRecords now part q ((m.queue part q).waiting.length + 1)) s

/-- COALESCE_TIMER (R358): the hold time of (partition, queue, t1) is over (operand 1), or 4 µs have passed with one record. -/
def execCoalesceTimer (s : State) : Ans :=
  onMach (fun _ m =>
    let x := m.queue (m.arg 0) (m.arg 1)
    if x.ipend == 0 || x.t1 != m.arg 2 || (m.arg 3 == 0 && x.ipend != 1) then m else m.sendMessage (m.arg 0) (m.arg 1)) s

/-- COMPLETION_RETRY_TIMER (R346): a record write that failed is tried again, every 100 µs. -/
def execCompletionRetryTimer (s : State) : Ans :=
  onMach (fun now m =>
    let part := m.arg 0
    let q := m.arg 1
    let m := m.flushRecords now part q ((m.queue part q).waiting.length + 1)
    if (m.queue part q).cfail then m.at (now + 100000 * Config.tick) .completionRetryTimer [part, q] else m) s

/-- MSIX_UNMASK (R358): at (partition, vector) a pending message is sent. With operand 1 the host masks the vector. -/
def execMsixUnmask (s : State) : Ans :=
  hostMach (fun _ m part =>
    let v := m.arg 1
    if m.arg 2 == 1 then m.modPart part (fun p => { p with masked := if p.masked.contains v then p.masked else p.masked ++ [v] })
    else
      let p := m.part part
      let m := m.modPart part (fun p => { p with masked := p.masked.filter (· != v), pendVec := p.pendVec.filter (· != v) })
      if p.pendVec.contains v then m.emit (.msix part v) else m) s

/-! ### Queue registers (R343, R344) -/

/-- The complex goes on reading a queue. -/
def Mach.readOn (m : Mach) (now part q : Nat) : Mach := m.after now 0 .packetRead [part, q]

/-- A write of QCTL (R344). -/
def Mach.writeQctl (m : Mach) (now part q : Nat) (v : Word) : Mach :=
  let x := m.queue part q
  let rw := bits 63 57 + bits 55 44 + bits 31 21 + bits 15 0
  let c := x.qctl
  if x.en then
    if bitOf v.toNat 57 then m.modQueue part q (fun x => { x with err := false })
    else m.modQueue part q (fun x => { x with qctl := wd (c.toNat - 2 ^ 57) })
  else
    let n := ((c &&& ~~~(wd rw)) ||| (v &&& wd rw)).toNat
    if !bitOf n 57 then m.modQueue part q (fun x => { x with qctl := wd n })
    else
      let ok := 4 ≤ fld n 48 4 && fld n 48 4 ≤ 12 && 4 ≤ fld n 44 4 && fld n 44 4 ≤ 12 && 1 ≤ fld n 8 8 && 1 ≤ fld n 0 8 && fld n 0 8 ≤ 64
        && (m.part part).queues.all (fun y => y.1 == q || !y.2.en || y.2.vec != fld n 21 11)
        && (q != 0 || (!bitOf x.qbase.toNat 0 && !bitOf x.cbase.toNat 0))
      if ok then (m.modQueue part q (fun x => { x with qctl := wd n, err := false, pidx := 0 })).readOn now part q
      else m.modQueue part q (fun x => { x with qctl := wd (n - 2 ^ 57), err := true })

/-- A write of QTAIL: the doorbell (R343, R344, R345). -/
def Mach.writeQtail (m : Mach) (now part q v : Nat) : Mach :=
  let x := m.queue part q
  if x.size ≤ v % 65536 then m.modQueue part q (fun x => { x with err := true })
  else (m.modQueue part q (fun x => { x with qtail := v % 65536, stuck := false })).readOn now part q

/-- A write of CHEAD: room, and another try for the records that wait (R346). -/
def Mach.writeChead (m : Mach) (now part q v : Nat) : Mach :=
  let m := m.modQueue part q (fun x => { x with chead := v % 65536 })
  m.flushRecords now part q ((m.queue part q).waiting.length + 1)

/-- Room in the event ring may let the IOD write, and a die post its block (R425, R427). -/
def Mach.ringOn (m : Mach) (now part : Nat) : Mach :=
  (m.fullEdge part).at now .eventPost [part]

/-- A write of EVHEAD (R425). -/
def Mach.writeEvhead (m : Mach) (now part v : Nat) : Mach :=
  (m.modPart part (fun p => { p with evhead := v % 65536 })).ringOn now part

/-- QTAIL_DOORBELL: (partition, queue, value). -/
def execQtailDoorbell (s : State) : Ans := hostMach (fun now m part => m.writeQtail now part (m.arg 1 % 64) (m.arg 2)) s
/-- QCTL_WRITE: (partition, queue, value). -/
def execQctlWrite (s : State) : Ans := hostMach (fun now m part => m.writeQctl now part (m.arg 1 % 64) (wd (m.arg 2))) s
/-- CHEAD_WRITE: (partition, queue, value). -/
def execCheadWrite (s : State) : Ans := hostMach (fun now m part => m.writeChead now part (m.arg 1 % 64) (m.arg 2)) s
/-- EVHEAD_WRITE: (partition, value). -/
def execEvheadWrite (s : State) : Ans := hostMach (fun now m part => m.writeEvhead now part (m.arg 1)) s

/-! ### The register block (R6) -/

/-- Kinds and dies whose machine-check banks a partition's block shows (R438). -/
def Part.seesBank (p : Part) (dk : Nat) : Bool :=
  if dk / 8 == 4 then true else if 5 ≤ dk / 8 then p.manager else bitOf (p.own.getD (dk / 8) 0) (dk % 8)

/-- A word of a die's slot table (R348). -/
def Mach.slotWord (m : Mach) (part dk e w : Nat) : Word :=
  match sget? (m.die dk).binds e with
  | none => 0
  | some b =>
    if b.part != part then 0 else
    let low := ((List.range 12).find? (fun c => bitOf b.clmask c)).getD 0
    match w with
    | 0 => wd (2 ^ 63 + b.part * 2 ^ 60 + b.ctx * 2 ^ 54 + b.resv * 2 ^ 45 + b.clmask)
    | 1 => wd b.rcb
    | 2 => wd ((sget (m.ctx (cxKey part b.ctx)).rcbs b.rcb {}).debt * 2 ^ 9 + sget b.left low b.resv)
    | _ => 0

/-- What a host read of an offset of a partition's block returns (R6, R17, R291, R343, R348, R365, R389, R425, R438). The
block's registers are 64 bits wide, and the spec gives no other access width: an access at an offset that is no multiple of 8, such as
the upper half of a register, reads 0 and writes nothing (DESIGN CHOICE, log 87). -/
def Mach.hostReg (m : Mach) (part off : Nat) : Word :=
  let p := m.part part
  if off % 8 != 0 then 0
  else if 0x1000 ≤ off && off < 0x1028 then p.hc.getD ((off - 0x1000) / 8) 0
  else if off == 0x1028 then wd (p.gen % 2 ^ 32 + b2n p.rcpend * 2 ^ 32)
  else if 0x2000 ≤ off && off < 0x2030 then p.abx.getD ((off - 0x2000) / 8) 0
  else if 0x3000 ≤ off && off < 0x3028 then wd (match (off - 0x3000) / 8 with
    | 0 => m.pcap | 1 => m.pidle | 2 => p.floor | 3 => (m.parts.map (fun q => q.2.floor)).sum | _ => m.pnow)
  else if 0x4000 ≤ off && off < 0x5000 then
    let q := m.queue part ((off - 0x4000) / 64)
    match off % 64 with
    | 0x00 => q.qbase | 0x08 => q.qctl | 0x10 => wd q.qtail | 0x18 => wd q.qhead | 0x20 => q.cbase
    | 0x28 => wd (q.ctail * 2 ^ 32 + q.chead) | 0x30 => wd q.stat | _ => 0
  else if 0x5000 ≤ off && off < 0x5800 then wd ((m.queue part ((off - 0x5000) / 32)).cf.getD (off % 32 / 8) 0)
  else if off == 0x6000 then p.evbase
  else if off == 0x6008 then p.evctl
  else if off == 0x6010 then wd p.evtail
  else if off == 0x6018 then wd p.evhead
  else if off == 0x6020 then wd (b2n p.evFull * 2 + b2n p.evbp)
  else if 0x10000 ≤ off && off < 0x24000 then
    let t := (off - 0x10000) / 0x800
    if p.lcount (t / 8) ≤ t % 8 then 0 else
    m.slotWord part (dieKey (t / 8) (p.carrier (t / 8) (t % 8))) (off % 0x800 / 32) (off % 32 / 8)
  else if 0x30000 ≤ off && off < 0x33800 then
    let dk := (off - 0x30000) / 0x100
    if !p.seesBank dk then 0 else
    let b := sget (m.die dk).banks (off % 0x100 / 32) {}
    match off % 32 / 8 with | 0 => b.status | 1 => b.addr | 2 => b.misc | _ => wd b.count
  else 0

/-- The mnemonic event of a mailbox operation code (R291). -/
def abxEvent : Nat → Option Instr
  | 0 => some .abxAdd | 1 => some .abxAnd | 2 => some .abxOr | 3 => some .abxXor | 4 => some .abxMin | 5 => some .abxMax
  | 6 => some .abxMinn | 7 => some .abxMaxn | 8 => some .abxSwap | 9 => some .abxCas | _ => none

/-- REGISTER_WRITE (R6): (partition, offset, value); RO fields and reserved bits keep their values, and an offset that is no multiple of 8 is
not written (DESIGN CHOICE, log 87). With operand 1 the access is a
read, and the word leaves the package. -/
def execRegisterWrite (s : State) : Ans :=
  hostMach (fun now m part =>
    let off := m.arg 1
    let v := wd (m.arg 2)
    let p := m.part part
    if m.arg 3 == 1 then m.emit (.word part (m.hostReg part off))
    else if off % 8 != 0 then m
    else if 0x2000 ≤ off && off < 0x2018 then m.modPart part (fun p => { p with abx := p.abx.set ((off - 0x2000) / 8) v })
    else if off == 0x2018 then
      if p.abx.getD 5 0 == 1 then m else
      let c := v &&& wd (bits 63 58 + bits 31 16 + bits 11 8 + 1)
      let m := m.modPart part (fun p => { p with abx := p.abx.set 3 c })
      match abxEvent (fld c.toNat 8 4) with
      | none => m.mboxDone part 2 none
      | some e => (m.mboxDone part 1 none).at now e [part]
    else if 0x4000 ≤ off && off < 0x5000 then
      let q := (off - 0x4000) / 64
      match off % 64 with
      | 0x00 => m.modQueue part q (fun x => { x with qbase := v &&& wd (bits 63 12 + 1) })
      | 0x08 => m.writeQctl now part q v
      | 0x10 => m.writeQtail now part q v.toNat
      | 0x20 => m.modQueue part q (fun x => { x with cbase := v &&& wd (bits 63 12 + 1) })
      | 0x28 => m.writeChead now part q v.toNat
      | _ => m
    else if off == 0x6000 then m.modPart part (fun p => { p with evbase := v &&& wd (bits 63 12) })
    else if off == 0x6008 then (m.modPart part (fun p => { p with evctl := v &&& wd (bits 31 16) })).ringOn now part
    else if off == 0x6018 then m.writeEvhead now part v.toNat
    else if off == 0x6020 then (if bitOf v.toNat 0 then m.modPart part (fun p => { p with evbp := false }) else m)
    else if 0x30000 ≤ off && off < 0x33800 && off % 32 == 0 && bitOf v.toNat 63 then
      let dk := (off - 0x30000) / 0x100
      if !p.seesBank dk then m else
      m.modDie dk (fun d => { d with banks := smod d.banks (off % 0x100 / 32) {} (fun b => { count := b.count }) })
    else m) s

/-! ### Packets (R345, R347, R389) -/

/-- Admin commands by code (R347). -/
def adminEvent : Nat → Option Instr
  | 0x01 => some .ctxCreate | 0x02 => some .ctxTeardown | 0x03 => some .rcbUpdate | 0x04 => some .basketSize
  | 0x05 => some .basketPut | 0x06 => some .basketDel | 0x07 => some .energySet | 0x08 => some .powerCap
  | 0x09 => some .queueReset | 0x0A => some .ifst | 0x0B => some .xinval | 0x0C => some .rangerSet | 0x0D => some .hamperSet
  | 0x0E => some .partSwap | _ => none

/-- The record of R389 for a capability fault, and its completion record of type 2 (R345, R388). -/
def Mach.capReport (m : Mach) (now part q pidx cause field value : Nat) (k : Cap) : Mach :=
  let v := k.v.toNat
  (m.modQueue part q (fun x => { x with cf := [cause * 2 ^ 56 + field * 2 ^ 48 + pidx % 2 ^ 28, value % 2 ^ 64, fld v 0 56,
      fld v 116 12 * 2 ^ 52 + fld v 104 12 * 2 ^ 40 + fld v 56 40] })).at now .completionRecordWrite
    [part, q, 2, 0x40, 0, pidx, now / Config.tick]

/-- PACKET_READ (R345): at (partition, queue), the packet at QHEAD is read and validated; a launch waits for the dispatcher, an
admin command is carried out. An address field of a packet beyond the 56 bits of a capability's BASE is out of bounds (log 12). -/
def execPacketRead (s : State) : Ans :=
  onMach (fun now m =>
    let part := m.arg 0
    let q := m.arg 1
    let x := m.queue part q
    if !x.en || x.stuck || x.resetting || x.qhead == x.qtail then m
    else
      let unread := fun (m : Mach) => (m.modQueue part q (fun x => { x with err := true, stuck := true })).msix part x.vec
      match m.ringHomes part x x.qbase (64 * (x.qhead % x.size)) 64 { rd := true } with
      | none => unread m
      | some (m, hs) =>
        match hs.find? (fun h => badIn m.homes h 1) with
        | some h => (unread m).badLog (x.cx part) h
        | none =>
        let w := wordsOf (hs.map (homeByte m.homes))
        let m := m.soft (64 * part) hs
        let pidx := x.pidx
        let m := m.modQueue part q (fun x => { x with qhead := (x.qhead + 1) % x.size, pidx := (x.pidx + 1) % 2 ^ 28 })
        let m := { m with kcores := smod m.kcores (part % 8) {} (fun (c : Core) => { c with part := part, queue := q, pidx := pidx }) }
        let root := sget (sget m.kcores (part % 8) {}).k 1 {}
        let m :=
          if q == 0 then
            match (if w.getD 0 0 % 2 ^ 56 == 0 then adminEvent (w.getD 0 0 / 2 ^ 56) else none) with
            | none => m.adminDone now part pidx 0x130 0
            | some e => (m.modQueue part 0 (fun x => { x with busy := x.busy ++ [pidx] })).at now e (part :: pidx :: w)
          else match [0, 1].find? (fun i => 2 ^ 56 ≤ w.getD i 0) with
            | some i => m.capReport now part q pidx 4 i (w.getD i 0) root
            | none =>
              let (n, m) := m.newId
              let l : Launch := { words := w, source := .host pidx, queue := q, cx := x.cx part, arr := n }
              (m.modQueue part q (fun x => { x with valid := x.valid ++ [l] })).after now 0 .launchDispatch [part]
        m.readOn now part q) s

end Sys2Proof.Machine
end

