-- ==== Sys2Proof/Machine/Admin.lean ====
section
/-! DEFINITION. The admin commands of queue 0 (R347): contexts (R28, R29, R334, R376), RCB updates (R37), the basket (R331), energy
(R361), the power cap (R366), queue resets (R276), self-tests (R370), invalidations (R381, R382), handler pools (R407), hamper
areas (R432) and partition swaps (R436).

A command's operands stand in `Mach.ev`: partition, packet index, then the packet's eight words. -/

namespace Sys2Proof.Machine

/-- BAD_ADMIN, NOT_MANAGER, CAP_REJECTED, CAP_BELOW_IDLE, REFUSED_RCB. -/
def stBadAdmin : Nat := 0x130

/-- Whether a context stands, and is not being torn down (R28, R334). -/
def Mach.ctxThere (m : Mach) (cx : Nat) : Bool := match sget? m.ctxs cx with | some c => !c.going | none => false

/-- An admin command: operand bits outside the masks of words 1 to 7 are refused, then the command answers at once with a status and
a VALUE, or goes on by itself (none). -/
def adminOp (masks : List Nat) (f : Nat → Mach → Nat → Nat → (Nat → Nat) → Mach × Option (Nat × Nat)) (s : State) : Ans :=
  onMach (fun now m =>
    let part := m.arg 0
    let pidx := m.arg 1
    let w := fun (i : Nat) => m.arg (2 + i)
    if (List.range 7).any (fun i => w (i + 1) &&& (2 ^ 64 - 1 - masks.getD i 0) != 0) then m.adminDone now part pidx stBadAdmin 0
    else match f now m part pidx w with
      | (m, some (st, v)) => m.adminDone now part pidx st v
      | (m, none) => m) s

/-- A command that changes nothing and completes with BAD_ADMIN. -/
def badAdmin (m : Mach) : Mach × Option (Nat × Nat) := (m, some (stBadAdmin, 0))

def all64 : Nat := 2 ^ 64 - 1

/-! ### Contexts -/

/-- Whether a record, a launch, a job or an invalidation still names a context that is going (R28). -/
def Mach.ctxNamed (m : Mach) (cx : Nat) : Bool :=
  let p := m.part (cxPart cx)
  m.jobs.any (fun j => j.2.cx == cx && j.2.live) || p.basket.any (fun b => b.2.words.getD 7 0 / 2 ^ 58 == cx % 64)
    || p.held.any (fun l => l.cx == cx) || p.armed.any (fun l => l.cx == cx) || p.queues.any (fun q => q.2.valid.any (fun l => l.cx == cx))
    || m.invs.any (fun v => v.cx == cx) || m.recs.any (fun r => r.2.live && r.2.cx == cx)

/-- CTX_CREATE (R28, R29, R376). -/
def execCtxCreate (s : State) : Ans :=
  adminOp [0x13F, all64, all64, all64, all64, all64, all64] (fun _ m part _ w =>
    let cx := cxKey part (fld (w 1) 0 6)
    let root := w 2
    if m.ctxThere cx || m.ctxNamed cx || root / 2 ^ 56 != 0 || fld root 1 13 != 0 then badAdmin m
    else
      let m := m.setCtx cx { fixed := bitOf (w 1) 8, root := root, rcb := w 3, ewgt := [w 4, w 5, w 6, w 7] }
      let m := { m with ccs := m.ccs.filter (fun c => ccCx c.1 != cx) }
      (m.bindContext cx, some (0, 0))) s

/-- CTX_TEARDOWN (R334): armed records return, jobs are killed, nothing of the context stays on a cluster, and its translations are
invalidated before its number is used again (R381). -/
def execCtxTeardown (s : State) : Ans :=
  adminOp [0x3F, 0, 0, 0, 0, 0, 0] (fun now m part pidx w =>
    let cx := cxKey part (fld (w 1) 0 6)
    if !m.ctxThere cx then badAdmin m else
    let m := m.modCtx cx (fun c => { c with going := true })
    let gone := (m.part part).armed.filter (fun l => l.cx == cx) ++ (m.part part).held.filter (fun l => l.cx == cx)
    let m := m.modPart part (fun p => { p with armed := p.armed.filter (fun l => l.cx != cx), held := p.held.filter (fun l => l.cx != cx) })
    let m := gone.foldl (fun m l => m.refuse now part l 0x125) m
    -- a launch from the basket that has not begun to prime returns as its record would have (R334)
    let m := (m.jobs.filter (fun j => j.2.cx == cx && j.2.live)).foldl (fun m j =>
      match j.2.phase, j.2.source with
      | .waiting, .basket _ => m.jobGone now j.1 0x125
      | _, _ => m.killJob now j.1) m
    let clear : PClu → PClu := fun c =>
      let c := if c.active == some cx then { c.occupy now none with slot := none } else c
      if c.bank == some cx then { c with bank := none } else c
    let m := { m with
      pcs := m.pcs.map (fun (p : Nat × PClu) => (p.1, clear p.2))
      dies := m.dies.map (fun (d : Nat × Die) => (d.1, { d.2 with binds := d.2.binds.filter (fun (b : Nat × Bind) =>
        !(b.2.part == part && b.2.ctx == cx % 64)) })) }
    (m.startInval now (fun id => { id := id, cx := cx, all := true, va := 0, psz := 0, admin := some (part, pidx) }), none)) s

/-- Contexts of a partition that stand, ascending. -/
def Mach.ctxsOf (m : Mach) (part : Nat) : List Nat := (m.ctxs.filter (fun c => cxPart c.1 == part && !c.2.going)).map (·.1)

/-- RCB_UPDATE (R37). The command names no context: it means every context a bind record or launch of which names the RCB, else any
one in whose space the RCB is valid (log 41). -/
def execRcbUpdate (s : State) : Ans :=
  adminOp [all64, 0, 0, 0, 0, 0, 0] (fun _ m part _ w =>
    let va := w 1
    let held := (m.ctxsOf part).filter (fun cx => (sget? (m.ctx cx).rcbs va).isSome && m.rcbNamed cx va)
    if held.isEmpty then
      (m, some (if (m.ctxsOf part).any (fun cx => (m.validRcb cx 8 va).isSome) then 0 else 0x120, 0))
    else if !held.all (fun cx => (m.validRcb cx 8 va).isSome) then (m, some (0x120, 0))
    else
      let m := held.foldl (fun m cx => match m.validRcb cx 8 va with
        | some (m, l) => m.modRcb cx va (fun r => { r with next := some (l.headD (0, [])).2 })
        | none => m) m
      (m, some (0, 0))) s

/-! ### The basket (R331) -/

def execBasketSize (s : State) : Ans :=
  adminOp [0x7FF, 0, 0, 0, 0, 0, 0] (fun _ m part _ w =>
    if w 1 == 0 || 1024 < w 1 || !(m.part part).basket.isEmpty then badAdmin m
    else (m.modPart part (fun p => { p with bsize := w 1 }), some (0, 0))) s

/-- BASKET_PUT: the image is read in the space of the context that its word 7 names (log 41). -/
def execBasketPut (s : State) : Ans :=
  adminOp [0x3FF, all64, 0, 0, 0, 0, 0] (fun _ m part _ w =>
    let p := m.part part
    if p.bsize ≤ w 1 || (sget? p.basket (w 1)).isSome then badAdmin m
    else match (m.ctxsOf part).findSome? (fun cx => match m.readWords cx (w 2) 8 with
        | some (m, ws) => if ws.getD 7 0 / 2 ^ 58 == cx % 64 then some (m, ws) else none
        | none => none) with
      | none => badAdmin m
      | some (m, ws) =>
        -- the device writes word 7 but for CTXID and PATCH (R329)
        let ws := ws.set 7 (fld (ws.getD 7 0) 53 11 * 2 ^ 53)
        (m.modPart part (fun p => { p with basket := sset p.basket (w 1) { words := ws } }), some (0, 0))) s

def execBasketDel (s : State) : Ans :=
  adminOp [0x3FF, 0, 0, 0, 0, 0, 0] (fun _ m part _ w =>
    match sget? (m.part part).basket (w 1) with
    | some b => if b.state != 0 then badAdmin m else (m.modPart part (fun p => { p with basket := sdel p.basket (w 1) }), some (0, 0))
    | none => badAdmin m) s

/-! ### Energy and power -/

/-- ENERGY_SET (R347, R361): the total and every cluster's part of it; each cluster's copy takes the new total at once. -/
def execEnergySet (s : State) : Ans :=
  adminOp [0x3F, 2 ^ 48 - 1, 0, 0, 0, 0, 0] (fun _ m part _ w =>
    let cx := cxKey part (fld (w 1) 0 6)
    if !m.ctxThere cx then badAdmin m else
    let m := m.modCtx cx (fun c => { c with ecnt := w 2, esat := false })
    let ccs := m.ccs.map (fun (c : Nat × Cctx) => if ccCx c.1 == cx then
        (c.1, { c.2 with eclPj := 0, dfrac := 0, sres := 0, esat := false, ecnt := w 2, ecntSat := false, folded := 0, eclAt := (0, 0, 0, false) }) else c)
    -- a fold on its way is part of the old total
    let rest := m.agenda.filter (fun e => !(e.2.1 == .foldArrival && ccCx (e.2.2.getD 0 0) == cx))
    ({ m with ccs := ccs, agenda := rest }, some (0, 0))) s

/-- POWER_CAP (R366). -/
def execPowerCap (s : State) : Ans :=
  adminOp [2 ^ 32 - 1, 0, 0, 0, 0, 0, 0] (fun _ m part _ w =>
    let cap := w 1
    let sum := (m.parts.map (fun q => q.2.floor)).sum
    if !(m.part part).manager then (m, some (0x133, m.pcap))
    else if cap < sum then (m, some (0x132, m.pcap))
    else if cap < m.pidle then ({ m with pcap := m.pidle }, some (0x131, m.pidle))
    else ({ m with pcap := min cap Config.pcapReset }, some (0, min cap Config.pcapReset))) s

/-! ### Queue reset (R276) -/

/-- Whether a job belongs to a queue of a partition (R38). -/
def Job.onQueue (j : Job) (part q : Nat) : Bool := cxPart j.cx == part && j.queue == q

/-- QUEUE_RESET (R276): jobs are killed and launches dropped; the completion follows once nothing of them is in flight. -/
def execQueueReset (s : State) : Ans :=
  adminOp [0x3F, 0, 0, 0, 0, 0, 0] (fun now m part pidx w =>
    let q := w 1
    if q == 0 then badAdmin m else
    let p := m.part part
    let drop := (m.queue part q).valid ++ (p.held ++ p.armed).filter (fun l => l.queue == q)
    let m := m.modPart part (fun p => { p with held := p.held.filter (fun l => l.queue != q), armed := p.armed.filter (fun l => l.queue != q) })
    let m := m.modQueue part q (fun x => { x with valid := [], resetting := true })
    let m := drop.foldl (fun m l => match l.source with | .fork _ => m | _ => m.refuse now part l 3) m
    -- their draft stores go with their store-buffer entries
    let m := (m.jobs.filter (fun j => j.2.live && j.2.onQueue part q)).foldl (fun m j => (m.killJob now j.1).modCtx j.2.cx (fun c =>
      { c with regions := c.regions.map (fun r => r.unstore m.homes j.1) })) m
    (m.after now 0 .queueResetComplete [part, pidx, q], none)) s

/-- QUEUE_RESET_COMPLETE (R276): at (partition, packet, queue), once no write, copy beat, atomic or signal of the queue's jobs is in
flight. -/
def execQueueResetComplete (s : State) : Ans :=
  onMach (fun now m =>
    let part := m.arg 0
    let q := m.arg 2
    let mine := fun (j : Nat) => (m.job j).onQueue part q && !(m.job j).live && (sget? m.jobs j).isSome
    let busy := m.atoms.any (fun a => a.mbox.isNone && mine a.job) || m.copies.any (fun c => mine c.job)
      || m.pend.any (fun p => mine p.job) || m.streams.any (fun s => mine s.2.job && !s.2.sb.isEmpty)
    if busy then (m.draw.2).at (now + 1 + Config.delayTicks m.draw.1) .queueResetComplete m.ev
    else ((m.modQueue part q (fun x => { x with resetting := false, qhead := x.qtail })).readOn now part q).adminDone now part (m.arg 1) 0 0) s

/-! ### Self-test, translation, pools, hampers, swap -/

/-- IFST (R370): the units are tested one after another. A cluster that holds work, or a context that cannot be spilled, is left
out when its turn comes. -/
def execIfst (s : State) : Ans :=
  adminOp [0x7FFFF, 0, 0, 0, 0, 0, 0] (fun now m part pidx w =>
    let kind := fld (w 1) 0 3
    let dk := dieKey kind (fld (w 1) 3 3)
    let mask := fld (w 1) 6 12
    if 5 ≤ kind || !(m.ownedDies part).contains dk || 2 ^ Config.clusterCount kind ≤ mask || (bitOf (w 1) 18 && kind != 0) then badAdmin m
    else (m.ifstNext now part pidx dk 0 0 (ifstUnits kind mask (bitOf (w 1) 18)), none)) s

/-- XINVAL (R381, R382). -/
def execXinval (s : State) : Ans :=
  adminOp [0xF3F, all64, 0, 0, 0, 0, 0] (fun now m part pidx w =>
    let cx := cxKey part (fld (w 1) 0 6)
    let all := bitOf (w 1) 8
    let psz := fld (w 1) 9 3
    if !m.ctxThere cx || (!all && w 2 % 2 ^ pszLog psz != 0) then badAdmin m
    else (m.startInval now (fun id => { id := id, cx := cx, all := all, va := w 2, psz := psz, admin := some (part, pidx) }), none)) s

/-- RANGER_SET (R407). -/
def execRangerSet (s : State) : Ans :=
  adminOp [0xF3F, all64, 2 ^ 24 - 1, all64, 0, 0, 0] (fun _ m part _ w =>
    let cx := cxKey part (fld (w 1) 0 6)
    if !m.ctxThere cx || w 2 % 64 != 0 then badAdmin m
    else (m.modCtx cx (fun c => { c with pool := some (fld (w 1) 8 4, w 2, w 3, w 4) }), some (0, 0))) s

/-- The translations of an area, page by page, where every page is a valid HBM4E or host page with RD and WR (R432). -/
def Mach.areaPages (m : Mach) (cx stop : Nat) : Nat → Nat → Option (Mach × List Tlb)
  | 0, va => if stop ≤ va then some (m, []) else none
  | fuel + 1, va =>
    if stop ≤ va then some (m, []) else
    if !(m.part (cxPart cx)).addrOk va then none else
    match m.walk cx va true with
    | .error _ => none
    | .ok (m, lo, hi, ea, psz) =>
      let t : Tlb := { cx := cx, base := va - va % 2 ^ pszLog psz, psz := psz, lo := lo, hi := hi, ptea := ea }
      match m.pageOf cx va { rd := true, wr := true } t with
      | .error _ => none
      | .ok p => if 2 ≤ p.tgt then none else (m.areaPages cx stop fuel (t.base + 2 ^ pszLog psz)).map (fun r => (r.1, t :: r.2))

/-- HAMPER_SET (R432). -/
def execHamperSet (s : State) : Ans :=
  adminOp [0x3F, all64, all64, 0, 0, 0, 0] (fun _ m part _ w =>
    let cx := cxKey part (fld (w 1) 0 6)
    let p := m.part part
    let slots := ((List.range 5).map (fun k => p.lcount k * Config.clusterCount k)).sum
    if !m.ctxThere cx || w 2 % 65536 != 0 || w 3 < 2 ^ 25 * slots then badAdmin m
    else match m.areaPages cx (w 2 + w 3) (w 3 / 4096 + 1) (w 2) with
      | none => badAdmin m
      | some (m, pages) => (m.modCtx cx (fun c => { c with hamper := some (w 2, w 3), hpages := pages }), some (0, 0))) s

/-- PART_SWAP (R436): new slots are withheld, and the swap waits for the running fixed-timing jobs. A second command waits for the
first. -/
def execPartSwap (s : State) : Ans :=
  adminOp [0, 0, 0, 0, 0, 0, 0] (fun now m part pidx _ =>
    if (m.part part).swap.isSome then ((m.draw.2).at (now + 1 + Config.delayTicks m.draw.1) .partSwap m.ev, none)
    else ((m.modPart part (fun p => { p with swap := some (pidx, 0, []) })).after now 0 .partSwapHalted [part], none)) s

end Sys2Proof.Machine
end

