-- ==== Sys2Proof/Machine/Mailbox.lean ====
section
/-! DEFINITION. The host's accesses to device memory: the atomic mailbox (R291), PCIe AtomicOps (R384), the HDM range (R374), and the
fabric manager's commands (R372). -/

namespace Sys2Proof.Machine

/-- A mailbox atomic (R291): the checks of R282 on the address in the context of ABX_CTL, then the atomic at the page's place, under
the partition's source number of R289. A context that does not exist maps nothing: PAGE_ABSENT. -/
def mailboxOp (op : AOp) (s : State) : Ans :=
  onMach (fun now m =>
    let part := m.arg 0
    let p := m.part part
    let r := fun (i : Nat) => p.abx.getD i 0
    let ctl := (r 3).toNat
    let cx := cxKey part (fld ctl 58 6)
    let w64 := bitOf ctl 0
    let ea := (r 0).toNat
    let n := if w64 then 8 else 4
    if !m.ctxThere cx then m.mboxDone part 0x10 none
    else if ea % n != 0 then m.mboxDone part 0x13 none
    else match m.xlatCx cx ea { rd := true, wr := true } with
      | .error f => m.mboxDone part f.code.num none
      | .ok (m, pg) =>
        if pg.pub != 0 then m.mboxDone part 0x11 none
        -- a local store whose streams have not started holds the access (R55)
        else if (homeLc (pg.home 0)).any (m.awaitsStart cx) then
          match abxEvent op.code with
          | some e => (m.draw.2).at (now + 1 + Config.delayTicks m.draw.1) e m.ev
          | none => m
        else
        let (id, m) := m.newId
        let a : Atom := { id := id, sid := 2 ^ 40 + part, op := op, w64 := w64, home := pg.home 0, place := pg.aplace, opnd := r 1,
                          cmp := r 2, source := some (0x20000 + part, fld ctl 16 16), va := ea, cx := cx, job := 2 ^ 40, mbox := some part }
        let m := { m with atoms := m.atoms ++ [a] }
        let m := if pg.aplace ≤ 1 then m.after now 0 .atomicSlotServe [id, 0] else m.after now 0 .atomicUnitServe [id]
        m.at (now + 10000 * Config.tick) .seqAtomicResend [id]) s

def execAbxAdd (s : State) : Ans := mailboxOp .add s
def execAbxAnd (s : State) : Ans := mailboxOp .and s
def execAbxOr (s : State) : Ans := mailboxOp .or s
def execAbxXor (s : State) : Ans := mailboxOp .xor s
def execAbxMin (s : State) : Ans := mailboxOp .min s
def execAbxMax (s : State) : Ans := mailboxOp .max s
def execAbxMinn (s : State) : Ans := mailboxOp .minn s
def execAbxMaxn (s : State) : Ans := mailboxOp .maxn s
def execAbxSwap (s : State) : Ans := mailboxOp .swap s
def execAbxCas (s : State) : Ans := mailboxOp .cas s

/-! ### The HDM range (R374) -/

/-- The home of an offset of a partition's HDM range, or of the host's own memory from 2^57 up (log 42); none beyond the range. -/
def Mach.hdmHome (m : Mach) (part off n : Nat) : Option Nat :=
  if 2 ^ 57 ≤ off then some (hostKey (off - 2 ^ 57))
  else if off + n ≤ (m.part part).lcount 2 * 2 ^ 37 then some (homeKey part off) else none

/-- HDM_READ (R274, R374): (partition, offset, length). A bad word answers an error completion without data (R440). -/
def execHdmRead (s : State) : Ans :=
  hostMach (fun _ m part => match m.hdmHome part (m.arg 1) (m.arg 2) with
    | none => m.emit (.unsupported part)
    | some h => if badIn m.homes h (m.arg 2) then (m.badLog (64 * part) (firstBad m.homes h (m.arg 2))).emit (.readError part) else (m.softWords (64 * part) (fun w => h / 16 ≤ w && 16 * w < h + m.arg 2)).emit (.data part (homeRead m.homes h (m.arg 2)))) s

/-- The pages of a range of a context's space. -/
def Mach.pagesFrom (m : Mach) (cx : Nat) : Nat → Nat → Nat → List Pg
  | 0, _, _ => []
  | fuel + 1, va, len => match m.xlatCx cx va { look := true } with
    | .error _ => []
    | .ok (m, p) => p :: (if len ≤ p.room then [] else m.pagesFrom cx fuel (va + p.room) (len - p.room))
/-- Registered regions with a home among their pages: context and PUBRID (R260). -/
def Mach.regionsAt (m : Mach) (h : Nat) : List (Nat × Nat) :=
  m.ctxs.flatMap (fun c => (c.2.regions.filter (fun r => (m.pagesFrom c.1 (pageFuel r.len) r.base r.len).any (fun p =>
    let k := swz p.span h
    p.key ≤ k && k < p.key + p.room))).map (fun r => (c.1, r.pubrid)))
/-- A byte that the host writes at a home: into the draft of a registered region that holds it (R260), as of a job of the number 2^40. -/
def Mach.hostByte (m : Mach) (h b : Nat) : Mach :=
  match m.regionsAt h with
  | [] => { m with homes := homeSet m.homes h (BitVec.ofNat 8 b) }
  | l => l.foldl (fun m q => m.modRegion q.1 q.2 (fun r => r.store m.homes (2 ^ 40) h (BitVec.ofNat 8 b))) m

/-- HDM_WRITE (R274, R374): (partition, offset, byte, byte, …). A write of part of a bad word is dropped; one that covers it makes it
good (R440). A page of a registered region takes it in its draft (R260). -/
def execHdmWrite (s : State) : Ans :=
  hostMach (fun _ m part =>
    let bs := (m.ev.drop 2).map (fun b => b % 256)
    match m.hdmHome part (m.arg 1) bs.length with
    | none => m.emit (.unsupported part)
    | some h =>
      let ws := bs.mapIdx (fun i b => (h + i, b, 255))
      let drop := (eccTouched ws).filter (fun w => m.homes.bad.contains w && !eccWhole ws w)
      let m := match drop with | w :: _ => m.badLog (64 * part) (16 * w) | [] => m
      let m := (ws.filter (fun b => !drop.contains (b.1 / 16))).foldl (fun m b => m.hostByte b.1 b.2.1) m
      { m with homes := { m.homes with bad := m.homes.bad.filter (fun w => drop.contains w || !(eccTouched ws).contains w) } }) s

/-! ### PCIe AtomicOps (R384) -/

/-- Entries of a table at a walk level (R375). -/
def levelSize : Nat → Nat
  | 0 => 1024 | 1 => 4096 | 2 => 16 | _ => 64

/-- Whether some valid leaf under a table maps a partition-physical HBM4E address with SYSAT = 1 (R75, R384). -/
def Mach.mapsSysat (m : Mach) (part a : Nat) : Nat → Nat → Nat → Nat → Bool → Bool
  | 0, _, _, _, _ => false
  | fuel + 1, lvl, va, tbl, host =>
    (List.range (levelSize lvl)).any (fun i =>
      let ea := tbl + 16 * i
      let hk := if host then hostKey ea else homeKey part ea
      let lo := leNat (homeRead m.homes hk 8)
      let hi := leNat (homeRead m.homes (hk + 8) 8)
      let va := va + i * 2 ^ (match lvl with | 0 => 46 | 1 => 34 | 2 => 30 | 3 => 24 | 4 => 18 | _ => 12)
      if !bitOf lo 63 then false
      else if fld lo 57 3 == 7 then
        lvl != 5 && hi == 0 && fld lo 60 3 == 0 && fld lo 0 12 == 0 && m.mapsSysat part a fuel (lvl + 1) va (fld lo 12 44 * 2 ^ 12) (bitOf lo 56)
      else leafAllowed lvl (fld lo 60 3) && (m.part part).leafOk va lo hi && fld lo 57 3 == 0 && bitOf hi 53
        && fld lo 12 44 * 2 ^ 12 ≤ a && a < fld lo 12 44 * 2 ^ 12 + 2 ^ pszLog (fld lo 60 3))

/-- A host AtomicOp (R384): (partition, offset, 64-bit, operand, compare); the old value is the completion's data. -/
def hostAtomicOp (op : AOp) (s : State) : Ans :=
  hostMach (fun _ m part =>
    let off := m.arg 1
    let w64 := m.arg 2 == 1
    let n := if w64 then 8 else 4
    let mapped := (m.ctxsOf part).any (fun cx =>
      let root := (m.ctx cx).root
      m.mapsSysat part off 6 0 0 (fld root 12 44 * 2 ^ 12) (bitOf root 0))
    -- a page of a registered region takes no atomic (R260; the completion is the model's choice, log 98)
    if off % n != 0 || (m.part part).lcount 2 * 2 ^ 37 < off + n || !mapped || !(m.regionsAt (homeKey part off)).isEmpty then m.emit (.unsupported part)
    else
      let h := homeKey part off
      if badIn m.homes h n then (m.badLog (64 * part) (firstBad m.homes h n)).emit (.readError part) else
      let old := wd (leNat (homeRead m.homes h n))
      let m := m.soft (64 * part) [h]
      let m := match amoNew op w64 old (wd (m.arg 3)) (wd (m.arg 4)) with
        | some v => { m with homes := homeWrite m.homes h (leBytes n v.toNat) }
        | none => m
      m.emit (.word part old)) s

def execAtomicopFetchadd (s : State) : Ans := hostAtomicOp .add s
def execAtomicopSwap (s : State) : Ans := hostAtomicOp .swap s
def execAtomicopCas (s : State) : Ans := hostAtomicOp .cas s

/-! ### The fabric manager (R372) -/

/-- FM_LD_INFO: the number of logical devices, and the HDM size of each (log 43: the reply's layout). -/
def execFmLdInfo (s : State) : Ans :=
  onMach (fun _ m => if !m.linkUp then m else
    m.emit (.reply (m.arg 0) 0 (leBytes 2 m.parts.length
      ++ m.parts.flatMap (fun p => leBytes 2 p.1 ++ leBytes 8 (p.2.lcount 2 * 2 ^ 37))))) s

/-- FM_LD_ALLOCATION: refused, because allocation comes from the manifest alone. -/
def execFmLdAllocation (s : State) : Ans := onMach (fun _ m => if !m.linkUp then m else m.emit (.unsupported (m.arg 0))) s

end Sys2Proof.Machine
end

