-- ==== Sys2Proof/Machine/Complex.lean ====
section
/-! DEFINITION. The command complex in capability mode: the capability instructions (R385 to R388) and the checks of its loads,
stores and fetches (R386).

`Mach.kcur` names the core whose instruction executes, and `kturn` that it is its turn. -/

namespace Sys2Proof.Machine

/-! ### Capabilities (R385) -/

def Cap.n (k : Cap) : Nat := k.v.toNat
def Cap.base (k : Cap) : Nat := fld k.n 0 56
def Cap.length (k : Cap) : Nat := fld k.n 56 40
def Cap.ctx (k : Cap) : Nat := fld k.n 98 6
def Cap.kind (k : Cap) : Nat := fld k.n 104 12
def Cap.rights (k : Cap) : Nat := fld k.n 116 12
/-- A capability with its fields replaced; the context and tag stay. -/
def Cap.with (k : Cap) (base length kind rights : Nat) : Cap :=
  { k with v := BitVec.ofNat 128 (rights % 2 ^ 12 * 2 ^ 116 + kind % 2 ^ 12 * 2 ^ 104 + k.ctx * 2 ^ 98 + length % 2 ^ 40 * 2 ^ 56 + base % 2 ^ 56) }

/-- Rights bits of R385. -/
def rRD : Nat := 1
def rWR : Nat := 2
def rRUN : Nat := 4
def rTAKE : Nat := 8
def rGIVE : Nat := 16
def rSTAMP : Nat := 32

/-- Size of a record of a kind that drivers meet; other kinds' sizes stand in the firmware's own tables (R386): a free value. -/
def recSize (kind : Nat) : Nat :=
  if kind == 2 then 16 else if 1 ≤ kind && kind ≤ 6 then 64 else Config.unstated 0x386 kind

/-- The causes of R388. -/
inductive CapCause where
  | tag | kind | rights | bounds | shape | align
  deriving DecidableEq, Repr

def CapCause.num : CapCause → Nat
  | .tag => 1 | .kind => 2 | .rights => 3 | .bounds => 4 | .shape => 5 | .align => 6

/-- A right is missing, or a reserved right stands (R388). -/
def Cap.lacks (k : Cap) (need : Nat) : Bool := k.rights &&& need != need || k.rights / 256 != 0

/-- Whether `n` bytes from an address lie outside a capability. -/
def Cap.outside (k : Cap) (addr n : Nat) : Bool := addr < k.base || k.base + k.length < addr + n

def Core.kr (c : Core) (r : R) : Cap := if r == 0 then {} else sget c.k r.toNat {}
def Core.xr (c : Core) (r : R) : Word := if r == 0 then 0 else sget c.x r.toNat 0
def Core.setK (c : Core) (r : R) (k : Cap) : Core := if r == 0 then c else { c with k := sset c.k r.toNat k }
def Core.setX (c : Core) (r : R) (v : Word) : Core := if r == 0 then c else { c with x := sset c.x r.toNat v }

/-! ### Memory as the complex reaches it -/

/-- Bytes of the private SRAM (R385). -/
def sramSize : Nat := 2 ^ 21

/-- Where a byte under a capability stands: in the private SRAM, at a home, or nowhere (log 12). -/
inductive KPlace where
  | sram (a : Nat) | home (h : Nat) | nowhere
  deriving DecidableEq, Repr

def Mach.kplace (m : Mach) (part : Nat) (k : Cap) (a : Nat) (nd : Need) : KPlace :=
  if bitOf k.rights 6 then .home (hostKey a)
  else if bitOf k.rights 7 then
    match m.xlatCx (cxKey part k.ctx) a nd with
    | .ok (_, p) => .home (p.home 0)
    | .error _ => .nowhere
  else if a < sramSize then .sram a
  else .home (homeKey part a)

/-- What the translations of an access under a DEVVIRT capability leave: the A and D bits, and the slices' fills (R377, R385). -/
def Mach.kwalk (m : Mach) (part : Nat) (k : Cap) (a n : Nat) (nd : Need) : Mach :=
  if bitOf k.rights 6 || !bitOf k.rights 7 then m else
  (List.range n).foldl (fun m i => match m.xlatCx (cxKey part k.ctx) (a + i) nd with
    | .ok (m, _) => m
    | .error _ => m) m
/-- A byte the complex reads; an address that maps nowhere reads a free value (log 12). -/
def Mach.kbyte (m : Mach) (part : Nat) (k : Cap) (a : Nat) : Byte :=
  match m.kplace part k a { rd := true } with
  | .sram a => BitVec.ofNat 8 ((sget m.sram (a / 16) {}).n / 256 ^ (a % 16))
  | .home h => homeByte m.homes h
  | .nowhere => BitVec.ofNat 8 (Config.unstated 0x385 a)
/-- A byte the complex writes as data: it clears its granule's tag (R385). -/
def Mach.kput (m : Mach) (part : Nat) (k : Cap) (a : Nat) (b : Byte) : Mach :=
  match m.kplace part k a { wr := true } with
  | .sram a =>
    let g := sget m.sram (a / 16) {}
    let sh := 256 ^ (a % 16)
    { m with sram := sset m.sram (a / 16) { v := BitVec.ofNat 128 (g.n - g.n / sh % 256 * sh + b.toNat * sh), tag := false } }
  | .home h => { m with homes := homeSet m.homes h b }
  | .nowhere => m

/-! ### How an instruction of a core ends -/

/-- What a capability instruction does: its core after it, or a fault with the value it names, or an illegal instruction. -/
inductive KRes where
  | done (m : Mach) (c : Core)
  | fault (cause : CapCause) (value : Nat) (k : Cap)
  | illegal

/-- An instruction of the executing core: it retires, or a capability fault abandons the packet it served (R388), or the RV64
illegal-instruction exception is taken: cause 2, with the pc saved (R387). -/
def onCore (f : Mach → Core → KRes) (s : State) : Ans :=
  onMach (fun now m =>
    let c := sget m.kcores m.kcur {}
    let put := fun (m : Mach) (c : Core) => { m with kcores := sset m.kcores m.kcur c, kturn := false }
    match f m c with
    | .done m c => put m { c with pc := c.pc + 4 }
    | .fault cause v k => (put m c).capReport now c.part c.queue c.pidx cause.num 0xFF v k
    | .illegal => put m { c with mcause := 2, mepc := c.pc }) s

/-- KSKIP. -/
def execKskip (b a d : R) (s : State) : Ans :=
  onCore (fun m c =>
    let k := c.kr a
    let x := (c.xr b).toNat
    if !k.tag then .fault .tag x k else if k.kind != 0 then .fault .kind x k
    else if k.lacks 0 then .fault .rights x k else if k.length < x then .fault .bounds x k
    else .done m (c.setK d (k.with (k.base + x) (k.length - x) k.kind k.rights))) s
/-- KTRIM. -/
def execKtrim (b a d : R) (s : State) : Ans :=
  onCore (fun m c =>
    let k := c.kr a
    let x := (c.xr b).toNat
    if !k.tag then .fault .tag x k else if k.kind != 0 then .fault .kind x k
    else if k.lacks 0 then .fault .rights x k else if k.length < x then .fault .bounds x k
    else .done m (c.setK d (k.with k.base x k.kind k.rights))) s
/-- KDROP. -/
def execKdrop (b a d : R) (s : State) : Ans :=
  onCore (fun m c =>
    let k := c.kr a
    let x := (c.xr b).toNat
    if !k.tag then .fault .tag x k else if k.lacks 0 then .fault .rights x k
    else .done m (c.setK d (k.with k.base k.length k.kind (k.rights &&& (0xFFF - x % 2 ^ 12))))) s
/-- KSTAMP. An operand that is no kind from 1 to 4095 gives cause KIND (log 12). -/
def execKstamp (b a d : R) (s : State) : Ans :=
  onCore (fun m c =>
    let k := c.kr a
    let x := (c.xr b).toNat
    if !k.tag then .fault .tag x k
    else if k.kind != 0 || x == 0 || 2 ^ 12 ≤ x then .fault .kind x k
    else if k.lacks rSTAMP then .fault .rights x k
    else if k.length != recSize x || k.base % max 1 (recSize x) != 0 then .fault .shape x k
    else .done m (c.setK d (k.with k.base k.length x (k.rights - (k.rights &&& rSTAMP))))) s
/-- KFLD. -/
def execKfld (b a d : R) (s : State) : Ans :=
  onCore (fun m c =>
    let k := c.kr a
    let x := (c.xr b).toNat
    if !k.tag then .fault .tag x k else if k.kind == 0 then .fault .kind x k
    else if k.lacks rRD then .fault .rights x k
    else if k.length < 8 * x + 8 then .fault .bounds x k
    else .done (m.kwalk c.part k (k.base + 8 * x) 8 { rd := true })
      (c.setX d (wd (leNat ((List.range 8).map (fun i => m.kbyte c.part k (k.base + 8 * x + i))))))) s
/-- KINFO: the selector stands in the b field. -/
def execKinfo (sl a d : R) (s : State) : Ans :=
  onCore (fun m c =>
    let k := c.kr a
    match sl.toNat with
    | 0 => .done m (c.setX d (wd k.base)) | 1 => .done m (c.setX d (wd k.length)) | 2 => .done m (c.setX d (wd k.rights))
    | 3 => .done m (c.setX d (wd k.kind)) | 4 => .done m (c.setX d (wd k.ctx)) | 5 => .done m (c.setX d (wd (b2n k.tag)))
    | _ => .illegal) s
/-- KTAKE: the tag reads 0 outside the private SRAM. -/
def execKtake (b a d : R) (s : State) : Ans :=
  onCore (fun m c =>
    let k := c.kr a
    let x := (c.xr b).toNat
    let ea := k.base + x
    if !k.tag then .fault .tag x k else if k.kind != 0 then .fault .kind x k
    else if k.lacks (rRD + rTAKE) then .fault .rights x k
    else if k.outside ea 16 then .fault .bounds ea k
    else if ea % 16 != 0 then .fault .align ea k
    else match m.kplace c.part k ea { rd := true } with
      | .sram a => .done m (c.setK d (sget m.sram (a / 16) {}))
      | _ => .done (m.kwalk c.part k ea 16 { rd := true }) (c.setK d { v := BitVec.ofNat 128 (leNat ((List.range 16).map (fun i => m.kbyte c.part k (ea + i)))) })) s
/-- KGIVE. -/
def execKgive (b a d : R) (s : State) : Ans :=
  onCore (fun m c =>
    let k := c.kr a
    let x := (c.xr b).toNat
    let ea := k.base + x
    let v := c.kr d
    if !k.tag then .fault .tag x k else if k.kind != 0 then .fault .kind x k
    else if k.lacks (rWR + rGIVE) then .fault .rights x k
    else if k.outside ea 16 then .fault .bounds ea k
    else if ea % 16 != 0 then .fault .align ea k
    else match m.kplace c.part k ea { wr := true } with
      | .sram a => .done { m with sram := sset m.sram (a / 16) v } c
      | _ => .done ((List.range 16).foldl (fun m i => m.kput c.part k (ea + i) (BitVec.ofNat 8 (v.n / 256 ^ i)))
          (m.kwalk c.part k ea 16 { wr := true })) c) s

/-- CAP_ACCESS (R386): the executing core's load (0), store (1) or fetch (2): (kind, a, offset, bytes, x register). The access reaches
ka.BASE + xa + offset, 64 bits wide, once ka has passed the causes of R388; a load zero-extends (log 12). -/
def execCapAccess (s : State) : Ans :=
  onCore (fun m c =>
    let kind := m.arg 0
    let a := BitVec.ofNat 5 (m.arg 1)
    let n := m.arg 3
    let x := BitVec.ofNat 5 (m.arg 4)
    let k := c.kr a
    let ea := (k.base + (c.xr a).toNat + m.arg 2) % 2 ^ 64
    if !k.tag then .fault .tag ea k else if k.kind != 0 then .fault .kind ea k
    else if k.lacks (if kind == 0 then rRD else if kind == 1 then rWR else rRUN) then .fault .rights ea k
    else if k.outside ea n then .fault .bounds ea k
    else
      let v := leNat ((List.range n).map (fun i => m.kbyte c.part k (ea + i)))
      let m := m.kwalk c.part k ea n (if kind == 0 then { rd := true } else if kind == 1 then { wr := true } else { ex := true })
      match kind with
      | 0 => .done m (c.setX x (wd v))
      | 1 => .done ((List.range n).foldl (fun m i => m.kput c.part k (ea + i) (BitVec.ofNat 8 ((c.xr x).toNat / 256 ^ i))) m) c
      | _ => .done m { c with pc := wd ea - 4 }) s

end Sys2Proof.Machine
end

