-- ==== Sys2Proof/Machine/Boot.lean ====
section
/-! DEFINITION. Boot (R390, R396, R397), measurement (R391) and the SPDM responder of the trust die (R392, R393).

The outcomes of signature checks and self-tests, and the manifest read from flash, are inputs of the events. -/

namespace Sys2Proof.Machine

/-! ### Boot -/

/-- Dies of the part in the order they boot (R390). -/
def bootOrder : List Nat :=
  [5, 4, 2, 0, 1, 3].flatMap (fun k => (List.range (Config.dieCount k)).map (dieKey k))

/-- Measurement index of a die (R391). -/
def measIndex (dk : Nat) : Nat := 16 * (dk / 8) + dk % 8 + 1

/-- Words of the manifest that describe one partition: OWN and count of each of the five kinds, manager flag, floor (R396), and the
router strips it owns on each physical switch die (R15). -/
def partWords : Nat := 16
/-- Partitions of an accepted owner section: each owns the live dies its words name (R15). -/
def manifestParts : Nat → List Nat → List Part
  | 0, _ => []
  | fuel + 1, l => if l.length < partWords then [] else
      { own := l.take 5, counts := (l.drop 5).take 5, manager := l.getD 10 0 == 1, floor := l.getD 11 0, strips := (l.drop 12).take 4,
        queues := [(0, { qctl := 0x0104400000000140#64 })] } :: manifestParts fuel (l.drop partWords)

/-- The one partition of a package whose owner section was rejected: every present die, no manager, floor 0 (R397). -/
def Mach.solePart (m : Mach) : Part :=
  let own := (List.range 5).map (fun k => (List.range (Config.dieCount k)).foldl (fun a i =>
    if (m.die (dieKey k i)).boot == .present then a + 2 ^ i else a) 0)
  let cnt := (List.range 5).map (fun k => ((List.range (Config.dieCount k)).filter (fun i => (m.die (dieKey k i)).boot == .present)).length)
  { own := own, counts := cnt, queues := [(0, { qctl := 0x0104400000000140#64 })] }

/-- Partitions whose strips are their own: of a strip that two of them name, the lower number is the owner (log 89). -/
def ownStrips (l : List Part) : List Part :=
  l.mapIdx (fun i p => { p with strips := (List.range 4).map (fun s =>
    let below := (l.take i).foldl (fun a q => a ||| q.strips.getD s 0) 0
    ((List.range 16).filter (fun u => bitOf (p.strips.getD s 0) u && !bitOf below u)).foldl (fun a u => a + 2 ^ u) 0) })

/-- The boot that every die has finished (R15, R16, R385, R394, R395, R397): partitions, carriers, root capabilities; HBM4E reads as
what a fresh key makes of its old ciphertext; accepted versions are recorded; every cluster's cycle counter starts (R180). -/
def Mach.booted (m : Mach) (now : Nat) : Mach :=
  match m.manifest with
  | none => m
  | some w =>
    let ownOk := w.getD 2 0 == 1 && w.getD 0 0 == 1
    let l := if ownOk then ownStrips (manifestParts 8 (w.drop 4)) else [m.solePart]
    let m := { m with
      parts := l.mapIdx (fun i p => (i, p))
      pcs := m.presentClusters.foldl (fun (a : SMap PClu) pc => sset a pc { tickBase := now, stretchFrom := now, occFrom := now }) []
      kcores := (List.range 8).map (fun i => (i, { k := [(1, rootCap)], part := i }))
      facVer := if w.getD 0 0 == 1 then max m.facVer (w.getD 1 0) else m.facVer
      ownVer := if ownOk then max m.ownVer (w.getD 3 0) else m.ownVer
      meas := sset (sset m.meas 0xF0 (Config.digest 0xF0)) 0xF1 (Config.digest 0xF1)
      manifest := none }
    let m := (skeys m.parts).foldl (fun m p => m.reassign p) m
    -- the trust die draws each partition's key (R394)
    let m := (skeys m.parts).foldl (fun m p =>
      let (k, m) := m.draw
      m.modPart p (fun x => { x with gen := 0, key := k })) m
    { m with homes := { m.homes with garbled := m.parts.map (fun p => (homeKey p.1 0, p.2.lcount 2 * 2 ^ 37, p.2.key)) } }

/-- Whether an event comes from outside the package (the host, the fabric manager, the links' and rails' physics): what is to come of these
outlives a power-good (log 79). -/
def fromOutside : Instr → Bool
  | .qtailDoorbell | .qctlWrite | .cheadWrite | .evheadWrite | .registerWrite | .abxAdd | .abxAnd | .abxOr | .abxXor | .abxMin | .abxMax | .abxMinn
  | .abxMaxn | .abxSwap | .abxCas | .atomicopFetchadd | .atomicopSwap | .atomicopCas | .hdmRead | .hdmWrite | .msixUnmask | .fmLdInfo | .fmLdAllocation
  | .getVersion | .getCapabilities | .negotiateAlgorithms | .getDigests | .getCertificate | .challenge | .getMeasurements | .keyExchange | .finish
  | .heartbeat | .keyUpdate | .endSession | .spdmOtherRequest | .powerGood | .trainingError | .droop | .linkBeatError | .hostLinkRetrain => true
  | _ => false

/-- POWER_GOOD (R390, R396, R397): (trust-die firmware signature good, factory section's signature good, its version, owner section's
signature good, its version, partition words …). Every partition and all device state are gone; host memory, the records in
flash and what is to come from outside stay. -/
def execPowerGood (s : State) : Ans :=
  onMach (fun now m =>
    let ok := m.arg 0 == 1
    let fac := m.arg 1 == 1 && m.facVer ≤ m.arg 2
    let own := m.arg 3 == 1 && m.ownVer ≤ m.arg 4
    let start := if ok && fac then Boot.held else if ok then Boot.barred else Boot.held
    let fresh : Mach := {
      dies := bootOrder.foldl (fun (d : SMap Die) dk => sset d dk { boot := start }) []
      homes := { cells := m.homes.cells.filter (fun c => isHost c.1) }
      trdUp := ok, facVer := m.facVer, ownVer := m.ownVer, hostWidth := m.hostWidth
      manifest := some ([b2n fac, m.arg 2, b2n own, m.arg 4] ++ m.ev.drop 5)
      agenda := m.agenda.filter (fun e => fromOutside e.2.1)
      out := m.out, seq := m.seq, fresh := m.fresh }
    if ok then fresh.after now 0 .dieBootStep [] else fresh) s

/-- DIE_BOOT_STEP (R390): the next die leaves its state; an image that does not verify or a test that fails, as a free value says,
bars it. After the last die the partitions are made. -/
def execDieBootStep (s : State) : Ans :=
  onMach (fun now m =>
    if !m.trdUp || m.manifest.isNone then m else
    match bootOrder.find? (fun dk => let b := (m.die dk).boot; b != .present && b != .barred) with
    | none => m.booted now
    | some dk =>
      let (i, m) := m.draw
      let good := bitOf (Config.freeWord i).toNat 0
      let m := match (m.die dk).boot with
        | .held => m.modDie dk (fun d => { d with boot := .ident })
        | .ident => m.modDie dk (fun d => { d with boot := if good then .verified else .barred })
        | .verified => { m with meas := sset m.meas (measIndex dk) (Config.digest (measIndex dk)) }.modDie dk (fun d => { d with boot := .measured })
        | .measured => m.modDie dk (fun d => { d with boot := if good then .present else .barred })
        | _ => m
      m.after now 0 .dieBootStep []) s

/-! ### SPDM (R392, R393) -/

/-- A request at a partition's DOE mailbox: its response code and bytes leave the package. Response codes are those of SPDM 1.3
(log 44); the bytes are the facts that R392 and R393 state. -/
def spdm (code : Nat) (f : Mach → Nat → List Byte) (s : State) : Ans :=
  hostMach (fun _ m part => m.emit (.reply part code (f m part))) s

/-- A digest's bytes. -/
def digestBytes (d : BitVec 384) : List Byte := leBytes 48 d.toNat
/-- The value of a measurement index (R391): what boot recorded, on a package that was booted before the model's start a free value. -/
def Mach.measurement (m : Mach) (i : Nat) : BitVec 384 := (sget? m.meas i).getD (Config.digest i)

/-- VERSION: 1.3. -/
def execGetVersion (s : State) : Ans := spdm 0x04 (fun _ _ => leBytes 2 0x1300) s
/-- CAPABILITIES. -/
def execGetCapabilities (s : State) : Ans := spdm 0x61 (fun _ _ => leBytes 8 (Config.unstated 0x392 0)) s
/-- ALGORITHMS: SHA-384, AES-256-GCM, and the extended asymmetric algorithm of R392, as numbers 384, 256 and 1. -/
def execNegotiateAlgorithms (s : State) : Ans := spdm 0x63 (fun _ _ => leBytes 2 384 ++ leBytes 2 256 ++ leBytes 1 1) s
/-- DIGESTS: the digest of slot 0's chain. -/
def execGetDigests (s : State) : Ans := spdm 0x01 (fun _ _ => digestBytes (Config.digest 0x1000)) s
/-- CERTIFICATE: slot 0's chain; another slot holds none. -/
def execGetCertificate (s : State) : Ans := spdm 0x02 (fun m _ => if m.arg 1 == 0 then Config.certChain 0 else []) s
/-- CHALLENGE_AUTH: a signature over the nonce given. -/
def execChallenge (s : State) : Ans := spdm 0x03 (fun m part => leBytes 96 (Config.signature (0x83 :: part :: m.ev.drop 1)).toNat) s
/-- MEASUREMENTS: (partition, index, nonce …): the index's digest, the partition number and the digest of the manifest's entry for
the partition, and a signature over them (R391, R393). -/
def execGetMeasurements (s : State) : Ans :=
  spdm 0x60 (fun m part => digestBytes (m.measurement (m.arg 1)) ++ leBytes 1 part ++ digestBytes (Config.digest (0x2000 + part))
    ++ leBytes 96 (Config.signature (0xE0 :: part :: m.ev.drop 1)).toNat) s
/-- KEY_EXCHANGE: a session's key share and signature; the session opens with FINISH. -/
def execKeyExchange (s : State) : Ans :=
  hostMach (fun _ m part =>
    let m := m.modPart part (fun p => { p with handshake := true })
    m.emit (.reply part 0x64 (leBytes 96 (Config.signature (0xE4 :: part :: m.ev.drop 1)).toNat))) s
/-- FINISH: the session of a key exchange is open. -/
def execFinish (s : State) : Ans :=
  hostMach (fun _ m part =>
    if (m.part part).handshake then
      (m.modPart part (fun p => { p with handshake := false, session := true, keyUpdates := 0 })).emit (.reply part 0x65 [])
    else m.emit (.reply part 0x7F (leBytes 1 4))) s
/-- HEARTBEAT inside a session. -/
def execHeartbeat (s : State) : Ans :=
  hostMach (fun _ m part => if (m.part part).session then m.emit (.reply part 0x68 []) else m.emit (.reply part 0x7F (leBytes 1 4))) s
/-- KEY_UPDATE inside a session. -/
def execKeyUpdate (s : State) : Ans :=
  hostMach (fun _ m part => if (m.part part).session then
      (m.modPart part (fun p => { p with keyUpdates := p.keyUpdates + 1 })).emit (.reply part 0x69 [])
    else m.emit (.reply part 0x7F (leBytes 1 4))) s
/-- END_SESSION. -/
def execEndSession (s : State) : Ans :=
  hostMach (fun _ m part => if (m.part part).session then
      (m.modPart part (fun p => { p with session := false })).emit (.reply part 0x6C [])
    else m.emit (.reply part 0x7F (leBytes 1 4))) s
/-- Any other request: ERROR with code UnsupportedRequest (R392). -/
def execSpdmOtherRequest (s : State) : Ans := spdm 0x7F (fun _ _ => leBytes 1 7) s

end Sys2Proof.Machine
end

