-- ==== Sys2Proof/Machine/Scalar.lean ====
section
/-! DEFINITION. Scalar and address arithmetic (R168 to R181): the ALU and multiply-divide groups, immediates, control registers,
clocks, and NOP. Every result is written in the declared write cycle of its class (R169). -/

namespace Sys2Proof.Machine

/-- A scalar result of energy class `e` under latency class `k` (R169, R360). -/
def scalarOp (e k : Nat) (d : R) (v : Mach → Word) (s : State) : Ans :=
  onWord (fun now m => .go ((m.charge e).pushReg now k d (v m))) s

/-- An ALU-group result (R170, R171). -/
def aluOp (d : R) (v : Mach → Word) (s : State) : Ans := scalarOp 0 0 d v s

def execAdd (d a b : R) (s : State) : Ans := aluOp d (fun m => m.rs a + m.rs b) s
def execSub (d a b : R) (s : State) : Ans := aluOp d (fun m => m.rs a - m.rs b) s
def execAnd (d a b : R) (s : State) : Ans := aluOp d (fun m => m.rs a &&& m.rs b) s
def execOr (d a b : R) (s : State) : Ans := aluOp d (fun m => m.rs a ||| m.rs b) s
def execXor (d a b : R) (s : State) : Ans := aluOp d (fun m => m.rs a ^^^ m.rs b) s
def execAndn (d a b : R) (s : State) : Ans := aluOp d (fun m => m.rs a &&& ~~~(m.rs b)) s
def execShl (d a b : R) (s : State) : Ans := aluOp d (fun m => shlW (m.rs a) (m.rs b).toNat) s
def execShr (d a b : R) (s : State) : Ans := aluOp d (fun m => shrW (m.rs a) (m.rs b).toNat) s
def execSar (d a b : R) (s : State) : Ans := aluOp d (fun m => sarW (m.rs a) (m.rs b).toNat) s
def execMin (d a b : R) (s : State) : Ans := aluOp d (fun m => if (m.rs b).slt (m.rs a) then m.rs b else m.rs a) s
def execMax (d a b : R) (s : State) : Ans := aluOp d (fun m => if (m.rs a).slt (m.rs b) then m.rs b else m.rs a) s
def execMinn (d a b : R) (s : State) : Ans := aluOp d (fun m => if (m.rs b).ult (m.rs a) then m.rs b else m.rs a) s
def execMaxn (d a b : R) (s : State) : Ans := aluOp d (fun m => if (m.rs a).ult (m.rs b) then m.rs b else m.rs a) s
/-- SEL reads Sd as its selector (R171). -/
def execSel (d a b : R) (s : State) : Ans := aluOp d (fun m => if m.rs d != 0 then m.rs a else m.rs b) s
def execClz (d a : R) (s : State) : Ans := aluOp d (fun m => wd (clzN 64 (m.rs a).toNat)) s
def execPopc (d a : R) (s : State) : Ans := aluOp d (fun m => wd (popN 64 (m.rs a).toNat)) s
def execCmpCc (cc : Cond) (d a b : R) (s : State) : Ans :=
  aluOp d (fun m => if cc.holds (m.rs a) (m.rs b) then 1 else 0) s

/-- A failed residue check: a contained event in bank 0 retires the cluster, and the word faults (R173, R441). -/
def residueFault (m : Mach) : Res :=
  let pc := m.pcOf m.cpart m.clc
  let m := m.mcLog (pcDie pc) 0 (mcStatus 2 0 0x31 m.cpart (m.cj.cx % 64) 1 (pcCluster pc) 0 m.cj.jobid) 0 0
  Res.err (m.retireMark pc) .residue

/-- A multiply-divide result after its residue check (R172, R173); `f` are the flags the result sets. -/
def mulOp (k : Nat) (d : R) (v : Mach → Word) (ok : Mach → Bool) (f : Mach → Nat) (s : State) : Ans :=
  onWord (fun now m =>
    if !ok m then residueFault m else
    let m' := (m.charge 1).pushReg now k d (v m)
    if f m == 0 then .go m' else .go (m'.push now k (.flags (m.cs.astatKey m.cur) (f m)) 1)) s

def execMul (d a b : R) (s : State) : Ans :=
  mulOp 1 d (fun m => m.rs a * m.rs b)
    (fun m => residueMul (m.rs a).toNat (m.rs b).toNat ((m.rs a).toNat * (m.rs b).toNat)) (fun _ => 0) s
def execMulh (d a b : R) (s : State) : Ans :=
  mulOp 1 d (fun m => mulHS (m.rs a) (m.rs b))
    (fun m => residueMul (m.rs a).toInt.natAbs (m.rs b).toInt.natAbs ((m.rs a).toInt * (m.rs b).toInt).natAbs) (fun _ => 0) s
def execMulhn (d a b : R) (s : State) : Ans :=
  mulOp 1 d (fun m => mulHU (m.rs a) (m.rs b))
    (fun m => residueMul (m.rs a).toNat (m.rs b).toNat ((m.rs a).toNat * (m.rs b).toNat)) (fun _ => 0) s

/-- The residue check of a signed division, on magnitudes (R173). -/
def residueS (a b : Word) : Bool :=
  residueDiv a.toInt.natAbs b.toInt.natAbs (a.toInt.tdiv b.toInt).natAbs (a.toInt.tmod b.toInt).natAbs
/-- The residue check of an unsigned division. -/
def residueU (a b : Word) : Bool := residueDiv a.toNat b.toNat (a.toNat / b.toNat) (a.toNat % b.toNat)

def execDiv (d a b : R) (s : State) : Ans :=
  mulOp 2 d (fun m => divS (m.rs a) (m.rs b)) (fun m => residueS (m.rs a) (m.rs b)) (fun m => dzOf (m.rs b)) s
def execDivn (d a b : R) (s : State) : Ans :=
  mulOp 2 d (fun m => divU (m.rs a) (m.rs b)) (fun m => residueU (m.rs a) (m.rs b)) (fun m => dzOf (m.rs b)) s
def execRem (d a b : R) (s : State) : Ans :=
  mulOp 2 d (fun m => remS (m.rs a) (m.rs b)) (fun m => residueS (m.rs a) (m.rs b)) (fun m => dzOf (m.rs b)) s
def execRemn (d a b : R) (s : State) : Ans :=
  mulOp 2 d (fun m => remU (m.rs a) (m.rs b)) (fun m => residueU (m.rs a) (m.rs b)) (fun m => dzOf (m.rs b)) s

/-! ### Immediates (R174 to R176); each form once, over a 64-bit immediate -/

def addImm (d a : R) (i : Word) (s : State) : Ans := aluOp d (fun m => m.rs a + i) s
def andImm (d a : R) (i : Word) (s : State) : Ans := aluOp d (fun m => m.rs a &&& i) s
def orImm (d a : R) (i : Word) (s : State) : Ans := aluOp d (fun m => m.rs a ||| i) s
def xorImm (d a : R) (i : Word) (s : State) : Ans := aluOp d (fun m => m.rs a ^^^ i) s
def shlImm (d a : R) (n : Nat) (s : State) : Ans := aluOp d (fun m => shlW (m.rs a) n) s
def shrImm (d a : R) (n : Nat) (s : State) : Ans := aluOp d (fun m => shrW (m.rs a) n) s
def sarImm (d a : R) (n : Nat) (s : State) : Ans := aluOp d (fun m => sarW (m.rs a) n) s
def movImm (d : R) (i : Word) (s : State) : Ans := aluOp d (fun _ => i) s
/-- MOVH reads Sd, shifts by 20 and inserts the unsigned immediate (R175). -/
def movHigh (d : R) (i : Word) (s : State) : Ans := aluOp d (fun m => (m.rs d <<< 20) ||| i) s

def execAddi (d a : R) (i : BitVec 15) (s : State) : Ans := addImm d a (imm15 i) s
def execAndi (d a : R) (i : BitVec 15) (s : State) : Ans := andImm d a (imm15 i) s
def execOri (d a : R) (i : BitVec 15) (s : State) : Ans := orImm d a (imm15 i) s
def execXori (d a : R) (i : BitVec 15) (s : State) : Ans := xorImm d a (imm15 i) s
def execShli (d a : R) (i : BitVec 15) (s : State) : Ans := shlImm d a i.toNat s
def execShri (d a : R) (i : BitVec 15) (s : State) : Ans := shrImm d a i.toNat s
def execSari (d a : R) (i : BitVec 15) (s : State) : Ans := sarImm d a i.toNat s
def execMovi (d : R) (i : BitVec 20) (s : State) : Ans := movImm d (imm20 i) s
def execMovh (d : R) (i : BitVec 20) (s : State) : Ans := movHigh d (i.setWidth 64) s

/-! ### Control registers (R178, R179) -/

/-- MFC of a register number. -/
def mfcOp (d : R) (c : Nat) (s : State) : Ans :=
  onWord (fun now m => match m.cregAccess m.cs.isRanger c with
    | none => Res.err m .illegalField
    | some _ => .go ((m.charge 0).pushReg now 0 d (m.cregRead c))) s
/-- MTC of a register number: the checks at issue, the write in the declared write cycle. -/
def mtcOp (c : Nat) (a : R) (s : State) : Ans :=
  onWord (fun now m => match m.cregAccess m.cs.isRanger c with
    | none => Res.err m .illegalField
    | some acc =>
      let v := m.rs a
      if v.toNat &&& acc.rsv != 0 || !m.cregValueOk c v then Res.err m .illegalField
      else if c == 0x311 && bitOf ((m.cct m.ccc).creg 0x311).toNat 63 then .hold m .busy
      -- of an MTC and a landing that reach a TCFG in one cycle, the MTC's value stands (R178)
      else .go ((m.charge 0).push now 0 (.creg (m.cregTarget c) v) (if 0x80 ≤ c && c < 0x90 then 1 else 0))) s

def execMfc (d : R) (c : BitVec 15) (s : State) : Ans := mfcOp d c.toNat s
def execMtc (c : BitVec 15) (a : R) (s : State) : Ans := mtcOp c.toNat a s

/-! ### Clocks and NOP (R180, R181) -/

def execCyc (d : R) (s : State) : Ans :=
  onWord (fun now m => .go ((m.charge 0).pushReg now 0 d (wd ((m.pcl (m.pcOf m.cpart m.clc)).cycle now)))) s
/-- Package time in whole ns at the start of the issue cycle (R181). -/
def execPtime (d : R) (s : State) : Ans :=
  onWord (fun now m => .go ((m.charge 0).pushReg now 0 d (wd (m.cycleStart now / Config.tick)))) s
def execNop (s : State) : Ans := onWord (fun _ m => .go (m.charge 0)) s

end Sys2Proof.Machine
end

