-- ==== Sys2Proof/Machine/Uses.lean ====
section
/-! DEFINITION. The registers that a word reads at issue: what the interlock of late results (R106) and the parity of registers (R80) go
by. -/

namespace Sys2Proof.Machine

/-! ### Scalar words -/

/-- The scalar registers that a scalar instruction reads. -/
def scalarSources : Instr → List R
  | .sel d a b | .amo _ _ d a b | .scAmo _ _ d a b | .phdropProxy d a b | .phsigp d a b | .pubreg d a b | .cpy d a b | .fwr d a b
  | .fwrv d a b => [d, a, b]
  | .add _ a b | .sub _ a b | .and _ a b | .or _ a b | .xor _ a b | .andn _ a b | .shl _ a b | .shr _ a b | .sar _ a b | .min _ a b
  | .max _ a b | .minn _ a b | .maxn _ a b | .cmpCc _ _ a b | .mul _ a b | .mulh _ a b | .mulhn _ a b | .div _ a b | .divn _ a b
  | .rem _ a b | .remn _ a b | .red _ _ a b | .scSt _ a b | .fork _ a b | .tstart _ a b | .trebase _ a b | .tokset a b
  | .lpatch _ a b | .dld _ _ _ a b | .drd _ _ _ a b | .frd _ a b | .frdv _ a b | .ftab _ a b | .fstat _ a b | .fstep _ a b
  | .brCc _ a b _ | .brCcNn _ a b _ | .brCcNt _ a b _ => [a, b]
  | .st _ d a _ | .stRel _ d a _ => [d, a]
  | .clz _ a | .popc _ a | .addi _ a _ | .andi _ a _ | .ori _ a _ | .xori _ a _ | .shli _ a _ | .shri _ a _ | .sari _ a _ | .ld _ _ a _
  | .ldAcq _ _ a _ | .mtc _ a | .scLd _ _ a | .publ a | .phreg _ _ a | .phdrop a | .phsig a | .phwait _ a | .phsw _ a | .phq _ a
  | .cpy2d _ a | .cpyprom _ a | .gemb _ a | .waitt a | .tstop _ a | .tstat _ a | .larm _ a | .lstat _ a | .dinv _ _ a | .jr a
  | .jlr _ a => [a]
  | .fresume b | .fkill b => [b]
  | .movh d _ => [d]
  | _ => []

/-- The scalar registers and the control register that a scalar word's form reads. -/
def formSources : ScalarForm → List R × Option Nat
  | .plain (.mfc _ c) => ([], some c.toNat)
  | .plain i => (scalarSources i, none)
  | .ext op d a _ imm =>
    if op == 0x0B then ([], none)
    else if op == 0x0C then ([d], none)
    else if op == 0x0F || op == 0x10 then ([d, a], none)
    else if op == 0x11 then ([], some imm.toNat)
    else ([a], none)

/-- The form at FQ0 of a scalar stream: of a native, a LONG or a dictionary word; none where it does not decode. -/
def Mach.formAt (m : Mach) (i : Nat) : Option ScalarForm :=
  let s := m.str i
  let q := s.fq0
  let form := fun (f : Nat) => (decodeScalarForm s.isRanger f).toOption
  if q.annul || q.flt.isSome then none
  else if isLong q.w0 then form (q.w1 + 2 ^ 32 * q.w2)
  else match decodeWord .scalar s.isRanger q.w0 q.w1 q.w2 with
    | .ok (.dictionaryWord e h) =>
      let entry := (m.cct (ccKey (m.job s.job).cx s.sel.lc)).entry .scalar q.bank e.toNat
      if entryValid entry then form (expand .scalar entry (dictNumber e h)).1 else none
    | .ok x => some (.plain x)
    | .error _ => none

/-! ### Micro-orders -/

/-- `r` registers of a vector core from the one that a field names; L or an O register stands alone (R57, R60). -/
def VEnv.locs (e : VEnv) (cc : Nat) (f : F7) (r : Nat := 1) : List Loc :=
  if 64 ≤ f.toNat then (List.range r).map (fun i => .vec cc (e.key f.toNat + i)) else [.col cc (e.key f.toNat)]
/-- A mask register that is read; M0 holds no bits (R62). -/
def VEnv.maskLoc (e : VEnv) (cc k : Nat) : List Loc := if k == 0 then [] else [.mask cc (e.unit * 8 + k)]
/-- Registers of a conversion's source (R200). -/
def VEnv.cvtLocs (e : VEnv) (cc : Nat) (mi : Micro) : List Loc :=
  e.locs cc mi.srcA (if e.t.w < (srcType mi).w then cvtRatio e.t (srcType mi) else 1)

/-- The registers that a vector micro-order reads (R186, R192 to R207): its sources, and the mask that it works under. -/
def VEnv.sources (e : VEnv) (cc : Nat) (i : Instr) : List Loc :=
  let a := fun (mi : Micro) => e.locs cc mi.srcA
  let b := fun (mi : Micro) => e.locs cc mi.srcB
  let c := fun (mi : Micro) => e.locs cc mi.third
  let g16 := fun (f : F7) => e.locs cc f (group16 e.n)
  let under := e.maskLoc cc e.mr
  match i with
  | .vmovi _ | .vmvs _ | .vld _ | .vlds _ => under
  | .vmov m | .vabs m | .vneg m | .vclz m | .vpopc m | .vfabs m | .vfneg m | .vrcp m | .vrsq m | .vsqrt m | .vexp2 m | .vlog2 m | .vtanh m
  | .vredadd m | .vredmax m | .vredmin m | .vscan m | .vslide m | .vbcast m | .vext m | .vins m | .vcompress m | .vexpand m | .vgath m
  | .vmoment m | .vplane m => a m ++ under
  | .vadd m | .vsub m | .vadds m | .vsubs m | .vmul m | .vmulh m | .vmulw m | .vand m | .vor m | .vxor m | .vandn m | .vshl m | .vshr m
  | .vsar m | .vmin m | .vmax m | .vcmp m | .vfadd m | .vfsub m | .vfmul m | .vfmin m | .vfmax m | .vfcmp m => a m ++ b m ++ under
  | .vmac m | .vsel m | .vfma m | .vfms m | .vfnma m | .vnormapply m => a m ++ b m ++ c m ++ under
  | .mop m =>
    (if e.cond m < 6 then e.maskLoc cc m.srcA.toNat else []) ++ (if e.cond m < 4 then e.maskLoc cc m.srcB.toNat else [])
  | .mpopc m | .mfirst m => e.maskLoc cc m.srcA.toNat
  | .vcvt m | .vpack m | .vunpk m => e.cvtLocs cc m ++ under
  | .vcvtSr m => e.cvtLocs cc m ++ e.locs cc m.third (group16 (cvtN e.t (srcType m))) ++ under
  | .vperm m => a m ++ g16 m.srcB ++ under
  | .vshuf m => a m ++ b m ++ g16 m.third ++ under
  | .vst m => e.locs cc m.dest ++ under
  | .vscat m => e.locs cc m.dest ++ a m ++ under
  | _ => []

/-- A tile under its configuration: a pair lies in two (R64). -/
def Cctx.tileLocs (c : Cctx) (cc core j : Nat) : List Loc :=
  match c.tcfg core j with
  | some v => if tcPair v then [.tile cc (core * 16 + j), .tile cc (core * 16 + j + 1)] else [.tile cc (core * 16 + j)]
  | none => [.tile cc (core * 16 + j)]

/-- The registers that a matrix micro-order reads (R228, R229, R241): operand stacks and the twin of a step, the tile of TST, the
accumulator copies and the random tile of ACCRD. -/
def Mach.matrixSources (m : Mach) (now : Nat) (i : Instr) : List Loc :=
  let cc := m.ccc
  let c := m.cct cc
  let core := m.cs.sel.unit
  match i with
  | .mma mi | .mmas mi => match m.stepOf mi now with
    | none => []
    | some st => (List.range st.fa.length).flatMap (fun k => c.tileLocs cc core (st.ta + k))
        ++ (List.range st.fb.length).flatMap (fun k => c.tileLocs cc core (st.tb + k)) ++ [.twin cc (4 * core + st.acc)]
  | .tst mi => c.tileLocs cc core (mi.dest.toNat % 16)
  | .accrd mi =>
    let own := (m.mcore cc core).owner (mi.dest.toNat % 4)
    (if mi.tail.tok.pe && own.any (fun o => o.2.tag == some mi.tail.tok.ptag.toNat) then [.twin cc (4 * core + mi.dest.toNat % 4)]
      else [.acc cc (4 * core + mi.dest.toNat % 4)])
      ++ (if mi.tail.rnd == 5 then c.tileLocs cc core (fld m.mmode 27 4) else [])
  | _ => []

/-- The registers that the next word of a stream reads at issue. -/
def Mach.sources (m : Mach) (now i : Nat) : List Loc :=
  let m := { m with cur := i }
  let s := m.cs
  let gpr := fun (sid : Nat) (l : List R) => (l.filter (· != 0)).map (fun r => Loc.scalar sid r.toNat)
  match s.sel.cls with
  | .scalar => match m.formAt i with
    | none => []
    | some f =>
      let (l, c) := formSources f
      gpr i l ++ (match c with | some c => [.creg m.ccc (m.cregTarget c)] | none => [])
        ++ (match f with | .plain .tfence => m.fenceKeys.map (fun k => .creg m.ccc k) | _ => [])
  | .vector => match m.peek i s.step with
    | none => []
    | some (x, _) => match microOf x with
      | none => []
      | some (_, _, mi) =>
        (m.venv mi).sources m.ccc x ++ (match x with
          | .vmvs mi => (match m.findSel s.job { s.sel with cls := .scalar, col := 0, unit := 0 } with
            | some sc => gpr sc [BitVec.ofNat 5 mi.srcA.toNat]
            | none => [])
          | _ => [])
  | .matrix => match m.peek i s.step with
    | none => []
    | some (x, _) => m.matrixSources now x
  | _ => []

/-! ### Late results (R106) -/

/-- Order of results: by declared write cycle, then by the order of R59 within it, then by issue. -/
def Pend.before (a b : Pend) : Bool :=
  a.due < b.due || (a.due == b.due && (a.ord < b.ord || (a.ord == b.ord && a.id < b.id)))

/-- Whether the next word of a stream reads a register whose declared write cycle is past and that has not been written: it is held until
the cycle after the write (R106). -/
def Mach.interlocked (m : Mach) (now i : Nat) : Bool :=
  if m.pend.all (fun p => p.late == 0) then false else
  let due := (m.pend.filter (fun p => p.due < m.jobCyc now p.job p.lc)).flatMap (fun p => p.locs)
  !due.isEmpty && (m.sources now i).any due.contains

/-- Whether a result waits for one whose declared write cycle is no later and that writes a register it writes or has yet to read: writes to
one register take effect in the order of their declared cycles (R106, R107). -/
def Mach.behind (m : Mach) (p : Pend) : Bool :=
  if m.pend.all (fun q => q.late == 0) then false else
  m.pend.any (fun q => q.job == p.job && q.lc == p.lc && q.before p && q.locs.any (fun l => p.locs.contains l || p.needs.contains l))

/-! ### Parity (R80) -/

/-- Whether the next word of a stream would read a register with a parity mismatch. -/
def Mach.readsSpoiled (m : Mach) (now i : Nat) : Bool :=
  if m.spoiled.isEmpty then false else
  let ls := m.sources now i
  m.spoiled.any (fun x => ls.contains x.1)

/-- Tokens of the micro-order at STEP, which tell its predicted path (R52). -/
def Mach.tokAt (m : Mach) (i : Nat) : Tok :=
  match m.peek i (m.str i).step with
  | some (x, _) => match microOf x with | some (_, _, mi) => mi.tail.tok | none => {}
  | none => {}

/-- The word meets the mismatch: a contained event, and ECC_UNCORRECTABLE exactly at it; nothing is written (R80, R440, R441). -/
def parityFault (s : State) : Ans :=
  onWord (fun _ m =>
    let log := m.parityLog m.cur (m.pcOf m.cpart m.clc)
    if m.cs.sel.cls == .scalar then Res.err log .ecc else log.pathFault (m.tokAt m.cur) { code := .ecc }) s

end Sys2Proof.Machine
end

