-- ==== Sys2Proof/Machine/LongForm.lean ====
section
/-! DEFINITION. How a word at FQ0 or STEP comes to execute (R100, R322 to R324), long forms and dictionary words (R91, R96, R101,
R111, R113, R176), FSTEP (R422), and words that no map lists (R86).

A long form or dictionary word stands for an instruction that a native word or form carries; `runNative` is that instruction's
meaning, by the same definitions that the arms of `exec` call. -/

namespace Sys2Proof.Machine

/-- An exception raised by the executing stream's word. -/
def raise (f : Flt) (s : State) : Ans := onMach (fun now m => m.takeFreeze now m.cur f) s

/-- The fault code of a decode error. -/
def decCode : DecErr → FCode
  | .illegalOp => .illegalOp
  | .illegalField => .illegalField

/-- The fault of a scalar word or form that does not decode, by its opcode and its RRR fields: DICT_BUSY comes ahead of ILLEGAL_FIELD
(R100). -/
def Mach.decFault (m : Mach) (e : DecErr) (op w : Nat) : FCode :=
  if e == .illegalField && op == 0x1C && m.dictBusyAt (fld w 5 5) (fld w 0 5) then .dictBusy else decCode e

/-- ILLEGAL_OP: a word whose opcode no map lists (R86, R97 to R99). A word of a complex core takes the RV64 illegal-instruction
exception instead (R387). -/
def execIllegalOp (_w : IWord) (s : State) : Ans :=
  if s.mach.kturn then onCore (fun _ _ => .illegal) s else raise { code := .illegalOp } s

/-- The meaning of an instruction that one word or form carries. -/
def runNative (i : Instr) (s : State) : Ans :=
  match i with
  | .add d a b => execAdd d a b s
  | .sub d a b => execSub d a b s
  | .and d a b => execAnd d a b s
  | .or d a b => execOr d a b s
  | .xor d a b => execXor d a b s
  | .andn d a b => execAndn d a b s
  | .shl d a b => execShl d a b s
  | .shr d a b => execShr d a b s
  | .sar d a b => execSar d a b s
  | .min d a b => execMin d a b s
  | .max d a b => execMax d a b s
  | .minn d a b => execMinn d a b s
  | .maxn d a b => execMaxn d a b s
  | .sel d a b => execSel d a b s
  | .clz d a => execClz d a s
  | .popc d a => execPopc d a s
  | .cmpCc cc d a b => execCmpCc cc d a b s
  | .mul d a b => execMul d a b s
  | .mulh d a b => execMulh d a b s
  | .mulhn d a b => execMulhn d a b s
  | .div d a b => execDiv d a b s
  | .divn d a b => execDivn d a b s
  | .rem d a b => execRem d a b s
  | .remn d a b => execRemn d a b s
  | .addi d a i => execAddi d a i s
  | .andi d a i => execAndi d a i s
  | .ori d a i => execOri d a i s
  | .xori d a i => execXori d a i s
  | .shli d a i => execShli d a i s
  | .shri d a i => execShri d a i s
  | .sari d a i => execSari d a i s
  | .movi d i => execMovi d i s
  | .movh d i => execMovh d i s
  | .ld w d a off => execLd w d a off s
  | .ldAcq w d a off => execLdAcq w d a off s
  | .st w d a off => execSt w d a off s
  | .stRel w d a off => execStRel w d a off s
  | .mfc d c => execMfc d c s
  | .mtc c a => execMtc c a s
  | .amo op w64 d a b => execAmo op w64 d a b s
  | .red op w64 a b => execRed op w64 a b s
  | .scLd w64 d a => execScLd w64 d a s
  | .scSt w64 a b => execScSt w64 a b s
  | .scAmo op w64 d a b => execScAmo op w64 d a b s
  | .fence z => execFence z s
  | .publ a => execPubl a s
  | .pubreg d a b => execPubreg d a b s
  | .phreg m d a => execPhreg m d a s
  | .phdrop a => execPhdrop a s
  | .phdropProxy d a b => execPhdropProxy d a b s
  | .phsig a => execPhsig a s
  | .phwait d a => execPhwait d a s
  | .phsw d a => execPhsw d a s
  | .phsigp d a b => execPhsigp d a b s
  | .phq d a => execPhq d a s
  | .cpy d a b => execCpy d a b s
  | .cpy2d d a => execCpy2d d a s
  | .cpyprom d a => execCpyprom d a s
  | .gemb d a => execGemb d a s
  | .nop => execNop s
  | .halt => execHalt s
  | .cyc d => execCyc d s
  | .ptime d => execPtime d s
  | .waitt a => execWaitt a s
  | .trap code => execTrap code s
  | .tfence => execTfence s
  | .yield => execYield s
  | .fork d a b => execFork d a b s
  | .rdv => execRdv s
  | .tstart d a b => execTstart d a b s
  | .tstop d a => execTstop d a s
  | .trebase d a b => execTrebase d a b s
  | .tstat d a => execTstat d a s
  | .tokset a b => execTokset a b s
  | .lpatch d a b => execLpatch d a b s
  | .larm d a => execLarm d a s
  | .lstat d a => execLstat d a s
  | .dld k bank d a b => execDld k bank d a b s
  | .dsw k bank => execDsw k bank s
  | .dfence => execDfence s
  | .drd k bank d a b => execDrd k bank d a b s
  | .dinv k bank a => execDinv k bank a s
  | .frd d a b => execFrd d a b s
  | .frdv d a b => execFrdv d a b s
  | .fwr d a b => execFwr d a b s
  | .fwrv d a b => execFwrv d a b s
  | .ftab d a b => execFtab d a b s
  | .fstat d a b => execFstat d a b s
  | .fresume b => execFresume b s
  | .fkill b => execFkill b s
  | .brCc cc a b off => execBrCc cc a b off s
  | .brCcNn cc a b off => execBrCcNn cc a b off s
  | .brCcNt cc a b off => execBrCcNt cc a b off s
  | .j off => execJ off s
  | .jl off => execJl off s
  | .jr a => execJr a s
  | .jlr d a => execJlr d a s
  | .vmov m => execVmov m s
  | .vmovi m => execVmovi m s
  | .vmvs m => execVmvs m s
  | .vadd m => execVadd m s
  | .vsub m => execVsub m s
  | .vadds m => execVadds m s
  | .vsubs m => execVsubs m s
  | .vmul m => execVmul m s
  | .vmulh m => execVmulh m s
  | .vmulw m => execVmulw m s
  | .vmac m => execVmac m s
  | .vand m => execVand m s
  | .vor m => execVor m s
  | .vxor m => execVxor m s
  | .vandn m => execVandn m s
  | .vshl m => execVshl m s
  | .vshr m => execVshr m s
  | .vsar m => execVsar m s
  | .vmin m => execVmin m s
  | .vmax m => execVmax m s
  | .vabs m => execVabs m s
  | .vneg m => execVneg m s
  | .vclz m => execVclz m s
  | .vpopc m => execVpopc m s
  | .vcmp m => execVcmp m s
  | .vsel m => execVsel m s
  | .mop m => execMop m s
  | .mpopc m => execMpopc m s
  | .mfirst m => execMfirst m s
  | .vfadd m => execVfadd m s
  | .vfsub m => execVfsub m s
  | .vfmul m => execVfmul m s
  | .vfma m => execVfma m s
  | .vfms m => execVfms m s
  | .vfnma m => execVfnma m s
  | .vfmin m => execVfmin m s
  | .vfmax m => execVfmax m s
  | .vfabs m => execVfabs m s
  | .vfneg m => execVfneg m s
  | .vfcmp m => execVfcmp m s
  | .vrcp m => execVrcp m s
  | .vrsq m => execVrsq m s
  | .vsqrt m => execVsqrt m s
  | .vexp2 m => execVexp2 m s
  | .vlog2 m => execVlog2 m s
  | .vtanh m => execVtanh m s
  | .vcvt m => execVcvt m s
  | .vpack m => execVpack m s
  | .vunpk m => execVunpk m s
  | .vredadd m => execVredadd m s
  | .vredmax m => execVredmax m s
  | .vredmin m => execVredmin m s
  | .vscan m => execVscan m s
  | .vperm m => execVperm m s
  | .vshuf m => execVshuf m s
  | .vslide m => execVslide m s
  | .vbcast m => execVbcast m s
  | .vext m => execVext m s
  | .vins m => execVins m s
  | .vcompress m => execVcompress m s
  | .vexpand m => execVexpand m s
  | .vld m => execVld m s
  | .vst m => execVst m s
  | .vlds m => execVlds m s
  | .vgath m => execVgath m s
  | .vscat m => execVscat m s
  | .vcvtSr m => execVcvtSr m s
  | .vmoment m => execVmoment m s
  | .vnormapply m => execVnormapply m s
  | .vplane m => execVplane m s
  | .tzero m => execTzero m s
  | .lease m => execLease m s
  | .lrel m => execLrel m s
  | .mma m => execMma m s
  | .mmas m => execMmas m s
  | .bopen m => execBopen m s
  | .bopenS m => execBopenS m s
  | .cbatch m => execCbatch m s
  | .wbatch m => execWbatch m s
  | .commit m => execCommit m s
  | .discard m => execDiscard m s
  | .accz m => execAccz m s
  | .tcfg delay tile cfg tok => execTcfg delay tile cfg tok s
  | .tld m => execTld m s
  | .tst m => execTst m s
  | .accrd m => execAccrd m s
  | .accrdIn m => execAccrdIn m s
  | .gset m => execGset m s
  | .gb m => execGb m s
  | .lsLd m => execLsLd m s
  | .lsLdAcq m => execLsLdAcq m s
  | .lsSt m => execLsSt m s
  | .lsStRel m => execLsStRel m s
  | .lsRed m => execLsRed m s
  | .lsPubl m => execLsPubl m s
  | .rdc m => execRdc m s
  | .flt m => execFlt m s
  | .mcast m => execMcast m s
  | .pass m => execPass m s
  | .idle m => execIdle m s
  | .rtadv m => execRtadv m s
  | _ => raise { code := .illegalOp } s

/-! ### Scalar long forms (R96, R176) -/

/-- The effect of an extended form. -/
def extForm (op : Nat) (d a : R) (w : Nat) (imm : BitVec 32) (s : State) : Ans :=
  let sx := imm32 imm
  let wd' := (Width.ofCode w).getD .d64
  let ea := fun (m : Mach) => effAddr (m.rs a) sx
  match op with
  | 0x04 => addImm d a sx s | 0x05 => andImm d a sx s | 0x06 => orImm d a sx s | 0x07 => xorImm d a sx s
  | 0x08 => shlImm d a imm.toNat s | 0x09 => shrImm d a imm.toNat s | 0x0A => sarImm d a imm.toNat s
  | 0x0B => movImm d sx s | 0x0C => movHigh d (imm.setWidth 64) s
  | 0x0D => loadOp false wd' d ea s | 0x0E => loadOp true wd' d ea s
  | 0x0F => storeOp false wd' d ea s | 0x10 => storeOp true wd' d ea s
  | 0x11 => mfcOp d imm.toNat s
  | _ => mtcOp imm.toNat a s

/-- A scalar long form, its plain instructions run by `run`. -/
def scalarForm (run : Instr → State → Ans) (f : Nat) (s : State) : Ans :=
  match decodeScalarForm s.mach.cs.isRanger f with
  | .ok (.plain i) => run i s
  | .ok (.ext op d a w imm) => extForm op d a w imm s
  | .error e => raise { code := s.mach.decFault e (fld f 56 8) f } s

/-! ### Engine long forms (R92, R95) -/

/-- Whether a stream's unit has the instruction of an opcode: vector columns host their own (R97). -/
def Stream.hostsOp (s : Stream) (op : Nat) : Bool := s.sel.cls != .vector || vecHosts op s.sel.col

/-- A form that breaks a field's limit: on an open predicted path its fault is deferred (R52). -/
def formFault (f : Nat) (c : FCode) (s : State) : Ans :=
  onWord (fun _ m => m.pathFault (decTok f) { code := c }) s

/-- An engine form, run by `run`; column hosting is checked ahead of the fields (R100). -/
def engineForm (run : Instr → State → Ans) (delay : BitVec 4) (f : Nat) (s : State) : Ans :=
  match decodeEngForm s.mach.cs.sel.cls delay f with
  | .ok i => run i s
  | .error .illegalOp => formFault f .illegalOp s
  | .error .illegalField => formFault f (if s.mach.cs.hostsOp (fld f 56 8) then .illegalField else .illegalOp) s

/-! ### Dictionary words (R101, R111, R113) -/

/-- The long form noted for a record (R404). -/
def noteForm (f len : Nat) (s : State) : State := { s with mach := { s.mach with lform := f, curLen := len } }

/-- A dictionary word against the entry of its bank: DICT_UNDEF, then ILLEGAL_OP for a PRIV entry outside a ranger, then the faults
of its form, a hole bit left over among the fields (R100, R111). -/
def dictWord (run : Instr → State → Ans) (e : BitVec 8) (h : BitVec 23) (s : State) : Ans :=
  let m := s.mach
  let st := m.cs
  let k := st.sel.cls
  let bank := if k == .scalar then st.fq0.bank else st.dbank
  let entry := (m.cct m.ccc).entry k bank e.toNat
  let x := expand k entry (dictNumber e h)
  let f := x.1
  if !entryValid entry then raise { code := .dictUndef } s
  else
    let s := noteForm f 1 s
    if entryPriv entry && !st.isRanger then (if k == .scalar then raise { code := .illegalOp } s else formFault f .illegalOp s)
    else match k with
      | .scalar => match x.2, decodeScalarForm st.isRanger f with
        | true, .error .illegalOp => raise { code := .illegalOp } s
        | true, _ => raise { code := m.decFault .illegalField (fld f 56 8) f } s
        | false, _ => scalarForm run f s
      | _ =>
        let delay := BitVec.ofNat 4 (fld h.toNat 19 4)
        match x.2, decodeEngForm k delay f with
        | true, .error .illegalOp => formFault f .illegalOp s
        | true, _ => formFault f (if st.hostsOp (fld f 56 8) then .illegalField else .illegalOp) s
        | false, _ => engineForm run delay f s

/-! ### A word issues (R100, R322, R323) -/

/-- The code of a required-zero bit of a LONG word that is not 0: ILLEGAL_FIELD, unless its form has no opcode that the stream may run
(R91, R100). -/
def Stream.longFault (s : Stream) (f : Nat) : FCode :=
  match s.sel.cls with
  | .scalar => match decodeScalarForm s.isRanger f with | .error .illegalOp => .illegalOp | _ => .illegalField
  | k => match decodeEngForm k 0 f with
    | .error .illegalOp => .illegalOp
    | _ => if s.hostsOp (fld f 56 8) then .illegalField else .illegalOp

/-- The word at FQ0 of a scalar stream, its instruction run by `run`. An annulled word passes with no effect, but for a LONG word in
a slot (R91, R322); faults of its fetch come first where its opcode could not be read. -/
def issueScalar (run : Instr → State → Ans) (s : State) : Ans :=
  let m := s.mach
  let st := m.cs
  let q := st.fq0
  let long := q.flt.isNone && isLong q.w0
  if long && st.slots != 0 then raise { code := .illegalOp } s
  else if q.annul then onMach (fun now m => m.advance now m.cur none false) s
  else match q.flt with
    | some f => raise f s
    | none =>
      let s := noteForm (if long then q.w1 + 2 ^ 32 * q.w2 else 0) (if long then 3 else 1) s
      match (if long then q.bodyFlt else none), decodeWord .scalar st.isRanger q.w0 q.w1 q.w2 with
      | some f, d => raise (match f.code, d with
          | .illegalOp, _ => f
          | _, .error e => { code := decCode e }
          | _, .ok _ => f) s
      | none, .ok i => run i s
      | none, .error e => raise { code := if long then st.longFault (q.w1 + 2 ^ 32 * q.w2) else m.decFault e (fld q.w0 25 7) q.w0 } s

/-- The micro-order at STEP of an engine stream, run by `run`. -/
def issueEngine (run : Instr → State → Ans) (s : State) : Ans :=
  let m := s.mach
  let st := m.cs
  match m.engineWord m.cur st.step with
  | (_, .error f) => raise f s
  | (m, .ok w) =>
    let s := { s with mach := m }
    if isLong w then
      -- a body word's fetch fault comes after a required-zero bit of the LONG word itself (R100)
      let body := fun (f : Flt) => raise (if fld w 0 21 != 0 then { code := .illegalField } else f) (noteForm 0 3 s)
      if st.len < st.step + 3 then raise { code := .illegalOp } (noteForm 0 3 s)
      else match m.engineWord m.cur (st.step + 1) with
        | (_, .error f) => body f
        | (m, .ok w1) => match m.engineWord m.cur (st.step + 2) with
          | (_, .error f) => body f
          | (m, .ok w2) =>
            let s := noteForm (w1 + 2 ^ 32 * w2) 3 { s with mach := m }
            match decodeWord st.sel.cls false w w1 w2 with
            | .ok i => run i s
            | .error _ => formFault (w1 + 2 ^ 32 * w2) (st.longFault (w1 + 2 ^ 32 * w2)) s
    else
      let s := noteForm 0 1 s
      match decodeWord st.sel.cls false w 0 0 with
      | .ok i => run i s
      | .error .illegalOp => raise { code := .illegalOp } s
      | .error .illegalField => raise { code := if st.hostsOp (fld w 25 6) then .illegalField else .illegalOp } s

/-- The next word of the executing stream issues. -/
def issueWord (run : Instr → State → Ans) (s : State) : Ans :=
  if s.mach.cs.sel.cls == .scalar then issueScalar run s else issueEngine run s

/-- Whether a word has met a decode fault, or waits for a token: what comes before its reads (R45, R100). -/
def Mach.beforeReads (m : Mach) (i : Nat) : Bool :=
  let dec := fun (c : Nat) => c == FCode.illegalOp.num || c == FCode.illegalField.num || c == FCode.dictUndef.num || c == FCode.dictBusy.num
  match (m.str i).hold with
  | .token _ => true
  | .deferred f _ => dec f.code.num
  | _ => match (m.job (m.str i).job).handle with
    | some h => dec (m.frec h).code
    | none => false

/-- The next word of the executing stream issues, unless it would read a register whose parity does not match (R80): that fault stands
with the memory-class ones, after those of its decoding (R100). -/
def issueSound (run : Instr → State → Ans) (s : State) : Ans :=
  if !s.mach.readsSpoiled s.now s.mach.cur then issueWord run s else
  match issueWord run s with
  | .next t => if t.mach.beforeReads s.mach.cur then .next t else parityFault s
  | o => o

/-! ### FSTEP (R422) -/

/-- The meaning of a word that FSTEP executes: never a frozen-state instruction, which only rangers decode. -/
def runStepped (i : Instr) (s : State) : Ans :=
  match i with
  | .scalarLongForm f => scalarForm runNative f.toNat s
  | .dictionaryWord e h => dictWord runNative e h s
  | i => runNative i s

/-- One word of a frozen scalar stream executed, and its status: 0 executed, 1 faulted, 2 it would wait. The job's clock on the
cluster moves on by one cycle, so that its results are written; a FENCE performs its entries at once. The record takes over what a
fault says. -/
def Mach.stepFrozen (m : Mach) (now i h : Nat) : Mach × Nat :=
  let job := (m.str i).job
  let lc := (m.str i).sel.lc
  let ranger := m.cur
  let m0 := m.modJob job (fun j => { j with handle := none, phase := .running })
  let m0 := m0.modStr i (fun s => { s with state := s.prev, hold := .none })
  match issueSound runStepped { now := now, mach := { m0 with cur := i } } with
  | .next s' =>
    let m1 := s'.mach
    let again := fun (m : Mach) =>
      let m := m.modJob job (fun j => { j with handle := some h, phase := .frozen })
      let m := m.modStr i (fun s => { s with prev := s.state, state := .frozen, hold := .none })
      let m := m.modJob job (fun j => { j with clk := j.clk.map (fun (k : Nat × JClk) =>
        if k.1 == lc then (k.1, { k.2 with stopped := k.2.stopped.map (· + 1) }) else k) })
      { m with cur := ranger }
    match (m1.job job).handle with
    | some h' =>
      let r := m1.frec h'
      let m := m.modRec h (fun o => { o with flt := r.flt, code := r.code, cause := r.cause, word := r.word, lform := r.lform, wbank := r.wbank, wdict := r.wdict })
      -- TRAP alone counts as executed (R340)
      (if r.code == 5 then (m.modStr i (fun s => { s with fq0 := s.fq1, fq1 := s.fq2, fq2 := (m1.str i).fq2, slots := s.slots - 1 })) else m, 1)
    | none =>
      let s1 := m1.str i
      match s1.hold with
      | .release (.fence _) _ _ =>
        let m1 := m1.drainNow now [i]
        (again ((({ m1 with cur := i } : Mach).retire now).refresh i), 0)
      | .none => if s1.state == .running then (again m1, 0) else (m, 2)
      | _ => (m, 2)
  | _ => (m, 2)

/-- FSTEP (R422). -/
def execFstep (d a b : R) (s : State) : Ans :=
  frozenOp ftcResume b (some d) 0 (fun now m h =>
    if (m.rs a).toNat / 2 ^ 32 != 0 then badItem
    else match m.frozenStream h (m.rs a) with
      | none => .ok (m, 3)
      | some i =>
        if (m.str i).sel.cls != .scalar then .ok (m, 3)
        else if (m.job (m.str i).job).fixed then .ok (m, 4)
        else if (m.str i).state != .frozen || (m.str i).prev != .running then .ok (m, 2)
        else
          let (m, st) := m.stepFrozen now i h
          .ok (m, wd st)) s

/-! ### The meanings of the long and dictionary words -/

/-- A long form's or template's instruction: FSTEP too may stand in one. -/
def runAny (i : Instr) (s : State) : Ans :=
  match i with
  | .fstep d a b => execFstep d a b s
  | i => runNative i s

def execScalarLongForm (form : BitVec 64) (s : State) : Ans := scalarForm runAny form.toNat (noteForm form.toNat 3 s)
def execEngineLongForm (delay : BitVec 4) (form : BitVec 64) (s : State) : Ans :=
  engineForm runAny delay form.toNat (noteForm form.toNat 3 s)
def execDictionaryWord (e : BitVec 8) (h : BitVec 23) (s : State) : Ans := dictWord runAny e h s

end Sys2Proof.Machine
end

