-- ==== Sys2Proof/Machine/Turn.lean ====
section
/-! DEFINITION. What the package does next: events that have fallen due, results in their declared write cycles, words that may
issue, and otherwise the passage of package time (R41, R48, R105, R264, R349, R402); and how a program is placed for `step` (log 6). -/

namespace Sys2Proof.Machine

/-- What the machine does next: an event of the opcode table on the operands in `ev`; a word of the stream `cur`; a primed
micro-order of it (R48); a word of the command-complex core `kcur`; or nothing before a later tick. -/
inductive Turn where
  | event (m : Mach) (e : Instr)
  | word (m : Mach)
  | prime (m : Mach)
  | core (m : Mach) (w : Nat)
  | idle (t : Nat) (m : Mach)

/-- An event with its operands. -/
def Mach.take (m : Mach) (e : Instr) (a : List Nat) : Turn := .event { m with ev := a } e

/-! ### Results in flight (R105) -/

/-- The event that writes a result. -/
def Eff.event : Eff → Instr
  | .creg c v => if c == 0x150 then .rfstatPendClear else if c == 0x311 then (if bitOf v.toNat 8 then .xinvContext else .xinvPage)
    else .resultWrite
  | .tileRow .. | .tileAttr .. | .accRow .. => .tldRowWrite
  | .twin _ => .mmaStepWrite
  | .commit .. => .batchCommit
  | .tag .. => .tagResolve
  | .landing .. => .gbLanding
  | .landCredit .. => .landingCreditReturn
  | .strip .. => .stripPacketDelivery
  | _ => .resultWrite

/-- Whether a cluster of a job has streams that have not started (R48). -/
def Mach.notStarted (m : Mach) (job lc : Nat) : Bool := (m.streamsOn job lc).any (fun i => (m.str i).state == .primed)

/-- Whether a result is written now: its declared write cycle is over, or, where it is late, the cycle in which it is ready, and none before
it is behind (R106, R107). A packet waits until its target's streams have started
(R55), a signal while its predicted path is open (R52), or while its stream's entries have no room (R460). -/
def Mach.resultReady (m : Mach) (now : Nat) (p : Pend) : Bool :=
  let past := p.due + p.late < m.jobCyc now p.job p.lc && !m.behind p
  match p.eff with
  | .land es _ => past && es.all (fun e => (m.unstarted p.job e.line).isNone)
  | .sig _ => (past || m.notStarted p.job p.lc) && !(p.ord == 3 && (m.str p.sid).full)
      && !(match p.spec with | some t => (m.job p.job).tagOpen p.lc t | none => false)
  | _ => past || m.notStarted p.job p.lc

/-- The next result to be written. -/
def Mach.nextResult (m : Mach) (now : Nat) : Option Pend :=
  (m.pend.filter (m.resultReady now)).foldl (fun (a : Option Pend) p => match a with
    | none => some p
    | some q => if p.before q then some p else some q) none

/-! ### Streams (R41, R43, R350) -/

/-- Whether a stream's words may execute now: its job runs, its cluster's clock for the job runs, and, but for rangers, its share
runs on its carrier, its context has won the cluster, and an elastic job's region holds the slot (R22, R349, R350, R429). -/
def Mach.mayRun (m : Mach) (s : Stream) : Bool :=
  let j := m.job s.job
  let pc := m.pcl (m.pcOf (cxPart j.cx) s.sel.lc)
  let fixed := j.fixed && j.phase == .running
  (j.phase == .running || j.phase == .halting || j.phase == .frozen) && (sget j.clk s.sel.lc {}).stopped.isNone
    && (s.isRanger || (j.shareRuns (m.part (cxPart j.cx)) s.sel.lc && pc.active == some j.cx && !pc.swapping && !pc.relock
        && (fixed || pc.slot == some (j.cx, j.rcb))))

/-- Whether a stream waits while another share runs on its carrier: a wait at a phaser completes all the same, and the word after it
issues as soon as its share runs (R22, R299; DEDUCED, log 49). -/
def Mach.shareAway (m : Mach) (s : Stream) : Bool :=
  let j := m.job s.job
  j.phase == .running && (sget j.clk s.sel.lc {}).stopped.isNone && !j.shareRuns (m.part (cxPart j.cx)) s.sel.lc

/-- Whether what holds a stream's word has passed, for the holds that no event ends. -/
def Mach.unblocked (m : Mach) (now i : Nat) (s : Stream) : Bool :=
  let j := m.job s.job
  let cc := m.cct (ccKey j.cx s.sel.lc)
  match s.hold with
  | .none => true
  | .token f => (sget cc.fifos f {}).count != 0
  | .room f => (sget cc.fifos f {}).room
  | .credit slot =>
    let g := sget cc.gslots slot {}
    g.credit != 0 && (sget (m.cct (ccKey j.cx g.lc)).fifos g.fifo {}).roomFor i
  | .start lc => !m.awaitsStart j.cx lc
  | .overlap home n => !s.holds home n
  | .ticket n => match m.ticketCopy i n with | some (_, c) => c.complete | none => true
  | .copies =>
    let mine := m.copies.filter (fun c => c.sid == i && !c.complete)
    mine.isEmpty || mine.any (fun c => c.failed || (c.promise * Config.tick ≤ now && s.tickets.any (fun t => t.copy == c.id && !t.missed)))
  | .sleep ns (some n) => ns * Config.tick ≤ now && (match m.ticketCopy i n with | some (_, c) => c.failed | none => false)
  | .busy => !bitOf (cc.creg 0x311).toNat 63
  | .tfence due => due < m.jobCyc now s.job s.sel.lc
  | .publ id => match m.publs.find? (fun p => p.id == id) with
    | some p => !p.started && m.publMayStart now p
    | none => false
  | .paused st => !(m.die (dieKey 2 ((m.part (cxPart j.cx)).carrier 2 s.sel.ldie))).paused.contains st
  | _ => false

/-- What a running or waiting stream does now, if anything. -/
def Mach.streamTurn (m : Mach) (now i : Nat) (s : Stream) : Option Turn :=
  let at' := m.jobCyc now s.job s.sel.lc
  match s.hold with
  | .release .. => if s.state == .running && m.releaseDone i then some (m.take .releaseComplete [i]) else none
  | .phWait .. =>
    if s.state == .waitPhaser && (m.mayRun s || m.shareAway s) && (match m.phWaitDue i with | some t => t ≤ now | none => false) then
      some (m.take .phwaitComplete [i]) else none
  | .scPos => if s.state == .running && m.mayRun s && ({ m with cur := i } : Mach).scOwned now then
      some (m.take .scPositionReached [i]) else none
  | .step => if s.state == .running && m.mayRun s && m.arrayFree now i && !m.interlocked now i then some (m.take .mmaStepAccept [i]) else none
  | h =>
    if s.sel.cls != .scalar && s.len ≤ s.step && h == .none then
      if s.state == .running && (m.mayFinish i || (({ m with cur := i } : Mach).redFreeze).isSome) then some (m.take .streamDone [i])
      else none
    else if (s.state == .running || s.state == .waitToken) && m.mayRun s && !s.full && m.unblocked now i s
        && s.next (m.delayAt i) ≤ at' && !m.interlocked now i then some (.word { m with cur := i, miss := false })
    else none

/-- Whether a load stream that is PRIMED has a micro-order of its prime depth to issue (R48). -/
def Mach.mayPrime (m : Mach) (now i : Nat) (s : Stream) : Bool :=
  let j := m.job s.job
  s.sel.cls == .ldst && s.sel.unit < 4 && s.primed < j.prime && s.step < s.len && (j.phase == .priming || j.phase == .running)
    && !j.toPrime.contains s.sel.lc
    && !s.full && m.unblocked now i s

/-- The physical cluster whose control core issues a scalar stream's words: a ranger's is the one that hosts its seat (R408). -/
def Mach.corePc (m : Mach) (s : Stream) : Nat :=
  match s.ranger with
  | some r => pcKey (r.die / 8) (r.die % 8) (r.seat % 4 % max 1 (Config.clusterCount (r.die / 8))) (r.seat / 4)
  | none => m.pcOf (cxPart (m.job s.job).cx) s.sel.lc
/-- The other scalar streams that a stream's control core may issue words of. -/
def Mach.corePeers (m : Mach) (i : Nat) (s : Stream) : SMap Stream :=
  m.streams.filter (fun p => p.1 != i && p.2.sel.cls == .scalar && (p.2.state == .running || p.2.state == .waitPhaser)
    && m.corePc p.2 == m.corePc s)
/-- Whether a scalar stream has issued a word in its present cycle. -/
def Mach.issuedNow (m : Mach) (now : Nat) (s : Stream) : Bool := !s.fresh && s.lastIssue == m.jobCyc now s.job s.sel.lc
/-- Whether a stream has a word that may issue now. -/
def Mach.wordReady (m : Mach) (now : Nat) (p : Nat × Stream) : Bool :=
  match m.streamTurn now p.1 p.2 with | some (.word _) => true | _ => false
/-- Whether the control core issues a ready word of a stream now (R408): a ranger's in a cycle in which the core's own stream issues none, and from
an elastic stream every second cycle, here the odd ones (DESIGN CHOICE, log 15); of two rangers the lower seat's. -/
def Mach.coreTakes (m : Mach) (now i : Nat) (s : Stream) : Bool :=
  if s.sel.cls != .scalar || !m.streams.any (fun p => p.2.isRanger) then true else
  let peers := m.corePeers i s
  let turn := (m.pcl (m.corePc s)).cycle now % 2 == 1
  let rangers := peers.filter (fun p => p.2.isRanger)
  let own := peers.filter (fun p => !p.2.isRanger)
  match s.ranger with
  | none => !rangers.any (fun p => m.issuedNow now p.2 || (turn && !(m.job s.job).fixed && m.wordReady now p))
  | some r =>
    !peers.any (fun p => m.issuedNow now p.2)
      && !rangers.any (fun p => (match p.2.ranger with | some q => decide (q.seat < r.seat) | none => false) && m.wordReady now p)
      && !own.any (fun p => m.wordReady now p && !(turn && !(m.job p.2.job).fixed))

/-- What one stream does now: only streams in these states do anything of their own. -/
def Mach.turnOf (m : Mach) (now : Nat) (p : Nat × Stream) : Option Turn :=
  match p.2.state with
  | .running | .waitToken | .waitPhaser =>
    match m.streamTurn now p.1 p.2 with
    | some (.word x) => if m.coreTakes now p.1 p.2 then some (.word x) else none
    | t => t
  | .primed => if m.mayPrime now p.1 p.2 then some (.prime { m with cur := p.1, miss := false }) else none
  | _ => none

/-! ### Jobs (R22, R39, R48, R49, R342) -/

/-- Whether a job's region holds the slot on a cluster where its context is active (R349). -/
def Mach.holdsSlot (m : Mach) (j : Job) (lc : Nat) : Bool :=
  let pc := m.pcl (m.pcOf (cxPart j.cx) lc)
  pc.active == some j.cx && !pc.swapping && !pc.relock && pc.slot == some (j.cx, j.rcb)

/-- What one job does now: it ends, its halt ends, a carrier switches shares, once every stream of the job is PRIMED (R48, log 81) each cluster starts as the region holds the slot there
(log 48); a fixed-timing job whose every cluster is primed gets its start time, and a new one when its region was HELD at that time (R351). -/
def Mach.jobTurn (m : Mach) (now : Nat) (p : Nat × Job) : Option Turn :=
  let (id, j) := p
  if !j.live then none
  else if m.atRendezvous id then some (m.take .rendezvousComplete [id])
  else if m.haltOver id then some (m.take .haltStop [id, 2049])
  else match (skeys j.share).find? (fun dk => (m.switchDue id dk).isSome) with
    | some dk => some (m.take .shareSwitch [id, dk])
    | none =>
      if !(j.phase == .priming || j.phase == .running) then none else
      let ready := fun (lc : Nat) => m.notStarted id lc && m.clusterPrimed id lc
      let lcs := j.lcs.filter (j.shareRuns (m.part (cxPart j.cx)))
      if j.phase == .priming && !(j.toPrime.isEmpty && !lcs.isEmpty && lcs.all ready) then none
      else if j.fixed && j.phase == .priming then
        if (match j.startAt with | none => true | some t => t ≤ now && !(m.rcbOf j.cx j.rcb).held) then some (m.take .diePrime [id, 2048]) else none
      else (lcs.find? (fun lc => ready lc && m.holdsSlot j lc)).map (fun lc => m.take .jobStart [id, lc])

/-! ### Package time -/

/-- Events that recur, with their periods in ns, in the order in which those of one instant happen (R34, R349, R357, R362 to R369). -/
def periodics : List (Nat × Instr) :=
  [(1000, .staticCharge), (256, .energyGather), (4096, .periodBoundary), (10000, .thermalSample), (100000, .governorTick),
   (100000, .hotRailStep), (16, .slotBoundary)]
/-- Ticks of a slot (R349): every other period is reached by steps of it or by its own. -/
def Mach.boundaries (m : Mach) (t : Nat) : Mach :=
  periodics.foldl (fun (m : Mach) p => if t % (p.1 * Config.tick) == 0 then m.at t p.2 [] else m) m

/-- The next tick after `now` at which some recurring event falls. -/
def nextBoundary (now : Nat) : Nat :=
  periodics.foldl (fun a p => min a ((now / (p.1 * Config.tick) + 1) * (p.1 * Config.tick))) ((now / (16 * Config.tick) + 1) * (16 * Config.tick))

/-- The tick at which a stream may next act of its own, on a running clock. -/
def Mach.streamTick (m : Mach) (now i : Nat) (s : Stream) : Option Nat :=
  let pc := m.pcl (m.pcOf (cxPart (m.job s.job).cx) s.sel.lc)
  let tk := fun (c : Nat) => m.jobTick s.job s.sel.lc c
  if (sget (m.job s.job).clk s.sel.lc {}).stopped.isSome then none else
  match s.hold with
  | .tfence due => some (tk (due + 1))
  | .scPos => some (pc.tickOf (pc.cycle now + 1))
  | .phWait .. => m.phWaitDue i
  | .publ id => (m.publs.find? (fun p => p.id == id)).map (fun p => p.go)
  | .step => (m.cct (ccKey (m.job s.job).cx s.sel.lc)).lastAccept.map (fun a => tk (a.1 + max a.2 14))
  | _ =>
    let t := tk (s.next (m.delayAt i))
    -- a word that its control core has not taken in this cycle may issue in the next (R408)
    some (if now < t || s.sel.cls != .scalar || !m.streams.any (fun p => p.2.isRanger) then t else pc.tickOf (pc.cycle now + 1))

/-- Ticks at which something may be due: the next event, write cycles, issue cycles, the next boundary. -/
def Mach.ticks (m : Mach) (now : Nat) : List Nat :=
  (m.agenda.map (fun e => e.1)).take 1
    ++ m.pend.filterMap (fun p => if (sget (m.job p.job).clk p.lc {}).stopped.isSome then none else some (m.jobTick p.job p.lc (p.due + p.late + 1)))
    ++ m.streams.filterMap (fun p => match p.2.state with
        | .running | .waitToken | .waitPhaser => m.streamTick now p.1 p.2
        | _ => none)

/-- The next tick at which something may be due: later than now, no later than the next boundary. -/
def Mach.nextTick (m : Mach) (now : Nat) : Nat :=
  (m.ticks now).foldl (fun a t => if now < t then min a t else a) (nextBoundary now)

/-- The instruction word at a core's pc, in the complex's private SRAM (R385). -/
def Mach.coreWord (m : Mach) : Nat :=
  let a := (sget m.kcores m.kcur {}).pc.toNat
  (sget m.sram (a / 16) {}).v.toNat / 256 ^ (a % 16) % 2 ^ 32

/-- What the machine does next: a retirement that is due comes first (R441); events due, in the order they fell due; then results in their write cycles; then the
command complex; then streams, engines before scalar streams (R406); then jobs; else time passes. -/
def Mach.turn (m : Mach) (now : Nat) : Turn :=
  if m.retireDue then m.take .thermalSample [1] else
  match m.agenda with
  | (t, e, a) :: rest =>
    if t ≤ now then ({ m with agenda := rest } : Mach).take e a else other
  | [] => other
where
  other : Turn :=
    match m.nextResult now with
    | some p => m.take p.eff.event [p.id]
    | none =>
      if m.kturn then .core m m.coreWord else
      match ((m.streams.filter (fun p => p.2.sel.cls != .scalar)) ++ (m.streams.filter (fun p => p.2.sel.cls == .scalar))).findSome?
          (m.turnOf now) with
      | some t => t
      | none => match m.jobs.findSome? (m.jobTurn now) with
        | some t => t
        | none =>
          let t := m.nextTick now
          .idle t ({ m with clock := t }.boundaries t)

/-- A primed micro-order issues, and counts toward the prime depth if it did (R48). -/
def issuePrime (run : Instr → State → Ans) (s : State) : Ans :=
  let before := s.mach.cs.step
  match issueSound run s with
  | .next t => .next (if (t.mach.str s.mach.cur).step == before then t
      else { t with mach := t.mach.modStr s.mach.cur (fun x => { x with primed := x.primed + 1 }) })
  | o => o

/-- A word of a command-complex core: a capability instruction, else an illegal instruction of its custom-0 space (R387). -/
def issueCore (run : Instr → State → Ans) (w : Nat) (s : State) : Ans :=
  match decodeCap w with
  | .ok i => run i s
  | .error _ => run (.illegalOp (BitVec.ofNat 32 w)) s

/-- The streams whose words issue in the cycle of the executing stream's and must not, if that word faults: in elastic mode those of its job on its
cluster, in fixed timing all of its job (R400, R401); none for a ranger, in a frozen job or in the window of a fault. -/
def Mach.sameCycle (m : Mach) (now : Nat) : List Nat :=
  if m.cs.isRanger || m.cj.handle.isSome || m.cj.window then [] else
  (m.streams.filter (fun p => p.1 != m.cur && p.2.job == m.cs.job && (m.cj.fixed || p.2.sel.lc == m.clc)
    && (match m.turnOf now p with | some (.word _) => true | _ => false))).map (·.1)
/-- The word that issues first in a cycle of a job: of those that raise a fault the one of the least selector, so that no other of the cycle issues
(R400, R403); else the executing stream's. -/
def Mach.issuesFirst (run : Instr → State → Ans) (now : Nat) (m : Mach) : Mach :=
  let l := m.sameCycle now
  if l.isEmpty then m else
  let faults := fun (i : Nat) => match issueSound run { now := now, mach := { m with cur := i } } with
    | .next t => (t.mach.job m.cs.job).handle.isSome
    | _ => false
  match (sortOn (fun i => (m.str i).sel.word) (m.cur :: l)).find? faults with
  | some i => { m with cur := i }
  | none => m

/-- The package takes its next turn. -/
def takeTurn (run : Instr → State → Ans) (s : State) : Ans :=
  match s.mach.turn s.now with
  | .event m e => run e { s with mach := m }
  | .word m => issueSound run { s with mach := m.issuesFirst run s.now }
  | .prime m => issuePrime run { s with mach := m }
  | .core m w => issueCore run w { s with mach := m }
  | .idle t m => .next { now := t, mach := m }

/-- The next power-good among the events to come: its tick, and the machine with its operands and the events after it. A stopped package
answers none of those before it. -/
def Mach.nextBoot (m : Mach) : Option (Nat × Mach) :=
  match m.agenda.dropWhile (fun e => match e.2.1 with | .powerGood => false | _ => true) with
  | [] => none
  | (t, _, a) :: rest => some (t, { m with agenda := rest, ev := a })

/-- One step of the package: it takes its next turn; one that a fatal event of package scope stopped waits for a power-good, and without
one it has no step (R439). -/
def packageStep (run : Instr → State → Ans) (s : State) : Ans :=
  if !s.mach.stopped then takeTurn run s else
  match s.mach.nextBoot with
  | none => .fault .packageStopped
  | some (t, m) =>
    if t ≤ s.now then run .powerGood { s with mach := m }
    else .next { now := min t (nextBoundary s.now), mach := { s.mach with clock := min t (nextBoundary s.now) } }

/-! ### A program placed from outside (log 6) -/

/-- Words placed for a stream: the word asked about, and zeros up to the longest instruction. -/
def placedBytes (nbits w : Nat) : List Byte := leBytes 12 (w % 2 ^ nbits % 2 ^ 96)

/-- Tables of a context whose VA 0 to 2^34 is one readable, writable and executable HBM4E page at HBM4E address 0 (R75, R375). -/
def placedTables (h : Homes) : Homes :=
  let h := homeWrite h (2 ^ 34) (leBytes 16 (2 ^ 63 + 7 * 2 ^ 57 + 2 ^ 34 + 2 ^ 14))
  homeWrite h (2 ^ 34 + 2 ^ 14) (leBytes 8 (2 ^ 63 + 7 * 2 ^ 60 + 14) ++ leBytes 8 (2 * 2 ^ 54 + 7 * 2 ^ 50))

/-- Die kind on which a class is hosted, for a placed stream (R9). -/
def hostKind : Cls → Nat
  | .scalar | .matrix => 0 | .vector => 1 | .ldst => 2 | .gather => 3 | .strip => 4

/-- A word placed where the next step fetches: for a stream's class the first word of a running stream of context 0, alone on its
cluster; for a capability instruction the word at the pc of core 0. -/
def Mach.placeWord (m : Mach) (now nbits w : Nat) : Mach :=
  let w := w % 2 ^ nbits
  let m := { m with agenda := [], pend := [], streams := [], jobs := [], stopped := false, kturn := false, seq := max m.seq 2, clock := now
                    dies := m.dies.map (fun (d : Nat × Die) => (d.1, { d.2 with failing := false }))
                    pcs := m.pcs.map (fun (p : Nat × PClu) => (p.1, { p.2 with retiring := false })) }
  let one := w % 2 ^ 32
  match tableClass one, decodeCap one with
  | none, .ok _ =>
    let a := (sget m.kcores 0 {}).pc.toNat
    let g := (sget m.sram (a / 16) {}).v.toNat
    let sh := 256 ^ (a % 16)
    { m with kcur := 0, kturn := true, sram := sset m.sram (a / 16) { v := BitVec.ofNat 128 (g - g / sh % 2 ^ 32 * sh + one * sh) } }
  | c, _ =>
    let cls := match c with | some (k, _) => k | none => .scalar
    let col := if cls == .vector then ((List.range 5).find? (vecHosts (fld one 25 6))).getD 0 else 0
    let sel : Sel := { kind := hostKind cls, cls := cls, col := col }
    let pc := m.pcOf 0 sel.lc
    let m := { m with homes := homeWrite (placedTables m.homes) 0x1000 (placedBytes nbits w) }
    let m := m.setCtx 0 { root := 2 ^ 34 }
    let m := m.modPcl pc (fun _ => { tickBase := now, active := some 0, slot := some (0, 0) })
    let m := m.setJob 1 { phase := .running, clk := [(sel.lc, { stopped := none })] }
    let rg := if cls == .scalar && fld one 25 7 == 0x1D then some { handle := 0, die := dieKey 0 0, seat := 0, spawn := now } else none
    let m := m.setStr 1 { job := 1, sel := sel, state := .running, base := 0x1000, len := 3, ranger := rg, snap := m.homes }
    if cls == .scalar then m.startQueue 1 else m.fillBuffer 1 0

end Sys2Proof.Machine
end

