-- ==== Sys2Proof/Machine/Dispatch.lean ====
section
/-! DEFINITION. What each instruction and event does: one arm per constructor, each a direct call of its meaning. -/

namespace Sys2Proof.Machine

/-- The meaning of an instruction or event. -/
def exec (i : Instr) (s : State) : Host.Outcome State Fault Refusal :=
  match i with
  | .add d a b => Sys2Proof.Machine.execAdd d a b s
  | .sub d a b => Sys2Proof.Machine.execSub d a b s
  | .and d a b => Sys2Proof.Machine.execAnd d a b s
  | .or d a b => Sys2Proof.Machine.execOr d a b s
  | .xor d a b => Sys2Proof.Machine.execXor d a b s
  | .andn d a b => Sys2Proof.Machine.execAndn d a b s
  | .shl d a b => Sys2Proof.Machine.execShl d a b s
  | .shr d a b => Sys2Proof.Machine.execShr d a b s
  | .sar d a b => Sys2Proof.Machine.execSar d a b s
  | .min d a b => Sys2Proof.Machine.execMin d a b s
  | .max d a b => Sys2Proof.Machine.execMax d a b s
  | .minn d a b => Sys2Proof.Machine.execMinn d a b s
  | .maxn d a b => Sys2Proof.Machine.execMaxn d a b s
  | .sel d a b => Sys2Proof.Machine.execSel d a b s
  | .clz d a => Sys2Proof.Machine.execClz d a s
  | .popc d a => Sys2Proof.Machine.execPopc d a s
  | .cmpCc cc d a b => Sys2Proof.Machine.execCmpCc cc d a b s
  | .mul d a b => Sys2Proof.Machine.execMul d a b s
  | .mulh d a b => Sys2Proof.Machine.execMulh d a b s
  | .mulhn d a b => Sys2Proof.Machine.execMulhn d a b s
  | .div d a b => Sys2Proof.Machine.execDiv d a b s
  | .divn d a b => Sys2Proof.Machine.execDivn d a b s
  | .rem d a b => Sys2Proof.Machine.execRem d a b s
  | .remn d a b => Sys2Proof.Machine.execRemn d a b s
  | .addi d a im => Sys2Proof.Machine.execAddi d a im s
  | .andi d a im => Sys2Proof.Machine.execAndi d a im s
  | .ori d a im => Sys2Proof.Machine.execOri d a im s
  | .xori d a im => Sys2Proof.Machine.execXori d a im s
  | .shli d a im => Sys2Proof.Machine.execShli d a im s
  | .shri d a im => Sys2Proof.Machine.execShri d a im s
  | .sari d a im => Sys2Proof.Machine.execSari d a im s
  | .movi d im => Sys2Proof.Machine.execMovi d im s
  | .movh d im => Sys2Proof.Machine.execMovh d im s
  | .ld w d a off => Sys2Proof.Machine.execLd w d a off s
  | .ldAcq w d a off => Sys2Proof.Machine.execLdAcq w d a off s
  | .st w d a off => Sys2Proof.Machine.execSt w d a off s
  | .stRel w d a off => Sys2Proof.Machine.execStRel w d a off s
  | .mfc d c => Sys2Proof.Machine.execMfc d c s
  | .mtc c a => Sys2Proof.Machine.execMtc c a s
  | .amo op w64 d a b => Sys2Proof.Machine.execAmo op w64 d a b s
  | .red op w64 a b => Sys2Proof.Machine.execRed op w64 a b s
  | .scLd w64 d a => Sys2Proof.Machine.execScLd w64 d a s
  | .scSt w64 a b => Sys2Proof.Machine.execScSt w64 a b s
  | .scAmo op w64 d a b => Sys2Proof.Machine.execScAmo op w64 d a b s
  | .fence z => Sys2Proof.Machine.execFence z s
  | .publ a => Sys2Proof.Machine.execPubl a s
  | .pubreg d a b => Sys2Proof.Machine.execPubreg d a b s
  | .phreg m d a => Sys2Proof.Machine.execPhreg m d a s
  | .phdrop a => Sys2Proof.Machine.execPhdrop a s
  | .phdropProxy d a b => Sys2Proof.Machine.execPhdropProxy d a b s
  | .phsig a => Sys2Proof.Machine.execPhsig a s
  | .phwait d a => Sys2Proof.Machine.execPhwait d a s
  | .phsw d a => Sys2Proof.Machine.execPhsw d a s
  | .phsigp d a b => Sys2Proof.Machine.execPhsigp d a b s
  | .phq d a => Sys2Proof.Machine.execPhq d a s
  | .cpy d a b => Sys2Proof.Machine.execCpy d a b s
  | .cpy2d d a => Sys2Proof.Machine.execCpy2d d a s
  | .cpyprom d a => Sys2Proof.Machine.execCpyprom d a s
  | .gemb d a => Sys2Proof.Machine.execGemb d a s
  | .nop => Sys2Proof.Machine.execNop s
  | .halt => Sys2Proof.Machine.execHalt s
  | .cyc d => Sys2Proof.Machine.execCyc d s
  | .ptime d => Sys2Proof.Machine.execPtime d s
  | .waitt a => Sys2Proof.Machine.execWaitt a s
  | .trap code => Sys2Proof.Machine.execTrap code s
  | .tfence => Sys2Proof.Machine.execTfence s
  | .yield => Sys2Proof.Machine.execYield s
  | .fork d a b => Sys2Proof.Machine.execFork d a b s
  | .rdv => Sys2Proof.Machine.execRdv s
  | .tstart d a b => Sys2Proof.Machine.execTstart d a b s
  | .tstop d a => Sys2Proof.Machine.execTstop d a s
  | .trebase d a b => Sys2Proof.Machine.execTrebase d a b s
  | .tstat d a => Sys2Proof.Machine.execTstat d a s
  | .tokset a b => Sys2Proof.Machine.execTokset a b s
  | .lpatch d a b => Sys2Proof.Machine.execLpatch d a b s
  | .larm d a => Sys2Proof.Machine.execLarm d a s
  | .lstat d a => Sys2Proof.Machine.execLstat d a s
  | .dld k bank d a b => Sys2Proof.Machine.execDld k bank d a b s
  | .dsw k bank => Sys2Proof.Machine.execDsw k bank s
  | .dfence => Sys2Proof.Machine.execDfence s
  | .drd k bank d a b => Sys2Proof.Machine.execDrd k bank d a b s
  | .dinv k bank a => Sys2Proof.Machine.execDinv k bank a s
  | .frd d a b => Sys2Proof.Machine.execFrd d a b s
  | .frdv d a b => Sys2Proof.Machine.execFrdv d a b s
  | .fwr d a b => Sys2Proof.Machine.execFwr d a b s
  | .fwrv d a b => Sys2Proof.Machine.execFwrv d a b s
  | .ftab d a b => Sys2Proof.Machine.execFtab d a b s
  | .fstat d a b => Sys2Proof.Machine.execFstat d a b s
  | .fresume b => Sys2Proof.Machine.execFresume b s
  | .fstep d a b => Sys2Proof.Machine.execFstep d a b s
  | .fkill b => Sys2Proof.Machine.execFkill b s
  | .brCc cc a b off => Sys2Proof.Machine.execBrCc cc a b off s
  | .brCcNn cc a b off => Sys2Proof.Machine.execBrCcNn cc a b off s
  | .brCcNt cc a b off => Sys2Proof.Machine.execBrCcNt cc a b off s
  | .j off => Sys2Proof.Machine.execJ off s
  | .jl off => Sys2Proof.Machine.execJl off s
  | .jr a => Sys2Proof.Machine.execJr a s
  | .jlr d a => Sys2Proof.Machine.execJlr d a s
  | .scalarLongForm form => Sys2Proof.Machine.execScalarLongForm form s
  | .dictionaryWord e h => Sys2Proof.Machine.execDictionaryWord e h s
  | .engineLongForm delay form => Sys2Proof.Machine.execEngineLongForm delay form s
  | .vmov m => Sys2Proof.Machine.execVmov m s
  | .vmovi m => Sys2Proof.Machine.execVmovi m s
  | .vmvs m => Sys2Proof.Machine.execVmvs m s
  | .vadd m => Sys2Proof.Machine.execVadd m s
  | .vsub m => Sys2Proof.Machine.execVsub m s
  | .vadds m => Sys2Proof.Machine.execVadds m s
  | .vsubs m => Sys2Proof.Machine.execVsubs m s
  | .vmul m => Sys2Proof.Machine.execVmul m s
  | .vmulh m => Sys2Proof.Machine.execVmulh m s
  | .vmulw m => Sys2Proof.Machine.execVmulw m s
  | .vmac m => Sys2Proof.Machine.execVmac m s
  | .vand m => Sys2Proof.Machine.execVand m s
  | .vor m => Sys2Proof.Machine.execVor m s
  | .vxor m => Sys2Proof.Machine.execVxor m s
  | .vandn m => Sys2Proof.Machine.execVandn m s
  | .vshl m => Sys2Proof.Machine.execVshl m s
  | .vshr m => Sys2Proof.Machine.execVshr m s
  | .vsar m => Sys2Proof.Machine.execVsar m s
  | .vmin m => Sys2Proof.Machine.execVmin m s
  | .vmax m => Sys2Proof.Machine.execVmax m s
  | .vabs m => Sys2Proof.Machine.execVabs m s
  | .vneg m => Sys2Proof.Machine.execVneg m s
  | .vclz m => Sys2Proof.Machine.execVclz m s
  | .vpopc m => Sys2Proof.Machine.execVpopc m s
  | .vcmp m => Sys2Proof.Machine.execVcmp m s
  | .vsel m => Sys2Proof.Machine.execVsel m s
  | .mop m => Sys2Proof.Machine.execMop m s
  | .mpopc m => Sys2Proof.Machine.execMpopc m s
  | .mfirst m => Sys2Proof.Machine.execMfirst m s
  | .vfadd m => Sys2Proof.Machine.execVfadd m s
  | .vfsub m => Sys2Proof.Machine.execVfsub m s
  | .vfmul m => Sys2Proof.Machine.execVfmul m s
  | .vfma m => Sys2Proof.Machine.execVfma m s
  | .vfms m => Sys2Proof.Machine.execVfms m s
  | .vfnma m => Sys2Proof.Machine.execVfnma m s
  | .vfmin m => Sys2Proof.Machine.execVfmin m s
  | .vfmax m => Sys2Proof.Machine.execVfmax m s
  | .vfabs m => Sys2Proof.Machine.execVfabs m s
  | .vfneg m => Sys2Proof.Machine.execVfneg m s
  | .vfcmp m => Sys2Proof.Machine.execVfcmp m s
  | .vrcp m => Sys2Proof.Machine.execVrcp m s
  | .vrsq m => Sys2Proof.Machine.execVrsq m s
  | .vsqrt m => Sys2Proof.Machine.execVsqrt m s
  | .vexp2 m => Sys2Proof.Machine.execVexp2 m s
  | .vlog2 m => Sys2Proof.Machine.execVlog2 m s
  | .vtanh m => Sys2Proof.Machine.execVtanh m s
  | .vcvt m => Sys2Proof.Machine.execVcvt m s
  | .vpack m => Sys2Proof.Machine.execVpack m s
  | .vunpk m => Sys2Proof.Machine.execVunpk m s
  | .vredadd m => Sys2Proof.Machine.execVredadd m s
  | .vredmax m => Sys2Proof.Machine.execVredmax m s
  | .vredmin m => Sys2Proof.Machine.execVredmin m s
  | .vscan m => Sys2Proof.Machine.execVscan m s
  | .vperm m => Sys2Proof.Machine.execVperm m s
  | .vshuf m => Sys2Proof.Machine.execVshuf m s
  | .vslide m => Sys2Proof.Machine.execVslide m s
  | .vbcast m => Sys2Proof.Machine.execVbcast m s
  | .vext m => Sys2Proof.Machine.execVext m s
  | .vins m => Sys2Proof.Machine.execVins m s
  | .vcompress m => Sys2Proof.Machine.execVcompress m s
  | .vexpand m => Sys2Proof.Machine.execVexpand m s
  | .vld m => Sys2Proof.Machine.execVld m s
  | .vst m => Sys2Proof.Machine.execVst m s
  | .vlds m => Sys2Proof.Machine.execVlds m s
  | .vgath m => Sys2Proof.Machine.execVgath m s
  | .vscat m => Sys2Proof.Machine.execVscat m s
  | .vcvtSr m => Sys2Proof.Machine.execVcvtSr m s
  | .vmoment m => Sys2Proof.Machine.execVmoment m s
  | .vnormapply m => Sys2Proof.Machine.execVnormapply m s
  | .vplane m => Sys2Proof.Machine.execVplane m s
  | .tzero m => Sys2Proof.Machine.execTzero m s
  | .lease m => Sys2Proof.Machine.execLease m s
  | .lrel m => Sys2Proof.Machine.execLrel m s
  | .mma m => Sys2Proof.Machine.execMma m s
  | .mmas m => Sys2Proof.Machine.execMmas m s
  | .bopen m => Sys2Proof.Machine.execBopen m s
  | .bopenS m => Sys2Proof.Machine.execBopenS m s
  | .cbatch m => Sys2Proof.Machine.execCbatch m s
  | .wbatch m => Sys2Proof.Machine.execWbatch m s
  | .commit m => Sys2Proof.Machine.execCommit m s
  | .discard m => Sys2Proof.Machine.execDiscard m s
  | .accz m => Sys2Proof.Machine.execAccz m s
  | .tcfg delay tile cfg tok => Sys2Proof.Machine.execTcfg delay tile cfg tok s
  | .tld m => Sys2Proof.Machine.execTld m s
  | .tst m => Sys2Proof.Machine.execTst m s
  | .accrd m => Sys2Proof.Machine.execAccrd m s
  | .accrdIn m => Sys2Proof.Machine.execAccrdIn m s
  | .gset m => Sys2Proof.Machine.execGset m s
  | .gb m => Sys2Proof.Machine.execGb m s
  | .lsLd m => Sys2Proof.Machine.execLsLd m s
  | .lsLdAcq m => Sys2Proof.Machine.execLsLdAcq m s
  | .lsSt m => Sys2Proof.Machine.execLsSt m s
  | .lsStRel m => Sys2Proof.Machine.execLsStRel m s
  | .lsRed m => Sys2Proof.Machine.execLsRed m s
  | .lsPubl m => Sys2Proof.Machine.execLsPubl m s
  | .rdc m => Sys2Proof.Machine.execRdc m s
  | .flt m => Sys2Proof.Machine.execFlt m s
  | .mcast m => Sys2Proof.Machine.execMcast m s
  | .pass m => Sys2Proof.Machine.execPass m s
  | .idle m => Sys2Proof.Machine.execIdle m s
  | .rtadv m => Sys2Proof.Machine.execRtadv m s
  | .kskip b a d => Sys2Proof.Machine.execKskip b a d s
  | .ktrim b a d => Sys2Proof.Machine.execKtrim b a d s
  | .kdrop b a d => Sys2Proof.Machine.execKdrop b a d s
  | .kstamp b a d => Sys2Proof.Machine.execKstamp b a d s
  | .kfld b a d => Sys2Proof.Machine.execKfld b a d s
  | .kinfo sl a d => Sys2Proof.Machine.execKinfo sl a d s
  | .ktake b a d => Sys2Proof.Machine.execKtake b a d s
  | .kgive b a d => Sys2Proof.Machine.execKgive b a d s
  | .illegalOp w => Sys2Proof.Machine.execIllegalOp w s
  | .qtailDoorbell => Sys2Proof.Machine.execQtailDoorbell s
  | .qctlWrite => Sys2Proof.Machine.execQctlWrite s
  | .cheadWrite => Sys2Proof.Machine.execCheadWrite s
  | .evheadWrite => Sys2Proof.Machine.execEvheadWrite s
  | .registerWrite => Sys2Proof.Machine.execRegisterWrite s
  | .packetRead => Sys2Proof.Machine.execPacketRead s
  | .launchDispatch => Sys2Proof.Machine.execLaunchDispatch s
  | .ctxCreate => Sys2Proof.Machine.execCtxCreate s
  | .ctxTeardown => Sys2Proof.Machine.execCtxTeardown s
  | .rcbUpdate => Sys2Proof.Machine.execRcbUpdate s
  | .basketSize => Sys2Proof.Machine.execBasketSize s
  | .basketPut => Sys2Proof.Machine.execBasketPut s
  | .basketDel => Sys2Proof.Machine.execBasketDel s
  | .energySet => Sys2Proof.Machine.execEnergySet s
  | .powerCap => Sys2Proof.Machine.execPowerCap s
  | .queueReset => Sys2Proof.Machine.execQueueReset s
  | .ifst => Sys2Proof.Machine.execIfst s
  | .xinval => Sys2Proof.Machine.execXinval s
  | .rangerSet => Sys2Proof.Machine.execRangerSet s
  | .hamperSet => Sys2Proof.Machine.execHamperSet s
  | .partSwap => Sys2Proof.Machine.execPartSwap s
  | .abxAdd => Sys2Proof.Machine.execAbxAdd s
  | .abxAnd => Sys2Proof.Machine.execAbxAnd s
  | .abxOr => Sys2Proof.Machine.execAbxOr s
  | .abxXor => Sys2Proof.Machine.execAbxXor s
  | .abxMin => Sys2Proof.Machine.execAbxMin s
  | .abxMax => Sys2Proof.Machine.execAbxMax s
  | .abxMinn => Sys2Proof.Machine.execAbxMinn s
  | .abxMaxn => Sys2Proof.Machine.execAbxMaxn s
  | .abxSwap => Sys2Proof.Machine.execAbxSwap s
  | .abxCas => Sys2Proof.Machine.execAbxCas s
  | .xinvPage => Sys2Proof.Machine.execXinvPage s
  | .xinvContext => Sys2Proof.Machine.execXinvContext s
  | .rfstatPendClear => Sys2Proof.Machine.execRfstatPendClear s
  | .atomicopFetchadd => Sys2Proof.Machine.execAtomicopFetchadd s
  | .atomicopSwap => Sys2Proof.Machine.execAtomicopSwap s
  | .atomicopCas => Sys2Proof.Machine.execAtomicopCas s
  | .hdmRead => Sys2Proof.Machine.execHdmRead s
  | .hdmWrite => Sys2Proof.Machine.execHdmWrite s
  | .msixUnmask => Sys2Proof.Machine.execMsixUnmask s
  | .fmLdInfo => Sys2Proof.Machine.execFmLdInfo s
  | .fmLdAllocation => Sys2Proof.Machine.execFmLdAllocation s
  | .getVersion => Sys2Proof.Machine.execGetVersion s
  | .getCapabilities => Sys2Proof.Machine.execGetCapabilities s
  | .negotiateAlgorithms => Sys2Proof.Machine.execNegotiateAlgorithms s
  | .getDigests => Sys2Proof.Machine.execGetDigests s
  | .getCertificate => Sys2Proof.Machine.execGetCertificate s
  | .challenge => Sys2Proof.Machine.execChallenge s
  | .getMeasurements => Sys2Proof.Machine.execGetMeasurements s
  | .keyExchange => Sys2Proof.Machine.execKeyExchange s
  | .finish => Sys2Proof.Machine.execFinish s
  | .heartbeat => Sys2Proof.Machine.execHeartbeat s
  | .keyUpdate => Sys2Proof.Machine.execKeyUpdate s
  | .endSession => Sys2Proof.Machine.execEndSession s
  | .spdmOtherRequest => Sys2Proof.Machine.execSpdmOtherRequest s
  | .powerGood => Sys2Proof.Machine.execPowerGood s
  | .dieBootStep => Sys2Proof.Machine.execDieBootStep s
  | .reconfiguration => Sys2Proof.Machine.execReconfiguration s
  | .diePrime => Sys2Proof.Machine.execDiePrime s
  | .jobStart => Sys2Proof.Machine.execJobStart s
  | .streamDone => Sys2Proof.Machine.execStreamDone s
  | .rendezvousComplete => Sys2Proof.Machine.execRendezvousComplete s
  | .shareSwitch => Sys2Proof.Machine.execShareSwitch s
  | .shareSwitchEnd => Sys2Proof.Machine.execShareSwitchEnd s
  | .haltStop => Sys2Proof.Machine.execHaltStop s
  | .resultWrite => Sys2Proof.Machine.execResultWrite s
  | .tokenBeatArrival => Sys2Proof.Machine.execTokenBeatArrival s
  | .storeBufferDrain => Sys2Proof.Machine.execStoreBufferDrain s
  | .releaseComplete => Sys2Proof.Machine.execReleaseComplete s
  | .atomicSlotServe => Sys2Proof.Machine.execAtomicSlotServe s
  | .atomicUnitServe => Sys2Proof.Machine.execAtomicUnitServe s
  | .atomicReply => Sys2Proof.Machine.execAtomicReply s
  | .scEffect => Sys2Proof.Machine.execScEffect s
  | .scPositionReached => Sys2Proof.Machine.execScPositionReached s
  | .seqAtomicResend => Sys2Proof.Machine.execSeqAtomicResend s
  | .redFaultLog => Sys2Proof.Machine.execRedFaultLog s
  | .hostCompletion => Sys2Proof.Machine.execHostCompletion s
  | .completionTimeout => Sys2Proof.Machine.execCompletionTimeout s
  | .dldEntryArrival => Sys2Proof.Machine.execDldEntryArrival s
  | .copyPacketWrite => Sys2Proof.Machine.execCopyPacketWrite s
  | .copyComplete => Sys2Proof.Machine.execCopyComplete s
  | .promiseDue => Sys2Proof.Machine.execPromiseDue s
  | .waittWake => Sys2Proof.Machine.execWaittWake s
  | .retrainingSchedule => Sys2Proof.Machine.execRetrainingSchedule s
  | .retrainingPauseStart => Sys2Proof.Machine.execRetrainingPauseStart s
  | .retrainingPauseEnd => Sys2Proof.Machine.execRetrainingPauseEnd s
  | .trainingError => Sys2Proof.Machine.execTrainingError s
  | .translationWalk => Sys2Proof.Machine.execTranslationWalk s
  | .translationPauseStart => Sys2Proof.Machine.execTranslationPauseStart s
  | .translationPauseEnd => Sys2Proof.Machine.execTranslationPauseEnd s
  | .invalidationForward => Sys2Proof.Machine.execInvalidationForward s
  | .invalidationDieAck => Sys2Proof.Machine.execInvalidationDieAck s
  | .invalidationComplete => Sys2Proof.Machine.execInvalidationComplete s
  | .publPublish => Sys2Proof.Machine.execPublPublish s
  | .pubregComplete => Sys2Proof.Machine.execPubregComplete s
  | .phaserSignalArrival => Sys2Proof.Machine.execPhaserSignalArrival s
  | .phaserReply => Sys2Proof.Machine.execPhaserReply s
  | .phwaitComplete => Sys2Proof.Machine.execPhwaitComplete s
  | .leaseGrant => Sys2Proof.Machine.execLeaseGrant s
  | .leaseEnd => Sys2Proof.Machine.execLeaseEnd s
  | .mmaStepAccept => Sys2Proof.Machine.execMmaStepAccept s
  | .mmaStepWrite => Sys2Proof.Machine.execMmaStepWrite s
  | .batchCommit => Sys2Proof.Machine.execBatchCommit s
  | .tagResolve => Sys2Proof.Machine.execTagResolve s
  | .tldRowWrite => Sys2Proof.Machine.execTldRowWrite s
  | .gbLanding => Sys2Proof.Machine.execGbLanding s
  | .landingCreditReturn => Sys2Proof.Machine.execLandingCreditReturn s
  | .stripPacketDelivery => Sys2Proof.Machine.execStripPacketDelivery s
  | .freezeBroadcastArrival => Sys2Proof.Machine.execFreezeBroadcastArrival s
  | .freezeRewind => Sys2Proof.Machine.execFreezeRewind s
  | .rangerSpawn => Sys2Proof.Machine.execRangerSpawn s
  | .poolReturn => Sys2Proof.Machine.execPoolReturn s
  | .rangerTimeout => Sys2Proof.Machine.execRangerTimeout s
  | .resumeStart => Sys2Proof.Machine.execResumeStart s
  | .eventPost => Sys2Proof.Machine.execEventPost s
  | .eventBackpressure => Sys2Proof.Machine.execEventBackpressure s
  | .slotBoundary => Sys2Proof.Machine.execSlotBoundary s
  | .thermosSwapEnd => Sys2Proof.Machine.execThermosSwapEnd s
  | .periodBoundary => Sys2Proof.Machine.execPeriodBoundary s
  | .foldArrival => Sys2Proof.Machine.execFoldArrival s
  | .staticCharge => Sys2Proof.Machine.execStaticCharge s
  | .energyGather => Sys2Proof.Machine.execEnergyGather s
  | .deadlineMiss => Sys2Proof.Machine.execDeadlineMiss s
  | .governorTick => Sys2Proof.Machine.execGovernorTick s
  | .thermalSample => Sys2Proof.Machine.execThermalSample s
  | .hotRailStep => Sys2Proof.Machine.execHotRailStep s
  | .shedExpire => Sys2Proof.Machine.execShedExpire s
  | .railSwitchDone => Sys2Proof.Machine.execRailSwitchDone s
  | .droop => Sys2Proof.Machine.execDroop s
  | .clockRelockDone => Sys2Proof.Machine.execClockRelockDone s
  | .completionRecordWrite => Sys2Proof.Machine.execCompletionRecordWrite s
  | .coalesceTimer => Sys2Proof.Machine.execCoalesceTimer s
  | .completionRetryTimer => Sys2Proof.Machine.execCompletionRetryTimer s
  | .queueResetComplete => Sys2Proof.Machine.execQueueResetComplete s
  | .spill => Sys2Proof.Machine.execSpill s
  | .spillComplete => Sys2Proof.Machine.execSpillComplete s
  | .restoreComplete => Sys2Proof.Machine.execRestoreComplete s
  | .partSwapHalted => Sys2Proof.Machine.execPartSwapHalted s
  | .partSwapStart => Sys2Proof.Machine.execPartSwapStart s
  | .pinRelease => Sys2Proof.Machine.execPinRelease s
  | .ifstUnitComplete => Sys2Proof.Machine.execIfstUnitComplete s
  | .linkBeatError => Sys2Proof.Machine.execLinkBeatError s
  | .linkReplay => Sys2Proof.Machine.execLinkReplay s
  | .capAccess => Sys2Proof.Machine.execCapAccess s
  | .tokenCreditReturn => Sys2Proof.Machine.execTokenCreditReturn s
  | .hostLinkRetrain => Sys2Proof.Machine.execHostLinkRetrain s
  | .commandComplexReply => Sys2Proof.Machine.execCommandComplexReply s
  | .frozenStateReply => Sys2Proof.Machine.execFrozenStateReply s
  | .droopEnd => Sys2Proof.Machine.execDroopEnd s

end Sys2Proof.Machine
end

