-- ==== Sys2Proof/Machine/Step.lean ====
section
/-! DEFINITION. One step of the package, and a word placed where the next step fetches. -/

namespace Sys2Proof.Machine

/-- One step of the package. -/
def step (s : State) : Host.Outcome State Fault Refusal := packageStep exec s

/-- The state with a word stored where `step` fetches next (log 6). -/
def State.withFetchWord (s : State) (nbits w : Nat) : State := { s with mach := s.mach.placeWord s.now nbits w }

end Sys2Proof.Machine
end

