-- ==== Sys2Proof/Safety.lean ====
section
/-! DEFINITION. The terms in which the statements speak of a step: what a translation may touch, what a word that retires leaves, what
it puts in flight, and what counts as a safe run. -/

namespace Sys2Proof.Machine

/-- Homes in canonical form: a safe run never leaves it. -/
def State.memWf (s : State) : Prop := Memory.wf s.mach.homes.cells = true

/-- The next 16 ns slot boundary after a tick (R349). -/
def slotAfter (now : Nat) : Nat := (now / (16 * Config.tick) + 1) * (16 * Config.tick)

/-! ### Translations and fetches -/

/-- A die but for what reading a word with one wrong bit logs there (R80, R440). -/
def Die.plain (d : Die) : Die := { d with banks := [], corrected := [], failing := false, lastContained := none }

/-- What translations made for a stream may change (R377, R379): page-table bytes gain bits of `ad` (A is 0x10, D is 0x20), the home
slices and the stream's own L1 fill, a miss is marked, and corrected words are logged (R80); nothing else changes. -/
structure Mach.Walked (m m' : Mach) (sid : Nat) (ad : Byte) : Prop where
  rest : m' = { m with homes := m'.homes, slices := m'.slices, miss := m'.miss, streams := m'.streams, dies := m'.dies }
  dies : ∀ k, (m'.die k).plain = (m.die k).plain
  own : m'.str sid = { m.str sid with l1 := (m'.str sid).l1 }
  others : ∀ i, i ≠ sid → m'.str i = m.str i
  mem : ∀ a, ∃ k : Byte, k &&& ~~~ad = 0 ∧ homeByte m'.homes a = homeByte m.homes a ||| k
  bad : m'.homes.bad = m.homes.bad
  wf : Memory.wf m.homes.cells = true → Memory.wf m'.homes.cells = true

/-! ### Words -/

/-- A context's state on a cluster but for its energy accumulator (R361). -/
def Cctx.plain (c : Cctx) : Cctx := { c with eclPj := 0, dfrac := 0, esat := false, eclAt := (0, 0, 0, false) }
/-- A context but for the charges that its regions gather (R364). -/
def Context.plain (c : Context) : Context := { c with rcbs := c.rcbs.map (fun p => (p.1, { p.2 with chg := 0 })) }

/-- What every word leaves that acts on nothing but its own stream, results in flight and energy: the package time, every other
stream, every job, every register of every context on every cluster, every home but for A bits (R377), every die but for the log of
corrected words (R80). -/
structure State.Quiet (s t : State) : Prop where
  now : t.now = s.now
  rest : t.mach = { s.mach with homes := t.mach.homes, slices := t.mach.slices, miss := t.mach.miss, streams := t.mach.streams,
                                dies := t.mach.dies, agenda := t.mach.agenda, ccs := t.mach.ccs, ctxs := t.mach.ctxs, pend := t.mach.pend,
                                seq := t.mach.seq, fresh := t.mach.fresh }
  others : ∀ i, i ≠ s.mach.cur → t.mach.str i = s.mach.str i
  ccs : ∀ i, (t.mach.cct i).plain = (s.mach.cct i).plain
  ctxs : ∀ i, (t.mach.ctx i).plain = (s.mach.ctx i).plain
  dies : ∀ k, (t.mach.die k).plain = (s.mach.die k).plain
  mem : ∀ a, ∃ k : Byte, k &&& ~~~0x10 = 0 ∧ homeByte t.mach.homes a = homeByte s.mach.homes a ||| k
  wf : s.memWf → t.memWf

/-- The stream after a scalar word retired (R322): the queue moved on by one, its new last entry being the word at `next` in line;
registers, store buffer, snapshot and all else as they were. -/
def State.Advanced (s t : State) (next : Nat) (nullify : Bool) (slots : Nat) : Prop :=
  let x := s.mach.cs
  t.mach.cs = { x with
    fq0 := if nullify then { x.fq1 with annul := true } else x.fq1
    fq1 := if nullify then { x.fq2 with annul := true } else x.fq2
    fq2 := t.mach.cs.fq2, l1 := t.mach.cs.l1, lastIssue := s.mach.ccyc s.now, fresh := false, hold := .none, slots := slots }
  ∧ t.mach.cs.fq2.waddr = next % 2 ^ 24

/-- A scalar word retired, with nothing else done but the results it put in flight. -/
structure State.Retired (s t : State) (ps : List Pend) : Prop where
  quiet : s.Quiet t
  queue : s.Advanced t s.mach.cs.fq2.succ false (s.mach.cs.slots - 1)
  pend : t.mach.pend = s.mach.pend ++ ps

/-- A branch or jump retired: two delay slots follow it (R322), the word after them is the target if there is one. -/
structure State.Branched (s t : State) (target : Option Nat) (nullify : Bool) (ps : List Pend) : Prop where
  quiet : s.Quiet t
  queue : s.Advanced t (target.getD s.mach.cs.fq2.succ) nullify 2
  pend : t.mach.pend = s.mach.pend ++ ps

/-- A micro-order retired: STEP past its words (R41), registers, tables and all else of the stream as they were. -/
structure State.Stepped (s t : State) (ps : List Pend) : Prop where
  quiet : s.Quiet t
  own : t.mach.cs = { s.mach.cs with
    step := s.mach.cs.step + s.mach.curLen, lastIssue := s.mach.ccyc s.now, fresh := false, hold := .none, wfifo := 0,
    state := if s.mach.cs.state == .waitToken then .running else s.mach.cs.state }
  pend : t.mach.pend = s.mach.pend ++ ps

/-- A word held at FQ0 or STEP until its completing event (R324): the queue and STEP stand, and `ps` is in flight. -/
structure State.Held (s t : State) (h : Hold) (ps : List Pend) : Prop where
  quiet : s.Quiet t
  own : t.mach.cs = { s.mach.cs with hold := h }
  pend : t.mach.pend = s.mach.pend ++ ps

/-- The `n`-th result that the executing word puts in flight, to be written in a job cycle, in the order `ord` of R59; it is ready `late`
cycles after that (R106). -/
def State.resultAt (s : State) (n due ord : Nat) (e : Eff) (late : Nat := 0) : Pend :=
  { id := s.mach.seq + n, job := s.mach.cs.job, lc := s.mach.clc, cc := s.mach.ccc, sid := s.mach.cur,
    due := due, ord := ord, iss := s.mach.ccyc s.now, late := late, eff := e }

/-- A result written at issue + LAT(k) − 1 (R105), or when it is ready (R106). -/
def State.result (s : State) (n k ord : Nat) (e : Eff) : Pend :=
  s.resultAt n (s.mach.ccyc s.now + s.mach.cj.latOf k - 1) ord e (s.mach.cj.lateOf k)

/-- The one result of a word that writes a scalar register under latency class `k` (R169). -/
def State.writes (s : State) (k : Nat) (d : R) (v : Word) : List Pend := [s.result 0 k 0 (.reg d.toNat v)]

/-- The state with another machine, at the same package time. -/
def State.on (s : State) (m : Mach) : State := { s with mach := m }

/-- The word raises a fault: the exception of R398 is taken for the executing stream. -/
def State.Raises (s t : State) (f : Flt) : Prop := t = s.on ((s.mach.takeFreeze s.now s.mach.cur f).missPause s.now)

/-- The executing stream is a scalar stream, or an engine's. -/
def State.onScalar (s : State) : Prop := s.mach.cs.sel.cls = .scalar
def State.onEngine (s : State) : Prop := s.mach.cs.sel.cls ≠ .scalar

/-! ### What the scalar instructions compute, in the words of R163, R171, R172, R174 and R175 -/

/-- A 64-bit shift by a whole, unmasked amount: left, logical right, arithmetic right (R163). -/
def shiftLeft (a : Word) (n : Nat) : Word := if 64 ≤ n then 0 else BitVec.ofNat 64 (a.toNat * 2 ^ n)
def shiftRight (a : Word) (n : Nat) : Word := if 64 ≤ n then 0 else BitVec.ofNat 64 (a.toNat / 2 ^ n)
def shiftSigned (a : Word) (n : Nat) : Word :=
  if 64 ≤ n then (if a.msb then BitVec.allOnes 64 else 0) else BitVec.ofInt 64 (a.toInt / 2 ^ n)

/-- What a condition says of two values (R85): the N forms compare unsigned, the others signed. -/
def condHolds (c : Cond) (a b : Word) : Prop :=
  match c with
  | .eq => a = b
  | .ne => a ≠ b
  | .lt => a.toInt < b.toInt
  | .ge => b.toInt ≤ a.toInt
  | .ltn => a.toNat < b.toNat
  | .gen => b.toNat ≤ a.toNat
  | .al => True

/-- An instruction completes: a scalar word retires with one result, `v` for register `d` under latency class `k`. -/
def State.yields (s : State) (i : Instr) (k : Nat) (d : R) (v : Word) : Prop :=
  ∃ t, exec i s = .next t ∧ s.Retired t (s.writes k d v)

/-- The halves of the exact product of two words, signed or unsigned (R172). -/
def product (signed : Bool) (a b : Word) : BitVec 128 :=
  if signed then a.signExtend 128 * b.signExtend 128 else a.setWidth 128 * b.setWidth 128

/-- A division completes: its result under class 2, and with a zero divisor DZ (bit 4 of ASTAT) in the same write cycle (R172). -/
def State.divides (s : State) (i : Instr) (d : R) (b v : Word) : Prop :=
  ∃ t, exec i s = .next t ∧
    s.Retired t (s.writes 2 d v ++ if b = 0 then [s.result 1 2 1 (.flags (s.mach.cs.astatKey s.mach.cur) 16)] else [])

/-! ### Replies -/

/-- A held scalar word completes at its reply (R279, R324): the queue moves past it, `v` stands in register `d` at once (S0 discards),
and every other register is as before. -/
def State.Replied (s t : State) (sid : Nat) (d : R) (v : Word) : Prop :=
  t.now = s.now ∧ (t.mach.str sid).hold = .none ∧
  (t.mach.str sid).fq0 = (s.mach.str sid).fq1 ∧ (t.mach.str sid).fq1 = (s.mach.str sid).fq2 ∧
  ∀ r, (t.mach.str sid).rd r = if r = 0 then 0 else if r = d then v else (s.mach.str sid).rd r

/-- Memory between two states, but for A bits that a fetch set (R377). -/
def State.SameMemory (s t : State) : Prop :=
  ∀ a, ∃ k : Byte, k &&& ~~~0x10 = 0 ∧ homeByte t.mach.homes a = homeByte s.mach.homes a ||| k

/-! ### Atomics -/

/-- What an atomic leaves at its home (R281), at its width. -/
def atomicResult (op : AOp) (w : Nat) (old x cmp : BitVec w) : BitVec w :=
  match op with
  | .add => old + x
  | .and => old &&& x
  | .or => old ||| x
  | .xor => old ^^^ x
  | .min => if x.toInt < old.toInt then x else old
  | .max => if old.toInt < x.toInt then x else old
  | .minn => if x.toNat < old.toNat then x else old
  | .maxn => if old.toNat < x.toNat then x else old
  | .swap => x
  | .cas => if old = cmp then x else old

/-- The bytes an atomic in flight leaves at its home, from the bytes it finds (R281; a plain load or store for SC.LD and SC.ST). -/
def Atom.after (a : Atom) (old : List Byte) : List Byte :=
  let w := 8 * a.bytes
  let o := BitVec.ofNat w (leNat old)
  if a.form = 1 then old
  else if a.form = 2 then leBytes a.bytes a.opnd.toNat
  else leBytes a.bytes (atomicResult a.op w o (a.opnd.setWidth w) (a.cmp.setWidth w)).toNat

/-- An atomic performed between two machines: its bytes hold what it leaves, every other byte of memory is as before. -/
def Mach.Performed (m n : Mach) (a : Atom) : Prop :=
  homeRead n.homes a.home a.bytes = a.after (homeRead m.homes a.home a.bytes) ∧
  ∀ x, ¬(a.home ≤ x ∧ x < a.home + a.bytes) → homeByte n.homes x = homeByte m.homes x

/-! ### Micro-orders -/

/-- What the token fields of a micro-order leave when it issues (R44, R51, R92): the wait's token is taken, the stream runs, SPEC says
whether it lies on an open predicted path, and the signal is counted in flight. -/
def Mach.tokened (m : Mach) (now : Nat) (tok : Tok) (path wait : Option Nat) : Mach :=
  let m := (m.takeToken now wait).modStr m.cur (fun x => { x with
    state := if x.state == .waitToken then .running else x.state, wfifo := 0, spec := path.isSome })
  if tok.se then m.modCct m.ccc (fun c => { c with fifos := smod c.fifos tok.sfifo.toNat {} (fun x => { x with inflight := x.inflight + 1 }) })
  else m

/-- A micro-order's token fields let it issue (R44, R45, R51): the FIFO it waits on holds a token, the one it signals has room, and it
names a predicted path only where its instruction may lie on one. -/
structure State.microReady (s : State) (tok : Tok) (paths : Bool) (wait : Option Nat := tok.wait) : Prop where
  engine : s.onEngine
  runs : s.mach.cs.state = .running ∨ s.mach.cs.state = .waitToken
  path : paths = false → tok.pe = false
  waits : ∀ f, wait = some f → (sget (s.mach.cct s.mach.ccc).fifos f {}).count ≠ 0
  room : tok.se = true → (sget ((s.mach.takeToken s.now wait).cct s.mach.ccc).fifos tok.sfifo.toNat {}).room = true

/-- Results put in flight, numbered on from those before them. -/
def Mach.puts (m : Mach) (ps : List Pend) : Mach := { m with pend := m.pend ++ ps, seq := m.seq + ps.length }

/-- The signal that a micro-order puts in flight, if it has one (R46, R108). -/
def State.signalled (s : State) (tok : Tok) (path : Option Nat) (due ord : Nat) : List Pend :=
  if tok.se then [{ s.resultAt 0 due ord (.sig tok.sfifo.toNat) with spec := path }] else []

/-- A micro-order issues and STEP moves past it: from the machine `m` that its own effect leaves, `ps` in flight, then what its token
fields leave (R44), and its signal due. -/
def State.issues (s : State) (i : Instr) (m : Mach) (tok : Tok) (due ord : Nat) (ps : List Pend) (wait : Option Nat := tok.wait) : Prop :=
  let b := s.on ((m.puts ps).tokened s.now tok (s.mach.pathOf tok) wait)
  ∃ t, exec i s = .next t ∧ b.Stepped t (b.signalled tok (s.mach.pathOf tok) due ord)

/-- A micro-order that counts as issued in a later cycle (R235, R317): as above, but for the cycle from which the next delay counts. -/
def State.issuesLate (s : State) (i : Instr) (m : Mach) (tok : Tok) (cyc : Nat) (start : Bool) (due : Nat) (ps : List Pend) : Prop :=
  let b := s.on ((m.puts ps).tokened s.now tok (s.mach.pathOf tok) tok.wait)
  ∃ t, exec i s = .next t ∧ b.Quiet t ∧
    t.mach.cs = { b.mach.cs with step := b.mach.cs.step + s.mach.curLen, lastIssue := max (s.mach.ccyc s.now) cyc, fresh := start,
                                 hold := .none } ∧
    t.mach.pend = b.mach.pend ++ b.signalled tok (s.mach.pathOf tok) due 2

/-- A micro-order issues, and its signal goes when the group `g` of its store entries has performed (R315). -/
def State.issuesDrain (s : State) (i : Instr) (m : Mach) (tok : Tok) (g : Nat) : Prop :=
  let b := m.tokened s.now tok (s.mach.pathOf tok) tok.wait
  ∃ t, exec i s = .next t ∧ (s.on (if tok.se then b.modStr b.cur (fun x =>
    { x with drainSigs := x.drainSigs ++ [(g, tok.sfifo.toNat, s.mach.pathOf tok)] }) else b)).Stepped t []

/-- A micro-order issues and is held until an event completes it, its signal then counted (R108). -/
def State.issuesHeld (s : State) (i : Instr) (m : Mach) (tok : Tok) (h : Hold) : Prop :=
  let b := m.tokened s.now tok (s.mach.pathOf tok) tok.wait
  ∃ t, exec i s = .next t ∧ (s.on (if tok.se then b.modStr b.cur (fun x =>
    { x with sig := some (tok.sfifo.toNat, s.mach.pathOf tok) }) else b)).Held t h []

/-! ### Vector micro-orders -/

/-- The results of a vector micro-order in flight: registers and a mask ranked by column, flags by themselves (R59, R190). -/
def State.vecResults (s : State) (due late : Nat) (e : VEnv) (o : VOut) : List Pend :=
  let a := if o.ws.isEmpty then [] else [s.resultAt 0 due e.col (.vec e.unit e.col o.ws) late]
  let b := a ++ match o.mask with
    | none => []
    | some (k, v, km) => [s.resultAt a.length due e.col (.mask e.unit k v km) late]
  if o.fl = 0 then b else b ++ [s.resultAt b.length due 1 (.flags (s.mach.cs.astatKey s.mach.cur) o.fl) late]

/-- A vector micro-order on registers issues: what it writes, in write cycle issue + `lat` − 1 (R190), or when it is ready (R106). -/
def State.vecIssues (s : State) (i : Instr) (mi : Micro) (lat : Job → Nat) (o : VOut) : Prop :=
  let due := s.mach.ccyc s.now + lat s.mach.cj - 1
  s.issues i s.mach mi.tail.tok due 2 (s.vecResults due (s.mach.cj.lateBy lat) (s.mach.venv mi) o)

/-- A micro-order that names no rounding, and one that names a rounding of its own or the mode register's (R94). -/
def exactForm (mi : Micro) : Prop := ∀ t, mi.long = some t → t.rnd = 0
def roundedForm (mi : Micro) : Prop := ∀ t, mi.long = some t → t.rnd ≠ 5 ∧ t.rnd ≠ 7

/-- Element `j` of an operand as bits of the micro-order's type (R183), and as an integer of it. -/
def VEnv.el (e : VEnv) (f : F7) (j : Nat) : BitVec e.w := BitVec.ofNat e.w ((e.els f).getD j 0)
def VEnv.num (e : VEnv) (v : BitVec e.w) : Int := if e.t.signed then v.toInt else v.toNat
/-- A lane-wise result: element `j` is `f j` where lane j is active (R188). -/
def VEnv.lanesOf (e : VEnv) (d : F7) (f : Nat → BitVec e.w) (fl : Nat) : VOut :=
  e.out d ((List.range e.n).map (fun j => (f j).toNat)) (e.act e.n) fl

/-! ### Capabilities -/

/-- A tagged capability that a core of the command complex holds in a register, or that stands in the private SRAM (R385). -/
def Mach.holdsCap (m : Mach) (c : Cap) : Prop :=
  c.tag = true ∧ ((∃ core r, (sget m.kcores core {}).kr r = c) ∨ ∃ g, sget m.sram g {} = c)

/-- A capability that gives nothing another does not (R387): no byte outside it, no right more, no other context, and no raw one from a
typed one. -/
def Cap.narrower (c k : Cap) : Prop :=
  (c.length = 0 ∨ (k.base ≤ c.base ∧ c.base + c.length ≤ k.base + k.length)) ∧ c.rights &&& k.rights = c.rights ∧ c.ctx = k.ctx ∧
    (k.kind ≠ 0 → c.kind = k.kind)

end Sys2Proof.Machine
end

