-- ==== Sys2Proof/Certificates/Slice0/Obligations.lean ====
section
/-! DEFINITION. The statements for the provers. -/

open Sys2Proof Sys2Proof.Machine

/-! ### Scalar arithmetic -/

/-- R169, R171: the words of the ALU group, and what each leaves: every one retires and puts its result in flight under class 0, whatever the registers hold; nothing else
changes but the fetch queue, energy and A bits. -/
def Obligations.AluGroup : Prop :=
  (∀ (d a b : R) (s : State), s.onScalar →
    let x := s.mach.rs a
    let y := s.mach.rs b
    s.yields (.add d a b) 0 d (BitVec.ofNat 64 ((x.toNat + y.toNat) % 2 ^ 64)) ∧
    s.yields (.sub d a b) 0 d (BitVec.ofInt 64 (x.toInt - y.toInt)) ∧
    s.yields (.and d a b) 0 d (x &&& y) ∧
    s.yields (.or d a b) 0 d (x ||| y) ∧
    s.yields (.xor d a b) 0 d (x ^^^ y) ∧
    s.yields (.andn d a b) 0 d (x &&& ~~~y) ∧
    s.yields (.shl d a b) 0 d (shiftLeft x y.toNat) ∧
    s.yields (.shr d a b) 0 d (shiftRight x y.toNat) ∧
    s.yields (.sar d a b) 0 d (shiftSigned x y.toNat) ∧
    s.yields (.min d a b) 0 d (BitVec.ofInt 64 (min x.toInt y.toInt)) ∧
    s.yields (.max d a b) 0 d (BitVec.ofInt 64 (max x.toInt y.toInt)) ∧
    s.yields (.minn d a b) 0 d (BitVec.ofNat 64 (min x.toNat y.toNat)) ∧
    s.yields (.maxn d a b) 0 d (BitVec.ofNat 64 (max x.toNat y.toNat)) ∧
    s.yields (.sel d a b) 0 d (if s.mach.rs d ≠ 0 then x else y) ∧
    s.yields (.clz d a) 0 d (BitVec.ofNat 64 ((List.range 64).takeWhile (fun i => !x.getLsbD (63 - i))).length) ∧
    s.yields (.popc d a) 0 d (BitVec.ofNat 64 ((List.range 64).filter (fun i => x.getLsbD i)).length) ∧
    ∀ cc, (condHolds cc x y → s.yields (.cmpCc cc d a b) 0 d 1) ∧ (¬condHolds cc x y → s.yields (.cmpCc cc d a b) 0 d 0)) ∧
  (∀ (r : Bool) (d a b : R),
    let word (sub md : Nat) : Dec := decodeWord .scalar r (0x01 * 2 ^ 25 + d.toNat * 2 ^ 20 + a.toNat * 2 ^ 15 + b.toNat * 2 ^ 10 + sub * 2 ^ 5 + md) 0 0
    word 0 0 = .ok (.add d a b) ∧ word 1 0 = .ok (.sub d a b) ∧ word 2 0 = .ok (.and d a b) ∧ word 3 0 = .ok (.or d a b) ∧
    word 4 0 = .ok (.xor d a b) ∧ word 5 0 = .ok (.andn d a b) ∧ word 6 0 = .ok (.shl d a b) ∧ word 7 0 = .ok (.shr d a b) ∧
    word 8 0 = .ok (.sar d a b) ∧ word 9 0 = .ok (.min d a b) ∧ word 10 0 = .ok (.max d a b) ∧ word 11 0 = .ok (.minn d a b) ∧
    word 12 0 = .ok (.maxn d a b) ∧ word 13 0 = .ok (.sel d a b) ∧
    (b = 0 → word 14 0 = .ok (.clz d a) ∧ word 15 0 = .ok (.popc d a)) ∧
    (b ≠ 0 → word 14 0 = .error .illegalField ∧ word 15 0 = .error .illegalField) ∧
    word 16 0 = .ok (.cmpCc .eq d a b) ∧ word 16 1 = .ok (.cmpCc .ne d a b) ∧ word 16 2 = .ok (.cmpCc .lt d a b) ∧
    word 16 3 = .ok (.cmpCc .ge d a b) ∧ word 16 4 = .ok (.cmpCc .ltn d a b) ∧ word 16 5 = .ok (.cmpCc .gen d a b) ∧
    (a = 0 ∧ b = 0 → word 16 6 = .ok (.cmpCc .al d a b)) ∧ (¬(a = 0 ∧ b = 0) → word 16 6 = .error .illegalField) ∧
    ∀ md, 7 ≤ md → md < 32 → word 16 md = .error .illegalField)

/-- R174, R175: the immediate forms; a shift by 64 or more gives 0, or copies of the sign bit. -/
def Obligations.ImmediateForms : Prop :=
  (∀ (d a : R) (k : BitVec 15) (h : BitVec 20) (s : State), s.onScalar →
    let x := s.mach.rs a
    s.yields (.addi d a k) 0 d (x + k.signExtend 64) ∧
    s.yields (.andi d a k) 0 d (x &&& k.signExtend 64) ∧
    s.yields (.ori d a k) 0 d (x ||| k.signExtend 64) ∧
    s.yields (.xori d a k) 0 d (x ^^^ k.signExtend 64) ∧
    s.yields (.shli d a k) 0 d (shiftLeft x k.toNat) ∧
    s.yields (.shri d a k) 0 d (shiftRight x k.toNat) ∧
    s.yields (.sari d a k) 0 d (shiftSigned x k.toNat) ∧
    s.yields (.movi d h) 0 d (h.signExtend 64) ∧
    s.yields (.movh d h) 0 d (BitVec.ofNat 64 ((s.mach.rs d).toNat * 2 ^ 20) ||| h.setWidth 64)) ∧
  (∀ (r : Bool) (d a : R) (k : BitVec 15) (h : BitVec 20),
    let word (op : Nat) : Dec := decodeWord .scalar r (op * 2 ^ 25 + d.toNat * 2 ^ 20 + a.toNat * 2 ^ 15 + k.toNat) 0 0
    word 0x04 = .ok (.addi d a k) ∧ word 0x05 = .ok (.andi d a k) ∧ word 0x06 = .ok (.ori d a k) ∧ word 0x07 = .ok (.xori d a k) ∧
    word 0x08 = .ok (.shli d a k) ∧ word 0x09 = .ok (.shri d a k) ∧ word 0x0A = .ok (.sari d a k) ∧
    decodeWord .scalar r (0x0B * 2 ^ 25 + d.toNat * 2 ^ 20 + h.toNat) 0 0 = .ok (.movi d h) ∧
    decodeWord .scalar r (0x0C * 2 ^ 25 + d.toNat * 2 ^ 20 + h.toNat) 0 0 = .ok (.movh d h))

/-- R163, R172, R173: the words of the multiply-divide group; every multiply and division passes its residue check and writes its result under class 1 or 2; a zero divisor
gives all ones or the dividend, and DZ. -/
def Obligations.MultiplyDivideGroup : Prop :=
  (∀ (d a b : R) (s : State), s.onScalar →
    let x := s.mach.rs a
    let y := s.mach.rs b
    s.yields (.mul d a b) 1 d ((product true x y).extractLsb' 0 64) ∧
    s.yields (.mulh d a b) 1 d ((product true x y).extractLsb' 64 64) ∧
    s.yields (.mulhn d a b) 1 d ((product false x y).extractLsb' 64 64) ∧
    s.divides (.div d a b) d y (if y = 0 then BitVec.allOnes 64 else x.sdiv y) ∧
    s.divides (.divn d a b) d y (if y = 0 then BitVec.allOnes 64 else x / y) ∧
    s.divides (.rem d a b) d y (if y = 0 then x else x.srem y) ∧
    s.divides (.remn d a b) d y (if y = 0 then x else x % y)) ∧
  (∀ (r : Bool) (d a b : R),
    let word (sub : Nat) : Dec := decodeWord .scalar r (0x02 * 2 ^ 25 + d.toNat * 2 ^ 20 + a.toNat * 2 ^ 15 + b.toNat * 2 ^ 10 + sub * 2 ^ 5) 0 0
    word 0 = .ok (.mul d a b) ∧ word 1 = .ok (.mulh d a b) ∧ word 2 = .ok (.mulhn d a b) ∧ word 3 = .ok (.div d a b) ∧
    word 4 = .ok (.divn d a b) ∧ word 5 = .ok (.rem d a b) ∧ word 6 = .ok (.remn d a b))

/-! ### Control registers and clocks -/

/-- R178, R180, R181: MFC of a register the stream has reads it as it stands; CYC writes the cluster's cycle counter, PTIME the package
time in whole ns at the start of the issue cycle (a tick is 1/84 ns); NOP only retires. MTC of a value that breaks no field's limit puts
the write in flight under class 0, unless it must wait for an invalidation in progress. R178: a number that no map assigns to the issuing cluster raises ILLEGAL_FIELD, and so does a one in a reserved field. -/
def Obligations.ControlRegisterWords : Prop :=
  (∀ (d a : R) (c : BitVec 15) (s : State), s.onScalar →
    (∀ acc, s.mach.cregAccess s.mach.cs.isRanger c.toNat = some acc →
      s.yields (.mfc d c) 0 d (s.mach.cregRead c.toNat) ∧
      ((s.mach.rs a).toNat &&& acc.rsv = 0 → s.mach.cregValueOk c.toNat (s.mach.rs a) = true →
        (c.toNat = 0x311 → ((s.mach.cct s.mach.ccc).creg 0x311).getLsbD 63 = false) →
        ∃ t, exec (.mtc c a) s = .next t ∧ s.Retired t
          [s.result 0 0 (if 0x80 ≤ c.toNat ∧ c.toNat < 0x90 then 1 else 0) (.creg (s.mach.cregTarget c.toNat) (s.mach.rs a))])) ∧
    s.yields (.cyc d) 0 d (BitVec.ofNat 64 ((s.mach.pcl (s.mach.pcOf s.mach.cpart s.mach.clc)).cycle s.now)) ∧
    (let p := s.mach.pcl (s.mach.pcOf s.mach.cpart s.mach.clc)
     s.yields (.ptime d) 0 d (BitVec.ofNat 64 (min s.now (p.tickOf (p.cycle s.now)) / 84))) ∧
    ∃ t, exec .nop s = .next t ∧ s.Retired t []) ∧
  (∀ (d a : R) (c : BitVec 15) (s : State),
    (s.mach.cregAccess s.mach.cs.isRanger c.toNat = none →
      (∃ t, exec (.mfc d c) s = .next t ∧ s.Raises t { code := .illegalField }) ∧
      ∃ t, exec (.mtc c a) s = .next t ∧ s.Raises t { code := .illegalField }) ∧
    ∀ acc, s.mach.cregAccess s.mach.cs.isRanger c.toNat = some acc → (s.mach.rs a).toNat &&& acc.rsv ≠ 0 →
      ∃ t, exec (.mtc c a) s = .next t ∧ s.Raises t { code := .illegalField })

/-- R178, R6: in its write cycle an MTC's value reaches every RW bit, a one clears every W1C bit, and RO bits stay. -/
def Obligations.ControlRegisterWriteByField : Prop :=
  ∀ (x : Cctx) (c : Nat) (v : Word) (i : Nat), i < 64 →
    ((x.cregWrite c v).creg c).getLsbD i =
      if (wd (placeAcc c).w1c).getLsbD i && v.getLsbD i then false
      else if (wd (placeAcc c).rw).getLsbD i then v.getLsbD i else (x.creg c).getLsbD i

/-! ### Scalar loads and stores -/

/-- R277, R279: an aligned load whose page translates, is readable and neither HBM4E nor host memory, completes with the bytes read
through the stream's own buffer over its snapshot, written in the declared write cycle of the place it reads, or as late as the data
comes. LD.ACQ reads the homes in that cycle and refreshes. R279: a load from host memory holds the stream until the host completes it. -/
def Obligations.LoadsComplete : Prop :=
  (∀ (w : Width) (d a : R) (off : BitVec 12) (s : State) (m : Mach) (p : Pg),
    let ea := (s.mach.rs a + off.signExtend 64).toNat
    s.onScalar → ea % w.bytes = 0 → s.mach.xlat s.mach.cur ea { rd := true } = .ok (m, p) → 2 ≤ p.tgt →
    m.unstarted m.cs.job (p.home 0) = none → m.pgBad p w.bytes = false →
    let q := ((m.softPg p w.bytes).loadLate (p.home 0)).2
    let late := ((m.softPg p w.bytes).loadLate (p.home 0)).1
    let due := m.loadDue s.now (p.home 0)
    let hs := if p.pub ≠ 0 then [] else (List.range w.bytes).map p.home
    (∃ t, exec (.ld w d a off) s = .next t ∧ (s.on q).Retired t [(s.on q).resultAt 0 due 0
      (.reg d.toNat (w.extend (m.readPg s.mach.cur .plain p w.bytes))) late]) ∧
    ∃ t, exec (.ldAcq w d a off) s = .next t ∧ (s.on q).Retired t [(s.on q).resultAt 0 due 0
      (.regAcq d.toNat w hs q.seq (w.extend (m.readPg s.mach.cur .home p w.bytes))) late]) ∧
  (∀ (w : Width) (d a : R) (off : BitVec 12) (s : State) (m : Mach) (p : Pg),
    let ea := (s.mach.rs a + off.signExtend 64).toNat
    ea % w.bytes = 0 → s.mach.xlat s.mach.cur ea { rd := true } = .ok (m, p) → p.tgt = 1 →
    m.unstarted m.cs.job (p.home 0) = none → m.pgBad p w.bytes = false →
    let q := s.on ((m.softPg p w.bytes).awaitHost s.now)
    (∃ t, exec (.ld w d a off) s = .next t ∧
      q.Held t (.host d w (p.home 0) false (w.extend (m.readPg s.mach.cur .plain p w.bytes))) []) ∧
    ∃ t, exec (.ldAcq w d a off) s = .next t ∧
      q.Held t (.host d w (p.home 0) true (w.extend (m.readPg s.mach.cur .home p w.bytes))) [])

/-- R277, R253, R460: an aligned store whose page translates and is writable enters the store buffer behind the entries there: one
entry, of the line that holds its home, whose bytes are the low bytes of Sd, lowest first. Memory itself stays. -/
def Obligations.StoresComplete : Prop :=
  ∀ (w : Width) (d a : R) (off : BitVec 12) (s : State) (m : Mach) (p : Pg),
    let ea := (s.mach.rs a + off.signExtend 64).toNat
    let e : SBEnt := { line := p.key - p.key % 64, mask := (256 ^ w.bytes - 1) * 256 ^ (p.key % 64),
                       data := (s.mach.rs d).toNat % 256 ^ w.bytes * 256 ^ (p.key % 64), pub := p.pubrid, cyc := m.ccyc s.now,
                       va := ea - p.key % 64, span := p.span, seq := m.seq }
    s.onScalar → ea % w.bytes = 0 → s.mach.xlat s.mach.cur ea { wr := true } = .ok (m, p) → p.tgt ≠ 0 →
    (∃ t, exec (.st w d a off) s = .next t ∧ (s.on (m.enter s.now m.cur [e])).Retired t []) ∧
    (m.redFreeze = none → ∃ t, exec (.stRel w d a off) s = .next t ∧
      (s.on (m.enter s.now m.cur [{ e with rel := if p.tgt = 1 || p.sysat then 3 else 2 }])).Retired t [])

/-- R278: a misaligned scalar access raises ALIGN with its address, before any translation. -/
def Obligations.MisalignedAccessesFault : Prop :=
  ∀ (w : Width) (d a : R) (off : BitVec 12) (s : State) (i : Instr),
    let ea := (s.mach.rs a + off.signExtend 64).toNat
    ea % w.bytes ≠ 0 → i = .ld w d a off ∨ i = .ldAcq w d a off ∨ i = .st w d a off ∨ i = .stRel w d a off →
    ∃ t, exec i s = .next t ∧ s.Raises t { code := .align, fva := ea }

/-! ### Atomics -/

/-- R281 to R284, R268: an aligned atomic whose page translates and is in no publishable region, and which its stream may place there,
leaves for its place with its operands; AMO holds its stream until the reply, RED retires at once. R264 to R267, R288: a sequentially consistent operation in an owned position, on an aligned address whose page translates, holds
its stream with its operation in flight, ordered by the wheel point at which its cycle starts; a ranger's gets its place as it arrives
(R290). -/
def Obligations.AtomicsIssue : Prop :=
  (∀ (op : AOp) (w64 : Bool) (d a b : R) (s : State) (m : Mach) (p : Pg),
    let n := if w64 then 8 else 4
    let ea := (s.mach.rs a).toNat
    let free := (2 ≤ p.aplace ∨ s.mach.cs.isRanger = true ∨ (if m.cj.fixed then m.slotOk s.now (p.home 0) = true else m.cs.phases ≠ 0))
      ∧ p.pub = 0 ∧ m.unstarted m.cs.job (p.home 0) = none ∧ m.cs.holds (p.home 0) n = false
    s.onScalar → ea % n = 0 → free →
    (s.mach.xlat s.mach.cur ea { rd := true, wr := true } = .ok (m, p) →
      ∃ t x, exec (.amo op w64 d a b) s = .next t ∧ t.mach.atoms = m.atoms ++ [x] ∧ t.mach.cs.hold = .atomic x.id ∧
        x.op = op ∧ x.form = 0 ∧ x.w64 = w64 ∧ x.home = p.home 0 ∧ x.opnd = s.mach.rs b ∧ x.cmp = s.mach.rs d ∧ x.d = some d ∧
        x.sid = s.mach.cur ∧ t.mach.homes = m.homes ∧ t.mach.cs.regs = s.mach.cs.regs ∧ t.mach.pend = s.mach.pend) ∧
    (s.mach.xlat s.mach.cur ea { wr := true } = .ok (m, p) →
      ∃ t x q, exec (.red op w64 a b) s = .next t ∧ q.atoms = m.atoms ++ [x] ∧ (s.on q).Retired t [] ∧
        q = { m with atoms := q.atoms, streams := q.streams, agenda := q.agenda, seq := q.seq, fresh := q.fresh, ccs := q.ccs,
                     ctxs := q.ctxs, lanes := q.lanes } ∧
        q.cs.regs = s.mach.cs.regs ∧
        x.op = op ∧ x.form = 0 ∧ x.w64 = w64 ∧ x.home = p.home 0 ∧ x.opnd = s.mach.rs b ∧ x.d = none ∧ x.flt = none)) ∧
  (∀ (op : AOp) (w64 : Bool) (d a b : R) (s : State) (m : Mach) (p : Pg),
    let n := if w64 then 8 else 4
    let ea := (s.mach.rs a).toNat
    let sends (i : Instr) (form : Nat) (o : AOp) (dst : Option R) (opnd : Word) : Prop :=
      ∃ t x, exec i s = .next t ∧ t.mach.atoms = m.atoms ++ [x] ∧ t.mach.cs.hold = .atomic x.id ∧ x.form = form ∧ x.op = o ∧
        x.w64 = w64 ∧ x.home = p.home 0 ∧ x.d = dst ∧ x.opnd = opnd ∧ x.sc = true ∧
        x.point = (if s.mach.cs.isRanger = true then scFar else m.scPoint s.now) ∧
        t.mach.homes = m.homes ∧ t.mach.cs.regs = s.mach.cs.regs ∧ t.mach.pend = s.mach.pend
    s.mach.scOwned s.now = true → ea % n = 0 → p.pub = 0 → m.unstarted m.cs.job (p.home 0) = none →
    m.cs.holds (p.home 0) n = false → (s.mach.cs.isRanger = true ∨ s.mach.cj.fixed = true ∨ fld s.mach.cs.wheel 0 6 ≠ 0) →
    (s.mach.xlat s.mach.cur ea { rd := true } = .ok (m, p) → sends (.scLd w64 d a) 1 .add (some d) 0) ∧
    (m.redFreeze = none →
      (s.mach.xlat s.mach.cur ea { wr := true } = .ok (m, p) → sends (.scSt w64 a b) 2 .add none (s.mach.rs b)) ∧
      (s.mach.xlat s.mach.cur ea { rd := true, wr := true } = .ok (m, p) →
        sends (.scAmo op w64 d a b) 0 op (some d) (s.mach.rs b))))

/-- R268, R271, R281, R267: accepted at a unit, or in its slot of a bank, an atomic performs at its home once and nothing else in memory
changes; a unit accepts no request in the cycle of its arrival, one a cycle after that, and none ahead of an earlier one or a lower port.
The reply then writes the old value and the stream goes on. R271, R266, R267, R289, R284, R286: an atomic that arrives at its bank is given a slot of it; a sequentially consistent operation waits
for its release half and for every earlier one of the total order, then takes its turn at a unit; one held for an owned position goes on in
it; a request without a reply for 10 µs goes again up to four times; a reduction that faulted is dropped and recorded. -/
def Obligations.AtomicsPerform : Prop :=
  (∀ (s : State) (a : Atom), s.mach.atom? (s.mach.arg 0) = some a →
    (a.done = none → a.source = none → a.red = none → badIn s.mach.homes a.home a.bytes = false → a.form < 3 →
      let u := placeOf a.place a.home
      let c := s.now / 48
      let performs (i : Instr) : Prop := ∃ t, exec i s = .next t ∧ t.now = s.now ∧ s.mach.Performed t.mach a
      (isHost a.home = true → performs .atomicUnitServe) ∧
      (isHost a.home = false → s.mach.ev.length = 1 →
        ∃ t, exec .atomicUnitServe s = .next t ∧ t.mach = { s.mach with agenda := t.mach.agenda } ∧
          ((c + 1) * 48, .atomicUnitServe, [a.id, c]) ∈ t.mach.agenda) ∧
      (isHost a.home = false → s.mach.ev.length ≠ 1 → sget s.mach.units u 0 ≠ c + 1 →
        s.mach.agenda.find? (fun e => s.mach.unitBefore e u (s.mach.arg 1) (s.mach.atomPort a) a.id) = none → performs .atomicUnitServe) ∧
      (s.mach.arg 1 ≠ 0 → performs .atomicSlotServe) ∧
      (s.mach.arg 3 = 1 → performs .scEffect)) ∧
    (∀ v d, a.done = some v → a.d = some d → a.mbox = none → (s.mach.str a.sid).hold = .atomic a.id →
      (s.mach.str a.sid).sel.cls = .scalar →
      ∃ t, exec .atomicReply s = .next t ∧ (t.mach.str a.sid).hold = .none ∧ (t.mach.str a.sid).fq0 = (s.mach.str a.sid).fq1 ∧
        ∀ r, (t.mach.str a.sid).rd r = if r = 0 then 0 else if r = d then v else (s.mach.str a.sid).rd r)) ∧
  (∀ (s : State),
    (∀ a, s.mach.atom? (s.mach.arg 0) = some a → s.mach.arg 1 = 0 →
      ∃ t, exec .atomicSlotServe s = .next t ∧ t.mach = { s.mach with agenda := t.mach.agenda } ∧
        (s.mach.agenda.all (fun e => e.2.1 != .atomicSlotServe && e.2.1 != .scEffect) = true →
          ∃ tick k, (tick, .atomicSlotServe, [a.id, k]) ∈ t.mach.agenda)) ∧
    (∀ a, s.mach.atom? (s.mach.arg 0) = some a → s.mach.arg 3 ≠ 1 → a.done = none → a.point ≠ scFar →
      let waits := (s.mach.arg 1 ≠ 0 ∧ (s.mach.str a.sid).drained (cxPart a.cx) (s.mach.arg 1) (s.mach.arg 2) = false) ∨
        s.mach.atoms.any (fun b => b.sc && b.done.isNone && b.point < a.point) = true
      (waits → ∃ t, exec .scEffect s = .next t ∧ t.mach = { s.mach with agenda := t.mach.agenda } ∧
        (s.now + 21, .scEffect, s.mach.ev) ∈ t.mach.agenda) ∧
      (¬waits → 2 ≤ a.place → ∃ t, exec .scEffect s = .next t ∧ t.mach = { s.mach with agenda := t.mach.agenda } ∧
        (s.now, .atomicUnitServe, [a.id]) ∈ t.mach.agenda)) ∧
    (∃ t, exec .scPositionReached s = .next t ∧
      ((s.mach.str (s.mach.arg 0)).hold = .scPos → t.mach.str (s.mach.arg 0) = { s.mach.str (s.mach.arg 0) with hold := .none }) ∧
      ∀ i, i ≠ s.mach.arg 0 → t.mach.str i = s.mach.str i) ∧
    (∀ a, s.mach.atom? (s.mach.arg 0) = some a → a.flt = none → a.resends < 4 →
      ∃ t, exec .seqAtomicResend s = .next t ∧ t.mach.atom? a.id = some { a with resends := a.resends + 1 } ∧
        (s.now + 10000 * 84, .seqAtomicResend, [a.id]) ∈ t.mach.agenda ∧ t.mach.homes = s.mach.homes) ∧
    ∀ a, s.mach.atom? (s.mach.arg 0) = some a → (s.mach.ctx a.cx).rfrecs.length < 16 →
      ∃ t, exec .redFaultLog s = .next t ∧ (t.mach.ctx a.cx).rfpend = true ∧ t.mach.atom? a.id = none ∧
        (t.mach.ctx a.cx).rfrecs =
          (s.mach.ctx a.cx).rfrecs ++ [{ va := a.va, w1 := a.place, opnd := a.opnd, time := s.now / 84 }] ∧
        t.mach.homes = s.mach.homes)

/-! ### Fences, publication, invalidation -/

/-- R256, R257, R292: FENCE holds its stream for the entries it covers; when they have performed it goes on with a snapshot of the
homes. No register and no byte of memory changes. -/
def Obligations.FencesReleaseAndRefresh : Prop :=
  ∀ (s : State),
    (∀ z, s.mach.redFreeze = none →
      ∃ t, exec (.fence z) s = .next t ∧ s.Held t (.release (.fence z) z.code s.mach.seq) []) ∧
    ∀ z sc q, (s.mach.str (s.mach.arg 0)).hold = .release (.fence z) sc q → (s.mach.str (s.mach.arg 0)).state ≠ .frozen →
      (s.mach.str (s.mach.arg 0)).sel.cls = .scalar →
      (s.mach.str (s.mach.arg 0)).sb.all (fun e => q ≤ e.seq ||
        !inScope (s.mach.str (s.mach.arg 0)).sel (cxPart (s.mach.job (s.mach.str (s.mach.arg 0)).job).cx) sc e.line) = true →
      ∃ t, exec .releaseComplete s = .next t ∧ s.Replied t (s.mach.arg 0) 0 0 ∧ (t.mach.str (s.mach.arg 0)).snap = t.mach.homes ∧
        s.SameMemory t

/-- R262, R263, R294: PUBL of a registered page's region is held until T; at T every byte of the region that the draft holds stands
at its home, the draft is empty, and the stream goes on. -/
def Obligations.Publication : Prop :=
  ∀ (s : State),
    (∀ a m p, s.mach.publPage (s.mach.rs a).toNat = .ok (m, p) → p.pub ≠ 0 →
      s.mach.publs.any (fun q => q.sid == s.mach.cur) = false →
      ∃ t q, exec (.publ a) s = .next t ∧ t.mach.cs.hold = .publ q.id ∧ q ∈ t.mach.publs ∧ q.sid = s.mach.cur ∧
        q.pubrid = p.pub ∧ q.cx = m.cj.cx ∧ t.mach.homes = m.homes) ∧
    ∀ p r, s.mach.publs.find? (fun q => q.id == s.mach.arg 0) = some p → (s.mach.ctx p.cx).region p.pubrid = some r →
      (r.draft.map (·.1)).Nodup →
      ∃ t, exec .publPublish s = .next t ∧ t.now = s.now ∧
        ((t.mach.ctx p.cx).region p.pubrid).map (·.draft) = some [] ∧
        (∀ a, ∃ k : Byte, k &&& ~~~0x10 = 0 ∧ homeByte t.mach.homes a = r.draftByte s.mach.homes a ||| k) ∧
        ((s.mach.str p.sid).hold = .publ p.id → (s.mach.str p.sid).sel.cls = .scalar → s.Replied t p.sid 0 0) ∧
        ((s.mach.str p.sid).hold = .publ p.id → (s.mach.str p.sid).sel.cls ≠ .scalar → (t.mach.str p.sid).hold = .none)

/-- R293: PUBREG checks its pages at issue and is held; at its completion a region not yet known is registered, a known one released
when the length is 0, and Sd gets the status. -/
def Obligations.RegionRegistration : Prop :=
  ∀ (s : State) (d a b : R),
    let base := (s.mach.rs a).toNat
    let twin := (s.mach.rs b).toNat
    let len := (s.mach.rs d).toNat
    (∀ m p m', s.mach.xlat s.mach.cur base {} = .ok (m, p) → len ≠ 0 → len % 4096 = 0 → base % 4096 = 0 → twin % 4096 = 0 →
      m.pubregPages base twin p.pubrid (len / 4096) 0 = .ok m' →
      ∃ t, exec (.pubreg d a b) s = .next t ∧
        (s.on (m'.after s.now (4000 * 84) .pubregComplete [m'.cur])).Held t (.pubreg d p.pubrid base len twin 0) []) ∧
    (∀ m p, s.mach.xlat s.mach.cur base {} = .ok (m, p) → len = 0 → p.pubrid ≠ 0 →
      ∃ t, exec (.pubreg d a b) s = .next t ∧
        (s.on (m.after s.now (4000 * 84) .pubregComplete [m.cur])).Held t (.pubreg d p.pubrid base 0 0 0) []) ∧
    ∀ dst id bs n tw k, (s.mach.str (s.mach.arg 0)).hold = .pubreg dst id bs n tw k →
      (s.mach.str (s.mach.arg 0)).state ≠ .frozen → (s.mach.str (s.mach.arg 0)).sel.cls = .scalar →
      let cx := (s.mach.job (s.mach.str (s.mach.arg 0)).job).cx
      ∃ t, exec .pubregComplete s = .next t ∧
        ((s.mach.ctx cx).region id = none → n ≠ 0 → (s.mach.ctx cx).regions.length < 64 →
          s.Replied t (s.mach.arg 0) dst 0 ∧ (t.mach.ctx cx).regions =
            (s.mach.ctx cx).regions ++ [{ pubrid := id, base := bs, len := n, twin := tw }]) ∧
        ((s.mach.ctx cx).region id ≠ none → n = 0 →
          s.Replied t (s.mach.arg 0) dst 0 ∧ (t.mach.ctx cx).region id = none) ∧
        ((s.mach.ctx cx).region id ≠ none → n ≠ 0 → (s.mach.ctx cx).regions.length < 64 → s.Replied t (s.mach.arg 0) dst 2)

/-- R381 to R383, R285: a write of XINVC starts an invalidation and BUSY stands; a slice then holds none of its translations, then no
stream of a die it was forwarded to does; when all have acknowledged the ranger's BUSY falls. A one in RFSTAT.PEND empties the log. -/
def Obligations.Invalidations : Prop :=
  ∀ (s : State),
    (∀ p v, s.mach.pend.find? (fun q => q.id == s.mach.arg 0) = some p → p.eff = .creg 0x311 v →
      (∃ t x, exec .xinvPage s = .next t ∧ t.mach.invs = s.mach.invs ++ [x] ∧ x.cx = ccCx p.cc ∧ x.all = false ∧
        x.va = ((s.mach.cct p.cc).creg 0x310).toNat ∧ x.psz = fld v.toNat 9 3 ∧ x.ranger = some p.cc ∧
        ((t.mach.cct p.cc).creg 0x311).getLsbD 63 = true) ∧
      (∃ t x, exec .xinvContext s = .next t ∧ t.mach.invs = s.mach.invs ++ [x] ∧ x.cx = ccCx p.cc ∧ x.all = true ∧
        x.ranger = some p.cc ∧ ((t.mach.cct p.cc).creg 0x311).getLsbD 63 = true)) ∧
    (∀ v, s.mach.invs.find? (fun x => x.id == s.mach.arg 0) = some v →
      (v.slices.contains (s.mach.arg 1) = true → ∃ t, exec .invalidationForward s = .next t ∧ t.now = s.now ∧
        ∀ x ∈ sget t.mach.slices (cxPart v.cx * 64 + s.mach.arg 1) [], v.hits x = false) ∧
      (v.dies.contains (s.mach.arg 1) = true → ∃ t, exec .invalidationDieAck s = .next t ∧ t.now = s.now ∧
        ∀ q ∈ t.mach.streams, q.2.sel.kind * 16 + q.2.sel.ldie = s.mach.arg 1 → (s.mach.job q.2.job).cx = v.cx →
          ∀ x ∈ q.2.l1, v.hits x = false) ∧
      (∀ cc, v.admin = none → v.ranger = some cc → ∃ t, exec .invalidationComplete s = .next t ∧
        ((t.mach.cct cc).creg 0x311).getLsbD 63 = false ∧ t.mach.invs = s.mach.invs.filter (fun x => x.id != v.id))) ∧
    ∀ p v, s.mach.pend.find? (fun q => q.id == s.mach.arg 0) = some p → p.eff = .creg 0x150 v → v.getLsbD 0 = true →
      ∃ t, exec .rfstatPendClear s = .next t ∧ (t.mach.ctx (ccCx p.cc)).rfrecs = [] ∧ (t.mach.ctx (ccCx p.cc)).rfpend = false ∧
        (t.mach.ctx (ccCx p.cc)).rfovf = 0

/-! ### Phasers -/

/-- R295, R297 to R302: a legal phaser name sends registrations, drops and signals to its engine; PHWAIT waits in WAIT_PHASER; PHQ
answers at issue + R − 1. -/
def Obligations.PhaserWords : Prop :=
  ∀ (s : State) (d a b : R) (md : PhMode) (key : Nat), s.mach.phName (s.mach.rs a) = some key →
    let p := s.mach.phaser key
    let cyc := s.mach.ccyc s.now
    let asks (i : Instr) (req mode dst target : Nat) : Prop :=
      ∃ t id tick, exec i s = .next t ∧ t.mach.cs = { s.mach.cs with hold := .phSend id (.ph 3 key cyc (BitVec.ofNat 5 dst) target) } ∧
        (tick, .phaserReply, [s.mach.cur, id, req, key, mode, dst, target]) ∈ t.mach.agenda ∧ t.mach.phs = s.mach.phs
    (s.mach.cs.kept = [] → asks (.phreg md d a) 0 md.code d.toNat s.mach.cur) ∧
    asks (.phdrop a) 1 0 0 s.mach.cur ∧
    (∀ i, s.mach.proxy d b = .ok i → asks (.phdropProxy d a b) 1 0 0 i) ∧
    (∀ x, p.member s.mach.cur = some x → s.mach.cs.kept = [] →
      (x.signals = true → s.mach.redFreeze = none → ∃ t, exec (.phsig a) s = .next t ∧
        s.Held t (.release (.ph 0 key cyc 0 s.mach.cur) (if phPkg key then 2 else 1) s.mach.seq) []) ∧
      (x.mode = .sw → s.mach.redFreeze = none → ∃ t, exec (.phsw d a) s = .next t ∧
        s.Held t (.release (.ph 1 key cyc d s.mach.cur) (if phPkg key then 2 else 1) s.mach.seq) []) ∧
      (x.waits = true → ∃ t, exec (.phwait d a) s = .next t ∧
        t.mach.cs = { s.mach.cs with state := .waitPhaser, hold := .phWait d key cyc 0 } ∧ t.mach.phs = s.mach.phs)) ∧
    (∀ i x, s.mach.proxy d b = .ok i → p.member i = some x → x.signals = true → ∃ t, exec (.phsigp d a b) s = .next t ∧
      s.Held t (.release (.ph 2 key cyc 0 i) (if phPkg key then 2 else 1) s.mach.seq) []) ∧
    (s.onScalar → p.members.length < 256 → p.ph < 2 ^ 32 → (p.members = [] ∨ p.cx = s.mach.cj.cx) →
      ∃ t v, exec (.phq d a) s = .next t ∧
        s.Retired t [s.resultAt 0 (cyc + s.mach.cj.latOf 13 + (if phPkg key then 48 else 0) - 1) 0 (.reg d.toNat v) (s.mach.cj.lateOf 13)] ∧
        v.toNat / 2 ^ 32 = p.ph ∧ fld v.toNat 24 8 = (p.members.filter (·.signals)).length ∧ fld v.toNat 8 8 = p.members.length)

/-- R296 to R300: at the engine a registration adds a member at the present phase, a signal counts for its member, the phase advances
when every signaller has signalled it, and a wait completes with the member's WC. -/
def Obligations.PhaserEngine : Prop :=
  ∀ (s : State) (key : Nat),
    let sid := s.mach.arg 0
    let p := s.mach.phaser key
    (∀ id b, (s.mach.str sid).hold = .phSend id b → (s.mach.str sid).sel.cls = .scalar → id = s.mach.arg 1 → s.mach.arg 2 = 0 →
      s.mach.arg 3 = key → s.mach.signalNear s.now key = none → p.member sid = none → p.members.length < 255 →
      (p.members = [] ∨ p.cx = (s.mach.job (s.mach.str sid).job).cx) →
      ∃ t x, exec .phaserReply s = .next t ∧ s.Replied t sid (BitVec.ofNat 5 (s.mach.arg 5)) (BitVec.ofNat 64 p.ph) ∧
        (t.mach.phaser key).members = p.members ++ [x] ∧ x.sid = sid ∧ x.sc = p.ph ∧ x.wc = p.ph) ∧
    (∀ id k cyc d target x, (s.mach.str sid).hold = .phSend id (.ph k key cyc d target) → id = s.mach.arg 1 →
      p.member target = some x → x.signals = true → x.sc = p.ph → (∀ y ∈ p.members, y.ahead = none) →
      (∀ y ∈ p.members, y.sid = target → y = x) →
      ∃ t, exec .phaserSignalArrival s = .next t ∧ t.now = s.now ∧
        ((t.mach.phaser key).member target).map (·.sc) = some ((p.ph + 1) % 2 ^ 32) ∧
        ((∃ y ∈ p.members, y.sid ≠ target ∧ y.signals = true ∧ y.sc = p.ph) → (t.mach.phaser key).ph = p.ph) ∧
        ((∀ y ∈ p.members, y.sid ≠ target → y.signals = true → y.sc = (p.ph + 1) % 2 ^ 32) →
          (t.mach.phaser key).ph = (p.ph + 1) % 2 ^ 32)) ∧
    ∀ d cyc sig x due, (s.mach.str sid).hold = .phWait d key cyc sig → sig ≠ 2 → (s.mach.str sid).state = .waitPhaser →
      (s.mach.str sid).sel.cls = .scalar → s.mach.phWaitDue sid = some due → due ≤ s.now → p.member sid = some x →
      ∃ t, exec .phwaitComplete s = .next t ∧ s.Replied t sid d (BitVec.ofNat 64 x.wc) ∧ (t.mach.str sid).state = .running ∧
        (t.mach.str sid).snap = t.mach.homes ∧ ((t.mach.phaser key).member sid).map (·.wc) = some ((x.wc + 1) % 2 ^ 32)

/-! ### Copies -/

/-- R304 to R306, R308: a copy whose ticket is free and whose rows all translate is accepted: it is listed with its ranges, its ticket
holds its promise, which is at least 8 × LAT(15) ns ahead, and Sd gets the ticket word under class 0. Nothing is copied yet. A descriptor
in host memory holds its word until it has come. -/
def Obligations.CopiesAccepted : Prop :=
  ∀ (s : State) (d a b : R),
    let accepts (i : Instr) (m m' : Mach) (hs hd : Bool) (c : Copy) : Prop :=
      m.ticketCopy m.cur m.cs.nextTicket = none → m.cs.kept = [] → c.rowb ≠ 0 → m.copyCheck c = .ok (m', hs, hd) →
      ∃ t q x, exec i s = .next t ∧ q.copies = s.mach.copies ++ [x] ∧
        (s.on q).Retired t [(s.on q).result 0 0 0
          (.reg d.toNat (BitVec.ofNat 64 (2 ^ 63 + s.mach.cs.nextTicket * 2 ^ 56 + x.promise % 2 ^ 56)))] ∧
        x.dst = c.dst ∧ x.src = c.src ∧ x.rows = c.rows ∧ x.rowb = c.rowb ∧ x.dp = c.dp ∧ x.sp = c.sp ∧ x.idx = c.idx ∧
        s.now / 84 + 8 * s.mach.cj.latOf 15 ≤ x.promise ∧
        { n := s.mach.cs.nextTicket, copy := x.id, promise := x.promise } ∈ q.cs.tickets ∧
        q.cs.regs = s.mach.cs.regs ∧ q.homes = m'.homes
    let mk (m : Mach) (dst src rows rowb : Nat) (dp sp : Int) (idx : Option (List Nat)) (eng : Nat) : Copy :=
      { id := 0, sid := m.cur, job := m.cs.job, cc := m.ccc, cx := m.cj.cx, dst := dst, src := src, rows := rows, rowb := rowb,
        dp := dp, sp := sp, idx := idx, engine := eng }
    s.onScalar →
    (let n := (s.mach.rs d).toNat
     let dst := (s.mach.rs a).toNat
     let src := (s.mach.rs b).toNat
     n ≤ 2 ^ 40 → (dst + n ≤ src ∨ src + n ≤ dst) →
      ∀ m' hs hd, accepts (.cpy d a b) s.mach m' hs hd (mk s.mach dst src 1 n 0 0 none 0)) ∧
    let ea := (s.mach.rs a).toNat
    let reads (m1 : Mach) (p : Pg) (ws : List Nat) : Prop :=
      s.mach.scalarPage ea 64 { rd := true } false = .ok (m1, p) ∧ m1.unstarted m1.cs.job (p.home 0) = none ∧ m1.pgBad p 64 = false ∧
        m1.descWords p = ws
    (∀ m1 p ws, reads m1 p ws → p.tgt = 1 →
      (∃ t, exec (.cpy2d d a) s = .next t ∧ (s.on (m1.awaitHost s.now)).Held t (.desc false ws d) []) ∧
      ((s.mach.part s.mach.cpart).lcount 3 ≠ 0 →
        ∃ t, exec (.gemb d a) s = .next t ∧ (s.on (m1.awaitHost s.now)).Held t (.desc true ws d) [])) ∧
    (∀ m1 p dst src rows rowb dp sp m' hs hd, reads m1 p [dst, src, rows * 2 ^ 32 + rowb, dp, sp, 0, 0, 0] → p.tgt ≠ 1 →
      let m := m1.softPg p 64
      rows < 2 ^ 32 → rowb < 2 ^ 32 → rows ≠ 0 → rowb ≠ 0 → (rows = 1 ∨ rowb ≤ (sInt 64 dp).natAbs) → rows * rowb ≤ 2 ^ 40 →
      rowsMeet dst src (sInt 64 dp) (sInt 64 sp) rows rowb = false →
      accepts (.cpy2d d a) m m' hs hd (mk m dst src rows rowb (sInt 64 dp) (sInt 64 sp) none 0)) ∧
    ∀ m0 p table idx dst nrows count dp rowb eng l m1 m' hs hd,
      reads m0 p [table, idx, dst, nrows * 2 ^ 32 + count, dp * 2 ^ 32 + rowb, eng * 2 ^ 61, 0, 0] → p.tgt ≠ 1 →
      let m := m0.softPg p 64
      idx % 4 = 0 → nrows ≠ 0 → nrows < 2 ^ 32 → count ≠ 0 → count ≤ 65536 → rowb ≠ 0 → rowb ≤ 65536 → rowb ≤ dp → dp < 2 ^ 32 →
      eng < 8 → eng < (s.mach.part s.mach.cpart).lcount 3 → m.indexList idx count 0 = .ok (m1, l) →
      l.all (fun x => x == 0xFFFFFFFF || x < nrows) = true →
      accepts (.gemb d a) m1 m' hs hd (mk m dst table count rowb dp 0 (some l) eng)

/-- R309, R311: WAITT of a time that has come, or of a ticket whose copy is complete, retires (a ticket's also refreshes); before
the time the stream sleeps. CPYPROM answers status 3 for an unknown ticket, else the copy's status and promise. R309, R308, R312: a stream that sleeps to a time goes on at it; a stack's pause lasts 3.2 µs, a pause scheduled at least 20 µs
ahead counts toward promises, a training error pauses at once, and the host link takes its new width. -/
def Obligations.PromiseWords : Prop :=
  (∀ (s : State) (d a : R),
    let v := (s.mach.rs a).toNat
    s.onScalar →
    (v < 2 ^ 63 →
      (v ≤ s.now / 84 → ∃ t, exec (.waitt a) s = .next t ∧ s.Retired t []) ∧
      (s.now / 84 < v → ∃ t, exec (.waitt a) s = .next t ∧ (s.on (s.mach.at (v * 84) .waittWake [s.mach.cur])).Held t (.sleep v none) [])) ∧
    (2 ^ 63 ≤ v → ∀ tk c, s.mach.ticketCopy s.mach.cur (fld v 56 7) = some (tk, c) → c.failed = false → c.complete = true →
      (fld v 0 56 ≤ s.now / 84 % 2 ^ 56 → ∃ t, exec (.waitt a) s = .next t ∧ (s.on (s.mach.refresh s.mach.cur)).Retired t []) ∧
      s.yields (.cpyprom d a) 0 d (BitVec.ofNat 64 (2 ^ 62 + tk.promise % 2 ^ 56))) ∧
    (2 ^ 63 ≤ v → s.mach.ticketCopy s.mach.cur (fld v 56 7) = none → s.yields (.cpyprom d a) 0 d (BitVec.ofNat 64 (3 * 2 ^ 62)))) ∧
  (∀ (s : State),
    (∀ ns, (s.mach.str (s.mach.arg 0)).hold = .sleep ns none → (s.mach.str (s.mach.arg 0)).state ≠ .frozen → ns * 84 ≤ s.now →
      (s.mach.str (s.mach.arg 0)).sel.cls = .scalar → ∃ t, exec .waittWake s = .next t ∧ s.Replied t (s.mach.arg 0) 0 0) ∧
    (∃ t, exec .retrainingSchedule s = .next t ∧
      (max s.now (s.mach.arg 2 * 84), .retrainingPauseStart, [s.mach.arg 0, s.mach.arg 1]) ∈ t.mach.agenda ∧
      (s.now / 84 + 20000 ≤ s.mach.arg 2 →
        (t.mach.die (s.mach.arg 0)).sched = (s.mach.die (s.mach.arg 0)).sched ++ [(s.mach.arg 1, s.mach.arg 2)])) ∧
    (∃ t, exec .retrainingPauseStart s = .next t ∧ s.mach.arg 1 ∈ (t.mach.die (s.mach.arg 0)).paused ∧
      (s.now + 3200 * 84, .retrainingPauseEnd, [s.mach.arg 0, s.mach.arg 1]) ∈ t.mach.agenda) ∧
    (∃ t, exec .retrainingPauseEnd s = .next t ∧ s.mach.arg 1 ∉ (t.mach.die (s.mach.arg 0)).paused) ∧
    (∃ t, exec .trainingError s = .next t ∧ (s.now, .retrainingPauseStart, [s.mach.arg 0, s.mach.arg 1]) ∈ t.mach.agenda) ∧
    ∃ t, exec .hostLinkRetrain s = .next t ∧ t.mach = { s.mach with hostWidth := if s.mach.arg 0 = 8 then 8 else 16 })

/-- R273, R307, R309, R310, R312: a copy engine writes the next packet of a copy: its destination homes hold the bytes of its source homes
as they stood, and nothing else in memory changes. The last packet completes the copy; a promise that falls due first faults the WAITT
that waits on it. -/
def Obligations.CopyEngines : Prop :=
  ∀ (s : State) (c : Copy), s.mach.copy? (s.mach.arg 0) = some c →
    let i := if c.dp < 0 then c.rows - 1 - c.pos / c.perRow else c.pos / c.perRow
    let k := c.pos % c.perRow
    let n := min 512 (c.rowb - 512 * k)
    (∀ hs hd, c.idx = none → c.complete = false → c.failed = false →
      s.mach.copies.any (fun o => o.engine == c.engine && !o.complete && !o.failed && o.id < c.id) = false →
      s.mach.copyHomes c.cx (wrapN 64 ((c.src : Int) + c.sp * i) + 512 * k) n { rd := true } = some hs →
      s.mach.copyHomes c.cx (wrapN 64 ((c.dst : Int) + c.dp * i) + 512 * k) n { wr := true } = some hd →
      (hd.map (·.1)).Nodup → s.mach.homes.bad = [] → (s.mach.str c.sid).sb = [] →
      (hs ++ hd).any (fun h => s.mach.homePaused (cxPart c.cx) h.1) = false →
      (hs ++ hd).any (fun h => (s.mach.unstarted c.job h.1).isSome) = false →
      s.mach.portFirst s.now (cxPart c.cx) (s.mach.enginePort (cxPart c.cx) c.engine (hd.headD (0, false)).1) (hd.map (·.1)) = none →
      ∃ t, exec .copyPacketWrite s = .next t ∧ t.now = s.now ∧
        (∀ j, j < n → homeByte t.mach.homes ((hd.map (·.1)).getD j 0) = homeByte s.mach.homes ((hs.map (·.1)).getD j 0)) ∧
        (∀ x, x ∉ hd.map (·.1) → homeByte t.mach.homes x = homeByte s.mach.homes x) ∧
        t.mach.copy? c.id = some { c with pos := c.pos + 1 }) ∧
    (∃ t, exec .copyComplete s = .next t ∧ t.mach.copy? c.id = some { c with complete := true } ∧ s.SameMemory t ∧
      ∀ ns w tk, (s.mach.str c.sid).hold = .sleep ns (some w) → (s.mach.str c.sid).state ≠ .frozen → ns * 84 ≤ s.now →
        (s.mach.str c.sid).sel.cls = .scalar → s.mach.ticketCopy c.sid w = some (tk, c) → s.Replied t c.sid 0 0) ∧
    ∀ ns w tk, (s.mach.str c.sid).hold = .sleep ns (some w) → (s.mach.str c.sid).state ≠ .frozen → ns * 84 ≤ s.now →
      s.mach.ticketCopy c.sid w = some (tk, c) → c.complete = false → c.failed = false → tk.promise * 84 ≤ s.now → tk.missed = false →
      ∃ t, exec .promiseDue s = .next t ∧ t = s.on (((({ s.mach with cur := c.sid } : Mach).markMissed c.sid c.id).takeFreeze
        s.now c.sid { code := .promiseMissed }).missPause s.now)

/-! ### Control flow -/

/-- R321 to R326: a taken branch or a jump makes its target the word after the two delay slots; the null forms annul the slots when not
taken (NN) or when taken (NT); the target counts in words from the branch's own word, modulo 2^24; JL and JLR link the third word
after the jump. -/
def Obligations.BranchesAndJumps : Prop :=
  ∀ (s : State) (cc : Cond) (d a b : R) (off : BitVec 11) (jo : BitVec 25), s.onScalar →
    let taken := condHolds cc (s.mach.rs a) (s.mach.rs b)
    let own : Int := s.mach.cs.fq0.waddr
    let target := ((own + off.toInt) % 2 ^ 24).toNat
    let jump := ((own + jo.toInt) % 2 ^ 24).toNat
    let link := BitVec.ofNat 64 (4 * s.mach.cs.fq0.waddr + 12)
    let goes (i : Instr) (tgt : Option Nat) (nul : Bool) (ps : List Pend) : Prop := ∃ t, exec i s = .next t ∧ s.Branched t tgt nul ps
    (taken → goes (.brCc cc a b off) (some target) false [] ∧ goes (.brCcNn cc a b off) (some target) false [] ∧
      goes (.brCcNt cc a b off) (some target) true []) ∧
    (¬taken → goes (.brCc cc a b off) none false [] ∧ goes (.brCcNn cc a b off) none true [] ∧
      goes (.brCcNt cc a b off) none false []) ∧
    goes (.j jo) (some jump) false [] ∧
    goes (.jl jo) (some jump) false (s.writes 0 31 link) ∧
    ((s.mach.rs a).toNat % 4 = 0 →
      goes (.jr a) (some ((s.mach.rs a).toNat / 4 % 2 ^ 24)) false [] ∧
      goes (.jlr d a) (some ((s.mach.rs a).toNat / 4 % 2 ^ 24)) false (s.writes 0 d link)) ∧
    ((s.mach.rs a).toNat % 4 ≠ 0 → ∀ i, i = .jr a ∨ i = .jlr d a →
      ∃ t, exec i s = .next t ∧ s.Raises t { code := .align, fva := (s.mach.rs a).toNat })

/-! ### System words -/

/-- R340 to R342, R406: HALT is held for its release half while the stop of its job is on its way, due 39 cycles later in fixed timing; TRAP
counts as executed and freezes the job with its code and its word's address; TFENCE retires when every earlier result is written and no enabled flag stands; YIELD retires in fixed timing and
for a ranger, else the region gives up its slot. -/
def Obligations.SystemWords : Prop :=
  ∀ (s : State),
    let j := s.mach.cs.job
    let next := s.mach.jobTick j s.mach.clc (s.mach.ccyc s.now + 1)
    let id := if s.mach.cj.haltId = 0 then s.mach.seq + 1 else s.mach.cj.haltId
    let q := s.on (({ s.mach with seq := s.mach.seq + 1 } : Mach).modJob j (fun x => { x with haltId := id }))
    s.onScalar →
    (s.mach.cs.isRanger = true → ∃ t, exec .halt s = .next t ∧ s.Held t (.release .halt 2 s.mach.seq) []) ∧
    (s.mach.cs.isRanger = false → s.mach.cj.fixed = true →
      ∃ t, exec .halt s = .next t ∧ q.Held t (.release .halt 2 (s.mach.seq + 2)) [q.resultAt 0 (s.mach.ccyc s.now + 39) 0 .halt]) ∧
    (s.mach.cs.isRanger = false → s.mach.cj.fixed = false →
      ∃ t, exec .halt s = .next t ∧ t.mach.cs = { s.mach.cs with hold := .release .halt 2 (s.mach.seq + 1) } ∧
        t.mach.pend = s.mach.pend ∧ t.mach.homes = s.mach.homes ∧ (t.mach.job j).haltId = id ∧
        (next, .haltStop, [j, s.mach.clc, id]) ∈ t.mach.agenda) ∧
    (∀ code, s.mach.cj.window = false → s.mach.cj.handle = none →
      ∃ t h, exec (.trap code) s = .next t ∧ t.mach.cs.fq0 = s.mach.cs.fq1 ∧ (t.mach.job j).handle = some h ∧
        (t.mach.frec h).flt = { code := .trap, cause := code.toNat, fva := s.mach.cs.fq0.waddr } ∧ (t.mach.frec h).primary = s.mach.cur ∧
        (t.mach.frec h).live = true) ∧
    (s.mach.pend.all (fun p => !(p.job == j && p.lc == s.mach.clc && p.awaited)) = true → s.mach.cs.hold = .none →
      (∀ v ∈ s.mach.fenceStats, fld v 0 6 &&& fld v 8 6 = 0) → ∃ t, exec .tfence s = .next t ∧ s.Retired t []) ∧
    ((s.mach.cj.fixed = true ∨ s.mach.cs.isRanger = true) → ∃ t, exec .yield s = .next t ∧ s.Retired t []) ∧
    (s.mach.cj.fixed = false → s.mach.cs.isRanger = false →
      ∃ t, exec .yield s = .next t ∧ (s.on (s.mach.modPcl (s.mach.pcOf s.mach.cpart s.mach.clc)
        (fun p => { p with yielded := s.mach.cj.cx :: p.yielded, slot := none }))).Held t .yield [])

/-- R331 to R333, R335, R336: FORK and the basket words hold their stream while their request goes to the command complex; RDV with no
open copy is held for its release half. At the reply a record found is armed, patched or read, and Sd gets the status. -/
def Obligations.LaunchWords : Prop :=
  ∀ (s : State) (d a b : R),
    let x := (s.mach.rs a).toNat
    let y := (s.mach.rs b).toNat
    let asks (i e : Instr) (args : Nat → List Nat) : Prop :=
      ∃ t id tick, exec i s = .next t ∧ s.Held t (.complexReq id d) [] ∧ (tick, e, args id) ∈ t.mach.agenda
    (s.mach.cs.isRanger = false → asks (.fork d a b) .launchDispatch (fun id => [s.mach.cpart, 1, s.mach.cur, id, x, y]) ∧
      asks (.larm d a) .commandComplexReply (fun id => [s.mach.cur, id, 1, x, 0])) ∧
    asks (.lpatch d a b) .commandComplexReply (fun id => [s.mach.cur, id, 0, x, y]) ∧
    asks (.lstat d a) .commandComplexReply (fun id => [s.mach.cur, id, 2, x, 0]) ∧
    (s.mach.cs.isRanger = false → s.mach.copies.any (fun c => c.sid == s.mach.cur) = false → s.mach.redFreeze = none →
      ∃ t, exec .rdv s = .next t ∧ s.Held t (.release .rdv 2 s.mach.seq) []) ∧
    ∀ id dst r, (s.mach.str (s.mach.arg 0)).hold = .complexReq id dst → (s.mach.str (s.mach.arg 0)).state ≠ .frozen →
      (s.mach.str (s.mach.arg 0)).sel.cls = .scalar → s.mach.arg 1 = id →
      let job := s.mach.job (s.mach.str (s.mach.arg 0)).job
      let i := s.mach.arg 3 % 1024
      let f := fld (s.mach.arg 3) 10 3
      (s.mach.part (cxPart job.cx)).record (job.cx % 64) i = some r →
      ∃ t, exec .commandComplexReply s = .next t ∧
        (s.mach.arg 2 = 2 → s.Replied t (s.mach.arg 0) dst r.word7) ∧
        (s.mach.arg 2 = 1 → r.state = 0 → s.Replied t (s.mach.arg 0) dst 0 ∧
          sget? (t.mach.part (cxPart job.cx)).basket i = some { r with state := 1, queue := job.queue } ∧
          (t.mach.part (cxPart job.cx)).armed = (s.mach.part (cxPart job.cx)).armed ++
            [{ words := r.words, source := .basket i, queue := job.queue, cx := job.cx, arr := s.mach.seq }]) ∧
        (s.mach.arg 2 = 0 → f < 5 → f ≠ 0 → r.state = 0 → bitOf (r.words.getD 7 0) (53 + f) = true →
          s.Replied t (s.mach.arg 0) dst 0 ∧
          sget? (t.mach.part (cxPart job.cx)).basket i = some { r with words := r.words.set (2 + f) (s.mach.arg 4) })

/-- R338: words on an engine stream of the issuing cluster answer its ESTAT; TSTART sets its length and restarts it when it was stopped
or done with words left, TSTOP stops it, TREBASE gives a stopped or done stream a new table. -/
def Obligations.EngineStreamWords : Prop :=
  ∀ (s : State) (d a b : R) (sel : Sel) (i : Nat), s.onScalar → s.mach.engSel (s.mach.rs a) = some sel →
    s.mach.findSel s.mach.cs.job sel = some i → i ≠ s.mach.cur →
    let x := s.mach.str i
    let w := s.writes 0 d (x.estat s.mach.cj.jobid)
    let n := (s.mach.rs b).toNat
    (∃ t, exec (.tstat d a) s = .next t ∧ s.Retired t w) ∧
    (n < 2 ^ 24 → (x.state = .stopped ∨ x.state = .done) → x.step < n →
      ∃ t, exec (.tstart d a b) s = .next t ∧ (s.on (s.mach.setStr i
        { x with len := n, state := .running, lastIssue := s.mach.ccyc s.now + 1, fresh := true })).Retired t w) ∧
    (x.state = .running → x.hold = .none →
      ∃ t, exec (.tstop d a) s = .next t ∧ (s.on (s.mach.setStr i { x with state := .stopped, hold := .none })).Retired t w) ∧
    (n % 64 = 0 → (x.state = .stopped ∨ x.state = .done) →
      ∃ t, exec (.trebase d a b) s = .next t ∧ (t.mach.str i).base = n ∧ (t.mach.str i).step = 0 ∧ (t.mach.str i).state = .stopped ∧
        t.mach.pend = s.mach.pend ++ w ∧ t.mach.cs.fq0 = s.mach.cs.fq1 ∧ t.mach.cs.regs = s.mach.cs.regs) ∧
    (n % 64 ≠ 0 → ∃ t, exec (.trebase d a b) s = .next t ∧ s.Raises t { code := .align })

/-- R44 to R46, R339: TOKSET gives the job's FIFO its count at the end of its issue cycle; a signal that arrives raises a count below 255 by
one, else it waits; a credit that returns lowers every producer's copy. -/
def Obligations.Tokens : Prop :=
  ∀ (s : State),
    (∀ a b : R, s.onScalar → (s.mach.rs b).toNat ≤ 255 →
      ∃ t, exec (.tokset a b) s = .next t ∧ s.Retired t
        [s.resultAt 0 (s.mach.ccyc s.now) 0 (.tokset ((s.mach.rs a).toNat % 32) (s.mach.rs b).toNat)]) ∧
    (∀ (m : Mach) (p : Pend) f v, s.mach.takePend (s.mach.arg 0) = some (m, p) → p.eff = .tokset f v →
      let x := sget (s.mach.cct p.cc).fifos f {}
      (x.owner = none ∨ x.owner = some p.job) →
      ∃ t, exec .resultWrite s = .next t ∧
        (sget (t.mach.cct p.cc).fifos f {}).count = v ∧ (sget (t.mach.cct p.cc).fifos f {}).owner = some p.job ∧
        ∀ g, g ≠ f → sget (t.mach.cct p.cc).fifos g {} = sget (s.mach.cct p.cc).fifos g {}) ∧
    (∃ t, exec .tokenBeatArrival s = .next t ∧
      let x := sget (s.mach.cct (s.mach.arg 0)).fifos (s.mach.arg 1) {}
      let y := sget (t.mach.cct (s.mach.arg 0)).fifos (s.mach.arg 1) {}
      (x.count < 255 → x.pend = 0 → y.count = x.count + 1 ∧ y.pend = 0) ∧
      (255 ≤ x.count → y.count = x.count ∧ y.pend = x.pend + 1)) ∧
    ∃ t, exec .tokenCreditReturn s = .next t ∧
      (sget (t.mach.cct (s.mach.arg 0)).fifos (s.mach.arg 1) {}).credit =
        (sget (s.mach.cct (s.mach.arg 0)).fifos (s.mach.arg 1) {}).credit - s.mach.arg 2 ∧
      ∀ i, sget (sget (t.mach.cct (s.mach.arg 0)).fifos (s.mach.arg 1) {}).copies i 0 =
        sget (sget (s.mach.cct (s.mach.arg 0)).fifos (s.mach.arg 1) {}).copies i 0 - s.mach.arg 2

/-! ### The decode dictionary -/

/-- R116 to R121: DLD is held while its entries arrive, or while the host fetches them; DINV clears VALID of every entry of its range; DSW
switches the bank, and that of an engine class at rest; DFENCE fetches the queued words again under the present bank, and the next word issues three cycles later; DRD writes the expansion. R112, R117: an entry that arrives is stored, without VALID when it breaks a limit of its class; after the last of an engine class's
entries Sd gets the count of those that lost VALID. -/
def Obligations.DictionaryWords : Prop :=
  (∀ (s : State) (k : Cls) (bank : BitVec 2) (d a b : R), s.onScalar → hosts s.mach.cs.sel.kind k = true →
    let bk := bank.toNat
    (s.mach.bankBusy k bk = false → fld (s.mach.rs b).toNat 0 8 + fld (s.mach.rs b).toNat 8 8 < 256 →
      (s.mach.rs a).toNat % 16 = 0 → ∀ m p, s.mach.xlat s.mach.cur (s.mach.rs a).toNat { rd := true, ex := true } = .ok (m, p) →
      m.pgBad p 16 = false → m.unstarted m.cs.job (p.home 0) = none →
      let q := m.softPg p 16
      let word (host : Bool) : Hold := .dld k bk (fld (s.mach.rs b).toNat 0 8) (fld (s.mach.rs b).toNat 8 8 + 1) 0 (s.mach.rs a).toNat host d
      (2 ≤ p.tgt → ∃ t tick, exec (.dld k bank d a b) s = .next t ∧ (tick, .dldEntryArrival, [s.mach.cur]) ∈ t.mach.agenda ∧
        (s.on q).Held t (word false) []) ∧
      (p.tgt = 1 → ∃ t, exec (.dld k bank d a b) s = .next t ∧ (s.on (q.awaitHost s.now)).Held t (word true) [])) ∧
    (s.mach.bankBusy k bk = false → fld (s.mach.rs a).toNat 0 8 + fld (s.mach.rs a).toNat 8 8 < 256 →
      ∃ t, exec (.dinv k bank a) s = .next t ∧ t.mach.cs.fq0.waddr % 2 ^ 24 = s.mach.cs.fq1.waddr % 2 ^ 24 ∧ t.mach.pend = s.mach.pend ∧
        (∀ i, i ≤ fld (s.mach.rs a).toNat 8 8 →
          entryValid ((t.mach.cct s.mach.ccc).entry k bk (fld (s.mach.rs a).toNat 0 8 + i)) = false) ∧
        ∀ e, e < fld (s.mach.rs a).toNat 0 8 → (t.mach.cct s.mach.ccc).entry k bk e = (s.mach.cct s.mach.ccc).entry k bk e) ∧
    (∃ t, exec (.dsw .scalar bank) s = .next t ∧ t.mach.cs.dbank = bk ∧ t.mach.cs.fq0 = s.mach.cs.fq1 ∧ t.mach.pend = s.mach.pend) ∧
    (k ≠ .scalar → s.mach.classBusy k = false → ∃ t, exec (.dsw k bank) s = .next t ∧
      (s.on (s.mach.modStreams ((s.mach.streamsOn s.mach.cs.job s.mach.clc).filter (fun i => (s.mach.str i).sel.cls == k))
        (fun x => { x with dbank := bk }))).Retired t []) ∧
    (s.mach.cs.slots = 0 → ∃ t, exec .dfence s = .next t ∧ t.mach.cs.lastIssue = s.mach.ccyc s.now + 3 ∧
      t.mach.cs.fq0.waddr = s.mach.cs.fq1.waddr % 2 ^ 24 ∧ t.mach.cs.fq0.bank = s.mach.cs.dbank ∧
      t.mach.cs.fq1.bank = s.mach.cs.dbank ∧ t.mach.cs.fq2.bank = s.mach.cs.dbank) ∧
    s.yields (.drd k bank d a 0) 1 d
      (let w := (s.mach.rs a).toNat % 2 ^ 32
       let e := (s.mach.cct s.mach.ccc).entry k bk (fld w 23 8)
       if bitOf w 31 && entryValid e then BitVec.ofNat 64 (expand k e w).1 else 0)) ∧
  (∀ (s : State) (k : Cls) (bank next left bad va : Nat) (d : R) (m : Mach) (p : Pg),
    let sid := s.mach.arg 0
    let src := leNat (m.readPg sid .plain p 16)
    let lost := bitOf (src % 2 ^ 96) 95 && !entryOk k (src % 2 ^ 96 / 2 ^ 64) (src / 2 ^ 96)
    (s.mach.str sid).hold = .dld k bank next left bad va false d → (s.mach.str sid).state ≠ .frozen →
    (s.mach.str sid).sel.cls = .scalar → ({ s.mach with cur := sid } : Mach).xlat sid va { rd := true, ex := true } = .ok (m, p) →
    left = 1 →
    ∃ t, exec .dldEntryArrival s = .next t ∧
      (t.mach.cct (ccKey (s.mach.job (s.mach.str sid).job).cx (s.mach.str sid).sel.lc)).entry k bank next =
        (if lost then src % 2 ^ 96 - 2 ^ 95 else src % 2 ^ 96) ∧
      (k ≠ .scalar → s.Replied t sid d (BitVec.ofNat 64 (bad + if lost then 1 else 0))))

/-! ### Vector columns -/

/-- R191, R188, R190, R213: integer micro-orders of columns A and B issue with their lane-wise results in flight under classes 5 and 6;
an inactive lane is not written. The saturating forms clamp and set SAT when an active lane is clamped; products pass their residue
check. -/
def Obligations.VectorIntegers : Prop :=
  ∀ (mi : Micro) (s : State),
    let e := s.mach.venv mi
    let l5 := latCls 5
    let l6 := latCls 6
    let a := e.el mi.srcA
    let b := e.el mi.srcB
    let lanes (i : Instr) (l : Job → Nat) (f : Nat → BitVec e.w) : Prop := s.vecIssues i mi l (e.lanesOf mi.dest f 0)
    let clamps (i : Instr) (f : Nat → Int) : Prop := s.vecIssues i mi l5 (e.lanesOf mi.dest
      (fun j => BitVec.ofInt e.w (max e.t.lo (min e.t.hi (f j))))
      (if (List.range e.n).any (fun j => (e.act e.n).getD j false && (f j < e.t.lo || e.t.hi < f j)) then 1 else 0))
    s.microReady mi.tail.tok false → s.mach.cs.sel.col ≤ 1 → e.tc ≤ 7 → exactForm mi →
    lanes (.vadd mi) l5 (fun j => a j + b j) ∧
    lanes (.vsub mi) l5 (fun j => a j - b j) ∧
    clamps (.vadds mi) (fun j => e.num (a j) + e.num (b j)) ∧
    clamps (.vsubs mi) (fun j => e.num (a j) - e.num (b j)) ∧
    lanes (.vmul mi) l6 (fun j => a j * b j) ∧
    lanes (.vmulh mi) l6 (fun j => BitVec.ofInt e.w (e.num (a j) * e.num (b j) / 2 ^ e.w)) ∧
    lanes (.vmac mi) l6 (fun j => e.el mi.third j + a j * b j) ∧
    lanes (.vand mi) l5 (fun j => a j &&& b j) ∧
    lanes (.vor mi) l5 (fun j => a j ||| b j) ∧
    lanes (.vxor mi) l5 (fun j => a j ^^^ b j) ∧
    lanes (.vandn mi) l5 (fun j => a j &&& ~~~b j) ∧
    lanes (.vshl mi) l5 (fun j => a j <<< (b j).toNat) ∧
    lanes (.vshr mi) l5 (fun j => a j >>> (b j).toNat) ∧
    lanes (.vsar mi) l5 (fun j => (a j).sshiftRight (b j).toNat) ∧
    lanes (.vmin mi) l5 (fun j => if e.num (b j) < e.num (a j) then b j else a j) ∧
    lanes (.vmax mi) l5 (fun j => if e.num (a j) < e.num (b j) then b j else a j) ∧
    lanes (.vabs mi) l5 (fun j => BitVec.ofInt e.w (e.num (a j)).natAbs) ∧
    lanes (.vneg mi) l5 (fun j => -a j) ∧
    lanes (.vclz mi) l5 (fun j => BitVec.ofNat e.w ((List.range e.w).takeWhile (fun i => !(a j).getLsbD (e.w - 1 - i))).length) ∧
    lanes (.vpopc mi) l5 (fun j => BitVec.ofNat e.w ((List.range e.w).filter (fun i => (a j).getLsbD i)).length) ∧
    lanes (.vsel mi) l5 (fun j => if e.el mi.third j ≠ 0 then a j else b j) ∧
    (2 ≤ e.tc → groupOk mi.dest 2 = true →
      let half (h : Nat) : Nat × Wide × Wide :=
        (mi.dest.toNat + h,
         ofLanes (2 * e.w) ((List.range (e.n / 2)).map (fun i =>
           (BitVec.ofInt (2 * e.w) (e.num (a (2 * i + h)) * e.num (b (2 * i + h)))).toNat)),
         laneMask (2 * e.w) ((List.range (e.n / 2)).map (fun i => (e.act e.n).getD (2 * i + h) false)))
      s.vecIssues (.vmulw mi) mi l6 { ws := [half 0, half 1] })

/-- R192, R193, R62: comparisons write the mask register of their condition over the active lanes; mask operations write every lane,
and MPOPC and MFIRST put their count into every 32-bit slot. -/
def Obligations.VectorMasks : Prop :=
  ∀ (mi : Micro) (s : State),
    let e := s.mach.venv mi
    let a := e.el mi.srcA
    let b := e.el mi.srcB
    let p := e.maskBits mi.srcA.toNat e.n
    let q := e.maskBits mi.srcB.toNat e.n
    s.microReady mi.tail.tok false → exactForm mi →
    (s.mach.cs.sel.col ≤ 1 → e.tc ≤ 7 →
      ∀ c : Nat → Bool,
        (match e.cond mi with
          | 0 => ∀ j, c j = decide (a j = b j)
          | 1 => ∀ j, c j = decide (a j ≠ b j)
          | 2 => ∀ j, c j = (a j).slt (b j)
          | 3 => ∀ j, c j = (b j).sle (a j)
          | 4 => ∀ j, c j = (a j).ult (b j)
          | 5 => ∀ j, c j = (b j).ule (a j)
          | _ => False) →
        s.vecIssues (.vcmp mi) mi (latCls 5)
          { mask := some (mi.dest.toNat, maskOf ((List.range e.n).map c), maskWrite (e.act e.n)) }) ∧
    (s.mach.cs.sel.col = 2 → 8 ≤ e.tc → e.tc ≤ 11 → e.cond mi ≤ 5 →
      s.vecIssues (.vfcmp mi) mi (latCls 5) (e.cmp mi (fun c x y => fltCond c (e.t.val x) (e.t.val y)))) ∧
    (s.mach.cs.sel.col ≤ 1 → e.tc ≤ 17 →
      (e.cond mi ≤ 7 → (4 ≤ e.cond mi → mi.srcB = 0) → (6 ≤ e.cond mi → mi.srcA = 0) →
        s.vecIssues (.mop mi) mi (latCls 12)
          { mask := some (mi.dest.toNat, maskOf ((p.zip q).map (fun x => mopBit (e.cond mi) x.1 x.2)),
                          maskWrite (List.replicate e.n true)) }) ∧
      s.vecIssues (.mpopc mi) mi (latCls 12) (slots32 mi (p.filter id).length) ∧
      s.vecIssues (.mfirst mi) mi (latCls 12) (slots32 mi (p.takeWhile (fun x => !x)).length))

/-- R194, R156, R157, R166: float micro-orders of column F compute each lane exactly and round it once; the flags of active lanes are put in
flight with it. R195, R204, R205: special functions of column X work lane by lane under class 7; VMOMENT sums the active lanes and their squares by the
tree of R162 into two registers; VNORMAPPLY subtracts, scales and applies. -/
def Obligations.VectorFloats : Prop :=
  (∀ (mi : Micro) (s : State),
    let e := s.mach.venv mi
    let v (f : F7) (j : Nat) : FV := e.t.val ((e.els f).getD j 0)
    let a := v mi.srcA
    let b := v mi.srcB
    let c := v mi.third
    let dn := e.rnd.isRd
    let lanes (i : Instr) (k : Nat) (f : Nat → FV) : Prop :=
      s.vecIssues i mi (latCls k) (e.lanewise mi.dest ((List.range e.n).map (fun j => e.t.enc e.rnd (f j))))
    s.microReady mi.tail.tok false → s.mach.cs.sel.col = 2 → 8 ≤ e.tc → e.tc ≤ 11 →
    (roundedForm mi →
      lanes (.vfadd mi) 6 (fun j => (a j).add dn (b j)) ∧
      lanes (.vfsub mi) 6 (fun j => (a j).add dn (b j).neg) ∧
      lanes (.vfmul mi) 6 (fun j => (a j).mul (b j)) ∧
      lanes (.vfma mi) 6 (fun j => ((a j).mul (b j)).add dn (c j)) ∧
      lanes (.vfms mi) 6 (fun j => ((a j).mul (b j)).add dn (c j).neg) ∧
      lanes (.vfnma mi) 6 (fun j => ((a j).mul (b j)).neg.add dn (c j))) ∧
    (exactForm mi →
      lanes (.vfmin mi) 5 (fun j => (a j).min (b j)) ∧
      lanes (.vfmax mi) 5 (fun j => (a j).max (b j)) ∧
      lanes (.vfabs mi) 5 (fun j => (a j).abs) ∧
      lanes (.vfneg mi) 5 (fun j => (a j).neg))) ∧
  (∀ (mi : Micro) (s : State),
    let e := s.mach.venv mi
    s.microReady mi.tail.tok false → roundedForm mi →
    (s.mach.cs.sel.col = 3 → ∀ f, (e.tc = 8 ∧ f = f32) ∨ (e.tc = 10 ∧ f = f16) ∨ (e.tc = 11 ∧ f = bf16) →
      let lanes (i : Instr) (op : Nat) : Prop :=
        s.vecIssues i mi (latCls 7) (e.lanewise mi.dest ((e.els mi.srcA).map (f.special op e.rnd)))
      lanes (.vrcp mi) 0x29 ∧ lanes (.vrsq mi) 0x2A ∧ lanes (.vsqrt mi) 0x2B ∧ lanes (.vexp2 mi) 0x2C ∧ lanes (.vlog2 mi) 0x2D ∧
      lanes (.vtanh mi) 0x2E) ∧
    (s.mach.cs.sel.col = 2 → e.tc = 8 →
      let r := e.rnd
      let plus (x y : Nat × Nat) : Nat × Nat :=
        let z := f32.enc r ((f32.dec x.1).add r.isRd (f32.dec y.1))
        (z.1, x.2 ||| y.2 ||| z.2)
      let va := (e.act 128).zip (e.els mi.srcA)
      let sum := tree plus (0, 0) 8 (va.map (fun p => (if p.1 then p.2 else 0, 0)))
      let sq := tree plus (0, 0) 8 (va.map (fun p => if p.1 then f32.enc r ((f32.dec p.2).mul (f32.dec p.2)) else (0, 0)))
      (groupOk mi.dest 2 = true → s.vecIssues (.vmoment mi) mi (fun j => j.latOf 6 + j.latOf 8)
        { ws := [(mi.dest.toNat, ofLanes 32 [sum.1], wones 64), (mi.dest.toNat + 1, ofLanes 32 [sq.1], wones 64)],
          fl := sum.2 ||| sq.2 }) ∧
      let st (i : Nat) : FV := f32.dec (lane (e.reg mi.third.toNat) 32 i)
      let one (a b : Nat) : Nat × Nat :=
        let t := f32.enc r ((f32.dec a).add r.isRd (st 0).neg)
        let u := f32.enc r ((f32.dec t.1).mul (st 1))
        let v := f32.enc r (((f32.dec u.1).mul (f32.dec b)).add r.isRd (st 2))
        (v.1, t.2 ||| u.2 ||| v.2)
      s.vecIssues (.vnormapply mi) mi (latCls 6)
        (e.lanewise mi.dest (((e.els mi.srcA).zip (e.els mi.srcB)).map (fun p => one p.1 p.2)))))

/-- R196 to R199, R206: moves, reductions, scans and permutes. A reduction folds the tree over the active lanes and writes the whole
register; a permute reads the nearest active lane at or below the one it names, FILL below lane 0 and above the last; VEXPAND alone reads
its source lanes as they stand (the model's choice, log 107). R200 to R203: conversions of every element between the micro-order's type and the one srcB names, with a register group where the
widths differ; VPACK clamps, VUNPK extends; VPLANE lays out the planes of 512 bytes by R151. -/
def Obligations.VectorLanes : Prop :=
  (∀ (mi : Micro) (s : State),
    let e := s.mach.venv mi
    let vs := e.els mi.srcA
    let act := e.act e.n
    let near := nearest e.fill vs act
    let has (i : Instr) (k : Nat) (o : VOut) : Prop := s.vecIssues i mi (latCls k) o
    let permutes (i : Instr) (x : Nat → Int) : Prop :=
      has i 8 (e.out mi.dest ((List.range e.n).map (fun j => e.trim (readLane near e.fill (x j)))) act)
    s.microReady mi.tail.tok false →
    (s.mach.cs.sel.col = 4 → 8 ≤ e.tc → e.tc ≤ 11 → roundedForm mi →
      has (.vredadd mi) 8 (e.reduce mi 0 (fun x y => e.t.enc e.rnd ((e.t.val x).add e.rnd.isRd (e.t.val y)))) ∧
      ∀ run : Nat → Nat × Nat, run 0 = (0, 0) →
        (∀ j, j < e.n → run (j + 1) = if act.getD j false then
          (let z := e.t.enc e.rnd ((e.t.val (run j).1).add e.rnd.isRd (e.t.val (vs.getD j 0)))
           (z.1, (run j).2 ||| z.2)) else run j) →
        has (.vscan mi) 8 (e.out mi.dest ((List.range e.n).map (fun j => if act.getD j false then (run (j + 1)).1 else 0)) act (run e.n).2)) ∧
    (exactForm mi →
    (e.tc ≤ 17 → has (.vmov mi) 5 (e.out mi.dest vs act)) ∧
    (e.tc ≤ 7 → has (.vmovi mi) 5 (e.lanesOf mi.dest (fun _ => BitVec.ofInt e.w (sInt 14 mi.imm14)) 0)) ∧
    (8 ≤ e.tc → e.tc ≤ 11 → has (.vmovi mi) 5 (e.lanewise mi.dest
      ((List.range e.n).map (fun _ => e.t.enc .rne (FV.ofInt (sInt 14 mi.imm14)))))) ∧
    (s.mach.cs.sel.col = 4 →
      (e.tc ≤ 11 → has (.vmvs mi) 8 (e.lanesOf mi.dest (fun _ => (e.sregs mi.srcA.toNat).setWidth e.w) 0)) ∧
      (e.tc ≤ 11 → has (.vredmax mi) 8 (e.reduce mi e.t.lowest e.t.maxEl) ∧ has (.vredmin mi) 8 (e.reduce mi e.t.highest e.t.minEl)) ∧
      (e.tc ≤ 7 →
        has (.vredadd mi) 8 { ws := [(mi.dest.toNat,
          ofLanes e.w [(((act.zip vs).filter (·.1)).foldl (fun a p => a + p.2) 0) % 2 ^ e.w], wones 64)] } ∧
        has (.vscan mi) 8 (e.lanesOf mi.dest (fun j => if act.getD j false then
          BitVec.ofNat e.w ((((act.zip vs).take (j + 1)).filter (·.1)).foldl (fun a p => a + p.2) 0) else 0) 0)) ∧
      (e.tc ≤ 17 →
        (groupOk mi.srcB (group16 e.n) = true →
          permutes (.vperm mi) (fun j => ((e.idx16 mi.srcB e.n).getD j 0 : Nat))) ∧
        (groupOk mi.third (group16 e.n) = true →
          has (.vshuf mi) 8 (e.out mi.dest ((List.range e.n).map (fun j =>
            e.trim (readLane (nearest e.fill (vs ++ e.els mi.srcB) (act ++ act)) e.fill ((e.idx16 mi.third e.n).getD j 0 : Nat)))) act)) ∧
        permutes (.vslide mi) (fun j => (j : Int) - immSlide mi) ∧
        permutes (.vbcast mi) (fun _ => 0) ∧
        (immLane mi < e.n →
          has (.vext mi) 8 { ws := [(mi.dest.toNat, ofLanes e.w [e.trim (near.getD (immLane mi) e.fill)], wones 64)] } ∧
          has (.vins mi) 8 (e.out mi.dest (List.replicate (immLane mi) 0 ++ [e.trim (vs.headD 0)])
            (List.replicate (immLane mi) false ++ [true]))) ∧
        (let on := (((act.zip vs).filter (·.1)).map (fun p => e.trim p.2))
         has (.vcompress mi) 8 { ws := [(mi.dest.toNat, ofLanes e.w (on ++ List.replicate (e.n - on.length) (e.trim e.fill)), wones 64)] }) ∧
        has (.vexpand mi) 8 (e.out mi.dest ((List.range e.n).map (fun j =>
          if act.getD j false then e.trim (vs.getD (((act.take j).filter id).length) 0) else 0)) act))))) ∧
  (∀ (mi : Micro) (s : State),
    let e := s.mach.venv mi
    let u := ETy.of mi.srcB.toNat
    let has (i : Instr) (o : VOut) : Prop := s.vecIssues i mi (latCls 7) o
    s.microReady mi.tail.tok false → s.mach.cs.sel.col = 3 →
    (e.tc ≤ 17 → mi.srcB.toNat ≤ 17 → cvtOk mi e.t u = true → roundedForm mi →
      has (.vcvt mi) (e.convert mi u (fun _ b => u.conv e.t e.rnd b))) ∧
    (e.tc ≤ 17 → e.tc ≠ 8 → e.tc ≠ 9 → 8 ≤ mi.srcB.toNat → mi.srcB.toNat ≤ 17 → cvtOk mi e.t u = true →
      groupOk mi.third (group16 (cvtN e.t u)) = true → (∀ t, mi.long = some t → t.rnd = 5) →
      has (.vcvtSr mi) (e.convert mi u (fun i b =>
        u.conv e.t (.sr (srkOf (fld e.vm 14 2)) ((e.idx16 mi.third (cvtN e.t u)).getD i 0)) b))) ∧
    (exactForm mi →
      (e.tc ≤ 7 → mi.srcB.toNat ≤ 7 → cvtOk mi e.t u = true →
        (e.w < u.w → has (.vpack mi) (e.convert mi u (fun _ b => e.t.clamp (u.int' b)))) ∧
        (u.w < e.w → has (.vunpk mi) (e.convert mi u (fun _ b => ((BitVec.ofInt e.w (u.int' b)).toNat, 0))))) ∧
      (∀ k sg, e.t = .plane k sg → 18 ≤ e.tc → e.mr = 0 → mi.srcB = (if sg then 4 else 5) →
        let src := lanes 8 512 (e.reg mi.srcA.toNat)
        -- byte q of plane p of block b holds bit 7 − p of elements 64 b + 8 q to 64 b + 8 q + 7
        let byte (x : Nat) : Nat := (List.range 8).foldl (fun v i =>
          v + fld (src.getD (x / (8 * k) * 64 + x % 8 * 8 + i) 0) (7 - x % (8 * k) / 8) 1 * 2 ^ i) 0
        has (.vplane mi) { ws := [(mi.dest.toNat, ofLanes 8 ((List.range (64 * k)).map byte), wones 64)] })))

/-- R97, R187, R51, R44, R45: a vector micro-order on a column that does not host it raises ILLEGAL_OP; a type outside its families or a
predicted path it may not lie on raises ILLEGAL_FIELD; a dry wait raises TOKEN_CHECK in fixed timing and waits in WAIT_TOKEN else, and a
signal without room holds the word. -/
def Obligations.MicroOrderChecks : Prop :=
  ∀ (mi : Micro) (s : State),
    let e := s.mach.venv mi
    let tok := mi.tail.tok
    let faults (i : Instr) (c : FCode) : Prop := ∃ t, exec i s = .next t ∧ s.Raises t { code := c }
    s.onEngine → s.mach.pathOf tok = none →
    (∀ i op, (i, op) ∈ [(.vmvs mi, 0x03), (.vadd mi, 0x04), (.vmul mi, 0x08), (.mop mi, 0x1B), (.vfadd mi, 0x1E), (.vfma mi, 0x21), (.vrcp mi, 0x29),
        (.vcvt mi, 0x2F), (.vredadd mi, 0x32), (.vperm mi, 0x36), (.vld mi, 0x40), (.vst mi, 0x41), (.vmoment mi, 0x46)] →
      vecHosts op s.mach.cs.sel.col = false → faults i .illegalOp) ∧
    (s.mach.cs.sel.col ≤ 1 →
      (tok.pe = true → faults (.vadd mi) .illegalField) ∧
      (7 < e.tc → tok.wait = none → faults (.vadd mi) .illegalField) ∧
      (e.tc ≤ 7 → exactForm mi → tok.pe = false → (s.mach.cs.state = .running ∨ s.mach.cs.state = .waitToken) →
        (∀ f, tok.wait = some f → (sget (s.mach.cct s.mach.ccc).fifos f {}).count = 0 →
          (s.mach.cj.fixed = true → faults (.vadd mi) .tokenCheck) ∧
          (s.mach.cj.fixed = false → ∃ t, exec (.vadd mi) s = .next t ∧ s.Quiet t ∧ t.mach.pend = s.mach.pend ∧
            t.mach.cs = { s.mach.cs with state := .waitToken, wfifo := f, hold := .token f })) ∧
        (tok.wait = none → tok.se = true → (sget (s.mach.cct s.mach.ccc).fifos tok.sfifo.toNat {}).room = false →
          (s.mach.cj.fixed = true → faults (.vadd mi) .tokenCheck) ∧
          (s.mach.cj.fixed = false → ∃ t, exec (.vadd mi) s = .next t ∧ s.Quiet t ∧ t.mach.pend = s.mach.pend ∧
            t.mach.cs = { s.mach.cs with state := .running, wfifo := 0, hold := .room tok.sfifo.toNat }))))

/-- R207 to R212, R253, R51: a vector load whose elements pass their checks issues with the decoded elements of its active lanes in
flight, due in the write cycle of the place that ea lies at, or as late as the data comes; a vector store puts its encoded elements into the store buffer at issue, in ascending
order of address but for VSCAT. ALIGN of ea and a VLDS stride's FORMAT_MISMATCH stand where log 106 puts them. -/
def Obligations.VectorMemory : Prop :=
  ∀ (mi : Micro) (s : State) (m m' : Mach) (p : Pg) (es : List ElemAt),
    let e := s.mach.venv mi
    let tok := mi.tail.tok
    let ea := memEa (e.ab mi.memBase) mi
    let stride := (e.ab mi.srcA.toNat).toInt
    let slot (j : Nat) : Int := (lane (e.reg mi.srcA.toNat) 32 j : Nat)
    let loads (i : Instr) (whole : Bool) (n : Nat) (pos : Nat → Int) (st : Int) : Prop :=
      vecAligned whole true p ea = true → (fmtPlane p.fmt = true → st % 64 = 0) →
      m.elems ea p.fmt (planesRead e.tc) { rd := true } (fun q => loadPair q.fmt q.geom e.tc) (fun _ _ => true) [] none
        (e.memLanes n pos) = .ok (m', es) → m'.elemsUnstarted es = none →
      let val (x : ElemAt) : Nat × Nat := m'.elemLoad p.fmt e.tc x
      let due := m'.loadDue s.now (p.home 0)
      let late := (m'.loadLate (p.home 0)).1
      let q := (m'.loadLate (p.home 0)).2
      s.issues i q tok due 2 ((s.on q).vecResults due late e (e.out mi.dest
        ((List.range e.n).map (fun j => match es.find? (fun x => x.i == j) with | some x => (val x).1 | none => 0))
        ((List.range e.n).map (fun j => es.any (fun x => x.i == j)))
        (es.foldl (fun a x => a ||| (val x).2) 0)))
    let stores (i : Instr) (whole sorted : Bool) (n : Nat) (pos : Nat → Int) : Prop :=
      vecAligned whole false p ea = true →
      m.elems ea p.fmt 8 { wr := true } (fun q => storePair q.fmt e.tc) (fun _ _ => true) [] none (e.memLanes n pos) = .ok (m', es) →
      (tok.pe = true → draftOnly es = true) →
      let ents := es.foldl (fun a x => x.store p.fmt (e.trim ((e.els mi.dest).getD x.i 0)) (s.mach.ccyc s.now) (s.mach.pathOf tok) a) []
      s.issues i (m'.enter s.now m'.cur (if sorted then sortEntries ents else ents)) tok (s.mach.ccyc s.now) 3 []
    s.mach.cs.sel.col = 4 → exactForm mi → s.mach.eaPage ea = .ok (m, p) →
    (s.microReady tok false →
      loads (.vld mi) true e.n (fun j => j) 0 ∧
      loads (.vlds mi) false e.n (fun j => j * stride) stride ∧
      loads (.vgath mi) false (min e.n 128) slot 0) ∧
    (s.microReady tok true → e.tc ≤ 17 →
      stores (.vst mi) true true e.n (fun j => j) ∧
      stores (.vscat mi) false false (min e.n 128) slot)

/-! ### The matrix core -/

/-- R223, R224, R239, R220, R221: TCFG, TZERO and ACCZ put their write in flight for the end of their cycle; LEASE renews or is granted when
no other core holds, requests or is about to take the array; LREL releases. -/
def Obligations.MatrixTilesAndLeases : Prop :=
  ∀ (mi : Micro) (delay : BitVec 4) (tile : F7) (cfg : BitVec 25) (tok : Tok) (s : State),
    let c := s.mach.ccyc s.now
    let core := s.mach.cs.sel.unit
    let cc := s.mach.ccc
    let me := s.mach.mcore cc core
    let other := s.mach.mcore cc (1 - core)
    let j := tile.toNat % 16
    (s.microReady tok false → tcfgOk j (cfg.toNat * 256) = true →
      (j % 2 = 1 → tcPair ((s.mach.cct cc).creg (tcfgKey core (j - 1))).toNat = false) →
      s.issues (.tcfg delay tile cfg tok) s.mach tok c 2
        [s.resultAt 0 c 0 (.creg (tcfgKey core j) (BitVec.ofNat 64 (cfg.toNat * 256)))]) ∧
    (mi.plain = true → s.microReady mi.tail.tok false →
      (∀ v, (s.mach.cct cc).tcfg core (mi.dest.toNat % 16) = some v →
        s.issues (.tzero mi) s.mach mi.tail.tok c 2 [s.resultAt 0 c 0 (.tzero core (mi.dest.toNat % 16))]) ∧
      (me.owner (mi.dest.toNat % 4) = none →
        s.issues (.accz mi) s.mach mi.tail.tok c 2 [s.resultAt 0 c 0 (.accZero core (mi.dest.toNat % 4))]) ∧
      (me.lheld = true → other.req = none →
        s.issues (.lease mi) (s.mach.modCore cc core (fun k => { k with lleft := mi.srcA.toNat })) mi.tail.tok c 2 []) ∧
      (me.lheld = false → other.lheld = false → other.req = none →
        (s.mach.leaseNow s.now = false ∨ (s.mach.pcl (s.mach.pcOf s.mach.cpart s.mach.clc)).lastHolder ≠ core) →
        s.issues (.lease mi) ((s.mach.modCore cc core (fun k =>
          { k with lheld := true, lleft := mi.srcA.toNat, leaseNo := k.leaseNo + 1, req := none, released := false })).modPcl
            (s.mach.pcOf s.mach.cpart s.mach.clc) (fun p => { p with lastHolder := core })) mi.tail.tok c 2 []) ∧
      (me.lheld = false → s.issues (.lrel mi) s.mach mi.tail.tok c 2 []) ∧
      (me.lheld = true → me.leaseOpen = false →
        s.issues (.lrel mi) (s.mach.modCore cc core (fun k => { k with released := true })) mi.tail.tok c 2 []))

/-- R233 to R236: BOPEN opens a free batch under a lease held, BOPEN.S one under a tag, which opens a predicted path on every cluster of
the job and keeps what stands for its DISCARD; CBATCH closes it, its commit due at cc = max(W, K) + 1, and WBATCH counts as issued there; COMMIT and DISCARD end a tag 39 cycles later in
fixed timing, one cycle later on their own cluster else, and where their broadcast arrives on the others. A micro-order that names no batch, and the cycle
of its signal, are the model's choice (log 108). -/
def Obligations.MatrixBatches : Prop :=
  ∀ (mi : Micro) (s : State),
    let k := s.mach.ccyc s.now
    let core := s.mach.cs.sel.unit
    let cc := s.mach.ccc
    let me := s.mach.mcore cc core
    let tok := mi.tail.tok
    let opens (tag : Option Nat) : Mach := s.mach.modCore cc core (fun c =>
      { c with batches := sset c.batches mi.srcA.toNat { state := .opened, tag := tag, lease := c.leaseNo }, mrb := some mi.srcA.toNat })
    mi.plain = true →
    (me.lheld = true → (sget me.batches mi.srcA.toNat {}).state = .free →
      (s.microReady tok false → s.issues (.bopen mi) (opens none) tok k 2 []) ∧
      (s.microReady tok true →
        let t := if tok.pe then tok.ptag.toNat else 0
        (s.mach.cj.tagOpen s.mach.clc t = true → s.issues (.bopenS mi) (opens (some t)) tok k 2 []) ∧
        let kept : Tag := { base := (s.mach.ctx s.mach.cj.cx).regions.map (fun r => (r.pubrid, r.draft)), homes := s.mach.homes }
        let old := if s.mach.cj.tagAny t = true then s.mach.cj.tags else sset s.mach.cj.tags t kept
        (s.mach.cj.tagOpen s.mach.clc t = false → s.issues (.bopenS mi) ((opens (some t)).modJob s.mach.cs.job (fun j =>
          { j with tags := (s.mach.clustersOf s.mach.cs.job).foldl (fun g lc => sset g (tagKey lc t) { opened := true }) old }))
          tok k 2 []))) ∧
    (s.microReady tok true →
      (s.mach.batchOf mi = none → s.issues (.cbatch mi) s.mach tok k 2 [] ∧ s.issues (.wbatch mi) s.mach tok k 2 []) ∧
      (∀ b, s.mach.batchOf mi = some b →
        let x := sget me.batches b {}
        let w := if x.hasStep then x.lastWrite else k
        let q := s.mach.modCore cc core (fun c => { c with batches := sset c.batches b { x with state := .closed, closeAt := k } })
        (x.state = .opened → x.tag = none →
          s.issues (.cbatch mi) q tok (max w k + 1) 2 [s.resultAt 0 (max w k + 1) 0 (.commit core b true)] ∧
          s.issuesLate (.wbatch mi) q tok (max w k + 1) false (max w k + 1) [s.resultAt 0 (max w k + 1) 0 (.commit core b true)]) ∧
        (∀ t, x.state = .opened → x.tag = some t → x.resolved = false →
          s.issues (.cbatch mi) q tok (max k (w + 1)) 2 [] ∧
          s.issuesLate (.wbatch mi) q tok (w + 1) false (max k (w + 1)) [])) ∧
      ∀ keep : Bool,
        let i : Instr := if keep then .commit mi else .discard mi
        let ord := if keep then 8 else 7
        let t := mi.srcA.toNat
        (s.mach.cj.fixed = true → s.issues i s.mach tok (k + 39) 2 ((s.mach.clustersOf s.mach.cs.job).mapIdx (fun n lc =>
          { s.resultAt n (k + 39) ord (.tag t keep) with lc := lc, cc := ccKey s.mach.cj.cx lc }))) ∧
        (s.mach.cj.fixed = false → ∃ q : Mach, q = { s.mach with agenda := q.agenda, lanes := q.lanes, fresh := q.fresh } ∧
          s.issues i q tok (k + 1) 2 [s.resultAt 0 (k + 1) ord (.tag t keep)] ∧
          ∀ lc, lc ∈ s.mach.clustersOf s.mach.cs.job → lc ≠ s.mach.clc →
            ∃ tick, (tick, .tagResolve, [s.mach.cs.job, lc, t, b2n keep]) ∈ q.agenda))

/-- R229 to R232: a step of a core that holds a lease with steps left, named for an OPEN batch of it, on an array that is free, issues: the
lease has one step less, the batch owns the twin, and the step's write is due at P + m + LAT(10) − 1. MMAS waits on its gather FIFO too and
consumes the landed tile, whose credit goes back when its last row is read. -/
def Obligations.MatrixSteps : Prop :=
  ∀ (mi : Micro) (s : State) (st : MStep),
    let core := s.mach.cs.sel.unit
    let cc := s.mach.ccc
    let me := s.mach.mcore cc core
    let x := sget me.batches st.batch {}
    let tok := mi.tail.tok
    let w := s.mach.ccyc s.now + st.m + s.mach.cj.latOf 10 - 1
    let q (gather : Bool) : Mach := (s.mach.modCct cc (fun c => { c with lastAccept := some (st.p, st.m) })).modCore cc core (fun c =>
      { c with
        lleft := c.lleft - 1
        batches := sset c.batches st.batch { x with
          twins := if st.acc ∈ x.twins then x.twins else x.twins ++ [st.acc], lastWrite := max x.lastWrite w, hasStep := true }
        landed := if gather then c.landed.filter (fun y => y.1 != st.tb) else c.landed })
    let wait := some (tok.wait.getD (fld s.mach.mmode 31 5))
    let twin := s.resultAt 0 w 1 (.twin st) (s.mach.cj.lateOf 10)
    let credit := match me.landed.find? (fun y => y.1 == st.tb) with
      | none => []
      | some y => [s.resultAt 1 (st.p + st.lat9 + 14) 0 (.landCredit y.2.1 y.2.2)]
    mi.plain = true → s.mach.stepOf mi s.now = some st → s.mach.batchOf mi = some st.batch → me.lheld = true → me.lleft ≠ 0 →
    x.state = .opened → x.lease = me.leaseNo → (∀ o, me.owner st.acc = some o → o.1 = st.batch) →
    (∀ a, (s.mach.cct cc).lastAccept = some a → a.1 + max a.2 14 ≤ s.mach.ccyc s.now) →
    (s.microReady tok true → s.issues (.mma mi) (q false) tok w 2 [twin]) ∧
    (s.microReady tok true wait → (s.mach.part s.mach.cpart).lcount 3 ≠ 0 → fld s.mach.mmode 22 2 = 0 →
      s.issues (.mmas mi) (q true) tok w 2 (twin :: credit) wait)

/-- R225 to R228, R240 to R242: a tile or accumulator transfer whose elements pass their checks issues with one row in flight after
another, ⌈row bytes / 512⌉ cycles apart; a load's rows start in the write cycle of the place that ea lies at, or as late as the data
comes. R220, R221, R231 to R233, R236, R228: a lease ends and a waiting one is granted; a held step issues as MMA does once the array
is free; a step's write replaces its twin; a commit makes the batch's twins committed, a discard takes them back; a tag resolved is closed;
a row of an accumulator load is written, and a row of a tile load into an unpaired tile. -/
def Obligations.MatrixTransfers : Prop :=
  (∀ (mi : Micro) (s : State) (m m' : Mach) (p : Pg) (es : List ElemAt),
    let core := s.mach.cs.sel.unit
    let tok := mi.tail.tok
    let c := s.mach.ccyc s.now
    let ea := memEa (s.mach.mbReg mi.memBase) mi
    let pitch := (s.mach.mbReg (mi.srcA.toNat % 16)).toNat
    let tr := bitOf mi.srcA.toNat 4
    let late := (m'.loadLate (p.home 0)).1
    let q := (m'.loadLate (p.home 0)).2
    let r (n due ord : Nat) (e : Eff) (late : Nat := 0) : Pend := (s.on m').resultAt n due ord e late
    s.mach.eaPage ea = .ok (m, p) →
    (∀ cfg, mi.plain = true → (s.mach.cct s.mach.ccc).tcfg core (mi.dest.toNat % 16) = some cfg → eaAligned p ea true = true →
      let j := mi.dest.toNat % 16
      let rows := tcRows cfg
      let cols := tcCols cfg
      let rb := rowBytes (tcFmt cfg) cols
      let k := ceilDiv rb 512
      let gs := groupOf p.geom
      let dim := if tr then rows else cols
      let scales : SMap Nat := if p.geom = 0 then [] else es.foldl (fun a x =>
        if tr then (if x.i / cols % gs = 0 then sset a (x.i / cols / gs * 1024 + x.i % cols) (m'.elemScale x) else a)
        else if x.i % cols % gs = 0 then sset a (x.i / cols * 1024 + x.i % cols / gs) (m'.elemScale x) else a) []
      (s.microReady tok false →
        (p.geom ≠ 0 → elemIndex p.fmt p.off 0 % gs = 0 ∧ (if pitch = 0 then dim else pitch) % gs = 0 ∧ dim % gs = 0) →
        m.elems ea p.fmt (tilePlanes (tcFmt cfg)) { rd := true } (fun q => tilePair q.fmt (tcFmt cfg)) (fun o q => o.geom == q.geom && o.midr == q.midr) [] none
          (tileEls cfg tr pitch) = .ok (m', es) → m'.elemsUnstarted es = none →
        let due := m'.loadDue s.now (p.home 0)
        let last := due + (rows - 1) * k
        s.issues (.tld mi) q tok last 2 ((List.range rows).map (fun i => r i (due + i * k) 0 (.tileRow core j cfg (i * rb)
            (tileRow (tcFmt cfg) cols (((es.map (m'.elemRaw p.fmt)).drop (i * cols)).take cols))) late) ++
          [r rows last 1 (.tileAttr core j (if p.geom = 0 then 0 else p.geom + if tr then 4 else 0) p.midr scales) late])) ∧
      (s.microReady tok true →
        m.elems ea p.fmt 8 { wr := true } (fun q => q.fmt == tcFmt cfg) (fun o q => o.geom == q.geom && o.midr == q.midr) [] none
          (tileEls cfg tr pitch) = .ok (m', es) → (tok.pe = true → draftOnly es = true) →
        s.issues (.tst mi) m' tok (c + (rows - 1) * k) 3 ((List.range rows).map (fun i => r i (c + i * k - 1) 9
          (.tst core j cfg i (s.mach.pathOf tok) (((es.drop (i * cols)).take cols).map (fun x => (x.places, x.bit)))))))) ∧
    (let rs := fld s.mach.mmode 9 6 + 1
     let cs := fld s.mach.mmode 0 9 + 1
     let i := mi.dest.toNat % 4
     let me := s.mach.mcore s.mach.ccc core
     let ty := mi.tail.type.toNat
     (s.microReady tok true → (ty ≤ 8 ∨ (10 ≤ ty ∧ ty ≤ 17)) → mi.tail.rnd.toNat ≤ 5 → mi.tail.mask = 0 →
        let rt := fld s.mach.mmode 27 4
        let ctx := s.mach.cct s.mach.ccc
        (mi.tail.rnd = 5 → ∃ x, ctx.tcfg core rt = some x ∧ 2 * rs * cs ≤ tcRows x * rowBytes (tcFmt x) (tcCols x)) → eaAligned p ea false = true →
        m.elems ea p.fmt 8 { wr := true } (fun q => storePair q.fmt ty && q.geom == 0) (fun _ _ => true) [] none (accEls rs cs pitch) =
          .ok (m', es) → (tok.pe = true → draftOnly es = true) →
        let twin := tok.pe && (me.owner i).any (fun o => o.2.tag == some tok.ptag.toNat)
        let src := if twin then sget ctx.twin (core * 4 + i) [] else sget ctx.acc (core * 4 + i) []
        let rnd := (ctx.tile core rt ((ctx.tcfg core rt).getD 0)).bytes
        let md (x : ElemAt) : Rnd := if mi.tail.rnd = 5 then
          .sr ([8, 12, 16].getD (fld s.mach.mmode 25 2) 8) (wbyte rnd (2 * x.i) + 256 * wbyte rnd (2 * x.i + 1))
          else Rnd.ofCode mi.tail.rnd.toNat
        let v (x : ElemAt) : Nat × Nat :=
          let b := lane src 32 (x.i / cs * 512 + x.i % cs)
          if ty = 8 then (b, 0) else (ETy.of 8).conv (ETy.of ty) (md x) b
        let due := c + s.mach.cj.latOf 11 - 1
        let fl := es.foldl (fun a x => a ||| (v x).2) 0
        let ents := es.foldl (fun a x => x.store p.fmt ((v x).1 % 2 ^ (ETy.of ty).valBits) c (s.mach.pathOf tok) a) []
        s.issues (.accrd mi) m' tok due 3 (r 0 (due - 1) 9 (.enter (sortEntries ents)) (s.mach.cj.lateOf 11) ::
          if fl = 0 then [] else [r 1 due 1 (.flags (s.mach.cs.astatKey s.mach.cur) fl) (s.mach.cj.lateOf 11)])) ∧
     (s.microReady tok false → ty = 8 → mi.tail.rnd = 0 → mi.tail.mask = 0 → eaAligned p ea true = true →
        m.elems ea p.fmt 8 { rd := true } (fun q => loadPair q.fmt q.geom 8 && ownType q.fmt 8 && q.geom == 0) (fun _ _ => true) [] none
          (accEls rs cs pitch) = .ok (m', es) → m'.elemsUnstarted es = none → me.owner i = none →
        let due := m'.loadDue s.now (p.home 0)
        let k := ceilDiv (4 * cs) 512
        s.issues (.accrdIn mi) q tok (due + (rs - 1) * k) 2 ((List.range rs).map (fun j => r j (due + j * k) 0
          (.accRow core i j (((es.map (m'.elemRaw p.fmt)).drop (j * cs)).take cs)) late))))) ∧
  (∀ (s : State),
    (∀ cc core no, s.mach.ev = [cc, core, no] → (s.mach.mcore cc core).leaseOver = true → (s.mach.mcore cc core).leaseNo = no →
      ∃ t, exec .leaseEnd s = .next t ∧ (t.mach.mcore cc core).lheld = false ∧ (t.mach.mcore cc core).lleft = 0 ∧
        ∀ c, c ≠ cc → t.mach.cct c = s.mach.cct c) ∧
    (∀ cc core n, s.mach.ev = [cc, core] → (s.mach.mcore cc core).req = some n → (s.mach.mcore cc core).lheld = false →
      (s.mach.mcore cc (1 - core)).lheld = false →
      ∃ t, exec .leaseGrant s = .next t ∧ (t.mach.mcore cc core).lheld = true ∧ (t.mach.mcore cc core).lleft = n ∧
        (t.mach.mcore cc core).req = none) ∧
    (∀ sid mi n i, i = .mma mi ∨ i = .mmas mi → s.mach.ev = [sid] → (s.mach.str sid).hold = .step → (s.mach.str sid).state ≠ .frozen →
      s.mach.arrayFree s.now sid = true → ({ s.mach with cur := sid, curLen := s.mach.wordLen sid } : Mach).peek sid (s.mach.str sid).step =
        some (i, n) →
      ∃ t, exec i (s.on { s.mach with cur := sid, curLen := s.mach.wordLen sid }) = .next t ∧ exec .mmaStepAccept s = .next t) ∧
    ∀ p, s.mach.pend.find? (fun q => q.id == s.mach.arg 0) = some p →
      let c := s.mach.cct p.cc
      (∀ st, p.eff = .twin st → st.checks = true →
        let k := st.core * 4 + st.acc
        ∃ t, exec .mmaStepWrite s = .next t ∧ t.now = s.now ∧ (t.mach.cct p.cc).acc = c.acc ∧
          (t.mach.cct p.cc).twin = sset c.twin k (st.out (sget c.twin k [])).1) ∧
      (∀ core b keep, p.eff = .commit core b keep →
        let own := (sget (sget c.cores core {}).batches b {}).twins
        ∃ t, exec .batchCommit s = .next t ∧ t.now = s.now ∧
          ∀ k, sget (t.mach.cct p.cc).acc k [] =
              (if keep = true ∧ (∃ a ∈ own, k = core * 4 + a) then sget c.twin k [] else sget c.acc k []) ∧
            sget (t.mach.cct p.cc).twin k [] =
              (if keep = false ∧ (∃ a ∈ own, k = core * 4 + a) then sget c.acc k [] else sget c.twin k [])) ∧
      (∀ tg keep, p.eff = .tag tg keep → s.mach.ev.length = 1 →
        ∃ t, exec .tagResolve s = .next t ∧ t.now = s.now ∧ (t.mach.job p.job).tagOpen p.lc tg = false) ∧
      (∀ core a row vs, p.eff = .accRow core a row vs → vs.length ≤ 512 →
        ∃ t, exec .tldRowWrite s = .next t ∧ t.now = s.now ∧
          ∀ i, i < vs.length → lane (sget (t.mach.cct p.cc).acc (core * 4 + a) []) 32 (row * 512 + i) = vs.getD i 0 % 2 ^ 32) ∧
      (∀ core j cfg off bs, p.eff = .tileRow core j cfg off bs → tcPair cfg = false →
        ∃ t, exec .tldRowWrite s = .next t ∧ t.now = s.now ∧
          ∀ i, wbyte (sget (t.mach.cct p.cc).tiles (core * 16 + j) {}).bytes i =
            if off ≤ i ∧ i < off + bs.length then (bs.getD (i - off) 0).toNat
            else wbyte (sget c.tiles (core * 16 + j) {}).bytes i))

/-! ### Gather, load and store streams, strips -/

/-- R244 to R247: GSET puts a descriptor of 64 bytes into its slot in the write cycle of the place it lies at, or waits for host memory; GB
scans the rows of its tile, and the tile it makes lands with its rows of raw elements, later entries over earlier ones, after the slot's cursor has
advanced, its credit is spent and its signal counted in the producer's copy: 39 cycles after its work in fixed timing, no sooner than what its
stream sent to that die before. R246, R247, R279: a landing writes the tile, its configuration and its attributes on the target cluster that its GB named, and its signal
arrives there; the credit returns to the slot; data that a host completes reaches the waiting word, an acquiring load's read at that time with a
refresh, and an error completion or a timeout faults it. -/
def Obligations.GatherWords : Prop :=
  (∀ (mi : Micro) (s : State),
    let tok := mi.tail.tok
    let slot := mi.dest.toNat
    let cc := s.mach.ccc
    let c := s.mach.ccyc s.now
    mi.plain = true → s.microReady tok false → (s.mach.part s.mach.cpart).lcount 3 ≠ 0 →
    (∀ m p, s.mach.scalarPage (memEa (s.mach.gaReg mi.memBase) mi) 64 { rd := true } false = .ok (m, p) →
      m.unstarted m.cs.job (p.home 0) = none → m.pgBad p 64 = false →
      let ws := wordsOf (m.readPg m.cur .plain p 64)
      let q := m.softPg p 64
      let due := m.loadDue s.now (p.home 0)
      m.slotOkay ws = true →
      (p.tgt ≠ 1 → s.issues (.gset mi) q tok due 2 [(s.on q).resultAt 0 due 0 (.gslot slot ws)]) ∧
      (p.tgt = 1 → s.issuesHeld (.gset mi) (q.awaitHost s.now) tok (.gset slot ws))) ∧
    (let g := sget (s.mach.cct cc).gslots slot {}
     let tcc := ccKey s.mach.cj.cx g.lc
     let rb := rowBytes g.fmt g.cols
     tok.se = false → g.credit ≠ 0 → (sget (s.mach.cct tcc).fifos g.fifo {}).roomFor s.mach.cur = true →
     ∀ m hits scanned m1 p m2 es,
       s.mach.gbScan g g.rows 0 = .ok (m, hits, scanned) → m.eaPage (g.w 2) = .ok (m1, p) → eaAligned p (g.w 2) true = true →
       m1.elems (g.w 2) p.fmt (tilePlanes g.fmt) { rd := true } (fun q => tilePair q.fmt g.fmt) (fun o q => o.geom == q.geom && o.midr == q.midr) [] none
         (hits.map (fun h => (h.1 * g.cols + h.2.1, ((h.2.2 : Nat) : Int)))) = .ok (m2, es) →
       m2.elemsUnstarted es = none →
       let gs := groupOf p.geom
       let scs : List (Nat × Nat) := if p.geom = 0 then [] else
         es.map (fun x => (x.i / g.cols / gs * 1024 + x.i % g.cols, m2.elemScale x))
       (∀ a ∈ scs, ∀ b ∈ scs, a.1 = b.1 → a.2 = b.2) →
       let scales : SMap Nat := if p.geom = 0 then [] else (List.range (ceilDiv g.rows gs)).flatMap (fun k =>
         (List.range g.cols).map (fun x => (k * 1024 + x,
           ((scs.find? (fun y => y.1 == k * 1024 + x)).map (·.2)).getD (if p.geom = 1 then 0x7F else 0x38))))
       let raw (k : Nat) : Nat := match es.reverse.find? (fun x => x.i == k) with | some x => m2.elemRaw p.fmt x | none => 0
       let bytes : Wide := (List.range g.rows).foldl (fun w r =>
         wputs w (r * rb) (tileRow g.fmt g.cols ((List.range g.cols).map (fun x => raw (r * g.cols + x))))) []
       let die := pcDie (m2.pcOf m2.cpart g.lc)
       let trip := (m2.trip die).1
       let n := (m2.trip die).2
       let q := (n.modCct cc (fun x => { x with gslots := sset x.gslots slot g.advance })).modCct tcc
         (fun x => { x with fifos := smod x.fifos g.fifo {} (fun f => f.sent s.mach.cur) })
       let due := max (c + max (48 + g.rows + ceilDiv scanned 8 + trip) (fld (g.w 6) 0 16) - 1) (n.sentDue die)
       (s.mach.cj.fixed = true → trip = 39) ∧
       s.issues (.gb mi) q tok due 2 [(s.on n).resultAt 0 due 0 (.landing tcc g.core g.tileNo
         (g.fmt * 2 ^ 27 + g.rows * 2 ^ 18 + g.cols * 2 ^ 8)
           { bytes := bytes, sg := if p.geom = 0 then 0 else p.geom + 4, midr := p.midr, scales := scales } g.fifo cc slot)])) ∧
  (∀ (s : State),
    (∀ p tcc core j cfg tl fifo gcc slot, s.mach.pend.find? (fun q => q.id == s.mach.arg 0) = some p →
      p.eff = .landing tcc core j cfg tl fifo gcc slot → tcPair cfg = false →
      ∃ t, exec .gbLanding s = .next t ∧ t.now = s.now ∧ ((t.mach.cct tcc).creg (tcfgKey core j)) = BitVec.ofNat 64 cfg ∧
        sget (t.mach.cct tcc).tiles (core * 16 + j) {} = tl ∧ (s.now, .tokenBeatArrival, [tcc, fifo]) ∈ t.mach.agenda) ∧
    (∀ p cc slot, s.mach.pend.find? (fun q => q.id == s.mach.arg 0) = some p → p.eff = .landCredit cc slot →
      ∃ t, exec .landingCreditReturn s = .next t ∧
        sget (t.mach.cct cc).gslots slot {} = { sget (s.mach.cct cc).gslots slot {} with
          credit := (sget (s.mach.cct cc).gslots slot {}).credit + 1 }) ∧
    (∀ sid, s.mach.arg 0 = sid → (s.mach.str sid).state ≠ .frozen →
      let faults (i : Instr) : Prop := ∃ t, exec i s = .next t ∧ t = s.on (({ s.mach with cur := sid } : Mach).takeFreeze s.now sid { code := .link })
      (∀ d w home v, (s.mach.str sid).hold = .host d w home false v →
        (s.mach.arg 1 = 0 → (s.mach.str sid).sel.cls = .scalar → ∃ t, exec .hostCompletion s = .next t ∧ s.Replied t sid d v) ∧
        (s.mach.arg 1 ≠ 0 → faults .hostCompletion) ∧ faults .completionTimeout) ∧
      (∀ d w home v, (s.mach.str sid).hold = .host d w home true v → s.mach.arg 1 = 0 → (s.mach.str sid).sel.cls = .scalar →
        ∃ t, exec .hostCompletion s = .next t ∧ (t.mach.str sid).snap = t.mach.homes ∧ s.Replied t sid d
          (w.extend ((List.range w.bytes).map (fun i => s.mach.readByte sid .home false (home + i))))) ∧
      (∀ slot ws, (s.mach.str sid).hold = .gset slot ws → (s.mach.str sid).sel.cls ≠ .scalar →
        (s.mach.arg 1 = 0 → ∃ t, exec .hostCompletion s = .next t ∧ (t.mach.str sid).hold = .none ∧
          sget (t.mach.cct (ccKey (s.mach.job (s.mach.str sid).job).cx (s.mach.str sid).sel.lc)).gslots slot {} = slotOf ws) ∧
        faults .completionTimeout)))

/-- R313 to R315: a load stream's packet is read at issue and lands at its destination later, at LAT(4) and the route when it comes from buffer
SRAM, and no sooner than what its stream sent there before; a store stream's enters the store buffer, a RED packet leaves for its place as one
atomic, and the signal of either waits until it has performed; PUBL is held with the region of its page in line to be published. So LS_LD, LS_LD_ACQ, LS_ST, LS_ST_REL, LS_RED and
LS_PUBL each complete. -/
def Obligations.LoadStoreStreams : Prop :=
  ∀ (mi : Micro) (s : State) (m m' : Mach) (src dst : List (Nat × Pg)),
    let tok := mi.tail.tok
    let ldie := s.mach.cs.sel.ldie
    let c := s.mach.ccyc s.now
    let path := s.mach.pathOf tok
    let r := m'.packetSoft src
    let late := s.mach.cj.lateOf 4
    let sent := r.sentDue (r.homeDie r.cpart ((dst.head?.map (fun x => x.2.home 0)).getD 0))
    let loads (i : Instr) (acq : Bool) : Prop :=
      let es := packetEntries dst (r.packetBytes (if acq then .home else .plain) src path) 0 c 0 path
      (src.all (fun x => x.2.tgt == 2) = true →
        let due := max (c + s.mach.cj.latOf 4 + (if dst.all (fun x => homeSram (x.2.home 0) == some ldie) then 0 else 39) + 6) sent
        s.issues i r tok due 2 [(s.on r).resultAt 0 due 0 (.land es acq) late]) ∧
      (src.all (fun x => x.2.tgt == 2) = false →
        ∃ (due : Nat) (q : Mach), q = { r with fresh := q.fresh } ∧ c + s.mach.cj.latOf 4 ≤ due ∧ sent ≤ due ∧
          s.issues i q tok due 2 [(s.on q).resultAt 0 due 0 (.land es acq) late])
    let stores (i : Instr) (rel : Nat) : Prop :=
      let es := packetEntries dst (r.packetBytes .plain src path) rel c (r.seq + 1) path
      s.issuesDrain i ({ r with seq := r.seq + 1 }.enter s.now r.cur es) tok (r.seq + 1)
    (mi.plain = true → s.microReady tok true →
      (s.mach.packet (s.mach.lsEa mi) { rd := true } (ownBfd ldie) = .ok (m, src) → m.packet (m.lsOther mi) { wr := true } onPackage = .ok (m', dst) →
        (tok.pe = true → dst.all (fun x => x.2.pub != 0) = true) → m'.packetPaused src = none → m'.packetBad src = none →
        m'.packetStart dst = none → loads (.lsLd mi) false ∧ loads (.lsLdAcq mi) true) ∧
      (s.mach.packet (s.mach.lsEa mi) { wr := true } (ownBfd ldie) = .ok (m, dst) → m.packet (m.lsOther mi) { rd := true } onPackage = .ok (m', src) →
        (tok.pe = true → dst.all (fun x => x.2.pub != 0) = true) → m'.packetPaused dst = none → m'.packetBad src = none →
        m'.packetStart src = none →
        stores (.lsSt mi) 0 ∧
        (m'.redFreeze = none → stores (.lsStRel mi) (if dst.any (fun x => x.2.sysat) then 3 else 2)))) ∧
    (s.microReady tok false →
      (lsRedOk mi = true → ∀ op, AOp.ofCode mi.srcA.toNat = some op →
        s.mach.packet (s.mach.lsEa mi) { wr := true } (ownBfd ldie) = .ok (m, dst) → dst.all (fun x => x.2.pub == 0) = true →
        m.packet (s.mach.lbReg (mi.dest.toNat % 16)).toNat { rd := true } (fun p => p.tgt != 1) = .ok (m', src) →
        let homes := dst.flatMap (fun x => (List.range 64).map (fun i => x.2.home i))
        let place := (dst.head?.map (fun x => x.2.aplace)).getD 0
        (place ≤ 1 → (if m'.cj.fixed then m'.slotOk s.now (homes.headD 0) = true else m'.cs.phases ≠ 0)) →
        m'.packetPaused dst = none → m'.packetStart src = none → homes.all (fun h => !m'.cs.holds h 1) = true → m'.packetBad src = none →
        ∃ (x : Atom) (q : Mach), q.atoms = m'.atoms ++ [x] ∧ x.op = op ∧ x.form = 0 ∧ x.d = none ∧ x.flt = none ∧ x.sid = s.mach.cur ∧
          x.home = homes.headD 0 ∧ x.place = place ∧ x.red = some { homes := homes, type := mi.tail.type.toNat, rnd := mi.tail.rnd.toNat,
                                                                    src := r.packetBytes .plain src, grp := r.seq + 1 } ∧
          q = { r with atoms := q.atoms, streams := q.streams, agenda := q.agenda, seq := q.seq, fresh := q.fresh, lanes := q.lanes } ∧
          q.cs.regs = s.mach.cs.regs ∧ s.issuesDrain (.lsRed mi) q tok (r.seq + 1)) ∧
      (mi.plain = true → ∀ p, s.mach.lsEa mi % 64 = 0 → s.mach.publPage (s.mach.lsEa mi) = .ok (m, p) → ownBfd ldie p = true →
        p.pub ≠ 0 → s.mach.publs.any (fun q => q.sid == s.mach.cur) = false →
        ∃ t q, exec (.lsPubl mi) s = .next t ∧ t.mach.cs.hold = .publ q.id ∧ q ∈ t.mach.publs ∧ q.sid = s.mach.cur ∧
          q.pubrid = p.pub ∧ q.cx = m.cj.cx ∧ t.mach.homes = m.homes))

/-- R316 to R318: a strip's micro-order takes the next packet of each port it names and sends what it makes on a port, ten cycles after a
reduction, six after a pass; IDLE counts as issued n cycles later; RTADV sets the strip's epoch. R13, R273, R317: a packet that left a strip is on its link for the cycles of its port; at a die its bytes then stand at their home and no
other byte of memory changes, and at another switch die with room it joins the port that leads back (log 50). -/
def Obligations.StripWords : Prop :=
  (∀ (mi : Micro) (s : State),
    let tok := mi.tail.tok
    let c := s.mach.ccyc s.now
    let u := s.mach.cs.sel.unit
    let cc := s.mach.ccc
    let t0 := sget (s.mach.cct cc).strips u {}
    let own (ps : List Nat) : Prop := ∀ p ∈ ps, s.mach.portForeign p = false
    let with' (t : Strip) : Mach := s.mach.modCct cc (fun x => { x with strips := sset x.strips u t })
    s.microReady tok false →
    (∀ a b t1 t2, t0.take mi.srcA.toNat = some (a, t1) → t1.take mi.srcB.toNat = some (b, t2) →
      s.mach.stripType mi ∈ [0, 1, 8, 10, 11] → s.mach.stripRnd mi ≤ 4 → mi.tail.mask = 0 →
      own [mi.dest.toNat, mi.srcA.toNat, mi.srcB.toNat] →
      let q := (with' t2).leave s.now mi.dest.toNat 10 { a with data := nodeSum (s.mach.stripType mi) (s.mach.stripRnd mi) a.data b.data }
      s.issues (.rdc mi) q.2 tok q.1 2 []) ∧
    (mi.plain = true →
      (∀ a t1, t0.take mi.srcA.toNat = some (a, t1) →
        (own [mi.srcA.toNat] → s.issues (.flt mi) (with' t1) tok c 2 []) ∧
        (own [mi.dest.toNat, mi.srcA.toNat] →
          let q := (with' t1).leave s.now mi.dest.toNat 6 a
          s.issues (.pass mi) q.2 tok q.1 2 []) ∧
        (let outs := (List.range (mi.srcB.toNat + 1 - mi.dest.toNat)).map (· + mi.dest.toNat)
         own (mi.srcA.toNat :: outs) → mi.dest.toNat ≤ mi.srcB.toNat →
          let q := outs.foldl (fun (x : Nat × Mach) o => let r := x.2.leave s.now o 6 a; (max x.1 r.1, r.2)) (0, with' t1)
          s.issues (.mcast mi) q.2 tok q.1 2 [])) ∧
      s.issuesLate (.idle mi) s.mach tok (c + (mi.imm14 + 1)) true (c + mi.imm14) [] ∧
      s.issues (.rtadv mi) (with' { t0 with epoch := mi.srcA.toNat }) tok c 2 [])) ∧
  (∀ (s : State) (p : Pend) (u port : Nat) (pk : Packet),
    s.mach.pend.find? (fun q => q.id == s.mach.arg 0) = some p → p.eff = .strip u port pk →
    (s.mach.ev.length = 1 → ∃ t id, exec .stripPacketDelivery s = .next t ∧ t.mach.homes = s.mach.homes ∧
      (s.mach.jobTick p.job p.lc (p.due + s.mach.linkCycles p port pk), .stripPacketDelivery, [id, 1]) ∈ t.mach.agenda ∧
      ∃ x ∈ t.mach.pend, x.id = id ∧ x.eff = p.eff) ∧
    (s.mach.ev.length ≠ 1 → ∀ l back, s.mach.farPort p port = some (l, back) → s.mach.portRoom p = true →
      let far := ccKey (ccCx p.cc) (lcKey 4 l 0)
      ∃ t, exec .stripPacketDelivery s = .next t ∧ t.mach.homes = s.mach.homes ∧
        sget (sget (t.mach.cct far).strips u {}).ports back [] =
          sget (sget (s.mach.cct far).strips u {}).ports back [] ++ [{ pk with hops := pk.hops + 1 }]) ∧
    (s.mach.ev.length ≠ 1 → ∀ kind phys,
      portTo ((s.mach.part (cxPart (ccCx p.cc))).carrier 4 (lcDie p.lc)) port = .die kind phys →
      ∃ t, exec .stripPacketDelivery s = .next t ∧ t.now = s.now ∧ homeRead t.mach.homes pk.dst pk.data.length = pk.data ∧
        ∀ x, ¬(pk.dst ≤ x ∧ x < pk.dst + pk.data.length) → homeByte t.mach.homes x = homeByte s.mach.homes x))

/-! ### Freezes, rangers, events -/

/-- R410, R415 to R423: a frozen-state instruction whose FTC is live and grants its right is held until its reply, within 2 µs, with what it
reads of the frozen state, or with its write made; an FTC that is not live, or lacks the right, raises CAP_FAULT. A read of a register whose
parity does not match raises ECC (R80). FSTEP answers 3 for a
selector of no scalar stream of the job, 4 in fixed timing, 2 for a stream that was not RUNNING, else what the word it executes does. -/
def Obligations.FrozenStateWords : Prop :=
  ∀ (s : State) (d a b : R),
    let m := s.mach
    let item := (m.rs a).toNat / 2 ^ 32
    let faults (i : Instr) : Prop := ∃ t, exec i s = .next t ∧ s.Raises t { code := .capFault }
    let sound (l : Loc) (k : Nat) : Prop := ∀ j, j < 8 → (l, 8 * k + j) ∉ m.spoiled
    (m.ftc (m.rs b) ftcInspect = none → faults (.frd d a b) ∧ faults (.frdv d a b) ∧ faults (.ftab d a b) ∧ faults (.fstat d a b)) ∧
    (m.ftc (m.rs b) ftcPatch = none → faults (.fwr d a b) ∧ faults (.fwrv d a b)) ∧
    (m.ftc (m.rs b) ftcResume = none → faults (.fresume b) ∧ faults (.fstep d a b)) ∧
    (m.ftc (m.rs b) ftcKill = none → faults (.fkill b)) ∧
    ∀ h, (m.job (m.frec h).job).handle = some h →
      let goes (i : Instr) (n : Mach) (dst : Option R) (v : Word) (act : Nat) : Prop :=
        ∃ t tick, exec i s = .next t ∧ (s.on n).Held t (.frozen dst v act h) [] ∧
          (tick, .frozenStateReply, [m.cur]) ∈ t.mach.agenda ∧ tick ≤ s.now + 2000 * 84
      (m.ftc (m.rs b) ftcInspect = some h →
        ((m.rs a).toNat < (m.frec h).size → goes (.fstat d a b) m (some d) ((m.frec h).wordAt (m.rs a).toNat) 0) ∧
        ∀ i, m.frozenStream h (m.rs a) = some i →
          let x := m.str i
          (item < 32 → x.sel.cls = .scalar →
            (sound (.scalar i item) 0 → goes (.frd d a b) m (some d) (x.rd (BitVec.ofNat 5 item)) 0) ∧
            (¬sound (.scalar i item) 0 → ∃ t, exec (.frd d a b) s = .next t ∧
              (s.on (m.parityLog m.cur (m.pcOf (cxPart (m.job x.job).cx) x.sel.lc))).Raises t { code := .ecc })) ∧
          (item = 0x200 → x.sel.cls ≠ .scalar → goes (.frd d a b) m (some d) (BitVec.ofNat 64 x.step) 0) ∧
          (∀ v, ¬(item < 32 ∧ x.sel.cls = .scalar) → m.frdItem i item = .ok v → goes (.frd d a b) m (some d) v 0) ∧
          (∀ w n, wregOf x.sel (item % 256) = some (w, n) → fld item 8 8 = 0 → item / 2 ^ 16 < n →
            sound (w.loc (m.ccOf i)) (item / 2 ^ 16) →
            goes (.frdv d a b) m (some d) (wget ((m.cct (m.ccOf i)).wreg w) (item / 2 ^ 16)) 0) ∧
          (item = 0 → goes (.ftab d a b) m (some d) (x.estat (m.job x.job).jobid) 0) ∧
          (item = 1 → goes (.ftab d a b) m (some d) (BitVec.ofNat 64 x.base) 0) ∧
          (item = 2 → goes (.ftab d a b) m (some d) (BitVec.ofNat 64 x.len) 0)) ∧
      (m.ftc (m.rs b) ftcPatch = some h → ∀ i, m.frozenStream h (m.rs a) = some i →
        let x := m.str i
        (item < 32 → x.sel.cls = .scalar → ∃ n, goes (.fwr d a b) n none 0 0 ∧
          ∀ r, (n.str i).rd r = if r = 0 then 0 else if r = BitVec.ofNat 5 item then m.rs d else x.rd r) ∧
        (∀ n, m.fwrItem i item (m.rs d) = .ok n → goes (.fwr d a b) n none 0 0) ∧
        (∀ w k, wregOf x.sel (item % 256) = some (w, k) → fld item 8 8 = 0 → item / 2 ^ 16 < k → item % 256 ≠ 0x80 →
          ∃ n, goes (.fwrv d a b) n none 0 0 ∧ wget ((n.cct (m.ccOf i)).wreg w) (item / 2 ^ 16) = m.rs d)) ∧
      (m.ftc (m.rs b) ftcResume = some h → goes (.fresume b) m none 0 1 ∧
        (item = 0 →
          (m.frozenStream h (m.rs a) = none → goes (.fstep d a b) m (some d) 3 0) ∧
          ∀ i, m.frozenStream h (m.rs a) = some i →
            let x := m.str i
            (x.sel.cls ≠ .scalar → goes (.fstep d a b) m (some d) 3 0) ∧
            (x.sel.cls = .scalar → (m.job x.job).fixed = true → goes (.fstep d a b) m (some d) 4 0) ∧
            (x.sel.cls = .scalar → (m.job x.job).fixed = false →
              (x.state ≠ .frozen ∨ x.prev ≠ .running → goes (.fstep d a b) m (some d) 2 0) ∧
              (x.state = .frozen → x.prev = .running →
                goes (.fstep d a b) (m.stepFrozen s.now i h).1 (some d) (BitVec.ofNat 64 (m.stepFrozen s.now i h).2) 0)))) ∧
      (m.ftc (m.rs b) ftcKill = some h → goes (.fkill b) m none 0 2)

/-- R86, R398 to R402, R415, R421, R423: a word that no map lists freezes its job: in elastic mode the cluster's clock stands and its streams
are FROZEN with PREV; in fixed timing the job runs on to F + 30 and is then rewound to F. A resume returns each stream to PREV, a kill ends the
job. -/
def Obligations.FreezesAndResumes : Prop :=
  ∀ (s : State), (skeys s.mach.streams).Pairwise (· < ·) →
    let sid := s.mach.arg 0
    let stops (t : State) (job lc : Nat) : Prop :=
      (sget (t.mach.job job).clk lc {}).stopped = some (s.mach.jobCyc s.now job lc) ∧
      ((s.mach.job job).phase = .priming ∨ (s.mach.job job).phase = .primed → (s.mach.job job).handle = none →
        ∀ h ∈ (s.mach.job job).shares, (s.mach.findSel job h.sel).isSome = true) →
      ∀ i ∈ s.mach.streamsOn job lc, (s.mach.str i).state ≠ .idle → (s.mach.str i).state ≠ .done → (s.mach.str i).state ≠ .frozen →
        (s.mach.str i).hold = .none → (t.mach.str i).state = .frozen ∧ (t.mach.str i).prev = (s.mach.str i).state
    (∀ w, s.mach.kturn = false → s.mach.cj.window = false → s.mach.cj.handle = none →
      let j := s.mach.cs.job
      ∃ t h, exec (.illegalOp w) s = .next t ∧ (t.mach.job j).handle = some h ∧ (t.mach.job j).phase = .frozen ∧
        (t.mach.frec h).live = true ∧ (t.mach.frec h).flt = { code := .illegalOp } ∧ (t.mach.frec h).primary = s.mach.cur ∧
        (t.mach.frec h).fcyc = s.mach.ccyc s.now ∧
        ((s.mach.cj.fixed = false ∨ s.mach.cj.phase ≠ .running) → stops t j s.mach.clc) ∧
        (s.mach.cj.fixed = true → s.mach.cj.phase = .running → s.mach.cs.isRanger = false → (t.mach.job j).window = true ∧
          (s.mach.jobTick j s.mach.clc (s.mach.ccyc s.now + 31), .freezeRewind, [j]) ∈ t.mach.agenda)) ∧
    (∀ h, (s.mach.job (s.mach.arg 0)).handle = some h → s.mach.allStopped (s.mach.arg 0) = false →
      ∃ t, exec .freezeBroadcastArrival s = .next t ∧ stops t (s.mach.arg 0) (s.mach.arg 1)) ∧
    (∀ sv h, sget? s.mach.saves (s.mach.arg 0) = some sv → (s.mach.job (s.mach.arg 0)).handle = some h →
      (∀ i, (s.mach.str i).halts = false) → (∀ o ∈ sv.streams, o.2.halts = false) →
      ∃ t, exec .freezeRewind s = .next t ∧ (t.mach.job (s.mach.arg 0)).window = false ∧ sget? t.mach.saves (s.mach.arg 0) = none ∧
        t.mach.pend = s.mach.pend.filter (fun p => p.job != s.mach.arg 0) ++ sv.pend ∧
        (∀ lc ∈ s.mach.clustersOf (s.mach.arg 0), (sget (t.mach.job (s.mach.arg 0)).clk lc {}).stopped = some sv.cyc) ∧
        ∀ i o, i ∈ skeys s.mach.streams → sget? sv.streams i = some o → o.hold = .none →
          (t.mach.str i).regs = o.regs ∧ (t.mach.str i).step = o.step ∧ (t.mach.str i).fq0 = o.fq0) ∧
    (∀ dst v act h, (s.mach.str sid).hold = .frozen dst v act h → (s.mach.str sid).state ≠ .frozen → (s.mach.str sid).sel.cls = .scalar →
      let j := (s.mach.frec h).job
      (act = 0 → ∃ t, exec .frozenStateReply s = .next t ∧ s.Replied t sid (dst.getD 0) v) ∧
      ((s.mach.frec h).live = true → (s.mach.job j).handle = some h →
        (act = 1 → ∃ t, exec .frozenStateReply s = .next t ∧ s.Replied t sid (dst.getD 0) v ∧ (t.mach.frec h).live = false ∧
          (t.mach.job j).handle = none ∧
          (t.mach.job j).phase = if (s.mach.job j).atPriming then .priming else .running) ∧
        (act = 2 → ∃ t, exec .frozenStateReply s = .next t ∧ (t.mach.job j).phase = .ended)) ∧
      (act ≠ 0 → (s.mach.frec h).live = false → ∃ t, exec .frozenStateReply s = .next t ∧
        t = s.on ((({ s.mach with cur := sid } : Mach).modStr sid (fun x => { x with hold := .none })).takeFreeze s.now sid
          { code := .capFault }))) ∧
    ((s.mach.job (s.mach.arg 0)).handle = none → (s.mach.job (s.mach.arg 0)).phase = .running →
      (s.mach.job (s.mach.arg 0)).atPriming = false → s.mach.arg 1 ≠ 2048 →
      (s.mach.job (s.mach.arg 0)).dictDue.contains (s.mach.arg 1) = false →
      ∃ t, exec .resumeStart s = .next t ∧ (sget (t.mach.job (s.mach.arg 0)).clk (s.mach.arg 1) {}).stopped = none ∧
        ∀ i ∈ s.mach.streamsOn (s.mach.arg 0) (s.mach.arg 1), (s.mach.str i).state = .frozen →
          (t.mach.str i).state = (s.mach.str i).prev ∧ (t.mach.str i).prev = .idle)

/-- R404, R408 to R413, R425 to R427: a ranger starts in a free seat for the oldest record of its die, with its FTC, the record's first word and
its stack in registers; over, it gives its seat back. Escalated records return as room allows. An event goes into the host's ring; a die that kept
events posts them as one block. -/
def Obligations.RangersAndEvents : Prop :=
  ∀ (s : State),
    let die := s.mach.arg 0
    let part := s.mach.arg 0
    (∀ h rest rt va len sp k, (s.mach.die die).queue = h :: rest → (s.mach.frec h).live = true →
      (s.mach.ctx (s.mach.frec h).cx).pool = some (rt, va, len, sp) →
      (seatOrder (die / 8) (s.mach.frec h).cluster).find? (fun n => s.mach.seatUsable die (s.mach.frec h).core n) = some k →
      ∃ t i, exec .rangerSpawn s = .next t ∧ (t.mach.frec h).ranger = some i ∧ (t.mach.die die).queue = rest ∧
        sget? (t.mach.die die).seats ((s.mach.frec h).core * 4 + k) = some i ∧
        (t.mach.str i).ranger = some { handle := h, die := die, seat := (s.mach.frec h).core * 4 + k, spawn := s.now,
                                       second := (s.mach.frec h).tries != 0 } ∧
        (t.mach.str i).state = .running ∧ (t.mach.str i).base = va ∧ (t.mach.str i).len = len ∧
        (t.mach.str i).rd 1 = (s.mach.frec h).ftc h ∧ (t.mach.str i).rd 2 = (s.mach.frec h).wordAt 0 ∧
        (t.mach.str i).rd 3 = BitVec.ofNat 64 (s.mach.frec h).flt.fva ∧ (t.mach.str i).rd 4 = BitVec.ofNat 64 (s.mach.frec h).sel.word ∧
        (t.mach.str i).rd 30 = BitVec.ofNat 64 sp ∧
        (s.now + 10000000 * 84, .rangerTimeout, [i, 0]) ∈ t.mach.agenda) ∧
    (∀ i, (s.mach.str (s.mach.arg 0)).ranger = some i →
      (s.mach.arg 1 = 0 → (s.mach.str (s.mach.arg 0)).state ≠ .frozen) → (s.mach.arg 1 = 1 → (s.mach.str (s.mach.arg 0)).state = .waitRdv) →
      s.mach.arg 1 < 2 →
      ∃ t, exec .rangerTimeout s = .next t ∧ sget? (t.mach.die i.die).seats i.seat = none ∧
        (t.mach.job (s.mach.str (s.mach.arg 0)).job).phase = .ended) ∧
    (∀ h, s.mach.arg 1 ≠ 1 → (s.mach.part part).escalated.length ≤ 256 → (s.mach.frec h).live = true →
      (s.mach.part part).escalated.find? (fun x => decide ((s.mach.die (s.mach.frec x).die).queue.length < 16)) = some h →
      ∃ t, exec .poolReturn s = .next t ∧ (t.mach.part part).escalated = (s.mach.part part).escalated.filter (· != h) ∧
        (t.mach.die (s.mach.frec h).die).queue = (s.mach.die (s.mach.frec h).die).queue ++ [h] ∧
        (t.mach.frec h).code = (s.mach.frec h).flt.code.num) ∧
    (∀ i, s.mach.arg 1 = 1 → (s.mach.str (s.mach.frec (s.mach.arg 2)).primary).ranger = some i →
      ∃ t, exec .poolReturn s = .next t ∧ (t.mach.frec (s.mach.arg 2)).live = false ∧ sget? (t.mach.die i.die).seats i.seat = none) ∧
    (∀ e rest, (s.mach.part part).evheld = e :: rest → (s.mach.part part).evRoom = true →
      let p := s.mach.part part
      let ring := hostKey (p.evbase.toNat / 4096 * 4096 + 32 * (p.evtail % p.evSize))
      ∃ t, exec .eventPost s = .next t ∧ homeRead t.mach.homes ring 32 = e.bytes ∧
        (∀ x, ¬(ring ≤ x ∧ x < ring + 32) → homeByte t.mach.homes x = homeByte s.mach.homes x) ∧
        (t.mach.part part).evheld = rest ∧ (t.mach.part part).evtail = (p.evtail + 1) % p.evSize) ∧
    ∀ dk d, (dk, d) ∈ s.mach.dies → (∀ x ∈ s.mach.dies, x ≠ (dk, d) → x.2.waits part = true →
        d.waitsFrom part < x.2.waitsFrom part) →
      let mine := (d.window.filter (fun w => w.1 == part)).map (·.2)
      let ev (w0 w2 : Nat) : Event := { w0 := w0, w1 := 0, w2 := w2, w3 := s.now / 84 }
      let block := ev (0x41 * 2 ^ 56 + 2 ^ 44) mine.length :: mine ++
        (if sget d.lost part 0 = 0 then [] else [ev (0x41 * 2 ^ 56 + sget d.lostCode part 0 * 2 ^ 48 + 2 * 2 ^ 44) (sget d.lost part 0)])
      mine ≠ [] → (s.mach.part part).evheld.length + block.length ≤ 64 →
      ∃ t, exec .eventBackpressure s = .next t ∧ (t.mach.part part).evheld = (s.mach.part part).evheld ++ block ∧
        (t.mach.die dk).window.any (fun w => w.1 == part) = false ∧ sget (t.mach.die dk).lost part 0 = 0

/-! ### Launches, jobs, results -/

/-- R19, R38, R330, R335: the dispatcher takes a launch out of where it waited; one that passes its checks becomes a job with a JOBID that no live
job of its context has, one that fails leaves its status. A FORK answers the JOBID, or bit 63 and the status, or bit 62 while RCPEND holds launches. R44, R48 to R50, R62, R63, R66, R337, R351: a free cluster where the context stands is primed: its registers take their job-start values, its
streams are PRIMED at their tables; what must be free before a job begins priming is the model's choice (log 81). A fixed-timing job gets a start time on a whole microsecond, at least 2 µs ahead when it is new. At the start every
primed stream RUNS in one cycle with a fresh snapshot; a job whose region is HELD at its start time does not start. -/
def Obligations.LaunchDispatch : Prop :=
  (∀ (s : State),
    let part := s.mach.arg 0
    let made (t : State) (m' : Mach) (jb : Job) (src : Source) (q n : Nat) : Prop :=
      let j := t.mach.job m'.seq
      n < 65536 ∧ j.jobid = n ∧ j.source = src ∧ j.queue = q ∧ j.cx = jb.cx ∧ j.image = jb.image ∧ j.rcb = jb.rcb ∧ j.shares = jb.shares ∧
        j.args = jb.args ∧ j.fixed = jb.fixed ∧ j.phase = jb.phase ∧
        ∀ k ∈ s.mach.jobs, k.2.cx = jb.cx → k.2.live = true → k.2.jobid ≠ n
    (∀ d id, s.mach.arg 1 = 1 →
      let sid := s.mach.arg 2
      let j := s.mach.job (s.mach.str sid).job
      let l : Launch := { words := j.forkWords (s.mach.arg 4) (s.mach.arg 5), source := .fork (s.mach.str sid).job, queue := j.queue,
                          cx := j.cx, arr := s.mach.seq }
      (s.mach.str sid).hold = .complexReq id d → id = s.mach.arg 3 → (s.mach.str sid).state ≠ .frozen → (s.mach.str sid).sel.cls = .scalar →
      ((s.mach.part part).rcpend = true → ∃ t, exec .launchDispatch s = .next t ∧ s.Replied t sid d (BitVec.ofNat 64 (2 ^ 62)) ∧
        (t.mach.part part).held = (s.mach.part part).held ++ [{ l with held := true }] ∧ t.mach.jobs = s.mach.jobs) ∧
      ((s.mach.part part).rcpend = false →
        (∀ m' jb, s.mach.checkLaunch j.cx l.words false = .ok (m', jb) → ∃ t n, exec .launchDispatch s = .next t ∧
          s.Replied t sid d (BitVec.ofNat 64 n) ∧ made t m' jb (.fork (s.mach.str sid).job) j.queue n) ∧
        (∀ e, s.mach.checkLaunch j.cx l.words false = .error e → ∃ t, exec .launchDispatch s = .next t ∧
          s.Replied t sid d (BitVec.ofNat 64 (2 ^ 63 + e * 2 ^ 32)) ∧ t.mach.jobs = s.mach.jobs))) ∧
    (s.mach.arg 1 ≠ 1 → (s.mach.part part).rcpend = true → exec .launchDispatch s = .next s) ∧
    ∀ l, s.mach.arg 1 ≠ 1 → (s.mach.part part).rcpend = false → s.mach.nextLaunch part = some l →
      let host := match l.source with | .host _ => true | _ => false
      (∀ m' jb, (s.mach.takeLaunch part l).checkLaunch l.cx l.words host = .ok (m', jb) →
        ∃ t n, exec .launchDispatch s = .next t ∧ made t m' jb l.source l.queue n) ∧
      (∀ e, (s.mach.takeLaunch part l).checkLaunch l.cx l.words host = .error e →
        ∃ t, exec .launchDispatch s = .next t ∧ t.mach.jobs = s.mach.jobs ∧
          (∀ pidx, l.source = .host pidx →
            (s.now, .completionRecordWrite, [part, l.queue, 0, e, 0, pidx, s.now / 84]) ∈ t.mach.agenda) ∧
          (∀ j, l.source = .fork j →
            (s.now, .completionRecordWrite, [part, l.queue, 0, e, 0, 0x0FFFFFFF, s.now / 84]) ∈ t.mach.agenda) ∧
          (∀ i, l.source = .basket i → ((sget? (t.mach.part part).basket i).map (fun b => (b.state, b.status))) = some (0, e)))) ∧
  (∀ (s : State),
    let job := s.mach.arg 0
    let lc := s.mach.arg 1
    let j := s.mach.job job
    let cc := ccKey j.cx lc
    let pc := s.mach.pcl (s.mach.pcOf (cxPart j.cx) lc)
    (lc = 2048 → ∃ t T, exec .diePrime s = .next t ∧ (t.mach.job job).startAt = some T ∧ T % 84000 = 0 ∧ s.now ≤ T ∧
      (j.startAt = none → s.now + 168000 ≤ T) ∧ (T, .jobStart, [job, 2048]) ∈ t.mach.agenda) ∧
    (lc ≠ 2048 → j.toPrime.contains lc = true → (j.phase = .waiting ∨ j.phase = .priming ∨ j.phase = .running) →
      (j.phase = .waiting → s.mach.jobFree job = true) → (pc.active = some j.cx ∨ pc.bank = some j.cx) → j.dictimg = 0 →
      ∃ t, exec .diePrime s = .next t ∧ (t.mach.job job).toPrime = j.toPrime.filter (· != lc) ∧
        (t.mach.job job).phase = (if j.phase = .waiting then .priming else j.phase) ∧
        (t.mach.cct cc).vregs = [] ∧ (t.mach.cct cc).masks = [] ∧ (t.mach.cct cc).tiles = [] ∧ (t.mach.cct cc).acc = [] ∧
        (∀ n, jobCreg n = true → (t.mach.cct cc).creg n = cregReset n) ∧
        (∀ i, i < 4 → (t.mach.cct cc).creg (0x50 + i) = j.args.getD i 0) ∧ (t.mach.cct cc).creg 0x54 = BitVec.ofNat 64 j.jobid ∧
        (∀ f, f < 32 → (sget (t.mach.cct cc).fifos f {}).owner = some job) ∧
        ((j.shares.map (·.sel)).Nodup → ∀ x ∈ j.shares, x.sel.lc = lc → s.mach.findSel job x.sel = none → ∃ i, (t.mach.str i).job = job ∧ (t.mach.str i).sel = x.sel ∧ (t.mach.str i).state = .primed ∧
          (t.mach.str i).base = j.image + x.tbase ∧ (t.mach.str i).len = x.tlen ∧ (t.mach.str i).regs = [])) ∧
    ((j.phase = .priming ∨ j.phase = .primed ∨ j.phase = .running) →
      (lc = 2048 → (s.mach.rcbOf j.cx j.rcb).held = true → exec .jobStart s = .next s) ∧
      ((lc = 2048 → (s.mach.rcbOf j.cx j.rcb).held = false) → (∀ p ∈ s.mach.pend, p.job = job → ∀ es q, p.eff ≠ .land es q) →
        ∃ t, exec .jobStart s = .next t ∧ (t.mach.job job).phase = .running ∧ t.mach.homes = s.mach.homes ∧
          ∀ l ∈ (if lc = 2048 then j.lcs.filter (j.shareRuns (s.mach.part (cxPart j.cx))) else [lc]), (sget (t.mach.job job).clk l {}).stopped = none ∧
            ∀ i ∈ s.mach.streamsOn job l, (s.mach.str i).state = .primed →
              (t.mach.str i).state = .running ∧ (t.mach.str i).fresh = true ∧ (t.mach.str i).snap = s.mach.homes)))

/-- R22, R36, R39, R41, R332, R342, R346, R461: an engine stream at its table's end is DONE once its results are written; a job whose streams are
all at the rendezvous ends, DONE; a halt stops the job's streams and, at rest, ends it, HALTED; a deadline that passes is posted. A carrier whose
running share waits goes over to the next. -/
def Obligations.JobsEnd : Prop :=
  ∀ (s : State),
    let job := s.mach.arg 0
    let j := s.mach.job job
    let ends (i : Instr) (status : Nat) : Prop :=
      ∃ t, exec i s = .next t ∧ (t.mach.job job).phase = .ended ∧
        (∀ p ∈ t.mach.streams, p.2.job = job → p.2.state = .idle) ∧ (∀ c ∈ t.mach.copies, c.job ≠ job) ∧
        (∀ pidx, j.source = .host pidx →
          (s.now, .completionRecordWrite, [cxPart j.cx, j.queue, 0, status, j.jobid, pidx, s.now / 84]) ∈ t.mach.agenda) ∧
        (∀ i, j.source = .basket i → ((sget? (t.mach.part (cxPart j.cx)).basket i).map (fun b => (b.state, b.status))) = some (0, status))
    (s.mach.mayFinish job = true → ∃ t, exec .streamDone s = .next t ∧ t.mach.str job = { s.mach.str job with state := .done } ∧
      ∀ i, i ≠ job → t.mach.str i = s.mach.str i) ∧
    (s.mach.atRendezvous job = true → ends .rendezvousComplete 0) ∧
    (s.mach.arg 1 = 2049 → s.mach.haltOver job = true → ends .haltStop 2) ∧
    (s.mach.arg 1 ≠ 2049 → j.haltId = s.mach.arg 2 → j.phase ≠ .frozen → j.live = true →
      ∃ t, exec .haltStop s = .next t ∧ (t.mach.job job).phase = .halting ∧ (t.mach.job job).halted = true ∧
        ∀ i ∈ (if s.mach.arg 1 = 2048 then s.mach.streamsOf job else s.mach.streamsOn job (s.mach.arg 1)),
          (s.mach.str i).state ≠ .done → (s.mach.str i).state ≠ .idle → (s.mach.str i).hold = .none →
          (t.mach.str i).state = if (s.mach.str i).sel.cls = .scalar then .waitRdv else .stopped) ∧
    (j.deadline = some s.now → j.live = true → ∃ t, exec .deadlineMiss s = .next t ∧
      ((sget? (s.mach.ctx j.cx).rcbs j.rcb).isSome = true → (t.mach.rcbOf j.cx j.rcb).dlmiss = true) ∧
      (s.now, .completionRecordWrite, [cxPart j.cx, j.queue, 1, 0, j.jobid,
        (match j.source with | .host p => p | _ => 0), s.now / 84]) ∈ t.mach.agenda) ∧
    (s.mach.homes.bad = [] → s.mach.spoiled = [] →
      (∀ nx, s.mach.switchDue job (s.mach.arg 1) = some nx → ∃ t tick lc c, exec .shareSwitch s = .next t ∧
        sget? (t.mach.job job).share (s.mach.arg 1) = some (16 + nx) ∧
        (∀ h ∈ j.sharesOn (s.mach.arg 1 / 8) nx, s.mach.streamsOn job h.sel.lc = [] → h.sel.lc ∈ (t.mach.job job).toPrime) ∧
        (tick, .shareSwitchEnd, [job, s.mach.arg 1, nx, lc, c]) ∈ t.mach.agenda) ∧
      (j.live = true → sget j.share (s.mach.arg 1) 0 = 16 + s.mach.arg 2 →
        (j.fixed = true → s.mach.arg 4 ≤ s.mach.jobCyc s.now job (s.mach.arg 3)) →
        (∀ p ∈ s.mach.pend, p.job = job → ∀ es q, p.eff ≠ .land es q) →
        ∃ t, exec .shareSwitchEnd s = .next t ∧ sget? (t.mach.job job).share (s.mach.arg 1) = some (s.mach.arg 2) ∧
          t.mach.homes = s.mach.homes ∧
          ∀ h ∈ j.sharesOn (s.mach.arg 1 / 8) (s.mach.arg 2), ∀ i ∈ s.mach.streamsOn job h.sel.lc, (t.mach.str i).snap = s.mach.homes ∧
            ((∀ k ∈ s.mach.streamsOn job h.sel.lc, (s.mach.str k).state = .primed) → j.toPrime.contains h.sel.lc = false →
              (t.mach.str i).state = .running)))

/-- R44, R63, R105, R165, R178, R190, R192: in its declared write cycle a result is written and leaves the results in flight: a scalar register but S0, a
control register by its fields, flags ORed in, a vector register or mask under its write mask, a token. No byte of memory changes. R251 to R253, R260, R460: a store-buffer entry that nothing older overlaps performs at its homes, each bit its mask covers taking the stored value
and no other byte changing; an entry of a registered region goes to its draft, and one that may not perform yet stays. Of two stores of one bank cycle
that of the lower requester port goes first. -/
def Obligations.ResultsAreWritten : Prop :=
  (∀ (s : State) (p : Pend), s.mach.pend.find? (fun q => q.id == s.mach.arg 0) = some p →
    let done (t : State) : Prop := exec .resultWrite s = .next t ∧ t.now = s.now ∧ t.mach.homes = s.mach.homes ∧
      t.mach.pend = s.mach.pend.filter (fun q => q.id != s.mach.arg 0)
    let c := s.mach.cct p.cc
    (∀ (d : R) v, p.eff = .reg d.toNat v → ∃ t, done t ∧ (∀ i, i ≠ p.sid → t.mach.str i = s.mach.str i) ∧
      ∀ r, (t.mach.str p.sid).rd r = if r = 0 then 0 else if r = d then v else (s.mach.str p.sid).rd r) ∧
    (∀ (d : R) w hs mark v, p.eff = .regAcq d.toNat w hs mark v →
      let own := (s.mach.str p.sid).sb.filter (fun e => e.seq < mark)
      let x := if hs = [] then v else w.extend (hs.map (fun h => ownByte own h (homeByte s.mach.homes h)))
      ∃ t, done t ∧ (t.mach.str p.sid).snap = s.mach.homes ∧
        ∀ r, (t.mach.str p.sid).rd r = if r = 0 then 0 else if r = d then x else (s.mach.str p.sid).rd r) ∧
    (∀ k v, p.eff = .creg k v → k < 0x320 → ∃ t, done t ∧ t.mach.cct p.cc = c.cregWrite k v ∧ t.mach.streams = s.mach.streams) ∧
    (∀ k f, p.eff = .flags k f → ∃ t, done t ∧ (t.mach.cct p.cc).creg k = c.creg k ||| BitVec.ofNat 64 f ∧
      (∀ n, n ≠ k → (t.mach.cct p.cc).creg n = c.creg n) ∧ t.mach.streams = s.mach.streams) ∧
    (∀ u col d v km, 64 ≤ d → p.eff = .vec u col [(d, v, km)] → ∃ t, done t ∧ t.mach.streams = s.mach.streams ∧
      sget (t.mach.cct p.cc).vregs (u * 64 + (d - 64)) [] = wmerge 64 (sget c.vregs (u * 64 + (d - 64)) []) v km ∧
      (∀ n, n ≠ u * 64 + (d - 64) → sget (t.mach.cct p.cc).vregs n [] = sget c.vregs n [])) ∧
    (∀ u k v km, p.eff = .mask u k v km → ∃ t, done t ∧ t.mach.streams = s.mach.streams ∧
      sget (t.mach.cct p.cc).masks (u * 8 + k) [] = wmerge 16 (sget c.masks (u * 8 + k) []) v km) ∧
    ∀ f, p.eff = .sig f → ∃ t, done t ∧ t.mach.cct p.cc = c.signal f ∧ t.mach.streams = s.mach.streams) ∧
  (∀ (s : State) (e : SBEnt),
    let sid := s.mach.arg 0
    let x := s.mach.str sid
    let cx := (s.mach.job x.job).cx
    x.sb.find? (fun e => e.seq == s.mach.arg 1) = some e →
    (s.mach.mayDrain s.now sid e = true →
      let hs := e.bytes.map (·.1)
      let first := s.mach.portFirst s.now (cxPart cx) (s.mach.portOf (cxPart cx) x.sel e.line) hs
      (∀ tick, first = some tick → ∃ t, exec .storeBufferDrain s = .next t ∧ t.mach.streams = s.mach.streams ∧
        t.mach.homes = s.mach.homes ∧ (tick, .storeBufferDrain, [sid, e.seq]) ∈ t.mach.agenda) ∧
      (first = none → (s.mach.ctx cx).region e.pub = none → s.mach.homes.bad = [] →
        ∃ t, exec .storeBufferDrain s = .next t ∧ t.now = s.now ∧ (t.mach.str sid).sb = x.sb.filter (fun o => o.seq != e.seq) ∧
          (∀ i, i < 64 → homeByte t.mach.homes (swz e.span (e.line + i)) =
            mixByte (homeByte s.mach.homes (swz e.span (e.line + i))) (e.data / 256 ^ i) (e.mask / 256 ^ i)) ∧
          ∀ a, (∀ i, i < 64 → a ≠ swz e.span (e.line + i)) → homeByte t.mach.homes a = homeByte s.mach.homes a) ∧
      (first = none → ∀ r, (s.mach.ctx cx).region e.pub = some r →
        ∃ t r', exec .storeBufferDrain s = .next t ∧ t.mach.homes = s.mach.homes ∧
          (t.mach.str sid).sb = x.sb.filter (fun o => o.seq != e.seq) ∧ (t.mach.ctx cx).region e.pub = some r' ∧
          ∀ i, i < 64 → r'.draftByte s.mach.homes (swz e.span (e.line + i)) =
            mixByte (r.draftByte s.mach.homes (swz e.span (e.line + i))) (e.data / 256 ^ i) (e.mask / 256 ^ i))) ∧
    (s.mach.mayDrain s.now sid e = false → ∃ t tick, exec .storeBufferDrain s = .next t ∧ t.mach.streams = s.mach.streams ∧
      t.mach.homes = s.mach.homes ∧ s.now < tick ∧ (tick, .storeBufferDrain, [sid, e.seq]) ∈ t.mach.agenda))

/-! ### Steps, long forms, dictionary words -/

/-- R41, R91, R322, R323, R439: a step is what the package's turn names. For the word at FQ0 of a scalar stream, or at STEP of an engine stream, that
decodes to an instruction i, the step is `exec i` with the word's length and long form noted; an annulled word passes with no effect; an event due is
`exec` of it; a capability word of a core is `exec` of it; a package that a fatal event stopped waits for a
power-good, and without one it has no step. A word fetched is the four bytes that
memory holds for its stream, where its word is good. The words meant are those that read no register whose parity does not match (R80). Of the
words of one cycle whose streams issue together the one that issues first is `issuesFirst`: the stream whose turn it is, or one with
a word that raises a fault (R400, R403). -/
def Obligations.StepRunsTheWord : Prop :=
  ∀ (s : State) (m : Mach),
    (s.mach.stopped = true →
      (s.mach.nextBoot = none → step s = .fault .packageStopped) ∧
      ∀ t, s.mach.nextBoot = some (t, m) → t ≤ s.now → step s = exec .powerGood (s.on m)) ∧
    (∀ sid a m' p, a < (m.str sid).len → m.xlat sid ((m.str sid).base + 4 * a) { ex := true } = .ok (m', p) → m'.pgBad p 4 = false →
      m.fetchWord sid a = (m'.soft (m'.job (m.str sid).job).cx [p.home 0], .ok (leNat (m'.readPg sid .plain p 4)))) ∧
    (s.mach.stopped = false →
      (∀ e, s.mach.turn s.now = .event m e → step s = exec e (s.on m)) ∧
      (∀ w, s.mach.turn s.now = .core m w →
        (∀ i, decodeCap w = .ok i → step s = exec i (s.on m)) ∧
        (∀ e, decodeCap w = .error e → step s = exec (.illegalOp (BitVec.ofNat 32 w)) (s.on m))) ∧
      (∀ t, s.mach.turn s.now = .idle t m → step s = .next { now := t, mach := m }) ∧
      (∀ m0, s.mach.turn s.now = .word m0 →
        m0.issuesFirst exec s.now = { m0 with cur := (m0.issuesFirst exec s.now).cur } ∧
        (m0.sameCycle s.now = [] → m0.issuesFirst exec s.now = m0)) ∧
      ((∃ m0, s.mach.turn s.now = .word m0 ∧ m = m0.issuesFirst exec s.now) → m.readsSpoiled s.now m.cur = false → m.cs.sel.cls = .scalar →
        let q := m.cs.fq0
        let long := isLong q.w0
        (long = false ∨ m.cs.slots = 0) → q.flt = none →
        (q.annul = true → step s = .next (s.on (m.advance s.now m.cur none false))) ∧
        ∀ i, q.annul = false → (long = true → q.bodyFlt = none) → decodeWord .scalar m.cs.isRanger q.w0 q.w1 q.w2 = .ok i →
          step s = exec i (noteForm (if long then q.w1 + 2 ^ 32 * q.w2 else 0) (if long then 3 else 1) (s.on m))) ∧
      ((∃ m0, s.mach.turn s.now = .word m0 ∧ m = m0.issuesFirst exec s.now) → m.readsSpoiled s.now m.cur = false → m.cs.sel.cls ≠ .scalar →
        ∀ m1 w, m.engineWord m.cur m.cs.step = (m1, .ok w) →
          (isLong w = false → ∀ i, decodeWord m.cs.sel.cls false w 0 0 = .ok i → step s = exec i (noteForm 0 1 (s.on m1))) ∧
          (isLong w = true → fld w 0 21 = 0 → m.cs.step + 3 ≤ m.cs.len →
            ∀ m2 w1 m3 w2 i, m1.engineWord m1.cur (m.cs.step + 1) = (m2, .ok w1) → m2.engineWord m2.cur (m.cs.step + 2) = (m3, .ok w2) →
              decodeWord m.cs.sel.cls false w w1 w2 = .ok i → step s = exec i (noteForm (w1 + 2 ^ 32 * w2) 3 (s.on m3)))))

/-- R92, R96, R101, R111, R113, R176: a scalar long form is the plain instruction that its fields give, or an immediate form with 32 bits of
immediate; an engine long form is the micro-order of its fields; a dictionary word whose entry is valid is the form its entry expands to. An entry that is
not valid raises DICT_UNDEF, a PRIV entry outside a ranger ILLEGAL_OP, unless the expanded form lies on an open predicted path, which defers
that fault (R52). -/
def Obligations.LongFormsAndDictionaryWords : Prop :=
  ∀ (s : State) (f : BitVec 64) (delay : BitVec 4) (e : BitVec 8) (h : BitVec 23),
    let n := noteForm f.toNat 3 s
    (s.mach.cs.sel.cls = .scalar →
      (∀ i, decodeScalarForm s.mach.cs.isRanger f.toNat = .ok (.plain i) →
        ∃ t, exec (.scalarLongForm f) s = .next t ∧ exec i n = .next t) ∧
      ∀ op d a w imm, decodeScalarForm s.mach.cs.isRanger f.toNat = .ok (.ext op d a w imm) →
        let x := s.mach.rs a
        let yields (v : Word) : Prop := ∃ t, exec (.scalarLongForm f) s = .next t ∧ n.Retired t (n.writes 0 d v)
        (op = 0x04 → yields (x + imm.signExtend 64)) ∧
        (op = 0x05 → yields (x &&& imm.signExtend 64)) ∧
        (op = 0x06 → yields (x ||| imm.signExtend 64)) ∧
        (op = 0x07 → yields (x ^^^ imm.signExtend 64)) ∧
        (op = 0x08 → yields (shiftLeft x imm.toNat)) ∧
        (op = 0x09 → yields (shiftRight x imm.toNat)) ∧
        (op = 0x0A → yields (shiftSigned x imm.toNat)) ∧
        (op = 0x0B → yields (imm.signExtend 64))) ∧
    (∀ i, decodeEngForm s.mach.cs.sel.cls delay f.toNat = .ok i →
      ∃ t, exec (.engineLongForm delay f) s = .next t ∧ exec i n = .next t) ∧
    let k := s.mach.cs.sel.cls
    let entry := (s.mach.cct s.mach.ccc).entry k (if k = .scalar then s.mach.cs.fq0.bank else s.mach.cs.dbank) e.toNat
    let x := expand k entry (dictNumber e h)
    (entryValid entry = false →
      exec (.dictionaryWord e h) s = .next (s.on (s.mach.takeFreeze s.now s.mach.cur { code := .dictUndef }))) ∧
    (entryValid entry = true → entryPriv entry = true → s.mach.cs.isRanger = false → (k ≠ .scalar → s.mach.pathOf (decTok x.1) = none) →
      exec (.dictionaryWord e h) s = .next ((noteForm x.1 1 s).on ((noteForm x.1 1 s).mach.takeFreeze s.now s.mach.cur { code := .illegalOp }))) ∧
    (entryValid entry = true → (entryPriv entry = true → s.mach.cs.isRanger = true) → x.2 = false →
      (k = .scalar → ∀ i, decodeScalarForm s.mach.cs.isRanger x.1 = .ok (.plain i) →
        ∃ t, exec (.dictionaryWord e h) s = .next t ∧ exec i (noteForm x.1 1 s) = .next t) ∧
      (k ≠ .scalar → ∀ i, decodeEngForm k (BitVec.ofNat 4 (fld h.toNat 19 4)) x.1 = .ok i →
        ∃ t, exec (.dictionaryWord e h) s = .next t ∧ exec i (noteForm x.1 1 s) = .next t))

/-! ### The command complex -/

/-- R385 to R388: a capability instruction whose operand passes its checks replaces its destination and the core goes on at pc + 4: KSKIP and KTRIM
narrow, KDROP drops rights, KSTAMP makes a typed record, KFLD reads a field of one, KINFO tells of one; KTAKE and KGIVE move capabilities with their tags
in the private SRAM. A load, store or fetch reaches BASE + xa + offset. An untagged operand is a capability fault; KINFO of an unknown selector and a word that no
map lists take the illegal-instruction exception. -/
def Obligations.CapabilityWords : Prop :=
  ∀ (s : State) (b a d : R),
    let c := sget s.mach.kcores s.mach.kcur {}
    let k := c.kr a
    let x := (c.xr b).toNat
    let goes (i : Instr) (m : Mach) (c' : Core) : Prop :=
      exec i s = .next (s.on { m with kcores := sset m.kcores s.mach.kcur { c' with pc := c.pc + 4 }, kturn := false })
    let makes (i : Instr) (base length kind rights : Nat) : Prop :=
      ∃ k' : Cap, goes i s.mach (c.setK d k') ∧ k'.tag = true ∧ k'.base = base % 2 ^ 56 ∧ k'.length = length ∧ k'.kind = kind ∧
        k'.rights = rights ∧ k'.ctx = k.ctx
    let illegal : State :=
      s.on { s.mach with kcores := sset s.mach.kcores s.mach.kcur { c with mcause := 2, mepc := c.pc }, kturn := false }
    let faults (i : Instr) (cause value : Nat) : Prop :=
      exec i s = .next (s.on (({ s.mach with kcores := sset s.mach.kcores s.mach.kcur c, kturn := false } : Mach).capReport s.now c.part c.queue
        c.pidx cause 0xFF value k))
    let byteAt (g : Cap) (j : Nat) : Byte := BitVec.ofNat 8 (g.v.toNat / 256 ^ j)
    (k.tag = false → ∀ i ∈ [Instr.kskip b a d, .ktrim b a d, .kdrop b a d, .kstamp b a d, .kfld b a d, .ktake b a d, .kgive b a d],
      faults i 1 x) ∧
    (k.tag = true →
      (k.kind = 0 → k.rights < 256 →
        (x ≤ k.length → makes (.kskip b a d) (k.base + x) (k.length - x) 0 k.rights ∧ makes (.ktrim b a d) k.base x 0 k.rights) ∧
        (k.length < x → faults (.kskip b a d) 4 x ∧ faults (.ktrim b a d) 4 x)) ∧
      (k.rights < 256 → makes (.kdrop b a d) k.base k.length k.kind (k.rights &&& (0xFFF - x % 2 ^ 12))) ∧
      (k.kind = 0 → k.rights < 256 → bitOf k.rights 5 = true → 1 ≤ x → x ≤ 6 → k.length = recSize x → k.base % recSize x = 0 →
        makes (.kstamp b a d) k.base k.length x (k.rights - 32)) ∧
      (k.kind ≠ 0 → k.rights < 256 → bitOf k.rights 0 = true → 8 * x + 8 ≤ k.length →
        goes (.kfld b a d) (s.mach.kwalk c.part k (k.base + 8 * x) 8 { rd := true }) (c.setX d (BitVec.ofNat 64 (leNat ((List.range 8).map (fun i =>
          s.mach.kbyte c.part k (k.base + 8 * x + i))))))) ∧
      (k.kind = 0 → k.rights < 64 → x + 16 ≤ k.length → (k.base + x) % 16 = 0 → k.base + x < sramSize →
        (bitOf k.rights 0 = true → bitOf k.rights 3 = true →
          goes (.ktake b a d) s.mach (c.setK d (sget s.mach.sram ((k.base + x) / 16) {}))) ∧
        (bitOf k.rights 1 = true → bitOf k.rights 4 = true →
          goes (.kgive b a d) { s.mach with sram := sset s.mach.sram ((k.base + x) / 16) (c.kr d) } c))) ∧
    goes (.kinfo 0 a d) s.mach (c.setX d (BitVec.ofNat 64 k.base)) ∧
    goes (.kinfo 1 a d) s.mach (c.setX d (BitVec.ofNat 64 k.length)) ∧
    goes (.kinfo 2 a d) s.mach (c.setX d (BitVec.ofNat 64 k.rights)) ∧
    goes (.kinfo 3 a d) s.mach (c.setX d (BitVec.ofNat 64 k.kind)) ∧
    goes (.kinfo 4 a d) s.mach (c.setX d (BitVec.ofNat 64 k.ctx)) ∧
    goes (.kinfo 5 a d) s.mach (c.setX d (if k.tag then 1 else 0)) ∧
    (6 ≤ b.toNat → exec (.kinfo b a d) s = .next illegal) ∧
    (s.mach.kturn = true → ∀ w, exec (.illegalOp w) s = .next illegal) ∧
    (let ka := c.kr (BitVec.ofNat 5 (s.mach.arg 1))
     let xa := c.xr (BitVec.ofNat 5 (s.mach.arg 1))
     let n := s.mach.arg 3
     let r := BitVec.ofNat 5 (s.mach.arg 4)
     let ea := (ka.base + xa.toNat + s.mach.arg 2) % 2 ^ 64
     ka.tag = true → ka.kind = 0 → ka.rights < 64 → ka.base ≤ ea → ea + n ≤ ka.base + ka.length → ka.base + ka.length ≤ sramSize →
     (s.mach.arg 0 = 0 → bitOf ka.rights 0 = true → goes .capAccess s.mach (c.setX r (BitVec.ofNat 64 (leNat ((List.range n).map (fun i =>
       byteAt (sget s.mach.sram ((ea + i) / 16) {}) ((ea + i) % 16))))))) ∧
     (s.mach.arg 0 = 1 → bitOf ka.rights 1 = true → ∃ m, goes .capAccess m c ∧ m.homes = s.mach.homes ∧
       (∀ i, i < n → byteAt (sget m.sram ((ea + i) / 16) {}) ((ea + i) % 16) = BitVec.ofNat 8 ((c.xr r).toNat / 256 ^ i) ∧
         (sget m.sram ((ea + i) / 16) {}).tag = false) ∧
       ∀ y, ¬(ea ≤ y ∧ y < ea + n) → byteAt (sget m.sram (y / 16) {}) (y % 16) = byteAt (sget s.mach.sram (y / 16) {}) (y % 16)) ∧
     (s.mach.arg 0 = 2 → bitOf ka.rights 2 = true →
       exec .capAccess s = .next (s.on { s.mach with
         kcores := sset s.mach.kcores s.mach.kcur { c with pc := BitVec.ofNat 64 ea }, kturn := false })))

/-- R387: no instruction of a core widens bounds, adds a right, or turns a typed capability back into a raw one. Whatever tagged capability a core or
the private SRAM holds after one of the eight instructions, a load, a store or a fetch is no more than one that was there before. -/
def Obligations.CapabilitiesNeverGrow : Prop :=
  ∀ (s t : State) (b a d : R) (i : Instr),
    i ∈ [Instr.kskip b a d, .ktrim b a d, .kdrop b a d, .kstamp b a d, .kfld b a d, .kinfo b a d, .ktake b a d, .kgive b a d, .capAccess] →
    (∀ c, s.mach.holdsCap c → c.base + c.length ≤ 2 ^ 56) →
    exec i s = .next t →
    ∀ c, t.mach.holdsCap c → c.base + c.length ≤ 2 ^ 56 ∧ ∃ k, s.mach.holdsCap k ∧ c.narrower k

/-! ### The host's queues and registers -/

/-- R6, R291, R343 to R345, R358, R389, R425: a doorbell sets QTAIL and the complex reads on; QCTL is written while the queue is disabled, and enabling
starts its reading; CHEAD and EVHEAD take their values; a host access reads or writes the register block; a packet read moves QHEAD and goes to the dispatcher,
or to the admin commands of queue 0; an unmasked vector's pending message is sent. So QTAIL_DOORBELL, QCTL_WRITE, CHEAD_WRITE, EVHEAD_WRITE, REGISTER_WRITE,
MSIX_UNMASK, PACKET_READ, COMPLETION_RECORD_WRITE, COMPLETION_RETRY_TIMER and COALESCE_TIMER each complete. R346, R358, R359: a completion record is written at CTAIL, its sixteen bytes in the ring, when there is room; without room it waits; a record that
waited is written when CHEAD moves or at the retry. The pending records' message goes out when its timer expires. -/
def Obligations.HostRegisters : Prop :=
  (∀ (s : State),
    let part := s.mach.arg 0
    let q := s.mach.arg 1 % 64
    let x := s.mach.queue part q
    let v := BitVec.ofNat 64 (s.mach.arg 2)
    let reads (t : State) : Prop := ∃ tick, s.now ≤ tick ∧ (tick, .packetRead, [part, q]) ∈ t.mach.agenda
    (s.mach.linkUp = true → (sget? s.mach.parts part).isSome = true →
      (s.mach.arg 2 % 65536 < x.size → ∃ t, exec .qtailDoorbell s = .next t ∧ reads t ∧
        t.mach.queue part q = { x with qtail := s.mach.arg 2 % 65536, stuck := false }) ∧
      (x.size ≤ s.mach.arg 2 % 65536 → ∃ t, exec .qtailDoorbell s = .next t ∧ t.mach.queue part q = { x with err := true }) ∧
      (x.en = true → v.getLsbD 57 = true → ∃ t, exec .qctlWrite s = .next t ∧ t.mach.queue part q = { x with err := false }) ∧
      (x.en = true → v.getLsbD 57 = false → ∃ t, exec .qctlWrite s = .next t ∧ t.mach.queue part q =
        { x with qctl := x.qctl &&& ~~~(BitVec.ofNat 64 (2 ^ 57)) }) ∧
      (x.en = false → (v.getLsbD 57 = false → ∃ t, exec .qctlWrite s = .next t ∧ ∀ i, i < 64 → (t.mach.queue part q).qctl.getLsbD i =
        if (57 ≤ i ∨ (44 ≤ i ∧ i ≤ 55) ∨ (21 ≤ i ∧ i ≤ 31) ∨ i ≤ 15) then v.getLsbD i else x.qctl.getLsbD i) ∧
        (v.getLsbD 57 = true → 4 ≤ fld v.toNat 48 4 → fld v.toNat 48 4 ≤ 12 → 4 ≤ fld v.toNat 44 4 → fld v.toNat 44 4 ≤ 12 → 1 ≤ fld v.toNat 8 8 →
          1 ≤ fld v.toNat 0 8 → fld v.toNat 0 8 ≤ 64 →
          (∀ y ∈ (s.mach.part part).queues, y.1 ≠ q → y.2.en = true → y.2.vec ≠ fld v.toNat 21 11) → q ≠ 0 →
          ∃ t, exec .qctlWrite s = .next t ∧ reads t ∧ (t.mach.queue part q).en = true ∧ (t.mach.queue part q).pidx = 0 ∧
            (t.mach.queue part q).err = false)) ∧
      (x.waiting = [] → ∃ t, exec .cheadWrite s = .next t ∧
        t.mach.queue part q = { x with chead := s.mach.arg 2 % 65536, cfull := false, cfail := false }) ∧
      (∃ t, exec .evheadWrite s = .next t ∧ (t.mach.part part).evhead = s.mach.arg 1 % 65536) ∧
      (s.mach.arg 3 = 1 → exec .registerWrite s = .next (s.on { s.mach with
        out := s.mach.out ++ [.word part (s.mach.hostReg part (s.mach.arg 1))] })) ∧
      (s.mach.arg 3 ≠ 1 →
        (s.mach.arg 1 % 8 ≠ 0 → exec .registerWrite s = .next s) ∧
        (∀ i, i < 3 → s.mach.arg 1 = 0x2000 + 8 * i → ∃ t, exec .registerWrite s = .next t ∧
          (t.mach.part part).abx = (s.mach.part part).abx.set i v) ∧
        (∀ n, n < 64 → s.mach.arg 1 = 0x4000 + 64 * n → ∃ t, exec .registerWrite s = .next t ∧
          t.mach.queue part n = { s.mach.queue part n with qbase := v &&& BitVec.ofNat 64 (2 ^ 64 - 2 ^ 12 + 1) }) ∧
        (s.mach.arg 1 = 0x6000 → ∃ t, exec .registerWrite s = .next t ∧
          (t.mach.part part).evbase = v &&& BitVec.ofNat 64 (2 ^ 64 - 2 ^ 12))) ∧
      (s.mach.arg 2 = 1 → ∃ t, exec .msixUnmask s = .next t ∧ s.mach.arg 1 ∈ (t.mach.part part).masked ∧ t.mach.out = s.mach.out) ∧
      (s.mach.arg 2 ≠ 1 → ∃ t, exec .msixUnmask s = .next t ∧ s.mach.arg 1 ∉ (t.mach.part part).masked ∧
        s.mach.arg 1 ∉ (t.mach.part part).pendVec ∧ t.mach.out = s.mach.out ++
          if (s.mach.part part).pendVec.contains (s.mach.arg 1) then [.msix part (s.mach.arg 1)] else [])) ∧
    ∀ m' hs, s.mach.arg 1 < 64 → x.en = true → x.stuck = false → x.resetting = false → x.qhead ≠ x.qtail →
      s.mach.ringHomes part x x.qbase (64 * (x.qhead % x.size)) 64 { rd := true } = some (m', hs) →
      hs.any (fun h => badIn m'.homes h 1) = false →
      let w := wordsOf (hs.map (homeByte m'.homes))
      (q ≠ 0 → w.getD 0 0 < 2 ^ 56 → w.getD 1 0 < 2 ^ 56 → ∃ t, exec .packetRead s = .next t ∧ t.mach.queue part q =
        { x with qhead := (x.qhead + 1) % x.size, pidx := (x.pidx + 1) % 2 ^ 28,
                 valid := x.valid ++ [{ words := w, source := .host x.pidx, queue := q, cx := x.cx part, arr := s.mach.seq }] }) ∧
      (q = 0 → w.getD 0 0 % 2 ^ 56 = 0 → ∀ e, adminEvent (w.getD 0 0 / 2 ^ 56) = some e → ∃ t, exec .packetRead s = .next t ∧
        (s.now, e, part :: x.pidx :: w) ∈ t.mach.agenda ∧ (t.mach.queue part 0).qhead = (x.qhead + 1) % x.size) ∧
      (q = 0 → (w.getD 0 0 % 2 ^ 56 ≠ 0 ∨ adminEvent (w.getD 0 0 / 2 ^ 56) = none) → ∃ t, exec .packetRead s = .next t ∧
        (s.now, .completionRecordWrite, [part, 0, 3, 0x130, 0, x.pidx, 0]) ∈ t.mach.agenda)) ∧
  (∀ (s : State),
    let part := s.mach.arg 0
    let q := s.mach.arg 1
    let x := s.mach.queue part q
    let lands (i : Instr) (w0 w1 : Nat) : Prop :=
      (x.ctail + 1) % x.csize ≠ x.chead % x.csize →
      ∀ m' hs, s.mach.ringHomes part x x.cbase (16 * (x.ctail % x.csize)) 16 { wr := true } = some (m', hs) → hs.Nodup →
        hs.any (fun h => badIn m'.homes h 1) = false →
        ∃ t, exec i s = .next t ∧
          (∀ j, j < 16 → homeByte t.mach.homes (hs.getD j 0) = (leBytes 8 w0 ++ leBytes 8 w1).getD j 0) ∧
          (∀ a, a ∉ hs → homeByte t.mach.homes a = homeByte m'.homes a) ∧
          (t.mach.queue part q).ctail = (x.ctail + 1) % x.csize ∧ (t.mach.queue part q).waiting = [] ∧ (t.mach.queue part q).cfull = false
    let w0 := s.mach.arg 2 % 16 * 2 ^ 60 + s.mach.arg 5 % 2 ^ 28 * 2 ^ 32 + s.mach.arg 3 % 2 ^ 16 * 2 ^ 16 + s.mach.arg 4 % 2 ^ 16
    (x.waiting = [] → lands .completionRecordWrite w0 (s.mach.arg 6 % 2 ^ 64)) ∧
    ((x.ctail + 1) % x.csize = x.chead % x.csize → ∃ t, exec .completionRecordWrite s = .next t ∧ t.mach.homes = s.mach.homes ∧
      t.mach.queue part q = { x with waiting := x.waiting ++ [(w0, s.mach.arg 6 % 2 ^ 64)], cfull := true }) ∧
    (∀ a b, x.waiting = [(a, b)] → lands .completionRetryTimer a b) ∧
    (x.ipend ≠ 0 → x.t1 = s.mach.arg 2 → (s.mach.arg 3 = 0 → x.ipend = 1) →
      (s.mach.part part).masked.contains x.vec = false →
      ∃ t, exec .coalesceTimer s = .next t ∧ t.mach.out = s.mach.out ++ [.msix part x.vec] ∧ (t.mach.queue part q).ipend = 0))

/-! ### Admin commands -/

/-- R28, R29, R37, R276, R331, R334, R347, R361, R366, R370, R381, R407, R432, R436: an admin command with a one among its reserved operand bits, or on a
context that does not stand, completes with BAD_ADMIN; else each has its effect and completes, at once or when what it started is over. So CTX_CREATE, CTX_TEARDOWN, RCB_UPDATE, BASKET_SIZE,
BASKET_PUT, BASKET_DEL, ENERGY_SET, POWER_CAP, QUEUE_RESET, IFST, XINVAL, RANGER_SET, HAMPER_SET, PART_SWAP, QUEUE_RESET_COMPLETE and IFST_UNIT_COMPLETE each complete. R276, R370: a queue's reset completes once nothing of its jobs is in flight, and the complex reads the queue again; a self-test's last unit ends the test of
its cluster, and the command. -/
def Obligations.AdminCommands : Prop :=
  (∀ (s : State),
    let part := s.mach.arg 0
    let pidx := s.mach.arg 1
    let w (i : Nat) : Nat := s.mach.arg (2 + i)
    let cx := cxKey part (fld (w 1) 0 6)
    let p := s.mach.part part
    let all := 2 ^ 64 - 1
    let fits (masks : List Nat) : Prop := ∀ i, i < 7 → w (i + 1) &&& (2 ^ 64 - 1 - masks.getD i 0) = 0
    let completes (t : State) (status value : Nat) : Prop :=
      (s.now, .completionRecordWrite, [part, 0, 3, status, 0, pidx, value]) ∈ t.mach.agenda
    (∀ i masks, (i, masks) ∈ [(Instr.ctxCreate, [0x13F, all, all, all, all, all, all]), (.ctxTeardown, [0x3F]), (.rcbUpdate, [all]),
        (.basketSize, [0x7FF]), (.basketPut, [0x3FF, all]), (.basketDel, [0x3FF]), (.energySet, [0x3F, 2 ^ 48 - 1]), (.powerCap, [2 ^ 32 - 1]),
        (.queueReset, [0x3F]), (.ifst, [0x7FFFF]), (.xinval, [0xF3F, all]), (.rangerSet, [0xF3F, all, 2 ^ 24 - 1, all]),
        (.hamperSet, [0x3F, all, all]), (.partSwap, [])] → ¬fits masks →
      ∃ t, exec i s = .next t ∧ completes t 0x130 0 ∧ t.mach.ctxs = s.mach.ctxs ∧ t.mach.jobs = s.mach.jobs ∧ t.mach.homes = s.mach.homes) ∧
    (fits [0x13F, all, all, all, all, all, all] →
      (s.mach.ctxThere cx = true → ∃ t, exec .ctxCreate s = .next t ∧ completes t 0x130 0 ∧ t.mach.ctxs = s.mach.ctxs) ∧
      (s.mach.ctxThere cx = false → s.mach.ctxNamed cx = false → w 2 < 2 ^ 56 → fld (w 2) 1 13 = 0 →
        ∃ t, exec .ctxCreate s = .next t ∧ completes t 0 0 ∧ (t.mach.ctx cx).fixed = (w 1).testBit 8 ∧ (t.mach.ctx cx).root = w 2 ∧
          (t.mach.ctx cx).rcb = w 3 ∧ (t.mach.ctx cx).ewgt = [w 4, w 5, w 6, w 7] ∧ (t.mach.ctx cx).going = false ∧
          (t.mach.ctx cx).regions = [] ∧ ∀ k, ccCx k = cx → t.mach.cct k = {})) ∧
    (fits [0x3F] → s.mach.ctxThere cx = true → ∃ t, exec .ctxTeardown s = .next t ∧ (t.mach.ctx cx).going = true ∧
      ((skeys s.mach.jobs).Pairwise (· < ·) → ∀ k ∈ t.mach.jobs, k.2.cx = cx → k.2.live = false) ∧
      ∃ v ∈ t.mach.invs, v.cx = cx ∧ v.all = true ∧ v.admin = some (part, pidx)) ∧
    (fits [0x3F, 2 ^ 48 - 1] → s.mach.ctxThere cx = true → ∃ t, exec .energySet s = .next t ∧ completes t 0 0 ∧
      (t.mach.ctx cx).ecnt = w 2 ∧ ∀ k ∈ skeys s.mach.ccs, ccCx k = cx → (t.mach.cct k).ecnt = w 2 ∧ (t.mach.cct k).eclPj = 0) ∧
    (fits [all] → ∀ c m' l, (s.mach.ctxsOf part).filter (fun c => (sget? (s.mach.ctx c).rcbs (w 1)).isSome && s.mach.rcbNamed c (w 1)) = [c] →
      s.mach.validRcb c 8 (w 1) = some (m', l) →
      ∃ t, exec .rcbUpdate s = .next t ∧ completes t 0 0 ∧ (t.mach.rcbOf c (w 1)).next = some (l.headD (0, [])).2 ∧
        (t.mach.rcbOf c (w 1)).words = (s.mach.rcbOf c (w 1)).words) ∧
    (fits [0x7FF] →
      ((w 1 = 0 ∨ 1024 < w 1 ∨ p.basket ≠ []) → ∃ t, exec .basketSize s = .next t ∧ completes t 0x130 0 ∧ (t.mach.part part).bsize = p.bsize) ∧
      (1 ≤ w 1 → w 1 ≤ 1024 → p.basket = [] → ∃ t, exec .basketSize s = .next t ∧ completes t 0 0 ∧ (t.mach.part part).bsize = w 1)) ∧
    (fits [0x3FF, all] → w 1 < p.bsize → sget? p.basket (w 1) = none → ∀ m' ws,
      (s.mach.ctxsOf part).findSome? (fun c => match s.mach.readWords c (w 2) 8 with
        | some (m, ws) => if ws.getD 7 0 / 2 ^ 58 == c % 64 then some (m, ws) else none
        | none => none) = some (m', ws) →
      ∃ t b, exec .basketPut s = .next t ∧ completes t 0 0 ∧ sget? (t.mach.part part).basket (w 1) = some b ∧ b.state = 0 ∧
        (∀ i, i < 7 → b.words.getD i 0 = ws.getD i 0)) ∧
    (fits [0x3FF] → ∀ b, sget? p.basket (w 1) = some b →
      (b.state = 0 → ∃ t, exec .basketDel s = .next t ∧ completes t 0 0 ∧ sget? (t.mach.part part).basket (w 1) = none) ∧
      (b.state ≠ 0 → ∃ t, exec .basketDel s = .next t ∧ completes t 0x130 0 ∧ (t.mach.part part).basket = p.basket)) ∧
    (fits [2 ^ 32 - 1] →
      let sum := (s.mach.parts.map (fun q => q.2.floor)).sum
      (p.manager = false → ∃ t, exec .powerCap s = .next t ∧ completes t 0x133 s.mach.pcap ∧ t.mach.pcap = s.mach.pcap) ∧
      (p.manager = true →
        (w 1 < sum → ∃ t, exec .powerCap s = .next t ∧ completes t 0x132 s.mach.pcap ∧ t.mach.pcap = s.mach.pcap) ∧
        (sum ≤ w 1 → w 1 < s.mach.pidle → ∃ t, exec .powerCap s = .next t ∧ completes t 0x131 s.mach.pidle ∧ t.mach.pcap = s.mach.pidle) ∧
        (sum ≤ w 1 → s.mach.pidle ≤ w 1 → w 1 ≤ Config.pcapReset → ∃ t, exec .powerCap s = .next t ∧ completes t 0 (w 1) ∧
          t.mach.pcap = w 1))) ∧
    (fits [0x3F] →
      (w 1 = 0 → ∃ t, exec .queueReset s = .next t ∧ completes t 0x130 0 ∧ t.mach.jobs = s.mach.jobs) ∧
      (w 1 ≠ 0 → ∃ t tick, exec .queueReset s = .next t ∧ (t.mach.queue part (w 1)).valid = [] ∧
        (t.mach.queue part (w 1)).resetting = true ∧
        ((skeys s.mach.jobs).Pairwise (· < ·) → ∀ k ∈ t.mach.jobs, k.2.onQueue part (w 1) = true → k.2.live = false) ∧
        (tick, .queueResetComplete, [part, pidx, w 1]) ∈ t.mach.agenda)) ∧
    (fits [0x7FFFF] →
      let kind := fld (w 1) 0 3
      let dk := dieKey kind (fld (w 1) 3 3)
      let mask := fld (w 1) 6 12
      kind < 5 → dk ∈ s.mach.ownedDies part → mask < 2 ^ Config.clusterCount kind → ((w 1).testBit 18 = true → kind = 0) →
      (ifstUnits kind mask ((w 1).testBit 18) = [] → ∃ t, exec .ifst s = .next t ∧ completes t 0 0) ∧
      ∀ u rest n, ifstUnits kind mask ((w 1).testBit 18) = u :: rest →
        let pc := pcKey (dk / 8) (dk % 8) (u / 2) (if dk / 8 = 4 then part else 0)
        u % 2 = 0 → s.mach.vacate s.now pc = some n →
        ∃ t args, exec .ifst s = .next t ∧ (t.mach.pcl pc).testing = true ∧ (s.now + 150 * 1000 * 84, .ifstUnitComplete, args) ∈ t.mach.agenda) ∧
    (fits [0xF3F, all] → s.mach.ctxThere cx = true → ((w 1).testBit 8 = true ∨ w 2 % 2 ^ pszLog (fld (w 1) 9 3) = 0) →
      ∃ t, exec .xinval s = .next t ∧ ∃ v ∈ t.mach.invs, v.cx = cx ∧ v.all = (w 1).testBit 8 ∧ v.va = w 2 ∧ v.psz = fld (w 1) 9 3 ∧
        v.admin = some (part, pidx)) ∧
    (fits [0xF3F, all, 2 ^ 24 - 1, all] → s.mach.ctxThere cx = true → w 2 % 64 = 0 → ∃ t, exec .rangerSet s = .next t ∧ completes t 0 0 ∧
      (t.mach.ctx cx).pool = some (fld (w 1) 8 4, w 2, w 3, w 4)) ∧
    (fits [0x3F, all, all] → s.mach.ctxThere cx = true → w 2 % 65536 = 0 →
      2 ^ 25 * ((List.range 5).map (fun k => p.lcount k * Config.clusterCount k)).sum ≤ w 3 → ∀ m' pages,
      s.mach.areaPages cx (w 2 + w 3) (w 3 / 4096 + 1) (w 2) = some (m', pages) → ∃ t, exec .hamperSet s = .next t ∧ completes t 0 0 ∧
        (t.mach.ctx cx).hamper = some (w 2, w 3) ∧ (t.mach.ctx cx).hpages = pages) ∧
    (fits [] → p.swap = none → ∃ t tick, exec .partSwap s = .next t ∧ (t.mach.part part).swap = some (pidx, 0, []) ∧
      (tick, .partSwapHalted, [part]) ∈ t.mach.agenda)) ∧
  (∀ (s : State),
    let part := s.mach.arg 0
    let pidx := s.mach.arg 1
    let completes (t : State) (value : Nat) : Prop := (s.now, .completionRecordWrite, [part, 0, 3, 0, 0, pidx, value]) ∈ t.mach.agenda
    (let q := s.mach.arg 2
     let mine (j : Nat) : Prop := ((s.mach.job j).onQueue part q && !(s.mach.job j).live && (sget? s.mach.jobs j).isSome) = true
     (∀ a ∈ s.mach.atoms, a.mbox = none → ¬mine a.job) → (∀ c ∈ s.mach.copies, ¬mine c.job) → (∀ p ∈ s.mach.pend, ¬mine p.job) →
     (∀ x ∈ s.mach.streams, mine x.2.job → x.2.sb = []) →
     ∃ t tick, exec .queueResetComplete s = .next t ∧ (t.mach.queue part q).resetting = false ∧
       (t.mach.queue part q).qhead = (s.mach.queue part q).qtail ∧ completes t 0 ∧
       (tick, .packetRead, [part, q]) ∈ t.mach.agenda) ∧
    (s.mach.arg 4 = 0 →
      let dk := s.mach.arg 2
      let pc := pcKey (dk / 8) (dk % 8) (s.mach.arg 3 / 2) (if dk / 8 = 4 then part else 0)
      ∃ t got, exec .ifstUnitComplete s = .next t ∧ (t.mach.pcl pc).testing = false ∧ completes t got))

/-! ### The host's atomics and memory, the fabric manager -/

/-- R274, R291, R372, R374, R384: a mailbox atomic that passes its checks leaves for its place, with its source and sequence number; a host AtomicOp on
bytes mapped with SYSAT performs at once and answers the old value; HDM reads and writes reach their homes; the fabric manager hears of every partition and may not
allocate. So ABX_ADD, ABX_AND, ABX_OR, ABX_XOR, ABX_MIN, ABX_MAX, ABX_MINN, ABX_MAXN, ABX_SWAP, ABX_CAS, ATOMICOP_FETCHADD, ATOMICOP_SWAP, ATOMICOP_CAS,
HDM_READ, HDM_WRITE, FM_LD_INFO and FM_LD_ALLOCATION each complete. -/
def Obligations.HostMemory : Prop :=
  ∀ (s : State),
    let part := s.mach.arg 0
    let p := s.mach.part part
    let off := s.mach.arg 1
    (let ctl := (p.abx.getD 3 0).toNat
     let cx := cxKey part (fld ctl 58 6)
     let n := if ctl.testBit 0 then 8 else 4
     let ea := (p.abx.getD 0 0).toNat
     ∀ i op, (i, op) ∈ [(Instr.abxAdd, AOp.add), (.abxAnd, .and), (.abxOr, .or), (.abxXor, .xor), (.abxMin, .min), (.abxMax, .max),
        (.abxMinn, .minn), (.abxMaxn, .maxn), (.abxSwap, .swap), (.abxCas, .cas)] →
      (p.abx.length = 6 → s.mach.ctxThere cx = true → ea % n ≠ 0 → ∃ t, exec i s = .next t ∧ (t.mach.part part).abx.getD 5 0 = 0x13 ∧
        t.mach.atoms = s.mach.atoms) ∧
      (s.mach.ctxThere cx = true → ea % n = 0 → ∀ m' pg, s.mach.xlatCx cx ea { rd := true, wr := true } = .ok (m', pg) → pg.pub = 0 →
        (homeLc (pg.home 0)).any (s.mach.awaitsStart cx) = false →
        ∃ t a, exec i s = .next t ∧ t.mach.atoms = s.mach.atoms ++ [a] ∧ a.op = op ∧ a.form = 0 ∧ a.w64 = ctl.testBit 0 ∧ a.home = pg.home 0 ∧
          a.opnd = p.abx.getD 1 0 ∧ a.cmp = p.abx.getD 2 0 ∧ a.mbox = some part ∧ a.source = some (0x20000 + part, fld ctl 16 16) ∧
          (s.now + 10000 * 84, .seqAtomicResend, [a.id]) ∈ t.mach.agenda)) ∧
    (s.mach.linkUp = true →
      (∃ t, exec .fmLdInfo s = .next t ∧ t.mach = { s.mach with out := s.mach.out ++ [.reply part 0 (leBytes 2 s.mach.parts.length ++
        s.mach.parts.flatMap (fun q => leBytes 2 q.1 ++ leBytes 8 (q.2.lcount 2 * 2 ^ 37)))] }) ∧
      (∃ t, exec .fmLdAllocation s = .next t ∧ t.mach = { s.mach with out := s.mach.out ++ [.unsupported part] }) ∧
      ((sget? s.mach.parts part).isSome = true →
        (∀ i op, (i, op) ∈ [(Instr.atomicopFetchadd, AOp.add), (.atomicopSwap, .swap), (.atomicopCas, .cas)] →
          let n := if s.mach.arg 2 = 1 then 8 else 4
          let h := homeKey part off
          off % n = 0 → off + n ≤ p.lcount 2 * 2 ^ 37 → badIn s.mach.homes h n = false →
          (s.mach.ctxsOf part).any (fun c => s.mach.mapsSysat part off 6 0 0 (fld (s.mach.ctx c).root 12 44 * 2 ^ 12) (bitOf (s.mach.ctx c).root 0))
            = true → s.mach.regionsAt h = [] →
          let old := leNat (homeRead s.mach.homes h n)
          ∃ t, exec i s = .next t ∧ t.mach.out = s.mach.out ++ [.word part (BitVec.ofNat 64 old)] ∧
            homeRead t.mach.homes h n = leBytes n (atomicResult op (8 * n) (BitVec.ofNat (8 * n) old)
              (BitVec.ofNat (8 * n) (s.mach.arg 3)) (BitVec.ofNat (8 * n) (s.mach.arg 4))).toNat ∧
            ∀ x, ¬(h ≤ x ∧ x < h + n) → homeByte t.mach.homes x = homeByte s.mach.homes x) ∧
        (∀ h, s.mach.hdmHome part off (s.mach.arg 2) = some h → badIn s.mach.homes h (s.mach.arg 2) = false →
          ∃ t, exec .hdmRead s = .next t ∧ t.mach.out = s.mach.out ++ [.data part (homeRead s.mach.homes h (s.mach.arg 2))] ∧
            t.mach.homes.cells = s.mach.homes.cells) ∧
        (s.mach.hdmHome part off (s.mach.arg 2) = none →
          exec .hdmRead s = .next (s.on { s.mach with out := s.mach.out ++ [.unsupported part] })) ∧
        let bs := (s.mach.ev.drop 2).map (fun b => BitVec.ofNat 8 b)
        ∀ h, s.mach.hdmHome part off bs.length = some h → s.mach.homes.bad = [] →
          ((∀ c ∈ s.mach.ctxs, c.2.regions = []) → ∃ t, exec .hdmWrite s = .next t ∧ homeRead t.mach.homes h bs.length = bs ∧
            ∀ x, ¬(h ≤ x ∧ x < h + bs.length) → homeByte t.mach.homes x = homeByte s.mach.homes x) ∧
          (bs.length = 1 → s.mach.regionsAt h ≠ [] → ∃ t, exec .hdmWrite s = .next t ∧ t.mach.homes.cells = s.mach.homes.cells)))

/-! ### Boot, attestation -/

/-- R390 to R393, R396, R397: a power-good empties the device and keeps host memory; each die goes HELD, IDENT, VERIFIED, MEASURED, PRESENT or is BARRED where
a check fails; after the last die the partitions stand with their cores. The trust die answers every SPDM request; a session opens with FINISH after a key exchange
and ends with END_SESSION. So POWER_GOOD, DIE_BOOT_STEP, GET_VERSION, GET_CAPABILITIES, NEGOTIATE_ALGORITHMS, GET_DIGESTS, GET_CERTIFICATE, CHALLENGE, GET_MEASUREMENTS,
KEY_EXCHANGE, FINISH, HEARTBEAT, KEY_UPDATE, END_SESSION and SPDM_OTHER_REQUEST each complete. -/
def Obligations.BootAndAttestation : Prop :=
  ∀ (s : State),
    let part := s.mach.arg 0
    (let ok := s.mach.arg 0 = 1
     ∃ t, exec .powerGood s = .next t ∧ t.now = s.now ∧ (t.mach.trdUp = true ↔ ok) ∧ t.mach.parts = [] ∧ t.mach.jobs = [] ∧ t.mach.streams = [] ∧
       t.mach.ctxs = [] ∧ t.mach.facVer = s.mach.facVer ∧ t.mach.ownVer = s.mach.ownVer ∧
       (∀ a, isHost a = true → sget? t.mach.homes.cells a = sget? s.mach.homes.cells a) ∧
       (∀ a, isHost a = false → homeByte t.mach.homes a = 0) ∧
       (ok → ∃ tick, (tick, .dieBootStep, []) ∈ t.mach.agenda) ∧
       ∀ dk ∈ bootOrder, (t.mach.die dk).boot =
         if ok ∧ ¬(s.mach.arg 1 = 1 ∧ s.mach.facVer ≤ s.mach.arg 2) then .barred else .held) ∧
    (s.mach.trdUp = true → s.mach.manifest ≠ none →
      (∀ dk, bootOrder.find? (fun dk => (s.mach.die dk).boot != .present && (s.mach.die dk).boot != .barred) = some dk →
        ∃ t, exec .dieBootStep s = .next t ∧ (∀ d, d ≠ dk → t.mach.die d = s.mach.die d) ∧
          ((s.mach.die dk).boot = .held → (t.mach.die dk).boot = .ident) ∧
          ((s.mach.die dk).boot = .ident → (t.mach.die dk).boot = .verified ∨ (t.mach.die dk).boot = .barred) ∧
          ((s.mach.die dk).boot = .verified → (t.mach.die dk).boot = .measured ∧
            sget? t.mach.meas (measIndex dk) = some (Config.digest (measIndex dk))) ∧
          ((s.mach.die dk).boot = .measured → (t.mach.die dk).boot = .present ∨ (t.mach.die dk).boot = .barred)) ∧
      (bootOrder.find? (fun dk => (s.mach.die dk).boot != .present && (s.mach.die dk).boot != .barred) = none →
        ∃ t, exec .dieBootStep s = .next t ∧ t.mach.manifest = none ∧ ∀ i, i < 8 → sget? t.mach.kcores i = some { k := [(1, rootCap)], part := i })) ∧
    (s.mach.linkUp = true → (sget? s.mach.parts part).isSome = true →
      let answers (i : Instr) (code : Nat) (bs : List Byte) : Prop := exec i s = .next (s.on { s.mach with out := s.mach.out ++ [.reply part code bs] })
      let replies (i : Instr) (code : Nat) (f : Part → Part) : Prop := ∃ t bs, exec i s = .next t ∧
        t.mach.out = s.mach.out ++ [.reply part code bs] ∧ t.mach.part part = f (s.mach.part part)
      answers .getVersion 0x04 [0x00, 0x13] ∧
      (∃ bs, answers .getCapabilities 0x61 bs) ∧ (∃ bs, answers .negotiateAlgorithms 0x63 bs) ∧
      answers .getDigests 0x01 (leBytes 48 (Config.digest 0x1000).toNat) ∧
      (s.mach.arg 1 = 0 → answers .getCertificate 0x02 (Config.certChain 0)) ∧ (s.mach.arg 1 ≠ 0 → answers .getCertificate 0x02 []) ∧
      (∃ bs, answers .challenge 0x03 bs) ∧
      (∃ bs, answers .getMeasurements 0x60 (leBytes 48 ((sget? s.mach.meas (s.mach.arg 1)).getD (Config.digest (s.mach.arg 1))).toNat ++ bs)) ∧
      replies .keyExchange 0x64 (fun p => { p with handshake := true }) ∧
      ((s.mach.part part).handshake = true → replies .finish 0x65 (fun p => { p with handshake := false, session := true, keyUpdates := 0 })) ∧
      ((s.mach.part part).handshake = false → replies .finish 0x7F id) ∧
      ((s.mach.part part).session = true → replies .heartbeat 0x68 id ∧
        replies .keyUpdate 0x69 (fun p => { p with keyUpdates := p.keyUpdates + 1 }) ∧
        replies .endSession 0x6C (fun p => { p with session := false })) ∧
      ((s.mach.part part).session = false → replies .heartbeat 0x7F id ∧ replies .keyUpdate 0x7F id ∧ replies .endSession 0x7F id) ∧
      answers .spdmOtherRequest 0x7F [7])

/-! ### Slots, energy, clocks, heat -/

/-- R34, R275, R341, R349, R350, R352, R356, R361 to R364, R429: where a slot is handed out the winner's region holds it, a winner in the thermos bank by a
swap that takes the active context's place at once; a YIELD ends with it. At a period boundary allowances start anew, debts first; folded energy arrives as
the context's total; residency is charged, gathered charges go to their regions. -/
def Obligations.SlotsAndEnergy : Prop :=
  ∀ (s : State),
    let pc := s.mach.arg 1
    let c := s.mach.pcl pc
    (s.mach.arg 0 = 1 → c.testing = false → c.retired = false → c.swapping = false → c.relock = false → ∀ win turns,
      s.mach.chooseSlot pc = (win, turns) →
      ∃ t, exec .slotBoundary s = .next t ∧ t.now = s.now ∧ (t.mach.pcl pc).slot = win ∧ (t.mach.pcl pc).turns = turns ∧
        (∀ cx rcb, win = some (cx, rcb) →
          (c.active = some cx → (t.mach.pcl pc).active = some cx ∧ (t.mach.pcl pc).bank = c.bank ∧ (t.mach.pcl pc).swapping = false) ∧
          (c.active = none → (t.mach.pcl pc).active = some cx ∧ (t.mach.pcl pc).bank = none) ∧
          (∀ a, c.active = some a → a ≠ cx → (∀ p ∈ s.mach.publs, p.sid ∉ s.mach.streamsAt a pc) → (t.mach.pcl pc).active = c.bank ∧ (t.mach.pcl pc).bank = some a ∧
            (t.mach.pcl pc).swapping = true ∧ ∃ tick, s.now ≤ tick ∧ (tick, .thermosSwapEnd, [pc]) ∈ t.mach.agenda))) ∧
    (let pc := s.mach.arg 0
     let c := s.mach.pcl pc
     (∀ p ∈ s.mach.parts, p.2.swap = none) → ∀ cx, c.active = some cx →
     let per := if (s.mach.ctx cx).fixed then Config.fixedPeriod else if c.low then Config.lowPeriod else Config.elasticPeriod
     ∃ t, exec .thermosSwapEnd s = .next t ∧
       ((c.period = per ∨ c.pinned = true) → (t.mach.pcl pc).swapping = false) ∧
       (c.period ≠ per → c.pinned = false → (t.mach.pcl pc).relock = true ∧ ∃ tick, (tick, .clockRelockDone, [pc]) ∈ t.mach.agenda)) ∧
    (∃ t, exec .periodBoundary s = .next t ∧ ∀ cx ∈ skeys s.mach.ctxs, ∀ va ∈ skeys (s.mach.ctx cx).rcbs,
      let x := s.mach.rcbOf cx va
      let y := t.mach.rcbOf cx va
      let words := x.next.getD x.words
      let budget := fld (words.getD 0 0) 16 9
      y.words = words ∧ y.next = none ∧ y.slots = min x.debt budget ∧ y.debt = x.debt - min x.debt budget ∧ y.energy = 0) ∧
    (let k := s.mach.arg 0
     let p := s.mach.pcOf (cxPart (ccCx k)) (ccLc k)
     let mark := (s.mach.pcl p).seenFrom s.now + 1
     (s.mach.arg 4 = 0 → ∃ t tick, exec .foldArrival s = .next t ∧ t.mach.ccs = s.mach.ccs ∧ s.now < tick ∧ (s.mach.pcl p).tickOf (mark - 1) ≤ tick ∧
       (tick, .foldArrival, [k, s.mach.arg 1, s.mach.arg 2, s.mach.arg 3, mark, p]) ∈ t.mach.agenda) ∧
     (s.mach.arg 4 ≠ 0 → s.mach.arg 4 ≤ (s.mach.pcl p).cycle s.now + 1 → ∃ t, exec .foldArrival s = .next t ∧
       let x := s.mach.cct k
       t.mach.cct k = { x with
         ecnt := s.mach.arg 1, fseq := (x.fseq + 1) % 2 ^ 15, eclPj := x.eclPj - s.mach.arg 2, folded := x.folded - s.mach.arg 2,
         ecntSat := x.ecntSat || s.mach.arg 3 == 1 } ∧ ∀ i, i ≠ k → t.mach.cct i = s.mach.cct i)) ∧
    (s.mach.arg 0 = 0 → ∃ t, exec .staticCharge s = .next t ∧
      (∀ p ∈ skeys s.mach.pcs, (t.mach.pcl p).occ = [] ∧ (t.mach.pcl p).occFrom = s.now) ∧
      ∀ p k cx, s.mach.pcs.map (·.1) = [p] → (s.mach.pcl p).active = some cx → (s.mach.pcl p).occOn = true → (s.mach.pcl p).occ = [] →
        let ns := (s.now - (s.mach.pcl p).occFrom) / 84
        0 < ns → (s.mach.ccs.map (·.1)).find? (fun k => ccCx k == cx && s.mach.pcOf (cxPart cx) (ccLc k) == p) = some k →
        ∃ tick rcb, s.now < tick ∧ (tick, .staticCharge, [k + 1, ns, rcb, (s.mach.pcl p).seenFrom s.now + 1, p]) ∈ t.mach.agenda) ∧
    (∀ k, s.mach.arg 0 = k + 1 → s.mach.arg 3 ≠ 0 →
      s.mach.arg 3 ≤ (s.mach.pcl (s.mach.pcOf (cxPart (ccCx k)) (ccLc k))).cycle s.now + 1 → ∃ t, exec .staticCharge s = .next t ∧
        let x := (Config.sest (s.mach.arg 4)).toNat * s.mach.arg 1 + (s.mach.cct k).sres
        t.mach.cct k = { (s.mach.cct k).chargeQ (16 * (x / 1000)) with sres := x % 1000 } ∧ ∀ i, i ≠ k → t.mach.cct i = s.mach.cct i) ∧
    ∃ t, exec .energyGather s = .next t ∧ ∀ cx ∈ skeys s.mach.ctxs, (∀ va ∈ skeys (s.mach.ctx cx).rcbs, (t.mach.rcbOf cx va).chg = 0) ∧
      ∀ va r, (s.mach.ctx cx).rcbs = [(va, r)] → r.w 1 = 0 → r.ovr 3 = true → (t.mach.rcbOf cx va).energy = r.energy + r.chg

/-- R353 to R357, R365 to R369, R380, R436: a droop stretches an elastic clock that is not pinned, without losing a cycle; a rail switch, a relock and a
pin end at their events; the governor steps down over the cap; temperatures are measured and judged with 64 units of hysteresis; a die whose clusters are all hot steps its
hottest elastic one down. A miss of fixed timing pauses the whole job, which resumes when every awaited translation is there. -/
def Obligations.ClocksAndPower : Prop :=
  ∀ (s : State),
    let pc := s.mach.arg 0
    let c := s.mach.pcl pc
    let fixed : Bool := match c.active with | some cx => (s.mach.ctx cx).fixed | none => false
    let only (i : Instr) (y : PClu) : Prop := ∃ t, exec i s = .next t ∧ t.mach.pcl pc = y ∧ (∀ q, q ≠ pc → t.mach.pcl q = s.mach.pcl q) ∧
      t.mach.homes = s.mach.homes ∧ t.mach.streams = s.mach.streams
    (fixed = true ∨ c.pinned = true → only .droop { c with droops := min (c.droops + 1) 0xFFFF }) ∧
    (fixed = false → c.pinned = false → ∃ t, exec .droop s = .next t ∧ (t.mach.pcl pc).stretch = true ∧
      (t.mach.pcl pc).cycle s.now = c.cycle s.now ∧ ∀ later, (t.mach.pcl pc).cycle (s.now + later) = c.cycle s.now) ∧
    (c.stretch = true → c.switching = false → c.relock = false → ∃ t, exec .droopEnd s = .next t ∧ (t.mach.pcl pc).stretch = false ∧
      (t.mach.pcl pc).cycle s.now = c.cycle s.now) ∧
    (∃ t, exec .railSwitchDone s = .next t ∧ (t.mach.pcl pc).switching = false ∧ (t.mach.pcl pc).low = (s.mach.arg 1 == 1)) ∧
    (∃ t, exec .clockRelockDone s = .next t ∧ (t.mach.pcl pc).relock = false ∧ (t.mach.pcl pc).swapping = false ∧
      (fixed = true → (t.mach.pcl pc).low = false ∧ (t.mach.pcl pc).period = Config.fixedPeriod)) ∧
    (∃ t, exec .pinRelease s = .next t ∧ (t.mach.pcl pc).pinned = false ∧
      (t.mach.pcl pc).period = if c.low then Config.lowPeriod else Config.elasticPeriod) ∧
    only .shedExpire { c with shed := false } ∧
    (∃ t, exec .governorTick s = .next t ∧
      let cap := max s.mach.pcap t.mach.pidle
      let elastic := (skeys s.mach.pcs).filter s.mach.elasticHigh
      (cap < t.mach.pnow →
        (∀ q, s.mach.hottest elastic = some q → q ∈ elastic → (t.mach.pcl q).switching = true ∧ t.mach.gov = (2 ^ 16 + q) :: s.mach.gov) ∧
        (s.mach.hottest elastic = none → 1 ∉ s.mach.gov → t.mach.gov = 1 :: s.mach.gov)) ∧
      (cap * 95 ≤ t.mach.pnow * 100 → t.mach.pnow ≤ cap → t.mach.gov = s.mach.gov ∧ t.mach.pcs = s.mach.pcs)) ∧
    (s.mach.arg 0 ≠ 1 → (∀ d ∈ skeys s.mach.dies, (s.mach.die d).failing = false) →
      (∀ q ∈ skeys s.mach.pcs, (s.mach.pcl q).active = none ∧ (s.mach.pcl q).bank = none ∧ (s.mach.pcl q).retiring = false ∧
        (s.mach.pcl q).retired = false ∧ (s.mach.pcl q).arrayRetired = false) →
      ∃ t, exec .thermalSample s = .next t ∧ ∀ q ∈ s.mach.presentClusters,
        ((t.mach.pcl q).hot = true ↔ (Config.thot (q - q % 8)).toNat ≤ (t.mach.pcl q).temp + (if (s.mach.pcl q).hot then 64 else 0))) ∧
    ((∀ q ∈ s.mach.presentClusters, (s.mach.pcl q).hot = false ∧ (s.mach.pcl q).thermLow = false) →
      ∃ t, exec .hotRailStep s = .next t ∧ ∀ q, t.mach.pcl q = s.mach.pcl q) ∧
    (∀ dk q, let mine := s.mach.presentClusters.filter (fun p => pcDie p == dk)
      (∀ p ∈ mine, (s.mach.pcl p).hot = true) →
      s.mach.hottest (mine.filter s.mach.elasticHigh) = some q →
      ∃ t, exec .hotRailStep s = .next t ∧ (t.mach.pcl q).thermLow = true ∧ (t.mach.pcl q).switching = true) ∧
    (∀ m p, s.mach.xlat (s.mach.arg 0) (s.mach.arg 1) { wr := s.mach.arg 2 == 1 } = .ok (m, p) →
      exec .translationWalk s = .next (s.on { m with miss := false })) ∧
    (∀ f, s.mach.xlat (s.mach.arg 0) (s.mach.arg 1) { wr := s.mach.arg 2 == 1 } = .error f →
      exec .translationWalk s = .next (s.on (s.mach.takeFreeze s.now (s.mach.arg 0) f))) ∧
    (let job := s.mach.arg 0
     let j := s.mach.job job
     (j.phase = .running → j.fixed = true → j.window = false → ∃ t tick, exec .translationPauseStart s = .next t ∧
       (t.mach.job job).pauses = j.pauses + 1 ∧ s.now ≤ tick ∧ (tick, .translationPauseEnd, [job]) ∈ t.mach.agenda ∧
       (j.pauses = 0 → ∀ lc ∈ s.mach.clustersOf job, (sget (t.mach.job job).clk lc {}).stopped = some (s.mach.jobCyc s.now job lc))) ∧
     (j.phase = .running → ∃ t, exec .translationPauseEnd s = .next t ∧ (t.mach.job job).pauses = j.pauses - 1 ∧
       (j.pauses = 1 → ∀ lc ∈ s.mach.clustersOf job, (sget (t.mach.job job).clk lc {}).stopped = none)))

/-! ### Spills, swaps of a partition, reconfiguration, links -/

/-- R19, R431 to R436, R442, R443: a spill writes the thermos bank's image and then frees the bank; a restore fills it; a partition swap waits for
fixed-timing jobs, pins every cluster of the partition to the high rail and starts its swaps at one instant; a reconfiguration reassigns carriers once no segment
runs; a link replays a discarded beat, up to four times. -/
def Obligations.SpillsSwapsAndLinks : Prop :=
  ∀ (s : State),
    let pc := s.mach.arg 0
    let cx := s.mach.arg 1
    let lc := s.mach.arg 2
    let c := s.mach.pcl pc
    let part := s.mach.arg 0
    (c.bank = some cx → s.mach.hamperOk cx = true →
      (let n := (s.mach.drainNow s.now (s.mach.ccStreams cx lc)).finishTraversals (ccKey cx lc)
       (∀ i ∈ n.ccStreams cx lc, (n.str i).sb = []) → ∀ m, n.writeHamper cx lc false = some m →
        ∃ t tick, exec .spill s = .next t ∧ t.mach.homes = m.homes ∧ (tick, .spillComplete, [pc, cx, lc]) ∈ t.mach.agenda) ∧
      (c.swapping = false → ∀ m, s.mach.writeHamper cx lc true = some m →
        ∃ t, exec .spillComplete s = .next t ∧ t.mach.homes = m.homes ∧ (t.mach.pcl pc).bank = none)) ∧
    (c.active ≠ some cx → c.bank = none → c.testing = false → c.retired = false → (s.mach.ctx cx).hamper = none →
      ∃ t, exec .restoreComplete s = .next t ∧
        (c.active ≠ none ∨ c.swapping = true ∨ c.relock = true → (t.mach.pcl pc).bank = some cx ∧ (t.mach.pcl pc).active = c.active) ∧
        (c.active = none → c.swapping = false → c.relock = false → (t.mach.pcl pc).active = some cx ∧ (t.mach.pcl pc).bank = none) ∧
        t.mach.cct (ccKey cx lc) = (s.mach.cct (ccKey cx lc)).toReset) ∧
    ((s.mach.part part).swap ≠ none →
      (s.mach.jobs.any (fun j => cxPart j.2.cx == part && j.2.fixed && j.2.phase == .running) = true ∨
          s.mach.publs.any (fun p => cxPart p.cx == part) = true →
        ∃ t tick, exec .partSwapHalted s = .next t ∧ s.now < tick ∧ (tick, .partSwapHalted, [part]) ∈ t.mach.agenda ∧ t.mach.pcs = s.mach.pcs) ∧
      (s.mach.jobs.any (fun j => cxPart j.2.cx == part && j.2.fixed && j.2.phase == .running) = false →
          s.mach.publs.any (fun p => cxPart p.cx == part) = false →
        ∃ t S, exec .partSwapHalted s = .next t ∧ S % (50 * 84) = 0 ∧ s.now + 250 * 84 ≤ S ∧ S < s.now + 300 * 84 ∧
          (S, .partSwapStart, [part]) ∈ t.mach.agenda ∧
          ∀ q ∈ s.mach.swapClusters part, (t.mach.pcl q).pinned = true ∧ (t.mach.pcl q).slot = none) ∧
      (∀ pidx a l, (s.mach.part part).swap = some (pidx, a, l) →
        (s.mach.swapClusters part = [] → ∃ t, exec .partSwapStart s = .next t ∧ (t.mach.part part).swap = none ∧
          (s.now, .completionRecordWrite, [part, 0, 3, 0, 0, pidx, s.now / 84]) ∈ t.mach.agenda) ∧
        (s.mach.swapClusters part ≠ [] → ∃ t, exec .partSwapStart s = .next t ∧
          (t.mach.part part).swap = some (pidx, s.now, s.mach.swapClusters part) ∧
          ∀ q ∈ s.mach.swapClusters part, (t.mach.pcl q).swapping = true))) ∧
    ((s.mach.part part).rcpend = true → (∀ k ∈ s.mach.jobs, cxPart k.2.cx = part → k.2.live = false ∨ k.2.phase = .frozen) →
      ∃ t, exec .reconfiguration s = .next t ∧ (t.mach.part part).rcpend = false ∧
        (t.mach.part part).hc = (List.range 5).map (s.mach.headcount (s.mach.part part)) ∧
        (s.now, .launchDispatch, [part]) ∈ t.mach.agenda) ∧
    (let dk := s.mach.arg 0
     let l := s.mach.arg 1 % 2
     let link (t : State) : Link := sget (t.mach.die dk).links l {}
     ((link s).dead = false → s.mach.arg 2 = 0 → ∃ t tick, exec .linkBeatError s = .next t ∧ (link t).replay = some (0, 0) ∧
       (tick, .linkReplay, [dk, l, 1, 0]) ∈ t.mach.agenda ∧ t.mach.homes = s.mach.homes) ∧
     (∃ t, exec .linkReplay s = .next t ∧ ((link t).dead = true ∨ (link t).replay = none ∨
       (link t).replay = some (s.mach.arg 2, s.mach.arg 3) ∧ s.mach.arg 2 < 4 ∧
         ∃ tick, (tick, .linkReplay, [dk, l, s.mach.arg 2 + 1, s.mach.arg 3]) ∈ t.mach.agenda)))

/-! ### The whole machine: reset, words, encodings, time -/

/-- R165, R180, R184, R216, R217, R218, R296, R316, R344, R357, R365: what partition reset leaves. Queue registers have their reset fields, queue 0 alone
is the admin queue; every arithmetic status register traps on IV, DZ and OF and holds no flag; the mode registers hold their reset fields; status and
base registers read 0; no phaser has a member; every cycle counter counts from 0 on the high rail; the cap and the average power are those of R365; nothing
runs, nothing is pending, memory lists nothing and is in canonical form. That package time starts at 0 and that partition 0 owns every die is the
model's choice (log 1), and so is 0 for a byte of memory (log 2). -/
def Obligations.ResetValues : Prop :=
  let s := State.reset
  (s.now = 0 ∧ s.memWf ∧ s.mach.homes.cells = [] ∧ s.mach.stopped = false) ∧
  (s.mach.jobs = [] ∧ s.mach.streams = [] ∧ s.mach.ctxs = [] ∧ s.mach.pend = [] ∧ s.mach.atoms = [] ∧ s.mach.copies = [] ∧ s.mach.agenda = []) ∧
  (s.mach.pcap = 3600000 ∧ s.mach.pnow = 0) ∧
  (∀ q, let x := s.mach.queue 0 q
    fld x.qctl.toNat 58 6 = 0 ∧ bitOf x.qctl.toNat 57 = false ∧ bitOf x.qctl.toNat 56 = (q == 0) ∧ fld x.qctl.toNat 52 4 = 0 ∧
    fld x.qctl.toNat 48 4 = 4 ∧ fld x.qctl.toNat 44 4 = 4 ∧ fld x.qctl.toNat 16 28 = 0 ∧ fld x.qctl.toNat 8 8 = 1 ∧ fld x.qctl.toNat 0 8 = 64 ∧
    x.qbase = 0 ∧ x.cbase = 0 ∧ x.qtail = 0 ∧ x.qhead = 0 ∧ x.chead = 0 ∧ x.ctail = 0 ∧ x.err = false) ∧
  (∀ k, let c := s.mach.cct k
    (∀ n, n = 0x60 ∨ (0x64 ≤ n ∧ n ≤ 0x79) ∨ (0x158 ≤ n ∧ n ≤ 0x15F) → c.creg n = 0x3800) ∧
    (∀ n, 0xE0 ≤ n → n ≤ 0xF3 → c.creg n = if (n - 0xE0) % 5 = 2 ∨ (n - 0xE0) % 5 = 3 then 8 else 0) ∧
    (∀ n, n = 0x90 ∨ n = 0x91 → c.creg n = 0x7FFF) ∧ (∀ n, 0x1A0 ≤ n → n ≤ 0x1AF → c.creg n = 8) ∧
    (∀ n, 0x100 ≤ n → n ≤ 0x11F → c.creg n = 0) ∧ (∀ core, (sget c.cores core {}).stat = 0)) ∧
  (∀ p, (sget s.mach.phs p {}).members = [] ∧ (sget s.mach.phs p {}).ph = 0) ∧
  (∀ c, (s.mach.pcl c).cycle s.now = 0 ∧ (s.mach.pcl c).low = false ∧ (s.mach.pcl c).droops = 0 ∧ (s.mach.pcl c).shed = false ∧
    (s.mach.pcl c).retired = false)

/-- R83, R86, R87, R89, R97, R98, R325, R387: words written out from the encodings, each with the instruction it stands for. -/
def Obligations.SampleWordsDecode : Prop :=
  decodeWord .scalar false 0x02308800 0 0 = .ok (.add 3 1 2) ∧
  decodeWord .scalar false 0x08427FF8 0 0 = .ok (.addi 4 4 0x7FF8) ∧
  decodeWord .scalar false 0x1610F100 0 0 = .ok (.movi 1 0x0F100) ∧
  decodeWord .scalar false 0x18100094 0 0 = .ok (.movh 1 0x00094) ∧
  decodeWord .scalar false 0x421127FB 0 0 = .ok (.brCcNn .lt 1 2 0x7FB) ∧
  decodeWord .scalar false 0x2A031C21 0 0 = .ok (.scSt true 6 7) ∧
  decodeWord .scalar false 0x32500040 0 0 = .ok (.cyc 5) ∧
  decodeWord .scalar false 0x32600060 0 0 = .ok (.ptime 6) ∧
  decodeWord .vector false 0x3C51400B 0 0 = .ok (.vfadd { delay := 2, dest := 69, srcA := 0, srcB := 11 }) ∧
  decodeWord .matrix false 0x08084812 0 0 = .ok (.mma { delay := 0, dest := 33, srcA := 16, srcB := 18 }) ∧
  decodeWord .strip false 0x0200C082 0 0 = .ok (.rdc { delay := 0, dest := 3, srcA := 1, srcB := 2 }) ∧
  decodeCap 0x0073028B = .ok (.kskip 7 6 5) ∧
  decodeCap 0x0673028B = .ok (.kstamp 7 6 5) ∧
  decodeWord .scalar false 0x00000000 0 0 = .error .illegalOp ∧
  decodeWord .scalar false 0x3A000000 0 0 = .error .illegalOp

/-- R81 to R101, R387: no bit of an encoding is dropped and none is invented. Every well-formed instruction with a native word is what its word decodes to
in a stream of its class, every micro-order with a long form is what its three words decode to, and a capability instruction, a long form and a
dictionary word are what their words decode to. -/
def Obligations.EveryEncodingDecodesBack : Prop :=
  ∀ i : Instr, i.wf = true →
    (∀ w, encodeScalar i = some w → encode i = [w] ∧ w < 2 ^ 31 ∧ decodeWord .scalar true w 0 0 = .ok i) ∧
    (∀ k op m, microOf i = some (k, op, m) →
      (m.long = none → encode i = [encMicro op m] ∧ encMicro op m < 2 ^ 31 ∧ decodeWord k false (encMicro op m) 0 0 = .ok i) ∧
      ∀ t, m.long = some t → ∃ w0 w1 w2, encode i = [w0, w1, w2] ∧ w0 < 2 ^ 31 ∧ w1 < 2 ^ 32 ∧ w2 < 2 ^ 32 ∧
        decodeWord k false w0 w1 w2 = .ok (.engineLongForm m.delay (BitVec.ofNat 64 (encForm op m t))) ∧
        decodeEngForm k m.delay (encForm op m t) = .ok i) ∧
    (∀ dl tile cfg tok, i = .tcfg dl tile cfg tok → ∃ w0 w1 w2 f, encode i = [w0, w1, w2] ∧
      decodeWord .matrix false w0 w1 w2 = .ok (.engineLongForm dl f) ∧ decodeEngForm .matrix dl f.toNat = .ok i) ∧
    (∀ f, i = .scalarLongForm f → ∃ w0 w1 w2, encode i = [w0, w1, w2] ∧ decodeWord .scalar true w0 w1 w2 = .ok i) ∧
    (∀ dl f k, i = .engineLongForm dl f → k ≠ .scalar → ∃ w0 w1 w2, encode i = [w0, w1, w2] ∧ decodeWord k false w0 w1 w2 = .ok i) ∧
    (∀ e h k r, i = .dictionaryWord e h → ∃ w, encode i = [w] ∧ w < 2 ^ 32 ∧ decodeWord k r w 0 0 = .ok i) ∧
    (∀ a b d, i = .kskip a b d ∨ i = .ktrim a b d ∨ i = .kdrop a b d ∨ i = .kstamp a b d ∨ i = .kfld a b d ∨ i = .kinfo a b d ∨ i = .ktake a b d ∨
      i = .kgive a b d → ∃ w, encode i = [w] ∧ w < 2 ^ 32 ∧ decodeCap w = .ok i)

/-- R81 to R101: a word is read as one instruction only: two well-formed instructions of a class with one native word are one instruction, and
what a decoder reads is always well-formed. -/
def Obligations.DecodingAnswersWellFormed : Prop :=
  (∀ k r w w1 w2 i, decodeWord k r w w1 w2 = .ok i → i.wf = true) ∧
  (∀ k dl f i, decodeEngForm k dl f = .ok i → i.wf = true) ∧
  (∀ r f i, decodeScalarForm r f = .ok (.plain i) → i.wf = true) ∧
  (∀ w i, decodeCap w = .ok i → i.wf = true) ∧
  (∀ i j w, i.wf = true → j.wf = true → encodeScalar i = some w → encodeScalar j = some w → i = j)

/-- R5, R349: package time never runs back and never leaves a slot boundary out. A step that is an event, a result or a word takes no package time; a step
that passes time goes no further than the next 16 ns boundary and, unless the package is stopped, the first event to come, changes nothing but the package clock and the list of
events to come, and adds the slot boundary to it where it ends on one. -/
def Obligations.TimeStopsAtEveryBoundary : Prop :=
  ∀ s t, step s = .next t →
    s.now ≤ t.now ∧ t.now ≤ slotAfter s.now ∧
    (s.now < t.now → s.mach.stopped = false →
      (∀ n e a, s.mach.agenda.head? = some (n, e, a) → s.now < n ∧ t.now ≤ n) ∧
      t.mach = { s.mach with agenda := t.mach.agenda, clock := t.now } ∧
      (t.now = slotAfter s.now → (t.now, .slotBoundary, []) ∈ t.mach.agenda))
end

