-- ==== Sys2Proof/Laws/Answer.lean ====
section
/-! SUPPORT. What every meaning answers: a next state at the same package time. -/

namespace Sys2Proof.Machine

/-- An answer that is a next state at the same package time. -/
def Answers (o : Ans) (s : State) : Prop := ∃ m, o = .next (s.on m)

theorem Answers.of_on {o : Ans} {s : State} {m : Mach} (h : Answers o (s.on m)) : Answers o s := by
  obtain ⟨n, h⟩ := h; exact ⟨n, h⟩

theorem frozenRead_answers (d a b : R) (bytes : Mach → Nat → Nat → List (Loc × Nat)) (f : Nat → Mach → Nat → Except Flt (Mach × Word))
    (s : State) : Answers (frozenRead d a b bytes f s) s := by
  unfold frozenRead; dsimp only; split <;> exact ⟨_, rfl⟩

theorem execFrd_answers (d a b : R) (s : State) : Answers (execFrd d a b s) s := by unfold execFrd; exact frozenRead_answers ..
theorem execFrdv_answers (d a b : R) (s : State) : Answers (execFrdv d a b s) s := by unfold execFrdv; exact frozenRead_answers ..

theorem runNative_answers (i : Instr) (s : State) : Answers (runNative i s) s := by
  cases i <;> first | exact ⟨_, rfl⟩ | exact execFrd_answers .. | exact execFrdv_answers ..

theorem runAny_answers (i : Instr) (s : State) : Answers (runAny i s) s := by
  cases i <;> first | exact ⟨_, rfl⟩ | exact execFrd_answers .. | exact execFrdv_answers ..

theorem extForm_answers (op : Nat) (d a : R) (w : Nat) (imm : BitVec 32) (s : State) : Answers (extForm op d a w imm s) s := by
  unfold extForm; dsimp only; split <;> exact ⟨_, rfl⟩

theorem scalarForm_answers (run : Instr → State → Ans) (h : ∀ i s, Answers (run i s) s) (f : Nat) (s : State) : Answers (scalarForm run f s) s := by
  unfold scalarForm; split
  · exact h _ _
  · exact extForm_answers ..
  · exact ⟨_, rfl⟩

theorem engineForm_answers (run : Instr → State → Ans) (h : ∀ i s, Answers (run i s) s) (dl : BitVec 4) (f : Nat) (s : State) : Answers (engineForm run dl f s) s := by
  unfold engineForm; split
  · exact h _ _
  · exact ⟨_, rfl⟩
  · exact ⟨_, rfl⟩

theorem dictWord_answers (run : Instr → State → Ans) (h : ∀ i s, Answers (run i s) s) (e : BitVec 8) (x : BitVec 23) (s : State) : Answers (dictWord run e x s) s := by
  unfold dictWord; dsimp only
  generalize (if s.mach.cs.sel.cls == Cls.scalar then s.mach.cs.fq0.bank else s.mach.cs.dbank) = bank
  generalize expand s.mach.cs.sel.cls _ _ = p
  obtain ⟨f, left⟩ := p
  dsimp only
  repeat' split
  all_goals first | exact ⟨_, rfl⟩ | exact (scalarForm_answers run h _ (noteForm _ _ s)).of_on | exact (engineForm_answers run h _ _ (noteForm _ _ s)).of_on
/-- No meaning stops, and none lets package time pass. -/
theorem exec_answers (i : Instr) (s : State) : Answers (exec i s) s := by
  cases i <;> first | exact ⟨_, rfl⟩ | skip
  case frd d a b => exact execFrd_answers ..
  case frdv d a b => exact execFrdv_answers ..
  case scalarLongForm f => exact (scalarForm_answers runAny runAny_answers _ (noteForm _ _ s)).of_on
  case dictionaryWord e h => exact dictWord_answers runAny runAny_answers ..
  case engineLongForm d f => exact (engineForm_answers runAny runAny_answers _ _ (noteForm _ _ s)).of_on
  case illegalOp w =>
    show Answers (execIllegalOp w s) s
    unfold execIllegalOp; split <;> exact ⟨_, rfl⟩
  case mmaStepAccept =>
    show Answers (execMmaStepAccept s) s
    unfold execMmaStepAccept; dsimp only; split
    · exact ⟨s.mach, rfl⟩
    · split <;> exact ⟨_, rfl⟩

theorem formFault_answers (f : Nat) (x : FCode) (s : State) : Answers (formFault f x s) s := by
  unfold formFault; exact ⟨_, rfl⟩

theorem issueWord_answers (s : State) : Answers (issueWord exec s) s := by
  unfold issueWord; split
  · unfold issueScalar; dsimp only; split
    · exact ⟨_, rfl⟩
    · split
      · exact ⟨_, rfl⟩
      · split
        · exact ⟨_, rfl⟩
        · split
          · exact ⟨_, rfl⟩
          · exact (exec_answers _ _).of_on
          · exact ⟨_, rfl⟩
  · unfold issueEngine; dsimp only
    split
    · exact ⟨_, rfl⟩
    · split
      · split
        · exact ⟨_, rfl⟩
        · split
          · exact ⟨_, rfl⟩
          · split
            · exact ⟨_, rfl⟩
            · split
              · exact (exec_answers _ (noteForm _ _ _)).of_on
              · exact (formFault_answers _ _ (noteForm _ _ _)).of_on
      · split
        · exact (exec_answers _ _).of_on
        · exact ⟨_, rfl⟩
        · exact ⟨_, rfl⟩

theorem issueSound_answers (s : State) : Answers (issueSound exec s) s := by
  unfold issueSound; split
  · exact issueWord_answers s
  · obtain ⟨m, h⟩ := issueWord_answers s
    rw [h]; dsimp only; split <;> exact ⟨_, rfl⟩

theorem issuePrime_answers (s : State) : Answers (issuePrime exec s) s := by
  unfold issuePrime; dsimp only
  obtain ⟨m, h⟩ := issueSound_answers s
  rw [h]; dsimp only; split <;> exact ⟨_, rfl⟩

end Sys2Proof.Machine
end

