-- ==== Sys2Proof/Laws/State.lean ====
section
/-! SUPPORT. What each named update of the machine leaves alone: one lemma for each of its other fields, so that no later proof
unfolds a record update. The field that an update does change has its lemmas in Laws/Maps.lean. -/

namespace Sys2Proof.Machine

/-! ### setStr -/
@[simp] theorem Mach.setStr_parts (m : Mach) (i : Nat) (x : Stream) : (m.setStr i x).parts = m.parts := rfl
@[simp] theorem Mach.setStr_ctxs (m : Mach) (i : Nat) (x : Stream) : (m.setStr i x).ctxs = m.ctxs := rfl
@[simp] theorem Mach.setStr_ccs (m : Mach) (i : Nat) (x : Stream) : (m.setStr i x).ccs = m.ccs := rfl
@[simp] theorem Mach.setStr_pcs (m : Mach) (i : Nat) (x : Stream) : (m.setStr i x).pcs = m.pcs := rfl
@[simp] theorem Mach.setStr_dies (m : Mach) (i : Nat) (x : Stream) : (m.setStr i x).dies = m.dies := rfl
@[simp] theorem Mach.setStr_jobs (m : Mach) (i : Nat) (x : Stream) : (m.setStr i x).jobs = m.jobs := rfl
@[simp] theorem Mach.setStr_pend (m : Mach) (i : Nat) (x : Stream) : (m.setStr i x).pend = m.pend := rfl
@[simp] theorem Mach.setStr_atoms (m : Mach) (i : Nat) (x : Stream) : (m.setStr i x).atoms = m.atoms := rfl
@[simp] theorem Mach.setStr_copies (m : Mach) (i : Nat) (x : Stream) : (m.setStr i x).copies = m.copies := rfl
@[simp] theorem Mach.setStr_recs (m : Mach) (i : Nat) (x : Stream) : (m.setStr i x).recs = m.recs := rfl
@[simp] theorem Mach.setStr_saves (m : Mach) (i : Nat) (x : Stream) : (m.setStr i x).saves = m.saves := rfl
@[simp] theorem Mach.setStr_phs (m : Mach) (i : Nat) (x : Stream) : (m.setStr i x).phs = m.phs := rfl
@[simp] theorem Mach.setStr_slices (m : Mach) (i : Nat) (x : Stream) : (m.setStr i x).slices = m.slices := rfl
@[simp] theorem Mach.setStr_invs (m : Mach) (i : Nat) (x : Stream) : (m.setStr i x).invs = m.invs := rfl
@[simp] theorem Mach.setStr_publs (m : Mach) (i : Nat) (x : Stream) : (m.setStr i x).publs = m.publs := rfl
@[simp] theorem Mach.setStr_kcores (m : Mach) (i : Nat) (x : Stream) : (m.setStr i x).kcores = m.kcores := rfl
@[simp] theorem Mach.setStr_sram (m : Mach) (i : Nat) (x : Stream) : (m.setStr i x).sram = m.sram := rfl
@[simp] theorem Mach.setStr_homes (m : Mach) (i : Nat) (x : Stream) : (m.setStr i x).homes = m.homes := rfl
@[simp] theorem Mach.setStr_replies (m : Mach) (i : Nat) (x : Stream) : (m.setStr i x).replies = m.replies := rfl
@[simp] theorem Mach.setStr_newest (m : Mach) (i : Nat) (x : Stream) : (m.setStr i x).newest = m.newest := rfl
@[simp] theorem Mach.setStr_spoiled (m : Mach) (i : Nat) (x : Stream) : (m.setStr i x).spoiled = m.spoiled := rfl
@[simp] theorem Mach.setStr_engines (m : Mach) (i : Nat) (x : Stream) : (m.setStr i x).engines = m.engines := rfl
@[simp] theorem Mach.setStr_units (m : Mach) (i : Nat) (x : Stream) : (m.setStr i x).units = m.units := rfl
@[simp] theorem Mach.setStr_lanes (m : Mach) (i : Nat) (x : Stream) : (m.setStr i x).lanes = m.lanes := rfl
@[simp] theorem Mach.setStr_moves (m : Mach) (i : Nat) (x : Stream) : (m.setStr i x).moves = m.moves := rfl
@[simp] theorem Mach.setStr_hostWidth (m : Mach) (i : Nat) (x : Stream) : (m.setStr i x).hostWidth = m.hostWidth := rfl
@[simp] theorem Mach.setStr_pcap (m : Mach) (i : Nat) (x : Stream) : (m.setStr i x).pcap = m.pcap := rfl
@[simp] theorem Mach.setStr_pidle (m : Mach) (i : Nat) (x : Stream) : (m.setStr i x).pidle = m.pidle := rfl
@[simp] theorem Mach.setStr_pnow (m : Mach) (i : Nat) (x : Stream) : (m.setStr i x).pnow = m.pnow := rfl
@[simp] theorem Mach.setStr_gov (m : Mach) (i : Nat) (x : Stream) : (m.setStr i x).gov = m.gov := rfl
@[simp] theorem Mach.setStr_withheld (m : Mach) (i : Nat) (x : Stream) : (m.setStr i x).withheld = m.withheld := rfl
@[simp] theorem Mach.setStr_meas (m : Mach) (i : Nat) (x : Stream) : (m.setStr i x).meas = m.meas := rfl
@[simp] theorem Mach.setStr_manifest (m : Mach) (i : Nat) (x : Stream) : (m.setStr i x).manifest = m.manifest := rfl
@[simp] theorem Mach.setStr_facVer (m : Mach) (i : Nat) (x : Stream) : (m.setStr i x).facVer = m.facVer := rfl
@[simp] theorem Mach.setStr_ownVer (m : Mach) (i : Nat) (x : Stream) : (m.setStr i x).ownVer = m.ownVer := rfl
@[simp] theorem Mach.setStr_trdUp (m : Mach) (i : Nat) (x : Stream) : (m.setStr i x).trdUp = m.trdUp := rfl
@[simp] theorem Mach.setStr_stopped (m : Mach) (i : Nat) (x : Stream) : (m.setStr i x).stopped = m.stopped := rfl
@[simp] theorem Mach.setStr_agenda (m : Mach) (i : Nat) (x : Stream) : (m.setStr i x).agenda = m.agenda := rfl
@[simp] theorem Mach.setStr_miss (m : Mach) (i : Nat) (x : Stream) : (m.setStr i x).miss = m.miss := rfl
@[simp] theorem Mach.setStr_ev (m : Mach) (i : Nat) (x : Stream) : (m.setStr i x).ev = m.ev := rfl
@[simp] theorem Mach.setStr_seq (m : Mach) (i : Nat) (x : Stream) : (m.setStr i x).seq = m.seq := rfl
@[simp] theorem Mach.setStr_fresh (m : Mach) (i : Nat) (x : Stream) : (m.setStr i x).fresh = m.fresh := rfl
@[simp] theorem Mach.setStr_cur (m : Mach) (i : Nat) (x : Stream) : (m.setStr i x).cur = m.cur := rfl
@[simp] theorem Mach.setStr_curLen (m : Mach) (i : Nat) (x : Stream) : (m.setStr i x).curLen = m.curLen := rfl
@[simp] theorem Mach.setStr_kcur (m : Mach) (i : Nat) (x : Stream) : (m.setStr i x).kcur = m.kcur := rfl
@[simp] theorem Mach.setStr_kturn (m : Mach) (i : Nat) (x : Stream) : (m.setStr i x).kturn = m.kturn := rfl
@[simp] theorem Mach.setStr_clock (m : Mach) (i : Nat) (x : Stream) : (m.setStr i x).clock = m.clock := rfl
@[simp] theorem Mach.setStr_lform (m : Mach) (i : Nat) (x : Stream) : (m.setStr i x).lform = m.lform := rfl
@[simp] theorem Mach.setStr_out (m : Mach) (i : Nat) (x : Stream) : (m.setStr i x).out = m.out := rfl
/-! ### modStr -/
@[simp] theorem Mach.modStr_parts (m : Mach) (i : Nat) (f : Stream → Stream) : (m.modStr i f).parts = m.parts := rfl
@[simp] theorem Mach.modStr_ctxs (m : Mach) (i : Nat) (f : Stream → Stream) : (m.modStr i f).ctxs = m.ctxs := rfl
@[simp] theorem Mach.modStr_ccs (m : Mach) (i : Nat) (f : Stream → Stream) : (m.modStr i f).ccs = m.ccs := rfl
@[simp] theorem Mach.modStr_pcs (m : Mach) (i : Nat) (f : Stream → Stream) : (m.modStr i f).pcs = m.pcs := rfl
@[simp] theorem Mach.modStr_dies (m : Mach) (i : Nat) (f : Stream → Stream) : (m.modStr i f).dies = m.dies := rfl
@[simp] theorem Mach.modStr_jobs (m : Mach) (i : Nat) (f : Stream → Stream) : (m.modStr i f).jobs = m.jobs := rfl
@[simp] theorem Mach.modStr_pend (m : Mach) (i : Nat) (f : Stream → Stream) : (m.modStr i f).pend = m.pend := rfl
@[simp] theorem Mach.modStr_atoms (m : Mach) (i : Nat) (f : Stream → Stream) : (m.modStr i f).atoms = m.atoms := rfl
@[simp] theorem Mach.modStr_copies (m : Mach) (i : Nat) (f : Stream → Stream) : (m.modStr i f).copies = m.copies := rfl
@[simp] theorem Mach.modStr_recs (m : Mach) (i : Nat) (f : Stream → Stream) : (m.modStr i f).recs = m.recs := rfl
@[simp] theorem Mach.modStr_saves (m : Mach) (i : Nat) (f : Stream → Stream) : (m.modStr i f).saves = m.saves := rfl
@[simp] theorem Mach.modStr_phs (m : Mach) (i : Nat) (f : Stream → Stream) : (m.modStr i f).phs = m.phs := rfl
@[simp] theorem Mach.modStr_slices (m : Mach) (i : Nat) (f : Stream → Stream) : (m.modStr i f).slices = m.slices := rfl
@[simp] theorem Mach.modStr_invs (m : Mach) (i : Nat) (f : Stream → Stream) : (m.modStr i f).invs = m.invs := rfl
@[simp] theorem Mach.modStr_publs (m : Mach) (i : Nat) (f : Stream → Stream) : (m.modStr i f).publs = m.publs := rfl
@[simp] theorem Mach.modStr_kcores (m : Mach) (i : Nat) (f : Stream → Stream) : (m.modStr i f).kcores = m.kcores := rfl
@[simp] theorem Mach.modStr_sram (m : Mach) (i : Nat) (f : Stream → Stream) : (m.modStr i f).sram = m.sram := rfl
@[simp] theorem Mach.modStr_homes (m : Mach) (i : Nat) (f : Stream → Stream) : (m.modStr i f).homes = m.homes := rfl
@[simp] theorem Mach.modStr_replies (m : Mach) (i : Nat) (f : Stream → Stream) : (m.modStr i f).replies = m.replies := rfl
@[simp] theorem Mach.modStr_newest (m : Mach) (i : Nat) (f : Stream → Stream) : (m.modStr i f).newest = m.newest := rfl
@[simp] theorem Mach.modStr_spoiled (m : Mach) (i : Nat) (f : Stream → Stream) : (m.modStr i f).spoiled = m.spoiled := rfl
@[simp] theorem Mach.modStr_engines (m : Mach) (i : Nat) (f : Stream → Stream) : (m.modStr i f).engines = m.engines := rfl
@[simp] theorem Mach.modStr_units (m : Mach) (i : Nat) (f : Stream → Stream) : (m.modStr i f).units = m.units := rfl
@[simp] theorem Mach.modStr_lanes (m : Mach) (i : Nat) (f : Stream → Stream) : (m.modStr i f).lanes = m.lanes := rfl
@[simp] theorem Mach.modStr_moves (m : Mach) (i : Nat) (f : Stream → Stream) : (m.modStr i f).moves = m.moves := rfl
@[simp] theorem Mach.modStr_hostWidth (m : Mach) (i : Nat) (f : Stream → Stream) : (m.modStr i f).hostWidth = m.hostWidth := rfl
@[simp] theorem Mach.modStr_pcap (m : Mach) (i : Nat) (f : Stream → Stream) : (m.modStr i f).pcap = m.pcap := rfl
@[simp] theorem Mach.modStr_pidle (m : Mach) (i : Nat) (f : Stream → Stream) : (m.modStr i f).pidle = m.pidle := rfl
@[simp] theorem Mach.modStr_pnow (m : Mach) (i : Nat) (f : Stream → Stream) : (m.modStr i f).pnow = m.pnow := rfl
@[simp] theorem Mach.modStr_gov (m : Mach) (i : Nat) (f : Stream → Stream) : (m.modStr i f).gov = m.gov := rfl
@[simp] theorem Mach.modStr_withheld (m : Mach) (i : Nat) (f : Stream → Stream) : (m.modStr i f).withheld = m.withheld := rfl
@[simp] theorem Mach.modStr_meas (m : Mach) (i : Nat) (f : Stream → Stream) : (m.modStr i f).meas = m.meas := rfl
@[simp] theorem Mach.modStr_manifest (m : Mach) (i : Nat) (f : Stream → Stream) : (m.modStr i f).manifest = m.manifest := rfl
@[simp] theorem Mach.modStr_facVer (m : Mach) (i : Nat) (f : Stream → Stream) : (m.modStr i f).facVer = m.facVer := rfl
@[simp] theorem Mach.modStr_ownVer (m : Mach) (i : Nat) (f : Stream → Stream) : (m.modStr i f).ownVer = m.ownVer := rfl
@[simp] theorem Mach.modStr_trdUp (m : Mach) (i : Nat) (f : Stream → Stream) : (m.modStr i f).trdUp = m.trdUp := rfl
@[simp] theorem Mach.modStr_stopped (m : Mach) (i : Nat) (f : Stream → Stream) : (m.modStr i f).stopped = m.stopped := rfl
@[simp] theorem Mach.modStr_agenda (m : Mach) (i : Nat) (f : Stream → Stream) : (m.modStr i f).agenda = m.agenda := rfl
@[simp] theorem Mach.modStr_miss (m : Mach) (i : Nat) (f : Stream → Stream) : (m.modStr i f).miss = m.miss := rfl
@[simp] theorem Mach.modStr_ev (m : Mach) (i : Nat) (f : Stream → Stream) : (m.modStr i f).ev = m.ev := rfl
@[simp] theorem Mach.modStr_seq (m : Mach) (i : Nat) (f : Stream → Stream) : (m.modStr i f).seq = m.seq := rfl
@[simp] theorem Mach.modStr_fresh (m : Mach) (i : Nat) (f : Stream → Stream) : (m.modStr i f).fresh = m.fresh := rfl
@[simp] theorem Mach.modStr_cur (m : Mach) (i : Nat) (f : Stream → Stream) : (m.modStr i f).cur = m.cur := rfl
@[simp] theorem Mach.modStr_curLen (m : Mach) (i : Nat) (f : Stream → Stream) : (m.modStr i f).curLen = m.curLen := rfl
@[simp] theorem Mach.modStr_kcur (m : Mach) (i : Nat) (f : Stream → Stream) : (m.modStr i f).kcur = m.kcur := rfl
@[simp] theorem Mach.modStr_kturn (m : Mach) (i : Nat) (f : Stream → Stream) : (m.modStr i f).kturn = m.kturn := rfl
@[simp] theorem Mach.modStr_clock (m : Mach) (i : Nat) (f : Stream → Stream) : (m.modStr i f).clock = m.clock := rfl
@[simp] theorem Mach.modStr_lform (m : Mach) (i : Nat) (f : Stream → Stream) : (m.modStr i f).lform = m.lform := rfl
@[simp] theorem Mach.modStr_out (m : Mach) (i : Nat) (f : Stream → Stream) : (m.modStr i f).out = m.out := rfl
/-! ### setJob -/
@[simp] theorem Mach.setJob_parts (m : Mach) (i : Nat) (x : Job) : (m.setJob i x).parts = m.parts := rfl
@[simp] theorem Mach.setJob_ctxs (m : Mach) (i : Nat) (x : Job) : (m.setJob i x).ctxs = m.ctxs := rfl
@[simp] theorem Mach.setJob_ccs (m : Mach) (i : Nat) (x : Job) : (m.setJob i x).ccs = m.ccs := rfl
@[simp] theorem Mach.setJob_pcs (m : Mach) (i : Nat) (x : Job) : (m.setJob i x).pcs = m.pcs := rfl
@[simp] theorem Mach.setJob_dies (m : Mach) (i : Nat) (x : Job) : (m.setJob i x).dies = m.dies := rfl
@[simp] theorem Mach.setJob_streams (m : Mach) (i : Nat) (x : Job) : (m.setJob i x).streams = m.streams := rfl
@[simp] theorem Mach.setJob_pend (m : Mach) (i : Nat) (x : Job) : (m.setJob i x).pend = m.pend := rfl
@[simp] theorem Mach.setJob_atoms (m : Mach) (i : Nat) (x : Job) : (m.setJob i x).atoms = m.atoms := rfl
@[simp] theorem Mach.setJob_copies (m : Mach) (i : Nat) (x : Job) : (m.setJob i x).copies = m.copies := rfl
@[simp] theorem Mach.setJob_recs (m : Mach) (i : Nat) (x : Job) : (m.setJob i x).recs = m.recs := rfl
@[simp] theorem Mach.setJob_saves (m : Mach) (i : Nat) (x : Job) : (m.setJob i x).saves = m.saves := rfl
@[simp] theorem Mach.setJob_phs (m : Mach) (i : Nat) (x : Job) : (m.setJob i x).phs = m.phs := rfl
@[simp] theorem Mach.setJob_slices (m : Mach) (i : Nat) (x : Job) : (m.setJob i x).slices = m.slices := rfl
@[simp] theorem Mach.setJob_invs (m : Mach) (i : Nat) (x : Job) : (m.setJob i x).invs = m.invs := rfl
@[simp] theorem Mach.setJob_publs (m : Mach) (i : Nat) (x : Job) : (m.setJob i x).publs = m.publs := rfl
@[simp] theorem Mach.setJob_kcores (m : Mach) (i : Nat) (x : Job) : (m.setJob i x).kcores = m.kcores := rfl
@[simp] theorem Mach.setJob_sram (m : Mach) (i : Nat) (x : Job) : (m.setJob i x).sram = m.sram := rfl
@[simp] theorem Mach.setJob_homes (m : Mach) (i : Nat) (x : Job) : (m.setJob i x).homes = m.homes := rfl
@[simp] theorem Mach.setJob_replies (m : Mach) (i : Nat) (x : Job) : (m.setJob i x).replies = m.replies := rfl
@[simp] theorem Mach.setJob_newest (m : Mach) (i : Nat) (x : Job) : (m.setJob i x).newest = m.newest := rfl
@[simp] theorem Mach.setJob_spoiled (m : Mach) (i : Nat) (x : Job) : (m.setJob i x).spoiled = m.spoiled := rfl
@[simp] theorem Mach.setJob_engines (m : Mach) (i : Nat) (x : Job) : (m.setJob i x).engines = m.engines := rfl
@[simp] theorem Mach.setJob_units (m : Mach) (i : Nat) (x : Job) : (m.setJob i x).units = m.units := rfl
@[simp] theorem Mach.setJob_lanes (m : Mach) (i : Nat) (x : Job) : (m.setJob i x).lanes = m.lanes := rfl
@[simp] theorem Mach.setJob_moves (m : Mach) (i : Nat) (x : Job) : (m.setJob i x).moves = m.moves := rfl
@[simp] theorem Mach.setJob_hostWidth (m : Mach) (i : Nat) (x : Job) : (m.setJob i x).hostWidth = m.hostWidth := rfl
@[simp] theorem Mach.setJob_pcap (m : Mach) (i : Nat) (x : Job) : (m.setJob i x).pcap = m.pcap := rfl
@[simp] theorem Mach.setJob_pidle (m : Mach) (i : Nat) (x : Job) : (m.setJob i x).pidle = m.pidle := rfl
@[simp] theorem Mach.setJob_pnow (m : Mach) (i : Nat) (x : Job) : (m.setJob i x).pnow = m.pnow := rfl
@[simp] theorem Mach.setJob_gov (m : Mach) (i : Nat) (x : Job) : (m.setJob i x).gov = m.gov := rfl
@[simp] theorem Mach.setJob_withheld (m : Mach) (i : Nat) (x : Job) : (m.setJob i x).withheld = m.withheld := rfl
@[simp] theorem Mach.setJob_meas (m : Mach) (i : Nat) (x : Job) : (m.setJob i x).meas = m.meas := rfl
@[simp] theorem Mach.setJob_manifest (m : Mach) (i : Nat) (x : Job) : (m.setJob i x).manifest = m.manifest := rfl
@[simp] theorem Mach.setJob_facVer (m : Mach) (i : Nat) (x : Job) : (m.setJob i x).facVer = m.facVer := rfl
@[simp] theorem Mach.setJob_ownVer (m : Mach) (i : Nat) (x : Job) : (m.setJob i x).ownVer = m.ownVer := rfl
@[simp] theorem Mach.setJob_trdUp (m : Mach) (i : Nat) (x : Job) : (m.setJob i x).trdUp = m.trdUp := rfl
@[simp] theorem Mach.setJob_stopped (m : Mach) (i : Nat) (x : Job) : (m.setJob i x).stopped = m.stopped := rfl
@[simp] theorem Mach.setJob_agenda (m : Mach) (i : Nat) (x : Job) : (m.setJob i x).agenda = m.agenda := rfl
@[simp] theorem Mach.setJob_miss (m : Mach) (i : Nat) (x : Job) : (m.setJob i x).miss = m.miss := rfl
@[simp] theorem Mach.setJob_ev (m : Mach) (i : Nat) (x : Job) : (m.setJob i x).ev = m.ev := rfl
@[simp] theorem Mach.setJob_seq (m : Mach) (i : Nat) (x : Job) : (m.setJob i x).seq = m.seq := rfl
@[simp] theorem Mach.setJob_fresh (m : Mach) (i : Nat) (x : Job) : (m.setJob i x).fresh = m.fresh := rfl
@[simp] theorem Mach.setJob_cur (m : Mach) (i : Nat) (x : Job) : (m.setJob i x).cur = m.cur := rfl
@[simp] theorem Mach.setJob_curLen (m : Mach) (i : Nat) (x : Job) : (m.setJob i x).curLen = m.curLen := rfl
@[simp] theorem Mach.setJob_kcur (m : Mach) (i : Nat) (x : Job) : (m.setJob i x).kcur = m.kcur := rfl
@[simp] theorem Mach.setJob_kturn (m : Mach) (i : Nat) (x : Job) : (m.setJob i x).kturn = m.kturn := rfl
@[simp] theorem Mach.setJob_clock (m : Mach) (i : Nat) (x : Job) : (m.setJob i x).clock = m.clock := rfl
@[simp] theorem Mach.setJob_lform (m : Mach) (i : Nat) (x : Job) : (m.setJob i x).lform = m.lform := rfl
@[simp] theorem Mach.setJob_out (m : Mach) (i : Nat) (x : Job) : (m.setJob i x).out = m.out := rfl
/-! ### modJob -/
@[simp] theorem Mach.modJob_parts (m : Mach) (i : Nat) (f : Job → Job) : (m.modJob i f).parts = m.parts := rfl
@[simp] theorem Mach.modJob_ctxs (m : Mach) (i : Nat) (f : Job → Job) : (m.modJob i f).ctxs = m.ctxs := rfl
@[simp] theorem Mach.modJob_ccs (m : Mach) (i : Nat) (f : Job → Job) : (m.modJob i f).ccs = m.ccs := rfl
@[simp] theorem Mach.modJob_pcs (m : Mach) (i : Nat) (f : Job → Job) : (m.modJob i f).pcs = m.pcs := rfl
@[simp] theorem Mach.modJob_dies (m : Mach) (i : Nat) (f : Job → Job) : (m.modJob i f).dies = m.dies := rfl
@[simp] theorem Mach.modJob_streams (m : Mach) (i : Nat) (f : Job → Job) : (m.modJob i f).streams = m.streams := rfl
@[simp] theorem Mach.modJob_pend (m : Mach) (i : Nat) (f : Job → Job) : (m.modJob i f).pend = m.pend := rfl
@[simp] theorem Mach.modJob_atoms (m : Mach) (i : Nat) (f : Job → Job) : (m.modJob i f).atoms = m.atoms := rfl
@[simp] theorem Mach.modJob_copies (m : Mach) (i : Nat) (f : Job → Job) : (m.modJob i f).copies = m.copies := rfl
@[simp] theorem Mach.modJob_recs (m : Mach) (i : Nat) (f : Job → Job) : (m.modJob i f).recs = m.recs := rfl
@[simp] theorem Mach.modJob_saves (m : Mach) (i : Nat) (f : Job → Job) : (m.modJob i f).saves = m.saves := rfl
@[simp] theorem Mach.modJob_phs (m : Mach) (i : Nat) (f : Job → Job) : (m.modJob i f).phs = m.phs := rfl
@[simp] theorem Mach.modJob_slices (m : Mach) (i : Nat) (f : Job → Job) : (m.modJob i f).slices = m.slices := rfl
@[simp] theorem Mach.modJob_invs (m : Mach) (i : Nat) (f : Job → Job) : (m.modJob i f).invs = m.invs := rfl
@[simp] theorem Mach.modJob_publs (m : Mach) (i : Nat) (f : Job → Job) : (m.modJob i f).publs = m.publs := rfl
@[simp] theorem Mach.modJob_kcores (m : Mach) (i : Nat) (f : Job → Job) : (m.modJob i f).kcores = m.kcores := rfl
@[simp] theorem Mach.modJob_sram (m : Mach) (i : Nat) (f : Job → Job) : (m.modJob i f).sram = m.sram := rfl
@[simp] theorem Mach.modJob_homes (m : Mach) (i : Nat) (f : Job → Job) : (m.modJob i f).homes = m.homes := rfl
@[simp] theorem Mach.modJob_replies (m : Mach) (i : Nat) (f : Job → Job) : (m.modJob i f).replies = m.replies := rfl
@[simp] theorem Mach.modJob_newest (m : Mach) (i : Nat) (f : Job → Job) : (m.modJob i f).newest = m.newest := rfl
@[simp] theorem Mach.modJob_spoiled (m : Mach) (i : Nat) (f : Job → Job) : (m.modJob i f).spoiled = m.spoiled := rfl
@[simp] theorem Mach.modJob_engines (m : Mach) (i : Nat) (f : Job → Job) : (m.modJob i f).engines = m.engines := rfl
@[simp] theorem Mach.modJob_units (m : Mach) (i : Nat) (f : Job → Job) : (m.modJob i f).units = m.units := rfl
@[simp] theorem Mach.modJob_lanes (m : Mach) (i : Nat) (f : Job → Job) : (m.modJob i f).lanes = m.lanes := rfl
@[simp] theorem Mach.modJob_moves (m : Mach) (i : Nat) (f : Job → Job) : (m.modJob i f).moves = m.moves := rfl
@[simp] theorem Mach.modJob_hostWidth (m : Mach) (i : Nat) (f : Job → Job) : (m.modJob i f).hostWidth = m.hostWidth := rfl
@[simp] theorem Mach.modJob_pcap (m : Mach) (i : Nat) (f : Job → Job) : (m.modJob i f).pcap = m.pcap := rfl
@[simp] theorem Mach.modJob_pidle (m : Mach) (i : Nat) (f : Job → Job) : (m.modJob i f).pidle = m.pidle := rfl
@[simp] theorem Mach.modJob_pnow (m : Mach) (i : Nat) (f : Job → Job) : (m.modJob i f).pnow = m.pnow := rfl
@[simp] theorem Mach.modJob_gov (m : Mach) (i : Nat) (f : Job → Job) : (m.modJob i f).gov = m.gov := rfl
@[simp] theorem Mach.modJob_withheld (m : Mach) (i : Nat) (f : Job → Job) : (m.modJob i f).withheld = m.withheld := rfl
@[simp] theorem Mach.modJob_meas (m : Mach) (i : Nat) (f : Job → Job) : (m.modJob i f).meas = m.meas := rfl
@[simp] theorem Mach.modJob_manifest (m : Mach) (i : Nat) (f : Job → Job) : (m.modJob i f).manifest = m.manifest := rfl
@[simp] theorem Mach.modJob_facVer (m : Mach) (i : Nat) (f : Job → Job) : (m.modJob i f).facVer = m.facVer := rfl
@[simp] theorem Mach.modJob_ownVer (m : Mach) (i : Nat) (f : Job → Job) : (m.modJob i f).ownVer = m.ownVer := rfl
@[simp] theorem Mach.modJob_trdUp (m : Mach) (i : Nat) (f : Job → Job) : (m.modJob i f).trdUp = m.trdUp := rfl
@[simp] theorem Mach.modJob_stopped (m : Mach) (i : Nat) (f : Job → Job) : (m.modJob i f).stopped = m.stopped := rfl
@[simp] theorem Mach.modJob_agenda (m : Mach) (i : Nat) (f : Job → Job) : (m.modJob i f).agenda = m.agenda := rfl
@[simp] theorem Mach.modJob_miss (m : Mach) (i : Nat) (f : Job → Job) : (m.modJob i f).miss = m.miss := rfl
@[simp] theorem Mach.modJob_ev (m : Mach) (i : Nat) (f : Job → Job) : (m.modJob i f).ev = m.ev := rfl
@[simp] theorem Mach.modJob_seq (m : Mach) (i : Nat) (f : Job → Job) : (m.modJob i f).seq = m.seq := rfl
@[simp] theorem Mach.modJob_fresh (m : Mach) (i : Nat) (f : Job → Job) : (m.modJob i f).fresh = m.fresh := rfl
@[simp] theorem Mach.modJob_cur (m : Mach) (i : Nat) (f : Job → Job) : (m.modJob i f).cur = m.cur := rfl
@[simp] theorem Mach.modJob_curLen (m : Mach) (i : Nat) (f : Job → Job) : (m.modJob i f).curLen = m.curLen := rfl
@[simp] theorem Mach.modJob_kcur (m : Mach) (i : Nat) (f : Job → Job) : (m.modJob i f).kcur = m.kcur := rfl
@[simp] theorem Mach.modJob_kturn (m : Mach) (i : Nat) (f : Job → Job) : (m.modJob i f).kturn = m.kturn := rfl
@[simp] theorem Mach.modJob_clock (m : Mach) (i : Nat) (f : Job → Job) : (m.modJob i f).clock = m.clock := rfl
@[simp] theorem Mach.modJob_lform (m : Mach) (i : Nat) (f : Job → Job) : (m.modJob i f).lform = m.lform := rfl
@[simp] theorem Mach.modJob_out (m : Mach) (i : Nat) (f : Job → Job) : (m.modJob i f).out = m.out := rfl
/-! ### setCct -/
@[simp] theorem Mach.setCct_parts (m : Mach) (i : Nat) (x : Cctx) : (m.setCct i x).parts = m.parts := rfl
@[simp] theorem Mach.setCct_ctxs (m : Mach) (i : Nat) (x : Cctx) : (m.setCct i x).ctxs = m.ctxs := rfl
@[simp] theorem Mach.setCct_pcs (m : Mach) (i : Nat) (x : Cctx) : (m.setCct i x).pcs = m.pcs := rfl
@[simp] theorem Mach.setCct_dies (m : Mach) (i : Nat) (x : Cctx) : (m.setCct i x).dies = m.dies := rfl
@[simp] theorem Mach.setCct_jobs (m : Mach) (i : Nat) (x : Cctx) : (m.setCct i x).jobs = m.jobs := rfl
@[simp] theorem Mach.setCct_streams (m : Mach) (i : Nat) (x : Cctx) : (m.setCct i x).streams = m.streams := rfl
@[simp] theorem Mach.setCct_pend (m : Mach) (i : Nat) (x : Cctx) : (m.setCct i x).pend = m.pend := rfl
@[simp] theorem Mach.setCct_atoms (m : Mach) (i : Nat) (x : Cctx) : (m.setCct i x).atoms = m.atoms := rfl
@[simp] theorem Mach.setCct_copies (m : Mach) (i : Nat) (x : Cctx) : (m.setCct i x).copies = m.copies := rfl
@[simp] theorem Mach.setCct_recs (m : Mach) (i : Nat) (x : Cctx) : (m.setCct i x).recs = m.recs := rfl
@[simp] theorem Mach.setCct_saves (m : Mach) (i : Nat) (x : Cctx) : (m.setCct i x).saves = m.saves := rfl
@[simp] theorem Mach.setCct_phs (m : Mach) (i : Nat) (x : Cctx) : (m.setCct i x).phs = m.phs := rfl
@[simp] theorem Mach.setCct_slices (m : Mach) (i : Nat) (x : Cctx) : (m.setCct i x).slices = m.slices := rfl
@[simp] theorem Mach.setCct_invs (m : Mach) (i : Nat) (x : Cctx) : (m.setCct i x).invs = m.invs := rfl
@[simp] theorem Mach.setCct_publs (m : Mach) (i : Nat) (x : Cctx) : (m.setCct i x).publs = m.publs := rfl
@[simp] theorem Mach.setCct_kcores (m : Mach) (i : Nat) (x : Cctx) : (m.setCct i x).kcores = m.kcores := rfl
@[simp] theorem Mach.setCct_sram (m : Mach) (i : Nat) (x : Cctx) : (m.setCct i x).sram = m.sram := rfl
@[simp] theorem Mach.setCct_homes (m : Mach) (i : Nat) (x : Cctx) : (m.setCct i x).homes = m.homes := rfl
@[simp] theorem Mach.setCct_replies (m : Mach) (i : Nat) (x : Cctx) : (m.setCct i x).replies = m.replies := rfl
@[simp] theorem Mach.setCct_newest (m : Mach) (i : Nat) (x : Cctx) : (m.setCct i x).newest = m.newest := rfl
@[simp] theorem Mach.setCct_spoiled (m : Mach) (i : Nat) (x : Cctx) : (m.setCct i x).spoiled = m.spoiled := rfl
@[simp] theorem Mach.setCct_engines (m : Mach) (i : Nat) (x : Cctx) : (m.setCct i x).engines = m.engines := rfl
@[simp] theorem Mach.setCct_units (m : Mach) (i : Nat) (x : Cctx) : (m.setCct i x).units = m.units := rfl
@[simp] theorem Mach.setCct_lanes (m : Mach) (i : Nat) (x : Cctx) : (m.setCct i x).lanes = m.lanes := rfl
@[simp] theorem Mach.setCct_moves (m : Mach) (i : Nat) (x : Cctx) : (m.setCct i x).moves = m.moves := rfl
@[simp] theorem Mach.setCct_hostWidth (m : Mach) (i : Nat) (x : Cctx) : (m.setCct i x).hostWidth = m.hostWidth := rfl
@[simp] theorem Mach.setCct_pcap (m : Mach) (i : Nat) (x : Cctx) : (m.setCct i x).pcap = m.pcap := rfl
@[simp] theorem Mach.setCct_pidle (m : Mach) (i : Nat) (x : Cctx) : (m.setCct i x).pidle = m.pidle := rfl
@[simp] theorem Mach.setCct_pnow (m : Mach) (i : Nat) (x : Cctx) : (m.setCct i x).pnow = m.pnow := rfl
@[simp] theorem Mach.setCct_gov (m : Mach) (i : Nat) (x : Cctx) : (m.setCct i x).gov = m.gov := rfl
@[simp] theorem Mach.setCct_withheld (m : Mach) (i : Nat) (x : Cctx) : (m.setCct i x).withheld = m.withheld := rfl
@[simp] theorem Mach.setCct_meas (m : Mach) (i : Nat) (x : Cctx) : (m.setCct i x).meas = m.meas := rfl
@[simp] theorem Mach.setCct_manifest (m : Mach) (i : Nat) (x : Cctx) : (m.setCct i x).manifest = m.manifest := rfl
@[simp] theorem Mach.setCct_facVer (m : Mach) (i : Nat) (x : Cctx) : (m.setCct i x).facVer = m.facVer := rfl
@[simp] theorem Mach.setCct_ownVer (m : Mach) (i : Nat) (x : Cctx) : (m.setCct i x).ownVer = m.ownVer := rfl
@[simp] theorem Mach.setCct_trdUp (m : Mach) (i : Nat) (x : Cctx) : (m.setCct i x).trdUp = m.trdUp := rfl
@[simp] theorem Mach.setCct_stopped (m : Mach) (i : Nat) (x : Cctx) : (m.setCct i x).stopped = m.stopped := rfl
@[simp] theorem Mach.setCct_agenda (m : Mach) (i : Nat) (x : Cctx) : (m.setCct i x).agenda = m.agenda := rfl
@[simp] theorem Mach.setCct_miss (m : Mach) (i : Nat) (x : Cctx) : (m.setCct i x).miss = m.miss := rfl
@[simp] theorem Mach.setCct_ev (m : Mach) (i : Nat) (x : Cctx) : (m.setCct i x).ev = m.ev := rfl
@[simp] theorem Mach.setCct_seq (m : Mach) (i : Nat) (x : Cctx) : (m.setCct i x).seq = m.seq := rfl
@[simp] theorem Mach.setCct_fresh (m : Mach) (i : Nat) (x : Cctx) : (m.setCct i x).fresh = m.fresh := rfl
@[simp] theorem Mach.setCct_cur (m : Mach) (i : Nat) (x : Cctx) : (m.setCct i x).cur = m.cur := rfl
@[simp] theorem Mach.setCct_curLen (m : Mach) (i : Nat) (x : Cctx) : (m.setCct i x).curLen = m.curLen := rfl
@[simp] theorem Mach.setCct_kcur (m : Mach) (i : Nat) (x : Cctx) : (m.setCct i x).kcur = m.kcur := rfl
@[simp] theorem Mach.setCct_kturn (m : Mach) (i : Nat) (x : Cctx) : (m.setCct i x).kturn = m.kturn := rfl
@[simp] theorem Mach.setCct_clock (m : Mach) (i : Nat) (x : Cctx) : (m.setCct i x).clock = m.clock := rfl
@[simp] theorem Mach.setCct_lform (m : Mach) (i : Nat) (x : Cctx) : (m.setCct i x).lform = m.lform := rfl
@[simp] theorem Mach.setCct_out (m : Mach) (i : Nat) (x : Cctx) : (m.setCct i x).out = m.out := rfl
/-! ### modCct -/
@[simp] theorem Mach.modCct_parts (m : Mach) (i : Nat) (f : Cctx → Cctx) : (m.modCct i f).parts = m.parts := rfl
@[simp] theorem Mach.modCct_ctxs (m : Mach) (i : Nat) (f : Cctx → Cctx) : (m.modCct i f).ctxs = m.ctxs := rfl
@[simp] theorem Mach.modCct_pcs (m : Mach) (i : Nat) (f : Cctx → Cctx) : (m.modCct i f).pcs = m.pcs := rfl
@[simp] theorem Mach.modCct_dies (m : Mach) (i : Nat) (f : Cctx → Cctx) : (m.modCct i f).dies = m.dies := rfl
@[simp] theorem Mach.modCct_jobs (m : Mach) (i : Nat) (f : Cctx → Cctx) : (m.modCct i f).jobs = m.jobs := rfl
@[simp] theorem Mach.modCct_streams (m : Mach) (i : Nat) (f : Cctx → Cctx) : (m.modCct i f).streams = m.streams := rfl
@[simp] theorem Mach.modCct_pend (m : Mach) (i : Nat) (f : Cctx → Cctx) : (m.modCct i f).pend = m.pend := rfl
@[simp] theorem Mach.modCct_atoms (m : Mach) (i : Nat) (f : Cctx → Cctx) : (m.modCct i f).atoms = m.atoms := rfl
@[simp] theorem Mach.modCct_copies (m : Mach) (i : Nat) (f : Cctx → Cctx) : (m.modCct i f).copies = m.copies := rfl
@[simp] theorem Mach.modCct_recs (m : Mach) (i : Nat) (f : Cctx → Cctx) : (m.modCct i f).recs = m.recs := rfl
@[simp] theorem Mach.modCct_saves (m : Mach) (i : Nat) (f : Cctx → Cctx) : (m.modCct i f).saves = m.saves := rfl
@[simp] theorem Mach.modCct_phs (m : Mach) (i : Nat) (f : Cctx → Cctx) : (m.modCct i f).phs = m.phs := rfl
@[simp] theorem Mach.modCct_slices (m : Mach) (i : Nat) (f : Cctx → Cctx) : (m.modCct i f).slices = m.slices := rfl
@[simp] theorem Mach.modCct_invs (m : Mach) (i : Nat) (f : Cctx → Cctx) : (m.modCct i f).invs = m.invs := rfl
@[simp] theorem Mach.modCct_publs (m : Mach) (i : Nat) (f : Cctx → Cctx) : (m.modCct i f).publs = m.publs := rfl
@[simp] theorem Mach.modCct_kcores (m : Mach) (i : Nat) (f : Cctx → Cctx) : (m.modCct i f).kcores = m.kcores := rfl
@[simp] theorem Mach.modCct_sram (m : Mach) (i : Nat) (f : Cctx → Cctx) : (m.modCct i f).sram = m.sram := rfl
@[simp] theorem Mach.modCct_homes (m : Mach) (i : Nat) (f : Cctx → Cctx) : (m.modCct i f).homes = m.homes := rfl
@[simp] theorem Mach.modCct_replies (m : Mach) (i : Nat) (f : Cctx → Cctx) : (m.modCct i f).replies = m.replies := rfl
@[simp] theorem Mach.modCct_newest (m : Mach) (i : Nat) (f : Cctx → Cctx) : (m.modCct i f).newest = m.newest := rfl
@[simp] theorem Mach.modCct_spoiled (m : Mach) (i : Nat) (f : Cctx → Cctx) : (m.modCct i f).spoiled = m.spoiled := rfl
@[simp] theorem Mach.modCct_engines (m : Mach) (i : Nat) (f : Cctx → Cctx) : (m.modCct i f).engines = m.engines := rfl
@[simp] theorem Mach.modCct_units (m : Mach) (i : Nat) (f : Cctx → Cctx) : (m.modCct i f).units = m.units := rfl
@[simp] theorem Mach.modCct_lanes (m : Mach) (i : Nat) (f : Cctx → Cctx) : (m.modCct i f).lanes = m.lanes := rfl
@[simp] theorem Mach.modCct_moves (m : Mach) (i : Nat) (f : Cctx → Cctx) : (m.modCct i f).moves = m.moves := rfl
@[simp] theorem Mach.modCct_hostWidth (m : Mach) (i : Nat) (f : Cctx → Cctx) : (m.modCct i f).hostWidth = m.hostWidth := rfl
@[simp] theorem Mach.modCct_pcap (m : Mach) (i : Nat) (f : Cctx → Cctx) : (m.modCct i f).pcap = m.pcap := rfl
@[simp] theorem Mach.modCct_pidle (m : Mach) (i : Nat) (f : Cctx → Cctx) : (m.modCct i f).pidle = m.pidle := rfl
@[simp] theorem Mach.modCct_pnow (m : Mach) (i : Nat) (f : Cctx → Cctx) : (m.modCct i f).pnow = m.pnow := rfl
@[simp] theorem Mach.modCct_gov (m : Mach) (i : Nat) (f : Cctx → Cctx) : (m.modCct i f).gov = m.gov := rfl
@[simp] theorem Mach.modCct_withheld (m : Mach) (i : Nat) (f : Cctx → Cctx) : (m.modCct i f).withheld = m.withheld := rfl
@[simp] theorem Mach.modCct_meas (m : Mach) (i : Nat) (f : Cctx → Cctx) : (m.modCct i f).meas = m.meas := rfl
@[simp] theorem Mach.modCct_manifest (m : Mach) (i : Nat) (f : Cctx → Cctx) : (m.modCct i f).manifest = m.manifest := rfl
@[simp] theorem Mach.modCct_facVer (m : Mach) (i : Nat) (f : Cctx → Cctx) : (m.modCct i f).facVer = m.facVer := rfl
@[simp] theorem Mach.modCct_ownVer (m : Mach) (i : Nat) (f : Cctx → Cctx) : (m.modCct i f).ownVer = m.ownVer := rfl
@[simp] theorem Mach.modCct_trdUp (m : Mach) (i : Nat) (f : Cctx → Cctx) : (m.modCct i f).trdUp = m.trdUp := rfl
@[simp] theorem Mach.modCct_stopped (m : Mach) (i : Nat) (f : Cctx → Cctx) : (m.modCct i f).stopped = m.stopped := rfl
@[simp] theorem Mach.modCct_agenda (m : Mach) (i : Nat) (f : Cctx → Cctx) : (m.modCct i f).agenda = m.agenda := rfl
@[simp] theorem Mach.modCct_miss (m : Mach) (i : Nat) (f : Cctx → Cctx) : (m.modCct i f).miss = m.miss := rfl
@[simp] theorem Mach.modCct_ev (m : Mach) (i : Nat) (f : Cctx → Cctx) : (m.modCct i f).ev = m.ev := rfl
@[simp] theorem Mach.modCct_seq (m : Mach) (i : Nat) (f : Cctx → Cctx) : (m.modCct i f).seq = m.seq := rfl
@[simp] theorem Mach.modCct_fresh (m : Mach) (i : Nat) (f : Cctx → Cctx) : (m.modCct i f).fresh = m.fresh := rfl
@[simp] theorem Mach.modCct_cur (m : Mach) (i : Nat) (f : Cctx → Cctx) : (m.modCct i f).cur = m.cur := rfl
@[simp] theorem Mach.modCct_curLen (m : Mach) (i : Nat) (f : Cctx → Cctx) : (m.modCct i f).curLen = m.curLen := rfl
@[simp] theorem Mach.modCct_kcur (m : Mach) (i : Nat) (f : Cctx → Cctx) : (m.modCct i f).kcur = m.kcur := rfl
@[simp] theorem Mach.modCct_kturn (m : Mach) (i : Nat) (f : Cctx → Cctx) : (m.modCct i f).kturn = m.kturn := rfl
@[simp] theorem Mach.modCct_clock (m : Mach) (i : Nat) (f : Cctx → Cctx) : (m.modCct i f).clock = m.clock := rfl
@[simp] theorem Mach.modCct_lform (m : Mach) (i : Nat) (f : Cctx → Cctx) : (m.modCct i f).lform = m.lform := rfl
@[simp] theorem Mach.modCct_out (m : Mach) (i : Nat) (f : Cctx → Cctx) : (m.modCct i f).out = m.out := rfl
/-! ### setCtx -/
@[simp] theorem Mach.setCtx_parts (m : Mach) (i : Nat) (x : Context) : (m.setCtx i x).parts = m.parts := rfl
@[simp] theorem Mach.setCtx_ccs (m : Mach) (i : Nat) (x : Context) : (m.setCtx i x).ccs = m.ccs := rfl
@[simp] theorem Mach.setCtx_pcs (m : Mach) (i : Nat) (x : Context) : (m.setCtx i x).pcs = m.pcs := rfl
@[simp] theorem Mach.setCtx_dies (m : Mach) (i : Nat) (x : Context) : (m.setCtx i x).dies = m.dies := rfl
@[simp] theorem Mach.setCtx_jobs (m : Mach) (i : Nat) (x : Context) : (m.setCtx i x).jobs = m.jobs := rfl
@[simp] theorem Mach.setCtx_streams (m : Mach) (i : Nat) (x : Context) : (m.setCtx i x).streams = m.streams := rfl
@[simp] theorem Mach.setCtx_pend (m : Mach) (i : Nat) (x : Context) : (m.setCtx i x).pend = m.pend := rfl
@[simp] theorem Mach.setCtx_atoms (m : Mach) (i : Nat) (x : Context) : (m.setCtx i x).atoms = m.atoms := rfl
@[simp] theorem Mach.setCtx_copies (m : Mach) (i : Nat) (x : Context) : (m.setCtx i x).copies = m.copies := rfl
@[simp] theorem Mach.setCtx_recs (m : Mach) (i : Nat) (x : Context) : (m.setCtx i x).recs = m.recs := rfl
@[simp] theorem Mach.setCtx_saves (m : Mach) (i : Nat) (x : Context) : (m.setCtx i x).saves = m.saves := rfl
@[simp] theorem Mach.setCtx_phs (m : Mach) (i : Nat) (x : Context) : (m.setCtx i x).phs = m.phs := rfl
@[simp] theorem Mach.setCtx_slices (m : Mach) (i : Nat) (x : Context) : (m.setCtx i x).slices = m.slices := rfl
@[simp] theorem Mach.setCtx_invs (m : Mach) (i : Nat) (x : Context) : (m.setCtx i x).invs = m.invs := rfl
@[simp] theorem Mach.setCtx_publs (m : Mach) (i : Nat) (x : Context) : (m.setCtx i x).publs = m.publs := rfl
@[simp] theorem Mach.setCtx_kcores (m : Mach) (i : Nat) (x : Context) : (m.setCtx i x).kcores = m.kcores := rfl
@[simp] theorem Mach.setCtx_sram (m : Mach) (i : Nat) (x : Context) : (m.setCtx i x).sram = m.sram := rfl
@[simp] theorem Mach.setCtx_homes (m : Mach) (i : Nat) (x : Context) : (m.setCtx i x).homes = m.homes := rfl
@[simp] theorem Mach.setCtx_replies (m : Mach) (i : Nat) (x : Context) : (m.setCtx i x).replies = m.replies := rfl
@[simp] theorem Mach.setCtx_newest (m : Mach) (i : Nat) (x : Context) : (m.setCtx i x).newest = m.newest := rfl
@[simp] theorem Mach.setCtx_spoiled (m : Mach) (i : Nat) (x : Context) : (m.setCtx i x).spoiled = m.spoiled := rfl
@[simp] theorem Mach.setCtx_engines (m : Mach) (i : Nat) (x : Context) : (m.setCtx i x).engines = m.engines := rfl
@[simp] theorem Mach.setCtx_units (m : Mach) (i : Nat) (x : Context) : (m.setCtx i x).units = m.units := rfl
@[simp] theorem Mach.setCtx_lanes (m : Mach) (i : Nat) (x : Context) : (m.setCtx i x).lanes = m.lanes := rfl
@[simp] theorem Mach.setCtx_moves (m : Mach) (i : Nat) (x : Context) : (m.setCtx i x).moves = m.moves := rfl
@[simp] theorem Mach.setCtx_hostWidth (m : Mach) (i : Nat) (x : Context) : (m.setCtx i x).hostWidth = m.hostWidth := rfl
@[simp] theorem Mach.setCtx_pcap (m : Mach) (i : Nat) (x : Context) : (m.setCtx i x).pcap = m.pcap := rfl
@[simp] theorem Mach.setCtx_pidle (m : Mach) (i : Nat) (x : Context) : (m.setCtx i x).pidle = m.pidle := rfl
@[simp] theorem Mach.setCtx_pnow (m : Mach) (i : Nat) (x : Context) : (m.setCtx i x).pnow = m.pnow := rfl
@[simp] theorem Mach.setCtx_gov (m : Mach) (i : Nat) (x : Context) : (m.setCtx i x).gov = m.gov := rfl
@[simp] theorem Mach.setCtx_withheld (m : Mach) (i : Nat) (x : Context) : (m.setCtx i x).withheld = m.withheld := rfl
@[simp] theorem Mach.setCtx_meas (m : Mach) (i : Nat) (x : Context) : (m.setCtx i x).meas = m.meas := rfl
@[simp] theorem Mach.setCtx_manifest (m : Mach) (i : Nat) (x : Context) : (m.setCtx i x).manifest = m.manifest := rfl
@[simp] theorem Mach.setCtx_facVer (m : Mach) (i : Nat) (x : Context) : (m.setCtx i x).facVer = m.facVer := rfl
@[simp] theorem Mach.setCtx_ownVer (m : Mach) (i : Nat) (x : Context) : (m.setCtx i x).ownVer = m.ownVer := rfl
@[simp] theorem Mach.setCtx_trdUp (m : Mach) (i : Nat) (x : Context) : (m.setCtx i x).trdUp = m.trdUp := rfl
@[simp] theorem Mach.setCtx_stopped (m : Mach) (i : Nat) (x : Context) : (m.setCtx i x).stopped = m.stopped := rfl
@[simp] theorem Mach.setCtx_agenda (m : Mach) (i : Nat) (x : Context) : (m.setCtx i x).agenda = m.agenda := rfl
@[simp] theorem Mach.setCtx_miss (m : Mach) (i : Nat) (x : Context) : (m.setCtx i x).miss = m.miss := rfl
@[simp] theorem Mach.setCtx_ev (m : Mach) (i : Nat) (x : Context) : (m.setCtx i x).ev = m.ev := rfl
@[simp] theorem Mach.setCtx_seq (m : Mach) (i : Nat) (x : Context) : (m.setCtx i x).seq = m.seq := rfl
@[simp] theorem Mach.setCtx_fresh (m : Mach) (i : Nat) (x : Context) : (m.setCtx i x).fresh = m.fresh := rfl
@[simp] theorem Mach.setCtx_cur (m : Mach) (i : Nat) (x : Context) : (m.setCtx i x).cur = m.cur := rfl
@[simp] theorem Mach.setCtx_curLen (m : Mach) (i : Nat) (x : Context) : (m.setCtx i x).curLen = m.curLen := rfl
@[simp] theorem Mach.setCtx_kcur (m : Mach) (i : Nat) (x : Context) : (m.setCtx i x).kcur = m.kcur := rfl
@[simp] theorem Mach.setCtx_kturn (m : Mach) (i : Nat) (x : Context) : (m.setCtx i x).kturn = m.kturn := rfl
@[simp] theorem Mach.setCtx_clock (m : Mach) (i : Nat) (x : Context) : (m.setCtx i x).clock = m.clock := rfl
@[simp] theorem Mach.setCtx_lform (m : Mach) (i : Nat) (x : Context) : (m.setCtx i x).lform = m.lform := rfl
@[simp] theorem Mach.setCtx_out (m : Mach) (i : Nat) (x : Context) : (m.setCtx i x).out = m.out := rfl
/-! ### modCtx -/
@[simp] theorem Mach.modCtx_parts (m : Mach) (i : Nat) (f : Context → Context) : (m.modCtx i f).parts = m.parts := rfl
@[simp] theorem Mach.modCtx_ccs (m : Mach) (i : Nat) (f : Context → Context) : (m.modCtx i f).ccs = m.ccs := rfl
@[simp] theorem Mach.modCtx_pcs (m : Mach) (i : Nat) (f : Context → Context) : (m.modCtx i f).pcs = m.pcs := rfl
@[simp] theorem Mach.modCtx_dies (m : Mach) (i : Nat) (f : Context → Context) : (m.modCtx i f).dies = m.dies := rfl
@[simp] theorem Mach.modCtx_jobs (m : Mach) (i : Nat) (f : Context → Context) : (m.modCtx i f).jobs = m.jobs := rfl
@[simp] theorem Mach.modCtx_streams (m : Mach) (i : Nat) (f : Context → Context) : (m.modCtx i f).streams = m.streams := rfl
@[simp] theorem Mach.modCtx_pend (m : Mach) (i : Nat) (f : Context → Context) : (m.modCtx i f).pend = m.pend := rfl
@[simp] theorem Mach.modCtx_atoms (m : Mach) (i : Nat) (f : Context → Context) : (m.modCtx i f).atoms = m.atoms := rfl
@[simp] theorem Mach.modCtx_copies (m : Mach) (i : Nat) (f : Context → Context) : (m.modCtx i f).copies = m.copies := rfl
@[simp] theorem Mach.modCtx_recs (m : Mach) (i : Nat) (f : Context → Context) : (m.modCtx i f).recs = m.recs := rfl
@[simp] theorem Mach.modCtx_saves (m : Mach) (i : Nat) (f : Context → Context) : (m.modCtx i f).saves = m.saves := rfl
@[simp] theorem Mach.modCtx_phs (m : Mach) (i : Nat) (f : Context → Context) : (m.modCtx i f).phs = m.phs := rfl
@[simp] theorem Mach.modCtx_slices (m : Mach) (i : Nat) (f : Context → Context) : (m.modCtx i f).slices = m.slices := rfl
@[simp] theorem Mach.modCtx_invs (m : Mach) (i : Nat) (f : Context → Context) : (m.modCtx i f).invs = m.invs := rfl
@[simp] theorem Mach.modCtx_publs (m : Mach) (i : Nat) (f : Context → Context) : (m.modCtx i f).publs = m.publs := rfl
@[simp] theorem Mach.modCtx_kcores (m : Mach) (i : Nat) (f : Context → Context) : (m.modCtx i f).kcores = m.kcores := rfl
@[simp] theorem Mach.modCtx_sram (m : Mach) (i : Nat) (f : Context → Context) : (m.modCtx i f).sram = m.sram := rfl
@[simp] theorem Mach.modCtx_homes (m : Mach) (i : Nat) (f : Context → Context) : (m.modCtx i f).homes = m.homes := rfl
@[simp] theorem Mach.modCtx_replies (m : Mach) (i : Nat) (f : Context → Context) : (m.modCtx i f).replies = m.replies := rfl
@[simp] theorem Mach.modCtx_newest (m : Mach) (i : Nat) (f : Context → Context) : (m.modCtx i f).newest = m.newest := rfl
@[simp] theorem Mach.modCtx_spoiled (m : Mach) (i : Nat) (f : Context → Context) : (m.modCtx i f).spoiled = m.spoiled := rfl
@[simp] theorem Mach.modCtx_engines (m : Mach) (i : Nat) (f : Context → Context) : (m.modCtx i f).engines = m.engines := rfl
@[simp] theorem Mach.modCtx_units (m : Mach) (i : Nat) (f : Context → Context) : (m.modCtx i f).units = m.units := rfl
@[simp] theorem Mach.modCtx_lanes (m : Mach) (i : Nat) (f : Context → Context) : (m.modCtx i f).lanes = m.lanes := rfl
@[simp] theorem Mach.modCtx_moves (m : Mach) (i : Nat) (f : Context → Context) : (m.modCtx i f).moves = m.moves := rfl
@[simp] theorem Mach.modCtx_hostWidth (m : Mach) (i : Nat) (f : Context → Context) : (m.modCtx i f).hostWidth = m.hostWidth := rfl
@[simp] theorem Mach.modCtx_pcap (m : Mach) (i : Nat) (f : Context → Context) : (m.modCtx i f).pcap = m.pcap := rfl
@[simp] theorem Mach.modCtx_pidle (m : Mach) (i : Nat) (f : Context → Context) : (m.modCtx i f).pidle = m.pidle := rfl
@[simp] theorem Mach.modCtx_pnow (m : Mach) (i : Nat) (f : Context → Context) : (m.modCtx i f).pnow = m.pnow := rfl
@[simp] theorem Mach.modCtx_gov (m : Mach) (i : Nat) (f : Context → Context) : (m.modCtx i f).gov = m.gov := rfl
@[simp] theorem Mach.modCtx_withheld (m : Mach) (i : Nat) (f : Context → Context) : (m.modCtx i f).withheld = m.withheld := rfl
@[simp] theorem Mach.modCtx_meas (m : Mach) (i : Nat) (f : Context → Context) : (m.modCtx i f).meas = m.meas := rfl
@[simp] theorem Mach.modCtx_manifest (m : Mach) (i : Nat) (f : Context → Context) : (m.modCtx i f).manifest = m.manifest := rfl
@[simp] theorem Mach.modCtx_facVer (m : Mach) (i : Nat) (f : Context → Context) : (m.modCtx i f).facVer = m.facVer := rfl
@[simp] theorem Mach.modCtx_ownVer (m : Mach) (i : Nat) (f : Context → Context) : (m.modCtx i f).ownVer = m.ownVer := rfl
@[simp] theorem Mach.modCtx_trdUp (m : Mach) (i : Nat) (f : Context → Context) : (m.modCtx i f).trdUp = m.trdUp := rfl
@[simp] theorem Mach.modCtx_stopped (m : Mach) (i : Nat) (f : Context → Context) : (m.modCtx i f).stopped = m.stopped := rfl
@[simp] theorem Mach.modCtx_agenda (m : Mach) (i : Nat) (f : Context → Context) : (m.modCtx i f).agenda = m.agenda := rfl
@[simp] theorem Mach.modCtx_miss (m : Mach) (i : Nat) (f : Context → Context) : (m.modCtx i f).miss = m.miss := rfl
@[simp] theorem Mach.modCtx_ev (m : Mach) (i : Nat) (f : Context → Context) : (m.modCtx i f).ev = m.ev := rfl
@[simp] theorem Mach.modCtx_seq (m : Mach) (i : Nat) (f : Context → Context) : (m.modCtx i f).seq = m.seq := rfl
@[simp] theorem Mach.modCtx_fresh (m : Mach) (i : Nat) (f : Context → Context) : (m.modCtx i f).fresh = m.fresh := rfl
@[simp] theorem Mach.modCtx_cur (m : Mach) (i : Nat) (f : Context → Context) : (m.modCtx i f).cur = m.cur := rfl
@[simp] theorem Mach.modCtx_curLen (m : Mach) (i : Nat) (f : Context → Context) : (m.modCtx i f).curLen = m.curLen := rfl
@[simp] theorem Mach.modCtx_kcur (m : Mach) (i : Nat) (f : Context → Context) : (m.modCtx i f).kcur = m.kcur := rfl
@[simp] theorem Mach.modCtx_kturn (m : Mach) (i : Nat) (f : Context → Context) : (m.modCtx i f).kturn = m.kturn := rfl
@[simp] theorem Mach.modCtx_clock (m : Mach) (i : Nat) (f : Context → Context) : (m.modCtx i f).clock = m.clock := rfl
@[simp] theorem Mach.modCtx_lform (m : Mach) (i : Nat) (f : Context → Context) : (m.modCtx i f).lform = m.lform := rfl
@[simp] theorem Mach.modCtx_out (m : Mach) (i : Nat) (f : Context → Context) : (m.modCtx i f).out = m.out := rfl
/-! ### setPart -/
@[simp] theorem Mach.setPart_ctxs (m : Mach) (i : Nat) (x : Part) : (m.setPart i x).ctxs = m.ctxs := rfl
@[simp] theorem Mach.setPart_ccs (m : Mach) (i : Nat) (x : Part) : (m.setPart i x).ccs = m.ccs := rfl
@[simp] theorem Mach.setPart_pcs (m : Mach) (i : Nat) (x : Part) : (m.setPart i x).pcs = m.pcs := rfl
@[simp] theorem Mach.setPart_dies (m : Mach) (i : Nat) (x : Part) : (m.setPart i x).dies = m.dies := rfl
@[simp] theorem Mach.setPart_jobs (m : Mach) (i : Nat) (x : Part) : (m.setPart i x).jobs = m.jobs := rfl
@[simp] theorem Mach.setPart_streams (m : Mach) (i : Nat) (x : Part) : (m.setPart i x).streams = m.streams := rfl
@[simp] theorem Mach.setPart_pend (m : Mach) (i : Nat) (x : Part) : (m.setPart i x).pend = m.pend := rfl
@[simp] theorem Mach.setPart_atoms (m : Mach) (i : Nat) (x : Part) : (m.setPart i x).atoms = m.atoms := rfl
@[simp] theorem Mach.setPart_copies (m : Mach) (i : Nat) (x : Part) : (m.setPart i x).copies = m.copies := rfl
@[simp] theorem Mach.setPart_recs (m : Mach) (i : Nat) (x : Part) : (m.setPart i x).recs = m.recs := rfl
@[simp] theorem Mach.setPart_saves (m : Mach) (i : Nat) (x : Part) : (m.setPart i x).saves = m.saves := rfl
@[simp] theorem Mach.setPart_phs (m : Mach) (i : Nat) (x : Part) : (m.setPart i x).phs = m.phs := rfl
@[simp] theorem Mach.setPart_slices (m : Mach) (i : Nat) (x : Part) : (m.setPart i x).slices = m.slices := rfl
@[simp] theorem Mach.setPart_invs (m : Mach) (i : Nat) (x : Part) : (m.setPart i x).invs = m.invs := rfl
@[simp] theorem Mach.setPart_publs (m : Mach) (i : Nat) (x : Part) : (m.setPart i x).publs = m.publs := rfl
@[simp] theorem Mach.setPart_kcores (m : Mach) (i : Nat) (x : Part) : (m.setPart i x).kcores = m.kcores := rfl
@[simp] theorem Mach.setPart_sram (m : Mach) (i : Nat) (x : Part) : (m.setPart i x).sram = m.sram := rfl
@[simp] theorem Mach.setPart_homes (m : Mach) (i : Nat) (x : Part) : (m.setPart i x).homes = m.homes := rfl
@[simp] theorem Mach.setPart_replies (m : Mach) (i : Nat) (x : Part) : (m.setPart i x).replies = m.replies := rfl
@[simp] theorem Mach.setPart_newest (m : Mach) (i : Nat) (x : Part) : (m.setPart i x).newest = m.newest := rfl
@[simp] theorem Mach.setPart_spoiled (m : Mach) (i : Nat) (x : Part) : (m.setPart i x).spoiled = m.spoiled := rfl
@[simp] theorem Mach.setPart_engines (m : Mach) (i : Nat) (x : Part) : (m.setPart i x).engines = m.engines := rfl
@[simp] theorem Mach.setPart_units (m : Mach) (i : Nat) (x : Part) : (m.setPart i x).units = m.units := rfl
@[simp] theorem Mach.setPart_lanes (m : Mach) (i : Nat) (x : Part) : (m.setPart i x).lanes = m.lanes := rfl
@[simp] theorem Mach.setPart_moves (m : Mach) (i : Nat) (x : Part) : (m.setPart i x).moves = m.moves := rfl
@[simp] theorem Mach.setPart_hostWidth (m : Mach) (i : Nat) (x : Part) : (m.setPart i x).hostWidth = m.hostWidth := rfl
@[simp] theorem Mach.setPart_pcap (m : Mach) (i : Nat) (x : Part) : (m.setPart i x).pcap = m.pcap := rfl
@[simp] theorem Mach.setPart_pidle (m : Mach) (i : Nat) (x : Part) : (m.setPart i x).pidle = m.pidle := rfl
@[simp] theorem Mach.setPart_pnow (m : Mach) (i : Nat) (x : Part) : (m.setPart i x).pnow = m.pnow := rfl
@[simp] theorem Mach.setPart_gov (m : Mach) (i : Nat) (x : Part) : (m.setPart i x).gov = m.gov := rfl
@[simp] theorem Mach.setPart_withheld (m : Mach) (i : Nat) (x : Part) : (m.setPart i x).withheld = m.withheld := rfl
@[simp] theorem Mach.setPart_meas (m : Mach) (i : Nat) (x : Part) : (m.setPart i x).meas = m.meas := rfl
@[simp] theorem Mach.setPart_manifest (m : Mach) (i : Nat) (x : Part) : (m.setPart i x).manifest = m.manifest := rfl
@[simp] theorem Mach.setPart_facVer (m : Mach) (i : Nat) (x : Part) : (m.setPart i x).facVer = m.facVer := rfl
@[simp] theorem Mach.setPart_ownVer (m : Mach) (i : Nat) (x : Part) : (m.setPart i x).ownVer = m.ownVer := rfl
@[simp] theorem Mach.setPart_trdUp (m : Mach) (i : Nat) (x : Part) : (m.setPart i x).trdUp = m.trdUp := rfl
@[simp] theorem Mach.setPart_stopped (m : Mach) (i : Nat) (x : Part) : (m.setPart i x).stopped = m.stopped := rfl
@[simp] theorem Mach.setPart_agenda (m : Mach) (i : Nat) (x : Part) : (m.setPart i x).agenda = m.agenda := rfl
@[simp] theorem Mach.setPart_miss (m : Mach) (i : Nat) (x : Part) : (m.setPart i x).miss = m.miss := rfl
@[simp] theorem Mach.setPart_ev (m : Mach) (i : Nat) (x : Part) : (m.setPart i x).ev = m.ev := rfl
@[simp] theorem Mach.setPart_seq (m : Mach) (i : Nat) (x : Part) : (m.setPart i x).seq = m.seq := rfl
@[simp] theorem Mach.setPart_fresh (m : Mach) (i : Nat) (x : Part) : (m.setPart i x).fresh = m.fresh := rfl
@[simp] theorem Mach.setPart_cur (m : Mach) (i : Nat) (x : Part) : (m.setPart i x).cur = m.cur := rfl
@[simp] theorem Mach.setPart_curLen (m : Mach) (i : Nat) (x : Part) : (m.setPart i x).curLen = m.curLen := rfl
@[simp] theorem Mach.setPart_kcur (m : Mach) (i : Nat) (x : Part) : (m.setPart i x).kcur = m.kcur := rfl
@[simp] theorem Mach.setPart_kturn (m : Mach) (i : Nat) (x : Part) : (m.setPart i x).kturn = m.kturn := rfl
@[simp] theorem Mach.setPart_clock (m : Mach) (i : Nat) (x : Part) : (m.setPart i x).clock = m.clock := rfl
@[simp] theorem Mach.setPart_lform (m : Mach) (i : Nat) (x : Part) : (m.setPart i x).lform = m.lform := rfl
@[simp] theorem Mach.setPart_out (m : Mach) (i : Nat) (x : Part) : (m.setPart i x).out = m.out := rfl
/-! ### modPart -/
@[simp] theorem Mach.modPart_ctxs (m : Mach) (i : Nat) (f : Part → Part) : (m.modPart i f).ctxs = m.ctxs := rfl
@[simp] theorem Mach.modPart_ccs (m : Mach) (i : Nat) (f : Part → Part) : (m.modPart i f).ccs = m.ccs := rfl
@[simp] theorem Mach.modPart_pcs (m : Mach) (i : Nat) (f : Part → Part) : (m.modPart i f).pcs = m.pcs := rfl
@[simp] theorem Mach.modPart_dies (m : Mach) (i : Nat) (f : Part → Part) : (m.modPart i f).dies = m.dies := rfl
@[simp] theorem Mach.modPart_jobs (m : Mach) (i : Nat) (f : Part → Part) : (m.modPart i f).jobs = m.jobs := rfl
@[simp] theorem Mach.modPart_streams (m : Mach) (i : Nat) (f : Part → Part) : (m.modPart i f).streams = m.streams := rfl
@[simp] theorem Mach.modPart_pend (m : Mach) (i : Nat) (f : Part → Part) : (m.modPart i f).pend = m.pend := rfl
@[simp] theorem Mach.modPart_atoms (m : Mach) (i : Nat) (f : Part → Part) : (m.modPart i f).atoms = m.atoms := rfl
@[simp] theorem Mach.modPart_copies (m : Mach) (i : Nat) (f : Part → Part) : (m.modPart i f).copies = m.copies := rfl
@[simp] theorem Mach.modPart_recs (m : Mach) (i : Nat) (f : Part → Part) : (m.modPart i f).recs = m.recs := rfl
@[simp] theorem Mach.modPart_saves (m : Mach) (i : Nat) (f : Part → Part) : (m.modPart i f).saves = m.saves := rfl
@[simp] theorem Mach.modPart_phs (m : Mach) (i : Nat) (f : Part → Part) : (m.modPart i f).phs = m.phs := rfl
@[simp] theorem Mach.modPart_slices (m : Mach) (i : Nat) (f : Part → Part) : (m.modPart i f).slices = m.slices := rfl
@[simp] theorem Mach.modPart_invs (m : Mach) (i : Nat) (f : Part → Part) : (m.modPart i f).invs = m.invs := rfl
@[simp] theorem Mach.modPart_publs (m : Mach) (i : Nat) (f : Part → Part) : (m.modPart i f).publs = m.publs := rfl
@[simp] theorem Mach.modPart_kcores (m : Mach) (i : Nat) (f : Part → Part) : (m.modPart i f).kcores = m.kcores := rfl
@[simp] theorem Mach.modPart_sram (m : Mach) (i : Nat) (f : Part → Part) : (m.modPart i f).sram = m.sram := rfl
@[simp] theorem Mach.modPart_homes (m : Mach) (i : Nat) (f : Part → Part) : (m.modPart i f).homes = m.homes := rfl
@[simp] theorem Mach.modPart_replies (m : Mach) (i : Nat) (f : Part → Part) : (m.modPart i f).replies = m.replies := rfl
@[simp] theorem Mach.modPart_newest (m : Mach) (i : Nat) (f : Part → Part) : (m.modPart i f).newest = m.newest := rfl
@[simp] theorem Mach.modPart_spoiled (m : Mach) (i : Nat) (f : Part → Part) : (m.modPart i f).spoiled = m.spoiled := rfl
@[simp] theorem Mach.modPart_engines (m : Mach) (i : Nat) (f : Part → Part) : (m.modPart i f).engines = m.engines := rfl
@[simp] theorem Mach.modPart_units (m : Mach) (i : Nat) (f : Part → Part) : (m.modPart i f).units = m.units := rfl
@[simp] theorem Mach.modPart_lanes (m : Mach) (i : Nat) (f : Part → Part) : (m.modPart i f).lanes = m.lanes := rfl
@[simp] theorem Mach.modPart_moves (m : Mach) (i : Nat) (f : Part → Part) : (m.modPart i f).moves = m.moves := rfl
@[simp] theorem Mach.modPart_hostWidth (m : Mach) (i : Nat) (f : Part → Part) : (m.modPart i f).hostWidth = m.hostWidth := rfl
@[simp] theorem Mach.modPart_pcap (m : Mach) (i : Nat) (f : Part → Part) : (m.modPart i f).pcap = m.pcap := rfl
@[simp] theorem Mach.modPart_pidle (m : Mach) (i : Nat) (f : Part → Part) : (m.modPart i f).pidle = m.pidle := rfl
@[simp] theorem Mach.modPart_pnow (m : Mach) (i : Nat) (f : Part → Part) : (m.modPart i f).pnow = m.pnow := rfl
@[simp] theorem Mach.modPart_gov (m : Mach) (i : Nat) (f : Part → Part) : (m.modPart i f).gov = m.gov := rfl
@[simp] theorem Mach.modPart_withheld (m : Mach) (i : Nat) (f : Part → Part) : (m.modPart i f).withheld = m.withheld := rfl
@[simp] theorem Mach.modPart_meas (m : Mach) (i : Nat) (f : Part → Part) : (m.modPart i f).meas = m.meas := rfl
@[simp] theorem Mach.modPart_manifest (m : Mach) (i : Nat) (f : Part → Part) : (m.modPart i f).manifest = m.manifest := rfl
@[simp] theorem Mach.modPart_facVer (m : Mach) (i : Nat) (f : Part → Part) : (m.modPart i f).facVer = m.facVer := rfl
@[simp] theorem Mach.modPart_ownVer (m : Mach) (i : Nat) (f : Part → Part) : (m.modPart i f).ownVer = m.ownVer := rfl
@[simp] theorem Mach.modPart_trdUp (m : Mach) (i : Nat) (f : Part → Part) : (m.modPart i f).trdUp = m.trdUp := rfl
@[simp] theorem Mach.modPart_stopped (m : Mach) (i : Nat) (f : Part → Part) : (m.modPart i f).stopped = m.stopped := rfl
@[simp] theorem Mach.modPart_agenda (m : Mach) (i : Nat) (f : Part → Part) : (m.modPart i f).agenda = m.agenda := rfl
@[simp] theorem Mach.modPart_miss (m : Mach) (i : Nat) (f : Part → Part) : (m.modPart i f).miss = m.miss := rfl
@[simp] theorem Mach.modPart_ev (m : Mach) (i : Nat) (f : Part → Part) : (m.modPart i f).ev = m.ev := rfl
@[simp] theorem Mach.modPart_seq (m : Mach) (i : Nat) (f : Part → Part) : (m.modPart i f).seq = m.seq := rfl
@[simp] theorem Mach.modPart_fresh (m : Mach) (i : Nat) (f : Part → Part) : (m.modPart i f).fresh = m.fresh := rfl
@[simp] theorem Mach.modPart_cur (m : Mach) (i : Nat) (f : Part → Part) : (m.modPart i f).cur = m.cur := rfl
@[simp] theorem Mach.modPart_curLen (m : Mach) (i : Nat) (f : Part → Part) : (m.modPart i f).curLen = m.curLen := rfl
@[simp] theorem Mach.modPart_kcur (m : Mach) (i : Nat) (f : Part → Part) : (m.modPart i f).kcur = m.kcur := rfl
@[simp] theorem Mach.modPart_kturn (m : Mach) (i : Nat) (f : Part → Part) : (m.modPart i f).kturn = m.kturn := rfl
@[simp] theorem Mach.modPart_clock (m : Mach) (i : Nat) (f : Part → Part) : (m.modPart i f).clock = m.clock := rfl
@[simp] theorem Mach.modPart_lform (m : Mach) (i : Nat) (f : Part → Part) : (m.modPart i f).lform = m.lform := rfl
@[simp] theorem Mach.modPart_out (m : Mach) (i : Nat) (f : Part → Part) : (m.modPart i f).out = m.out := rfl
/-! ### modPcl -/
@[simp] theorem Mach.modPcl_parts (m : Mach) (i : Nat) (f : PClu → PClu) : (m.modPcl i f).parts = m.parts := rfl
@[simp] theorem Mach.modPcl_ctxs (m : Mach) (i : Nat) (f : PClu → PClu) : (m.modPcl i f).ctxs = m.ctxs := rfl
@[simp] theorem Mach.modPcl_ccs (m : Mach) (i : Nat) (f : PClu → PClu) : (m.modPcl i f).ccs = m.ccs := rfl
@[simp] theorem Mach.modPcl_dies (m : Mach) (i : Nat) (f : PClu → PClu) : (m.modPcl i f).dies = m.dies := rfl
@[simp] theorem Mach.modPcl_jobs (m : Mach) (i : Nat) (f : PClu → PClu) : (m.modPcl i f).jobs = m.jobs := rfl
@[simp] theorem Mach.modPcl_streams (m : Mach) (i : Nat) (f : PClu → PClu) : (m.modPcl i f).streams = m.streams := rfl
@[simp] theorem Mach.modPcl_pend (m : Mach) (i : Nat) (f : PClu → PClu) : (m.modPcl i f).pend = m.pend := rfl
@[simp] theorem Mach.modPcl_atoms (m : Mach) (i : Nat) (f : PClu → PClu) : (m.modPcl i f).atoms = m.atoms := rfl
@[simp] theorem Mach.modPcl_copies (m : Mach) (i : Nat) (f : PClu → PClu) : (m.modPcl i f).copies = m.copies := rfl
@[simp] theorem Mach.modPcl_recs (m : Mach) (i : Nat) (f : PClu → PClu) : (m.modPcl i f).recs = m.recs := rfl
@[simp] theorem Mach.modPcl_saves (m : Mach) (i : Nat) (f : PClu → PClu) : (m.modPcl i f).saves = m.saves := rfl
@[simp] theorem Mach.modPcl_phs (m : Mach) (i : Nat) (f : PClu → PClu) : (m.modPcl i f).phs = m.phs := rfl
@[simp] theorem Mach.modPcl_slices (m : Mach) (i : Nat) (f : PClu → PClu) : (m.modPcl i f).slices = m.slices := rfl
@[simp] theorem Mach.modPcl_invs (m : Mach) (i : Nat) (f : PClu → PClu) : (m.modPcl i f).invs = m.invs := rfl
@[simp] theorem Mach.modPcl_publs (m : Mach) (i : Nat) (f : PClu → PClu) : (m.modPcl i f).publs = m.publs := rfl
@[simp] theorem Mach.modPcl_kcores (m : Mach) (i : Nat) (f : PClu → PClu) : (m.modPcl i f).kcores = m.kcores := rfl
@[simp] theorem Mach.modPcl_sram (m : Mach) (i : Nat) (f : PClu → PClu) : (m.modPcl i f).sram = m.sram := rfl
@[simp] theorem Mach.modPcl_homes (m : Mach) (i : Nat) (f : PClu → PClu) : (m.modPcl i f).homes = m.homes := rfl
@[simp] theorem Mach.modPcl_replies (m : Mach) (i : Nat) (f : PClu → PClu) : (m.modPcl i f).replies = m.replies := rfl
@[simp] theorem Mach.modPcl_newest (m : Mach) (i : Nat) (f : PClu → PClu) : (m.modPcl i f).newest = m.newest := rfl
@[simp] theorem Mach.modPcl_spoiled (m : Mach) (i : Nat) (f : PClu → PClu) : (m.modPcl i f).spoiled = m.spoiled := rfl
@[simp] theorem Mach.modPcl_engines (m : Mach) (i : Nat) (f : PClu → PClu) : (m.modPcl i f).engines = m.engines := rfl
@[simp] theorem Mach.modPcl_units (m : Mach) (i : Nat) (f : PClu → PClu) : (m.modPcl i f).units = m.units := rfl
@[simp] theorem Mach.modPcl_lanes (m : Mach) (i : Nat) (f : PClu → PClu) : (m.modPcl i f).lanes = m.lanes := rfl
@[simp] theorem Mach.modPcl_moves (m : Mach) (i : Nat) (f : PClu → PClu) : (m.modPcl i f).moves = m.moves := rfl
@[simp] theorem Mach.modPcl_hostWidth (m : Mach) (i : Nat) (f : PClu → PClu) : (m.modPcl i f).hostWidth = m.hostWidth := rfl
@[simp] theorem Mach.modPcl_pcap (m : Mach) (i : Nat) (f : PClu → PClu) : (m.modPcl i f).pcap = m.pcap := rfl
@[simp] theorem Mach.modPcl_pidle (m : Mach) (i : Nat) (f : PClu → PClu) : (m.modPcl i f).pidle = m.pidle := rfl
@[simp] theorem Mach.modPcl_pnow (m : Mach) (i : Nat) (f : PClu → PClu) : (m.modPcl i f).pnow = m.pnow := rfl
@[simp] theorem Mach.modPcl_gov (m : Mach) (i : Nat) (f : PClu → PClu) : (m.modPcl i f).gov = m.gov := rfl
@[simp] theorem Mach.modPcl_withheld (m : Mach) (i : Nat) (f : PClu → PClu) : (m.modPcl i f).withheld = m.withheld := rfl
@[simp] theorem Mach.modPcl_meas (m : Mach) (i : Nat) (f : PClu → PClu) : (m.modPcl i f).meas = m.meas := rfl
@[simp] theorem Mach.modPcl_manifest (m : Mach) (i : Nat) (f : PClu → PClu) : (m.modPcl i f).manifest = m.manifest := rfl
@[simp] theorem Mach.modPcl_facVer (m : Mach) (i : Nat) (f : PClu → PClu) : (m.modPcl i f).facVer = m.facVer := rfl
@[simp] theorem Mach.modPcl_ownVer (m : Mach) (i : Nat) (f : PClu → PClu) : (m.modPcl i f).ownVer = m.ownVer := rfl
@[simp] theorem Mach.modPcl_trdUp (m : Mach) (i : Nat) (f : PClu → PClu) : (m.modPcl i f).trdUp = m.trdUp := rfl
@[simp] theorem Mach.modPcl_stopped (m : Mach) (i : Nat) (f : PClu → PClu) : (m.modPcl i f).stopped = m.stopped := rfl
@[simp] theorem Mach.modPcl_agenda (m : Mach) (i : Nat) (f : PClu → PClu) : (m.modPcl i f).agenda = m.agenda := rfl
@[simp] theorem Mach.modPcl_miss (m : Mach) (i : Nat) (f : PClu → PClu) : (m.modPcl i f).miss = m.miss := rfl
@[simp] theorem Mach.modPcl_ev (m : Mach) (i : Nat) (f : PClu → PClu) : (m.modPcl i f).ev = m.ev := rfl
@[simp] theorem Mach.modPcl_seq (m : Mach) (i : Nat) (f : PClu → PClu) : (m.modPcl i f).seq = m.seq := rfl
@[simp] theorem Mach.modPcl_fresh (m : Mach) (i : Nat) (f : PClu → PClu) : (m.modPcl i f).fresh = m.fresh := rfl
@[simp] theorem Mach.modPcl_cur (m : Mach) (i : Nat) (f : PClu → PClu) : (m.modPcl i f).cur = m.cur := rfl
@[simp] theorem Mach.modPcl_curLen (m : Mach) (i : Nat) (f : PClu → PClu) : (m.modPcl i f).curLen = m.curLen := rfl
@[simp] theorem Mach.modPcl_kcur (m : Mach) (i : Nat) (f : PClu → PClu) : (m.modPcl i f).kcur = m.kcur := rfl
@[simp] theorem Mach.modPcl_kturn (m : Mach) (i : Nat) (f : PClu → PClu) : (m.modPcl i f).kturn = m.kturn := rfl
@[simp] theorem Mach.modPcl_clock (m : Mach) (i : Nat) (f : PClu → PClu) : (m.modPcl i f).clock = m.clock := rfl
@[simp] theorem Mach.modPcl_lform (m : Mach) (i : Nat) (f : PClu → PClu) : (m.modPcl i f).lform = m.lform := rfl
@[simp] theorem Mach.modPcl_out (m : Mach) (i : Nat) (f : PClu → PClu) : (m.modPcl i f).out = m.out := rfl
/-! ### modDie -/
@[simp] theorem Mach.modDie_parts (m : Mach) (i : Nat) (f : Die → Die) : (m.modDie i f).parts = m.parts := rfl
@[simp] theorem Mach.modDie_ctxs (m : Mach) (i : Nat) (f : Die → Die) : (m.modDie i f).ctxs = m.ctxs := rfl
@[simp] theorem Mach.modDie_ccs (m : Mach) (i : Nat) (f : Die → Die) : (m.modDie i f).ccs = m.ccs := rfl
@[simp] theorem Mach.modDie_pcs (m : Mach) (i : Nat) (f : Die → Die) : (m.modDie i f).pcs = m.pcs := rfl
@[simp] theorem Mach.modDie_jobs (m : Mach) (i : Nat) (f : Die → Die) : (m.modDie i f).jobs = m.jobs := rfl
@[simp] theorem Mach.modDie_streams (m : Mach) (i : Nat) (f : Die → Die) : (m.modDie i f).streams = m.streams := rfl
@[simp] theorem Mach.modDie_pend (m : Mach) (i : Nat) (f : Die → Die) : (m.modDie i f).pend = m.pend := rfl
@[simp] theorem Mach.modDie_atoms (m : Mach) (i : Nat) (f : Die → Die) : (m.modDie i f).atoms = m.atoms := rfl
@[simp] theorem Mach.modDie_copies (m : Mach) (i : Nat) (f : Die → Die) : (m.modDie i f).copies = m.copies := rfl
@[simp] theorem Mach.modDie_recs (m : Mach) (i : Nat) (f : Die → Die) : (m.modDie i f).recs = m.recs := rfl
@[simp] theorem Mach.modDie_saves (m : Mach) (i : Nat) (f : Die → Die) : (m.modDie i f).saves = m.saves := rfl
@[simp] theorem Mach.modDie_phs (m : Mach) (i : Nat) (f : Die → Die) : (m.modDie i f).phs = m.phs := rfl
@[simp] theorem Mach.modDie_slices (m : Mach) (i : Nat) (f : Die → Die) : (m.modDie i f).slices = m.slices := rfl
@[simp] theorem Mach.modDie_invs (m : Mach) (i : Nat) (f : Die → Die) : (m.modDie i f).invs = m.invs := rfl
@[simp] theorem Mach.modDie_publs (m : Mach) (i : Nat) (f : Die → Die) : (m.modDie i f).publs = m.publs := rfl
@[simp] theorem Mach.modDie_kcores (m : Mach) (i : Nat) (f : Die → Die) : (m.modDie i f).kcores = m.kcores := rfl
@[simp] theorem Mach.modDie_sram (m : Mach) (i : Nat) (f : Die → Die) : (m.modDie i f).sram = m.sram := rfl
@[simp] theorem Mach.modDie_homes (m : Mach) (i : Nat) (f : Die → Die) : (m.modDie i f).homes = m.homes := rfl
@[simp] theorem Mach.modDie_replies (m : Mach) (i : Nat) (f : Die → Die) : (m.modDie i f).replies = m.replies := rfl
@[simp] theorem Mach.modDie_newest (m : Mach) (i : Nat) (f : Die → Die) : (m.modDie i f).newest = m.newest := rfl
@[simp] theorem Mach.modDie_spoiled (m : Mach) (i : Nat) (f : Die → Die) : (m.modDie i f).spoiled = m.spoiled := rfl
@[simp] theorem Mach.modDie_engines (m : Mach) (i : Nat) (f : Die → Die) : (m.modDie i f).engines = m.engines := rfl
@[simp] theorem Mach.modDie_units (m : Mach) (i : Nat) (f : Die → Die) : (m.modDie i f).units = m.units := rfl
@[simp] theorem Mach.modDie_lanes (m : Mach) (i : Nat) (f : Die → Die) : (m.modDie i f).lanes = m.lanes := rfl
@[simp] theorem Mach.modDie_moves (m : Mach) (i : Nat) (f : Die → Die) : (m.modDie i f).moves = m.moves := rfl
@[simp] theorem Mach.modDie_hostWidth (m : Mach) (i : Nat) (f : Die → Die) : (m.modDie i f).hostWidth = m.hostWidth := rfl
@[simp] theorem Mach.modDie_pcap (m : Mach) (i : Nat) (f : Die → Die) : (m.modDie i f).pcap = m.pcap := rfl
@[simp] theorem Mach.modDie_pidle (m : Mach) (i : Nat) (f : Die → Die) : (m.modDie i f).pidle = m.pidle := rfl
@[simp] theorem Mach.modDie_pnow (m : Mach) (i : Nat) (f : Die → Die) : (m.modDie i f).pnow = m.pnow := rfl
@[simp] theorem Mach.modDie_gov (m : Mach) (i : Nat) (f : Die → Die) : (m.modDie i f).gov = m.gov := rfl
@[simp] theorem Mach.modDie_withheld (m : Mach) (i : Nat) (f : Die → Die) : (m.modDie i f).withheld = m.withheld := rfl
@[simp] theorem Mach.modDie_meas (m : Mach) (i : Nat) (f : Die → Die) : (m.modDie i f).meas = m.meas := rfl
@[simp] theorem Mach.modDie_manifest (m : Mach) (i : Nat) (f : Die → Die) : (m.modDie i f).manifest = m.manifest := rfl
@[simp] theorem Mach.modDie_facVer (m : Mach) (i : Nat) (f : Die → Die) : (m.modDie i f).facVer = m.facVer := rfl
@[simp] theorem Mach.modDie_ownVer (m : Mach) (i : Nat) (f : Die → Die) : (m.modDie i f).ownVer = m.ownVer := rfl
@[simp] theorem Mach.modDie_trdUp (m : Mach) (i : Nat) (f : Die → Die) : (m.modDie i f).trdUp = m.trdUp := rfl
@[simp] theorem Mach.modDie_stopped (m : Mach) (i : Nat) (f : Die → Die) : (m.modDie i f).stopped = m.stopped := rfl
@[simp] theorem Mach.modDie_agenda (m : Mach) (i : Nat) (f : Die → Die) : (m.modDie i f).agenda = m.agenda := rfl
@[simp] theorem Mach.modDie_miss (m : Mach) (i : Nat) (f : Die → Die) : (m.modDie i f).miss = m.miss := rfl
@[simp] theorem Mach.modDie_ev (m : Mach) (i : Nat) (f : Die → Die) : (m.modDie i f).ev = m.ev := rfl
@[simp] theorem Mach.modDie_seq (m : Mach) (i : Nat) (f : Die → Die) : (m.modDie i f).seq = m.seq := rfl
@[simp] theorem Mach.modDie_fresh (m : Mach) (i : Nat) (f : Die → Die) : (m.modDie i f).fresh = m.fresh := rfl
@[simp] theorem Mach.modDie_cur (m : Mach) (i : Nat) (f : Die → Die) : (m.modDie i f).cur = m.cur := rfl
@[simp] theorem Mach.modDie_curLen (m : Mach) (i : Nat) (f : Die → Die) : (m.modDie i f).curLen = m.curLen := rfl
@[simp] theorem Mach.modDie_kcur (m : Mach) (i : Nat) (f : Die → Die) : (m.modDie i f).kcur = m.kcur := rfl
@[simp] theorem Mach.modDie_kturn (m : Mach) (i : Nat) (f : Die → Die) : (m.modDie i f).kturn = m.kturn := rfl
@[simp] theorem Mach.modDie_clock (m : Mach) (i : Nat) (f : Die → Die) : (m.modDie i f).clock = m.clock := rfl
@[simp] theorem Mach.modDie_lform (m : Mach) (i : Nat) (f : Die → Die) : (m.modDie i f).lform = m.lform := rfl
@[simp] theorem Mach.modDie_out (m : Mach) (i : Nat) (f : Die → Die) : (m.modDie i f).out = m.out := rfl
/-! ### modRec -/
@[simp] theorem Mach.modRec_parts (m : Mach) (i : Nat) (f : Rec → Rec) : (m.modRec i f).parts = m.parts := rfl
@[simp] theorem Mach.modRec_ctxs (m : Mach) (i : Nat) (f : Rec → Rec) : (m.modRec i f).ctxs = m.ctxs := rfl
@[simp] theorem Mach.modRec_ccs (m : Mach) (i : Nat) (f : Rec → Rec) : (m.modRec i f).ccs = m.ccs := rfl
@[simp] theorem Mach.modRec_pcs (m : Mach) (i : Nat) (f : Rec → Rec) : (m.modRec i f).pcs = m.pcs := rfl
@[simp] theorem Mach.modRec_dies (m : Mach) (i : Nat) (f : Rec → Rec) : (m.modRec i f).dies = m.dies := rfl
@[simp] theorem Mach.modRec_jobs (m : Mach) (i : Nat) (f : Rec → Rec) : (m.modRec i f).jobs = m.jobs := rfl
@[simp] theorem Mach.modRec_streams (m : Mach) (i : Nat) (f : Rec → Rec) : (m.modRec i f).streams = m.streams := rfl
@[simp] theorem Mach.modRec_pend (m : Mach) (i : Nat) (f : Rec → Rec) : (m.modRec i f).pend = m.pend := rfl
@[simp] theorem Mach.modRec_atoms (m : Mach) (i : Nat) (f : Rec → Rec) : (m.modRec i f).atoms = m.atoms := rfl
@[simp] theorem Mach.modRec_copies (m : Mach) (i : Nat) (f : Rec → Rec) : (m.modRec i f).copies = m.copies := rfl
@[simp] theorem Mach.modRec_saves (m : Mach) (i : Nat) (f : Rec → Rec) : (m.modRec i f).saves = m.saves := rfl
@[simp] theorem Mach.modRec_phs (m : Mach) (i : Nat) (f : Rec → Rec) : (m.modRec i f).phs = m.phs := rfl
@[simp] theorem Mach.modRec_slices (m : Mach) (i : Nat) (f : Rec → Rec) : (m.modRec i f).slices = m.slices := rfl
@[simp] theorem Mach.modRec_invs (m : Mach) (i : Nat) (f : Rec → Rec) : (m.modRec i f).invs = m.invs := rfl
@[simp] theorem Mach.modRec_publs (m : Mach) (i : Nat) (f : Rec → Rec) : (m.modRec i f).publs = m.publs := rfl
@[simp] theorem Mach.modRec_kcores (m : Mach) (i : Nat) (f : Rec → Rec) : (m.modRec i f).kcores = m.kcores := rfl
@[simp] theorem Mach.modRec_sram (m : Mach) (i : Nat) (f : Rec → Rec) : (m.modRec i f).sram = m.sram := rfl
@[simp] theorem Mach.modRec_homes (m : Mach) (i : Nat) (f : Rec → Rec) : (m.modRec i f).homes = m.homes := rfl
@[simp] theorem Mach.modRec_replies (m : Mach) (i : Nat) (f : Rec → Rec) : (m.modRec i f).replies = m.replies := rfl
@[simp] theorem Mach.modRec_newest (m : Mach) (i : Nat) (f : Rec → Rec) : (m.modRec i f).newest = m.newest := rfl
@[simp] theorem Mach.modRec_spoiled (m : Mach) (i : Nat) (f : Rec → Rec) : (m.modRec i f).spoiled = m.spoiled := rfl
@[simp] theorem Mach.modRec_engines (m : Mach) (i : Nat) (f : Rec → Rec) : (m.modRec i f).engines = m.engines := rfl
@[simp] theorem Mach.modRec_units (m : Mach) (i : Nat) (f : Rec → Rec) : (m.modRec i f).units = m.units := rfl
@[simp] theorem Mach.modRec_lanes (m : Mach) (i : Nat) (f : Rec → Rec) : (m.modRec i f).lanes = m.lanes := rfl
@[simp] theorem Mach.modRec_moves (m : Mach) (i : Nat) (f : Rec → Rec) : (m.modRec i f).moves = m.moves := rfl
@[simp] theorem Mach.modRec_hostWidth (m : Mach) (i : Nat) (f : Rec → Rec) : (m.modRec i f).hostWidth = m.hostWidth := rfl
@[simp] theorem Mach.modRec_pcap (m : Mach) (i : Nat) (f : Rec → Rec) : (m.modRec i f).pcap = m.pcap := rfl
@[simp] theorem Mach.modRec_pidle (m : Mach) (i : Nat) (f : Rec → Rec) : (m.modRec i f).pidle = m.pidle := rfl
@[simp] theorem Mach.modRec_pnow (m : Mach) (i : Nat) (f : Rec → Rec) : (m.modRec i f).pnow = m.pnow := rfl
@[simp] theorem Mach.modRec_gov (m : Mach) (i : Nat) (f : Rec → Rec) : (m.modRec i f).gov = m.gov := rfl
@[simp] theorem Mach.modRec_withheld (m : Mach) (i : Nat) (f : Rec → Rec) : (m.modRec i f).withheld = m.withheld := rfl
@[simp] theorem Mach.modRec_meas (m : Mach) (i : Nat) (f : Rec → Rec) : (m.modRec i f).meas = m.meas := rfl
@[simp] theorem Mach.modRec_manifest (m : Mach) (i : Nat) (f : Rec → Rec) : (m.modRec i f).manifest = m.manifest := rfl
@[simp] theorem Mach.modRec_facVer (m : Mach) (i : Nat) (f : Rec → Rec) : (m.modRec i f).facVer = m.facVer := rfl
@[simp] theorem Mach.modRec_ownVer (m : Mach) (i : Nat) (f : Rec → Rec) : (m.modRec i f).ownVer = m.ownVer := rfl
@[simp] theorem Mach.modRec_trdUp (m : Mach) (i : Nat) (f : Rec → Rec) : (m.modRec i f).trdUp = m.trdUp := rfl
@[simp] theorem Mach.modRec_stopped (m : Mach) (i : Nat) (f : Rec → Rec) : (m.modRec i f).stopped = m.stopped := rfl
@[simp] theorem Mach.modRec_agenda (m : Mach) (i : Nat) (f : Rec → Rec) : (m.modRec i f).agenda = m.agenda := rfl
@[simp] theorem Mach.modRec_miss (m : Mach) (i : Nat) (f : Rec → Rec) : (m.modRec i f).miss = m.miss := rfl
@[simp] theorem Mach.modRec_ev (m : Mach) (i : Nat) (f : Rec → Rec) : (m.modRec i f).ev = m.ev := rfl
@[simp] theorem Mach.modRec_seq (m : Mach) (i : Nat) (f : Rec → Rec) : (m.modRec i f).seq = m.seq := rfl
@[simp] theorem Mach.modRec_fresh (m : Mach) (i : Nat) (f : Rec → Rec) : (m.modRec i f).fresh = m.fresh := rfl
@[simp] theorem Mach.modRec_cur (m : Mach) (i : Nat) (f : Rec → Rec) : (m.modRec i f).cur = m.cur := rfl
@[simp] theorem Mach.modRec_curLen (m : Mach) (i : Nat) (f : Rec → Rec) : (m.modRec i f).curLen = m.curLen := rfl
@[simp] theorem Mach.modRec_kcur (m : Mach) (i : Nat) (f : Rec → Rec) : (m.modRec i f).kcur = m.kcur := rfl
@[simp] theorem Mach.modRec_kturn (m : Mach) (i : Nat) (f : Rec → Rec) : (m.modRec i f).kturn = m.kturn := rfl
@[simp] theorem Mach.modRec_clock (m : Mach) (i : Nat) (f : Rec → Rec) : (m.modRec i f).clock = m.clock := rfl
@[simp] theorem Mach.modRec_lform (m : Mach) (i : Nat) (f : Rec → Rec) : (m.modRec i f).lform = m.lform := rfl
@[simp] theorem Mach.modRec_out (m : Mach) (i : Nat) (f : Rec → Rec) : (m.modRec i f).out = m.out := rfl
/-! ### at -/
@[simp] theorem Mach.at_parts (m : Mach) (t : Nat) (e : Instr) (a : List Nat) : (m.at t e a).parts = m.parts := rfl
@[simp] theorem Mach.at_ctxs (m : Mach) (t : Nat) (e : Instr) (a : List Nat) : (m.at t e a).ctxs = m.ctxs := rfl
@[simp] theorem Mach.at_ccs (m : Mach) (t : Nat) (e : Instr) (a : List Nat) : (m.at t e a).ccs = m.ccs := rfl
@[simp] theorem Mach.at_pcs (m : Mach) (t : Nat) (e : Instr) (a : List Nat) : (m.at t e a).pcs = m.pcs := rfl
@[simp] theorem Mach.at_dies (m : Mach) (t : Nat) (e : Instr) (a : List Nat) : (m.at t e a).dies = m.dies := rfl
@[simp] theorem Mach.at_jobs (m : Mach) (t : Nat) (e : Instr) (a : List Nat) : (m.at t e a).jobs = m.jobs := rfl
@[simp] theorem Mach.at_streams (m : Mach) (t : Nat) (e : Instr) (a : List Nat) : (m.at t e a).streams = m.streams := rfl
@[simp] theorem Mach.at_pend (m : Mach) (t : Nat) (e : Instr) (a : List Nat) : (m.at t e a).pend = m.pend := rfl
@[simp] theorem Mach.at_atoms (m : Mach) (t : Nat) (e : Instr) (a : List Nat) : (m.at t e a).atoms = m.atoms := rfl
@[simp] theorem Mach.at_copies (m : Mach) (t : Nat) (e : Instr) (a : List Nat) : (m.at t e a).copies = m.copies := rfl
@[simp] theorem Mach.at_recs (m : Mach) (t : Nat) (e : Instr) (a : List Nat) : (m.at t e a).recs = m.recs := rfl
@[simp] theorem Mach.at_saves (m : Mach) (t : Nat) (e : Instr) (a : List Nat) : (m.at t e a).saves = m.saves := rfl
@[simp] theorem Mach.at_phs (m : Mach) (t : Nat) (e : Instr) (a : List Nat) : (m.at t e a).phs = m.phs := rfl
@[simp] theorem Mach.at_slices (m : Mach) (t : Nat) (e : Instr) (a : List Nat) : (m.at t e a).slices = m.slices := rfl
@[simp] theorem Mach.at_invs (m : Mach) (t : Nat) (e : Instr) (a : List Nat) : (m.at t e a).invs = m.invs := rfl
@[simp] theorem Mach.at_publs (m : Mach) (t : Nat) (e : Instr) (a : List Nat) : (m.at t e a).publs = m.publs := rfl
@[simp] theorem Mach.at_kcores (m : Mach) (t : Nat) (e : Instr) (a : List Nat) : (m.at t e a).kcores = m.kcores := rfl
@[simp] theorem Mach.at_sram (m : Mach) (t : Nat) (e : Instr) (a : List Nat) : (m.at t e a).sram = m.sram := rfl
@[simp] theorem Mach.at_homes (m : Mach) (t : Nat) (e : Instr) (a : List Nat) : (m.at t e a).homes = m.homes := rfl
@[simp] theorem Mach.at_replies (m : Mach) (t : Nat) (e : Instr) (a : List Nat) : (m.at t e a).replies = m.replies := rfl
@[simp] theorem Mach.at_newest (m : Mach) (t : Nat) (e : Instr) (a : List Nat) : (m.at t e a).newest = m.newest := rfl
@[simp] theorem Mach.at_spoiled (m : Mach) (t : Nat) (e : Instr) (a : List Nat) : (m.at t e a).spoiled = m.spoiled := rfl
@[simp] theorem Mach.at_engines (m : Mach) (t : Nat) (e : Instr) (a : List Nat) : (m.at t e a).engines = m.engines := rfl
@[simp] theorem Mach.at_units (m : Mach) (t : Nat) (e : Instr) (a : List Nat) : (m.at t e a).units = m.units := rfl
@[simp] theorem Mach.at_lanes (m : Mach) (t : Nat) (e : Instr) (a : List Nat) : (m.at t e a).lanes = m.lanes := rfl
@[simp] theorem Mach.at_moves (m : Mach) (t : Nat) (e : Instr) (a : List Nat) : (m.at t e a).moves = m.moves := rfl
@[simp] theorem Mach.at_hostWidth (m : Mach) (t : Nat) (e : Instr) (a : List Nat) : (m.at t e a).hostWidth = m.hostWidth := rfl
@[simp] theorem Mach.at_pcap (m : Mach) (t : Nat) (e : Instr) (a : List Nat) : (m.at t e a).pcap = m.pcap := rfl
@[simp] theorem Mach.at_pidle (m : Mach) (t : Nat) (e : Instr) (a : List Nat) : (m.at t e a).pidle = m.pidle := rfl
@[simp] theorem Mach.at_pnow (m : Mach) (t : Nat) (e : Instr) (a : List Nat) : (m.at t e a).pnow = m.pnow := rfl
@[simp] theorem Mach.at_gov (m : Mach) (t : Nat) (e : Instr) (a : List Nat) : (m.at t e a).gov = m.gov := rfl
@[simp] theorem Mach.at_withheld (m : Mach) (t : Nat) (e : Instr) (a : List Nat) : (m.at t e a).withheld = m.withheld := rfl
@[simp] theorem Mach.at_meas (m : Mach) (t : Nat) (e : Instr) (a : List Nat) : (m.at t e a).meas = m.meas := rfl
@[simp] theorem Mach.at_manifest (m : Mach) (t : Nat) (e : Instr) (a : List Nat) : (m.at t e a).manifest = m.manifest := rfl
@[simp] theorem Mach.at_facVer (m : Mach) (t : Nat) (e : Instr) (a : List Nat) : (m.at t e a).facVer = m.facVer := rfl
@[simp] theorem Mach.at_ownVer (m : Mach) (t : Nat) (e : Instr) (a : List Nat) : (m.at t e a).ownVer = m.ownVer := rfl
@[simp] theorem Mach.at_trdUp (m : Mach) (t : Nat) (e : Instr) (a : List Nat) : (m.at t e a).trdUp = m.trdUp := rfl
@[simp] theorem Mach.at_stopped (m : Mach) (t : Nat) (e : Instr) (a : List Nat) : (m.at t e a).stopped = m.stopped := rfl
@[simp] theorem Mach.at_miss (m : Mach) (t : Nat) (e : Instr) (a : List Nat) : (m.at t e a).miss = m.miss := rfl
@[simp] theorem Mach.at_ev (m : Mach) (t : Nat) (e : Instr) (a : List Nat) : (m.at t e a).ev = m.ev := rfl
@[simp] theorem Mach.at_seq (m : Mach) (t : Nat) (e : Instr) (a : List Nat) : (m.at t e a).seq = m.seq := rfl
@[simp] theorem Mach.at_fresh (m : Mach) (t : Nat) (e : Instr) (a : List Nat) : (m.at t e a).fresh = m.fresh := rfl
@[simp] theorem Mach.at_cur (m : Mach) (t : Nat) (e : Instr) (a : List Nat) : (m.at t e a).cur = m.cur := rfl
@[simp] theorem Mach.at_curLen (m : Mach) (t : Nat) (e : Instr) (a : List Nat) : (m.at t e a).curLen = m.curLen := rfl
@[simp] theorem Mach.at_kcur (m : Mach) (t : Nat) (e : Instr) (a : List Nat) : (m.at t e a).kcur = m.kcur := rfl
@[simp] theorem Mach.at_kturn (m : Mach) (t : Nat) (e : Instr) (a : List Nat) : (m.at t e a).kturn = m.kturn := rfl
@[simp] theorem Mach.at_clock (m : Mach) (t : Nat) (e : Instr) (a : List Nat) : (m.at t e a).clock = m.clock := rfl
@[simp] theorem Mach.at_lform (m : Mach) (t : Nat) (e : Instr) (a : List Nat) : (m.at t e a).lform = m.lform := rfl
@[simp] theorem Mach.at_out (m : Mach) (t : Nat) (e : Instr) (a : List Nat) : (m.at t e a).out = m.out := rfl
/-! ### emit -/
@[simp] theorem Mach.emit_parts (m : Mach) (o : Out) : (m.emit o).parts = m.parts := rfl
@[simp] theorem Mach.emit_ctxs (m : Mach) (o : Out) : (m.emit o).ctxs = m.ctxs := rfl
@[simp] theorem Mach.emit_ccs (m : Mach) (o : Out) : (m.emit o).ccs = m.ccs := rfl
@[simp] theorem Mach.emit_pcs (m : Mach) (o : Out) : (m.emit o).pcs = m.pcs := rfl
@[simp] theorem Mach.emit_dies (m : Mach) (o : Out) : (m.emit o).dies = m.dies := rfl
@[simp] theorem Mach.emit_jobs (m : Mach) (o : Out) : (m.emit o).jobs = m.jobs := rfl
@[simp] theorem Mach.emit_streams (m : Mach) (o : Out) : (m.emit o).streams = m.streams := rfl
@[simp] theorem Mach.emit_pend (m : Mach) (o : Out) : (m.emit o).pend = m.pend := rfl
@[simp] theorem Mach.emit_atoms (m : Mach) (o : Out) : (m.emit o).atoms = m.atoms := rfl
@[simp] theorem Mach.emit_copies (m : Mach) (o : Out) : (m.emit o).copies = m.copies := rfl
@[simp] theorem Mach.emit_recs (m : Mach) (o : Out) : (m.emit o).recs = m.recs := rfl
@[simp] theorem Mach.emit_saves (m : Mach) (o : Out) : (m.emit o).saves = m.saves := rfl
@[simp] theorem Mach.emit_phs (m : Mach) (o : Out) : (m.emit o).phs = m.phs := rfl
@[simp] theorem Mach.emit_slices (m : Mach) (o : Out) : (m.emit o).slices = m.slices := rfl
@[simp] theorem Mach.emit_invs (m : Mach) (o : Out) : (m.emit o).invs = m.invs := rfl
@[simp] theorem Mach.emit_publs (m : Mach) (o : Out) : (m.emit o).publs = m.publs := rfl
@[simp] theorem Mach.emit_kcores (m : Mach) (o : Out) : (m.emit o).kcores = m.kcores := rfl
@[simp] theorem Mach.emit_sram (m : Mach) (o : Out) : (m.emit o).sram = m.sram := rfl
@[simp] theorem Mach.emit_homes (m : Mach) (o : Out) : (m.emit o).homes = m.homes := rfl
@[simp] theorem Mach.emit_replies (m : Mach) (o : Out) : (m.emit o).replies = m.replies := rfl
@[simp] theorem Mach.emit_newest (m : Mach) (o : Out) : (m.emit o).newest = m.newest := rfl
@[simp] theorem Mach.emit_spoiled (m : Mach) (o : Out) : (m.emit o).spoiled = m.spoiled := rfl
@[simp] theorem Mach.emit_engines (m : Mach) (o : Out) : (m.emit o).engines = m.engines := rfl
@[simp] theorem Mach.emit_units (m : Mach) (o : Out) : (m.emit o).units = m.units := rfl
@[simp] theorem Mach.emit_lanes (m : Mach) (o : Out) : (m.emit o).lanes = m.lanes := rfl
@[simp] theorem Mach.emit_moves (m : Mach) (o : Out) : (m.emit o).moves = m.moves := rfl
@[simp] theorem Mach.emit_hostWidth (m : Mach) (o : Out) : (m.emit o).hostWidth = m.hostWidth := rfl
@[simp] theorem Mach.emit_pcap (m : Mach) (o : Out) : (m.emit o).pcap = m.pcap := rfl
@[simp] theorem Mach.emit_pidle (m : Mach) (o : Out) : (m.emit o).pidle = m.pidle := rfl
@[simp] theorem Mach.emit_pnow (m : Mach) (o : Out) : (m.emit o).pnow = m.pnow := rfl
@[simp] theorem Mach.emit_gov (m : Mach) (o : Out) : (m.emit o).gov = m.gov := rfl
@[simp] theorem Mach.emit_withheld (m : Mach) (o : Out) : (m.emit o).withheld = m.withheld := rfl
@[simp] theorem Mach.emit_meas (m : Mach) (o : Out) : (m.emit o).meas = m.meas := rfl
@[simp] theorem Mach.emit_manifest (m : Mach) (o : Out) : (m.emit o).manifest = m.manifest := rfl
@[simp] theorem Mach.emit_facVer (m : Mach) (o : Out) : (m.emit o).facVer = m.facVer := rfl
@[simp] theorem Mach.emit_ownVer (m : Mach) (o : Out) : (m.emit o).ownVer = m.ownVer := rfl
@[simp] theorem Mach.emit_trdUp (m : Mach) (o : Out) : (m.emit o).trdUp = m.trdUp := rfl
@[simp] theorem Mach.emit_stopped (m : Mach) (o : Out) : (m.emit o).stopped = m.stopped := rfl
@[simp] theorem Mach.emit_agenda (m : Mach) (o : Out) : (m.emit o).agenda = m.agenda := rfl
@[simp] theorem Mach.emit_miss (m : Mach) (o : Out) : (m.emit o).miss = m.miss := rfl
@[simp] theorem Mach.emit_ev (m : Mach) (o : Out) : (m.emit o).ev = m.ev := rfl
@[simp] theorem Mach.emit_seq (m : Mach) (o : Out) : (m.emit o).seq = m.seq := rfl
@[simp] theorem Mach.emit_fresh (m : Mach) (o : Out) : (m.emit o).fresh = m.fresh := rfl
@[simp] theorem Mach.emit_cur (m : Mach) (o : Out) : (m.emit o).cur = m.cur := rfl
@[simp] theorem Mach.emit_curLen (m : Mach) (o : Out) : (m.emit o).curLen = m.curLen := rfl
@[simp] theorem Mach.emit_kcur (m : Mach) (o : Out) : (m.emit o).kcur = m.kcur := rfl
@[simp] theorem Mach.emit_kturn (m : Mach) (o : Out) : (m.emit o).kturn = m.kturn := rfl
@[simp] theorem Mach.emit_clock (m : Mach) (o : Out) : (m.emit o).clock = m.clock := rfl
@[simp] theorem Mach.emit_lform (m : Mach) (o : Out) : (m.emit o).lform = m.lform := rfl
/-! ### after -/
@[simp] theorem Mach.after_parts (m : Mach) (now b : Nat) (e : Instr) (a : List Nat) : (m.after now b e a).parts = m.parts := rfl
@[simp] theorem Mach.after_ctxs (m : Mach) (now b : Nat) (e : Instr) (a : List Nat) : (m.after now b e a).ctxs = m.ctxs := rfl
@[simp] theorem Mach.after_ccs (m : Mach) (now b : Nat) (e : Instr) (a : List Nat) : (m.after now b e a).ccs = m.ccs := rfl
@[simp] theorem Mach.after_pcs (m : Mach) (now b : Nat) (e : Instr) (a : List Nat) : (m.after now b e a).pcs = m.pcs := rfl
@[simp] theorem Mach.after_dies (m : Mach) (now b : Nat) (e : Instr) (a : List Nat) : (m.after now b e a).dies = m.dies := rfl
@[simp] theorem Mach.after_jobs (m : Mach) (now b : Nat) (e : Instr) (a : List Nat) : (m.after now b e a).jobs = m.jobs := rfl
@[simp] theorem Mach.after_streams (m : Mach) (now b : Nat) (e : Instr) (a : List Nat) : (m.after now b e a).streams = m.streams := rfl
@[simp] theorem Mach.after_pend (m : Mach) (now b : Nat) (e : Instr) (a : List Nat) : (m.after now b e a).pend = m.pend := rfl
@[simp] theorem Mach.after_atoms (m : Mach) (now b : Nat) (e : Instr) (a : List Nat) : (m.after now b e a).atoms = m.atoms := rfl
@[simp] theorem Mach.after_copies (m : Mach) (now b : Nat) (e : Instr) (a : List Nat) : (m.after now b e a).copies = m.copies := rfl
@[simp] theorem Mach.after_recs (m : Mach) (now b : Nat) (e : Instr) (a : List Nat) : (m.after now b e a).recs = m.recs := rfl
@[simp] theorem Mach.after_saves (m : Mach) (now b : Nat) (e : Instr) (a : List Nat) : (m.after now b e a).saves = m.saves := rfl
@[simp] theorem Mach.after_phs (m : Mach) (now b : Nat) (e : Instr) (a : List Nat) : (m.after now b e a).phs = m.phs := rfl
@[simp] theorem Mach.after_slices (m : Mach) (now b : Nat) (e : Instr) (a : List Nat) : (m.after now b e a).slices = m.slices := rfl
@[simp] theorem Mach.after_invs (m : Mach) (now b : Nat) (e : Instr) (a : List Nat) : (m.after now b e a).invs = m.invs := rfl
@[simp] theorem Mach.after_publs (m : Mach) (now b : Nat) (e : Instr) (a : List Nat) : (m.after now b e a).publs = m.publs := rfl
@[simp] theorem Mach.after_kcores (m : Mach) (now b : Nat) (e : Instr) (a : List Nat) : (m.after now b e a).kcores = m.kcores := rfl
@[simp] theorem Mach.after_sram (m : Mach) (now b : Nat) (e : Instr) (a : List Nat) : (m.after now b e a).sram = m.sram := rfl
@[simp] theorem Mach.after_homes (m : Mach) (now b : Nat) (e : Instr) (a : List Nat) : (m.after now b e a).homes = m.homes := rfl
@[simp] theorem Mach.after_replies (m : Mach) (now b : Nat) (e : Instr) (a : List Nat) : (m.after now b e a).replies = m.replies := rfl
@[simp] theorem Mach.after_newest (m : Mach) (now b : Nat) (e : Instr) (a : List Nat) : (m.after now b e a).newest = m.newest := rfl
@[simp] theorem Mach.after_spoiled (m : Mach) (now b : Nat) (e : Instr) (a : List Nat) : (m.after now b e a).spoiled = m.spoiled := rfl
@[simp] theorem Mach.after_engines (m : Mach) (now b : Nat) (e : Instr) (a : List Nat) : (m.after now b e a).engines = m.engines := rfl
@[simp] theorem Mach.after_units (m : Mach) (now b : Nat) (e : Instr) (a : List Nat) : (m.after now b e a).units = m.units := rfl
@[simp] theorem Mach.after_lanes (m : Mach) (now b : Nat) (e : Instr) (a : List Nat) : (m.after now b e a).lanes = m.lanes := rfl
@[simp] theorem Mach.after_moves (m : Mach) (now b : Nat) (e : Instr) (a : List Nat) : (m.after now b e a).moves = m.moves := rfl
@[simp] theorem Mach.after_hostWidth (m : Mach) (now b : Nat) (e : Instr) (a : List Nat) : (m.after now b e a).hostWidth = m.hostWidth := rfl
@[simp] theorem Mach.after_pcap (m : Mach) (now b : Nat) (e : Instr) (a : List Nat) : (m.after now b e a).pcap = m.pcap := rfl
@[simp] theorem Mach.after_pidle (m : Mach) (now b : Nat) (e : Instr) (a : List Nat) : (m.after now b e a).pidle = m.pidle := rfl
@[simp] theorem Mach.after_pnow (m : Mach) (now b : Nat) (e : Instr) (a : List Nat) : (m.after now b e a).pnow = m.pnow := rfl
@[simp] theorem Mach.after_gov (m : Mach) (now b : Nat) (e : Instr) (a : List Nat) : (m.after now b e a).gov = m.gov := rfl
@[simp] theorem Mach.after_withheld (m : Mach) (now b : Nat) (e : Instr) (a : List Nat) : (m.after now b e a).withheld = m.withheld := rfl
@[simp] theorem Mach.after_meas (m : Mach) (now b : Nat) (e : Instr) (a : List Nat) : (m.after now b e a).meas = m.meas := rfl
@[simp] theorem Mach.after_manifest (m : Mach) (now b : Nat) (e : Instr) (a : List Nat) : (m.after now b e a).manifest = m.manifest := rfl
@[simp] theorem Mach.after_facVer (m : Mach) (now b : Nat) (e : Instr) (a : List Nat) : (m.after now b e a).facVer = m.facVer := rfl
@[simp] theorem Mach.after_ownVer (m : Mach) (now b : Nat) (e : Instr) (a : List Nat) : (m.after now b e a).ownVer = m.ownVer := rfl
@[simp] theorem Mach.after_trdUp (m : Mach) (now b : Nat) (e : Instr) (a : List Nat) : (m.after now b e a).trdUp = m.trdUp := rfl
@[simp] theorem Mach.after_stopped (m : Mach) (now b : Nat) (e : Instr) (a : List Nat) : (m.after now b e a).stopped = m.stopped := rfl
@[simp] theorem Mach.after_miss (m : Mach) (now b : Nat) (e : Instr) (a : List Nat) : (m.after now b e a).miss = m.miss := rfl
@[simp] theorem Mach.after_ev (m : Mach) (now b : Nat) (e : Instr) (a : List Nat) : (m.after now b e a).ev = m.ev := rfl
@[simp] theorem Mach.after_seq (m : Mach) (now b : Nat) (e : Instr) (a : List Nat) : (m.after now b e a).seq = m.seq := rfl
@[simp] theorem Mach.after_cur (m : Mach) (now b : Nat) (e : Instr) (a : List Nat) : (m.after now b e a).cur = m.cur := rfl
@[simp] theorem Mach.after_curLen (m : Mach) (now b : Nat) (e : Instr) (a : List Nat) : (m.after now b e a).curLen = m.curLen := rfl
@[simp] theorem Mach.after_kcur (m : Mach) (now b : Nat) (e : Instr) (a : List Nat) : (m.after now b e a).kcur = m.kcur := rfl
@[simp] theorem Mach.after_kturn (m : Mach) (now b : Nat) (e : Instr) (a : List Nat) : (m.after now b e a).kturn = m.kturn := rfl
@[simp] theorem Mach.after_clock (m : Mach) (now b : Nat) (e : Instr) (a : List Nat) : (m.after now b e a).clock = m.clock := rfl
@[simp] theorem Mach.after_lform (m : Mach) (now b : Nat) (e : Instr) (a : List Nat) : (m.after now b e a).lform = m.lform := rfl
@[simp] theorem Mach.after_out (m : Mach) (now b : Nat) (e : Instr) (a : List Nat) : (m.after now b e a).out = m.out := rfl
/-! ### chargeAt -/
@[simp] theorem Mach.chargeAt_parts (m : Mach) (cc k u : Nat) : (m.chargeAt cc k u).parts = m.parts := rfl
@[simp] theorem Mach.chargeAt_ctxs (m : Mach) (cc k u : Nat) : (m.chargeAt cc k u).ctxs = m.ctxs := rfl
@[simp] theorem Mach.chargeAt_pcs (m : Mach) (cc k u : Nat) : (m.chargeAt cc k u).pcs = m.pcs := rfl
@[simp] theorem Mach.chargeAt_dies (m : Mach) (cc k u : Nat) : (m.chargeAt cc k u).dies = m.dies := rfl
@[simp] theorem Mach.chargeAt_jobs (m : Mach) (cc k u : Nat) : (m.chargeAt cc k u).jobs = m.jobs := rfl
@[simp] theorem Mach.chargeAt_streams (m : Mach) (cc k u : Nat) : (m.chargeAt cc k u).streams = m.streams := rfl
@[simp] theorem Mach.chargeAt_pend (m : Mach) (cc k u : Nat) : (m.chargeAt cc k u).pend = m.pend := rfl
@[simp] theorem Mach.chargeAt_atoms (m : Mach) (cc k u : Nat) : (m.chargeAt cc k u).atoms = m.atoms := rfl
@[simp] theorem Mach.chargeAt_copies (m : Mach) (cc k u : Nat) : (m.chargeAt cc k u).copies = m.copies := rfl
@[simp] theorem Mach.chargeAt_recs (m : Mach) (cc k u : Nat) : (m.chargeAt cc k u).recs = m.recs := rfl
@[simp] theorem Mach.chargeAt_saves (m : Mach) (cc k u : Nat) : (m.chargeAt cc k u).saves = m.saves := rfl
@[simp] theorem Mach.chargeAt_phs (m : Mach) (cc k u : Nat) : (m.chargeAt cc k u).phs = m.phs := rfl
@[simp] theorem Mach.chargeAt_slices (m : Mach) (cc k u : Nat) : (m.chargeAt cc k u).slices = m.slices := rfl
@[simp] theorem Mach.chargeAt_invs (m : Mach) (cc k u : Nat) : (m.chargeAt cc k u).invs = m.invs := rfl
@[simp] theorem Mach.chargeAt_publs (m : Mach) (cc k u : Nat) : (m.chargeAt cc k u).publs = m.publs := rfl
@[simp] theorem Mach.chargeAt_kcores (m : Mach) (cc k u : Nat) : (m.chargeAt cc k u).kcores = m.kcores := rfl
@[simp] theorem Mach.chargeAt_sram (m : Mach) (cc k u : Nat) : (m.chargeAt cc k u).sram = m.sram := rfl
@[simp] theorem Mach.chargeAt_homes (m : Mach) (cc k u : Nat) : (m.chargeAt cc k u).homes = m.homes := rfl
@[simp] theorem Mach.chargeAt_replies (m : Mach) (cc k u : Nat) : (m.chargeAt cc k u).replies = m.replies := rfl
@[simp] theorem Mach.chargeAt_newest (m : Mach) (cc k u : Nat) : (m.chargeAt cc k u).newest = m.newest := rfl
@[simp] theorem Mach.chargeAt_spoiled (m : Mach) (cc k u : Nat) : (m.chargeAt cc k u).spoiled = m.spoiled := rfl
@[simp] theorem Mach.chargeAt_engines (m : Mach) (cc k u : Nat) : (m.chargeAt cc k u).engines = m.engines := rfl
@[simp] theorem Mach.chargeAt_units (m : Mach) (cc k u : Nat) : (m.chargeAt cc k u).units = m.units := rfl
@[simp] theorem Mach.chargeAt_lanes (m : Mach) (cc k u : Nat) : (m.chargeAt cc k u).lanes = m.lanes := rfl
@[simp] theorem Mach.chargeAt_moves (m : Mach) (cc k u : Nat) : (m.chargeAt cc k u).moves = m.moves := rfl
@[simp] theorem Mach.chargeAt_hostWidth (m : Mach) (cc k u : Nat) : (m.chargeAt cc k u).hostWidth = m.hostWidth := rfl
@[simp] theorem Mach.chargeAt_pcap (m : Mach) (cc k u : Nat) : (m.chargeAt cc k u).pcap = m.pcap := rfl
@[simp] theorem Mach.chargeAt_pidle (m : Mach) (cc k u : Nat) : (m.chargeAt cc k u).pidle = m.pidle := rfl
@[simp] theorem Mach.chargeAt_pnow (m : Mach) (cc k u : Nat) : (m.chargeAt cc k u).pnow = m.pnow := rfl
@[simp] theorem Mach.chargeAt_gov (m : Mach) (cc k u : Nat) : (m.chargeAt cc k u).gov = m.gov := rfl
@[simp] theorem Mach.chargeAt_withheld (m : Mach) (cc k u : Nat) : (m.chargeAt cc k u).withheld = m.withheld := rfl
@[simp] theorem Mach.chargeAt_meas (m : Mach) (cc k u : Nat) : (m.chargeAt cc k u).meas = m.meas := rfl
@[simp] theorem Mach.chargeAt_manifest (m : Mach) (cc k u : Nat) : (m.chargeAt cc k u).manifest = m.manifest := rfl
@[simp] theorem Mach.chargeAt_facVer (m : Mach) (cc k u : Nat) : (m.chargeAt cc k u).facVer = m.facVer := rfl
@[simp] theorem Mach.chargeAt_ownVer (m : Mach) (cc k u : Nat) : (m.chargeAt cc k u).ownVer = m.ownVer := rfl
@[simp] theorem Mach.chargeAt_trdUp (m : Mach) (cc k u : Nat) : (m.chargeAt cc k u).trdUp = m.trdUp := rfl
@[simp] theorem Mach.chargeAt_stopped (m : Mach) (cc k u : Nat) : (m.chargeAt cc k u).stopped = m.stopped := rfl
@[simp] theorem Mach.chargeAt_agenda (m : Mach) (cc k u : Nat) : (m.chargeAt cc k u).agenda = m.agenda := rfl
@[simp] theorem Mach.chargeAt_miss (m : Mach) (cc k u : Nat) : (m.chargeAt cc k u).miss = m.miss := rfl
@[simp] theorem Mach.chargeAt_ev (m : Mach) (cc k u : Nat) : (m.chargeAt cc k u).ev = m.ev := rfl
@[simp] theorem Mach.chargeAt_seq (m : Mach) (cc k u : Nat) : (m.chargeAt cc k u).seq = m.seq := rfl
@[simp] theorem Mach.chargeAt_fresh (m : Mach) (cc k u : Nat) : (m.chargeAt cc k u).fresh = m.fresh := rfl
@[simp] theorem Mach.chargeAt_cur (m : Mach) (cc k u : Nat) : (m.chargeAt cc k u).cur = m.cur := rfl
@[simp] theorem Mach.chargeAt_curLen (m : Mach) (cc k u : Nat) : (m.chargeAt cc k u).curLen = m.curLen := rfl
@[simp] theorem Mach.chargeAt_kcur (m : Mach) (cc k u : Nat) : (m.chargeAt cc k u).kcur = m.kcur := rfl
@[simp] theorem Mach.chargeAt_kturn (m : Mach) (cc k u : Nat) : (m.chargeAt cc k u).kturn = m.kturn := rfl
@[simp] theorem Mach.chargeAt_clock (m : Mach) (cc k u : Nat) : (m.chargeAt cc k u).clock = m.clock := rfl
@[simp] theorem Mach.chargeAt_lform (m : Mach) (cc k u : Nat) : (m.chargeAt cc k u).lform = m.lform := rfl
@[simp] theorem Mach.chargeAt_out (m : Mach) (cc k u : Nat) : (m.chargeAt cc k u).out = m.out := rfl
/-! ### chargeRegion -/
@[simp] theorem Mach.chargeRegion_parts (m : Mach) (cx r n : Nat) : (m.chargeRegion cx r n).parts = m.parts := rfl
@[simp] theorem Mach.chargeRegion_ccs (m : Mach) (cx r n : Nat) : (m.chargeRegion cx r n).ccs = m.ccs := rfl
@[simp] theorem Mach.chargeRegion_pcs (m : Mach) (cx r n : Nat) : (m.chargeRegion cx r n).pcs = m.pcs := rfl
@[simp] theorem Mach.chargeRegion_dies (m : Mach) (cx r n : Nat) : (m.chargeRegion cx r n).dies = m.dies := rfl
@[simp] theorem Mach.chargeRegion_jobs (m : Mach) (cx r n : Nat) : (m.chargeRegion cx r n).jobs = m.jobs := rfl
@[simp] theorem Mach.chargeRegion_streams (m : Mach) (cx r n : Nat) : (m.chargeRegion cx r n).streams = m.streams := rfl
@[simp] theorem Mach.chargeRegion_pend (m : Mach) (cx r n : Nat) : (m.chargeRegion cx r n).pend = m.pend := rfl
@[simp] theorem Mach.chargeRegion_atoms (m : Mach) (cx r n : Nat) : (m.chargeRegion cx r n).atoms = m.atoms := rfl
@[simp] theorem Mach.chargeRegion_copies (m : Mach) (cx r n : Nat) : (m.chargeRegion cx r n).copies = m.copies := rfl
@[simp] theorem Mach.chargeRegion_recs (m : Mach) (cx r n : Nat) : (m.chargeRegion cx r n).recs = m.recs := rfl
@[simp] theorem Mach.chargeRegion_saves (m : Mach) (cx r n : Nat) : (m.chargeRegion cx r n).saves = m.saves := rfl
@[simp] theorem Mach.chargeRegion_phs (m : Mach) (cx r n : Nat) : (m.chargeRegion cx r n).phs = m.phs := rfl
@[simp] theorem Mach.chargeRegion_slices (m : Mach) (cx r n : Nat) : (m.chargeRegion cx r n).slices = m.slices := rfl
@[simp] theorem Mach.chargeRegion_invs (m : Mach) (cx r n : Nat) : (m.chargeRegion cx r n).invs = m.invs := rfl
@[simp] theorem Mach.chargeRegion_publs (m : Mach) (cx r n : Nat) : (m.chargeRegion cx r n).publs = m.publs := rfl
@[simp] theorem Mach.chargeRegion_kcores (m : Mach) (cx r n : Nat) : (m.chargeRegion cx r n).kcores = m.kcores := rfl
@[simp] theorem Mach.chargeRegion_sram (m : Mach) (cx r n : Nat) : (m.chargeRegion cx r n).sram = m.sram := rfl
@[simp] theorem Mach.chargeRegion_homes (m : Mach) (cx r n : Nat) : (m.chargeRegion cx r n).homes = m.homes := rfl
@[simp] theorem Mach.chargeRegion_replies (m : Mach) (cx r n : Nat) : (m.chargeRegion cx r n).replies = m.replies := rfl
@[simp] theorem Mach.chargeRegion_newest (m : Mach) (cx r n : Nat) : (m.chargeRegion cx r n).newest = m.newest := rfl
@[simp] theorem Mach.chargeRegion_spoiled (m : Mach) (cx r n : Nat) : (m.chargeRegion cx r n).spoiled = m.spoiled := rfl
@[simp] theorem Mach.chargeRegion_engines (m : Mach) (cx r n : Nat) : (m.chargeRegion cx r n).engines = m.engines := rfl
@[simp] theorem Mach.chargeRegion_units (m : Mach) (cx r n : Nat) : (m.chargeRegion cx r n).units = m.units := rfl
@[simp] theorem Mach.chargeRegion_lanes (m : Mach) (cx r n : Nat) : (m.chargeRegion cx r n).lanes = m.lanes := rfl
@[simp] theorem Mach.chargeRegion_moves (m : Mach) (cx r n : Nat) : (m.chargeRegion cx r n).moves = m.moves := rfl
@[simp] theorem Mach.chargeRegion_hostWidth (m : Mach) (cx r n : Nat) : (m.chargeRegion cx r n).hostWidth = m.hostWidth := rfl
@[simp] theorem Mach.chargeRegion_pcap (m : Mach) (cx r n : Nat) : (m.chargeRegion cx r n).pcap = m.pcap := rfl
@[simp] theorem Mach.chargeRegion_pidle (m : Mach) (cx r n : Nat) : (m.chargeRegion cx r n).pidle = m.pidle := rfl
@[simp] theorem Mach.chargeRegion_pnow (m : Mach) (cx r n : Nat) : (m.chargeRegion cx r n).pnow = m.pnow := rfl
@[simp] theorem Mach.chargeRegion_gov (m : Mach) (cx r n : Nat) : (m.chargeRegion cx r n).gov = m.gov := rfl
@[simp] theorem Mach.chargeRegion_withheld (m : Mach) (cx r n : Nat) : (m.chargeRegion cx r n).withheld = m.withheld := rfl
@[simp] theorem Mach.chargeRegion_meas (m : Mach) (cx r n : Nat) : (m.chargeRegion cx r n).meas = m.meas := rfl
@[simp] theorem Mach.chargeRegion_manifest (m : Mach) (cx r n : Nat) : (m.chargeRegion cx r n).manifest = m.manifest := rfl
@[simp] theorem Mach.chargeRegion_facVer (m : Mach) (cx r n : Nat) : (m.chargeRegion cx r n).facVer = m.facVer := rfl
@[simp] theorem Mach.chargeRegion_ownVer (m : Mach) (cx r n : Nat) : (m.chargeRegion cx r n).ownVer = m.ownVer := rfl
@[simp] theorem Mach.chargeRegion_trdUp (m : Mach) (cx r n : Nat) : (m.chargeRegion cx r n).trdUp = m.trdUp := rfl
@[simp] theorem Mach.chargeRegion_stopped (m : Mach) (cx r n : Nat) : (m.chargeRegion cx r n).stopped = m.stopped := rfl
@[simp] theorem Mach.chargeRegion_agenda (m : Mach) (cx r n : Nat) : (m.chargeRegion cx r n).agenda = m.agenda := rfl
@[simp] theorem Mach.chargeRegion_miss (m : Mach) (cx r n : Nat) : (m.chargeRegion cx r n).miss = m.miss := rfl
@[simp] theorem Mach.chargeRegion_ev (m : Mach) (cx r n : Nat) : (m.chargeRegion cx r n).ev = m.ev := rfl
@[simp] theorem Mach.chargeRegion_seq (m : Mach) (cx r n : Nat) : (m.chargeRegion cx r n).seq = m.seq := rfl
@[simp] theorem Mach.chargeRegion_fresh (m : Mach) (cx r n : Nat) : (m.chargeRegion cx r n).fresh = m.fresh := rfl
@[simp] theorem Mach.chargeRegion_cur (m : Mach) (cx r n : Nat) : (m.chargeRegion cx r n).cur = m.cur := rfl
@[simp] theorem Mach.chargeRegion_curLen (m : Mach) (cx r n : Nat) : (m.chargeRegion cx r n).curLen = m.curLen := rfl
@[simp] theorem Mach.chargeRegion_kcur (m : Mach) (cx r n : Nat) : (m.chargeRegion cx r n).kcur = m.kcur := rfl
@[simp] theorem Mach.chargeRegion_kturn (m : Mach) (cx r n : Nat) : (m.chargeRegion cx r n).kturn = m.kturn := rfl
@[simp] theorem Mach.chargeRegion_clock (m : Mach) (cx r n : Nat) : (m.chargeRegion cx r n).clock = m.clock := rfl
@[simp] theorem Mach.chargeRegion_lform (m : Mach) (cx r n : Nat) : (m.chargeRegion cx r n).lform = m.lform := rfl
@[simp] theorem Mach.chargeRegion_out (m : Mach) (cx r n : Nat) : (m.chargeRegion cx r n).out = m.out := rfl
/-! ### charge -/
@[simp] theorem Mach.charge_parts (m : Mach) (k u : Nat) : (m.charge k u).parts = m.parts := rfl
@[simp] theorem Mach.charge_pcs (m : Mach) (k u : Nat) : (m.charge k u).pcs = m.pcs := rfl
@[simp] theorem Mach.charge_dies (m : Mach) (k u : Nat) : (m.charge k u).dies = m.dies := rfl
@[simp] theorem Mach.charge_jobs (m : Mach) (k u : Nat) : (m.charge k u).jobs = m.jobs := rfl
@[simp] theorem Mach.charge_streams (m : Mach) (k u : Nat) : (m.charge k u).streams = m.streams := rfl
@[simp] theorem Mach.charge_pend (m : Mach) (k u : Nat) : (m.charge k u).pend = m.pend := rfl
@[simp] theorem Mach.charge_atoms (m : Mach) (k u : Nat) : (m.charge k u).atoms = m.atoms := rfl
@[simp] theorem Mach.charge_copies (m : Mach) (k u : Nat) : (m.charge k u).copies = m.copies := rfl
@[simp] theorem Mach.charge_recs (m : Mach) (k u : Nat) : (m.charge k u).recs = m.recs := rfl
@[simp] theorem Mach.charge_saves (m : Mach) (k u : Nat) : (m.charge k u).saves = m.saves := rfl
@[simp] theorem Mach.charge_phs (m : Mach) (k u : Nat) : (m.charge k u).phs = m.phs := rfl
@[simp] theorem Mach.charge_slices (m : Mach) (k u : Nat) : (m.charge k u).slices = m.slices := rfl
@[simp] theorem Mach.charge_invs (m : Mach) (k u : Nat) : (m.charge k u).invs = m.invs := rfl
@[simp] theorem Mach.charge_publs (m : Mach) (k u : Nat) : (m.charge k u).publs = m.publs := rfl
@[simp] theorem Mach.charge_kcores (m : Mach) (k u : Nat) : (m.charge k u).kcores = m.kcores := rfl
@[simp] theorem Mach.charge_sram (m : Mach) (k u : Nat) : (m.charge k u).sram = m.sram := rfl
@[simp] theorem Mach.charge_homes (m : Mach) (k u : Nat) : (m.charge k u).homes = m.homes := rfl
@[simp] theorem Mach.charge_replies (m : Mach) (k u : Nat) : (m.charge k u).replies = m.replies := rfl
@[simp] theorem Mach.charge_newest (m : Mach) (k u : Nat) : (m.charge k u).newest = m.newest := rfl
@[simp] theorem Mach.charge_spoiled (m : Mach) (k u : Nat) : (m.charge k u).spoiled = m.spoiled := rfl
@[simp] theorem Mach.charge_engines (m : Mach) (k u : Nat) : (m.charge k u).engines = m.engines := rfl
@[simp] theorem Mach.charge_units (m : Mach) (k u : Nat) : (m.charge k u).units = m.units := rfl
@[simp] theorem Mach.charge_lanes (m : Mach) (k u : Nat) : (m.charge k u).lanes = m.lanes := rfl
@[simp] theorem Mach.charge_moves (m : Mach) (k u : Nat) : (m.charge k u).moves = m.moves := rfl
@[simp] theorem Mach.charge_hostWidth (m : Mach) (k u : Nat) : (m.charge k u).hostWidth = m.hostWidth := rfl
@[simp] theorem Mach.charge_pcap (m : Mach) (k u : Nat) : (m.charge k u).pcap = m.pcap := rfl
@[simp] theorem Mach.charge_pidle (m : Mach) (k u : Nat) : (m.charge k u).pidle = m.pidle := rfl
@[simp] theorem Mach.charge_pnow (m : Mach) (k u : Nat) : (m.charge k u).pnow = m.pnow := rfl
@[simp] theorem Mach.charge_gov (m : Mach) (k u : Nat) : (m.charge k u).gov = m.gov := rfl
@[simp] theorem Mach.charge_withheld (m : Mach) (k u : Nat) : (m.charge k u).withheld = m.withheld := rfl
@[simp] theorem Mach.charge_meas (m : Mach) (k u : Nat) : (m.charge k u).meas = m.meas := rfl
@[simp] theorem Mach.charge_manifest (m : Mach) (k u : Nat) : (m.charge k u).manifest = m.manifest := rfl
@[simp] theorem Mach.charge_facVer (m : Mach) (k u : Nat) : (m.charge k u).facVer = m.facVer := rfl
@[simp] theorem Mach.charge_ownVer (m : Mach) (k u : Nat) : (m.charge k u).ownVer = m.ownVer := rfl
@[simp] theorem Mach.charge_trdUp (m : Mach) (k u : Nat) : (m.charge k u).trdUp = m.trdUp := rfl
@[simp] theorem Mach.charge_stopped (m : Mach) (k u : Nat) : (m.charge k u).stopped = m.stopped := rfl
@[simp] theorem Mach.charge_agenda (m : Mach) (k u : Nat) : (m.charge k u).agenda = m.agenda := rfl
@[simp] theorem Mach.charge_miss (m : Mach) (k u : Nat) : (m.charge k u).miss = m.miss := rfl
@[simp] theorem Mach.charge_ev (m : Mach) (k u : Nat) : (m.charge k u).ev = m.ev := rfl
@[simp] theorem Mach.charge_seq (m : Mach) (k u : Nat) : (m.charge k u).seq = m.seq := rfl
@[simp] theorem Mach.charge_fresh (m : Mach) (k u : Nat) : (m.charge k u).fresh = m.fresh := rfl
@[simp] theorem Mach.charge_cur (m : Mach) (k u : Nat) : (m.charge k u).cur = m.cur := rfl
@[simp] theorem Mach.charge_curLen (m : Mach) (k u : Nat) : (m.charge k u).curLen = m.curLen := rfl
@[simp] theorem Mach.charge_kcur (m : Mach) (k u : Nat) : (m.charge k u).kcur = m.kcur := rfl
@[simp] theorem Mach.charge_kturn (m : Mach) (k u : Nat) : (m.charge k u).kturn = m.kturn := rfl
@[simp] theorem Mach.charge_clock (m : Mach) (k u : Nat) : (m.charge k u).clock = m.clock := rfl
@[simp] theorem Mach.charge_lform (m : Mach) (k u : Nat) : (m.charge k u).lform = m.lform := rfl
@[simp] theorem Mach.charge_out (m : Mach) (k u : Nat) : (m.charge k u).out = m.out := rfl
/-! ### pushAt -/
@[simp] theorem Mach.pushAt_parts (m : Mach) (now due : Nat) (e : Eff) (o : Nat) (sp : Option Nat) (lt : Nat) : (m.pushAt now due e o sp lt).parts = m.parts := rfl
@[simp] theorem Mach.pushAt_ctxs (m : Mach) (now due : Nat) (e : Eff) (o : Nat) (sp : Option Nat) (lt : Nat) : (m.pushAt now due e o sp lt).ctxs = m.ctxs := rfl
@[simp] theorem Mach.pushAt_ccs (m : Mach) (now due : Nat) (e : Eff) (o : Nat) (sp : Option Nat) (lt : Nat) : (m.pushAt now due e o sp lt).ccs = m.ccs := rfl
@[simp] theorem Mach.pushAt_pcs (m : Mach) (now due : Nat) (e : Eff) (o : Nat) (sp : Option Nat) (lt : Nat) : (m.pushAt now due e o sp lt).pcs = m.pcs := rfl
@[simp] theorem Mach.pushAt_dies (m : Mach) (now due : Nat) (e : Eff) (o : Nat) (sp : Option Nat) (lt : Nat) : (m.pushAt now due e o sp lt).dies = m.dies := rfl
@[simp] theorem Mach.pushAt_jobs (m : Mach) (now due : Nat) (e : Eff) (o : Nat) (sp : Option Nat) (lt : Nat) : (m.pushAt now due e o sp lt).jobs = m.jobs := rfl
@[simp] theorem Mach.pushAt_streams (m : Mach) (now due : Nat) (e : Eff) (o : Nat) (sp : Option Nat) (lt : Nat) : (m.pushAt now due e o sp lt).streams = m.streams := rfl
@[simp] theorem Mach.pushAt_atoms (m : Mach) (now due : Nat) (e : Eff) (o : Nat) (sp : Option Nat) (lt : Nat) : (m.pushAt now due e o sp lt).atoms = m.atoms := rfl
@[simp] theorem Mach.pushAt_copies (m : Mach) (now due : Nat) (e : Eff) (o : Nat) (sp : Option Nat) (lt : Nat) : (m.pushAt now due e o sp lt).copies = m.copies := rfl
@[simp] theorem Mach.pushAt_recs (m : Mach) (now due : Nat) (e : Eff) (o : Nat) (sp : Option Nat) (lt : Nat) : (m.pushAt now due e o sp lt).recs = m.recs := rfl
@[simp] theorem Mach.pushAt_saves (m : Mach) (now due : Nat) (e : Eff) (o : Nat) (sp : Option Nat) (lt : Nat) : (m.pushAt now due e o sp lt).saves = m.saves := rfl
@[simp] theorem Mach.pushAt_phs (m : Mach) (now due : Nat) (e : Eff) (o : Nat) (sp : Option Nat) (lt : Nat) : (m.pushAt now due e o sp lt).phs = m.phs := rfl
@[simp] theorem Mach.pushAt_slices (m : Mach) (now due : Nat) (e : Eff) (o : Nat) (sp : Option Nat) (lt : Nat) : (m.pushAt now due e o sp lt).slices = m.slices := rfl
@[simp] theorem Mach.pushAt_invs (m : Mach) (now due : Nat) (e : Eff) (o : Nat) (sp : Option Nat) (lt : Nat) : (m.pushAt now due e o sp lt).invs = m.invs := rfl
@[simp] theorem Mach.pushAt_publs (m : Mach) (now due : Nat) (e : Eff) (o : Nat) (sp : Option Nat) (lt : Nat) : (m.pushAt now due e o sp lt).publs = m.publs := rfl
@[simp] theorem Mach.pushAt_kcores (m : Mach) (now due : Nat) (e : Eff) (o : Nat) (sp : Option Nat) (lt : Nat) : (m.pushAt now due e o sp lt).kcores = m.kcores := rfl
@[simp] theorem Mach.pushAt_sram (m : Mach) (now due : Nat) (e : Eff) (o : Nat) (sp : Option Nat) (lt : Nat) : (m.pushAt now due e o sp lt).sram = m.sram := rfl
@[simp] theorem Mach.pushAt_homes (m : Mach) (now due : Nat) (e : Eff) (o : Nat) (sp : Option Nat) (lt : Nat) : (m.pushAt now due e o sp lt).homes = m.homes := rfl
@[simp] theorem Mach.pushAt_replies (m : Mach) (now due : Nat) (e : Eff) (o : Nat) (sp : Option Nat) (lt : Nat) : (m.pushAt now due e o sp lt).replies = m.replies := rfl
@[simp] theorem Mach.pushAt_newest (m : Mach) (now due : Nat) (e : Eff) (o : Nat) (sp : Option Nat) (lt : Nat) : (m.pushAt now due e o sp lt).newest = m.newest := rfl
@[simp] theorem Mach.pushAt_spoiled (m : Mach) (now due : Nat) (e : Eff) (o : Nat) (sp : Option Nat) (lt : Nat) : (m.pushAt now due e o sp lt).spoiled = m.spoiled := rfl
@[simp] theorem Mach.pushAt_engines (m : Mach) (now due : Nat) (e : Eff) (o : Nat) (sp : Option Nat) (lt : Nat) : (m.pushAt now due e o sp lt).engines = m.engines := rfl
@[simp] theorem Mach.pushAt_units (m : Mach) (now due : Nat) (e : Eff) (o : Nat) (sp : Option Nat) (lt : Nat) : (m.pushAt now due e o sp lt).units = m.units := rfl
@[simp] theorem Mach.pushAt_lanes (m : Mach) (now due : Nat) (e : Eff) (o : Nat) (sp : Option Nat) (lt : Nat) : (m.pushAt now due e o sp lt).lanes = m.lanes := rfl
@[simp] theorem Mach.pushAt_moves (m : Mach) (now due : Nat) (e : Eff) (o : Nat) (sp : Option Nat) (lt : Nat) : (m.pushAt now due e o sp lt).moves = m.moves := rfl
@[simp] theorem Mach.pushAt_hostWidth (m : Mach) (now due : Nat) (e : Eff) (o : Nat) (sp : Option Nat) (lt : Nat) : (m.pushAt now due e o sp lt).hostWidth = m.hostWidth := rfl
@[simp] theorem Mach.pushAt_pcap (m : Mach) (now due : Nat) (e : Eff) (o : Nat) (sp : Option Nat) (lt : Nat) : (m.pushAt now due e o sp lt).pcap = m.pcap := rfl
@[simp] theorem Mach.pushAt_pidle (m : Mach) (now due : Nat) (e : Eff) (o : Nat) (sp : Option Nat) (lt : Nat) : (m.pushAt now due e o sp lt).pidle = m.pidle := rfl
@[simp] theorem Mach.pushAt_pnow (m : Mach) (now due : Nat) (e : Eff) (o : Nat) (sp : Option Nat) (lt : Nat) : (m.pushAt now due e o sp lt).pnow = m.pnow := rfl
@[simp] theorem Mach.pushAt_gov (m : Mach) (now due : Nat) (e : Eff) (o : Nat) (sp : Option Nat) (lt : Nat) : (m.pushAt now due e o sp lt).gov = m.gov := rfl
@[simp] theorem Mach.pushAt_withheld (m : Mach) (now due : Nat) (e : Eff) (o : Nat) (sp : Option Nat) (lt : Nat) : (m.pushAt now due e o sp lt).withheld = m.withheld := rfl
@[simp] theorem Mach.pushAt_meas (m : Mach) (now due : Nat) (e : Eff) (o : Nat) (sp : Option Nat) (lt : Nat) : (m.pushAt now due e o sp lt).meas = m.meas := rfl
@[simp] theorem Mach.pushAt_manifest (m : Mach) (now due : Nat) (e : Eff) (o : Nat) (sp : Option Nat) (lt : Nat) : (m.pushAt now due e o sp lt).manifest = m.manifest := rfl
@[simp] theorem Mach.pushAt_facVer (m : Mach) (now due : Nat) (e : Eff) (o : Nat) (sp : Option Nat) (lt : Nat) : (m.pushAt now due e o sp lt).facVer = m.facVer := rfl
@[simp] theorem Mach.pushAt_ownVer (m : Mach) (now due : Nat) (e : Eff) (o : Nat) (sp : Option Nat) (lt : Nat) : (m.pushAt now due e o sp lt).ownVer = m.ownVer := rfl
@[simp] theorem Mach.pushAt_trdUp (m : Mach) (now due : Nat) (e : Eff) (o : Nat) (sp : Option Nat) (lt : Nat) : (m.pushAt now due e o sp lt).trdUp = m.trdUp := rfl
@[simp] theorem Mach.pushAt_stopped (m : Mach) (now due : Nat) (e : Eff) (o : Nat) (sp : Option Nat) (lt : Nat) : (m.pushAt now due e o sp lt).stopped = m.stopped := rfl
@[simp] theorem Mach.pushAt_agenda (m : Mach) (now due : Nat) (e : Eff) (o : Nat) (sp : Option Nat) (lt : Nat) : (m.pushAt now due e o sp lt).agenda = m.agenda := rfl
@[simp] theorem Mach.pushAt_miss (m : Mach) (now due : Nat) (e : Eff) (o : Nat) (sp : Option Nat) (lt : Nat) : (m.pushAt now due e o sp lt).miss = m.miss := rfl
@[simp] theorem Mach.pushAt_ev (m : Mach) (now due : Nat) (e : Eff) (o : Nat) (sp : Option Nat) (lt : Nat) : (m.pushAt now due e o sp lt).ev = m.ev := rfl
@[simp] theorem Mach.pushAt_fresh (m : Mach) (now due : Nat) (e : Eff) (o : Nat) (sp : Option Nat) (lt : Nat) : (m.pushAt now due e o sp lt).fresh = m.fresh := rfl
@[simp] theorem Mach.pushAt_cur (m : Mach) (now due : Nat) (e : Eff) (o : Nat) (sp : Option Nat) (lt : Nat) : (m.pushAt now due e o sp lt).cur = m.cur := rfl
@[simp] theorem Mach.pushAt_curLen (m : Mach) (now due : Nat) (e : Eff) (o : Nat) (sp : Option Nat) (lt : Nat) : (m.pushAt now due e o sp lt).curLen = m.curLen := rfl
@[simp] theorem Mach.pushAt_kcur (m : Mach) (now due : Nat) (e : Eff) (o : Nat) (sp : Option Nat) (lt : Nat) : (m.pushAt now due e o sp lt).kcur = m.kcur := rfl
@[simp] theorem Mach.pushAt_kturn (m : Mach) (now due : Nat) (e : Eff) (o : Nat) (sp : Option Nat) (lt : Nat) : (m.pushAt now due e o sp lt).kturn = m.kturn := rfl
@[simp] theorem Mach.pushAt_clock (m : Mach) (now due : Nat) (e : Eff) (o : Nat) (sp : Option Nat) (lt : Nat) : (m.pushAt now due e o sp lt).clock = m.clock := rfl
@[simp] theorem Mach.pushAt_lform (m : Mach) (now due : Nat) (e : Eff) (o : Nat) (sp : Option Nat) (lt : Nat) : (m.pushAt now due e o sp lt).lform = m.lform := rfl
@[simp] theorem Mach.pushAt_out (m : Mach) (now due : Nat) (e : Eff) (o : Nat) (sp : Option Nat) (lt : Nat) : (m.pushAt now due e o sp lt).out = m.out := rfl
/-! ### push -/
@[simp] theorem Mach.push_parts (m : Mach) (now k : Nat) (e : Eff) (o : Nat) : (m.push now k e o).parts = m.parts := rfl
@[simp] theorem Mach.push_ctxs (m : Mach) (now k : Nat) (e : Eff) (o : Nat) : (m.push now k e o).ctxs = m.ctxs := rfl
@[simp] theorem Mach.push_ccs (m : Mach) (now k : Nat) (e : Eff) (o : Nat) : (m.push now k e o).ccs = m.ccs := rfl
@[simp] theorem Mach.push_pcs (m : Mach) (now k : Nat) (e : Eff) (o : Nat) : (m.push now k e o).pcs = m.pcs := rfl
@[simp] theorem Mach.push_dies (m : Mach) (now k : Nat) (e : Eff) (o : Nat) : (m.push now k e o).dies = m.dies := rfl
@[simp] theorem Mach.push_jobs (m : Mach) (now k : Nat) (e : Eff) (o : Nat) : (m.push now k e o).jobs = m.jobs := rfl
@[simp] theorem Mach.push_streams (m : Mach) (now k : Nat) (e : Eff) (o : Nat) : (m.push now k e o).streams = m.streams := rfl
@[simp] theorem Mach.push_atoms (m : Mach) (now k : Nat) (e : Eff) (o : Nat) : (m.push now k e o).atoms = m.atoms := rfl
@[simp] theorem Mach.push_copies (m : Mach) (now k : Nat) (e : Eff) (o : Nat) : (m.push now k e o).copies = m.copies := rfl
@[simp] theorem Mach.push_recs (m : Mach) (now k : Nat) (e : Eff) (o : Nat) : (m.push now k e o).recs = m.recs := rfl
@[simp] theorem Mach.push_saves (m : Mach) (now k : Nat) (e : Eff) (o : Nat) : (m.push now k e o).saves = m.saves := rfl
@[simp] theorem Mach.push_phs (m : Mach) (now k : Nat) (e : Eff) (o : Nat) : (m.push now k e o).phs = m.phs := rfl
@[simp] theorem Mach.push_slices (m : Mach) (now k : Nat) (e : Eff) (o : Nat) : (m.push now k e o).slices = m.slices := rfl
@[simp] theorem Mach.push_invs (m : Mach) (now k : Nat) (e : Eff) (o : Nat) : (m.push now k e o).invs = m.invs := rfl
@[simp] theorem Mach.push_publs (m : Mach) (now k : Nat) (e : Eff) (o : Nat) : (m.push now k e o).publs = m.publs := rfl
@[simp] theorem Mach.push_kcores (m : Mach) (now k : Nat) (e : Eff) (o : Nat) : (m.push now k e o).kcores = m.kcores := rfl
@[simp] theorem Mach.push_sram (m : Mach) (now k : Nat) (e : Eff) (o : Nat) : (m.push now k e o).sram = m.sram := rfl
@[simp] theorem Mach.push_homes (m : Mach) (now k : Nat) (e : Eff) (o : Nat) : (m.push now k e o).homes = m.homes := rfl
@[simp] theorem Mach.push_replies (m : Mach) (now k : Nat) (e : Eff) (o : Nat) : (m.push now k e o).replies = m.replies := rfl
@[simp] theorem Mach.push_newest (m : Mach) (now k : Nat) (e : Eff) (o : Nat) : (m.push now k e o).newest = m.newest := rfl
@[simp] theorem Mach.push_spoiled (m : Mach) (now k : Nat) (e : Eff) (o : Nat) : (m.push now k e o).spoiled = m.spoiled := rfl
@[simp] theorem Mach.push_engines (m : Mach) (now k : Nat) (e : Eff) (o : Nat) : (m.push now k e o).engines = m.engines := rfl
@[simp] theorem Mach.push_units (m : Mach) (now k : Nat) (e : Eff) (o : Nat) : (m.push now k e o).units = m.units := rfl
@[simp] theorem Mach.push_lanes (m : Mach) (now k : Nat) (e : Eff) (o : Nat) : (m.push now k e o).lanes = m.lanes := rfl
@[simp] theorem Mach.push_moves (m : Mach) (now k : Nat) (e : Eff) (o : Nat) : (m.push now k e o).moves = m.moves := rfl
@[simp] theorem Mach.push_hostWidth (m : Mach) (now k : Nat) (e : Eff) (o : Nat) : (m.push now k e o).hostWidth = m.hostWidth := rfl
@[simp] theorem Mach.push_pcap (m : Mach) (now k : Nat) (e : Eff) (o : Nat) : (m.push now k e o).pcap = m.pcap := rfl
@[simp] theorem Mach.push_pidle (m : Mach) (now k : Nat) (e : Eff) (o : Nat) : (m.push now k e o).pidle = m.pidle := rfl
@[simp] theorem Mach.push_pnow (m : Mach) (now k : Nat) (e : Eff) (o : Nat) : (m.push now k e o).pnow = m.pnow := rfl
@[simp] theorem Mach.push_gov (m : Mach) (now k : Nat) (e : Eff) (o : Nat) : (m.push now k e o).gov = m.gov := rfl
@[simp] theorem Mach.push_withheld (m : Mach) (now k : Nat) (e : Eff) (o : Nat) : (m.push now k e o).withheld = m.withheld := rfl
@[simp] theorem Mach.push_meas (m : Mach) (now k : Nat) (e : Eff) (o : Nat) : (m.push now k e o).meas = m.meas := rfl
@[simp] theorem Mach.push_manifest (m : Mach) (now k : Nat) (e : Eff) (o : Nat) : (m.push now k e o).manifest = m.manifest := rfl
@[simp] theorem Mach.push_facVer (m : Mach) (now k : Nat) (e : Eff) (o : Nat) : (m.push now k e o).facVer = m.facVer := rfl
@[simp] theorem Mach.push_ownVer (m : Mach) (now k : Nat) (e : Eff) (o : Nat) : (m.push now k e o).ownVer = m.ownVer := rfl
@[simp] theorem Mach.push_trdUp (m : Mach) (now k : Nat) (e : Eff) (o : Nat) : (m.push now k e o).trdUp = m.trdUp := rfl
@[simp] theorem Mach.push_stopped (m : Mach) (now k : Nat) (e : Eff) (o : Nat) : (m.push now k e o).stopped = m.stopped := rfl
@[simp] theorem Mach.push_agenda (m : Mach) (now k : Nat) (e : Eff) (o : Nat) : (m.push now k e o).agenda = m.agenda := rfl
@[simp] theorem Mach.push_miss (m : Mach) (now k : Nat) (e : Eff) (o : Nat) : (m.push now k e o).miss = m.miss := rfl
@[simp] theorem Mach.push_ev (m : Mach) (now k : Nat) (e : Eff) (o : Nat) : (m.push now k e o).ev = m.ev := rfl
@[simp] theorem Mach.push_fresh (m : Mach) (now k : Nat) (e : Eff) (o : Nat) : (m.push now k e o).fresh = m.fresh := rfl
@[simp] theorem Mach.push_cur (m : Mach) (now k : Nat) (e : Eff) (o : Nat) : (m.push now k e o).cur = m.cur := rfl
@[simp] theorem Mach.push_curLen (m : Mach) (now k : Nat) (e : Eff) (o : Nat) : (m.push now k e o).curLen = m.curLen := rfl
@[simp] theorem Mach.push_kcur (m : Mach) (now k : Nat) (e : Eff) (o : Nat) : (m.push now k e o).kcur = m.kcur := rfl
@[simp] theorem Mach.push_kturn (m : Mach) (now k : Nat) (e : Eff) (o : Nat) : (m.push now k e o).kturn = m.kturn := rfl
@[simp] theorem Mach.push_clock (m : Mach) (now k : Nat) (e : Eff) (o : Nat) : (m.push now k e o).clock = m.clock := rfl
@[simp] theorem Mach.push_lform (m : Mach) (now k : Nat) (e : Eff) (o : Nat) : (m.push now k e o).lform = m.lform := rfl
@[simp] theorem Mach.push_out (m : Mach) (now k : Nat) (e : Eff) (o : Nat) : (m.push now k e o).out = m.out := rfl
/-! ### pushReg -/
@[simp] theorem Mach.pushReg_parts (m : Mach) (now k : Nat) (d : R) (v : Word) : (m.pushReg now k d v).parts = m.parts := rfl
@[simp] theorem Mach.pushReg_ctxs (m : Mach) (now k : Nat) (d : R) (v : Word) : (m.pushReg now k d v).ctxs = m.ctxs := rfl
@[simp] theorem Mach.pushReg_ccs (m : Mach) (now k : Nat) (d : R) (v : Word) : (m.pushReg now k d v).ccs = m.ccs := rfl
@[simp] theorem Mach.pushReg_pcs (m : Mach) (now k : Nat) (d : R) (v : Word) : (m.pushReg now k d v).pcs = m.pcs := rfl
@[simp] theorem Mach.pushReg_dies (m : Mach) (now k : Nat) (d : R) (v : Word) : (m.pushReg now k d v).dies = m.dies := rfl
@[simp] theorem Mach.pushReg_jobs (m : Mach) (now k : Nat) (d : R) (v : Word) : (m.pushReg now k d v).jobs = m.jobs := rfl
@[simp] theorem Mach.pushReg_streams (m : Mach) (now k : Nat) (d : R) (v : Word) : (m.pushReg now k d v).streams = m.streams := rfl
@[simp] theorem Mach.pushReg_atoms (m : Mach) (now k : Nat) (d : R) (v : Word) : (m.pushReg now k d v).atoms = m.atoms := rfl
@[simp] theorem Mach.pushReg_copies (m : Mach) (now k : Nat) (d : R) (v : Word) : (m.pushReg now k d v).copies = m.copies := rfl
@[simp] theorem Mach.pushReg_recs (m : Mach) (now k : Nat) (d : R) (v : Word) : (m.pushReg now k d v).recs = m.recs := rfl
@[simp] theorem Mach.pushReg_saves (m : Mach) (now k : Nat) (d : R) (v : Word) : (m.pushReg now k d v).saves = m.saves := rfl
@[simp] theorem Mach.pushReg_phs (m : Mach) (now k : Nat) (d : R) (v : Word) : (m.pushReg now k d v).phs = m.phs := rfl
@[simp] theorem Mach.pushReg_slices (m : Mach) (now k : Nat) (d : R) (v : Word) : (m.pushReg now k d v).slices = m.slices := rfl
@[simp] theorem Mach.pushReg_invs (m : Mach) (now k : Nat) (d : R) (v : Word) : (m.pushReg now k d v).invs = m.invs := rfl
@[simp] theorem Mach.pushReg_publs (m : Mach) (now k : Nat) (d : R) (v : Word) : (m.pushReg now k d v).publs = m.publs := rfl
@[simp] theorem Mach.pushReg_kcores (m : Mach) (now k : Nat) (d : R) (v : Word) : (m.pushReg now k d v).kcores = m.kcores := rfl
@[simp] theorem Mach.pushReg_sram (m : Mach) (now k : Nat) (d : R) (v : Word) : (m.pushReg now k d v).sram = m.sram := rfl
@[simp] theorem Mach.pushReg_homes (m : Mach) (now k : Nat) (d : R) (v : Word) : (m.pushReg now k d v).homes = m.homes := rfl
@[simp] theorem Mach.pushReg_replies (m : Mach) (now k : Nat) (d : R) (v : Word) : (m.pushReg now k d v).replies = m.replies := rfl
@[simp] theorem Mach.pushReg_newest (m : Mach) (now k : Nat) (d : R) (v : Word) : (m.pushReg now k d v).newest = m.newest := rfl
@[simp] theorem Mach.pushReg_spoiled (m : Mach) (now k : Nat) (d : R) (v : Word) : (m.pushReg now k d v).spoiled = m.spoiled := rfl
@[simp] theorem Mach.pushReg_engines (m : Mach) (now k : Nat) (d : R) (v : Word) : (m.pushReg now k d v).engines = m.engines := rfl
@[simp] theorem Mach.pushReg_units (m : Mach) (now k : Nat) (d : R) (v : Word) : (m.pushReg now k d v).units = m.units := rfl
@[simp] theorem Mach.pushReg_lanes (m : Mach) (now k : Nat) (d : R) (v : Word) : (m.pushReg now k d v).lanes = m.lanes := rfl
@[simp] theorem Mach.pushReg_moves (m : Mach) (now k : Nat) (d : R) (v : Word) : (m.pushReg now k d v).moves = m.moves := rfl
@[simp] theorem Mach.pushReg_hostWidth (m : Mach) (now k : Nat) (d : R) (v : Word) : (m.pushReg now k d v).hostWidth = m.hostWidth := rfl
@[simp] theorem Mach.pushReg_pcap (m : Mach) (now k : Nat) (d : R) (v : Word) : (m.pushReg now k d v).pcap = m.pcap := rfl
@[simp] theorem Mach.pushReg_pidle (m : Mach) (now k : Nat) (d : R) (v : Word) : (m.pushReg now k d v).pidle = m.pidle := rfl
@[simp] theorem Mach.pushReg_pnow (m : Mach) (now k : Nat) (d : R) (v : Word) : (m.pushReg now k d v).pnow = m.pnow := rfl
@[simp] theorem Mach.pushReg_gov (m : Mach) (now k : Nat) (d : R) (v : Word) : (m.pushReg now k d v).gov = m.gov := rfl
@[simp] theorem Mach.pushReg_withheld (m : Mach) (now k : Nat) (d : R) (v : Word) : (m.pushReg now k d v).withheld = m.withheld := rfl
@[simp] theorem Mach.pushReg_meas (m : Mach) (now k : Nat) (d : R) (v : Word) : (m.pushReg now k d v).meas = m.meas := rfl
@[simp] theorem Mach.pushReg_manifest (m : Mach) (now k : Nat) (d : R) (v : Word) : (m.pushReg now k d v).manifest = m.manifest := rfl
@[simp] theorem Mach.pushReg_facVer (m : Mach) (now k : Nat) (d : R) (v : Word) : (m.pushReg now k d v).facVer = m.facVer := rfl
@[simp] theorem Mach.pushReg_ownVer (m : Mach) (now k : Nat) (d : R) (v : Word) : (m.pushReg now k d v).ownVer = m.ownVer := rfl
@[simp] theorem Mach.pushReg_trdUp (m : Mach) (now k : Nat) (d : R) (v : Word) : (m.pushReg now k d v).trdUp = m.trdUp := rfl
@[simp] theorem Mach.pushReg_stopped (m : Mach) (now k : Nat) (d : R) (v : Word) : (m.pushReg now k d v).stopped = m.stopped := rfl
@[simp] theorem Mach.pushReg_agenda (m : Mach) (now k : Nat) (d : R) (v : Word) : (m.pushReg now k d v).agenda = m.agenda := rfl
@[simp] theorem Mach.pushReg_miss (m : Mach) (now k : Nat) (d : R) (v : Word) : (m.pushReg now k d v).miss = m.miss := rfl
@[simp] theorem Mach.pushReg_ev (m : Mach) (now k : Nat) (d : R) (v : Word) : (m.pushReg now k d v).ev = m.ev := rfl
@[simp] theorem Mach.pushReg_fresh (m : Mach) (now k : Nat) (d : R) (v : Word) : (m.pushReg now k d v).fresh = m.fresh := rfl
@[simp] theorem Mach.pushReg_cur (m : Mach) (now k : Nat) (d : R) (v : Word) : (m.pushReg now k d v).cur = m.cur := rfl
@[simp] theorem Mach.pushReg_curLen (m : Mach) (now k : Nat) (d : R) (v : Word) : (m.pushReg now k d v).curLen = m.curLen := rfl
@[simp] theorem Mach.pushReg_kcur (m : Mach) (now k : Nat) (d : R) (v : Word) : (m.pushReg now k d v).kcur = m.kcur := rfl
@[simp] theorem Mach.pushReg_kturn (m : Mach) (now k : Nat) (d : R) (v : Word) : (m.pushReg now k d v).kturn = m.kturn := rfl
@[simp] theorem Mach.pushReg_clock (m : Mach) (now k : Nat) (d : R) (v : Word) : (m.pushReg now k d v).clock = m.clock := rfl
@[simp] theorem Mach.pushReg_lform (m : Mach) (now k : Nat) (d : R) (v : Word) : (m.pushReg now k d v).lform = m.lform := rfl
@[simp] theorem Mach.pushReg_out (m : Mach) (now k : Nat) (d : R) (v : Word) : (m.pushReg now k d v).out = m.out := rfl

end Sys2Proof.Machine
end

