-- ==== Sys2Proof/Laws/Maps.lean ====
section
/-! SUPPORT. Sparse maps: a read after a write, key by key; and the same for every record the machine keeps in one. -/

namespace Sys2Proof.Machine

variable {α : Type}

/-- A read after a write of a sparse map. -/
theorem sget?_sset (m : SMap α) (k j : Nat) (v : α) : sget? (sset m k v) j = if j = k then some v else sget? m j := by
  induction m with
  | nil => by_cases h : j = k <;> simp [sset, sget?, h, Ne.symm]
  | cons p t ih =>
    obtain ⟨k', v'⟩ := p
    rw [sset]
    by_cases h1 : k < k'
    · by_cases h : j = k
      · simp [h1, sget?, h]
      · simp [h1, sget?, h, Ne.symm h]
    · by_cases h2 : k' = k
      · subst h2
        by_cases h : j = k'
        · simp [sget?, h]
        · simp [sget?, h, Ne.symm h]
      · by_cases h3 : k' = j
        · subst h3; simp [h1, h2, sget?]
        · simp [h1, h2, sget?, h3, ih]

@[simp] theorem sget_sset_same (m : SMap α) (k : Nat) (v d : α) : sget (sset m k v) k d = v := by simp [sget, sget?_sset]
@[simp] theorem sget_sset_ne (m : SMap α) {k j : Nat} (v d : α) (h : j ≠ k) : sget (sset m k v) j d = sget m j d := by
  simp [sget, sget?_sset, h]
theorem sget_sset (m : SMap α) (k j : Nat) (v d : α) : sget (sset m k v) j d = if j = k then v else sget m j d := by
  by_cases h : j = k <;> simp [h]

/-- A read after a change of one key. -/
theorem sget_smod (m : SMap α) (k j : Nat) (d : α) (f : α → α) :
    sget (smod m k d f) j d = if j = k then f (sget m k d) else sget m j d := by simp [smod, sget_sset]

/-- A read after a key is deleted. -/
theorem sget?_sdel (m : SMap α) (k j : Nat) : sget? (sdel m k) j = if j = k then none else sget? m j := by
  induction m with
  | nil => simp [sdel, sget?]
  | cons p t ih =>
    obtain ⟨k', v'⟩ := p
    simp only [sdel] at ih ⊢
    by_cases h : k' = k
    · subst h
      by_cases hj : j = k'
      · subst hj; simpa using ih
      · simp [ih, hj, sget?, Ne.symm hj]
    · by_cases hj : k' = j
      · subst hj; simp [h, sget?]
      · simp [h, sget?, hj, ih]

variable (m : Mach)

theorem Mach.str_setStr (i j : Nat) (x : Stream) : (m.setStr i x).str j = if j = i then x else m.str j := sget_sset ..
theorem Mach.str_modStr (i j : Nat) (f : Stream → Stream) : (m.modStr i f).str j = if j = i then f (m.str i) else m.str j := by
  rw [Mach.modStr, Mach.str_setStr]
@[simp] theorem Mach.str_modStr_same (i : Nat) (f : Stream → Stream) : (m.modStr i f).str i = f (m.str i) := by
  simp [Mach.str_modStr]
@[simp] theorem Mach.str_modStr_ne {i j : Nat} (f : Stream → Stream) (h : j ≠ i) : (m.modStr i f).str j = m.str j := by
  simp [Mach.str_modStr, h]
theorem Mach.job_modJob (i j : Nat) (f : Job → Job) : (m.modJob i f).job j = if j = i then f (m.job i) else m.job j := by
  rw [Mach.modJob, Mach.setJob, Mach.job]; exact sget_sset ..
theorem Mach.cct_modCct (i j : Nat) (f : Cctx → Cctx) : (m.modCct i f).cct j = if j = i then f (m.cct i) else m.cct j := by
  rw [Mach.modCct, Mach.setCct, Mach.cct]; exact sget_sset ..
theorem Mach.ctx_modCtx (i j : Nat) (f : Context → Context) : (m.modCtx i f).ctx j = if j = i then f (m.ctx i) else m.ctx j := by
  rw [Mach.modCtx, Mach.setCtx, Mach.ctx]; exact sget_sset ..
theorem Mach.part_modPart (i j : Nat) (f : Part → Part) : (m.modPart i f).part j = if j = i then f (m.part i) else m.part j := by
  rw [Mach.modPart, Mach.setPart, Mach.part]; exact sget_sset ..
theorem Mach.pcl_modPcl (i j : Nat) (f : PClu → PClu) : (m.modPcl i f).pcl j = if j = i then f (m.pcl i) else m.pcl j :=
  sget_smod ..
theorem Mach.die_modDie (i j : Nat) (f : Die → Die) : (m.modDie i f).die j = if j = i then f (m.die i) else m.die j :=
  sget_smod ..
theorem Mach.frec_modRec (i j : Nat) (f : Rec → Rec) : (m.modRec i f).frec j = if j = i then f (m.frec i) else m.frec j :=
  sget_smod ..

@[simp] theorem Mach.str_mend (l : Loc) (f : Nat → Bool) (i : Nat) : (m.mend l f).str i = m.str i := rfl

/-! ### Lists in rising order -/

theorem putBy_perm (key : α → Nat) (x : α) (l : List α) : (putBy key x l).Perm (x :: l) := by
  induction l with
  | nil => exact .refl _
  | cons y t ih =>
    simp only [putBy]
    split
    · exact .refl _
    · exact (ih.cons y).trans (.swap x y t)
/-- Sorting keeps the elements, and their number. -/
theorem sortOn_perm (key : α → Nat) (l : List α) : (sortOn key l).Perm l := by
  induction l with
  | nil => exact .refl _
  | cons x t ih => exact (putBy_perm key x _).trans (ih.cons x)
@[simp] theorem mem_sortOn (key : α → Nat) (x : α) (l : List α) : x ∈ sortOn key l ↔ x ∈ l := (sortOn_perm key l).mem_iff

/-! ### A read depends on its map alone -/

theorem Mach.str_congr {m n : Mach} (h : m.streams = n.streams) (i : Nat) : m.str i = n.str i := by simp [Mach.str, h]
theorem Mach.job_congr {m n : Mach} (h : m.jobs = n.jobs) (i : Nat) : m.job i = n.job i := by simp [Mach.job, h]
theorem Mach.cct_congr {m n : Mach} (h : m.ccs = n.ccs) (i : Nat) : m.cct i = n.cct i := by simp [Mach.cct, h]
theorem Mach.ctx_congr {m n : Mach} (h : m.ctxs = n.ctxs) (i : Nat) : m.ctx i = n.ctx i := by simp [Mach.ctx, h]
theorem Mach.part_congr {m n : Mach} (h : m.parts = n.parts) (i : Nat) : m.part i = n.part i := by simp [Mach.part, h]

/-! ### Registers -/

theorem Stream.rd_zero (s : Stream) : s.rd 0 = 0 := by simp [Stream.rd]
/-- A read of a scalar register after a write: S0 reads 0 and discards (R63). -/
theorem Stream.rd_wr (s : Stream) (n : Nat) (r : R) (v : Word) :
    (s.wr n v).rd r = if r = 0 then 0 else if r.toNat = n then v else s.rd r := by
  by_cases hr : r = 0#5
  · simp [Stream.rd, hr]
  · have : r.toNat ≠ 0 := fun h => hr (BitVec.eq_of_toNat_eq (by simpa using h))
    by_cases hn : n = 0
    · simp [Stream.wr, Stream.rd, hr, this, hn]
    · simp [Stream.wr, Stream.rd, hr, hn, sget_sset]

end Sys2Proof.Machine
end

