-- ==== Sys2Proof/Laws/Memory.lean ====
section
/-! SUPPORT. Memory: a read after a write, and the canonical form that every write of a home keeps. -/

namespace Sys2Proof.Machine

/-! ### Read after write -/

theorem cutOne_find (b n k a x : Nat) :
    ((if b ≤ a && a < b + n then
      (if a == b then [] else [(b, a - b, k)]) ++ (if a + 1 == b + n then [] else [(a + 1, b + n - (a + 1), k)])
      else [(b, n, k)]).find? (fun r : Nat × Nat × Nat => r.1 ≤ x && x < r.1 + r.2.1)).map (fun r => r.2.2) =
      if x = a then none else if b ≤ x ∧ x < b + n then some k else none := by
  have one (c l : Nat) : ([(c, l, k)].find? (fun r : Nat × Nat × Nat => r.1 ≤ x && x < r.1 + r.2.1)).map (fun r => r.2.2) =
      if c ≤ x ∧ x < c + l then some k else none := by
    by_cases h : c ≤ x ∧ x < c + l
    · simp [h]
    · rw [if_neg h]; simpa using fun h1 => by omega
  by_cases hc : b ≤ a ∧ a < b + n
  · rw [if_pos (by simpa using hc), List.find?_append, Option.map_or]
    by_cases h1 : a = b <;> by_cases h2 : a + 1 = b + n <;>
      simp only [h1, h2, beq_self_eq_true, beq_iff_eq, ↓reduceIte, one, List.find?_nil, Option.map_none, Option.or_none, Option.none_or] <;>
      (repeat' split) <;> first | rfl | omega | skip
    all_goals (simp at *; omega)
  · rw [if_neg (by simpa using hc), one]
    (repeat' split) <;> first | rfl | omega

theorem cutGarbled_find (g : List (Nat × Nat × Nat)) (a x : Nat) :
    ((cutGarbled g a).find? (fun r => r.1 ≤ x && x < r.1 + r.2.1)).map (fun r => r.2.2) =
      if x = a then none else (g.find? (fun r => r.1 ≤ x && x < r.1 + r.2.1)).map (fun r => r.2.2) := by
  induction g with
  | nil => simp [cutGarbled]
  | cons r t ih =>
    obtain ⟨b, n, k⟩ := r
    simp only [cutGarbled] at ih
    simp only [cutGarbled, List.flatMap_cons, List.find?_append, Option.map_or, ih]
    rw [cutOne_find]
    by_cases hx : x = a
    · simp [hx]
    · by_cases hb : b ≤ x ∧ x < b + n
      · simp [hx, hb]
      · simp only [hx, hb, ↓reduceIte, Option.none_or]
        rw [List.find?_cons_of_neg (by simpa using hb)]

/-- A byte of memory after a byte was written at a home. -/
theorem homeByte_homeSet (h : Homes) (a x : Nat) (b : Byte) :
    homeByte (homeSet h a b) x = if x = a then b else homeByte h x := by
  have e (h : Homes) : homeByte h x = match sget? h.cells x with
      | some b => b
      | none => match (h.garbled.find? (fun r => r.1 ≤ x && x < r.1 + r.2.1)).map (fun r => r.2.2) with
        | some k => Config.garbledByte k x
        | none => 0 := by
    unfold homeByte
    cases sget? h.cells x <;> simp only
    cases h.garbled.find? _ <;> rfl
  rw [e, e]
  simp only [homeSet, cutGarbled_find, cellSet]
  by_cases hb : b = 0#8
  · subst hb; by_cases hx : x = a <;> simp [sget?_sdel, hx]
  · by_cases hx : x = a <;> simp [hb, sget?_sset, hx]

/-- A byte of memory after a block was written. -/
theorem homeByte_homeWrite (h : Homes) (a x : Nat) (bs : List Byte) :
    homeByte (homeWrite h a bs) x = if a ≤ x ∧ x < a + bs.length then bs.getD (x - a) 0 else homeByte h x := by
  induction bs generalizing h a with
  | nil => simp [homeWrite]
  | cons b t ih =>
    rw [homeWrite, ih, homeByte_homeSet]
    by_cases h1 : x = a
    · subst h1; simp
    · by_cases h2 : a ≤ x
      · have : x - a = (x - (a + 1)) + 1 := by omega
        simp only [List.length_cons, h1, h2, ↓reduceIte, true_and, this, List.getD_cons_succ]
        congr 1
        simp only [eq_iff_iff]; omega
      · simp [h1, h2]; intro; omega

@[simp] theorem homeSet_bad (h : Homes) (a : Nat) (b : Byte) : (homeSet h a b).bad = h.bad := rfl
@[simp] theorem homeWrite_bad (h : Homes) (a : Nat) (bs : List Byte) : (homeWrite h a bs).bad = h.bad := by
  induction bs generalizing h a with
  | nil => rfl
  | cons b t ih => rw [homeWrite, ih]; rfl

/-! ### The canonical form -/

theorem Memory.wf_iff (c : List Host.Cell) :
    Memory.wf c = true ↔ (∀ p ∈ c, p.2 ≠ 0) ∧ c.Pairwise (fun p q => p.1 < q.1) := by
  have tr : IsTrans Host.Cell (fun p q => p.1 < q.1) := ⟨fun _ _ _ => Nat.lt_trans⟩
  have : ∀ c : List Host.Cell, (c.zip c.tail).all (fun p => p.1.1 < p.2.1) = true ↔ c.Pairwise (fun p q => p.1 < q.1) := by
    intro c
    rw [← List.isChain_iff_pairwise]
    induction c with
    | nil => simp
    | cons p t ih =>
      cases t with
      | nil => simp
      | cons q u =>
        simp only [List.tail_cons] at ih ⊢
        rw [List.zip_cons_cons, List.all_cons, Bool.and_eq_true, ih, List.isChain_cons_cons]
        simp
  simp only [Memory.wf, Bool.and_eq_true, this]
  simp

theorem mem_sset {α : Type} (m : SMap α) (k : Nat) (v : α) (p : Nat × α) (h : p ∈ sset m k v) : p = (k, v) ∨ p ∈ m := by
  induction m with
  | nil => simpa [sset] using h
  | cons q t ih =>
    obtain ⟨k', v'⟩ := q
    rw [sset] at h
    split at h
    · simpa using h
    · split at h
      · rcases List.mem_cons.mp h with h | h
        · exact .inl h
        · exact .inr (List.mem_cons_of_mem _ h)
      · rcases List.mem_cons.mp h with h | h
        · exact .inr (h ▸ List.mem_cons_self)
        · exact (ih h).imp id (List.mem_cons_of_mem _)

theorem sset_pairwise {α : Type} (m : SMap α) (k : Nat) (v : α) (h : m.Pairwise (fun p q => p.1 < q.1)) :
    (sset m k v).Pairwise (fun p q => p.1 < q.1) := by
  induction m with
  | nil => simp [sset]
  | cons p t ih =>
    obtain ⟨k', v'⟩ := p
    have ⟨h1, h2⟩ := List.pairwise_cons.mp h
    rw [sset]
    split
    · rename_i hk
      refine List.pairwise_cons.mpr ⟨fun q hq => ?_, h⟩
      rcases List.mem_cons.mp hq with rfl | hq
      · exact hk
      · exact Nat.lt_trans hk (h1 q hq)
    · split
      · rename_i hk
        obtain rfl : k' = k := by simpa using hk
        exact List.pairwise_cons.mpr ⟨h1, h2⟩
      · rename_i hk1 hk2
        have hk2 : k' ≠ k := by simpa using hk2
        refine List.pairwise_cons.mpr ⟨fun q hq => ?_, ih h2⟩
        rcases mem_sset _ _ _ _ hq with rfl | hq
        · show k' < k; omega
        · exact h1 q hq

/-- A byte written at a home keeps memory canonical. -/
theorem homeSet_wf (h : Homes) (a : Nat) (b : Byte) (w : Memory.wf h.cells = true) :
    Memory.wf (homeSet h a b).cells = true := by
  rw [Memory.wf_iff] at w ⊢
  obtain ⟨w1, w2⟩ := w
  simp only [homeSet, cellSet]
  split
  · exact ⟨fun p hp => w1 p (List.mem_filter.mp hp).1, w2.filter _⟩
  · rename_i hb
    refine ⟨fun p hp => ?_, sset_pairwise _ _ _ w2⟩
    rcases mem_sset _ _ _ _ hp with rfl | hp
    · simpa using hb
    · exact w1 p hp

/-- A block written keeps memory canonical. -/
theorem homeWrite_wf (h : Homes) (a : Nat) (bs : List Byte) (w : Memory.wf h.cells = true) :
    Memory.wf (homeWrite h a bs).cells = true := by
  induction bs generalizing h a with
  | nil => exact w
  | cons b t ih => exact ih _ _ (homeSet_wf h a b w)

end Sys2Proof.Machine
end

