-- ==== Sys2Proof/Laws/Fetch.lean ====
section
/-! SUPPORT. Everything that translating, fetching and retiring can do (R322, R377, R379). -/

namespace Sys2Proof.Machine

theorem Mach.Walked.refl (m : Mach) (sid : Nat) (ad : Byte) : m.Walked m sid ad where
  rest := rfl
  dies _ := rfl
  own := rfl
  others _ _ := rfl
  mem _ := ⟨0, by simp, by simp⟩
  bad := rfl
  wf h := h

theorem Mach.Walked.trans {m n p : Mach} {sid : Nat} {ad : Byte} (h : m.Walked n sid ad) (k : n.Walked p sid ad) :
    m.Walked p sid ad where
  rest := by rw [k.rest, h.rest]
  dies i := by rw [k.dies, h.dies]
  own := by rw [k.own, h.own]
  others i hi := by rw [k.others i hi, h.others i hi]
  mem a := by
    obtain ⟨x, hx, ex⟩ := h.mem a
    obtain ⟨y, hy, ey⟩ := k.mem a
    refine ⟨x ||| y, ?_, by rw [ey, ex, BitVec.or_assoc]⟩
    rw [BitVec.and_or_distrib_right, hx, hy]; rfl
  bad := by rw [k.bad, h.bad]
  wf w := k.wf (h.wf w)

/-- A fetch's walk is one for any access. -/
theorem Mach.Walked.mono {m n : Mach} {sid : Nat} (h : m.Walked n sid 0x10) : m.Walked n sid 0x30 where
  rest := h.rest
  dies := h.dies
  own := h.own
  others := h.others
  mem a := by
    obtain ⟨k, hk, e⟩ := h.mem a
    refine ⟨k, ?_, e⟩
    clear e; revert k; decide
  bad := h.bad
  wf := h.wf

section
variable {m n : Mach} {sid : Nat} {ad : Byte} (h : m.Walked n sid ad)
include h
theorem Mach.Walked.parts : n.parts = m.parts := by rw [h.rest]
theorem Mach.Walked.ctxs : n.ctxs = m.ctxs := by rw [h.rest]
theorem Mach.Walked.ccs : n.ccs = m.ccs := by rw [h.rest]
theorem Mach.Walked.pcs : n.pcs = m.pcs := by rw [h.rest]
theorem Mach.Walked.jobs : n.jobs = m.jobs := by rw [h.rest]
theorem Mach.Walked.pend : n.pend = m.pend := by rw [h.rest]
theorem Mach.Walked.seq : n.seq = m.seq := by rw [h.rest]
theorem Mach.Walked.cur : n.cur = m.cur := by rw [h.rest]
theorem Mach.Walked.agenda : n.agenda = m.agenda := by rw [h.rest]
end

/-- A byte-wide OR of a number below 256. -/
theorem leBytes_one_or (x k : Nat) : leBytes 1 ((x ||| k) % 256) = [BitVec.ofNat 8 x ||| BitVec.ofNat 8 k] := by
  simp only [leBytes, List.range_one, List.map_cons, List.map_nil, Nat.pow_zero, Nat.div_one, List.cons.injEq, and_true]
  apply BitVec.eq_of_toNat_eq
  simp [Nat.or_mod_two_pow (n := 8)]

theorem ofNat_leNat_homeRead (h : Homes) (a : Nat) : BitVec.ofNat 8 (leNat (homeRead h a 8)) = homeByte h a := by
  apply BitVec.eq_of_toNat_eq
  simp only [homeRead, List.range_succ_eq_map, List.map_cons, leNat, List.foldr_cons, BitVec.toNat_ofNat, Nat.add_zero]
  omega

theorem Mach.bankLog_walked (m : Mach) (die bank st a x : Nat) (sid : Nat) (ad : Byte) : m.Walked (m.bankLog die bank st a x) sid ad := by
  refine ⟨rfl, fun k => ?_, rfl, fun _ _ => rfl, fun _ => ⟨0, by simp, by simp; rfl⟩, rfl, id⟩
  rw [Mach.bankLog, Mach.die_modDie]
  split
  · rename_i h; subst h; rfl
  · rfl

/-- Correcting words that a read found with one wrong bit logs them on their dies, and does nothing else (R80). -/
theorem Mach.softWords_walked (m : Mach) (cx : Nat) (rd : Nat → Bool) (sid : Nat) (ad : Byte) : m.Walked (m.softWords cx rd) sid ad := by
  unfold Mach.softWords
  generalize m.homes.weak.filter _ = l
  induction l generalizing m with
  | nil => exact .refl ..
  | cons w t ih =>
    rw [List.foldl_cons]
    refine Mach.Walked.trans ?_ (ih _)
    exact m.bankLog_walked ..

theorem Mach.soft_walked (m : Mach) (cx : Nat) (hs : List Nat) (sid : Nat) (ad : Byte) : m.Walked (m.soft cx hs) sid ad :=
  m.softWords_walked ..

/-- What a walk can do: it sets A in the leaf it found, and D too when it walks for a store (R377), on the machine that reading the tables
left. -/
theorem Mach.walk_homes {m m' : Mach} {cx va : Nat} {wr : Bool} {lo hi ea psz : Nat} (sid : Nat) (ad : Byte)
    (h : m.walk cx va wr = .ok (m', lo, hi, ea, psz)) :
    ∃ (n : Mach) (hk : Nat) (k : Byte), m.Walked n sid ad ∧ k &&& ~~~(if wr then 0x30 else 0x10) = 0 ∧
      m' = { n with homes := homeWrite n.homes hk [homeByte n.homes hk ||| k] } := by
  have go (fuel lvl tbl : Nat) (host : Bool) (m0 : Mach)
      (h : Mach.walk.go cx va wr (cxPart cx) (m.part (cxPart cx)) fuel m0 lvl tbl host = .ok (m', lo, hi, ea, psz)) :
      ∃ (n : Mach) (hk : Nat) (k : Byte), m0.Walked n sid ad ∧ k &&& ~~~(if wr then 0x30 else 0x10) = 0 ∧
        m' = { n with homes := homeWrite n.homes hk [homeByte n.homes hk ||| k] } := by
    induction fuel generalizing lvl tbl host m0 with
    | zero => simp [Mach.walk.go] at h
    | succ f ih =>
      rw [Mach.walk.go] at h
      simp only at h
      generalize (if host = true then hostKey (tbl + 16 * walkIndex va lvl)
        else homeKey (cxPart cx) (tbl + 16 * walkIndex va lvl)) = hk at h
      split at h
      · cases h
      split at h
      · cases h
      split at h
      · cases h
      have hs := m0.soft_walked cx [hk] sid ad
      generalize m0.soft cx [hk] = n at h hs
      split at h
      · split at h
        · cases h
        · obtain ⟨p, x, k, h1, h2, h3⟩ := ih _ _ _ _ h
          exact ⟨p, x, k, hs.trans h1, h2, h3⟩
      split at h
      · cases h
      split at h
      · cases h
      simp only [Except.ok.injEq, Prod.mk.injEq] at h
      obtain ⟨rfl, -, -, -, -⟩ := h
      rw [Nat.or_assoc, leBytes_one_or, ofNat_leNat_homeRead]
      refine ⟨n, hk, _, hs, ?_, rfl⟩
      generalize bitOf (leNat (homeRead n.homes hk 8)) 2 = d
      clear * -
      revert wr d; decide
  exact go _ _ _ _ _ h

theorem Mach.walk_walked {m m' : Mach} {cx va : Nat} {wr : Bool} {lo hi ea psz : Nat} (sid : Nat)
    (h : m.walk cx va wr = .ok (m', lo, hi, ea, psz)) : m.Walked m' sid (if wr then 0x30 else 0x10) := by
  obtain ⟨n, hk, k, hw, h1, rfl⟩ := Mach.walk_homes sid (if wr then 0x30 else 0x10) h
  refine hw.trans ⟨rfl, fun _ => rfl, rfl, fun _ _ => rfl, fun a => ?_, by simp, homeWrite_wf _ _ _⟩
  by_cases ha : a = hk
  · subst ha; exact ⟨k, h1, by simp [homeByte_homeWrite]⟩
  · refine ⟨0, by simp, ?_⟩
    rw [homeByte_homeWrite, if_neg (by simp; omega)]; simp

/-- A machine whose stream only had its L1 changed. -/
theorem Mach.walked_l1 (m : Mach) (sid : Nat) (l : List Tlb) (ad : Byte) :
    m.Walked (m.modStr sid (fun s => { s with l1 := l })) sid ad where
  rest := rfl
  dies _ := rfl
  own := by simp
  others i hi := by simp [hi]
  mem _ := ⟨0, by simp, by simp⟩
  bad := rfl
  wf w := w

theorem Mach.walked_slices (m : Mach) (sid : Nat) (sl : SMap (List Tlb)) (ad : Byte) :
    m.Walked { m with slices := sl } sid ad := ⟨rfl, fun _ => rfl, rfl, fun _ _ => rfl, fun _ => ⟨0, by simp, by simp⟩, rfl, id⟩

theorem Mach.walked_side (m : Mach) (sid : Nat) (sl : SMap (List Tlb)) (b : Bool) (ad : Byte) :
    m.Walked { m with slices := sl, miss := b } sid ad := ⟨rfl, fun _ => rfl, rfl, fun _ _ => rfl, fun _ => ⟨0, by simp, by simp⟩, rfl, id⟩

theorem Mach.walked_miss (m : Mach) (sid : Nat) (b : Bool) (ad : Byte) :
    m.Walked { m with miss := b } sid ad := ⟨rfl, fun _ => rfl, rfl, fun _ _ => rfl, fun _ => ⟨0, by simp, by simp⟩, rfl, id⟩

/-- A translation that answers changed nothing but what `Walked` names. -/
theorem Mach.xlat_walked {m m' : Mach} {sid va : Nat} {nd : Need} {p : Pg} (h : m.xlat sid va nd = .ok (m', p)) :
    m.Walked m' sid (if nd.wr then 0x30 else 0x10) := by
  unfold Mach.xlat at h
  simp only at h
  have fill {n : Mach} (l : List Tlb → List Tlb) (hn : m.Walked n sid (if nd.wr then 0x30 else 0x10)) :
      m.Walked (n.modStr sid (fun s => { s with l1 := l s.l1 })) sid (if nd.wr then 0x30 else 0x10) :=
    hn.trans (n.walked_l1 sid (l (n.str sid).l1) _)
  split at h
  · cases h
  split at h
  · split at h <;> cases h
    exact fill (fun l => tlbFill l _ 64) (.refl ..)
  split at h
  · split at h <;> cases h
    exact fill (fun l => tlbFill l _ 64) (m.walked_side sid _ true _)
  split at h
  · cases h
  · rename_i hw
    split at h <;> cases h
    exact fill (fun l => tlbFill l _ 64)
      (((m.walked_miss sid true _).trans (Mach.walk_walked sid hw)).trans (Mach.walked_slices _ sid _ _))

/-- Fetching one word. -/
theorem Mach.fetchWord_walked (m : Mach) (sid a : Nat) : m.Walked (m.fetchWord sid a).1 sid 0x10 := by
  unfold Mach.fetchWord
  simp only
  split
  · exact .refl ..
  split
  · exact .refl ..
  · rename_i h
    split
    · exact Mach.xlat_walked h
    · exact (Mach.xlat_walked h).trans (Mach.soft_walked ..)

/-- Fetching an entry of the queue: its word address and binding are those asked for. -/
theorem Mach.fetch_walked (m : Mach) (sid a b : Nat) : m.Walked (m.fetch sid a b).1 sid 0x10
    ∧ (m.fetch sid a b).2.waddr = a % 2 ^ 24 ∧ (m.fetch sid a b).2.bank = b ∧ (m.fetch sid a b).2.annul = false := by
  unfold Mach.fetch
  simp only
  generalize a % 2 ^ 24 = w
  have h1 := m.fetchWord_walked sid w
  generalize m.fetchWord sid w = r at h1
  obtain ⟨n, _ | x⟩ := r
  · exact ⟨h1, rfl, rfl, rfl⟩
  dsimp only at h1 ⊢
  split
  · split
    · exact ⟨h1, rfl, rfl, rfl⟩
    have h2 := n.fetchWord_walked sid (w + 1)
    generalize n.fetchWord sid (w + 1) = r at h2
    obtain ⟨p, _ | y⟩ := r
    · exact ⟨h1.trans h2, rfl, rfl, rfl⟩
    have h3 := p.fetchWord_walked sid (w + 2)
    dsimp only at h2 ⊢
    generalize p.fetchWord sid (w + 2) = r at h3
    obtain ⟨q, _ | z⟩ := r <;> exact ⟨(h1.trans h2).trans h3, rfl, rfl, rfl⟩
  · exact ⟨h1, rfl, rfl, rfl⟩

/-- Everything that an advance of a fetch queue can do (R322). -/
theorem Mach.advance_spec (m : Mach) (now sid : Nat) (r : Option Nat) (an : Bool) :
    ∃ n e, m.Walked n sid 0x10 ∧ e.waddr = (r.getD (m.str sid).fq2.succ) % 2 ^ 24 ∧ e.bank = (m.str sid).dbank ∧
      m.advance now sid r an = n.modStr sid (fun s => { s with
        fq0 := if an then { s.fq1 with annul := true } else s.fq1
        fq1 := if an then { s.fq2 with annul := true } else s.fq2
        fq2 := e, lastIssue := m.jobCyc now (m.str sid).job (m.str sid).sel.lc, fresh := false, hold := .none,
        slots := s.slots - 1 }) := by
  have ⟨h, a, b, _⟩ := m.fetch_walked sid (r.getD (m.str sid).fq2.succ) (m.str sid).dbank
  exact ⟨_, _, h, a, b, rfl⟩

end Sys2Proof.Machine
end

