-- ==== Sys2Proof/Laws/Words.lean ====
section
/-! SUPPORT. What a word leaves when it retires, branches, is held or steps an engine stream: one lemma for each way a meaning ends, over
what it put in flight. -/

namespace Sys2Proof.Machine

/-- What charges and results in flight make of a machine: `ps` in flight behind the rest. -/
structure Mach.Puts (m n : Mach) (ps : List Pend) : Prop where
  rest : n = { m with ccs := n.ccs, ctxs := n.ctxs, pend := m.pend ++ ps, seq := n.seq }
  ccs : ∀ i, (n.cct i).plain = (m.cct i).plain
  ctxs : ∀ i, (n.ctx i).plain = (m.ctx i).plain

theorem Mach.Puts.refl (m : Mach) : m.Puts m [] := ⟨by simp, fun _ => rfl, fun _ => rfl⟩

theorem Cctx.chargeQ_plain (c : Cctx) (q : Nat) : (c.chargeQ q).plain = c.plain := by
  simp only [Cctx.chargeQ]; split <;> rfl

theorem Cctx.keepEcl_plain (c : Cctx) (n : Nat) : (c.keepEcl n).plain = c.plain := by
  simp only [Cctx.keepEcl]; split <;> rfl

theorem Mach.chargeRegion_plain (m : Mach) (cx r n i : Nat) : ((m.chargeRegion cx r n).ctx i).plain = (m.ctx i).plain := by
  rw [Mach.chargeRegion, Mach.ctx_modCtx]
  split
  · rename_i h; subst h
    simp only [Context.plain, List.map_map]
    congr 1
    apply List.map_congr_left
    intro p _
    simp only [Function.comp]
    split <;> rfl
  · rfl

theorem Mach.chargeAt_plain (m : Mach) (cc k u i : Nat) : ((m.chargeAt cc k u).cct i).plain = (m.cct i).plain := by
  rw [Mach.chargeAt, Mach.cct_modCct]
  split
  · rename_i h; subst h; exact (Cctx.chargeQ_plain ..).trans (Cctx.keepEcl_plain ..)
  · rfl

/-- A charge changes nothing but energy accumulators (R360, R364). -/
theorem Mach.charge_puts (m : Mach) (k u : Nat) : m.Puts (m.charge k u) [] := by
  refine ⟨by simp; rfl, fun i => ?_, fun i => ?_⟩
  · exact (congrArg Cctx.plain (Mach.cct_congr (Mach.chargeRegion_ccs ..) i)).trans (m.chargeAt_plain ..)
  · exact (Mach.chargeRegion_plain ..)

/-- A result put in flight by the executing stream (R105). -/
theorem Mach.pushAt_puts {m n : Mach} {ps : List Pend} (h : m.Puts n ps) (now due : Nat) (e : Eff) (o : Nat) (sp : Option Nat)
    (lt : Nat := 0) :
    m.Puts (n.pushAt now due e o sp lt) (ps ++ [{
      id := n.seq, job := m.cs.job, lc := m.clc, cc := m.ccc, sid := m.cur, due := due, ord := o, iss := m.ccyc now,
      spec := sp, late := lt, eff := e }]) := by
  refine ⟨?_, fun i => ?_, fun i => ?_⟩
  · rw [Mach.pushAt, Mach.newId]
    rw [h.rest]
    simp only [List.append_assoc]
    rfl
  · exact h.ccs i
  · exact h.ctxs i

/-- A result put in flight under a latency class: the `n`-th of a word that has put `n` in flight already. -/
theorem Mach.push_puts {s : State} {n : Mach} {ps : List Pend} (h : s.mach.Puts n ps) (hn : n.seq = s.mach.seq + ps.length)
    (k : Nat) (e : Eff) (o : Nat) :
    s.mach.Puts (n.push s.now k e o) (ps ++ [s.result ps.length k o e])
      ∧ (n.push s.now k e o).seq = s.mach.seq + (ps.length + 1) := by
  have hd : n.ccyc s.now + n.cj.latOf k - 1 = s.mach.ccyc s.now + s.mach.cj.latOf k - 1 := by rw [h.rest]; rfl
  have hl : n.cj.lateOf k = s.mach.cj.lateOf k := by rw [h.rest]; rfl
  refine ⟨?_, ?_⟩
  · have := Mach.pushAt_puts h s.now (n.ccyc s.now + n.cj.latOf k - 1) e o none (n.cj.lateOf k)
    rw [hd, hl, hn] at this
    rw [Mach.push, hd, hl]
    exact this
  · show n.seq + 1 = _
    omega

/-- A charge, then one result: what most scalar words do. -/
theorem State.charge_push (s : State) (c u k : Nat) (e : Eff) (o : Nat) :
    s.mach.Puts ((s.mach.charge c u).push s.now k e o) [s.result 0 k o e] :=
  (Mach.push_puts (s.mach.charge_puts c u) rfl k e o).1

theorem Mach.missPause_agenda (m : Mach) (now : Nat) :
    m.missPause now = { m with miss := (m.missPause now).miss, agenda := (m.missPause now).agenda } := by
  unfold Mach.missPause
  split
  · rfl
  · dsimp only
    split <;> rfl

/-- A machine whose only changes beside a translation's are results in flight, energy, events and its executing stream. -/
theorem State.quiet_of {s : State} {n p q : Mach} {ps : List Pend} (h : s.mach.Puts n ps) (hw : n.Walked p n.cur 0x10)
    (hq : q = { p with streams := q.streams, miss := q.miss, agenda := q.agenda })
    (ho : ∀ i, i ≠ s.mach.cur → q.str i = p.str i) : s.Quiet { s with mach := q } := by
  have hcur : n.cur = s.mach.cur := by rw [h.rest]
  have hh : q.homes = p.homes := by rw [hq]
  have hn : n.homes = s.mach.homes := by rw [h.rest]
  have hd : q.dies = p.dies := by rw [hq]
  refine ⟨rfl, ?_, fun i hi => ?_, fun i => ?_, fun i => ?_, fun k => ?_, fun a => ?_, fun w => ?_⟩
  · show q = _
    rw [hq, hw.rest, h.rest]
  · show q.str i = _
    rw [ho i hi, hw.others i (hcur ▸ hi)]
    exact Mach.str_congr (by rw [h.rest]) i
  · rw [← h.ccs i]
    exact congrArg Cctx.plain (Mach.cct_congr (by show q.ccs = _; rw [hq]; exact hw.ccs) i)
  · rw [← h.ctxs i]
    exact congrArg Context.plain (Mach.ctx_congr (by show q.ctxs = _; rw [hq]; exact hw.ctxs) i)
  · show (q.die k).plain = _
    rw [Mach.die, hd]
    refine (hw.dies k).trans ?_
    rw [h.rest]; rfl
  · show ∃ k, _ ∧ homeByte q.homes a = _
    rw [hh, ← hn]; exact hw.mem a
  · show Memory.wf q.homes.cells = true
    rw [hh]; exact hw.wf (by rw [hn]; exact w)

/-- How every ending of a word shows: `q` is the machine before a miss is accounted for, its executing stream `x`. -/
theorem State.settled {s : State} {n p q : Mach} {ps : List Pend} {x : Stream} (h : s.mach.Puts n ps) (hw : n.Walked p n.cur 0x10)
    (hq : q = { p with streams := q.streams }) (ho : ∀ i, i ≠ s.mach.cur → q.str i = p.str i) (hx : q.str s.mach.cur = x) :
    s.Quiet { s with mach := q.missPause s.now } ∧ (q.missPause s.now).cs = x ∧ (q.missPause s.now).pend = s.mach.pend ++ ps := by
  have hm := Mach.missPause_agenda q s.now
  have hs : (q.missPause s.now).streams = q.streams := by rw [hm]
  refine ⟨State.quiet_of h hw ?_ fun i hi => ?_, ?_, ?_⟩
  · rw [hm, hq]
  · rw [Mach.str_congr hs]; exact ho i hi
  · have : (q.missPause s.now).cur = s.mach.cur := by rw [hm]; show q.cur = _; rw [hq]; show p.cur = _; rw [hw.cur, h.rest]
    rw [Mach.cs, this, Mach.str_congr hs]; exact hx
  · rw [hm]; show q.pend = _; rw [hq]; show p.pend = _; rw [hw.pend, h.rest]

/-- The executing stream after a fetch, but for its L1. -/
theorem State.walked_cs {s : State} {n p : Mach} {ps : List Pend} (h : s.mach.Puts n ps) (hw : n.Walked p n.cur 0x10) :
    p.str s.mach.cur = { s.mach.cs with l1 := (p.str s.mach.cur).l1 } := by
  have hcur : n.cur = s.mach.cur := by rw [h.rest]
  have := hw.own
  rw [hcur] at this
  rw [this, Mach.str_congr (m := n) (n := s.mach) (by rw [h.rest])]
  rfl

/-- A scalar word retired after it put `ps` in flight (R322). -/
theorem State.go_retired {s : State} {n : Mach} {ps : List Pend} (hs : s.onScalar) (h : s.mach.Puts n ps) :
    s.Retired { s with mach := (Res.go n).finish s.now } ps := by
  have hcur : n.cur = s.mach.cur := by rw [h.rest]
  have hcs : n.str n.cur = s.mach.cs := by rw [hcur, Mach.str_congr (m := n) (n := s.mach) (by rw [h.rest])]; rfl
  have hcyc : n.jobCyc s.now s.mach.cs.job s.mach.cs.sel.lc = s.mach.ccyc s.now := by rw [h.rest]; rfl
  obtain ⟨p, e, hw, hwa, -, he⟩ := n.advance_spec s.now n.cur none false
  have hr : (Res.go n).settle s.now = n.advance s.now n.cur none false := by
    rw [Res.settle, Mach.retire, if_pos]
    show ((n.str n.cur).sel.cls == _) = true
    rw [hcs, show s.mach.cs.sel.cls = .scalar from hs]; rfl
  rw [hcs, hcyc, hcur] at he
  rw [hcs] at hwa
  have hx := congrArg (fun m => m.str s.mach.cur) he
  simp only [Mach.str_modStr_same] at hx
  rw [State.walked_cs h hw] at hx
  have ⟨q1, q2, q3⟩ := State.settled h hw (q := n.advance s.now s.mach.cur none false) (by rw [he]; rfl)
    (fun i hi => by rw [he, Mach.str_modStr_ne _ _ hi]) hx
  rw [← hcur] at q1 q2 q3
  refine ⟨by rw [Res.finish, hr]; exact q1, ?_, by rw [Res.finish, hr]; exact q3⟩
  show _ ∧ _
  rw [Res.finish, hr]
  show (Mach.missPause _ _).cs = _ ∧ (Mach.missPause _ _).cs.fq2.waddr = _
  rw [q2]
  exact ⟨rfl, hwa⟩

/-- A branch or jump retired after it put `ps` in flight (R322, R325). -/
theorem State.br_branched {s : State} {n : Mach} {ps : List Pend} (h : s.mach.Puts n ps) (r : Option Nat) (an : Bool) :
    s.Branched { s with mach := (Res.br n r an).finish s.now } r an ps := by
  have hcur : n.cur = s.mach.cur := by rw [h.rest]
  have hcs : n.str n.cur = s.mach.cs := by rw [hcur, Mach.str_congr (m := n) (n := s.mach) (by rw [h.rest])]; rfl
  have hcyc : n.jobCyc s.now s.mach.cs.job s.mach.cs.sel.lc = s.mach.ccyc s.now := by rw [h.rest]; rfl
  obtain ⟨p, e, hw, hwa, -, he⟩ := n.advance_spec s.now n.cur r an
  rw [hcs, hcyc, hcur] at he
  rw [hcs] at hwa
  have hx : ((Res.br n r an).settle s.now).str s.mach.cur = { s.mach.cs with
      fq0 := if an then { s.mach.cs.fq1 with annul := true } else s.mach.cs.fq1
      fq1 := if an then { s.mach.cs.fq2 with annul := true } else s.mach.cs.fq2
      fq2 := e, l1 := (p.str s.mach.cur).l1, lastIssue := s.mach.ccyc s.now, fresh := false, hold := .none, slots := 2 } := by
    rw [Res.settle, hcur, he, Mach.str_modStr_same, Mach.str_modStr_same, State.walked_cs h hw]
  have ⟨q1, q2, q3⟩ := State.settled h hw (q := (Res.br n r an).settle s.now) (by rw [Res.settle, hcur, he]; rfl)
    (fun i hi => by rw [Res.settle, hcur, he, Mach.str_modStr_ne _ _ hi, Mach.str_modStr_ne _ _ hi]) hx
  refine ⟨q1, ?_, q3⟩
  show _ ∧ _
  rw [Res.finish]
  show (Mach.missPause _ _).cs = _ ∧ (Mach.missPause _ _).cs.fq2.waddr = _
  rw [q2]
  exact ⟨rfl, hwa⟩

/-- A word held, after it put `ps` in flight (R324). -/
theorem State.hold_held {s : State} {n : Mach} {ps : List Pend} (h : s.mach.Puts n ps) (w : Hold) :
    s.Held { s with mach := (Res.hold n w).finish s.now } w ps := by
  have hcur : n.cur = s.mach.cur := by rw [h.rest]
  have hcs : n.str n.cur = s.mach.cs := by rw [hcur, Mach.str_congr (m := n) (n := s.mach) (by rw [h.rest])]; rfl
  have hx : ((Res.hold n w).settle s.now).str s.mach.cur = { s.mach.cs with hold := w } := by
    rw [Res.settle, ← hcur, Mach.str_modStr_same, hcs]
  have ⟨q1, q2, q3⟩ := State.settled h (.refl ..) (q := (Res.hold n w).settle s.now) (by rfl)
    (fun i hi => by rw [Res.settle, hcur, Mach.str_modStr_ne _ _ hi]) hx
  exact ⟨q1, q2, q3⟩

/-- A micro-order retired after it put `ps` in flight (R41). -/
theorem State.go_stepped {s : State} {n : Mach} {ps : List Pend} (hs : s.onEngine) (hl : n.curLen = s.mach.curLen)
    (h : s.mach.Puts n ps) : s.Stepped { s with mach := (Res.go n).finish s.now } ps := by
  have hcur : n.cur = s.mach.cur := by rw [h.rest]
  have hcs : n.str n.cur = s.mach.cs := by rw [hcur, Mach.str_congr (m := n) (n := s.mach) (by rw [h.rest])]; rfl
  have hcyc : n.jobCyc s.now s.mach.cs.job s.mach.cs.sel.lc = s.mach.ccyc s.now := by rw [h.rest]; rfl
  have hr : (Res.go n).settle s.now = n.stepOn s.now n.cur n.curLen := by
    rw [Res.settle, Mach.retire, if_neg]
    show ¬((n.str n.cur).sel.cls == _) = true
    rw [hcs]; simpa [State.onEngine] using hs
  have hx : ((Res.go n).settle s.now).str s.mach.cur = { s.mach.cs with
      step := s.mach.cs.step + s.mach.curLen, lastIssue := s.mach.ccyc s.now, fresh := false, hold := .none, wfifo := 0,
      state := if s.mach.cs.state == .waitToken then .running else s.mach.cs.state } := by
    rw [hr, ← hcur, Mach.stepOn, Mach.str_modStr_same, hcs, hl, hcyc]
  have ⟨q1, q2, q3⟩ := State.settled h (.refl ..) (q := (Res.go n).settle s.now) (by rw [hr]; rfl)
    (fun i hi => by rw [hr, Mach.stepOn, hcur, Mach.str_modStr_ne _ _ hi]) hx
  exact ⟨q1, q2, q3⟩

/-! ### The shared scalar operations -/

/-- A scalar operation always completes with its value in flight. -/
theorem scalarOp_retired (e k : Nat) (d : R) (v : Mach → Word) {s : State} (hs : s.onScalar) :
    ∃ t, scalarOp e k d v s = .next t ∧ s.Retired t (s.writes k d (v s.mach)) :=
  ⟨_, rfl, State.go_retired hs (s.charge_push e 1 k _ 0)⟩

theorem aluOp_yields {i : Instr} {d : R} {f : Mach → Word} {v : Word} {s : State} (hs : s.onScalar)
    (hi : exec i s = aluOp d f s) (hv : f s.mach = v) : s.yields i 0 d v := by
  subst hv; exact ⟨_, hi, State.go_retired hs (s.charge_push 0 1 0 _ 0)⟩

/-- A multiply-divide operation whose residue check passes (R173). -/
theorem mulOp_retired {k : Nat} {d : R} {v : Mach → Word} {ok : Mach → Bool} {f : Mach → Nat} {s : State} (hs : s.onScalar)
    (h : ok s.mach = true) : ∃ t, mulOp k d v ok f s = .next t ∧ s.Retired t (s.writes k d (v s.mach)
      ++ if f s.mach = 0 then [] else [s.result 1 k 1 (.flags (s.mach.cs.astatKey s.mach.cur) (f s.mach))]) := by
  refine ⟨_, rfl, ?_⟩
  simp only [h, Bool.not_true, Bool.false_eq_true, if_false, beq_iff_eq]
  by_cases h0 : f s.mach = 0
  · simp only [h0, if_true, List.append_nil]
    exact State.go_retired hs (s.charge_push 1 1 k _ 0)
  · simp only [h0, if_false]
    exact State.go_retired hs (Mach.push_puts (ps := [_]) (s.charge_push 1 1 k _ 0) rfl k _ 1).1

theorem residueMul_self (a b : Nat) : residueMul a b (a * b) = true := by simp [residueMul, Nat.mul_mod]
theorem residueDiv_self (a b : Nat) : residueDiv a b (a / b) (a % b) = true := by
  unfold residueDiv
  simp only [Bool.or_eq_true, beq_iff_eq]
  right
  conv => rhs; rw [← Nat.div_add_mod' a b]
  rw [Nat.add_mod, Nat.mul_mod]
  simp

end Sys2Proof.Machine
end

