-- ==== Sys2Proof/Laws/Engine.lean ====
section
/-! SUPPORT. What a micro-order leaves when it issues: one lemma over `microWord`, which every engine instruction goes through, and one for
each shared vector operation. -/

namespace Sys2Proof.Machine

theorem sset_sset {α : Type} (m : SMap α) (k : Nat) (v w : α) : sset (sset m k v) k w = sset m k w := by
  induction m with
  | nil => simp [sset]
  | cons p t ih =>
    obtain ⟨k', v'⟩ := p
    simp only [sset]
    by_cases h1 : k < k'
    · simp [h1, sset]
    · by_cases h2 : k' = k
      · simp [h2, sset]
      · simp [h1, h2, sset, ih]

theorem Mach.modStr_modStr (m : Mach) (i : Nat) (f g : Stream → Stream) : (m.modStr i f).modStr i g = m.modStr i (fun x => g (f x)) := by
  rw [Mach.modStr, Mach.str_modStr_same]
  simp [Mach.modStr, Mach.setStr, sset_sset]

theorem Cctx.plain_fifos (c : Cctx) (f : SMap Fifo) : ({ c with fifos := f } : Cctx).plain = { c.plain with fifos := f } := rfl

/-- Fifos changed in the same way on two machines that agree but for energy. -/
theorem Mach.Puts.fifos {m n : Mach} {ps : List Pend} (h : m.Puts n ps) (cc : Nat) (g : SMap Fifo → SMap Fifo) :
    (m.modCct cc (fun c => { c with fifos := g c.fifos })).Puts (n.modCct cc (fun c => { c with fifos := g c.fifos })) ps := by
  refine ⟨?_, fun i => ?_, fun i => h.ctxs i⟩
  · conv => lhs; rw [h.rest]
    rfl
  · rw [Mach.cct_modCct, Mach.cct_modCct]
    split
    · have := h.ccs cc
      rw [Cctx.plain_fifos, Cctx.plain_fifos, this]
      have e := congrArg Cctx.fifos this
      simp only [Cctx.plain] at e
      rw [e]; rfl
    · exact h.ccs i

theorem Mach.Puts.modStr {m n : Mach} {ps : List Pend} (h : m.Puts n ps) (i : Nat) (f : Stream → Stream) :
    (m.modStr i f).Puts (n.modStr i f) ps := by
  refine ⟨?_, h.ccs, h.ctxs⟩
  have : n.str i = m.str i := Mach.str_congr (by rw [h.rest]) i
  rw [Mach.modStr, Mach.modStr, this]
  conv => lhs; rw [h.rest]
  rfl

theorem Mach.Puts.after {m n : Mach} {ps : List Pend} (h : m.Puts n ps) (now b : Nat) (e : Instr) (a : List Nat) :
    (m.after now b e a).Puts (n.after now b e a) ps := by
  refine ⟨?_, h.ccs, h.ctxs⟩
  conv => lhs; rw [h.rest]
  rfl

/-- Agreement but for energy, with the same number of results in flight. -/
theorem Mach.Puts.pend_nil {m n : Mach} (h : m.Puts n []) : n.pend = m.pend := by rw [h.rest]; simp

theorem Mach.Puts.fifo {m n : Mach} {ps : List Pend} (h : m.Puts n ps) (cc : Nat) : (n.cct cc).fifos = (m.cct cc).fifos := by
  simpa only [Cctx.plain] using congrArg Cctx.fifos (h.ccs cc)

/-- What moving a pending signal up can do: it puts one result in flight, or nothing (R339). -/
theorem Mach.pendUp_rest (m : Mach) (p : Pend) (f due : Nat) :
    m.pendUp p f due = { m with pend := (m.pendUp p f due).pend, seq := (m.pendUp p f due).seq } := by
  unfold Mach.pendUp; dsimp only; split <;> rfl

theorem Mach.Puts.pendUp {m n : Mach} (h : m.Puts n []) (hs : n.seq = m.seq) (p : Pend) (f due : Nat) :
    (m.pendUp p f due).Puts (n.pendUp p f due) [] ∧ (n.pendUp p f due).seq = (m.pendUp p f due).seq := by
  unfold Mach.pendUp
  simp only [h.fifo, h.pend_nil, hs]
  split
  · exact ⟨h, hs⟩
  · refine ⟨⟨?_, h.ccs, h.ctxs⟩, rfl⟩
    conv => lhs; rw [h.rest]
    simp

/-- What taking a token can do: it counts, may put a pending signal in flight, and may return a credit (R44, R45, R339). -/
theorem Mach.takeToken_rest (m : Mach) (now : Nat) (w : Option Nat) :
    m.takeToken now w = { m with ccs := (m.takeToken now w).ccs, agenda := (m.takeToken now w).agenda,
                                 fresh := (m.takeToken now w).fresh, pend := (m.takeToken now w).pend, seq := (m.takeToken now w).seq } := by
  cases w with
  | none => rfl
  | some f =>
    simp only [Mach.takeToken]
    split
    · rw [Mach.pendUp_rest]; rfl
    · rw [Mach.pendUp_rest]; rfl

theorem Mach.Puts.takeToken {m n : Mach} (h : m.Puts n []) (hs : n.seq = m.seq) (now : Nat) (w : Option Nat) :
    (m.takeToken now w).Puts (n.takeToken now w) [] ∧ (n.takeToken now w).seq = (m.takeToken now w).seq := by
  cases w with
  | none => exact ⟨h, hs⟩
  | some f =>
    have e1 : n.ccc = m.ccc := by rw [h.rest]; rfl
    have e2 : n.cs = m.cs := by rw [h.rest]; rfl
    have e4 : n.cur = m.cur := by rw [h.rest]
    have e5 : n.clc = m.clc := by rw [h.rest]; rfl
    have e6 : n.ccyc now = m.ccyc now := by rw [h.rest]; rfl
    have e3 : ∀ (x : Mach) (g : Cctx → Cctx), (x.modCct m.ccc g).cs = x.cs ∧ (x.modCct m.ccc g).cur = x.cur ∧
      (x.modCct m.ccc g).clc = x.clc ∧ (x.modCct m.ccc g).ccyc now = x.ccyc now := fun _ _ => ⟨rfl, rfl, rfl, rfl⟩
    simp only [Mach.takeToken, e1, e3, e2, e4, e5, e6]
    have k := (h.fifos m.ccc (fun g => smod g f {} (fun x => { x with count := x.count - 1 }))).pendUp hs
      { id := 0, job := m.cs.job, lc := m.clc, cc := m.ccc, sid := m.cur, due := 0, eff := .tokUp f } f (m.ccyc now + 1)
    have e7 : ∀ (x : Mach) (p : Pend) (d : Nat), (x.pendUp p f d).cs = x.cs ∧ (x.pendUp p f d).cur = x.cur ∧
        (x.pendUp p f d).periodOf x.cur = x.periodOf x.cur := by
      intro x p d; rw [x.pendUp_rest]; exact ⟨rfl, rfl, rfl⟩
    have e8 : n.periodOf m.cur = m.periodOf m.cur := by rw [h.rest]; rfl
    generalize hA : (m.modCct m.ccc (fun c => { c with fifos := smod c.fifos f {} (fun x => { x with count := x.count - 1 }) })).pendUp _ f _ = A at k ⊢
    generalize hB : (n.modCct m.ccc (fun c => { c with fifos := smod c.fifos f {} (fun x => { x with count := x.count - 1 }) })).pendUp _ f _ = B at k ⊢
    have a1 : A.cs = m.cs ∧ A.cur = m.cur ∧ A.periodOf m.cur = m.periodOf m.cur := by rw [← hA, Mach.pendUp_rest]; exact ⟨rfl, rfl, rfl⟩
    have b1 : B.cs = m.cs ∧ B.cur = m.cur ∧ B.periodOf m.cur = m.periodOf m.cur := by
      rw [← hB, Mach.pendUp_rest]; exact ⟨e2, e4, e8⟩
    rw [a1.1, b1.1, a1.2.1, b1.2.1, a1.2.2, b1.2.2]
    split
    · exact ⟨k.1.after _ _ _ _, k.2⟩
    · exact k

theorem Mach.takeToken_fifos (m : Mach) (now cc : Nat) (w : Option Nat) (x : Mach) (h : x.ccc = m.ccc)
    (hf : (x.cct cc).fifos = (m.cct cc).fifos) : ((x.takeToken now w).cct cc).fifos = ((m.takeToken now w).cct cc).fifos := by
  cases w with
  | none => exact hf
  | some f =>
    have key : ∀ y : Mach, ((y.takeToken now (some f)).cct cc).fifos = ((y.modCct y.ccc (fun c => { c with
        fifos := smod c.fifos f {} (fun x => { x with count := x.count - 1 }) })).cct cc).fifos := by
      intro y
      simp only [Mach.takeToken]
      split <;> rw [Mach.pendUp_rest] <;> rfl
    rw [key, key, h, Mach.cct_modCct, Mach.cct_modCct]
    split
    · subst cc; rw [hf]
    · exact hf

@[simp] theorem Mach.puts_nil (m : Mach) : m.puts [] = m := by simp [Mach.puts]
/-- Results in flight behind the rest, seen from the machine that holds them already. -/
theorem Mach.Puts.held {m n : Mach} {ps : List Pend} (h : m.Puts n ps) (hs : n.seq = m.seq + ps.length) : (m.puts ps).Puts n [] :=
  ⟨by conv => lhs; rw [h.rest, hs]
      simp [Mach.puts, hs], h.ccs, h.ctxs⟩

/-- A micro-order whose checks pass and whose effect leaves `m'`, that is `q` but for energy, issues (R41, R44 to R46, R51). -/
theorem microWord_issues_at {tok : Tok} {bad late : Mach → Option FCode} {path : Bool} {w : Mach → Option Nat} {body : Nat → Mach → Eng}
    {s : State} {i : Instr} {q m' : Mach} {due ord : Nat}
    (hr : s.microReady tok path (w s.mach)) (hi : exec i s = microWord tok bad late path w body s)
    (hb : bad s.mach = none) (hl : late s.mach = none) (hbody : body s.now s.mach = .go m' due ord)
    (hq : q.Puts m' []) (hseq : m'.seq = q.seq) (hcur : q.cur = s.mach.cur) (hlen : q.curLen = s.mach.curLen)
    (hjobs : q.jobs = s.mach.jobs)
    (hstr : q.cs.job = s.mach.cs.job ∧ q.cs.sel = s.mach.cs.sel ∧ q.cs.state = s.mach.cs.state)
    (hf : (q.cct s.mach.ccc).fifos = (s.mach.cct s.mach.ccc).fifos) :
    s.issues i q tok due ord [] (w s.mach) := by
  have hnp : s.mach.cs.state ≠ .primed := by rcases hr.runs with h | h <;> simp [h]
  have hdry : (w s.mach).filter (fun f => (sget (s.mach.cct s.mach.ccc).fifos f {}).count == 0) = none := by
    cases h : w s.mach with
    | none => rfl
    | some f => simp [Option.filter, hr.waits f h]
  have hpe : (if tok.pe && !path then some FCode.illegalField else none) = none := by
    cases path with
    | true => simp
    | false => simp [hr.path rfl]
  have hcur' : m'.cur = q.cur := by rw [hq.rest]
  have htc : ∀ (x : Mach) (o : Option Nat), (x.takeToken s.now o).cur = x.cur := fun x o => by rw [x.takeToken_rest]
  have hts : ∀ (x : Mach) (o : Option Nat), (x.takeToken s.now o).streams = x.streams := fun x o => by rw [x.takeToken_rest]
  have htj : ∀ (x : Mach) (o : Option Nat), (x.takeToken s.now o).jobs = x.jobs := fun x o => by rw [x.takeToken_rest]
  obtain ⟨G, hG⟩ : ∃ G : Stream → Stream, (fun x => { x with
    state := if x.state == .waitToken then .running else x.state, wfifo := 0, spec := (s.mach.pathOf tok).isSome }) = G := ⟨_, rfl⟩
  generalize hM : (m'.takeToken s.now (w s.mach)).modStr m'.cur G = M
  have hP : ((q.takeToken s.now (w s.mach)).modStr q.cur G).Puts M [] := by
    rw [← hM, hcur']; exact (hq.takeToken hseq ..).1.modStr ..
  have hMcur : M.cur = s.mach.cur := by rw [← hM]; show (m'.takeToken _ _).cur = _; rw [htc, hcur', hcur]
  have hMcs : M.cs = G m'.cs := by
    rw [Mach.cs, hMcur, ← hM, hcur', hcur, Mach.str_modStr_same, Mach.str_congr (hts ..), Mach.cs, hcur', hcur]
  have hm's : m'.cs = q.cs := by rw [hq.rest]; rfl
  have hMccc : M.ccc = s.mach.ccc := by
    have : M.cj = s.mach.cj := by
      rw [Mach.cj, Mach.cj, hMcs, hm's, ← hG]
      show M.job q.cs.job = _
      rw [hstr.1]
      refine Mach.job_congr ?_ _
      rw [← hM]; show (m'.takeToken _ _).jobs = _; rw [htj, hq.rest]; exact hjobs
    rw [Mach.ccc, Mach.ccc, this, Mach.clc, Mach.clc, hMcs, hm's, ← hG]
    show ccKey _ q.cs.sel.lc = _
    rw [hstr.2.1]
  have hMst : M.cs.state ≠ .primed := by
    rw [hMcs, hm's, ← hG]
    show (if q.cs.state == .waitToken then SState.running else q.cs.state) ≠ .primed
    rw [hstr.2.2]
    split
    · simp
    · exact hnp
  have hMf : (M.cct s.mach.ccc).fifos = ((s.mach.takeToken s.now (w s.mach)).cct s.mach.ccc).fifos := by
    rw [← hM]
    show ((m'.takeToken _ _).cct _).fifos = _
    refine Mach.takeToken_fifos s.mach s.now s.mach.ccc _ m' ?_ ?_
    · have : m'.cj = s.mach.cj := by
        rw [Mach.cj, Mach.cj, hm's, hstr.1]
        exact Mach.job_congr (by rw [hq.rest]; exact hjobs) _
      rw [Mach.ccc, Mach.ccc, this, Mach.clc, Mach.clc, hm's, hstr.2.1]
    · rw [← hf]
      have := congrArg Cctx.fifos (hq.ccs s.mach.ccc)
      simpa only [Cctx.plain] using this
  have hN : exec i s = .next { s with mach := (Res.go (if tok.se then
      (M.modCct M.ccc (fun c => { c with fifos := smod c.fifos tok.sfifo.toNat {} (fun x => { x with inflight := x.inflight + 1 }) })).pushAt
        s.now due (.sig tok.sfifo.toNat) ord (s.mach.pathOf tok) else M)).finish s.now } := by
    rw [hi]
    simp only [microWord, onWord, onMach]
    congr 3
    simp only [hb, hl, hdry, hpe, Option.none_or, Option.isSome_none, Bool.false_and, Bool.false_eq_true, if_false, hbody]
    rw [htc, Mach.modStr_modStr]
    have hM2 : (m'.takeToken s.now (w s.mach)).modStr m'.cur (fun x => G x) = M := hM
    subst hG
    dsimp only at hM2 ⊢
    rw [hM2]
    by_cases hse : tok.se = true
    · have hro := hr.room hse
      rw [← hMf] at hro
      simp only [hse, if_true, hMccc, hro, Bool.not_true, Bool.false_eq_true, if_false]
      have : ¬((M.cs.state == SState.primed) = true) := by simpa using hMst
      exact congrArg Res.go (if_neg this)
    · simp only [hse, Bool.false_eq_true, if_false]
  have htl : ∀ (x : Mach) (o : Option Nat), (x.takeToken s.now o).curLen = x.curLen := fun x o => by rw [x.takeToken_rest]
  have hMlen : M.curLen = s.mach.curLen := by
    rw [← hM]; show (m'.takeToken _ _).curLen = _; rw [htl, hq.rest]; exact hlen
  have hBs : ((q.takeToken s.now (w s.mach)).modStr q.cur G).cs = G q.cs := by
    have : ((q.takeToken s.now (w s.mach)).modStr q.cur G).cur = q.cur := htc ..
    rw [Mach.cs, this, Mach.str_modStr_same, Mach.str_congr (hts ..)]; rfl
  have hBe : ((q.takeToken s.now (w s.mach)).modStr q.cur G).cs.sel.cls ≠ .scalar := by
    rw [hBs, ← hG]; show q.cs.sel.cls ≠ _; rw [hstr.2.1]; exact hr.engine
  have hBl : ((q.takeToken s.now (w s.mach)).modStr q.cur G).curLen = M.curLen := by
    rw [hMlen]; show (q.takeToken _ _).curLen = _; rw [htl]; exact hlen
  have hBc : ((q.takeToken s.now (w s.mach)).modStr q.cur G).ccc = s.mach.ccc := by
    rw [← hMccc]; symm
    rw [hP.rest]; rfl
  have hMs : ((q.takeToken s.now (w s.mach)).modStr q.cur G).seq = M.seq := by
    rw [← hM]; exact (hq.takeToken hseq ..).2.symm
  have hqccc : q.ccc = s.mach.ccc := by
    have : q.cj = s.mach.cj := by rw [Mach.cj, Mach.cj, hstr.1]; exact Mach.job_congr hjobs _
    rw [Mach.ccc, Mach.ccc, this, Mach.clc, Mach.clc, hstr.2.1]
  generalize hBB : (q.takeToken s.now (w s.mach)).modStr q.cur G = B at *
  have hqq : (q.puts []).tokened s.now tok (s.mach.pathOf tok) (w s.mach) = if tok.se then
      B.modCct B.ccc (fun c => { c with fifos := smod c.fifos tok.sfifo.toNat {} (fun x => { x with inflight := x.inflight + 1 }) }) else B := by
    rw [← hBB, Mach.puts_nil]
    subst hG
    rfl
  by_cases hse : tok.se = true
  · simp only [hse, if_true] at hqq hN
    rw [hBc] at hqq
    refine ⟨_, hN, ?_⟩
    simp only [State.signalled, hse, if_true, hqq]
    have h1 := hP.fifos s.mach.ccc (fun g => smod g tok.sfifo.toNat {} (fun x => { x with inflight := x.inflight + 1 }))
    have h2 := Mach.pushAt_puts h1 s.now due (.sig tok.sfifo.toNat) ord (s.mach.pathOf tok)
    rw [hMccc]
    refine State.go_stepped (s := s.on _) hBe hBl.symm ?_
    have e : ({ (s.on (B.modCct s.mach.ccc (fun c => { c with fifos := smod c.fifos tok.sfifo.toNat {} (fun x =>
        { x with inflight := x.inflight + 1 }) }))).resultAt 0 due ord (.sig tok.sfifo.toNat) with spec := s.mach.pathOf tok } : Pend) =
        { id := M.seq, job := B.cs.job, lc := B.clc, cc := B.ccc, sid := B.cur, due := due, ord := ord, iss := B.ccyc s.now,
          spec := s.mach.pathOf tok, eff := .sig tok.sfifo.toNat } := by
      rw [← hMs]; rfl
    rw [e]
    exact h2
  · simp only [hse, Bool.false_eq_true, if_false] at hqq hN
    refine ⟨_, hN, ?_⟩
    simp only [State.signalled, hse, Bool.false_eq_true, if_false, hqq]
    exact State.go_stepped (s := s.on _) hBe hBl.symm hP

/-- The same for one that puts `ps` in flight beside: its token fields come after them. -/
theorem microWord_issues {tok : Tok} {bad late : Mach → Option FCode} {path : Bool} {w : Mach → Option Nat} {body : Nat → Mach → Eng}
    {s : State} {i : Instr} {q m' : Mach} {ps : List Pend} {due ord : Nat}
    (hr : s.microReady tok path (w s.mach)) (hi : exec i s = microWord tok bad late path w body s)
    (hb : bad s.mach = none) (hl : late s.mach = none) (hbody : body s.now s.mach = .go m' due ord)
    (hq : q.Puts m' ps) (hseq : m'.seq = q.seq + ps.length) (hcur : q.cur = s.mach.cur) (hlen : q.curLen = s.mach.curLen)
    (hjobs : q.jobs = s.mach.jobs)
    (hstr : q.cs.job = s.mach.cs.job ∧ q.cs.sel = s.mach.cs.sel ∧ q.cs.state = s.mach.cs.state)
    (hf : (q.cct s.mach.ccc).fifos = (s.mach.cct s.mach.ccc).fifos) :
    s.issues i q tok due ord ps (w s.mach) := by
  have h := microWord_issues_at (q := q.puts ps) hr hi hb hl hbody (hq.held hseq) hseq hcur hlen hjobs hstr hf
  rw [State.issues, Mach.puts_nil] at h
  exact h

/-- Results of a vector micro-order put in flight (R59, R190). -/
theorem Mach.pushVec_puts {s : State} {n : Mach} (h : s.mach.Puts n []) (hn : n.seq = s.mach.seq) (due late : Nat) (e : VEnv)
    (o : VOut) : s.mach.Puts (n.pushVec s.now due late e o) (s.vecResults due late e o)
      ∧ (n.pushVec s.now due late e o).seq = s.mach.seq + (s.vecResults due late e o).length := by
  have step : ∀ {m : Mach} {ps : List Pend}, s.mach.Puts m ps → m.seq = s.mach.seq + ps.length → ∀ (x : Eff) (r : Nat),
      s.mach.Puts (m.pushAt s.now due x r none late) (ps ++ [s.resultAt ps.length due r x late]) ∧
      (m.pushAt s.now due x r none late).seq = s.mach.seq + (ps.length + 1) := by
    intro m ps hp hs x r
    refine ⟨?_, ?_⟩
    · have := Mach.pushAt_puts hp s.now due x r none late
      rw [hs] at this
      exact this
    · show m.seq + 1 = _; omega
  have hk : ∀ {m : Mach} {ps : List Pend}, s.mach.Puts m ps → m.cs.astatKey m.cur = s.mach.cs.astatKey s.mach.cur := by
    intro m ps hp; rw [hp.rest]; rfl
  have h0 : n.seq = s.mach.seq + ([] : List Pend).length := by simpa using hn
  let a := if o.ws.isEmpty then [] else [s.resultAt 0 due e.col (.vec e.unit e.col o.ws) late]
  let b := a ++ match o.mask with
    | none => []
    | some (k, v, km) => [s.resultAt a.length due e.col (.mask e.unit k v km) late]
  let m1 := if o.ws.isEmpty then n else n.pushAt s.now due (.vec e.unit e.col o.ws) e.col none late
  let m2 := match o.mask with
    | none => m1
    | some (k, v, km) => m1.pushAt s.now due (.mask e.unit k v km) e.col none late
  have h1 : s.mach.Puts m1 a ∧ m1.seq = s.mach.seq + a.length := by
    simp only [m1, a]
    split
    · exact ⟨h, h0⟩
    · exact step h h0 _ _
  have h2 : s.mach.Puts m2 b ∧ m2.seq = s.mach.seq + b.length := by
    simp only [m2, b]
    split
    · rw [List.append_nil]; exact h1
    · rw [List.length_append]; exact step h1.1 h1.2 _ _
  show s.mach.Puts (if (o.fl == 0) = true then m2 else m2.pushAt s.now due (.flags (m2.cs.astatKey m2.cur) o.fl) 1 none late)
      (if o.fl = 0 then b else b ++ [s.resultAt b.length due 1 (.flags (s.mach.cs.astatKey s.mach.cur) o.fl) late]) ∧
    (if (o.fl == 0) = true then m2 else m2.pushAt s.now due (.flags (m2.cs.astatKey m2.cur) o.fl) 1 none late).seq = s.mach.seq +
      (if o.fl = 0 then b else b ++ [s.resultAt b.length due 1 (.flags (s.mach.cs.astatKey s.mach.cur) o.fl) late]).length
  by_cases hf : o.fl = 0
  · simp only [hf, beq_self_eq_true, if_true]; exact h2
  · simp only [hf, beq_iff_eq, if_false, List.length_append]
    rw [hk h2.1]
    exact step h2.1 h2.2 _ _

/-- A vector micro-order on registers whose checks pass issues with its result in flight (R190). -/
theorem vecOp_issues {op : Nat} {mi : Micro} {types : List Nat} {rounds : Nat → Bool} {lat : Job → Nat} {en : Nat}
    {lim : VEnv → Bool} {f : VEnv → VOut} {s : State} {i : Instr} (hr : s.microReady mi.tail.tok false)
    (hi : exec i s = vecOp op mi types rounds lat en lim f s) (hc : s.mach.vecBad op mi types rounds = none)
    (hl : lim (s.mach.venv mi) = true) : s.vecIssues i mi lat (f (s.mach.venv mi)) := by
  have hb : s.mach.vecBadWord op mi types rounds = none := by
    have hh : vecHosts op s.mach.cs.sel.col = true := by
      by_contra hn
      have : vecHosts op (s.mach.venv mi).col = false := by simpa using (show ¬vecHosts op (s.mach.venv mi).col = true from hn)
      simp [Mach.vecBad, this] at hc
    simp only [Mach.vecBadWord, hh, Bool.not_true, Bool.false_eq_true, if_false]
    split
    · rfl
    · exact hc
  have hp := Mach.pushVec_puts (s.mach.charge_puts en 1) rfl (s.mach.ccyc s.now + lat s.mach.cj - 1) (s.mach.cj.lateBy lat) (s.mach.venv mi) (f (s.mach.venv mi))
  exact microWord_issues hr hi hb (by simp [hc, hl]) rfl hp.1 hp.2 rfl rfl rfl ⟨rfl, rfl, rfl⟩ rfl

/-- The same for one whose products are checked: a product formed as it should be passes (R213). -/
theorem vecMulOp_issues {op : Nat} {mi : Micro} {types : List Nat} {rounds : Nat → Bool} {lat : Job → Nat} {en : Nat}
    {lim : VEnv → Bool} {prods : VEnv → List (Nat × Nat × Nat)} {f : VEnv → VOut} {s : State} {i : Instr}
    (hr : s.microReady mi.tail.tok false) (hi : exec i s = vecMulOp op mi types rounds lat en lim prods f s)
    (hc : s.mach.vecBad op mi types rounds = none) (hl : lim (s.mach.venv mi) = true)
    (hp : (prods (s.mach.venv mi)).all (fun p => residueMul p.1 p.2.1 p.2.2) = true) :
    s.vecIssues i mi lat (f (s.mach.venv mi)) := by
  have hb : s.mach.vecBadWord op mi types rounds = none := by
    have hh : vecHosts op s.mach.cs.sel.col = true := by
      by_contra hn
      have : vecHosts op (s.mach.venv mi).col = false := by simpa using (show ¬vecHosts op (s.mach.venv mi).col = true from hn)
      simp [Mach.vecBad, this] at hc
    simp only [Mach.vecBadWord, hh, Bool.not_true, Bool.false_eq_true, if_false]
    split
    · rfl
    · exact hc
  have hq := Mach.pushVec_puts (s.mach.charge_puts en 1) rfl (s.mach.ccyc s.now + lat s.mach.cj - 1) (s.mach.cj.lateBy lat) (s.mach.venv mi) (f (s.mach.venv mi))
  exact microWord_issues hr hi hb (by simp [hc, hl]) (by simp [hp]) hq.1 hq.2 rfl rfl rfl ⟨rfl, rfl, rfl⟩ rfl

end Sys2Proof.Machine
end

