-- ==== Sys2Proof/Laws/Exec.lean ====
section
/-! SUPPORT. Each arm of `exec`, by itself: a proof about one instruction rewrites with its arm and never unfolds the whole match. -/

namespace Sys2Proof.Machine

theorem exec_add (d : R) (a : R) (b : R) (s : State) : exec (.add d a b) s = execAdd d a b s := rfl
theorem exec_sub (d : R) (a : R) (b : R) (s : State) : exec (.sub d a b) s = execSub d a b s := rfl
theorem exec_and (d : R) (a : R) (b : R) (s : State) : exec (.and d a b) s = execAnd d a b s := rfl
theorem exec_or (d : R) (a : R) (b : R) (s : State) : exec (.or d a b) s = execOr d a b s := rfl
theorem exec_xor (d : R) (a : R) (b : R) (s : State) : exec (.xor d a b) s = execXor d a b s := rfl
theorem exec_andn (d : R) (a : R) (b : R) (s : State) : exec (.andn d a b) s = execAndn d a b s := rfl
theorem exec_shl (d : R) (a : R) (b : R) (s : State) : exec (.shl d a b) s = execShl d a b s := rfl
theorem exec_shr (d : R) (a : R) (b : R) (s : State) : exec (.shr d a b) s = execShr d a b s := rfl
theorem exec_sar (d : R) (a : R) (b : R) (s : State) : exec (.sar d a b) s = execSar d a b s := rfl
theorem exec_min (d : R) (a : R) (b : R) (s : State) : exec (.min d a b) s = execMin d a b s := rfl
theorem exec_max (d : R) (a : R) (b : R) (s : State) : exec (.max d a b) s = execMax d a b s := rfl
theorem exec_minn (d : R) (a : R) (b : R) (s : State) : exec (.minn d a b) s = execMinn d a b s := rfl
theorem exec_maxn (d : R) (a : R) (b : R) (s : State) : exec (.maxn d a b) s = execMaxn d a b s := rfl
theorem exec_sel (d : R) (a : R) (b : R) (s : State) : exec (.sel d a b) s = execSel d a b s := rfl
theorem exec_clz (d : R) (a : R) (s : State) : exec (.clz d a) s = execClz d a s := rfl
theorem exec_popc (d : R) (a : R) (s : State) : exec (.popc d a) s = execPopc d a s := rfl
theorem exec_cmpCc (cc : Cond) (d : R) (a : R) (b : R) (s : State) : exec (.cmpCc cc d a b) s = execCmpCc cc d a b s := rfl
theorem exec_mul (d : R) (a : R) (b : R) (s : State) : exec (.mul d a b) s = execMul d a b s := rfl
theorem exec_mulh (d : R) (a : R) (b : R) (s : State) : exec (.mulh d a b) s = execMulh d a b s := rfl
theorem exec_mulhn (d : R) (a : R) (b : R) (s : State) : exec (.mulhn d a b) s = execMulhn d a b s := rfl
theorem exec_div (d : R) (a : R) (b : R) (s : State) : exec (.div d a b) s = execDiv d a b s := rfl
theorem exec_divn (d : R) (a : R) (b : R) (s : State) : exec (.divn d a b) s = execDivn d a b s := rfl
theorem exec_rem (d : R) (a : R) (b : R) (s : State) : exec (.rem d a b) s = execRem d a b s := rfl
theorem exec_remn (d : R) (a : R) (b : R) (s : State) : exec (.remn d a b) s = execRemn d a b s := rfl
theorem exec_addi (d : R) (a : R) (im : BitVec 15) (s : State) : exec (.addi d a im) s = execAddi d a im s := rfl
theorem exec_andi (d : R) (a : R) (im : BitVec 15) (s : State) : exec (.andi d a im) s = execAndi d a im s := rfl
theorem exec_ori (d : R) (a : R) (im : BitVec 15) (s : State) : exec (.ori d a im) s = execOri d a im s := rfl
theorem exec_xori (d : R) (a : R) (im : BitVec 15) (s : State) : exec (.xori d a im) s = execXori d a im s := rfl
theorem exec_shli (d : R) (a : R) (im : BitVec 15) (s : State) : exec (.shli d a im) s = execShli d a im s := rfl
theorem exec_shri (d : R) (a : R) (im : BitVec 15) (s : State) : exec (.shri d a im) s = execShri d a im s := rfl
theorem exec_sari (d : R) (a : R) (im : BitVec 15) (s : State) : exec (.sari d a im) s = execSari d a im s := rfl
theorem exec_movi (d : R) (im : BitVec 20) (s : State) : exec (.movi d im) s = execMovi d im s := rfl
theorem exec_movh (d : R) (im : BitVec 20) (s : State) : exec (.movh d im) s = execMovh d im s := rfl
theorem exec_ld (w : Width) (d : R) (a : R) (off : BitVec 12) (s : State) : exec (.ld w d a off) s = execLd w d a off s := rfl
theorem exec_ldAcq (w : Width) (d : R) (a : R) (off : BitVec 12) (s : State) : exec (.ldAcq w d a off) s = execLdAcq w d a off s := rfl
theorem exec_st (w : Width) (d : R) (a : R) (off : BitVec 12) (s : State) : exec (.st w d a off) s = execSt w d a off s := rfl
theorem exec_stRel (w : Width) (d : R) (a : R) (off : BitVec 12) (s : State) : exec (.stRel w d a off) s = execStRel w d a off s := rfl
theorem exec_mfc (d : R) (c : BitVec 15) (s : State) : exec (.mfc d c) s = execMfc d c s := rfl
theorem exec_mtc (c : BitVec 15) (a : R) (s : State) : exec (.mtc c a) s = execMtc c a s := rfl
theorem exec_amo (op : AOp) (w64 : Bool) (d : R) (a : R) (b : R) (s : State) : exec (.amo op w64 d a b) s = execAmo op w64 d a b s := rfl
theorem exec_red (op : AOp) (w64 : Bool) (a : R) (b : R) (s : State) : exec (.red op w64 a b) s = execRed op w64 a b s := rfl
theorem exec_scLd (w64 : Bool) (d : R) (a : R) (s : State) : exec (.scLd w64 d a) s = execScLd w64 d a s := rfl
theorem exec_scSt (w64 : Bool) (a : R) (b : R) (s : State) : exec (.scSt w64 a b) s = execScSt w64 a b s := rfl
theorem exec_scAmo (op : AOp) (w64 : Bool) (d : R) (a : R) (b : R) (s : State) : exec (.scAmo op w64 d a b) s = execScAmo op w64 d a b s := rfl
theorem exec_fence (z : Scope) (s : State) : exec (.fence z) s = execFence z s := rfl
theorem exec_publ (a : R) (s : State) : exec (.publ a) s = execPubl a s := rfl
theorem exec_pubreg (d : R) (a : R) (b : R) (s : State) : exec (.pubreg d a b) s = execPubreg d a b s := rfl
theorem exec_phreg (m : PhMode) (d : R) (a : R) (s : State) : exec (.phreg m d a) s = execPhreg m d a s := rfl
theorem exec_phdrop (a : R) (s : State) : exec (.phdrop a) s = execPhdrop a s := rfl
theorem exec_phdropProxy (d : R) (a : R) (b : R) (s : State) : exec (.phdropProxy d a b) s = execPhdropProxy d a b s := rfl
theorem exec_phsig (a : R) (s : State) : exec (.phsig a) s = execPhsig a s := rfl
theorem exec_phwait (d : R) (a : R) (s : State) : exec (.phwait d a) s = execPhwait d a s := rfl
theorem exec_phsw (d : R) (a : R) (s : State) : exec (.phsw d a) s = execPhsw d a s := rfl
theorem exec_phsigp (d : R) (a : R) (b : R) (s : State) : exec (.phsigp d a b) s = execPhsigp d a b s := rfl
theorem exec_phq (d : R) (a : R) (s : State) : exec (.phq d a) s = execPhq d a s := rfl
theorem exec_cpy (d : R) (a : R) (b : R) (s : State) : exec (.cpy d a b) s = execCpy d a b s := rfl
theorem exec_cpy2d (d : R) (a : R) (s : State) : exec (.cpy2d d a) s = execCpy2d d a s := rfl
theorem exec_cpyprom (d : R) (a : R) (s : State) : exec (.cpyprom d a) s = execCpyprom d a s := rfl
theorem exec_gemb (d : R) (a : R) (s : State) : exec (.gemb d a) s = execGemb d a s := rfl
theorem exec_nop (s : State) : exec (.nop) s = execNop s := rfl
theorem exec_halt (s : State) : exec (.halt) s = execHalt s := rfl
theorem exec_cyc (d : R) (s : State) : exec (.cyc d) s = execCyc d s := rfl
theorem exec_ptime (d : R) (s : State) : exec (.ptime d) s = execPtime d s := rfl
theorem exec_waitt (a : R) (s : State) : exec (.waitt a) s = execWaitt a s := rfl
theorem exec_trap (code : BitVec 5) (s : State) : exec (.trap code) s = execTrap code s := rfl
theorem exec_tfence (s : State) : exec (.tfence) s = execTfence s := rfl
theorem exec_yield (s : State) : exec (.yield) s = execYield s := rfl
theorem exec_fork (d : R) (a : R) (b : R) (s : State) : exec (.fork d a b) s = execFork d a b s := rfl
theorem exec_rdv (s : State) : exec (.rdv) s = execRdv s := rfl
theorem exec_tstart (d : R) (a : R) (b : R) (s : State) : exec (.tstart d a b) s = execTstart d a b s := rfl
theorem exec_tstop (d : R) (a : R) (s : State) : exec (.tstop d a) s = execTstop d a s := rfl
theorem exec_trebase (d : R) (a : R) (b : R) (s : State) : exec (.trebase d a b) s = execTrebase d a b s := rfl
theorem exec_tstat (d : R) (a : R) (s : State) : exec (.tstat d a) s = execTstat d a s := rfl
theorem exec_tokset (a : R) (b : R) (s : State) : exec (.tokset a b) s = execTokset a b s := rfl
theorem exec_lpatch (d : R) (a : R) (b : R) (s : State) : exec (.lpatch d a b) s = execLpatch d a b s := rfl
theorem exec_larm (d : R) (a : R) (s : State) : exec (.larm d a) s = execLarm d a s := rfl
theorem exec_lstat (d : R) (a : R) (s : State) : exec (.lstat d a) s = execLstat d a s := rfl
theorem exec_dld (k : Cls) (bank : BitVec 2) (d : R) (a : R) (b : R) (s : State) : exec (.dld k bank d a b) s = execDld k bank d a b s := rfl
theorem exec_dsw (k : Cls) (bank : BitVec 2) (s : State) : exec (.dsw k bank) s = execDsw k bank s := rfl
theorem exec_dfence (s : State) : exec (.dfence) s = execDfence s := rfl
theorem exec_drd (k : Cls) (bank : BitVec 2) (d : R) (a : R) (b : R) (s : State) : exec (.drd k bank d a b) s = execDrd k bank d a b s := rfl
theorem exec_dinv (k : Cls) (bank : BitVec 2) (a : R) (s : State) : exec (.dinv k bank a) s = execDinv k bank a s := rfl
theorem exec_frd (d : R) (a : R) (b : R) (s : State) : exec (.frd d a b) s = execFrd d a b s := rfl
theorem exec_frdv (d : R) (a : R) (b : R) (s : State) : exec (.frdv d a b) s = execFrdv d a b s := rfl
theorem exec_fwr (d : R) (a : R) (b : R) (s : State) : exec (.fwr d a b) s = execFwr d a b s := rfl
theorem exec_fwrv (d : R) (a : R) (b : R) (s : State) : exec (.fwrv d a b) s = execFwrv d a b s := rfl
theorem exec_ftab (d : R) (a : R) (b : R) (s : State) : exec (.ftab d a b) s = execFtab d a b s := rfl
theorem exec_fstat (d : R) (a : R) (b : R) (s : State) : exec (.fstat d a b) s = execFstat d a b s := rfl
theorem exec_fresume (b : R) (s : State) : exec (.fresume b) s = execFresume b s := rfl
theorem exec_fstep (d : R) (a : R) (b : R) (s : State) : exec (.fstep d a b) s = execFstep d a b s := rfl
theorem exec_fkill (b : R) (s : State) : exec (.fkill b) s = execFkill b s := rfl
theorem exec_brCc (cc : Cond) (a : R) (b : R) (off : BitVec 11) (s : State) : exec (.brCc cc a b off) s = execBrCc cc a b off s := rfl
theorem exec_brCcNn (cc : Cond) (a : R) (b : R) (off : BitVec 11) (s : State) : exec (.brCcNn cc a b off) s = execBrCcNn cc a b off s := rfl
theorem exec_brCcNt (cc : Cond) (a : R) (b : R) (off : BitVec 11) (s : State) : exec (.brCcNt cc a b off) s = execBrCcNt cc a b off s := rfl
theorem exec_j (off : BitVec 25) (s : State) : exec (.j off) s = execJ off s := rfl
theorem exec_jl (off : BitVec 25) (s : State) : exec (.jl off) s = execJl off s := rfl
theorem exec_jr (a : R) (s : State) : exec (.jr a) s = execJr a s := rfl
theorem exec_jlr (d : R) (a : R) (s : State) : exec (.jlr d a) s = execJlr d a s := rfl
theorem exec_scalarLongForm (form : BitVec 64) (s : State) : exec (.scalarLongForm form) s = execScalarLongForm form s := rfl
theorem exec_dictionaryWord (e : BitVec 8) (h : BitVec 23) (s : State) : exec (.dictionaryWord e h) s = execDictionaryWord e h s := rfl
theorem exec_engineLongForm (delay : BitVec 4) (form : BitVec 64) (s : State) : exec (.engineLongForm delay form) s = execEngineLongForm delay form s := rfl
theorem exec_vmov (m : Micro) (s : State) : exec (.vmov m) s = execVmov m s := rfl
theorem exec_vmovi (m : Micro) (s : State) : exec (.vmovi m) s = execVmovi m s := rfl
theorem exec_vmvs (m : Micro) (s : State) : exec (.vmvs m) s = execVmvs m s := rfl
theorem exec_vadd (m : Micro) (s : State) : exec (.vadd m) s = execVadd m s := rfl
theorem exec_vsub (m : Micro) (s : State) : exec (.vsub m) s = execVsub m s := rfl
theorem exec_vadds (m : Micro) (s : State) : exec (.vadds m) s = execVadds m s := rfl
theorem exec_vsubs (m : Micro) (s : State) : exec (.vsubs m) s = execVsubs m s := rfl
theorem exec_vmul (m : Micro) (s : State) : exec (.vmul m) s = execVmul m s := rfl
theorem exec_vmulh (m : Micro) (s : State) : exec (.vmulh m) s = execVmulh m s := rfl
theorem exec_vmulw (m : Micro) (s : State) : exec (.vmulw m) s = execVmulw m s := rfl
theorem exec_vmac (m : Micro) (s : State) : exec (.vmac m) s = execVmac m s := rfl
theorem exec_vand (m : Micro) (s : State) : exec (.vand m) s = execVand m s := rfl
theorem exec_vor (m : Micro) (s : State) : exec (.vor m) s = execVor m s := rfl
theorem exec_vxor (m : Micro) (s : State) : exec (.vxor m) s = execVxor m s := rfl
theorem exec_vandn (m : Micro) (s : State) : exec (.vandn m) s = execVandn m s := rfl
theorem exec_vshl (m : Micro) (s : State) : exec (.vshl m) s = execVshl m s := rfl
theorem exec_vshr (m : Micro) (s : State) : exec (.vshr m) s = execVshr m s := rfl
theorem exec_vsar (m : Micro) (s : State) : exec (.vsar m) s = execVsar m s := rfl
theorem exec_vmin (m : Micro) (s : State) : exec (.vmin m) s = execVmin m s := rfl
theorem exec_vmax (m : Micro) (s : State) : exec (.vmax m) s = execVmax m s := rfl
theorem exec_vabs (m : Micro) (s : State) : exec (.vabs m) s = execVabs m s := rfl
theorem exec_vneg (m : Micro) (s : State) : exec (.vneg m) s = execVneg m s := rfl
theorem exec_vclz (m : Micro) (s : State) : exec (.vclz m) s = execVclz m s := rfl
theorem exec_vpopc (m : Micro) (s : State) : exec (.vpopc m) s = execVpopc m s := rfl
theorem exec_vcmp (m : Micro) (s : State) : exec (.vcmp m) s = execVcmp m s := rfl
theorem exec_vsel (m : Micro) (s : State) : exec (.vsel m) s = execVsel m s := rfl
theorem exec_mop (m : Micro) (s : State) : exec (.mop m) s = execMop m s := rfl
theorem exec_mpopc (m : Micro) (s : State) : exec (.mpopc m) s = execMpopc m s := rfl
theorem exec_mfirst (m : Micro) (s : State) : exec (.mfirst m) s = execMfirst m s := rfl
theorem exec_vfadd (m : Micro) (s : State) : exec (.vfadd m) s = execVfadd m s := rfl
theorem exec_vfsub (m : Micro) (s : State) : exec (.vfsub m) s = execVfsub m s := rfl
theorem exec_vfmul (m : Micro) (s : State) : exec (.vfmul m) s = execVfmul m s := rfl
theorem exec_vfma (m : Micro) (s : State) : exec (.vfma m) s = execVfma m s := rfl
theorem exec_vfms (m : Micro) (s : State) : exec (.vfms m) s = execVfms m s := rfl
theorem exec_vfnma (m : Micro) (s : State) : exec (.vfnma m) s = execVfnma m s := rfl
theorem exec_vfmin (m : Micro) (s : State) : exec (.vfmin m) s = execVfmin m s := rfl
theorem exec_vfmax (m : Micro) (s : State) : exec (.vfmax m) s = execVfmax m s := rfl
theorem exec_vfabs (m : Micro) (s : State) : exec (.vfabs m) s = execVfabs m s := rfl
theorem exec_vfneg (m : Micro) (s : State) : exec (.vfneg m) s = execVfneg m s := rfl
theorem exec_vfcmp (m : Micro) (s : State) : exec (.vfcmp m) s = execVfcmp m s := rfl
theorem exec_vrcp (m : Micro) (s : State) : exec (.vrcp m) s = execVrcp m s := rfl
theorem exec_vrsq (m : Micro) (s : State) : exec (.vrsq m) s = execVrsq m s := rfl
theorem exec_vsqrt (m : Micro) (s : State) : exec (.vsqrt m) s = execVsqrt m s := rfl
theorem exec_vexp2 (m : Micro) (s : State) : exec (.vexp2 m) s = execVexp2 m s := rfl
theorem exec_vlog2 (m : Micro) (s : State) : exec (.vlog2 m) s = execVlog2 m s := rfl
theorem exec_vtanh (m : Micro) (s : State) : exec (.vtanh m) s = execVtanh m s := rfl
theorem exec_vcvt (m : Micro) (s : State) : exec (.vcvt m) s = execVcvt m s := rfl
theorem exec_vpack (m : Micro) (s : State) : exec (.vpack m) s = execVpack m s := rfl
theorem exec_vunpk (m : Micro) (s : State) : exec (.vunpk m) s = execVunpk m s := rfl
theorem exec_vredadd (m : Micro) (s : State) : exec (.vredadd m) s = execVredadd m s := rfl
theorem exec_vredmax (m : Micro) (s : State) : exec (.vredmax m) s = execVredmax m s := rfl
theorem exec_vredmin (m : Micro) (s : State) : exec (.vredmin m) s = execVredmin m s := rfl
theorem exec_vscan (m : Micro) (s : State) : exec (.vscan m) s = execVscan m s := rfl
theorem exec_vperm (m : Micro) (s : State) : exec (.vperm m) s = execVperm m s := rfl
theorem exec_vshuf (m : Micro) (s : State) : exec (.vshuf m) s = execVshuf m s := rfl
theorem exec_vslide (m : Micro) (s : State) : exec (.vslide m) s = execVslide m s := rfl
theorem exec_vbcast (m : Micro) (s : State) : exec (.vbcast m) s = execVbcast m s := rfl
theorem exec_vext (m : Micro) (s : State) : exec (.vext m) s = execVext m s := rfl
theorem exec_vins (m : Micro) (s : State) : exec (.vins m) s = execVins m s := rfl
theorem exec_vcompress (m : Micro) (s : State) : exec (.vcompress m) s = execVcompress m s := rfl
theorem exec_vexpand (m : Micro) (s : State) : exec (.vexpand m) s = execVexpand m s := rfl
theorem exec_vld (m : Micro) (s : State) : exec (.vld m) s = execVld m s := rfl
theorem exec_vst (m : Micro) (s : State) : exec (.vst m) s = execVst m s := rfl
theorem exec_vlds (m : Micro) (s : State) : exec (.vlds m) s = execVlds m s := rfl
theorem exec_vgath (m : Micro) (s : State) : exec (.vgath m) s = execVgath m s := rfl
theorem exec_vscat (m : Micro) (s : State) : exec (.vscat m) s = execVscat m s := rfl
theorem exec_vcvtSr (m : Micro) (s : State) : exec (.vcvtSr m) s = execVcvtSr m s := rfl
theorem exec_vmoment (m : Micro) (s : State) : exec (.vmoment m) s = execVmoment m s := rfl
theorem exec_vnormapply (m : Micro) (s : State) : exec (.vnormapply m) s = execVnormapply m s := rfl
theorem exec_vplane (m : Micro) (s : State) : exec (.vplane m) s = execVplane m s := rfl
theorem exec_tzero (m : Micro) (s : State) : exec (.tzero m) s = execTzero m s := rfl
theorem exec_lease (m : Micro) (s : State) : exec (.lease m) s = execLease m s := rfl
theorem exec_lrel (m : Micro) (s : State) : exec (.lrel m) s = execLrel m s := rfl
theorem exec_mma (m : Micro) (s : State) : exec (.mma m) s = execMma m s := rfl
theorem exec_mmas (m : Micro) (s : State) : exec (.mmas m) s = execMmas m s := rfl
theorem exec_bopen (m : Micro) (s : State) : exec (.bopen m) s = execBopen m s := rfl
theorem exec_bopenS (m : Micro) (s : State) : exec (.bopenS m) s = execBopenS m s := rfl
theorem exec_cbatch (m : Micro) (s : State) : exec (.cbatch m) s = execCbatch m s := rfl
theorem exec_wbatch (m : Micro) (s : State) : exec (.wbatch m) s = execWbatch m s := rfl
theorem exec_commit (m : Micro) (s : State) : exec (.commit m) s = execCommit m s := rfl
theorem exec_discard (m : Micro) (s : State) : exec (.discard m) s = execDiscard m s := rfl
theorem exec_accz (m : Micro) (s : State) : exec (.accz m) s = execAccz m s := rfl
theorem exec_tcfg (delay : BitVec 4) (tile : F7) (cfg : BitVec 25) (tok : Tok) (s : State) : exec (.tcfg delay tile cfg tok) s = execTcfg delay tile cfg tok s := rfl
theorem exec_tld (m : Micro) (s : State) : exec (.tld m) s = execTld m s := rfl
theorem exec_tst (m : Micro) (s : State) : exec (.tst m) s = execTst m s := rfl
theorem exec_accrd (m : Micro) (s : State) : exec (.accrd m) s = execAccrd m s := rfl
theorem exec_accrdIn (m : Micro) (s : State) : exec (.accrdIn m) s = execAccrdIn m s := rfl
theorem exec_gset (m : Micro) (s : State) : exec (.gset m) s = execGset m s := rfl
theorem exec_gb (m : Micro) (s : State) : exec (.gb m) s = execGb m s := rfl
theorem exec_lsLd (m : Micro) (s : State) : exec (.lsLd m) s = execLsLd m s := rfl
theorem exec_lsLdAcq (m : Micro) (s : State) : exec (.lsLdAcq m) s = execLsLdAcq m s := rfl
theorem exec_lsSt (m : Micro) (s : State) : exec (.lsSt m) s = execLsSt m s := rfl
theorem exec_lsStRel (m : Micro) (s : State) : exec (.lsStRel m) s = execLsStRel m s := rfl
theorem exec_lsRed (m : Micro) (s : State) : exec (.lsRed m) s = execLsRed m s := rfl
theorem exec_lsPubl (m : Micro) (s : State) : exec (.lsPubl m) s = execLsPubl m s := rfl
theorem exec_rdc (m : Micro) (s : State) : exec (.rdc m) s = execRdc m s := rfl
theorem exec_flt (m : Micro) (s : State) : exec (.flt m) s = execFlt m s := rfl
theorem exec_mcast (m : Micro) (s : State) : exec (.mcast m) s = execMcast m s := rfl
theorem exec_pass (m : Micro) (s : State) : exec (.pass m) s = execPass m s := rfl
theorem exec_idle (m : Micro) (s : State) : exec (.idle m) s = execIdle m s := rfl
theorem exec_rtadv (m : Micro) (s : State) : exec (.rtadv m) s = execRtadv m s := rfl
theorem exec_kskip (b : R) (a : R) (d : R) (s : State) : exec (.kskip b a d) s = execKskip b a d s := rfl
theorem exec_ktrim (b : R) (a : R) (d : R) (s : State) : exec (.ktrim b a d) s = execKtrim b a d s := rfl
theorem exec_kdrop (b : R) (a : R) (d : R) (s : State) : exec (.kdrop b a d) s = execKdrop b a d s := rfl
theorem exec_kstamp (b : R) (a : R) (d : R) (s : State) : exec (.kstamp b a d) s = execKstamp b a d s := rfl
theorem exec_kfld (b : R) (a : R) (d : R) (s : State) : exec (.kfld b a d) s = execKfld b a d s := rfl
theorem exec_kinfo (sl : R) (a : R) (d : R) (s : State) : exec (.kinfo sl a d) s = execKinfo sl a d s := rfl
theorem exec_ktake (b : R) (a : R) (d : R) (s : State) : exec (.ktake b a d) s = execKtake b a d s := rfl
theorem exec_kgive (b : R) (a : R) (d : R) (s : State) : exec (.kgive b a d) s = execKgive b a d s := rfl
theorem exec_illegalOp (w : IWord) (s : State) : exec (.illegalOp w) s = execIllegalOp w s := rfl
theorem exec_qtailDoorbell (s : State) : exec (.qtailDoorbell) s = execQtailDoorbell s := rfl
theorem exec_qctlWrite (s : State) : exec (.qctlWrite) s = execQctlWrite s := rfl
theorem exec_cheadWrite (s : State) : exec (.cheadWrite) s = execCheadWrite s := rfl
theorem exec_evheadWrite (s : State) : exec (.evheadWrite) s = execEvheadWrite s := rfl
theorem exec_registerWrite (s : State) : exec (.registerWrite) s = execRegisterWrite s := rfl
theorem exec_packetRead (s : State) : exec (.packetRead) s = execPacketRead s := rfl
theorem exec_launchDispatch (s : State) : exec (.launchDispatch) s = execLaunchDispatch s := rfl
theorem exec_ctxCreate (s : State) : exec (.ctxCreate) s = execCtxCreate s := rfl
theorem exec_ctxTeardown (s : State) : exec (.ctxTeardown) s = execCtxTeardown s := rfl
theorem exec_rcbUpdate (s : State) : exec (.rcbUpdate) s = execRcbUpdate s := rfl
theorem exec_basketSize (s : State) : exec (.basketSize) s = execBasketSize s := rfl
theorem exec_basketPut (s : State) : exec (.basketPut) s = execBasketPut s := rfl
theorem exec_basketDel (s : State) : exec (.basketDel) s = execBasketDel s := rfl
theorem exec_energySet (s : State) : exec (.energySet) s = execEnergySet s := rfl
theorem exec_powerCap (s : State) : exec (.powerCap) s = execPowerCap s := rfl
theorem exec_queueReset (s : State) : exec (.queueReset) s = execQueueReset s := rfl
theorem exec_ifst (s : State) : exec (.ifst) s = execIfst s := rfl
theorem exec_xinval (s : State) : exec (.xinval) s = execXinval s := rfl
theorem exec_rangerSet (s : State) : exec (.rangerSet) s = execRangerSet s := rfl
theorem exec_hamperSet (s : State) : exec (.hamperSet) s = execHamperSet s := rfl
theorem exec_partSwap (s : State) : exec (.partSwap) s = execPartSwap s := rfl
theorem exec_abxAdd (s : State) : exec (.abxAdd) s = execAbxAdd s := rfl
theorem exec_abxAnd (s : State) : exec (.abxAnd) s = execAbxAnd s := rfl
theorem exec_abxOr (s : State) : exec (.abxOr) s = execAbxOr s := rfl
theorem exec_abxXor (s : State) : exec (.abxXor) s = execAbxXor s := rfl
theorem exec_abxMin (s : State) : exec (.abxMin) s = execAbxMin s := rfl
theorem exec_abxMax (s : State) : exec (.abxMax) s = execAbxMax s := rfl
theorem exec_abxMinn (s : State) : exec (.abxMinn) s = execAbxMinn s := rfl
theorem exec_abxMaxn (s : State) : exec (.abxMaxn) s = execAbxMaxn s := rfl
theorem exec_abxSwap (s : State) : exec (.abxSwap) s = execAbxSwap s := rfl
theorem exec_abxCas (s : State) : exec (.abxCas) s = execAbxCas s := rfl
theorem exec_xinvPage (s : State) : exec (.xinvPage) s = execXinvPage s := rfl
theorem exec_xinvContext (s : State) : exec (.xinvContext) s = execXinvContext s := rfl
theorem exec_rfstatPendClear (s : State) : exec (.rfstatPendClear) s = execRfstatPendClear s := rfl
theorem exec_atomicopFetchadd (s : State) : exec (.atomicopFetchadd) s = execAtomicopFetchadd s := rfl
theorem exec_atomicopSwap (s : State) : exec (.atomicopSwap) s = execAtomicopSwap s := rfl
theorem exec_atomicopCas (s : State) : exec (.atomicopCas) s = execAtomicopCas s := rfl
theorem exec_hdmRead (s : State) : exec (.hdmRead) s = execHdmRead s := rfl
theorem exec_hdmWrite (s : State) : exec (.hdmWrite) s = execHdmWrite s := rfl
theorem exec_msixUnmask (s : State) : exec (.msixUnmask) s = execMsixUnmask s := rfl
theorem exec_fmLdInfo (s : State) : exec (.fmLdInfo) s = execFmLdInfo s := rfl
theorem exec_fmLdAllocation (s : State) : exec (.fmLdAllocation) s = execFmLdAllocation s := rfl
theorem exec_getVersion (s : State) : exec (.getVersion) s = execGetVersion s := rfl
theorem exec_getCapabilities (s : State) : exec (.getCapabilities) s = execGetCapabilities s := rfl
theorem exec_negotiateAlgorithms (s : State) : exec (.negotiateAlgorithms) s = execNegotiateAlgorithms s := rfl
theorem exec_getDigests (s : State) : exec (.getDigests) s = execGetDigests s := rfl
theorem exec_getCertificate (s : State) : exec (.getCertificate) s = execGetCertificate s := rfl
theorem exec_challenge (s : State) : exec (.challenge) s = execChallenge s := rfl
theorem exec_getMeasurements (s : State) : exec (.getMeasurements) s = execGetMeasurements s := rfl
theorem exec_keyExchange (s : State) : exec (.keyExchange) s = execKeyExchange s := rfl
theorem exec_finish (s : State) : exec (.finish) s = execFinish s := rfl
theorem exec_heartbeat (s : State) : exec (.heartbeat) s = execHeartbeat s := rfl
theorem exec_keyUpdate (s : State) : exec (.keyUpdate) s = execKeyUpdate s := rfl
theorem exec_endSession (s : State) : exec (.endSession) s = execEndSession s := rfl
theorem exec_spdmOtherRequest (s : State) : exec (.spdmOtherRequest) s = execSpdmOtherRequest s := rfl
theorem exec_powerGood (s : State) : exec (.powerGood) s = execPowerGood s := rfl
theorem exec_dieBootStep (s : State) : exec (.dieBootStep) s = execDieBootStep s := rfl
theorem exec_reconfiguration (s : State) : exec (.reconfiguration) s = execReconfiguration s := rfl
theorem exec_diePrime (s : State) : exec (.diePrime) s = execDiePrime s := rfl
theorem exec_jobStart (s : State) : exec (.jobStart) s = execJobStart s := rfl
theorem exec_streamDone (s : State) : exec (.streamDone) s = execStreamDone s := rfl
theorem exec_rendezvousComplete (s : State) : exec (.rendezvousComplete) s = execRendezvousComplete s := rfl
theorem exec_shareSwitch (s : State) : exec (.shareSwitch) s = execShareSwitch s := rfl
theorem exec_shareSwitchEnd (s : State) : exec (.shareSwitchEnd) s = execShareSwitchEnd s := rfl
theorem exec_haltStop (s : State) : exec (.haltStop) s = execHaltStop s := rfl
theorem exec_resultWrite (s : State) : exec (.resultWrite) s = execResultWrite s := rfl
theorem exec_tokenBeatArrival (s : State) : exec (.tokenBeatArrival) s = execTokenBeatArrival s := rfl
theorem exec_storeBufferDrain (s : State) : exec (.storeBufferDrain) s = execStoreBufferDrain s := rfl
theorem exec_releaseComplete (s : State) : exec (.releaseComplete) s = execReleaseComplete s := rfl
theorem exec_atomicSlotServe (s : State) : exec (.atomicSlotServe) s = execAtomicSlotServe s := rfl
theorem exec_atomicUnitServe (s : State) : exec (.atomicUnitServe) s = execAtomicUnitServe s := rfl
theorem exec_atomicReply (s : State) : exec (.atomicReply) s = execAtomicReply s := rfl
theorem exec_scEffect (s : State) : exec (.scEffect) s = execScEffect s := rfl
theorem exec_scPositionReached (s : State) : exec (.scPositionReached) s = execScPositionReached s := rfl
theorem exec_seqAtomicResend (s : State) : exec (.seqAtomicResend) s = execSeqAtomicResend s := rfl
theorem exec_redFaultLog (s : State) : exec (.redFaultLog) s = execRedFaultLog s := rfl
theorem exec_hostCompletion (s : State) : exec (.hostCompletion) s = execHostCompletion s := rfl
theorem exec_completionTimeout (s : State) : exec (.completionTimeout) s = execCompletionTimeout s := rfl
theorem exec_dldEntryArrival (s : State) : exec (.dldEntryArrival) s = execDldEntryArrival s := rfl
theorem exec_copyPacketWrite (s : State) : exec (.copyPacketWrite) s = execCopyPacketWrite s := rfl
theorem exec_copyComplete (s : State) : exec (.copyComplete) s = execCopyComplete s := rfl
theorem exec_promiseDue (s : State) : exec (.promiseDue) s = execPromiseDue s := rfl
theorem exec_waittWake (s : State) : exec (.waittWake) s = execWaittWake s := rfl
theorem exec_retrainingSchedule (s : State) : exec (.retrainingSchedule) s = execRetrainingSchedule s := rfl
theorem exec_retrainingPauseStart (s : State) : exec (.retrainingPauseStart) s = execRetrainingPauseStart s := rfl
theorem exec_retrainingPauseEnd (s : State) : exec (.retrainingPauseEnd) s = execRetrainingPauseEnd s := rfl
theorem exec_trainingError (s : State) : exec (.trainingError) s = execTrainingError s := rfl
theorem exec_translationWalk (s : State) : exec (.translationWalk) s = execTranslationWalk s := rfl
theorem exec_translationPauseStart (s : State) : exec (.translationPauseStart) s = execTranslationPauseStart s := rfl
theorem exec_translationPauseEnd (s : State) : exec (.translationPauseEnd) s = execTranslationPauseEnd s := rfl
theorem exec_invalidationForward (s : State) : exec (.invalidationForward) s = execInvalidationForward s := rfl
theorem exec_invalidationDieAck (s : State) : exec (.invalidationDieAck) s = execInvalidationDieAck s := rfl
theorem exec_invalidationComplete (s : State) : exec (.invalidationComplete) s = execInvalidationComplete s := rfl
theorem exec_publPublish (s : State) : exec (.publPublish) s = execPublPublish s := rfl
theorem exec_pubregComplete (s : State) : exec (.pubregComplete) s = execPubregComplete s := rfl
theorem exec_phaserSignalArrival (s : State) : exec (.phaserSignalArrival) s = execPhaserSignalArrival s := rfl
theorem exec_phaserReply (s : State) : exec (.phaserReply) s = execPhaserReply s := rfl
theorem exec_phwaitComplete (s : State) : exec (.phwaitComplete) s = execPhwaitComplete s := rfl
theorem exec_leaseGrant (s : State) : exec (.leaseGrant) s = execLeaseGrant s := rfl
theorem exec_leaseEnd (s : State) : exec (.leaseEnd) s = execLeaseEnd s := rfl
theorem exec_mmaStepAccept (s : State) : exec (.mmaStepAccept) s = execMmaStepAccept s := rfl
theorem exec_mmaStepWrite (s : State) : exec (.mmaStepWrite) s = execMmaStepWrite s := rfl
theorem exec_batchCommit (s : State) : exec (.batchCommit) s = execBatchCommit s := rfl
theorem exec_tagResolve (s : State) : exec (.tagResolve) s = execTagResolve s := rfl
theorem exec_tldRowWrite (s : State) : exec (.tldRowWrite) s = execTldRowWrite s := rfl
theorem exec_gbLanding (s : State) : exec (.gbLanding) s = execGbLanding s := rfl
theorem exec_landingCreditReturn (s : State) : exec (.landingCreditReturn) s = execLandingCreditReturn s := rfl
theorem exec_stripPacketDelivery (s : State) : exec (.stripPacketDelivery) s = execStripPacketDelivery s := rfl
theorem exec_freezeBroadcastArrival (s : State) : exec (.freezeBroadcastArrival) s = execFreezeBroadcastArrival s := rfl
theorem exec_freezeRewind (s : State) : exec (.freezeRewind) s = execFreezeRewind s := rfl
theorem exec_rangerSpawn (s : State) : exec (.rangerSpawn) s = execRangerSpawn s := rfl
theorem exec_poolReturn (s : State) : exec (.poolReturn) s = execPoolReturn s := rfl
theorem exec_rangerTimeout (s : State) : exec (.rangerTimeout) s = execRangerTimeout s := rfl
theorem exec_resumeStart (s : State) : exec (.resumeStart) s = execResumeStart s := rfl
theorem exec_eventPost (s : State) : exec (.eventPost) s = execEventPost s := rfl
theorem exec_eventBackpressure (s : State) : exec (.eventBackpressure) s = execEventBackpressure s := rfl
theorem exec_slotBoundary (s : State) : exec (.slotBoundary) s = execSlotBoundary s := rfl
theorem exec_thermosSwapEnd (s : State) : exec (.thermosSwapEnd) s = execThermosSwapEnd s := rfl
theorem exec_periodBoundary (s : State) : exec (.periodBoundary) s = execPeriodBoundary s := rfl
theorem exec_foldArrival (s : State) : exec (.foldArrival) s = execFoldArrival s := rfl
theorem exec_staticCharge (s : State) : exec (.staticCharge) s = execStaticCharge s := rfl
theorem exec_energyGather (s : State) : exec (.energyGather) s = execEnergyGather s := rfl
theorem exec_deadlineMiss (s : State) : exec (.deadlineMiss) s = execDeadlineMiss s := rfl
theorem exec_governorTick (s : State) : exec (.governorTick) s = execGovernorTick s := rfl
theorem exec_thermalSample (s : State) : exec (.thermalSample) s = execThermalSample s := rfl
theorem exec_hotRailStep (s : State) : exec (.hotRailStep) s = execHotRailStep s := rfl
theorem exec_shedExpire (s : State) : exec (.shedExpire) s = execShedExpire s := rfl
theorem exec_railSwitchDone (s : State) : exec (.railSwitchDone) s = execRailSwitchDone s := rfl
theorem exec_droop (s : State) : exec (.droop) s = execDroop s := rfl
theorem exec_clockRelockDone (s : State) : exec (.clockRelockDone) s = execClockRelockDone s := rfl
theorem exec_completionRecordWrite (s : State) : exec (.completionRecordWrite) s = execCompletionRecordWrite s := rfl
theorem exec_coalesceTimer (s : State) : exec (.coalesceTimer) s = execCoalesceTimer s := rfl
theorem exec_completionRetryTimer (s : State) : exec (.completionRetryTimer) s = execCompletionRetryTimer s := rfl
theorem exec_queueResetComplete (s : State) : exec (.queueResetComplete) s = execQueueResetComplete s := rfl
theorem exec_spill (s : State) : exec (.spill) s = execSpill s := rfl
theorem exec_spillComplete (s : State) : exec (.spillComplete) s = execSpillComplete s := rfl
theorem exec_restoreComplete (s : State) : exec (.restoreComplete) s = execRestoreComplete s := rfl
theorem exec_partSwapHalted (s : State) : exec (.partSwapHalted) s = execPartSwapHalted s := rfl
theorem exec_partSwapStart (s : State) : exec (.partSwapStart) s = execPartSwapStart s := rfl
theorem exec_pinRelease (s : State) : exec (.pinRelease) s = execPinRelease s := rfl
theorem exec_ifstUnitComplete (s : State) : exec (.ifstUnitComplete) s = execIfstUnitComplete s := rfl
theorem exec_linkBeatError (s : State) : exec (.linkBeatError) s = execLinkBeatError s := rfl
theorem exec_linkReplay (s : State) : exec (.linkReplay) s = execLinkReplay s := rfl
theorem exec_capAccess (s : State) : exec (.capAccess) s = execCapAccess s := rfl
theorem exec_tokenCreditReturn (s : State) : exec (.tokenCreditReturn) s = execTokenCreditReturn s := rfl
theorem exec_hostLinkRetrain (s : State) : exec (.hostLinkRetrain) s = execHostLinkRetrain s := rfl
theorem exec_commandComplexReply (s : State) : exec (.commandComplexReply) s = execCommandComplexReply s := rfl
theorem exec_frozenStateReply (s : State) : exec (.frozenStateReply) s = execFrozenStateReply s := rfl
theorem exec_droopEnd (s : State) : exec (.droopEnd) s = execDroopEnd s := rfl

end Sys2Proof.Machine
end

