-- ==== Sys2Proof/Laws/PerInstr.lean ====
section
/-! SUPPORT. Statements made for every instruction, one lemma for each constructor. -/

namespace Sys2Proof.Laws.Encoded

/-- Words of an encoding: at most three, of 32 bits each (R81, R91). -/
def Fits (ws : List Nat) : Prop := ws.length ≤ 3 ∧ ∀ w ∈ ws, w < 2 ^ 32

/-- An instruction's encoding is at most three words of 32 bits. -/
def Statement (i : Instr) : Prop := Fits (encode i)

theorem of_none {i : Instr} (h : encode i = []) : Statement i := by simp [Statement, h, Fits]

theorem of_one {i : Instr} {w : Nat} (e : encode i = [w]) (h : w < 2 ^ 32) : Statement i := by simpa [Statement, e, Fits] using h

theorem rrr_lt {op : Nat} {d a b : R} {sub md : Nat} (h1 : op < 128) (h2 : sub < 32) (h3 : md < 32) : rrr op d a b sub md < 2 ^ 32 := by
  simp only [rrr]; omega

theorem rri_lt15 {op : Nat} {d a : R} {i : Nat} (h1 : op < 128) (h2 : i < 2 ^ 15) : rri op d a i < 2 ^ 32 := by
  simp only [rri]; omega

theorem rri_lt20 {op : Nat} {d : R} {i : Nat} (h1 : op < 128) (h2 : i < 2 ^ 20) : rri op d 0 i < 2 ^ 32 := by
  have : (0 : R).toNat = 0 := rfl
  simp only [rri]; omega

theorem brw_lt {a b : R} {cc null : Nat} {off : BitVec 11} (h1 : cc < 8) (h2 : null < 4) : brw a b cc null off < 2 ^ 32 := by
  simp only [brw]; omega

theorem eb_lt (b : Bool) (i : Nat) : eb b i ≤ 2 ^ i := by cases b <;> simp [eb, b2n]

theorem encTok_lt (t : Tok) : encTok t < 2 ^ 17 := by
  rcases t with ⟨we, wf, se, sf, pe, pt⟩
  cases we <;> cases se <;> cases pe <;> simp only [encTok, eb, b2n] <;> simp <;> omega

theorem encForm_lt {op : Nat} {m : Micro} {t : Tail} (h : op < 256) : encForm op m t < 2 ^ 64 := by
  have := encTok_lt t.tok
  simp only [encForm]; omega

theorem longWords_fits {delay f : Nat} (h1 : delay < 16) (h2 : f < 2 ^ 64) : Fits (longWords delay f) := by
  simp [Fits, longWords]; omega

/-- The words of a micro-order. -/
def microWords (op : Nat) (m : Micro) : List Nat :=
  match m.long with
  | none => [encMicro op m]
  | some t => longWords m.delay.toNat (encForm op m t)

theorem of_micro {i : Instr} {m : Micro} (op : Nat) (e : encode i = microWords op m) (h : op < 128) : Statement i := by
  rw [Statement, e, microWords]
  split
  · simp only [Fits, encMicro, List.length_singleton, List.mem_singleton, forall_eq]; omega
  · exact longWords_fits (by omega) (encForm_lt (by omega))

theorem scope_lt (z : Scope) : z.code < 32 := by cases z <;> decide
theorem phMode_lt (z : PhMode) : z.code < 32 := by cases z <;> decide
theorem cond_lt (z : Cond) : z.code < 8 := by cases z <;> decide
theorem aop_lt (z : AOp) : z.code < 16 := by cases z <;> decide
theorem cls_lt (z : Cls) : z.code < 8 := by cases z <;> decide
theorem width_lt (z : Width) : z.code < 8 := by cases z <;> decide
theorem b2n_lt (b : Bool) : b2n b < 2 := by cases b <;> decide

theorem add (d : R) (a : R) (b : R) : Statement (.add d a b) := of_one rfl (rrr_lt (by decide) (by decide) (by decide))
theorem sub (d : R) (a : R) (b : R) : Statement (.sub d a b) := of_one rfl (rrr_lt (by decide) (by decide) (by decide))
theorem and (d : R) (a : R) (b : R) : Statement (.and d a b) := of_one rfl (rrr_lt (by decide) (by decide) (by decide))
theorem or (d : R) (a : R) (b : R) : Statement (.or d a b) := of_one rfl (rrr_lt (by decide) (by decide) (by decide))
theorem xor (d : R) (a : R) (b : R) : Statement (.xor d a b) := of_one rfl (rrr_lt (by decide) (by decide) (by decide))
theorem andn (d : R) (a : R) (b : R) : Statement (.andn d a b) := of_one rfl (rrr_lt (by decide) (by decide) (by decide))
theorem shl (d : R) (a : R) (b : R) : Statement (.shl d a b) := of_one rfl (rrr_lt (by decide) (by decide) (by decide))
theorem shr (d : R) (a : R) (b : R) : Statement (.shr d a b) := of_one rfl (rrr_lt (by decide) (by decide) (by decide))
theorem sar (d : R) (a : R) (b : R) : Statement (.sar d a b) := of_one rfl (rrr_lt (by decide) (by decide) (by decide))
theorem min (d : R) (a : R) (b : R) : Statement (.min d a b) := of_one rfl (rrr_lt (by decide) (by decide) (by decide))
theorem max (d : R) (a : R) (b : R) : Statement (.max d a b) := of_one rfl (rrr_lt (by decide) (by decide) (by decide))
theorem minn (d : R) (a : R) (b : R) : Statement (.minn d a b) := of_one rfl (rrr_lt (by decide) (by decide) (by decide))
theorem maxn (d : R) (a : R) (b : R) : Statement (.maxn d a b) := of_one rfl (rrr_lt (by decide) (by decide) (by decide))
theorem sel (d : R) (a : R) (b : R) : Statement (.sel d a b) := of_one rfl (rrr_lt (by decide) (by decide) (by decide))
theorem clz (d : R) (a : R) : Statement (.clz d a) := of_one rfl (rrr_lt (by decide) (by decide) (by decide))
theorem popc (d : R) (a : R) : Statement (.popc d a) := of_one rfl (rrr_lt (by decide) (by decide) (by decide))
theorem cmpCc (cc : Cond) (d : R) (a : R) (b : R) : Statement (.cmpCc cc d a b) := of_one rfl (rrr_lt (by decide) (by decide) (Nat.lt_trans (cond_lt cc) (by decide)))
theorem mul (d : R) (a : R) (b : R) : Statement (.mul d a b) := of_one rfl (rrr_lt (by decide) (by decide) (by decide))
theorem mulh (d : R) (a : R) (b : R) : Statement (.mulh d a b) := of_one rfl (rrr_lt (by decide) (by decide) (by decide))
theorem mulhn (d : R) (a : R) (b : R) : Statement (.mulhn d a b) := of_one rfl (rrr_lt (by decide) (by decide) (by decide))
theorem div (d : R) (a : R) (b : R) : Statement (.div d a b) := of_one rfl (rrr_lt (by decide) (by decide) (by decide))
theorem divn (d : R) (a : R) (b : R) : Statement (.divn d a b) := of_one rfl (rrr_lt (by decide) (by decide) (by decide))
theorem rem (d : R) (a : R) (b : R) : Statement (.rem d a b) := of_one rfl (rrr_lt (by decide) (by decide) (by decide))
theorem remn (d : R) (a : R) (b : R) : Statement (.remn d a b) := of_one rfl (rrr_lt (by decide) (by decide) (by decide))
theorem addi (d : R) (a : R) (im : BitVec 15) : Statement (.addi d a im) := of_one rfl (rri_lt15 (by decide) (BitVec.isLt _))
theorem andi (d : R) (a : R) (im : BitVec 15) : Statement (.andi d a im) := of_one rfl (rri_lt15 (by decide) (BitVec.isLt _))
theorem ori (d : R) (a : R) (im : BitVec 15) : Statement (.ori d a im) := of_one rfl (rri_lt15 (by decide) (BitVec.isLt _))
theorem xori (d : R) (a : R) (im : BitVec 15) : Statement (.xori d a im) := of_one rfl (rri_lt15 (by decide) (BitVec.isLt _))
theorem shli (d : R) (a : R) (im : BitVec 15) : Statement (.shli d a im) := of_one rfl (rri_lt15 (by decide) (BitVec.isLt _))
theorem shri (d : R) (a : R) (im : BitVec 15) : Statement (.shri d a im) := of_one rfl (rri_lt15 (by decide) (BitVec.isLt _))
theorem sari (d : R) (a : R) (im : BitVec 15) : Statement (.sari d a im) := of_one rfl (rri_lt15 (by decide) (BitVec.isLt _))
theorem movi (d : R) (im : BitVec 20) : Statement (.movi d im) := of_one rfl (rri_lt20 (by decide) (BitVec.isLt _))
theorem movh (d : R) (im : BitVec 20) : Statement (.movh d im) := of_one rfl (rri_lt20 (by decide) (BitVec.isLt _))
theorem ld (w : Width) (d : R) (a : R) (off : BitVec 12) : Statement (.ld w d a off) := of_one rfl (rri_lt15 (by decide) (by have := width_lt w; omega))
theorem ldAcq (w : Width) (d : R) (a : R) (off : BitVec 12) : Statement (.ldAcq w d a off) := of_one rfl (rri_lt15 (by decide) (by have := width_lt w; omega))
theorem st (w : Width) (d : R) (a : R) (off : BitVec 12) : Statement (.st w d a off) := of_one rfl (rri_lt15 (by decide) (by have := width_lt w; omega))
theorem stRel (w : Width) (d : R) (a : R) (off : BitVec 12) : Statement (.stRel w d a off) := of_one rfl (rri_lt15 (by decide) (by have := width_lt w; omega))
theorem mfc (d : R) (c : BitVec 15) : Statement (.mfc d c) := of_one rfl (rri_lt15 (by decide) (BitVec.isLt _))
theorem mtc (c : BitVec 15) (a : R) : Statement (.mtc c a) := of_one rfl (rri_lt15 (by decide) (BitVec.isLt _))
theorem amo (op : AOp) (w64 : Bool) (d : R) (a : R) (b : R) : Statement (.amo op w64 d a b) := of_one rfl (rrr_lt (by decide) (Nat.lt_trans (aop_lt op) (by decide)) (Nat.lt_trans (b2n_lt _) (by decide)))
theorem red (op : AOp) (w64 : Bool) (a : R) (b : R) : Statement (.red op w64 a b) := of_one rfl (rrr_lt (by decide) (Nat.lt_trans (aop_lt op) (by decide)) (Nat.lt_trans (b2n_lt _) (by decide)))
theorem scLd (w64 : Bool) (d : R) (a : R) : Statement (.scLd w64 d a) := of_one rfl (rrr_lt (by decide) (by decide) (Nat.lt_trans (b2n_lt _) (by decide)))
theorem scSt (w64 : Bool) (a : R) (b : R) : Statement (.scSt w64 a b) := of_one rfl (rrr_lt (by decide) (by decide) (Nat.lt_trans (b2n_lt _) (by decide)))
theorem scAmo (op : AOp) (w64 : Bool) (d : R) (a : R) (b : R) : Statement (.scAmo op w64 d a b) := of_one rfl (rrr_lt (by decide) (by decide) (by have := aop_lt op; have := b2n_lt w64; omega))
theorem fence (z : Scope) : Statement (.fence z) := of_one rfl (rrr_lt (by decide) (by decide) (scope_lt z))
theorem publ (a : R) : Statement (.publ a) := of_one rfl (rrr_lt (by decide) (by decide) (by decide))
theorem pubreg (d : R) (a : R) (b : R) : Statement (.pubreg d a b) := of_one rfl (rrr_lt (by decide) (by decide) (by decide))
theorem phreg (m : PhMode) (d : R) (a : R) : Statement (.phreg m d a) := of_one rfl (rrr_lt (by decide) (by decide) (phMode_lt m))
theorem phdrop (a : R) : Statement (.phdrop a) := of_one rfl (rrr_lt (by decide) (by decide) (by decide))
theorem phdropProxy (d : R) (a : R) (b : R) : Statement (.phdropProxy d a b) := of_one rfl (rrr_lt (by decide) (by decide) (by decide))
theorem phsig (a : R) : Statement (.phsig a) := of_one rfl (rrr_lt (by decide) (by decide) (by decide))
theorem phwait (d : R) (a : R) : Statement (.phwait d a) := of_one rfl (rrr_lt (by decide) (by decide) (by decide))
theorem phsw (d : R) (a : R) : Statement (.phsw d a) := of_one rfl (rrr_lt (by decide) (by decide) (by decide))
theorem phsigp (d : R) (a : R) (b : R) : Statement (.phsigp d a b) := of_one rfl (rrr_lt (by decide) (by decide) (by decide))
theorem phq (d : R) (a : R) : Statement (.phq d a) := of_one rfl (rrr_lt (by decide) (by decide) (by decide))
theorem cpy (d : R) (a : R) (b : R) : Statement (.cpy d a b) := of_one rfl (rrr_lt (by decide) (by decide) (by decide))
theorem cpy2d (d : R) (a : R) : Statement (.cpy2d d a) := of_one rfl (rrr_lt (by decide) (by decide) (by decide))
theorem cpyprom (d : R) (a : R) : Statement (.cpyprom d a) := of_one rfl (rrr_lt (by decide) (by decide) (by decide))
theorem gemb (d : R) (a : R) : Statement (.gemb d a) := of_one rfl (rrr_lt (by decide) (by decide) (by decide))
theorem nop : Statement (.nop) := of_one rfl (rrr_lt (by decide) (by decide) (by decide))
theorem halt : Statement (.halt) := of_one rfl (rrr_lt (by decide) (by decide) (by decide))
theorem cyc (d : R) : Statement (.cyc d) := of_one rfl (rrr_lt (by decide) (by decide) (by decide))
theorem ptime (d : R) : Statement (.ptime d) := of_one rfl (rrr_lt (by decide) (by decide) (by decide))
theorem waitt (a : R) : Statement (.waitt a) := of_one rfl (rrr_lt (by decide) (by decide) (by decide))
theorem trap (code : BitVec 5) : Statement (.trap code) := of_one rfl (rrr_lt (by decide) (by decide) (BitVec.isLt _))
theorem tfence : Statement (.tfence) := of_one rfl (rrr_lt (by decide) (by decide) (by decide))
theorem yield : Statement (.yield) := of_one rfl (rrr_lt (by decide) (by decide) (by decide))
theorem fork (d : R) (a : R) (b : R) : Statement (.fork d a b) := of_one rfl (rrr_lt (by decide) (by decide) (by decide))
theorem rdv : Statement (.rdv) := of_one rfl (rrr_lt (by decide) (by decide) (by decide))
theorem tstart (d : R) (a : R) (b : R) : Statement (.tstart d a b) := of_one rfl (rrr_lt (by decide) (by decide) (by decide))
theorem tstop (d : R) (a : R) : Statement (.tstop d a) := of_one rfl (rrr_lt (by decide) (by decide) (by decide))
theorem trebase (d : R) (a : R) (b : R) : Statement (.trebase d a b) := of_one rfl (rrr_lt (by decide) (by decide) (by decide))
theorem tstat (d : R) (a : R) : Statement (.tstat d a) := of_one rfl (rrr_lt (by decide) (by decide) (by decide))
theorem tokset (a : R) (b : R) : Statement (.tokset a b) := of_one rfl (rrr_lt (by decide) (by decide) (by decide))
theorem lpatch (d : R) (a : R) (b : R) : Statement (.lpatch d a b) := of_one rfl (rrr_lt (by decide) (by decide) (by decide))
theorem larm (d : R) (a : R) : Statement (.larm d a) := of_one rfl (rrr_lt (by decide) (by decide) (by decide))
theorem lstat (d : R) (a : R) : Statement (.lstat d a) := of_one rfl (rrr_lt (by decide) (by decide) (by decide))
theorem dld (k : Cls) (bank : BitVec 2) (d : R) (a : R) (b : R) : Statement (.dld k bank d a b) := of_one rfl (rrr_lt (by decide) (by decide) (by have := cls_lt k; omega))
theorem dsw (k : Cls) (bank : BitVec 2) : Statement (.dsw k bank) := of_one rfl (rrr_lt (by decide) (by decide) (by have := cls_lt k; omega))
theorem dfence : Statement (.dfence) := of_one rfl (rrr_lt (by decide) (by decide) (by decide))
theorem drd (k : Cls) (bank : BitVec 2) (d : R) (a : R) (b : R) : Statement (.drd k bank d a b) := of_one rfl (rrr_lt (by decide) (by decide) (by have := cls_lt k; omega))
theorem dinv (k : Cls) (bank : BitVec 2) (a : R) : Statement (.dinv k bank a) := of_one rfl (rrr_lt (by decide) (by decide) (by have := cls_lt k; omega))
theorem frd (d : R) (a : R) (b : R) : Statement (.frd d a b) := of_one rfl (rrr_lt (by decide) (by decide) (by decide))
theorem frdv (d : R) (a : R) (b : R) : Statement (.frdv d a b) := of_one rfl (rrr_lt (by decide) (by decide) (by decide))
theorem fwr (d : R) (a : R) (b : R) : Statement (.fwr d a b) := of_one rfl (rrr_lt (by decide) (by decide) (by decide))
theorem fwrv (d : R) (a : R) (b : R) : Statement (.fwrv d a b) := of_one rfl (rrr_lt (by decide) (by decide) (by decide))
theorem ftab (d : R) (a : R) (b : R) : Statement (.ftab d a b) := of_one rfl (rrr_lt (by decide) (by decide) (by decide))
theorem fstat (d : R) (a : R) (b : R) : Statement (.fstat d a b) := of_one rfl (rrr_lt (by decide) (by decide) (by decide))
theorem fresume (b : R) : Statement (.fresume b) := of_one rfl (rrr_lt (by decide) (by decide) (by decide))
theorem fstep (d : R) (a : R) (b : R) : Statement (.fstep d a b) := of_one rfl (rrr_lt (by decide) (by decide) (by decide))
theorem fkill (b : R) : Statement (.fkill b) := of_one rfl (rrr_lt (by decide) (by decide) (by decide))
theorem brCc (cc : Cond) (a : R) (b : R) (off : BitVec 11) : Statement (.brCc cc a b off) := of_one rfl (brw_lt (cond_lt _) (by decide))
theorem brCcNn (cc : Cond) (a : R) (b : R) (off : BitVec 11) : Statement (.brCcNn cc a b off) := of_one rfl (brw_lt (cond_lt _) (by decide))
theorem brCcNt (cc : Cond) (a : R) (b : R) (off : BitVec 11) : Statement (.brCcNt cc a b off) := of_one rfl (brw_lt (cond_lt _) (by decide))
theorem j (off : BitVec 25) : Statement (.j off) := of_one rfl (by omega)
theorem jl (off : BitVec 25) : Statement (.jl off) := of_one rfl (by omega)
theorem jr (a : R) : Statement (.jr a) := of_one rfl (rrr_lt (by decide) (by decide) (by decide))
theorem jlr (d : R) (a : R) : Statement (.jlr d a) := of_one rfl (rrr_lt (by decide) (by decide) (by decide))
theorem scalarLongForm (form : BitVec 64) : Statement (.scalarLongForm form) := longWords_fits (by decide) (BitVec.isLt _)
theorem dictionaryWord (e : BitVec 8) (h : BitVec 23) : Statement (.dictionaryWord e h) := of_one rfl (by omega)
theorem engineLongForm (delay : BitVec 4) (form : BitVec 64) : Statement (.engineLongForm delay form) := longWords_fits (BitVec.isLt _) (BitVec.isLt _)
theorem vmov (m : Micro) : Statement (.vmov m) := of_micro 0x01 rfl (by decide)
theorem vmovi (m : Micro) : Statement (.vmovi m) := of_micro 0x02 rfl (by decide)
theorem vmvs (m : Micro) : Statement (.vmvs m) := of_micro 0x03 rfl (by decide)
theorem vadd (m : Micro) : Statement (.vadd m) := of_micro 0x04 rfl (by decide)
theorem vsub (m : Micro) : Statement (.vsub m) := of_micro 0x05 rfl (by decide)
theorem vadds (m : Micro) : Statement (.vadds m) := of_micro 0x06 rfl (by decide)
theorem vsubs (m : Micro) : Statement (.vsubs m) := of_micro 0x07 rfl (by decide)
theorem vmul (m : Micro) : Statement (.vmul m) := of_micro 0x08 rfl (by decide)
theorem vmulh (m : Micro) : Statement (.vmulh m) := of_micro 0x09 rfl (by decide)
theorem vmulw (m : Micro) : Statement (.vmulw m) := of_micro 0x0A rfl (by decide)
theorem vmac (m : Micro) : Statement (.vmac m) := of_micro 0x0B rfl (by decide)
theorem vand (m : Micro) : Statement (.vand m) := of_micro 0x0C rfl (by decide)
theorem vor (m : Micro) : Statement (.vor m) := of_micro 0x0D rfl (by decide)
theorem vxor (m : Micro) : Statement (.vxor m) := of_micro 0x0E rfl (by decide)
theorem vandn (m : Micro) : Statement (.vandn m) := of_micro 0x0F rfl (by decide)
theorem vshl (m : Micro) : Statement (.vshl m) := of_micro 0x10 rfl (by decide)
theorem vshr (m : Micro) : Statement (.vshr m) := of_micro 0x11 rfl (by decide)
theorem vsar (m : Micro) : Statement (.vsar m) := of_micro 0x12 rfl (by decide)
theorem vmin (m : Micro) : Statement (.vmin m) := of_micro 0x13 rfl (by decide)
theorem vmax (m : Micro) : Statement (.vmax m) := of_micro 0x14 rfl (by decide)
theorem vabs (m : Micro) : Statement (.vabs m) := of_micro 0x15 rfl (by decide)
theorem vneg (m : Micro) : Statement (.vneg m) := of_micro 0x16 rfl (by decide)
theorem vclz (m : Micro) : Statement (.vclz m) := of_micro 0x17 rfl (by decide)
theorem vpopc (m : Micro) : Statement (.vpopc m) := of_micro 0x18 rfl (by decide)
theorem vcmp (m : Micro) : Statement (.vcmp m) := of_micro 0x19 rfl (by decide)
theorem vsel (m : Micro) : Statement (.vsel m) := of_micro 0x1A rfl (by decide)
theorem mop (m : Micro) : Statement (.mop m) := of_micro 0x1B rfl (by decide)
theorem mpopc (m : Micro) : Statement (.mpopc m) := of_micro 0x1C rfl (by decide)
theorem mfirst (m : Micro) : Statement (.mfirst m) := of_micro 0x1D rfl (by decide)
theorem vfadd (m : Micro) : Statement (.vfadd m) := of_micro 0x1E rfl (by decide)
theorem vfsub (m : Micro) : Statement (.vfsub m) := of_micro 0x1F rfl (by decide)
theorem vfmul (m : Micro) : Statement (.vfmul m) := of_micro 0x20 rfl (by decide)
theorem vfma (m : Micro) : Statement (.vfma m) := of_micro 0x21 rfl (by decide)
theorem vfms (m : Micro) : Statement (.vfms m) := of_micro 0x22 rfl (by decide)
theorem vfnma (m : Micro) : Statement (.vfnma m) := of_micro 0x23 rfl (by decide)
theorem vfmin (m : Micro) : Statement (.vfmin m) := of_micro 0x24 rfl (by decide)
theorem vfmax (m : Micro) : Statement (.vfmax m) := of_micro 0x25 rfl (by decide)
theorem vfabs (m : Micro) : Statement (.vfabs m) := of_micro 0x26 rfl (by decide)
theorem vfneg (m : Micro) : Statement (.vfneg m) := of_micro 0x27 rfl (by decide)
theorem vfcmp (m : Micro) : Statement (.vfcmp m) := of_micro 0x28 rfl (by decide)
theorem vrcp (m : Micro) : Statement (.vrcp m) := of_micro 0x29 rfl (by decide)
theorem vrsq (m : Micro) : Statement (.vrsq m) := of_micro 0x2A rfl (by decide)
theorem vsqrt (m : Micro) : Statement (.vsqrt m) := of_micro 0x2B rfl (by decide)
theorem vexp2 (m : Micro) : Statement (.vexp2 m) := of_micro 0x2C rfl (by decide)
theorem vlog2 (m : Micro) : Statement (.vlog2 m) := of_micro 0x2D rfl (by decide)
theorem vtanh (m : Micro) : Statement (.vtanh m) := of_micro 0x2E rfl (by decide)
theorem vcvt (m : Micro) : Statement (.vcvt m) := of_micro 0x2F rfl (by decide)
theorem vpack (m : Micro) : Statement (.vpack m) := of_micro 0x30 rfl (by decide)
theorem vunpk (m : Micro) : Statement (.vunpk m) := of_micro 0x31 rfl (by decide)
theorem vredadd (m : Micro) : Statement (.vredadd m) := of_micro 0x32 rfl (by decide)
theorem vredmax (m : Micro) : Statement (.vredmax m) := of_micro 0x33 rfl (by decide)
theorem vredmin (m : Micro) : Statement (.vredmin m) := of_micro 0x34 rfl (by decide)
theorem vscan (m : Micro) : Statement (.vscan m) := of_micro 0x35 rfl (by decide)
theorem vperm (m : Micro) : Statement (.vperm m) := of_micro 0x36 rfl (by decide)
theorem vshuf (m : Micro) : Statement (.vshuf m) := of_micro 0x37 rfl (by decide)
theorem vslide (m : Micro) : Statement (.vslide m) := of_micro 0x38 rfl (by decide)
theorem vbcast (m : Micro) : Statement (.vbcast m) := of_micro 0x39 rfl (by decide)
theorem vext (m : Micro) : Statement (.vext m) := of_micro 0x3A rfl (by decide)
theorem vins (m : Micro) : Statement (.vins m) := of_micro 0x3B rfl (by decide)
theorem vcompress (m : Micro) : Statement (.vcompress m) := of_micro 0x3C rfl (by decide)
theorem vexpand (m : Micro) : Statement (.vexpand m) := of_micro 0x3D rfl (by decide)
theorem vld (m : Micro) : Statement (.vld m) := of_micro 0x40 rfl (by decide)
theorem vst (m : Micro) : Statement (.vst m) := of_micro 0x41 rfl (by decide)
theorem vlds (m : Micro) : Statement (.vlds m) := of_micro 0x42 rfl (by decide)
theorem vgath (m : Micro) : Statement (.vgath m) := of_micro 0x43 rfl (by decide)
theorem vscat (m : Micro) : Statement (.vscat m) := of_micro 0x44 rfl (by decide)
theorem vcvtSr (m : Micro) : Statement (.vcvtSr m) := of_micro 0x45 rfl (by decide)
theorem vmoment (m : Micro) : Statement (.vmoment m) := of_micro 0x46 rfl (by decide)
theorem vnormapply (m : Micro) : Statement (.vnormapply m) := of_micro 0x47 rfl (by decide)
theorem vplane (m : Micro) : Statement (.vplane m) := of_micro 0x48 rfl (by decide)
theorem tzero (m : Micro) : Statement (.tzero m) := of_micro 0x01 rfl (by decide)
theorem lease (m : Micro) : Statement (.lease m) := of_micro 0x02 rfl (by decide)
theorem lrel (m : Micro) : Statement (.lrel m) := of_micro 0x03 rfl (by decide)
theorem mma (m : Micro) : Statement (.mma m) := of_micro 0x04 rfl (by decide)
theorem mmas (m : Micro) : Statement (.mmas m) := of_micro 0x05 rfl (by decide)
theorem bopen (m : Micro) : Statement (.bopen m) := of_micro 0x06 rfl (by decide)
theorem bopenS (m : Micro) : Statement (.bopenS m) := of_micro 0x07 rfl (by decide)
theorem cbatch (m : Micro) : Statement (.cbatch m) := of_micro 0x08 rfl (by decide)
theorem wbatch (m : Micro) : Statement (.wbatch m) := of_micro 0x09 rfl (by decide)
theorem commit (m : Micro) : Statement (.commit m) := of_micro 0x0A rfl (by decide)
theorem discard (m : Micro) : Statement (.discard m) := of_micro 0x0B rfl (by decide)
theorem accz (m : Micro) : Statement (.accz m) := of_micro 0x0C rfl (by decide)
theorem tcfg (delay : BitVec 4) (tile : F7) (cfg : BitVec 25) (tok : Tok) : Statement (.tcfg delay tile cfg tok) := longWords_fits (BitVec.isLt _) (by have := encTok_lt tok; omega)
theorem tld (m : Micro) : Statement (.tld m) := of_micro 0x41 rfl (by decide)
theorem tst (m : Micro) : Statement (.tst m) := of_micro 0x42 rfl (by decide)
theorem accrd (m : Micro) : Statement (.accrd m) := of_micro 0x43 rfl (by decide)
theorem accrdIn (m : Micro) : Statement (.accrdIn m) := of_micro 0x43 rfl (by decide)
theorem gset (m : Micro) : Statement (.gset m) := of_micro 0x40 rfl (by decide)
theorem gb (m : Micro) : Statement (.gb m) := of_micro 0x41 rfl (by decide)
theorem lsLd (m : Micro) : Statement (.lsLd m) := of_micro 0x40 rfl (by decide)
theorem lsLdAcq (m : Micro) : Statement (.lsLdAcq m) := of_micro 0x42 rfl (by decide)
theorem lsSt (m : Micro) : Statement (.lsSt m) := of_micro 0x41 rfl (by decide)
theorem lsStRel (m : Micro) : Statement (.lsStRel m) := of_micro 0x43 rfl (by decide)
theorem lsRed (m : Micro) : Statement (.lsRed m) := of_micro 0x44 rfl (by decide)
theorem lsPubl (m : Micro) : Statement (.lsPubl m) := of_micro 0x45 rfl (by decide)
theorem rdc (m : Micro) : Statement (.rdc m) := of_micro 0x01 rfl (by decide)
theorem flt (m : Micro) : Statement (.flt m) := of_micro 0x02 rfl (by decide)
theorem mcast (m : Micro) : Statement (.mcast m) := of_micro 0x03 rfl (by decide)
theorem pass (m : Micro) : Statement (.pass m) := of_micro 0x04 rfl (by decide)
theorem idle (m : Micro) : Statement (.idle m) := of_micro 0x05 rfl (by decide)
theorem rtadv (m : Micro) : Statement (.rtadv m) := of_micro 0x06 rfl (by decide)
theorem kskip (b : R) (a : R) (d : R) : Statement (.kskip b a d) := of_one rfl (by simp only [encode.rcap]; omega)
theorem ktrim (b : R) (a : R) (d : R) : Statement (.ktrim b a d) := of_one rfl (by simp only [encode.rcap]; omega)
theorem kdrop (b : R) (a : R) (d : R) : Statement (.kdrop b a d) := of_one rfl (by simp only [encode.rcap]; omega)
theorem kstamp (b : R) (a : R) (d : R) : Statement (.kstamp b a d) := of_one rfl (by simp only [encode.rcap]; omega)
theorem kfld (b : R) (a : R) (d : R) : Statement (.kfld b a d) := of_one rfl (by simp only [encode.rcap]; omega)
theorem kinfo (sl : R) (a : R) (d : R) : Statement (.kinfo sl a d) := of_one rfl (by simp only [encode.rcap]; omega)
theorem ktake (b : R) (a : R) (d : R) : Statement (.ktake b a d) := of_one rfl (by simp only [encode.rcap]; omega)
theorem kgive (b : R) (a : R) (d : R) : Statement (.kgive b a d) := of_one rfl (by simp only [encode.rcap]; omega)
theorem illegalOp (w : IWord) : Statement (.illegalOp w) := of_none rfl
theorem qtailDoorbell : Statement (.qtailDoorbell) := of_none rfl
theorem qctlWrite : Statement (.qctlWrite) := of_none rfl
theorem cheadWrite : Statement (.cheadWrite) := of_none rfl
theorem evheadWrite : Statement (.evheadWrite) := of_none rfl
theorem registerWrite : Statement (.registerWrite) := of_none rfl
theorem packetRead : Statement (.packetRead) := of_none rfl
theorem launchDispatch : Statement (.launchDispatch) := of_none rfl
theorem ctxCreate : Statement (.ctxCreate) := of_none rfl
theorem ctxTeardown : Statement (.ctxTeardown) := of_none rfl
theorem rcbUpdate : Statement (.rcbUpdate) := of_none rfl
theorem basketSize : Statement (.basketSize) := of_none rfl
theorem basketPut : Statement (.basketPut) := of_none rfl
theorem basketDel : Statement (.basketDel) := of_none rfl
theorem energySet : Statement (.energySet) := of_none rfl
theorem powerCap : Statement (.powerCap) := of_none rfl
theorem queueReset : Statement (.queueReset) := of_none rfl
theorem ifst : Statement (.ifst) := of_none rfl
theorem xinval : Statement (.xinval) := of_none rfl
theorem rangerSet : Statement (.rangerSet) := of_none rfl
theorem hamperSet : Statement (.hamperSet) := of_none rfl
theorem partSwap : Statement (.partSwap) := of_none rfl
theorem abxAdd : Statement (.abxAdd) := of_none rfl
theorem abxAnd : Statement (.abxAnd) := of_none rfl
theorem abxOr : Statement (.abxOr) := of_none rfl
theorem abxXor : Statement (.abxXor) := of_none rfl
theorem abxMin : Statement (.abxMin) := of_none rfl
theorem abxMax : Statement (.abxMax) := of_none rfl
theorem abxMinn : Statement (.abxMinn) := of_none rfl
theorem abxMaxn : Statement (.abxMaxn) := of_none rfl
theorem abxSwap : Statement (.abxSwap) := of_none rfl
theorem abxCas : Statement (.abxCas) := of_none rfl
theorem xinvPage : Statement (.xinvPage) := of_none rfl
theorem xinvContext : Statement (.xinvContext) := of_none rfl
theorem rfstatPendClear : Statement (.rfstatPendClear) := of_none rfl
theorem atomicopFetchadd : Statement (.atomicopFetchadd) := of_none rfl
theorem atomicopSwap : Statement (.atomicopSwap) := of_none rfl
theorem atomicopCas : Statement (.atomicopCas) := of_none rfl
theorem hdmRead : Statement (.hdmRead) := of_none rfl
theorem hdmWrite : Statement (.hdmWrite) := of_none rfl
theorem msixUnmask : Statement (.msixUnmask) := of_none rfl
theorem fmLdInfo : Statement (.fmLdInfo) := of_none rfl
theorem fmLdAllocation : Statement (.fmLdAllocation) := of_none rfl
theorem getVersion : Statement (.getVersion) := of_none rfl
theorem getCapabilities : Statement (.getCapabilities) := of_none rfl
theorem negotiateAlgorithms : Statement (.negotiateAlgorithms) := of_none rfl
theorem getDigests : Statement (.getDigests) := of_none rfl
theorem getCertificate : Statement (.getCertificate) := of_none rfl
theorem challenge : Statement (.challenge) := of_none rfl
theorem getMeasurements : Statement (.getMeasurements) := of_none rfl
theorem keyExchange : Statement (.keyExchange) := of_none rfl
theorem finish : Statement (.finish) := of_none rfl
theorem heartbeat : Statement (.heartbeat) := of_none rfl
theorem keyUpdate : Statement (.keyUpdate) := of_none rfl
theorem endSession : Statement (.endSession) := of_none rfl
theorem spdmOtherRequest : Statement (.spdmOtherRequest) := of_none rfl
theorem powerGood : Statement (.powerGood) := of_none rfl
theorem dieBootStep : Statement (.dieBootStep) := of_none rfl
theorem reconfiguration : Statement (.reconfiguration) := of_none rfl
theorem diePrime : Statement (.diePrime) := of_none rfl
theorem jobStart : Statement (.jobStart) := of_none rfl
theorem streamDone : Statement (.streamDone) := of_none rfl
theorem rendezvousComplete : Statement (.rendezvousComplete) := of_none rfl
theorem shareSwitch : Statement (.shareSwitch) := of_none rfl
theorem shareSwitchEnd : Statement (.shareSwitchEnd) := of_none rfl
theorem haltStop : Statement (.haltStop) := of_none rfl
theorem resultWrite : Statement (.resultWrite) := of_none rfl
theorem tokenBeatArrival : Statement (.tokenBeatArrival) := of_none rfl
theorem storeBufferDrain : Statement (.storeBufferDrain) := of_none rfl
theorem releaseComplete : Statement (.releaseComplete) := of_none rfl
theorem atomicSlotServe : Statement (.atomicSlotServe) := of_none rfl
theorem atomicUnitServe : Statement (.atomicUnitServe) := of_none rfl
theorem atomicReply : Statement (.atomicReply) := of_none rfl
theorem scEffect : Statement (.scEffect) := of_none rfl
theorem scPositionReached : Statement (.scPositionReached) := of_none rfl
theorem seqAtomicResend : Statement (.seqAtomicResend) := of_none rfl
theorem redFaultLog : Statement (.redFaultLog) := of_none rfl
theorem hostCompletion : Statement (.hostCompletion) := of_none rfl
theorem completionTimeout : Statement (.completionTimeout) := of_none rfl
theorem dldEntryArrival : Statement (.dldEntryArrival) := of_none rfl
theorem copyPacketWrite : Statement (.copyPacketWrite) := of_none rfl
theorem copyComplete : Statement (.copyComplete) := of_none rfl
theorem promiseDue : Statement (.promiseDue) := of_none rfl
theorem waittWake : Statement (.waittWake) := of_none rfl
theorem retrainingSchedule : Statement (.retrainingSchedule) := of_none rfl
theorem retrainingPauseStart : Statement (.retrainingPauseStart) := of_none rfl
theorem retrainingPauseEnd : Statement (.retrainingPauseEnd) := of_none rfl
theorem trainingError : Statement (.trainingError) := of_none rfl
theorem translationWalk : Statement (.translationWalk) := of_none rfl
theorem translationPauseStart : Statement (.translationPauseStart) := of_none rfl
theorem translationPauseEnd : Statement (.translationPauseEnd) := of_none rfl
theorem invalidationForward : Statement (.invalidationForward) := of_none rfl
theorem invalidationDieAck : Statement (.invalidationDieAck) := of_none rfl
theorem invalidationComplete : Statement (.invalidationComplete) := of_none rfl
theorem publPublish : Statement (.publPublish) := of_none rfl
theorem pubregComplete : Statement (.pubregComplete) := of_none rfl
theorem phaserSignalArrival : Statement (.phaserSignalArrival) := of_none rfl
theorem phaserReply : Statement (.phaserReply) := of_none rfl
theorem phwaitComplete : Statement (.phwaitComplete) := of_none rfl
theorem leaseGrant : Statement (.leaseGrant) := of_none rfl
theorem leaseEnd : Statement (.leaseEnd) := of_none rfl
theorem mmaStepAccept : Statement (.mmaStepAccept) := of_none rfl
theorem mmaStepWrite : Statement (.mmaStepWrite) := of_none rfl
theorem batchCommit : Statement (.batchCommit) := of_none rfl
theorem tagResolve : Statement (.tagResolve) := of_none rfl
theorem tldRowWrite : Statement (.tldRowWrite) := of_none rfl
theorem gbLanding : Statement (.gbLanding) := of_none rfl
theorem landingCreditReturn : Statement (.landingCreditReturn) := of_none rfl
theorem stripPacketDelivery : Statement (.stripPacketDelivery) := of_none rfl
theorem freezeBroadcastArrival : Statement (.freezeBroadcastArrival) := of_none rfl
theorem freezeRewind : Statement (.freezeRewind) := of_none rfl
theorem rangerSpawn : Statement (.rangerSpawn) := of_none rfl
theorem poolReturn : Statement (.poolReturn) := of_none rfl
theorem rangerTimeout : Statement (.rangerTimeout) := of_none rfl
theorem resumeStart : Statement (.resumeStart) := of_none rfl
theorem eventPost : Statement (.eventPost) := of_none rfl
theorem eventBackpressure : Statement (.eventBackpressure) := of_none rfl
theorem slotBoundary : Statement (.slotBoundary) := of_none rfl
theorem thermosSwapEnd : Statement (.thermosSwapEnd) := of_none rfl
theorem periodBoundary : Statement (.periodBoundary) := of_none rfl
theorem foldArrival : Statement (.foldArrival) := of_none rfl
theorem staticCharge : Statement (.staticCharge) := of_none rfl
theorem energyGather : Statement (.energyGather) := of_none rfl
theorem deadlineMiss : Statement (.deadlineMiss) := of_none rfl
theorem governorTick : Statement (.governorTick) := of_none rfl
theorem thermalSample : Statement (.thermalSample) := of_none rfl
theorem hotRailStep : Statement (.hotRailStep) := of_none rfl
theorem shedExpire : Statement (.shedExpire) := of_none rfl
theorem railSwitchDone : Statement (.railSwitchDone) := of_none rfl
theorem droop : Statement (.droop) := of_none rfl
theorem clockRelockDone : Statement (.clockRelockDone) := of_none rfl
theorem completionRecordWrite : Statement (.completionRecordWrite) := of_none rfl
theorem coalesceTimer : Statement (.coalesceTimer) := of_none rfl
theorem completionRetryTimer : Statement (.completionRetryTimer) := of_none rfl
theorem queueResetComplete : Statement (.queueResetComplete) := of_none rfl
theorem spill : Statement (.spill) := of_none rfl
theorem spillComplete : Statement (.spillComplete) := of_none rfl
theorem restoreComplete : Statement (.restoreComplete) := of_none rfl
theorem partSwapHalted : Statement (.partSwapHalted) := of_none rfl
theorem partSwapStart : Statement (.partSwapStart) := of_none rfl
theorem pinRelease : Statement (.pinRelease) := of_none rfl
theorem ifstUnitComplete : Statement (.ifstUnitComplete) := of_none rfl
theorem linkBeatError : Statement (.linkBeatError) := of_none rfl
theorem linkReplay : Statement (.linkReplay) := of_none rfl
theorem capAccess : Statement (.capAccess) := of_none rfl
theorem tokenCreditReturn : Statement (.tokenCreditReturn) := of_none rfl
theorem hostLinkRetrain : Statement (.hostLinkRetrain) := of_none rfl
theorem commandComplexReply : Statement (.commandComplexReply) := of_none rfl
theorem frozenStateReply : Statement (.frozenStateReply) := of_none rfl
theorem droopEnd : Statement (.droopEnd) := of_none rfl

end Sys2Proof.Laws.Encoded
end

