-- ==== Sys2Proof/Laws/Reply.lean ====
section
/-! SUPPORT. Replies: a held scalar word completes (R279, R322), and the agenda of events to come. -/

namespace Sys2Proof.Machine

/-- What is put into the agenda stands in it, and what stood there stays. -/
theorem mem_agendaAdd (l : List (Nat × Instr × List Nat)) (t : Nat) (e : Instr) (a : List Nat) : (t, e, a) ∈ agendaAdd l t e a := by
  induction l with
  | nil => simp [agendaAdd]
  | cons p r ih => obtain ⟨t', x⟩ := p; simp only [agendaAdd]; split <;> simp [ih]

theorem mem_agendaAdd_of (l : List (Nat × Instr × List Nat)) (x : Nat × Instr × List Nat) (t : Nat) (e : Instr) (a : List Nat) (h : x ∈ l) : x ∈ agendaAdd l t e a := by
  induction l with
  | nil => simp at h
  | cons p r ih =>
    obtain ⟨t', y⟩ := p; simp only [agendaAdd]; split
    · simp [h]
    · rcases List.mem_cons.1 h with h | h
      · simp [h]
      · simp [ih h]

/-- A scalar word retires: its stream's queue moves on by one (R322). -/
theorem Mach.retire_spec (m : Mach) (now : Nat) (h : m.cs.sel.cls = .scalar) :
    ∃ n e, m.Walked n m.cur 0x10 ∧ e.waddr = m.cs.fq2.succ % 2 ^ 24 ∧
      m.retire now = n.modStr m.cur (fun s => { s with fq0 := s.fq1, fq1 := s.fq2, fq2 := e, lastIssue := m.jobCyc now m.cs.job m.cs.sel.lc, fresh := false, hold := .none, slots := s.slots - 1 }) := by
  obtain ⟨n, e, h1, h2, h3, h4⟩ := m.advance_spec now m.cur none false
  refine ⟨n, e, h1, h2, ?_⟩
  rw [Mach.retire, if_pos (by rw [h]; rfl), h4]; rfl

/-- What a reply leaves on the machine (R279): the word's stream moved past it with `v` in register `d`, the fetch's A bits, nothing else. -/
structure Mach.Moves (m n : Mach) (sid : Nat) (d : R) (v : Word) : Prop where
  hold : (n.str sid).hold = .none
  fq0 : (n.str sid).fq0 = (m.str sid).fq1
  fq1 : (n.str sid).fq1 = (m.str sid).fq2
  rd : ∀ r, (n.str sid).rd r = if r = 0 then 0 else if r = d then v else (m.str sid).rd r
  others : ∀ i, i ≠ sid → n.str i = m.str i
  mem : ∀ a, ∃ k : Byte, k &&& ~~~0x10 = 0 ∧ homeByte n.homes a = homeByte m.homes a ||| k
  snap : (n.str sid).snap = (m.str sid).snap
  state : (n.str sid).state = (m.str sid).state
  dies : ∀ k, (n.die k).plain = (m.die k).plain
  rest : n = { m with cur := sid, homes := n.homes, slices := n.slices, miss := n.miss, streams := n.streams, dies := n.dies,
                      spoiled := m.spoiled.filter (fun x => !(x.1 == .scalar sid d.toNat)) }

theorem Mach.replyReg_moves (m : Mach) (now sid : Nat) (d : R) (v : Word) (h : (m.str sid).sel.cls = .scalar) : m.Moves (m.replyReg now sid d v) sid d v := by
  set m1 : Mach := (({ m with cur := sid } : Mach).modStr sid (fun s => s.wr d.toNat v)).mend (.scalar sid d.toNat) (fun _ => true) with hm1
  have hc : m1.cur = sid := rfl
  have hs : m1.cs = (m.str sid).wr d.toNat v := by rw [Mach.cs, hc, hm1]; rw [Mach.str_mend, Mach.str_modStr_same]; rfl
  have hw : ∀ x : Stream, (x.wr d.toNat v).sel = x.sel ∧ (x.wr d.toNat v).fq1 = x.fq1 ∧ (x.wr d.toNat v).fq2 = x.fq2 ∧ (x.wr d.toNat v).snap = x.snap
     ∧ (x.wr d.toNat v).state = x.state := by
    intro x; unfold Stream.wr; split <;> simp
  obtain ⟨n, e, h1, h2, h3⟩ := m1.retire_spec now (by rw [hs, (hw _).1]; exact h)
  have hr : m.replyReg now sid d v = m1.retire now := rfl
  have hn := h1.own
  rw [hc] at hn h3
  have hs' : m1.str sid = (m.str sid).wr d.toNat v := by rw [← hs, Mach.cs, hc]
  rw [hs'] at hn
  have hx := congrArg (fun q : Mach => q.str sid) (hr.trans h3)
  simp only [Mach.str_modStr_same] at hx
  refine ⟨by rw [hx], ?_, ?_, ?_, ?_, ?_, ?_, ?_, ?_, ?_⟩
  · rw [hx]; show (n.str sid).fq1 = _; rw [hn]; exact (hw _).2.1
  · rw [hx]; show (n.str sid).fq2 = _; rw [hn]; exact (hw _).2.2.1
  · intro r
    have hg : ((m.replyReg now sid d v).str sid).regs = ((m.str sid).wr d.toNat v).regs := by rw [hx]; show (n.str sid).regs = _; rw [hn]
    have : ((m.replyReg now sid d v).str sid).rd r = ((m.str sid).wr d.toNat v).rd r := by simp [Stream.rd, hg]
    rw [this, Stream.rd_wr]
    simp only [BitVec.toNat_inj]
  · intro i hi
    rw [hr, h3, Mach.str_modStr_ne _ _ hi, h1.others i (by rw [hc]; exact hi), hm1]
    rw [Mach.str_mend, Mach.str_modStr_ne _ _ hi]; rfl
  · intro a
    obtain ⟨k, hk, e⟩ := h1.mem a
    refine ⟨k, hk, ?_⟩
    rw [hr, h3]; exact e
  · rw [hx]; show (n.str sid).snap = _; rw [hn]; exact (hw _).2.2.2.1
  · rw [hx]; show (n.str sid).state = _; rw [hn]; exact (hw _).2.2.2.2
  · intro k; rw [hr, h3]; exact h1.dies k
  · rw [hr, h3, h1.rest, hm1]
    simp only [Mach.mend, Bool.and_true]
    rfl

end Sys2Proof.Machine
end

