-- ==== Sys2Proof/Tests/Slice0.lean ====
section
/-! SUPPORT. Tests: ill-formed terms that `Instr.wf` refuses, words written out from the encodings, single steps, and for each
statement states and operands that meet the hypotheses of its clauses (`wit_…`; `okAnd x f`: x is a success that meets f). -/

namespace Sys2Proof.Tests

open Sys2Proof Sys2Proof.Machine

/-! ### Well-formedness: one ill-formed term for each check -/

theorem test_wf_compare_always : (Instr.cmpCc .al 1 2 0).wf = false := by decide
theorem test_wf_branch_always : (Instr.brCc .al 0 2 4).wf = false ∧ (Instr.brCcNn .al 1 0 4).wf = false ∧ (Instr.brCcNt .al 1 1 4).wf = false := by
  decide
theorem test_wf_red_swap : (Instr.red .swap true 1 2).wf = false ∧ (Instr.red .cas true 1 2).wf = false := by decide
theorem test_wf_proxy_zero : (Instr.phdropProxy 1 2 0).wf = false := by decide
theorem test_wf_kinfo_selector : (Instr.kinfo 6 0 0).wf = false := by decide

/-- A native micro-order. -/
def nat (d a b : F7) : Micro := { delay := 0, dest := d, srcA := a, srcB := b }
/-- A long micro-order. -/
def lng (d a b : F7) (t : Tail) : Micro := { delay := 0, dest := d, srcA := a, srcB := b, long := some t }

theorem test_wf_unused_field : (Instr.vmov (nat 64 65 1)).wf = false := by decide
theorem test_wf_vector_register : (Instr.vadd (nat 64 7 65)).wf = false ∧ (Instr.vadd (nat 64 16 65)).wf = false := by decide
theorem test_wf_third_register : (Instr.vmac (lng 64 65 66 { srcC := 16 })).wf = false := by decide
theorem test_wf_mask_register : (Instr.vcmp (nat 0 64 65)).wf = false ∧ (Instr.mop (nat 1 8 0)).wf = false ∧ (Instr.mpopc (nat 64 8 0)).wf = false := by
  decide
theorem test_wf_scalar_register : (Instr.vmvs (nat 64 32 0)).wf = false := by decide
theorem test_wf_type_operand : (Instr.vcvt (nat 64 65 32)).wf = false := by decide
theorem test_wf_long_only : (Instr.vld (nat 64 0 0)).wf = false ∧ (Instr.vmoment (nat 64 65 0)).wf = false ∧ (Instr.gset (nat 0 0 0)).wf = false := by
  decide
theorem test_wf_index : (Instr.vlds (lng 64 16 0 {})).wf = false := by decide
theorem test_wf_tile : (Instr.mma (nat 33 15 18)).wf = false ∧ (Instr.tzero (nat 32 0 0)).wf = false ∧ (Instr.tcfg 0 32 0 {}).wf = false := by decide
theorem test_wf_accumulator : (Instr.accz (nat 36 0 0)).wf = false ∧ (Instr.mma (nat 16 16 18)).wf = false := by decide
theorem test_wf_lease : (Instr.lease (nat 0 0 0)).wf = false ∧ (Instr.lease (nat 0 65 0)).wf = false := by decide
theorem test_wf_batch : (Instr.bopen (nat 0 16 0)).wf = false ∧ (Instr.cbatch (lng 0 0 0 { srcC := 4 })).wf = false := by decide
theorem test_wf_tag : (Instr.commit (nat 0 4 0)).wf = false := by decide
theorem test_wf_tile_transfer : (Instr.tld (lng 16 32 0 {})).wf = false ∧ (Instr.accrd (lng 32 16 0 {})).wf = false ∧
    (Instr.accrdIn (lng 32 15 0 {})).wf = false := by decide
theorem test_wf_slot : (Instr.gset (lng 8 0 0 {})).wf = false ∧ (Instr.gb (lng 8 0 0 {})).wf = false := by decide
theorem test_wf_stream : (Instr.lsLd (lng 16 0 0 {})).wf = false ∧ (Instr.lsRed (lng 0 16 0 {})).wf = false ∧
    (Instr.lsPubl (lng 1 0 0 {})).wf = false := by decide
theorem test_wf_port : (Instr.rdc (nat 16 0 0)).wf = false ∧ (Instr.flt (nat 1 0 0)).wf = false ∧ (Instr.pass (nat 0 0 1)).wf = false := by decide
theorem test_wf_rounding : (Instr.vfadd (lng 64 65 66 { rnd := 7 })).wf = false := by decide
theorem test_wf_token_field : (Instr.vadd (lng 64 65 66 { tok := { we := false, wfifo := 1 } })).wf = false := by decide

/-! ### Words written out from the encodings -/

/-- ADD S3, S1, S2: 0x01, sd 3, sa 1, sb 2, sub 0 (R83, R87). -/
theorem test_word_add : decodeWord .scalar false 0b0_000001_00011_00001_00010_00000_00000 0 0 = .ok (.add 3 1 2) := by decide
/-- MUL S6, S1, S2 and DIV S10, S1, S0 (R87). -/
theorem test_word_mul : decodeWord .scalar false 0b0_000010_00110_00001_00010_00000_00000 0 0 = .ok (.mul 6 1 2) ∧
    decodeWord .scalar false 0b0_000010_01010_00001_00000_00011_00000 0 0 = .ok (.div 10 1 0) := by decide
/-- ADDI S4, S4, −8 (R86). -/
theorem test_word_addi : decodeWord .scalar false 0b0_000100_00100_00100_111111111111000 0 0 = .ok (.addi 4 4 0x7FF8) := by decide
/-- LD.s16 S1, [S2 − 2] (R88). -/
theorem test_word_ld : decodeWord .scalar false 0b0_001101_00001_00010_011_111111111110 0 0 = .ok (.ld .s16 1 2 0xFFE) := by decide
/-- MFC S2, 0x60: opcode 0x11, sa 0 (R88). -/
theorem test_word_mfc : decodeWord .scalar false 0b0_010001_00010_00000_000000001100000 0 0 = .ok (.mfc 2 0x60) := by decide
/-- SC.ST 64-bit (R87), FENCE.package, PHREG wait-only, CPY, TRAP 7. -/
theorem test_word_system : decodeWord .scalar false 0x2A031C21 0 0 = .ok (.scSt true 6 7) ∧
    decodeWord .scalar false 0b0_010110_00000_00000_00000_00000_00010 0 0 = .ok (.fence .package) ∧
    decodeWord .scalar false 0b0_010111_00001_00010_00000_00000_00001 0 0 = .ok (.phreg .wo 1 2) ∧
    decodeWord .scalar false 0b0_011000_00001_00010_00011_00000_00000 0 0 = .ok (.cpy 1 2 3) ∧
    decodeWord .scalar false 0x320000A7 0 0 = .ok (.trap 7) := by decide
/-- BR.LT.NN S1, S2, −5 (R83, R85). -/
theorem test_word_branch : decodeWord .scalar false 0x421127FB 0 0 = .ok (.brCcNn .lt 1 2 0x7FB) := by decide
/-- FSTAT S5, S6, S1 decodes in a ranger only (R86, R415). -/
theorem test_word_ranger : decodeWord .scalar true 0x3A5304A0 0 0 = .ok (.fstat 5 6 1) ∧
    decodeWord .scalar false 0x3A5304A0 0 0 = .error .illegalOp := by decide
/-- VFADD V5 with delay 2, MMA A1, T0, T2, RDC 3, 1, 2, KSKIP K5, K6, x7 (R89, R98, R387). -/
theorem test_word_engine : decodeWord .vector false 0x3C51400B 0 0 = .ok (.vfadd { delay := 2, dest := 69, srcA := 0, srcB := 11 }) ∧
    decodeWord .matrix false 0x08084812 0 0 = .ok (.mma (nat 33 16 18)) ∧ decodeWord .strip false 0x0200C082 0 0 = .ok (.rdc (nat 3 1 2)) ∧
    decodeCap 0x0073028B = .ok (.kskip 7 6 5) := by decide
/-- LD 0(LB1), 1024(LB2), sig3 and VLD.f32 V4, 1024(AB2) in three words each (R91, R92, R95). -/
theorem test_word_stream : decodeWord .ldst false 0x7C000000 0x20000460 0x40020080 = .ok (.engineLongForm 0 0x4002008020000460) ∧
    decodeEngForm .ldst 0 0x4002008020000460 = .ok (.lsLd (lng 1 0 16 { srcC := 2, tok := { se := true, sfifo := 3 } })) ∧
    decodeEngForm .vector 0 0x4088008024000000 = .ok (.vld (lng 0x44 0 16 { srcC := 2, type := 8 })) := by decide

/-! ### Single steps -/

/-- The instruction that a step runs leaves its first result as said. -/
def runs (w : Nat) (p : State → Bool) : Bool :=
  match step (State.reset.withFetchWord 32 w) with
  | .next t => p t
  | _ => false

theorem test_step_movi : runs 0x1610F100 (fun t => t.mach.pend.map (fun p => p.eff) == [.reg 1 0xF100]) = true := by decide +kernel
theorem test_step_nop : runs 0x32000000 (fun t => t.mach.pend == [] && t.mach.cs.fq0.waddr == 1) = true := by decide +kernel
theorem test_step_illegal : runs 0 (fun t => (t.mach.cj).phase == .frozen) = true := by decide +kernel
theorem test_step_div_zero : runs 0x04A08060 (fun t => t.mach.pend.map (fun p => p.eff) ==
    [.reg 10 (BitVec.allOnes 64), .flags 0x60 16]) = true := by decide +kernel

/-! ### Witnesses: a job of context 0 on cluster 0 of MXD 0, its scalar stream 5 with cached translations -/

def okAnd {α : Type} (x : Except Flt α) (f : α → Bool) : Bool := match x with | .ok a => f a | .error _ => false

/-- Bases of buffer SRAM and of the local stores (R25). -/
def sram : Nat := 0xF0 * 2 ^ 48
def local' : Nat := 0xF1 * 2 ^ 48
/-- A leaf with every permission, cached: base, size code, target, frame, its second word. -/
def leaf (va psz tgt frame hi : Nat) : Tlb :=
  { cx := 0, base := va, psz := psz, lo := 2 ^ 63 + psz * 2 ^ 60 + tgt * 2 ^ 57 + frame + 0x3E, hi := hi, ptea := 0 }
/-- Second words: buffer SRAM, memory, local stores; format, publishable region. -/
def hiS (fmt pub : Nat) : Nat := fmt * 2 ^ 59 + 2 ^ 54 + 7 * 2 ^ 50 + pub * 2 ^ 38
def hiM : Nat := 3 * 2 ^ 54 + 7 * 2 ^ 50
def pages : List Tlb :=
  [leaf sram 1 2 sram (hiS 0 0), leaf (sram + 0x10000) 1 2 (sram + 0x10000) (hiS 0 5), leaf (sram + 0x20000) 1 2 (sram + 0x20000) (hiS 31 0),
   leaf (sram + 0x30000) 1 2 (sram + 0x30000) (hiS 9 0), leaf 0x100000 0 1 0x40000 hiM, leaf 0x200000 0 0 0x300000 hiM,
   leaf local' 0 3 local' (7 * 2 ^ 50)]

def scal (regs : List (Nat × Nat)) : Stream :=
  { job := 1, state := .running, base := sram, len := 4096, l1 := pages, regs := regs.map (fun p => (p.1, BitVec.ofNat 64 p.2)), phases := 1 }
def job1 : Job := { jobid := 7, queue := 3, phase := .running, clk := [(0, { stopped := none })] }
/-- The state at 2 µs, with stream 5 executing. -/
def st (x : Stream) (f : Mach → Mach := id) : State :=
  { now := 168000, mach := f { State.reset.mach with jobs := [(1, job1)], streams := [(5, x)], cur := 5, ctxs := [(0, {})] } }
def eng (k : Cls) (col : Nat) : Stream :=
  { job := 1, sel := { cls := k, col := col }, state := .running, base := sram, len := 64, l1 := pages, phases := 1 }

/-- The states of AluGroup, ImmediateForms and MultiplyDivideGroup; conditions that hold and fail (R85). -/
theorem wit_scalar : (st (scal [])).onScalar ∧ condHolds .lt (BitVec.allOnes 64) 0 ∧ ¬condHolds .ltn (BitVec.allOnes 64) 0 := by
  refine ⟨rfl, ?_, ?_⟩ <;> unfold condHolds <;> decide
/-- ControlRegisterWords: a register that reads and writes (ASTAT), one no map assigns, one with reserved bits. -/
theorem wit_control : ((st (scal [])).mach.cregAccess false 0x60).isSome = true ∧ (st (scal [])).mach.cregAccess false 0x7FFF = none ∧
    ((st (scal [(1, 0x3800)])).mach.cregValueOk 0x60 0x3800) = true ∧
    (((st (scal [])).mach.cregAccess false 0x60).any (fun a => 0x3800 &&& a.rsv == 0 && (2 ^ 63) &&& a.rsv != 0)) = true := by decide
/-- LoadsComplete: buffer SRAM, a local store, host memory. -/
def loadWit (va : Nat) (w : Width) (tgt : Nat) : Bool :=
  va % w.bytes == 0 && okAnd ((st (scal [])).mach.xlat 5 va { rd := true }) (fun r =>
    r.2.tgt == tgt && r.1.unstarted r.1.cs.job (r.2.home 0) == none && r.1.pgBad r.2 w.bytes == false)
theorem wit_loads : loadWit sram .d64 2 = true ∧ loadWit (local' + 6) .s16 3 = true ∧ loadWit 0x100FF8 .d64 1 = true := by decide
/-- StoresComplete, with the last bytes of a page. -/
theorem wit_stores : okAnd ((st (scal [])).mach.xlat 5 (sram + 0xFFFF) { wr := true }) (fun r => r.2.tgt != 0 && r.1.redFreeze == none) = true := by
  decide
theorem wit_misaligned : (sram + 1) % Width.n16.bytes ≠ 0 := by decide
/-- AtomicsIssue: at a unit, and in slots of a bank; an owned position of the wheel. -/
def atomWit (va : Nat) : Bool :=
  okAnd ((st (scal [])).mach.xlat 5 va { rd := true, wr := true }) (fun r => (2 ≤ r.2.aplace || r.1.cs.phases != 0) && r.2.pub == 0 &&
    r.1.unstarted r.1.cs.job (r.2.home 0) == none && r.1.cs.holds (r.2.home 0) 8 == false)
theorem wit_atomics : atomWit 0x200000 = true ∧ atomWit (sram + 8) = true := by decide
theorem wit_sc : (st { scal [] with wheel := 63 }).mach.scOwned 168000 = true ∧ fld (st { scal [] with wheel := 63 }).mach.cs.wheel 0 6 ≠ 0 ∧
    (st { scal [] with wheel := 63 }).mach.redFreeze = none := by decide
/-- AtomicsPerform: an operation in flight, before and after it is served. -/
def atom1 : Atom := { id := 9, sid := 5, op := .add, w64 := true, home := sram, place := 1, opnd := 1, d := some 3, job := 1 }
theorem wit_atom_waits : let m := (st (scal []) (fun m => { m with atoms := [atom1], ev := [9, 1] })).mach
    m.atom? (m.arg 0) = some atom1 ∧ m.arg 1 ≠ 0 ∧ atom1.done = none ∧ atom1.source = none ∧ atom1.red = none ∧ atom1.form < 3 ∧
    badIn m.homes sram 8 = false ∧ (m.str 5).drained 0 1 0 = true := by decide
theorem wit_atom_unit : let a := { atom1 with place := 3, home := homeKey 0 0x40 }
    let m (ev : List Nat) := (st (scal []) (fun m => { m with atoms := [a], ev := ev })).mach
    isHost a.home = false ∧ (m [9]).ev.length = 1 ∧ (m [9, 3500]).ev.length ≠ 1 ∧ sget (m [9, 3500]).units (placeOf a.place a.home) 0 ≠ 168000 / 48 + 1 ∧
    (m [9, 3500]).agenda = [] ∧ isHost (hostKey 0x40) = true ∧ badIn (m []).homes (hostKey 0x40) 8 = false := by decide
theorem wit_atom_slot : let m := (st (scal []) (fun m => { m with atoms := [atom1], ev := [9, 0] })).mach
    m.atom? (m.arg 0) = some atom1 ∧ m.arg 1 = 0 ∧ atom1.flt = none ∧ atom1.resends < 4 ∧
    m.agenda.all (fun e => e.2.1 != .atomicSlotServe && e.2.1 != .scEffect) = true := by decide
theorem wit_atom_done : let m := (st { scal [] with hold := .atomic 9 } (fun m => { m with atoms := [{ atom1 with done := some 4 }], ev := [9, 0] })).mach
    m.atom? (m.arg 0) = some { atom1 with done := some 4 } ∧ (m.str 5).hold = .atomic 9 ∧ (m.str 5).sel.cls = .scalar ∧ m.arg 1 = 0 ∧
    (m.ctx 0).rfrecs.length < 16 := by decide
theorem wit_atom_sc : let sc := { atom1 with sc := true, point := 7 }
    let m (p : Nat) (l : List Atom) := (st (scal []) (fun m => { m with atoms := { sc with place := p } :: l, ev := [9, 0, 0, 0] })).mach
    ((m 2 []).atom? 9).map (·.point) = some 7 ∧ scFar ≠ 7 ∧ (m 2 []).arg 3 ≠ 1 ∧ (m 2 []).arg 1 = 0 ∧
    (m 2 []).atoms.any (fun b => b.sc && b.done.isNone && b.point < 7) = false ∧
    (m 2 [{ sc with id := 8, point := 3 }]).atoms.any (fun b => b.sc && b.done.isNone && b.point < 7) = true := by decide
theorem wit_sc_position : (st { scal [] with hold := .scPos } (fun m => { m with ev := [5] })).mach.str 5 = { scal [] with hold := .scPos } := by
  decide
/-- FencesReleaseAndRefresh. -/
theorem wit_fence : let m := (st { scal [] with hold := .release (.fence .package) 2 4 } (fun m => { m with ev := [5] })).mach
    m.redFreeze = none ∧ (m.str (m.arg 0)).hold = .release (.fence .package) 2 4 ∧ (m.str (m.arg 0)).state ≠ .frozen ∧
    (m.str (m.arg 0)).sb = [] := by decide
/-- Publication: a registered page; a publication under way. -/
def region5 : Region := { pubrid := 5, base := sram + 0x10000, len := 0x10000, twin := 0x800000, draft := [(sram + 0x10000, 7)] }
def pubMach (m : Mach) : Mach := { m with ctxs := [(0, { regions := [region5] })], publs := [{ id := 4, sid := 5, cx := 0, pubrid := 5 }], ev := [4] }
theorem wit_publ : okAnd ((st (scal []) (fun m => { pubMach m with publs := [] })).mach.xlat 5 (sram + 0x10000) {}) (fun r => r.2.pub != 0) = true := by
  decide
theorem wit_publish : let m := (st { scal [] with hold := .publ 4 } pubMach).mach
    (m.publs.find? (fun q => q.id == m.arg 0)).isSome = true ∧ (m.ctx 0).region 5 = some region5 ∧ (region5.draft.map (·.1)).Nodup ∧
    (m.str 5).hold = .publ 4 ∧ (eng .ldst 0).sel.cls ≠ .scalar := by decide
/-- RegionRegistration: pages of a legal region and its twin, a release, each completion. -/
def twins : Stream := { scal [] with l1 := pages ++ [leaf 0x800000 1 2 (sram + 0x10000) (hiS 0 5)] }
theorem wit_pubreg_release : okAnd ((st twins).mach.xlat 5 (sram + 0x10000) {}) (fun r => r.2.pubrid != 0) = true := by decide
theorem wit_pubreg_done : let s (r : List Region) (n : Nat) := st { scal [] with hold := .pubreg 3 5 (sram + 0x10000) n 0x800000 0 } (fun m =>
    { m with ctxs := [(0, { regions := r })], ev := [5] })
    ((s [] 4096).mach.ctx 0).region 5 = none ∧ ((s [region5] 0).mach.ctx 0).region 5 ≠ none ∧ ((s [region5] 4096).mach.ctx 0).region 5 ≠ none ∧
    ((s [] 4096).mach.str 5).hold = .pubreg 3 5 (sram + 0x10000) 4096 0x800000 0 := by decide
/-- Invalidations: a write of XINVC in flight, an invalidation under way, a write of RFSTAT. -/
def pend1 (e : Eff) : Pend := { id := 2, job := 1, lc := 0, cc := 0, sid := 5, due := 3, eff := e }
def withPend (e : Eff) (x : Stream := scal []) : State := st x (fun m => { m with pend := [pend1 e], ev := [2] })
theorem wit_xinvc : ((withPend (.creg 0x311 1)).mach.pend.find? (fun q => q.id == (withPend (.creg 0x311 1)).mach.arg 0)).isSome = true ∧
    ((withPend (.creg 0x150 1)).mach.pend.find? (fun q => q.id == (withPend (.creg 0x150 1)).mach.arg 0)).isSome = true ∧
    (1 : Word).getLsbD 0 = true := by decide
def inval1 : Inval := { id := 6, cx := 0, all := true, va := 0, psz := 0, slices := [3], dies := [3], ranger := some 0 }
theorem wit_invalidation : let m := (st (scal []) (fun m => { m with invs := [inval1], ev := [6, 3] })).mach
    (m.invs.find? (fun x => x.id == m.arg 0)).any (fun v => v.slices.contains (m.arg 1) && v.dies.contains (m.arg 1) && v.admin.isNone
      && v.ranger.isSome) = true := by decide
theorem wit_pubreg : okAnd ((st { scal [] with l1 := pages ++ [leaf 0x800000 1 2 (sram + 0x30000) (hiS 0 0)] }).mach.pubregPages (sram + 0x10000)
    0x800000 5 2 0) (fun _ => true) = true := by decide
/-- PhaserWords: a die-scope name, a member of each mode, an FTC's proxy in a ranger. -/
def ph (ms : List Member) (p : Nat := 0) : SMap Phaser := [(0, { ph := p, members := ms })]
def sw5 : Member := { sid := 5, mode := .sw, sc := 0, wc := 0 }
theorem wit_phaser : let m := (st (scal []) (fun m => { m with phs := ph [sw5] })).mach
    m.phName (m.rs 1) = some 0 ∧ (m.phaser 0).member 5 = some sw5 ∧ sw5.signals = true ∧ sw5.waits = true ∧ m.cs.kept = [] ∧ m.redFreeze = none ∧
    (m.phaser 0).members.length < 256 ∧ (m.phaser 0).cx = m.cj.cx := by decide
def ftc1 : Nat := 15 * 2 ^ 60 + 1 * 2 ^ 48 + 2 * 2 ^ 40 + 3
def rec1 : Rec := { gen := 2, nonce := 3, live := true, rights := 15, job := 1 }
def rangerInfo : RangerInfo := { handle := 1, die := 0, seat := 0, spawn := 0 }
/-- A ranger's stream 8 of job 2, with an FTC of record 1 in S1, over stream 5 of job 1, which is frozen. -/
def ranger (x : Stream) (regs : List (Nat × Nat)) (f : Mach → Mach := id) : State :=
  st { x with state := .frozen, prev := .running } (fun m => f { m with
    recs := [(1, rec1)], jobs := [(1, { job1 with handle := some 1, phase := .frozen }), (2, { job1 with jobid := 0xFFFF })],
    streams := m.streams ++ [(8, { scal ((1, ftc1) :: regs) with job := 2, ranger := some rangerInfo })], cur := 8 })
theorem wit_proxy : okAnd ((ranger (scal []) [] (fun m => { m with phs := ph [sw5] })).mach.proxy 2 1) (fun i => i == 5 && ((ph [sw5]).any (fun p =>
    (p.2.member i) == some sw5))) = true := by decide
/-- PhaserEngine: a registration, a signal that does and does not advance the phase, a wait that is due. -/
def sends (x : Stream) (ms : List Member) (ev : List Nat) (p : Nat := 0) : Mach :=
  (st x (fun m => { m with phs := ph ms p, ev := ev })).mach
theorem wit_ph_reg : let m := sends { scal [] with hold := .phSend 3 (.ph 3 0 9 0 5) } [] [5, 3, 0, 0, 2, 1, 5]
    (m.phaser 0).member 5 = none ∧ (m.phaser 0).members = [] ∧ (m.str 5).hold = .phSend 3 (.ph 3 0 9 0 5) ∧ m.arg 1 = 3 ∧ m.arg 2 = 0 ∧ m.arg 3 = 0 ∧
    m.signalNear 168000 0 = none := by
  decide
theorem wit_ph_signal : let m (o : Nat) := sends { scal [] with hold := .phSend 3 (.ph 0 0 9 0 5) } [sw5, { sw5 with sid := 6, sc := o }] [5, 3]
    (∀ o, o < 2 → ((m o).phaser 0).member 5 = some sw5) ∧ sw5.sc = ((m 0).phaser 0).ph ∧
    (∀ y ∈ ((m 0).phaser 0).members, y.ahead = none ∧ (y.sid = 5 → y = sw5)) ∧
    (∃ y ∈ ((m 0).phaser 0).members, y.sid ≠ 5 ∧ y.signals = true ∧ y.sc = 0) ∧
    ∀ y ∈ ((m 1).phaser 0).members, y.sid ≠ 5 → y.signals = true → y.sc = 1 := by decide
theorem wit_ph_wait : let m := sends { scal [] with hold := .phWait 2 0 9 0, state := .waitPhaser } [sw5] [5] 1
    (m.phWaitDue 5).any (fun d => d ≤ 168000) = true ∧ (m.phaser 0).member 5 = some sw5 := by decide

/-- Page tables of context 0 in HBM4E at 0x1000: 128 MiB of buffer SRAM under one leaf. -/
def tables (fmt : Nat) : Homes :=
  let ptr (t : Nat) : Nat := 2 ^ 63 + 7 * 2 ^ 57 + t
  [(0x1000 + 16 * 0x3C0, ptr 0x2000), (0x2000, ptr 0x3000), (0x3000, ptr 0x4000),
   (0x4000, 2 ^ 63 + 5 * 2 ^ 60 + 2 * 2 ^ 57 + sram + 0x3E), (0x4008, hiS fmt 0)].foldl
    (fun h p => homeWrite h p.1 (leBytes 8 p.2)) {}
def mapped (m : Mach) : Mach := { m with homes := tables 0, ctxs := [(0, { root := 0x1000 })] }
/-- CopiesAccepted: CPY of 600 bytes; the descriptors of a CPY2D of two rows and of a GEMB, and its list. -/
def copy1 : Copy := { id := 0, sid := 5, job := 1, cc := 0, cx := 0, dst := sram + 0x4000, src := sram, rows := 1, rowb := 600, dp := 0, sp := 0 }
theorem wit_copy : okAnd ((st (scal []) mapped).mach.copyCheck copy1) (fun _ => true) = true ∧
    (st (scal []) mapped).mach.ticketCopy 5 0 = none := by decide +kernel
def words (h : Homes) (a : Nat) (ws : List Nat) : Homes := (ws.zipIdx).foldl (fun h p => homeWrite h (a + 8 * p.2) (leBytes 8 p.1)) h
def described (ws : List Nat) : State :=
  st { scal [] with snap := words {} sram ws } (fun m => { mapped m with homes := words (tables 0) sram ws })
def cpy2dWords : List Nat := [sram + 0x4000, sram + 0x1000, 2 * 2 ^ 32 + 64, 64, 128]
def descWit (s : State) (ws : List Nat) (k : Mach → Bool) : Bool := okAnd (s.mach.scalarPage sram 64 { rd := true } false) (fun r =>
  r.1.unstarted r.1.cs.job (r.2.home 0) == none && r.1.pgBad r.2 64 == false && r.1.descWords r.2 == ws ++ [0, 0, 0] && k (r.1.softPg r.2 64))
def rowsOk (c : Copy) (m : Mach) : Bool :=
  (m.ticketCopy m.cur m.cs.nextTicket).isNone && m.cs.kept == [] && okAnd (m.copyCheck c) (fun _ => true)
theorem wit_cpy2d : descWit (described cpy2dWords) cpy2dWords (rowsOk { copy1 with rows := 2, rowb := 64, dp := 64, sp := 128, src := sram + 0x1000 }) = true ∧
    rowsMeet (sram + 0x4000) (sram + 0x1000) 64 128 2 64 = false := by decide +kernel
theorem wit_copy_desc_host : okAnd ((st (scal [])).mach.scalarPage 0x100040 64 { rd := true } false) (fun r => r.2.tgt == 1 &&
    r.1.unstarted r.1.cs.job (r.2.home 0) == none && r.1.pgBad r.2 64 == false) = true ∧ ((st (scal [])).mach.part 0).lcount 3 ≠ 0 := by decide +kernel
def gembWords : List Nat := [sram + 0x1000, sram + 0x800, sram + 0x4000, 4 * 2 ^ 32 + 2, 64 * 2 ^ 32 + 64]
theorem wit_gemb : descWit (described gembWords) gembWords (fun m => okAnd (m.indexList (sram + 0x800) 2 0) (fun q => q.2.all (fun x => x < 4) &&
    rowsOk { copy1 with src := sram + 0x1000, rows := 2, rowb := 64, dp := 64, idx := some q.2 } q.1)) = true ∧ 0 < ((described gembWords).mach.part 0).lcount 3 := by
  decide +kernel
/-- PromiseWords: a ticket whose copy is complete, an unknown one, a sleeping stream. -/
theorem wit_promise : let m := (st { scal [(1, 2 ^ 63 + 4 * 2 ^ 56)] with tickets := [{ n := 4, copy := 3, promise := 9 }] } (fun m =>
      { m with copies := [{ copy1 with id := 3, complete := true }] })).mach
    (m.ticketCopy 5 (fld (m.rs 1).toNat 56 7)).isSome = true ∧ 2 ^ 63 ≤ (m.rs 1).toNat ∧ fld (m.rs 1).toNat 0 56 ≤ 168000 / 84 % 2 ^ 56 ∧
    m.ticketCopy 5 5 = none := by decide
theorem wit_sleep : let m := (st { scal [] with hold := .sleep 2000 none } (fun m => { m with ev := [5] })).mach
    (m.str (m.arg 0)).hold = .sleep 2000 none ∧ 2000 * 84 ≤ (st (scal [])).now := by decide
/-- CopyEngines: the first packet of a copy; a WAITT on it, at its promise. -/
def copying (x : Stream) : State := st x (fun m => { mapped m with copies := [{ copy1 with id := 3, rowb := 64 }], ev := [3] })
theorem wit_packet : let m := (copying (scal [])).mach
    (m.copyHomes 0 (sram + 0x4000) 64 { wr := true }).any (fun hd => hd.length == 64 && decide ((hd.map (·.1)).Nodup) &&
      (m.copyHomes 0 sram 64 { rd := true }).any (fun hs => !(hs ++ hd).any (fun h => m.homePaused 0 h.1) && !(hs ++ hd).any (fun h => (m.unstarted 1 h.1).isSome)) &&
      m.portFirst 168000 0 (m.enginePort 0 0 (hd.headD (0, false)).1) (hd.map (·.1)) == none) = true ∧ m.homes.bad = [] ∧ (m.str 5).sb = [] := by
  decide +kernel
theorem wit_promise_due : let m := (copying { scal [] with hold := .sleep 2000 (some 4), tickets := [{ n := 4, copy := 3, promise := 2000 }] }).mach
    (m.ticketCopy 5 4).any (fun r => r.2.complete == false && r.1.promise * 84 ≤ 168000 && r.1.missed == false) = true := by decide +kernel
/-- SystemWords, LaunchWords. -/
theorem wit_system : let m := (st (scal [])).mach
    m.cj.window = false ∧ m.cj.handle = none ∧ m.pend = [] ∧ m.cs.hold = .none ∧ m.cj.fixed = false ∧ m.cs.isRanger = false ∧ m.copies = [] ∧
    (∀ v ∈ m.fenceStats, fld v 0 6 &&& fld v 8 6 = 0) := by decide
theorem wit_halt : let m (f : Bool) := (st { scal [] with ranger := if f then none else some rangerInfo } (fun m => { m with jobs := [(1, { job1 with fixed := f })] })).mach
    (m true).cs.isRanger = false ∧ (m true).cj.fixed = true ∧ (m false).cs.isRanger = true ∧ (m true).cs.sel.cls = .scalar := by decide
def basket1 : Basket := { words := [0, 0, 0, 0, 0, 0, 0, 2 ^ 54] }
theorem wit_basket : let m := (st { scal [] with hold := .complexReq 3 2 } (fun m =>
      { m with parts := [(0, { resetPart with basket := [(0, basket1)] })], ev := [5, 3, 0, 1024, 77] })).mach
    (m.part 0).record 0 0 = some basket1 ∧ (m.str 5).hold = .complexReq 3 2 ∧ fld (m.arg 3) 10 3 = 1 ∧ bitOf (basket1.words.getD 7 0) 54 = true := by
  decide
/-- EngineStreamWords: a matrix stream of the cluster, stopped and running. -/
theorem wit_engine_stream : let m := (st (scal [(1, 2 * 128), (2, 64)]) (fun m =>
      { m with streams := m.streams ++ [(6, { eng .matrix 0 with state := .stopped })] })).mach
    (m.engSel (m.rs 1)).any (fun sel => m.findSel 1 sel == some 6) = true ∧ (m.str 6).step < (m.rs 2).toNat ∧ (m.rs 2).toNat % 64 = 0 := by decide
theorem wit_engine_busy : let m := (st (scal [(1, 2 * 128)]) (fun m => { m with streams := m.streams ++ [(6, eng .matrix 0)] })).mach
    (m.engSel (m.rs 1)).any (fun sel => m.findSel 1 sel == some 6) = true ∧ (m.str 6).state = .running ∧ (m.str 6).hold = .none := by decide
/-- Tokens: counts at both ends. -/
theorem wit_tokens : let m (n : Nat) := (st (scal [(1, 3), (2, 255)]) (fun m => { m with ccs := [(0, { fifos := [(3, { count := n })] })], ev := [0, 3] })).mach
    ((m 0).rs 2).toNat ≤ 255 ∧ (sget ((m 254).cct 0).fifos 3 {}).count < 255 ∧ 255 ≤ (sget ((m 255).cct 0).fifos 3 {}).count ∧
    (sget ((m 0).cct (m 0).ccc).fifos 3 {}).owner = none := by decide
theorem wit_tokset : let s := withPend (.tokset 3 255)
    (s.mach.takePend (s.mach.arg 0)).map (·.2) = some (pend1 (.tokset 3 255)) ∧ (sget (s.mach.cct 0).fifos 3 {}).owner = none := by decide
/-- DictionaryWords: all entries of a bank; the last entry of a DLD. -/
theorem wit_dictionary : let m := (st (scal [(1, sram), (2, 255 * 256)])).mach
    hosts m.cs.sel.kind .matrix = true ∧ m.bankBusy .matrix 3 = false ∧ fld (m.rs 2).toNat 0 8 + fld (m.rs 2).toNat 8 8 < 256 ∧
    okAnd (m.xlat 5 (m.rs 1).toNat { rd := true, ex := true }) (fun r => 2 ≤ r.2.tgt && !r.1.pgBad r.2 16 && r.1.unstarted r.1.cs.job (r.2.home 0) == none) = true ∧
    okAnd (m.xlat 5 0x100000 { rd := true, ex := true }) (fun r => r.2.tgt == 1 && !r.1.pgBad r.2 16 && r.1.unstarted r.1.cs.job (r.2.home 0) == none) = true ∧
    m.classBusy .matrix = false ∧ m.cs.slots = 0 := by decide
theorem wit_dld : let m := (st { scal [] with hold := .dld .matrix 0 9 1 0 sram false 3 } (fun m => { m with ev := [5] })).mach
    (m.str (m.arg 0)).hold = .dld .matrix 0 9 1 0 sram false 3 ∧
    okAnd (({ m with cur := 5 } : Mach).xlat 5 sram { rd := true, ex := true }) (fun _ => true) = true := by decide
/-- The vector statements: a native micro-order on each column, its type from the mode register (R184). -/
def onCol (col mode : Nat) (f : Mach → Mach := id) : State :=
  st (eng .vector col) (fun m => f { m with ccs := [(0, { cregs := [(0xE0 + col, BitVec.ofNat 64 mode)] })] })
def ready (s : State) (tok : Tok) : Bool :=
  s.mach.cs.sel.cls != .scalar && s.mach.cs.state == .running && !tok.pe &&
    (match tok.wait with | some f => (sget (s.mach.cct s.mach.ccc).fifos f {}).count != 0 | none => true) &&
    (!tok.se || (sget ((s.mach.takeToken s.now tok.wait).cct s.mach.ccc).fifos tok.sfifo.toNat {}).room)
/-- A long micro-order that waits and signals, with a token at hand. -/
def busyTok : Tok := { we := true, wfifo := 3, se := true, sfifo := 4 }
theorem wit_micro_ready : ready (onCol 0 7) {} = true ∧ ready (st (eng .vector 0) (fun m =>
    { m with ccs := [(0, { fifos := [(3, { count := 1 })] })] })) busyTok = true := by decide
theorem wit_vector_types : ((onCol 0 0).mach.venv (nat 64 65 66)).tc = 0 ∧ ((onCol 1 7).mach.venv (nat 64 65 66)).tc = 7 ∧
    ((onCol 2 8).mach.venv (nat 64 65 66)).tc = 8 ∧ ((onCol 2 11).mach.venv (nat 64 65 66)).tc = 11 ∧
    ((onCol 4 17).mach.venv (nat 64 65 66)).tc = 17 := by decide
theorem wit_groups : groupOk 64 2 = true ∧ groupOk 126 2 = true ∧ groupOk 65 2 = false := by decide
/-- VectorMasks: each condition's code, and operand limits of MOP. -/
theorem wit_conditions : ∀ c : BitVec 7, c.toNat ≤ 5 → ((onCol 0 0).mach.venv (lng 1 65 66 { srcC := c })).cond (lng 1 65 66 { srcC := c }) = c.toNat := by
  decide
/-- VectorLanes: conversions wider and narrower, stochastic rounding, planes. -/
theorem wit_converts : cvtOk (nat 64 66 2) (ETy.of 4) (ETy.of 2) = true ∧ cvtOk (nat 64 66 4) (ETy.of 2) (ETy.of 4) = true ∧
    cvtOk (nat 64 66 8) (ETy.of 10) (ETy.of 8) = true ∧ (ETy.of 18 = .plane 2 true ∨ (ETy.of 18 = .plane 1 true)) ∧ group16 (cvtN (ETy.of 10) (ETy.of 8)) = 1 := by
  decide
/-- MicroOrderChecks: a column that does not host, a dry FIFO, a full one. -/
theorem wit_micro_checks : vecHosts 0x04 4 = false ∧ vecHosts 0x1E 0 = false ∧ vecHosts 0x40 0 = false ∧
    (sget ((onCol 0 0).mach.cct 0).fifos 3 {}).count = 0 ∧ (onCol 0 0).mach.pathOf {} = none ∧ (onCol 0 0).mach.cj.fixed = false ∧
    (sget ((st (eng .vector 0) (fun m => { m with ccs := [(0, { fifos := [(3, { count := 250, inflight := 5, credit := 255 })] })] })).mach.cct 0).fifos 3 {}).room = false := by decide
/-- VectorMemory: sixteen-byte loads and stores of the first lanes under a mask, on a page of the type's own format. -/
def vmem (ea : Nat) (rd : Bool) : Bool :=
  let s := onCol 4 (8 + 256) (fun m => { m with ccs := [(0, { cregs := [(0xA0, BitVec.ofNat 64 ea), (0xE4, BitVec.ofNat 64 (8 + 256))], masks := [(1, [(0, 5)])] })] })
  let mi := lng 64 0 0 { type := 8, mask := 1 }
  let e := s.mach.venv mi
  memEa (e.ab mi.memBase) mi == ea && okAnd (s.mach.eaPage ea) (fun r => vecAligned true rd r.2 ea &&
    okAnd (r.1.elems ea r.2.fmt (if rd then planesRead e.tc else 8) (if rd then { rd := true } else { wr := true }) (fun q => if rd then loadPair q.fmt q.geom e.tc else storePair q.fmt e.tc)
      (fun _ _ => true) [] none (e.memLanes e.n (fun j => j))) (fun q => q.1.elemsUnstarted q.2 == none && q.2.length == 2))
theorem wit_vector_memory : vmem sram true = true ∧ vmem (sram + 16) false = true := by decide +kernel

/-- The matrix statements: core 0 with a lease of four steps, batch 2 open under it, two tiles of FP16. -/
def tcf (rows cols : Nat) : Word := BitVec.ofNat 64 (1 * 2 ^ 27 + rows * 2 ^ 18 + cols * 2 ^ 8)
def mcore (c : MCore) : State := st (eng .matrix 0) (fun m => { m with ccs := [(0, { cores := [(0, c)], cregs := [(0x1000, tcf 4 8), (0x1002, tcf 8 4)] })] })
def leased : MCore := { lheld := true, lleft := 4, leaseNo := 1, batches := [(2, { state := .opened, lease := 1 })], mrb := some 2 }
theorem wit_leases : (nat 0 4 0).plain = true ∧ ((mcore {}).mach.mcore 0 0).lheld = false ∧ ((mcore {}).mach.mcore 0 1).lheld = false ∧
    (((mcore {}).mach.pcl 0).lastHolder ≠ 0 ∧ (mcore {}).mach.leaseNow 168000 = false) ∧ ((mcore leased).mach.mcore 0 0).lheld = true ∧ ((mcore {}).mach.mcore 0 0).leaseOpen = false ∧
    tcfgOk 3 (tcf 4 8).toNat = true ∧ ((mcore {}).mach.cct 0).tcfg 0 0 = some (tcf 4 8).toNat ∧ ((mcore {}).mach.mcore 0 0).owner 3 = none := by decide
theorem wit_lease_release : ((mcore { lheld := true, lleft := 1 }).mach.mcore 0 0).leaseOpen = false := by decide
theorem wit_batches : (sget ((mcore leased).mach.mcore 0 0).batches 15 {}).state = .free ∧ (sget ((mcore leased).mach.mcore 0 0).batches 2 {}).state = .opened ∧
    (mcore leased).mach.batchOf (nat 0 0 0) = some 2 ∧ (mcore {}).mach.batchOf (nat 0 0 0) = none := by decide
theorem wit_speculation : let s := mcore { leased with batches := [(2, { state := .opened, lease := 1, tag := some 3 })] }
    (sget (s.mach.mcore 0 0).batches 2 {}).tag = some 3 ∧ (sget (s.mach.mcore 0 0).batches 2 {}).resolved = false ∧ s.mach.cj.tagOpen 0 3 = false ∧
    ({ job1 with tags := [(tagKey 0 3, { opened := true })] } : Job).tagOpen 0 3 = true := by decide
theorem wit_step : ((mcore leased).mach.stepOf (nat 33 16 18) 168000).any (fun x => x.batch == 2 && x.m == 4 && x.n == 4 && x.k == 8) = true ∧
    ((mcore leased).mach.cct 0).lastAccept = none := by decide
/-- MatrixTransfers: a tile of one row of two elements, an accumulator of one element; a lease that is over, a waiting one, results due. -/
def tile12 (cregs : List (Nat × Nat)) (fmt : Nat) : State :=
  st { eng .matrix 0 with l1 := [leaf sram 1 2 sram (hiS fmt 0)] } (fun m => { m with ccs := [(0, { cregs := cregs.map (fun p => (p.1, BitVec.ofNat 64 p.2)) })] })
def tileWit (tr : Bool) : Bool :=
  let s := tile12 [(0x100, sram), (0x1000, (tcf 1 2).toNat)] 1
  okAnd (s.mach.eaPage sram) (fun r => eaAligned r.2 sram true && okAnd (r.1.elems sram r.2.fmt (tilePlanes 1) { rd := true } (fun q => tilePair q.fmt 1)
    (fun o q => o.geom == q.geom && o.midr == q.midr) [] none (tileEls (tcf 1 2).toNat tr 0)) (fun q => q.1.elemsUnstarted q.2 == none && q.2.length == 2))
theorem wit_tile : tileWit false = true ∧ tileWit true = true := by decide
theorem wit_accumulator : let s := tile12 [(0x100, sram), (0x90, 0)] 0
    okAnd (s.mach.eaPage sram) (fun r => okAnd (r.1.elems sram r.2.fmt 8 { wr := true } (fun q => storePair q.fmt 8 && q.geom == 0) (fun _ _ => true) []
      none (accEls 1 1 0)) (fun q => q.2.length == 1)) = true ∧ fld s.mach.mmode 9 6 = 0 ∧ fld s.mach.mmode 0 9 = 0 := by decide
theorem wit_lease_over : ((mcore { lheld := true, leaseNo := 4 }).mach.mcore 0 0).leaseOver = true ∧
    ((mcore { req := some 3 }).mach.mcore 0 0).req = some 3 := by decide
def step1 : MStep := { core := 0, acc := 1, batch := 2, p := 0, m := 1, n := 1, k := 1, g := 8, lat9 := 1, ta := 0, tb := 2,
                       fa := [(tcf 1 1).toNat], fb := [(tcf 1 1).toNat], a := [{}], b := [{}], step := 0 }
theorem wit_step_write : step1.checks = true ∧ ((withPend (.twin step1)).mach.pend.find? (fun q => q.id == (withPend (.twin step1)).mach.arg 0)).isSome = true ∧
    (withPend (.tag 0 true)).mach.ev.length = 1 ∧ tcPair (tcf 1 1).toNat = false ∧ (withPend (.tileRow 0 3 (tcf 1 1).toNat 0 [1])).mach.pend.length = 1 := by decide +kernel

/-- GatherWords: a descriptor of 4 × 8 tiles of format 1; a row of one entry in the tile. -/
def gatherWords : List Nat := [sram + 0x800, sram + 0x900, sram, 4 + 8 * 2 ^ 32, 1 + 7 * 2 ^ 5 + 3 * 2 ^ 14, 0, 0, 0]
def gather (fmt : Nat) (g : GSlot) : State :=
  st { eng .gather 0 with sel := { kind := 3, cls := .gather }, l1 := [leaf sram 1 2 sram (hiS 0 0), leaf (sram + 0x10000) 1 2 (sram + 0x10000) (hiS fmt 0)] }
    (fun m => { m with ccs := [(0x300, { cregs := [(0x130, BitVec.ofNat 64 sram)] }), (m.ccc, { gslots := [(2, g)] })] })
theorem wit_gset : let s := gather 1 {}
    okAnd (s.mach.scalarPage sram 64 { rd := true } false) (fun r => r.2.tgt == 2 && r.1.unstarted r.1.cs.job (r.2.home 0) == none && r.1.pgBad r.2 64 == false
      && r.1.slotOkay gatherWords) = true ∧ (s.mach.part s.mach.cpart).lcount 3 ≠ 0 := by decide +kernel
def gather1 : GSlot := { slotOf gatherWords with words := gatherWords.set 2 (sram + 0x10000) }
theorem wit_gb : let s := gather 1 gather1
    gather1.credit ≠ 0 ∧ okAnd (s.mach.gbScan gather1 4 0) (fun r => okAnd (r.1.eaPage (gather1.w 2)) (fun q => eaAligned q.2 (gather1.w 2) true &&
      okAnd (q.1.elems (gather1.w 2) q.2.fmt (tilePlanes gather1.fmt) { rd := true } (fun p => tilePair p.fmt gather1.fmt) (fun o p => o.geom == p.geom && o.midr == p.midr) [] none
        (r.2.1.map (fun h => (h.1 * 8 + h.2.1, ((h.2.2 : Nat) : Int))))) (fun e => e.1.elemsUnstarted e.2 == none))) = true := by decide +kernel
theorem wit_landing : let p := pend1 (.landing 0 0 3 (tcf 1 1).toNat {} 4 0 2)
    (withPend p.eff).mach.pend.find? (fun q => q.id == (withPend p.eff).mach.arg 0) = some p ∧ tcPair (tcf 1 1).toNat = false := by decide
theorem wit_landing_credit : (withPend (.landCredit 0 2)).mach.pend.find? (fun q => q.id == (withPend (.landCredit 0 2)).mach.arg 0) =
    some (pend1 (.landCredit 0 2)) := by decide
theorem wit_gset_host : let m := (st { eng .gather 0 with sel := { kind := 3, cls := .gather }, hold := .gset 2 gatherWords } (fun m => { m with ev := [5, 0] })).mach
    (m.str (m.arg 0)).hold = .gset 2 gatherWords ∧ (m.str 5).sel.cls ≠ .scalar ∧ m.arg 1 = 0 ∧ (m.str 5).state ≠ .frozen := by decide
theorem wit_host_acquire : let m := (st { scal [] with hold := .host 3 .d64 (hostKey 0x40) true 0 } (fun m => { m with ev := [5, 0] })).mach
    (m.str (m.arg 0)).hold = .host 3 .d64 (hostKey 0x40) true 0 ∧ m.arg 1 = 0 ∧ (m.str 5).sel.cls = .scalar ∧ (m.str 5).state ≠ .frozen := by decide
theorem wit_host : let m (o : Nat) := (st { scal [] with hold := .host 3 .d64 0 false 7 } (fun m => { m with ev := [5, o] })).mach
    ((m 0).str ((m 0).arg 0)).hold = .host 3 .d64 0 false 7 ∧ (m 0).arg 1 = 0 ∧ (m 1).arg 1 ≠ 0 ∧ ((m 0).str 5).state ≠ .frozen := by decide

/-- LoadStoreStreams: a stream of BFD 0 with bases in LB0 to LB4 (its buffer SRAM twice, a local store, HBM4E, a publishable page): 512 bytes loaded
from SRAM to a local store, to SRAM, on a predicted path to a draft, and from HBM4E; stored to SRAM and HBM4E; a RED in slots and at a unit; PUBL. -/
def packets : State :=
  st { eng .ldst 0 with sel := { kind := 2, cls := .ldst }, wheel := 63, phases := 0xFFFF } (fun m => { m with
    ctxs := [(0, { regions := [region5] })]
    ccs := [(ccKey 0 (lcKey 2 0 0), { cregs := [(0x200, wd sram), (0x201, wd (sram + 0x800)), (0x202, wd local'), (0x203, wd 0x200000),
      (0x204, wd (sram + 0x10000))] })] })
/-- A packet's micro-order: register of the other address, register of ea, token fields, type. -/
def pmi (other base : Nat) (tok : Tok := {}) (ty : BitVec 5 := 0) : Micro :=
  lng (BitVec.ofNat 7 other) 0 (BitVec.ofNat 7 (base * 8)) { type := ty, tok := tok }
def twoPackets (s : State) (mi : Micro) (nd nd' : Need) (ok : Pg → Bool) (k : Mach → List (Nat × Pg) → List (Nat × Pg) → Bool) : Bool :=
  okAnd (s.mach.packet (s.mach.lsEa mi) nd (ownBfd 0)) (fun r => okAnd (r.1.packet (r.1.lsOther mi) nd' ok) (fun q => k q.1 r.2 q.2))
def lsLoads (mi : Micro) (tgt : Nat) : Bool := ready packets {} && mi.plain &&
  twoPackets packets mi { rd := true } { wr := true } onPackage (fun m src dst => src.all (fun x => x.2.tgt == tgt) &&
    (!mi.tail.tok.pe || dst.all (fun x => x.2.pub != 0)) && m.packetPaused src == none && m.packetBad src == none && m.packetStart dst == none)
theorem wit_ls_load : lsLoads (pmi 2 0) 2 = true ∧ lsLoads (pmi 1 0) 2 = true ∧ lsLoads (pmi 4 0 { pe := true }) 2 = true ∧ lsLoads (pmi 1 3) 0 = true := by
  decide +kernel
def lsStores (mi : Micro) : Bool := ready packets {} && mi.plain &&
  twoPackets packets mi { wr := true } { rd := true } onPackage (fun m dst src => (!mi.tail.tok.pe || dst.all (fun x => x.2.pub != 0)) &&
    m.packetPaused dst == none && m.packetBad src == none && m.packetStart src == none && m.redFreeze == none)
theorem wit_ls_store : lsStores (pmi 2 1) = true ∧ lsStores (pmi 0 4 { pe := true }) = true ∧ lsStores (pmi 0 3) = true := by decide +kernel
def lsReds (mi : Micro) : Bool := let s := packets
  ready s {} && lsRedOk mi && (AOp.ofCode mi.srcA.toNat).isSome && okAnd (s.mach.packet (s.mach.lsEa mi) { wr := true } (ownBfd 0)) (fun r =>
    okAnd (r.1.packet (s.mach.lbReg (mi.dest.toNat % 16)).toNat { rd := true } (fun p => p.tgt != 1)) (fun q =>
      let homes := r.2.flatMap (fun x => (List.range 64).map (fun i => x.2.home i))
      r.2.all (fun x => x.2.pub == 0) && (1 < (r.2.head?.map (fun x => x.2.aplace)).getD 0 ||
        (if q.1.cj.fixed then q.1.slotOk 168000 (homes.headD 0) else q.1.cs.phases != 0)) && q.1.packetPaused r.2 == none &&
      q.1.packetStart q.2 == none && q.1.packetBad q.2 == none && homes.all (fun h => !q.1.cs.holds h 1)))
theorem wit_ls_red : lsReds (pmi 1 0 {} 8) = true ∧ lsReds (pmi 0 3 {} 3) = true := by decide +kernel
theorem wit_ls_publ : (pmi 0 4).plain = true ∧ packets.mach.lsEa (pmi 0 4) % 64 = 0 ∧ okAnd (packets.mach.publPage (packets.mach.lsEa (pmi 0 4))) (fun r =>
    ownBfd 0 r.2 && r.2.pub != 0) = true ∧ packets.mach.publs.any (fun q => q.sid == packets.mach.cur) = false := by decide +kernel
/-- StripWords: packets at two ports of a strip of its own; one in flight. -/
def packet1 : Packet := { dst := sram, idx := 0, data := List.replicate 8 1 }
def strip1 : Strip := { ports := [(1, [packet1]), (2, [packet1])] }
def stripSt : State := st { eng .strip 0 with sel := { kind := 4, cls := .strip } } (fun m =>
  { m with ccs := [(ccKey 0 (lcKey 4 0 0), { strips := [(0, strip1)] })] })
theorem wit_strip : let m := stripSt.mach
    ((sget (m.cct m.ccc).strips m.cs.sel.unit {}).take 1).any (fun r => (r.2.take 2).isSome) = true ∧
    m.portForeign 1 = false ∧ m.portForeign 2 = false ∧ m.portForeign 3 = false ∧ m.stripType (lng 3 1 2 { type := 8 }) = 8 ∧
    m.stripRnd (lng 3 1 2 { type := 8 }) ≤ 4 := by decide
def flying (port : Nat) (ev : List Nat) : Mach :=
  { (withPend (.strip 0 port packet1)).mach with pend := [{ pend1 (.strip 0 port packet1) with lc := lcKey 4 0 0, cc := ccKey 0 (lcKey 4 0 0) }], ev := ev }
theorem wit_strip_packet : (flying 1 [2]).ev.length = 1 ∧ (flying 1 [2, 1]).ev.length ≠ 1 ∧
    (flying 1 [2, 1]).pend.find? (fun q => q.id == (flying 1 [2, 1]).arg 0) = (flying 1 [2, 1]).pend.head? ∧
    (match portTo ((resetPart).carrier 4 0) 1 with | .die _ _ => true | _ => false) = true ∧
    (List.range 16).any (fun port => (flying port [2, 1]).pend.all (fun p => ((flying port [2, 1]).farPort p port).isSome && (flying port [2, 1]).portRoom p)) = true := by
  decide
/-- FrozenStateWords: an FTC with every right on a live record and on none; selectors of the frozen stream and of no stream. -/
theorem wit_frozen : let m := (ranger (scal []) [(2, 0), (3, 2 ^ 8)]).mach
    m.ftc (m.rs 1) ftcInspect = some 1 ∧ m.ftc (m.rs 1) ftcPatch = some 1 ∧ m.ftc (m.rs 1) ftcResume = some 1 ∧ m.ftc (m.rs 1) ftcKill = some 1 ∧
    m.ftc (m.rs 2) ftcInspect = none ∧ (m.job (m.frec 1).job).handle = some 1 ∧ m.frozenStream 1 (m.rs 2) = some 5 ∧ m.frozenStream 1 (m.rs 3) = none ∧
    (m.str 5).prev = .running ∧ (m.job (m.str 5).job).fixed = false ∧ m.spoiled = [] := by decide
theorem wit_frozen_parity : let m := (ranger (scal []) [(2, 4 * 2 ^ 32)] (fun m => { m with spoiled := [(.scalar 5 4, 7)] })).mach
    (m.rs 2).toNat / 2 ^ 32 < 32 ∧ m.frozenStream 1 (m.rs 2) = some 5 ∧ (m.str 5).sel.cls = .scalar ∧ (Loc.scalar 5 4, 8 * 0 + 7) ∈ m.spoiled := by decide
/-- FreezesAndResumes: a word no map lists, in elastic mode and in fixed timing; the events after it. -/
theorem wit_illegal : let s := st (scal [])
    (skeys s.mach.streams).Pairwise (· < ·) ∧ s.mach.kturn = false ∧ s.mach.cj.window = false ∧ s.mach.cj.handle = none ∧ s.mach.cj.phase = .running := by decide
def frozenSt (j : Job) (f : Mach → Mach) : State := st { scal [] with state := .frozen, prev := .running } (fun m =>
  f { m with jobs := [(1, j)], recs := [(1, rec1)] })
theorem wit_broadcast : let m := (st (scal []) (fun m => { m with jobs := [(1, { job1 with handle := some 1 })], ev := [1, 0] })).mach
    (m.job (m.arg 0)).handle = some 1 ∧ m.allStopped 1 = false := by decide
theorem wit_rewind : let m := (st (scal []) (fun m => { m with jobs := [(1, { job1 with handle := some 1, window := true })], saves := [(1, { cyc := 3, streams := [(5, scal [])] })], ev := [1] })).mach
    (sget? m.saves (m.arg 0)).any (fun sv => sv.streams.all (fun o => !o.2.halts)) = true ∧ (m.job (m.arg 0)).handle = some 1 ∧
    m.streams.all (fun o => !o.2.halts) = true ∧ 5 ∈ skeys m.streams := by decide
theorem wit_resume : let m := (frozenSt { job1 with clk := [(0, {})] } (fun m => { m with ev := [1, 0] })).mach
    (m.job (m.arg 0)).handle = none ∧ (m.job 1).phase = .running ∧ (m.job 1).atPriming = false ∧ (m.job 1).dictDue = [] := by decide
theorem wit_frozen_reply : let m := (ranger (scal []) [] (fun m => { m with ev := [8], streams := smod m.streams 8 {} (fun x => { x with hold := .frozen none 0 1 1 }) })).mach
    (m.str (m.arg 0)).hold = .frozen none 0 1 1 ∧ (m.frec 1).live = true ∧ (m.job (m.frec 1).job).handle = some 1 ∧ (m.str 8).state ≠ .frozen := by decide
/-- RangersAndEvents: a record in its die's queue with a seat for it; the ranger's timeout; an escalated record; an event. -/
theorem wit_spawn : let m := (frozenSt job1 (fun m => { m with ctxs := [(0, { pool := some (0, sram, 64, 0x200000) })], dies := [(0, { queue := [1] })], ev := [0] })).mach
    (m.die 0).queue = [1] ∧ (m.frec 1).live = true ∧ (m.ctx (m.frec 1).cx).pool.isSome = true ∧
    ((seatOrder 0 (m.frec 1).cluster).find? (fun n => m.seatUsable 0 (m.frec 1).core n)).isSome = true := by decide
theorem wit_timeout : let m := (ranger (scal []) [] (fun m => { m with ev := [8, 0] })).mach
    (m.str (m.arg 0)).ranger = some rangerInfo ∧ m.arg 1 = 0 ∧ (m.str 8).state ≠ .frozen := by decide
def event1 : Event := { w0 := 1, w1 := 2, w2 := 3, w3 := 4 }
theorem wit_events : let m := (st (scal []) (fun m => { m with parts := [(0, { resetPart with escalated := [1], evheld := [event1], evctl := BitVec.ofNat 64 (2 ^ 20 + 4 * 2 ^ 16) })], ev := [0] })).mach
    (m.part 0).escalated = [1] ∧ (m.part 0).evheld = [event1] ∧ (m.part 0).evRoom = true ∧ m.arg 1 ≠ 1 := by decide
theorem wit_pool_return : let m := (frozenSt job1 (fun m => { m with parts := [(0, { resetPart with escalated := [1] })], ev := [0] })).mach
    (m.frec 1).live = true ∧ (m.part 0).escalated.find? (fun x => decide ((m.die (m.frec x).die).queue.length < 16)) = some 1 := by decide
theorem wit_backpressure : let m := (st (scal []) (fun m => { m with dies := [(0, { window := [(0, event1)], lost := [(0, 2)] })], ev := [0] })).mach
    (m.die 0).window = [(0, event1)] ∧ (m.die 0).waits 0 = true ∧ (m.part 0).evheld.length + 3 ≤ 64 := by decide

/-- LaunchDispatch: a FORK whose record names no context; a cluster free to prime; a primed job at its start. -/
theorem wit_fork : let m := (st { scal [] with hold := .complexReq 3 2 } (fun m => { m with ev := [0, 1, 5, 3, 0, 0] })).mach
    (m.part 0).rcpend = false ∧ (match m.checkLaunch 0 (m.cj.forkWords 0 0) false with | .error e => e != 0 | .ok _ => false) = true := by decide +kernel
theorem wit_fork_held : let m := (st { scal [] with hold := .complexReq 3 2 } (fun m => { m with parts := [(0, { resetPart with rcpend := true })], ev := [0, 1, 5, 3, 0, 0] })).mach
    (m.part 0).rcpend = true ∧ (m.str (m.arg 2)).hold = .complexReq 3 2 ∧ m.arg 3 = 3 ∧ (m.str 5).state ≠ .frozen := by decide
def launch1 : Launch := { words := [0, 0, 0, 0, 0, 0, 0, 0], source := .host 6, queue := 1, cx := 0, arr := 2 }
theorem wit_dispatch : let m (l : Launch) := (st (scal []) (fun m => { m with parts := [(0, { resetPart with queues := [(1, { valid := [l] })] })], ev := [0] })).mach
    (m launch1).arg 1 ≠ 1 ∧ ((m launch1).part 0).rcpend = false ∧ (m launch1).nextLaunch 0 = some launch1 ∧
    (match ((m launch1).takeLaunch 0 launch1).checkLaunch 0 launch1.words true with | .error e => e != 0 | .ok _ => false) = true := by decide +kernel
theorem wit_prime : let m := (st (scal []) (fun m => { m with jobs := [(1, { job1 with phase := .waiting, toPrime := [0] })], pcs := [(0, { active := some 0 })], ev := [1, 0] })).mach
    (m.job 1).toPrime.contains 0 = true ∧ m.jobFree 1 = true ∧ (m.pcl (m.pcOf 0 0)).active = some 0 ∧ (m.job 1).dictimg = 0 := by decide
theorem wit_start : let m := (st { scal [] with state := .primed } (fun m => { m with jobs := [(1, { job1 with phase := .primed })], ev := [1, 2048] })).mach
    (m.job 1).phase = .primed ∧ m.arg 1 = 2048 ∧ (m.rcbOf 0 0).held = false ∧ m.pend = [] := by decide
/-- JobsEnd: a stream at its table's end, streams at the rendezvous, a halt at rest, a deadline, a switch of shares. -/
theorem wit_ends : (st { eng .matrix 0 with step := 64 } (fun m => { m with ev := [5] })).mach.mayFinish 5 = true ∧
    (st { scal [] with state := .waitRdv } (fun m => { m with jobs := [(1, { job1 with shares := [{}] })] })).mach.atRendezvous 1 = true ∧
    (st { scal [] with state := .waitRdv } (fun m => { m with jobs := [(1, { job1 with phase := .halting, halted := true, clk := [(0, {})] })] })).mach.haltOver 1 = true ∧
    ({ job1 with deadline := some 168000 } : Job).live = true := by decide
theorem wit_halt_stop : let m := (st (scal []) (fun m => { m with jobs := [(1, { job1 with haltId := 8 })], ev := [1, 0, 8] })).mach
    m.arg 1 ≠ 2049 ∧ (m.job (m.arg 0)).haltId = m.arg 2 ∧ (m.job 1).phase ≠ .frozen ∧ (m.job 1).live = true := by decide
/-- A share of logical die 0 whose streams wait, another on logical die 1 of the same carrier that is due. -/
def shared (share : Nat) (ev : List Nat) : Mach :=
  { (st { scal [] with state := .waitRdv }).mach with
    jobs := [(1, { job1 with shares := [{}, { sel := { ldie := 1 } }], share := [(0, share)] })], ev := ev
    parts := [(0, { resetPart with hc := [wd (2 * 2 ^ 52 + 2 ^ 48)] })] }
theorem wit_share_switch : (shared 0 [1, 0]).homes.bad = [] ∧ (shared 0 [1, 0]).spoiled = [] ∧ (shared 0 [1, 0]).switchDue 1 0 = some 1 ∧
    (let m := shared 17 [1, 0, 1, 0, 0]
     (m.job 1).live = true ∧ sget (m.job 1).share (m.arg 1) 0 = 16 + m.arg 2 ∧ (m.job 1).fixed = false ∧ m.pend = []) := by decide +kernel
/-- ResultsAreWritten: a result of each kind; a store-buffer entry, of a page in no region and of one in a region. -/
theorem wit_result : ∀ e ∈ [Eff.reg 3 9, .regAcq 0 .d64 [] 4 9, .regAcq 3 .s16 [sram, sram + 1] 4 0, .creg 0x60 1, .flags 0x60 1, .vec 0 0 [(64, [], [])], .mask 0 1 [] [], .sig 3],
    (withPend e).mach.pend.find? (fun q => q.id == (withPend e).mach.arg 0) = some (pend1 e) := by decide
def entry1 : SBEnt := { line := sram, mask := 255, data := 7, seq := 1 }
theorem wit_drain : let m (p : Nat) := (st { scal [] with sb := [{ entry1 with pub := p }] } (fun m => { m with ctxs := [(0, { regions := [region5] })], ev := [5, 1] })).mach
    ((m 0).mayDrain 168000 5 entry1) = true ∧ ((m 0).ctx 0).region 0 = none ∧ ((m 5).ctx 0).region 5 ≠ none ∧
    (m 0).portFirst 168000 0 ((m 0).portOf 0 (m 0).cs.sel sram) (entry1.bytes.map (·.1)) = none ∧ (m 0).homes.bad = [] := by decide
theorem wit_drain_waits : let m := (st { scal [] with sb := [entry1, { entry1 with seq := 2 }] } (fun m => { m with ev := [5, 2] })).mach
    (m.str 5).sb.find? (fun e => e.seq == m.arg 1) = some { entry1 with seq := 2 } ∧ m.mayDrain 168000 5 { entry1 with seq := 2 } = false := by decide
/-- StepRunsTheWord: the turn of the reset state with a word placed is that word, and no other issues in its cycle. -/
theorem wit_turn : let s := State.reset.withFetchWord 32 0x02308800
    (match s.mach.turn s.now with | .word m => !m.readsSpoiled s.now m.cur && m.cs.sel.cls == .scalar && !m.cs.fq0.annul && m.cs.fq0.w0 == 0x02308800 && (m.sameCycle s.now).isEmpty | _ => false) = true := by decide +kernel
/-- LongFormsAndDictionaryWords: a plain form, and an extended one whose immediate has 32 ones. -/
theorem wit_forms : decodeScalarForm false (0x01 * 2 ^ 56 + 0x308800) = .ok (.plain (.add 3 1 2)) ∧
    decodeScalarForm false (0x04 * 2 ^ 56 + 3 * 2 ^ 51 + 2 ^ 46 + 0xFFFFFFFF) = .ok (.ext 0x04 3 1 0 0xFFFFFFFF) := by decide

/-- CapabilityWords, CapabilitiesNeverGrow: after boot core 0 holds the root capability in K1. -/
theorem wit_root : let m := State.reset.mach
    ((sget m.kcores 0 {}).kr 1).tag = true ∧ ((sget m.kcores 0 {}).kr 1).kind = 0 ∧ ((sget m.kcores 0 {}).kr 0).tag = false ∧
    (∀ p ∈ m.kcores, ∀ k ∈ p.2.k, k.2.base + k.2.length ≤ 2 ^ 56) ∧ m.sram = [] := by decide

/-- HostRegisters: a doorbell inside and outside its ring; an enabled queue with a packet that can be read; a record with room and without. -/
def queue1 : Queue := { qctl := BitVec.ofNat 64 (2 ^ 57 + 4 * 2 ^ 48 + 4 * 2 ^ 44 + 2 ^ 8 + 64), qbase := BitVec.ofNat 64 (2 ^ 12), qtail := 1 }
def host (q : Queue) (ev : List Nat) : Mach := (st (scal []) (fun m => { m with parts := [(0, { resetPart with queues := [(1, q)] })], ev := ev })).mach
def hostOk (m : Mach) : Bool := m.linkUp && (sget? m.parts (m.arg 0)).isSome
/-- An enabled queue's QCTL, and the same without EN. -/
def qctlOn : Nat := 2 ^ 57 + 4 * 2 ^ 48 + 4 * 2 ^ 44 + 7 * 2 ^ 21 + 2 ^ 8 + 64
theorem wit_doorbell : let m (v : Nat) := host queue1 [0, 1, v]
    hostOk (m 15) = true ∧ 15 % 65536 < ((m 15).queue 0 1).size ∧ ((m 16).queue 0 1).size ≤ 16 % 65536 ∧ ((m 16).queue 0 1).size = 16 := by decide
theorem wit_qctl : let m (q v : Nat) := host queue1 [0, q, v]
    hostOk (m 1 0) = true ∧ ((m 1 0).queue 0 1).en = true ∧ ((m 2 0).queue 0 2).en = false ∧ (wd ((m 1 (2 ^ 57)).arg 2)).getLsbD 57 = true ∧
    (wd ((m 1 0).arg 2)).getLsbD 57 = false ∧ (wd ((m 2 qctlOn).arg 2)).getLsbD 57 = true ∧ fld qctlOn 48 4 = 4 ∧ fld qctlOn 44 4 = 4 ∧
    fld qctlOn 8 8 = 1 ∧ fld qctlOn 0 8 = 64 ∧ (∀ y ∈ ((m 2 qctlOn).part 0).queues, y.1 ≠ 2 → y.2.en = true → y.2.vec ≠ fld qctlOn 21 11) := by decide
theorem wit_chead : let m := host queue1 [0, 1, 3]
    hostOk m = true ∧ (m.queue 0 1).waiting = [] := by decide
/-- Register accesses: a read, a misaligned write, the mailbox, QBASE of the last queue, EVBASE; a vector masked and unmasked. -/
theorem wit_register : let m (off k : Nat) := host queue1 [0, off, 0xFFFF, k]
    hostOk (m 0x1028 1) = true ∧ (m 0x1028 1).arg 3 = 1 ∧ (m 4 0).arg 3 ≠ 1 ∧ (m 4 0).arg 1 % 8 ≠ 0 ∧ (m 0x2010 0).arg 1 = 0x2000 + 8 * 2 ∧
    (m 0x4FC0 0).arg 1 = 0x4000 + 64 * 63 ∧ (m 0x6000 0).arg 1 = 0x6000 := by decide
theorem wit_msix : let m (k : Nat) := (st (scal []) (fun m => { m with parts := [(0, { resetPart with pendVec := [7] })], ev := [0, 7, k] })).mach
    hostOk (m 1) = true ∧ (m 1).arg 2 = 1 ∧ (m 0).arg 2 ≠ 1 ∧ ((m 0).part 0).pendVec.contains ((m 0).arg 1) = true := by decide
/-- A packet read: a launch of queue 1; an admin command, and one of no known code, of queue 0. -/
def packetQ (q : Queue) (n w0 : Nat) : Bool :=
  let m := { (st (scal []) (fun m => { m with parts := [(0, { resetPart with queues := [(n, q)] })], ev := [0, n] })).mach with
    homes := words {} (hostKey 0x1000) [w0, 0x100000] }
  let x := m.queue 0 n
  x.en && !x.stuck && !x.resetting && x.qhead != x.qtail &&
    match m.ringHomes 0 x x.qbase (64 * (x.qhead % x.size)) 64 { rd := true } with
    | none => false
    | some (m', hs) => !hs.any (fun h => badIn m'.homes h 1) && (wordsOf (hs.map (homeByte m'.homes))).getD 0 0 == w0 &&
        (wordsOf (hs.map (homeByte m'.homes))).getD 1 0 == 0x100000
def queue0 : Queue := { queue1 with qctl := queue1.qctl ||| BitVec.ofNat 64 (2 ^ 56) }
theorem wit_packet_read : packetQ queue1 1 0x200000 = true ∧ packetQ queue0 0 (8 * 2 ^ 56) = true ∧ packetQ queue0 0 (0xFF * 2 ^ 56) = true ∧
    packetQ queue0 0 (8 * 2 ^ 56 + 1) = true ∧ (8 * 2 ^ 56) % 2 ^ 56 = 0 ∧ adminEvent 8 = some .powerCap ∧ adminEvent 0xFF = none ∧ 0x200000 < 2 ^ 56 ∧
    0x100000 < 2 ^ 56 := by decide +kernel
/-- A completion record: with room, with none, tried again; a counted record's timers. -/
def recordOk (q : Queue) : Bool := let m := host q [0, 1, 0, 2, 5, 9, 77]
  let x := m.queue 0 1
  (x.ctail + 1) % x.csize != x.chead % x.csize && (match m.ringHomes 0 x x.cbase (16 * (x.ctail % x.csize)) 16 { wr := true } with
    | none => false
    | some (m', hs) => decide hs.Nodup && !hs.any (fun h => badIn m'.homes h 1))
def queueC : Queue := { queue1 with cbase := BitVec.ofNat 64 (2 ^ 13) }
theorem wit_record : recordOk queueC = true ∧ recordOk { queueC with ctail := 15, chead := 3 } = true ∧ queueC.waiting = [] ∧
    recordOk { queueC with waiting := [(1, 2)] } = true := by decide +kernel
theorem wit_full : let x := (host { queueC with ctail := 15 } [0, 1]).queue 0 1
    (x.ctail + 1) % x.csize = x.chead % x.csize := by decide
theorem wit_coalesce : let m (k : Nat) := host { queue1 with ipend := 1, t1 := 168000 } [0, 1, 168000, k]
    ((m 0).queue 0 1).ipend ≠ 0 ∧ ((m 0).queue 0 1).t1 = (m 0).arg 2 ∧ (m 0).arg 3 = 0 ∧ (m 1).arg 3 ≠ 0 ∧ ((m 0).queue 0 1).ipend = 1 ∧
    ((m 0).part 0).masked.contains ((m 0).queue 0 1).vec = false := by decide
/-- AdminCommands: operands that fit a command's fields and that do not; contexts that stand and that do not. -/
def admin (ws : List Nat) (f : Mach → Mach := id) : Mach := (st (scal []) (fun m => f { mapped m with ev := [0, 4, 0] ++ ws })).mach
def fitsIn (m : Mach) (masks : List Nat) : Bool := (List.range 7).all (fun i => m.arg (3 + i) &&& (2 ^ 64 - 1 - masks.getD i 0) == 0)
theorem wit_unfit : let m := admin [2 ^ 63, 1, 0, 0, 0, 0, 0]
    ∀ masks ∈ [[0x13F, all64, all64, all64, all64, all64, all64], [0x3F], [all64], [0x7FF], [0x3FF, all64], [0x3FF], [0x3F, 2 ^ 48 - 1], [2 ^ 32 - 1],
      [0x7FFFF], [0xF3F, all64], [0xF3F, all64, 2 ^ 24 - 1, all64], [0x3F, all64, all64], []], fitsIn m masks = false := by decide
theorem wit_ctx_create : let m (c : Nat) := admin [256 + c, 2 ^ 56 - 2 ^ 14, 0, 1, 1, 1, 1]
    fitsIn (m 1) [0x13F, all64, all64, all64, all64, all64, all64] = true ∧ (m 0).ctxThere (cxKey 0 0) = true ∧ (m 1).ctxThere (cxKey 0 1) = false ∧
    (m 1).ctxNamed 1 = false ∧ 2 ^ 56 - 2 ^ 14 < 2 ^ 56 ∧ fld (2 ^ 56 - 2 ^ 14) 1 13 = 0 := by decide
theorem wit_ctx_commands : let m := admin [0, 2 ^ 48 - 1]
    fitsIn m [0x3F, 2 ^ 48 - 1] = true ∧ fitsIn (admin [0]) [0x3F] = true ∧ m.ctxThere 0 = true ∧ (skeys m.jobs).Pairwise (· < ·) := by decide
/-- An RCB that a bind record names, in memory at a mapped address: MAJOR budget 16, priority and fault domain of its own. -/
def rcbWords : List Nat := [2 ^ 63 + 7 * 2 ^ 48 + 16 * 2 ^ 16, 0, 0, 0, 0, 0, 0, 0]
def withRcb (m : Mach) : Mach := { m with
  homes := words m.homes (sram + 0x40) rcbWords, ctxs := [(0, { root := 0x1000, rcbs := [(sram + 0x40, { words := rcbWords })] })]
  dies := [(0, { binds := [(0, { part := 0, ctx := 0, resv := 0, clmask := 0xFF, rcb := sram + 0x40 })] })] }
theorem wit_rcb_update : let m := admin [sram + 0x40] withRcb
    fitsIn m [all64] = true ∧ (m.ctxsOf 0).filter (fun c => (sget? (m.ctx c).rcbs (m.arg 3)).isSome && m.rcbNamed c (m.arg 3)) = [0] ∧
    (m.validRcb 0 8 (m.arg 3)).any (fun r => (r.2.headD (0, [])).2 == rcbWords) = true := by decide +kernel
theorem wit_basket_size : fitsIn (admin [1024]) [0x7FF] = true ∧ ((admin [1024]).part 0).basket = [] ∧ 1024 < (admin [1025]).arg 3 ∧
    fitsIn (admin [1025]) [0x7FF] = true := by decide
theorem wit_basket_put : let m := admin [0, sram + 0x40] withRcb
    fitsIn m [0x3FF, all64] = true ∧ m.arg 3 < (m.part 0).bsize ∧ sget? (m.part 0).basket 0 = none ∧
    ((m.ctxsOf 0).findSome? (fun c => match m.readWords c (m.arg 4) 8 with
      | some (n, ws) => if ws.getD 7 0 / 2 ^ 58 == c % 64 then some (n, ws) else none
      | none => none)).isSome = true := by decide +kernel
theorem wit_basket_del : let m (b : Basket) := admin [0] (fun m => { m with parts := [(0, { resetPart with basket := [(0, b)] })] })
    fitsIn (m basket1) [0x3FF] = true ∧ sget? ((m basket1).part 0).basket 0 = some basket1 ∧ basket1.state = 0 ∧
    sget? ((m { basket1 with state := 1 }).part 0).basket 0 = some { basket1 with state := 1 } := by decide
theorem wit_power_cap : let m (mgr : Bool) (w : Nat) := admin [w] (fun m => { m with
      parts := [(0, { resetPart with manager := mgr, floor := 1000 })], pidle := 2000 })
    fitsIn (m true 999) [2 ^ 32 - 1] = true ∧ ((m false 0).part 0).manager = false ∧ ((m true 0).part 0).manager = true ∧
    ((m true 0).parts.map (fun q => q.2.floor)).sum = 1000 ∧ (m true 0).pidle = 2000 ∧ (m true 999).arg 3 < 1000 ∧ (m true 1000).arg 3 = 1000 ∧
    2000 ≤ Config.pcapReset := by decide
theorem wit_queue_reset : fitsIn (admin [63]) [0x3F] = true ∧ (admin [63]).arg 3 ≠ 0 ∧ (admin [0]).arg 3 = 0 := by decide
theorem wit_ifst : let m (w : Nat) := admin [w]
    fitsIn (m (2 ^ 18 + 0xFF * 64)) [0x7FFFF] = true ∧ dieKey 0 0 ∈ (m 0).ownedDies 0 ∧ 0xFF < 2 ^ Config.clusterCount 0 ∧
    ifstUnits 0 0 false = [] ∧ ifstUnits 0 0x80 true = [14, 15] ∧ ((m 0).vacate 168000 (pcKey 0 0 7 0)).isSome = true := by decide +kernel
theorem wit_xinval : fitsIn (admin [256, 7]) [0xF3F, all64] = true ∧ (256 : Nat).testBit 8 = true ∧ fitsIn (admin [7 * 512, 2 ^ 34]) [0xF3F, all64] = true ∧
    2 ^ 34 % 2 ^ pszLog (fld (7 * 512) 9 3) = 0 ∧ (admin []).ctxThere 0 = true := by decide
theorem wit_ranger_set : let m := admin [15 * 256, sram, 2 ^ 24 - 1, sram + 0x1000]
    fitsIn m [0xF3F, all64, 2 ^ 24 - 1, all64] = true ∧ m.arg 4 % 64 = 0 ∧ m.ctxThere 0 = true := by decide
/-- A hamper area of 1 GiB for one MXD and one BFD, under one leaf of host memory. -/
theorem wit_hamper_set : let m := admin [0, 2 ^ 30, 2 ^ 30] (fun m => { m with
      parts := [(0, { resetPart with hc := [wd (2 ^ 52 + 2 ^ 48), 0, wd (2 ^ 52 + 2 ^ 48)] })]
      homes := words (words (words {} 0x1000 [2 ^ 63 + 7 * 2 ^ 57 + 0x2000, 0]) 0x2000 [2 ^ 63 + 7 * 2 ^ 57 + 0x3000, 0])
        (0x3000 + 16) [2 ^ 63 + 6 * 2 ^ 60 + 2 ^ 57 + 0x3E, 7 * 2 ^ 50 + 3 * 2 ^ 54] })
    fitsIn m [0x3F, all64, all64] = true ∧ m.arg 4 % 65536 = 0 ∧
    2 ^ 25 * ((List.range 5).map (fun k => (m.part 0).lcount k * Config.clusterCount k)).sum ≤ m.arg 5 ∧
    (m.areaPages 0 (m.arg 4 + m.arg 5) 4 (m.arg 4)).any (fun r => r.2.length == 1) = true := by decide +kernel
theorem wit_part_swap : fitsIn (admin []) [] = true ∧ ((admin []).part 0).swap = none := by decide
theorem wit_admin_completions : let m := (st (scal []) (fun m => { m with ev := [0, 4, 1, 1, 0] })).mach
    m.arg 4 = 0 ∧ m.atoms = [] ∧ m.copies = [] ∧ m.pend = [] ∧ ∀ x ∈ m.streams, x.2.sb = [] := by decide

/-- HostMemory: a mailbox atomic on a misaligned address, and on a mapped one; an AtomicOp on bytes mapped with SYSAT; HDM inside and outside
the partition's memory, and in a page of a registered region. -/
def mailbox (ea : Nat) : Mach := { mapped (st (scal [])).mach with parts := [(0, { resetPart with abx := [BitVec.ofNat 64 ea, 5, 0, 1, 0, 0] })], ev := [0] }
theorem wit_mailbox : ((mailbox (sram + 4)).part 0).abx.length = 6 ∧ (mailbox sram).ctxThere (cxKey 0 0) = true ∧ (sram + 4) % 8 ≠ 0 ∧ sram % 8 = 0 ∧
    okAnd ((mailbox sram).xlatCx 0 sram { rd := true, wr := true }) (fun r => r.2.pub == 0 && !(homeLc (r.2.home 0)).any ((mailbox sram).awaitsStart 0)) =
      true := by decide +kernel
/-- Tables whose 1 GiB leaf maps HBM4E from 0 on with SYSAT. -/
def sysat (ev : List Nat) : Mach := { (st (scal [])).mach with
  ctxs := [(0, { root := 0x1000 })], ev := ev, homes := words (words (words {} 0x1000 [2 ^ 63 + 7 * 2 ^ 57 + 0x2000, 0]) 0x2000 [2 ^ 63 + 7 * 2 ^ 57 + 0x3000, 0])
    0x3000 [2 ^ 63 + 6 * 2 ^ 60 + 0x3E, 7 * 2 ^ 50 + 3 * 2 ^ 54 + 2 ^ 53] }
theorem wit_atomicop : let m := sysat [0, 2 ^ 30 - 8, 1, 5, 0]
    hostOk m = true ∧ (2 ^ 30 - 8) % 8 = 0 ∧ 2 ^ 30 ≤ (m.part 0).lcount 2 * 2 ^ 37 ∧ badIn m.homes (homeKey 0 (2 ^ 30 - 8)) 8 = false ∧
    m.mapsSysat 0 (2 ^ 30 - 8) 6 0 0 (fld (m.ctx 0).root 12 44 * 2 ^ 12) (bitOf (m.ctx 0).root 0) = true ∧ m.ctxsOf 0 = [0] ∧
    m.regionsAt (homeKey 0 (2 ^ 30 - 8)) = [] := by decide +kernel
theorem wit_hdm : let m := sysat [0, 8 * 2 ^ 37 - 64, 64]
    hostOk m = true ∧ (m.hdmHome 0 (8 * 2 ^ 37 - 64) 64).isSome = true ∧ badIn m.homes (homeKey 0 (8 * 2 ^ 37 - 64)) 64 = false ∧
    m.hdmHome 0 (8 * 2 ^ 37 - 63) 64 = none := by decide +kernel
def hdmRegion : Mach := { sysat [0, 0x10000, 7] with ctxs := [(0, { root := 0x1000, regions := [{ region5 with base := 0x10000, twin := 0x20000 }] })] }
theorem wit_hdm_write : let m := sysat [0, 0x10000, 7]
    (m.hdmHome 0 0x10000 1).isSome = true ∧ m.homes.bad = [] ∧ (∀ c ∈ m.ctxs, c.2.regions = []) ∧
    hdmRegion.regionsAt (homeKey 0 0x10000) = [(0, 5)] ∧ (hdmRegion.hdmHome 0 0x10000 1).isSome = true := by decide +kernel
/-- BootAndAttestation: each state of the die that boots next, the end of boot; a partition at its mailbox with a handshake, a session, neither. -/
def booting (b : Boot) : Mach := { State.reset.mach with manifest := some [1, 0, 1, 0], dies := [(40, { boot := b })] }
theorem wit_boot : ∀ b ∈ [Boot.held, .ident, .verified, .measured], (booting b).trdUp = true ∧ (booting b).manifest ≠ none ∧ ((booting b).die 40).boot = b ∧
    bootOrder.find? (fun dk => ((booting b).die dk).boot != .present && ((booting b).die dk).boot != .barred) = some 40 := by decide +kernel
theorem wit_booted : (booting .present).manifest ≠ none ∧
    bootOrder.find? (fun dk => ((booting .present).die dk).boot != .present && ((booting .present).die dk).boot != .barred) = none := by decide +kernel
theorem wit_power_good : let m (ok fac : Nat) := { State.reset.mach with ev := [ok, fac, 1, 1, 1] }
    (m 1 1).arg 0 = 1 ∧ (m 1 1).arg 1 = 1 ∧ (m 1 1).facVer ≤ (m 1 1).arg 2 ∧ (m 1 0).arg 1 ≠ 1 ∧ (m 0 0).arg 0 ≠ 1 := by decide
theorem wit_spdm : let m (h s : Bool) (slot : Nat) := { State.reset.mach with parts := [(0, { resetPart with handshake := h, session := s })], ev := [0, slot] }
    hostOk (m false false 0) = true ∧ hostOk (m true true 1) = true ∧ ((m true false 0).part 0).handshake = true ∧
    ((m false true 0).part 0).session = true ∧ ((m false false 0).part 0).handshake = false ∧ ((m false false 0).part 0).session = false ∧
    (m false false 0).arg 1 = 0 ∧ (m false false 1).arg 1 ≠ 0 := by decide
/-- SlotsAndEnergy, ClocksAndPower: a cluster of an elastic context. -/
theorem wit_slot : let m := (st (scal []) (fun m => { m with pcs := [(0, { active := some 0 })], ev := [1, 0] })).mach
    m.arg 0 = 1 ∧ (m.pcl 0).testing = false ∧ (m.pcl 0).retired = false ∧ (m.pcl 0).swapping = false ∧ (m.pcl 0).relock = false ∧ (m.chooseSlot 0).1 = some (0, 0) ∧
    (m.pcl 0).active = some 0 := by decide
/-- A total to fold, first and in its cycle; a residency, and its charge in its cycle. -/
def ticking (ev : List Nat) : State := st (scal []) (fun m => { m with pcs := [(0, { active := some 0, occOn := true })], ccs := [(0, {})], ev := ev })
theorem wit_energy : (ticking [0, 5]).mach.arg 4 = 0 ∧ (ticking [0, 5, 1, 0, 1, 0]).mach.arg 4 = 1 ∧ (ticking []).mach.arg 0 = 0 ∧
    (ticking [1, 1000, 0, 1]).mach.arg 0 = 0 + 1 ∧ (ticking [1, 1000, 0, 1]).mach.arg 3 = 1 ∧
    (let s := ticking []
     0 < (s.now - (s.mach.pcl 0).occFrom) / 84 ∧ (s.mach.pcl 0).occ = [] ∧ s.mach.pcs.map (·.1) = [0] ∧
     (s.mach.ccs.map (·.1)).find? (fun k => ccCx k == 0 && s.mach.pcOf (cxPart 0) (ccLc k) == 0) = some 0) := by decide
/-- Cold clusters; a die with every cluster hot, the one of cluster 2 elastic. -/
theorem wit_heat : let m := (st (scal []) (fun m => { m with pcs := [(0, {})] })).mach
    m.arg 0 ≠ 1 ∧ m.dies = State.reset.mach.dies ∧ (∀ d ∈ skeys m.dies, (m.die d).failing = false) ∧ (m.pcl 0).hot = false ∧ 0 ∈ m.presentClusters := by
  decide +kernel
theorem wit_hot_die : let m := (st (scal []) (fun m => { m with pcs := (List.range 8).map (fun c => (pcKey 0 0 c 0, { hot := true, active := if c == 2 then some 0 else none })) })).mach
    let mine := m.presentClusters.filter (fun p => pcDie p == 0)
    mine.all (fun p => (m.pcl p).hot) = true ∧ m.hottest (mine.filter m.elasticHigh) = some (pcKey 0 0 2 0) := by decide +kernel
/-- SpillsSwapsAndLinks: a fill of a bank beside an active context, and of an empty cluster. -/
theorem wit_restore : let m (a : Option Nat) := (st (scal []) (fun m => { m with pcs := [(0, { active := a })], ev := [0, 0, 0] })).mach
    ((m (some 1)).pcl 0).active ≠ some 0 ∧ ((m (some 1)).pcl 0).bank = none ∧ ((m none).pcl 0).active = none ∧ ((m none).pcl 0).swapping = false ∧
    ((m none).pcl 0).relock = false ∧ ((m none).ctx 0).hamper = none := by decide
/-- SpillsSwapsAndLinks: a bank without a hamper area; a swap asked for. -/
theorem wit_swap : let m := (st (scal []) (fun m => { m with parts := [(0, { resetPart with swap := some (4, 0, []) })], pcs := [(0, { bank := some 0 })], ev := [0, 0, 0] })).mach
    (m.pcl 0).bank = some 0 ∧ (m.part 0).swap ≠ none ∧ m.jobs.any (fun j => cxPart j.2.cx == 0 && j.2.fixed && j.2.phase == .running) = false ∧
    (m.ctx 0).hamper = none := by decide
end Sys2Proof.Tests
end

/-! PROOFS. Package time: every turn but an idle one is taken at the present tick, and an idle one passes time no further than the next
slot boundary and the first event to come (R5, R349). -/

namespace Sys2Proof.Machine

/-! ### The boundaries of package time -/

/-- Every recurring event falls later than now, as it has a period (R34, R349). -/
theorem lt_nextBoundary (now : Nat) : now < nextBoundary now := by
  have next (k : Nat) (hk : 0 < k) : now < (now / k + 1) * k := Nat.mul_comm .. ▸ Nat.lt_mul_div_succ now hk
  have period : ∀ p ∈ periodics, 0 < p.1 * Config.tick := by decide
  refine List.foldlRecOn (motive := (now < ·)) periodics _ (next _ (by decide)) (fun a ha p hp => ?_)
  exact lt_min ha (next _ (period p hp))

/-- The slot boundary is one of the recurring events, so that the next of them is no later (R349). -/
theorem nextBoundary_le_slotAfter (now : Nat) : nextBoundary now ≤ slotAfter now :=
  List.foldlRecOn (motive := (· ≤ slotAfter now)) periodics _ le_rfl (fun _ ha _ _ => (min_le_left ..).trans ha)

theorem slotAfter_mod (now : Nat) : slotAfter now % (16 * Config.tick) = 0 := Nat.mul_mod_left ..

/-- Putting the recurring events of a tick into the agenda changes the agenda only. -/
theorem Mach.boundaries_eq (m : Mach) (t : Nat) : m.boundaries t = { m with agenda := (m.boundaries t).agenda } := by
  refine List.foldlRecOn (motive := fun (n : Mach) => n = { m with agenda := n.agenda }) periodics _ rfl (fun n hn p _ => ?_)
  split
  · rw [Mach.at, hn]
  · exact hn

/-- A tick that is a multiple of 16 ns has its slot boundary among the events to come: it is the last of `periodics` (R349). -/
theorem Mach.slotBoundary_mem_boundaries (m : Mach) {t : Nat} (h : t % (16 * Config.tick) = 0) :
    (t, .slotBoundary, []) ∈ (m.boundaries t).agenda := by
  have hl : periodics = periodics.dropLast ++ [(16, .slotBoundary)] := rfl
  rw [Mach.boundaries, hl, List.foldl_append]
  simp only [List.foldl, h, beq_self_eq_true, if_true]
  exact mem_agendaAdd ..

/-! ### The next tick -/

section
variable (now : Nat)

/-- The least of a bound and those ticks of a list that are still to come. -/
def soonest (b : Nat) (l : List Nat) : Nat := l.foldl (fun a t => if now < t then min a t else a) b

theorem soonest_le (b : Nat) (l : List Nat) : soonest now b l ≤ b := by
  refine List.foldlRecOn (motive := (· ≤ b)) l _ le_rfl (fun a ha t _ => ?_)
  split <;> omega

theorem lt_soonest {b : Nat} (l : List Nat) (hb : now < b) : now < soonest now b l := by
  refine List.foldlRecOn (motive := (now < ·)) l _ hb (fun a ha t _ => ?_)
  split <;> omega

theorem soonest_le_of_mem {b x : Nat} {l : List Nat} (h : x ∈ l) (hx : now < x) : soonest now b l ≤ x := by
  induction l generalizing b with
  | nil => cases h
  | cons y l ih =>
    rcases List.mem_cons.1 h with rfl | h
    · exact (soonest_le now _ l).trans (by simp only [hx, if_true]; exact Nat.min_le_right ..)
    · exact ih h

theorem Mach.nextTick_eq (m : Mach) : m.nextTick now = soonest now (nextBoundary now) (m.ticks now) := rfl

theorem Mach.lt_nextTick (m : Mach) : now < m.nextTick now := by
  rw [m.nextTick_eq]
  exact lt_soonest now _ (lt_nextBoundary now)

theorem Mach.nextTick_le_slotAfter (m : Mach) : m.nextTick now ≤ slotAfter now := by
  rw [m.nextTick_eq]
  exact (soonest_le now _ _).trans (nextBoundary_le_slotAfter now)

/-- Time does not pass the first event to come. -/
theorem Mach.nextTick_le_agenda (m : Mach) {x : Nat × Instr × List Nat} (hx : m.agenda.head? = some x) (h : now < x.1) :
    m.nextTick now ≤ x.1 := by
  rw [m.nextTick_eq]
  refine soonest_le_of_mem now ?_ h
  obtain ⟨rest, hr⟩ := List.head?_eq_some_iff.1 hx
  simp [Mach.ticks, hr]

end

/-! ### Which turns pass time -/

/-- A turn that passes time. -/
def Turn.isIdle : Turn → Bool
  | .idle .. => true
  | _ => false

@[simp] theorem Mach.take_isIdle (m : Mach) (e : Instr) (a : List Nat) : (m.take e a).isIdle = false := rfl

section
variable {m : Mach} {now : Nat} {t : Turn}

theorem Mach.streamTurn_isIdle {i : Nat} {s : Stream} (h : m.streamTurn now i s = some t) : t.isIdle = false := by
  unfold Mach.streamTurn at h
  dsimp only at h
  repeat' split at h
  all_goals cases h <;> rfl

theorem Mach.turnOf_isIdle {p : Nat × Stream} (h : m.turnOf now p = some t) : t.isIdle = false := by
  unfold Mach.turnOf at h
  split at h
  case h_4 => split at h <;> cases h; rfl
  case h_5 => cases h
  all_goals
    split at h
    · split at h <;> cases h; rfl
    · exact Mach.streamTurn_isIdle h

theorem Mach.jobTurn_isIdle {p : Nat × Job} (h : m.jobTurn now p = some t) : t.isIdle = false := by
  unfold Mach.jobTurn at h
  dsimp only at h
  split at h
  · cases h
  · split at h
    · cases h; rfl
    · split at h
      · cases h; rfl
      · split at h
        · cases h; rfl
        · split at h
          · cases h
          · split at h
            · cases h
            · split at h
              · obtain ⟨-, ⟨⟩⟩ := Option.ite_none_right_eq_some.1 h
                rfl
              · obtain ⟨lc, -, rfl⟩ := Option.map_eq_some_iff.1 h
                rfl

/-- Where nothing else is to be done, the package passes time to the next tick, and its clock and agenda move with it. -/
theorem Mach.other_of_isIdle (h : (Mach.turn.other m now).isIdle = true) :
    Mach.turn.other m now = .idle (m.nextTick now) ({ m with clock := m.nextTick now }.boundaries (m.nextTick now)) := by
  unfold Mach.turn.other at h ⊢
  split at h
  · cases h
  · split at h
    · cases h
    · split at h
      next t ht =>
        obtain ⟨p, -, hp⟩ := List.exists_of_findSome?_eq_some ht
        exact absurd h (by simp [Mach.turnOf_isIdle hp])
      · split at h
        next t ht =>
          obtain ⟨p, -, hp⟩ := List.exists_of_findSome?_eq_some ht
          exact absurd h (by simp [Mach.jobTurn_isIdle hp])
        · simp [*]

/-- The package passes time only where no event has fallen due. -/
theorem Mach.turn_of_isIdle (h : (m.turn now).isIdle = true) :
    m.turn now = Mach.turn.other m now ∧ ∀ x, m.agenda.head? = some x → now < x.1 := by
  unfold Mach.turn at h ⊢
  split at h
  · cases h
  next hr =>
    simp only [hr, Bool.false_eq_true, if_false]
    split at h
    next n e a rest ha =>
      split at h
      · cases h
      next hn => simp [ha, hn]; omega
    next ha => simp [ha]

end

/-! ### What a step does to package time -/

theorem issueCore_answers (w : Nat) (s : State) : Answers (issueCore exec w s) s := by
  unfold issueCore
  split <;> exact exec_answers ..

/-- A turn is taken at the present tick, unless it is one that passes time. -/
theorem takeTurn_answers {s : State} (h : (s.mach.turn s.now).isIdle = false) : Answers (takeTurn exec s) s := by
  unfold takeTurn
  split
  next m e _ => exact (exec_answers e (s.on m)).of_on
  next m _ => exact (issueSound_answers (s.on _)).of_on
  next m _ => exact (issuePrime_answers (s.on m)).of_on
  next m w _ => exact (issueCore_answers w (s.on m)).of_on
  next ht => simp [ht, Turn.isIdle] at h

/-- A step of the package that passes time, with nothing due: time goes to the next tick, and the recurring events of that tick are put into the agenda. -/
structure State.Passes (s t : State) : Prop where
  due : ∀ x, s.mach.agenda.head? = some x → s.now < x.1
  eq : t = { now := s.mach.nextTick s.now, mach := { s.mach with clock := s.mach.nextTick s.now }.boundaries (s.mach.nextTick s.now) }

theorem takeTurn_passes {s t : State} (hi : (s.mach.turn s.now).isIdle = true) (h : takeTurn exec s = .next t) : s.Passes t := by
  obtain ⟨ho, hd⟩ := Mach.turn_of_isIdle hi
  rw [takeTurn, ho, Mach.other_of_isIdle (ho ▸ hi)] at h
  cases h
  exact ⟨hd, rfl⟩

/-- Everything that a step can do to package time: it takes none, it passes time with nothing due, or the stopped package waits for a power-good (R439). -/
theorem step_time {s t : State} (h : step s = .next t) :
    t.now = s.now ∨ s.Passes t ∨ s.mach.stopped = true ∧ s.now < t.now ∧ t.now ≤ nextBoundary s.now := by
  unfold step packageStep at h
  split at h
  · cases hi : (s.mach.turn s.now).isIdle
    · obtain ⟨m, hm⟩ := takeTurn_answers hi
      cases hm.symm.trans h
      exact .inl rfl
    · exact .inr (.inl (takeTurn_passes hi h))
  next hs =>
    split at h
    · cases h
    next n m _ =>
      split at h
      · obtain ⟨m', hm⟩ := exec_answers .powerGood (s.on m)
        cases hm.symm.trans h
        exact .inl rfl
      · cases h
        exact .inr (.inr ⟨by simpa using hs, lt_min (by omega) (lt_nextBoundary _), min_le_right ..⟩)

namespace State.Passes
variable {s t : State} (h : s.Passes t)
include h

theorem now_eq : t.now = s.mach.nextTick s.now := by rw [h.eq]

theorem mach_eq : t.mach = { s.mach with agenda := t.mach.agenda, clock := t.now } := by
  rw [h.eq, Mach.boundaries_eq]

theorem slotBoundary_mem (ht : t.now = slotAfter s.now) : (t.now, .slotBoundary, []) ∈ t.mach.agenda := by
  have hm : t.mach = { s.mach with clock := t.now }.boundaries t.now := by rw [h.eq]
  rw [hm]
  exact Mach.slotBoundary_mem_boundaries _ (ht ▸ slotAfter_mod s.now)

end State.Passes

/-- Settles O60, by the three things that a step can do to package time. -/
theorem timeStopsAtEveryBoundary : Obligations.TimeStopsAtEveryBoundary := by
  unfold Obligations.TimeStopsAtEveryBoundary
  intro s t h
  rcases step_time h with hn | hp | ⟨hs, hlt, hle⟩
  · refine ⟨hn.ge, hn.le.trans ?_, fun hlt => absurd hlt (by omega)⟩
    exact (lt_nextBoundary _).le.trans (nextBoundary_le_slotAfter _)
  · have hn := hp.now_eq
    refine ⟨hn ▸ (s.mach.lt_nextTick s.now).le, hn ▸ s.mach.nextTick_le_slotAfter s.now, fun _ _ => ⟨?_, hp.mach_eq, hp.slotBoundary_mem⟩⟩
    intro n e a ha
    exact ⟨hp.due _ ha, hn ▸ s.mach.nextTick_le_agenda s.now ha (hp.due _ ha)⟩
  · exact ⟨hlt.le, hle.trans (nextBoundary_le_slotAfter _), fun _ hr => absurd hs (by simp [hr])⟩

end Sys2Proof.Machine

/-! PROOFS. The end of a share switch where the map of streams lists one number twice (R22, R461). -/

namespace Sys2Proof.Machine

/-! ### A share of two clusters, and one stream number that stands on both -/

/-- A primed scalar stream of job 1 in the share of logical die 1, on one of its clusters. -/
def primedOn (cluster : Nat) : Stream := { job := 1, sel := { ldie := 1, cluster := cluster }, state := .primed }

/-- The end of the switch of carrier 0 to logical die 1 is due, the share of job 1 there has clusters 0 and 1 and runs for the first time. The map
of streams lists number 1 twice, on cluster 0 and on cluster 1: a read of the number finds the first entry, the list of a cluster's streams
finds both. -/
def twiceListed : State where
  mach :=
    { jobs := [(1, { phase := .running, share := [(0, 17)], shares := [{ sel := { ldie := 1 } }, { sel := { ldie := 1, cluster := 1 } }] })]
      streams := [(1, primedOn 0), (1, primedOn 1), (2, primedOn 1)]
      ev := [1, 0, 1, 0, 0] }

/-- Before the switch ends every stream listed for cluster 1 is primed. -/
theorem twiceListed_primed : ∀ k ∈ twiceListed.mach.streamsOn 1 (primedOn 1).sel.lc, (twiceListed.mach.str k).state = .primed := by decide

/-- Cluster 0 starts first and stream 1 with it, so that the streams of cluster 1 are then not all primed, and stream 2 only refreshes. -/
theorem twiceListed_not_started {t : State} (h : exec .shareSwitchEnd twiceListed = .next t) : (t.mach.str 2).state = .primed := by
  rw [exec_shareSwitchEnd, execShareSwitchEnd, onMach] at h
  cases h
  decide

/-- Refutes O43: nothing in it asks that the map of streams lists each number once. In `twiceListed` every stream of cluster 1 is primed when the
switch ends and the cluster does not await priming, yet stream 2 does not run, because stream 1 has started with cluster 0. -/
theorem not_jobsEnd : ¬ Obligations.JobsEnd := by
  unfold Obligations.JobsEnd
  intro h
  obtain ⟨-, -, -, -, -, hswitch⟩ := h twiceListed
  obtain ⟨-, hend⟩ := hswitch rfl rfl
  obtain ⟨t, ht, -, -, hstarts⟩ := hend (by decide) (by decide) (by decide) (by simp [twiceListed])
  obtain ⟨-, hruns⟩ := hstarts { sel := (primedOn 1).sel } (by decide) 2 (by decide)
  have hrunning : (t.mach.str 2).state = .running := hruns twiceListed_primed (by decide)
  simp [twiceListed_not_started ht] at hrunning

end Sys2Proof.Machine

/-! PROOFS. Token FIFOs: TOKSET, signals and credits that arrive (R44 to R46, R339). -/

namespace Sys2Proof.Machine

/-! ### A result taken out to be written -/

/-- TOKSET writes no register, so that none is mended as its result is taken out (R80). -/
theorem Mach.takePend_tokset {m n : Mach} {id f v : Nat} {p : Pend} (h : m.takePend id = some (n, p)) (he : p.eff = .tokset f v) :
    n = { m with pend := n.pend } := by
  obtain ⟨q, -, hq⟩ := Option.map_eq_some_iff.1 h
  cases hq
  have hlocs : p.locs = [] := by simp [Pend.locs, he]
  simp [Mach.mendPend, he, hlocs]

/-! ### FIFOs of a context's cluster -/

/-- A pending signal that moves up is put in flight; FIFOs stay as they are. -/
@[simp] theorem Mach.cct_pendUp (m : Mach) (p : Pend) (f due k : Nat) : (m.pendUp p f due).cct k = m.cct k :=
  Mach.cct_congr (by rw [Mach.pendUp_rest]) k

/-- TOKSET in its cycle, at a FIFO that its job owns or that is free: the count is set, and the FIFO is the job's (R44, R339). -/
theorem Mach.tokenEff_tokset {m : Mach} {p : Pend} {f v : Nat} (he : p.eff = .tokset f v)
    (ho : (sget (m.cct p.cc).fifos f {}).owner = none ∨ (sget (m.cct p.cc).fifos f {}).owner = some p.job) :
    ∃ x : Fifo, ((m.tokenEff p).cct p.cc).fifos = sset (m.cct p.cc).fifos f x ∧ x.count = v ∧ x.owner = some p.job := by
  have hown : ((sget (m.cct p.cc).fifos f {}).owner.isSome && (sget (m.cct p.cc).fifos f {}).owner != some p.job) = false := by
    rcases ho with h | h <;> simp [h]
  simp only [Mach.tokenEff, he, hown, Bool.false_eq_true, if_false, Mach.cct_pendUp, Mach.cct_modCct, if_true]
  exact ⟨_, rfl, rfl, rfl⟩

/-- A signal at a FIFO with room is counted; at a full one it waits (R44, R339). -/
theorem Cctx.signal_fifo (c : Cctx) (f : Nat) :
    let x := sget c.fifos f {}
    let y := sget (c.signal f).fifos f {}
    (x.count < 255 → x.pend = 0 → y.count = x.count + 1 ∧ y.pend = 0) ∧
    (255 ≤ x.count → y.count = x.count ∧ y.pend = x.pend + 1) := by
  simp only [Cctx.signal, sget_smod, if_true]
  refine ⟨fun hc hp => ?_, fun hc => ?_⟩
  · simp [hc, hp]
  · simp [Nat.not_lt.2 hc]

/-- Every listed value lowered: a read is lowered, and an unlisted key still reads 0. -/
theorem sget_map_sub (l : SMap Nat) (n i : Nat) : sget (l.map (fun p => (p.1, p.2 - n))) i 0 = sget l i 0 - n := by
  induction l with
  | nil => simp [sget, sget?]
  | cons p t ih =>
    simp only [sget, List.map_cons, sget?] at ih ⊢
    split
    · rfl
    · exact ih

/-- TOKSET retires, and sets the count at the end of its issue cycle (R339). -/
theorem tokset_retired {s : State} (hs : s.onScalar) (a b : R) (hv : (s.mach.rs b).toNat ≤ 255) :
    ∃ t, exec (.tokset a b) s = .next t ∧ s.Retired t
      [s.resultAt 0 (s.mach.ccyc s.now) 0 (.tokset ((s.mach.rs a).toNat % 32) (s.mach.rs b).toNat)] := by
  refine ⟨_, rfl, ?_⟩
  simp only [Nat.not_lt.2 hv, if_false]
  exact State.go_retired hs (Mach.pushAt_puts (s.mach.charge_puts 0 1) ..)

/-- Settles O24: TOKSET, a signal's arrival and a credit's return each change one FIFO. -/
theorem tokens : Obligations.Tokens := by
  unfold Obligations.Tokens
  intro s
  refine ⟨fun a b hs hv => tokset_retired hs a b hv, fun m p f v htake heff => ?_, ⟨_, rfl, ?_⟩, ⟨_, rfl, ?_, fun i => ?_⟩⟩
  · intro x howner
    have hcct : m.cct p.cc = s.mach.cct p.cc := Mach.cct_congr (by rw [Mach.takePend_tokset htake heff]) _
    obtain ⟨y, hfifos, hcount, hjob⟩ := Mach.tokenEff_tokset (m := m) heff (by rwa [hcct])
    have hex : exec .resultWrite s = .next (s.on (m.tokenEff p)) := by
      simp [exec_resultWrite, execResultWrite, onMach, htake, Mach.resultEff, heff, State.on]
    refine ⟨_, hex, ?_⟩
    simp only [State.on, hfifos, hcct]
    exact ⟨by simpa using hcount, by simpa using hjob, fun g hg => sget_sset_ne _ _ _ hg⟩
  · simp only [Mach.cct_modCct, if_true]
    exact Cctx.signal_fifo ..
  · simp [Mach.cct_modCct, sget_smod]
  · simp only [Mach.cct_modCct, if_true, sget_smod]
    exact sget_map_sub ..

end Sys2Proof.Machine

/-! PROOFS. What a step is, turn by turn: the word that issues, an event, a core's word, the passing of time (R41, R91, R322, R323, R439). -/

namespace Sys2Proof.Machine

/-! ### A word issues -/

section
variable {s : State}

/-- A word that reads no register whose parity does not match just issues (R80). -/
theorem issueSound_eq_issueWord (h : s.mach.readsSpoiled s.now s.mach.cur = false) : issueSound exec s = issueWord exec s := by
  simp [issueSound, h]

theorem issueWord_scalar (h : s.mach.cs.sel.cls = .scalar) : issueWord exec s = issueScalar exec s := by
  simp [issueWord, h]

theorem issueWord_engine (h : s.mach.cs.sel.cls ≠ .scalar) : issueWord exec s = issueEngine exec s := by
  simp [issueWord, h]

/-- An annulled word at FQ0 passes: the queue advances (R322). -/
theorem issueScalar_annul (hslot : isLong s.mach.cs.fq0.w0 = false ∨ s.mach.cs.slots = 0) (ha : s.mach.cs.fq0.annul = true) :
    issueScalar exec s = .next (s.on (s.mach.advance s.now s.mach.cur none false)) := by
  have hlong : (s.mach.cs.fq0.flt.isNone && isLong s.mach.cs.fq0.w0 && s.mach.cs.slots != 0) = false := by
    rcases hslot with h | h <;> simp [h]
  simp [issueScalar, hlong, ha, onMach, State.on]

/-- The instruction that the word at FQ0 decodes to runs, with its length and long form noted (R91, R322). -/
theorem issueScalar_runs {i : Instr} (hslot : isLong s.mach.cs.fq0.w0 = false ∨ s.mach.cs.slots = 0) (hflt : s.mach.cs.fq0.flt = none)
    (ha : s.mach.cs.fq0.annul = false) (hbody : isLong s.mach.cs.fq0.w0 = true → s.mach.cs.fq0.bodyFlt = none)
    (hi : decodeWord .scalar s.mach.cs.isRanger s.mach.cs.fq0.w0 s.mach.cs.fq0.w1 s.mach.cs.fq0.w2 = .ok i) :
    issueScalar exec s = exec i (noteForm (if isLong s.mach.cs.fq0.w0 then s.mach.cs.fq0.w1 + 2 ^ 32 * s.mach.cs.fq0.w2 else 0)
      (if isLong s.mach.cs.fq0.w0 then 3 else 1) s) := by
  cases hl : isLong s.mach.cs.fq0.w0
  · simp [issueScalar, hflt, hl, ha, hi]
  · have hs0 : s.mach.cs.slots = 0 := by simpa [hl] using hslot
    simp [issueScalar, hflt, hl, ha, hi, hbody hl, hs0]

/-- The instruction that the one word at STEP decodes to runs (R41). -/
theorem issueEngine_short {m : Mach} {w : Nat} {i : Instr} (hw : s.mach.engineWord s.mach.cur s.mach.cs.step = (m, .ok w))
    (hl : isLong w = false) (hi : decodeWord s.mach.cs.sel.cls false w 0 0 = .ok i) :
    issueEngine exec s = exec i (noteForm 0 1 (s.on m)) := by
  simp [issueEngine, hw, hl, hi, State.on]

/-- The instruction that the three words at STEP decode to runs, with its long form noted (R41, R91). -/
theorem issueEngine_long {m1 m2 m3 : Mach} {w w1 w2 : Nat} {i : Instr} (hw : s.mach.engineWord s.mach.cur s.mach.cs.step = (m1, .ok w))
    (hl : isLong w = true) (hlen : s.mach.cs.step + 3 ≤ s.mach.cs.len)
    (hw1 : m1.engineWord m1.cur (s.mach.cs.step + 1) = (m2, .ok w1)) (hw2 : m2.engineWord m2.cur (s.mach.cs.step + 2) = (m3, .ok w2))
    (hi : decodeWord s.mach.cs.sel.cls false w w1 w2 = .ok i) :
    issueEngine exec s = exec i (noteForm (w1 + 2 ^ 32 * w2) 3 (s.on m3)) := by
  simp [issueEngine, hw, hl, Nat.not_lt.2 hlen, hw1, hw2, hi, State.on]

end

/-! ### Words of one cycle -/

/-- Which word issues first is a choice of the executing stream (R400, R403). -/
theorem Mach.issuesFirst_eq (run : Instr → State → Ans) (now : Nat) (m : Mach) :
    m.issuesFirst run now = { m with cur := (m.issuesFirst run now).cur } := by
  unfold Mach.issuesFirst
  dsimp only
  split
  · rfl
  · split <;> rfl

/-- A word alone in its cycle issues first. -/
theorem Mach.issuesFirst_alone {run : Instr → State → Ans} {now : Nat} {m : Mach} (h : m.sameCycle now = []) : m.issuesFirst run now = m := by
  simp [Mach.issuesFirst, h]

/-! ### A fetch -/

/-- A good word of a stream's code is the four bytes that memory holds for the stream (R322, R323). -/
theorem Mach.fetchWord_ok {m m' : Mach} {sid a : Nat} {p : Pg} (hlen : a < (m.str sid).len)
    (hx : m.xlat sid ((m.str sid).base + 4 * a) { ex := true } = .ok (m', p)) (hgood : m'.pgBad p 4 = false) :
    m.fetchWord sid a = (m'.soft (m'.job (m.str sid).job).cx [p.home 0], .ok (leNat (m'.readPg sid .plain p 4))) := by
  simp [Mach.fetchWord, Nat.not_le.2 hlen, hx, hgood]

/-! ### A step -/

section
variable {s : State}

/-- A package that no fatal event stopped takes its turn. -/
theorem step_running (h : s.mach.stopped = false) : step s = takeTurn exec s := by
  simp [step, packageStep, h]

/-- Where the turn is a word's, the word that issues first in the cycle issues. -/
theorem step_word (h : s.mach.stopped = false) {m0 m : Mach} (ht : s.mach.turn s.now = .word m0) (hm : m = m0.issuesFirst exec s.now)
    (hsound : m.readsSpoiled s.now m.cur = false) : step s = issueWord exec (s.on m) := by
  rw [step_running h, takeTurn, ht, ← issueSound_eq_issueWord hsound, hm]
  rfl

/-- A stopped package waits for its next power-good, and has no step where none is to come (R439). -/
theorem step_stopped (h : s.mach.stopped = true) :
    (s.mach.nextBoot = none → step s = .fault .packageStopped) ∧
    ∀ t m, s.mach.nextBoot = some (t, m) → t ≤ s.now → step s = exec .powerGood (s.on m) := by
  refine ⟨fun hb => ?_, fun t m hb ht => ?_⟩
  · simp [step, packageStep, h, hb]
  · simp [step, packageStep, h, hb, ht, State.on]

/-- A core's word is the capability instruction that it decodes to, else an illegal operation (R387). -/
theorem step_core (h : s.mach.stopped = false) {m : Mach} {w : Nat} (ht : s.mach.turn s.now = .core m w) :
    (∀ i, decodeCap w = .ok i → step s = exec i (s.on m)) ∧
    (∀ e, decodeCap w = .error e → step s = exec (.illegalOp (BitVec.ofNat 32 w)) (s.on m)) := by
  rw [step_running h, takeTurn, ht]
  exact ⟨fun i hi => by simp [issueCore, hi, State.on], fun e he => by simp [issueCore, he, State.on]⟩

end

/-- Settles O45: a step is its turn, and a word's turn is the instruction that the word decodes to. -/
theorem stepRunsTheWord : Obligations.StepRunsTheWord := by
  unfold Obligations.StepRunsTheWord
  intro s m
  refine ⟨fun hstop => ⟨(step_stopped hstop).1, fun t => (step_stopped hstop).2 t m⟩, fun sid a m' p => Mach.fetchWord_ok, fun hrun => ?_⟩
  refine ⟨fun e ht => ?event, fun w ht => step_core hrun ht, fun t ht => ?idle,
    fun m0 _ => ⟨m0.issuesFirst_eq exec s.now, Mach.issuesFirst_alone⟩, ?scalar, ?engine⟩
  case event => rw [step_running hrun, takeTurn, ht]; rfl
  case idle => rw [step_running hrun, takeTurn, ht]
  case scalar =>
    rintro ⟨m0, ht, hm⟩ hsound hcls q long hslot hflt
    rw [step_word hrun ht hm hsound, issueWord_scalar hcls]
    exact ⟨issueScalar_annul (s := s.on m) hslot, fun i => issueScalar_runs (s := s.on m) hslot hflt⟩
  case engine =>
    rintro ⟨m0, ht, hm⟩ hsound hcls m1 w hw
    rw [step_word hrun ht hm hsound, issueWord_engine hcls]
    exact ⟨fun hl i => issueEngine_short (s := s.on m) hw hl, fun hl _ hlen m2 w1 m3 w2 i => issueEngine_long (s := s.on m) hw hl hlen⟩

end Sys2Proof.Machine

/-! PROOFS. What the command complex does to the machine as it reads a context's space and checks a launch (R32, R330, R347). -/

namespace Sys2Proof.Machine

/-! ### Reading -/

section
variable (sid : Nat) {m n : Mach} {cx va : Nat}

/-- A translation by the tables alone changes nothing but what `Walked` names, whichever stream is asked about. -/
theorem Mach.xlatCx_walked {nd : Need} {p : Pg} (h : m.xlatCx cx va nd = .ok (n, p)) : m.Walked n sid (if nd.wr then 0x30 else 0x10) := by
  unfold Mach.xlatCx at h
  split at h
  · cases h
  · split at h
    · cases h
    next hw =>
      split at h <;> cases h
      exact Mach.walk_walked sid hw

theorem Mach.readVa_walked {fuel k : Nat} {bs : List Byte} (h : m.readVa cx fuel va k = .ok (n, bs)) : m.Walked n sid 0x10 := by
  induction fuel generalizing m va k bs with
  | zero =>
    cases k <;> cases h
    exact .refl ..
  | succ fuel ih =>
    cases k with
    | zero => cases h; exact .refl ..
    | succ k =>
      rw [Mach.readVa] at h
      case x_3 => exact Nat.succ_ne_zero k
      split at h
      · cases h
      next hx =>
        dsimp only at h
        split at h
        · cases h
        · split at h
          · cases h
          next hr =>
            cases h
            exact ((Mach.xlatCx_walked sid hx).trans (Mach.soft_walked ..)).trans (ih hr)

theorem Mach.readWords_walked {k : Nat} {ws : List Nat} (h : m.readWords cx va k = some (n, ws)) : m.Walked n sid 0x10 := by
  unfold Mach.readWords Mach.readWordsF at h
  cases hr : m.readVa cx (k + 1) va (8 * k) with
  | error f => simp [hr, Except.map, Except.toOption] at h
  | ok r =>
    simp only [hr, Except.map, Except.toOption, Option.some.injEq] at h
    cases h
    exact Mach.readVa_walked sid hr

/-- Validating a region and its ancestors reads them (R32). -/
theorem Mach.validRcb_walked {fuel : Nat} {l : List (Nat × List Nat)} (h : m.validRcb cx fuel va = some (n, l)) : m.Walked n sid 0x10 := by
  induction fuel generalizing m va l with
  | zero => cases h
  | succ fuel ih =>
    rw [Mach.validRcb] at h
    split at h
    · cases h
    · split at h
      · cases h
      next hr =>
        have hw := Mach.readWords_walked sid hr
        split at h
        · cases h
        · split at h
          · cases h; exact hw
          · split at h
            · cases h
            next hv =>
              obtain ⟨-, ⟨⟩⟩ := Option.ite_none_right_eq_some.1 h
              exact hw.trans (ih hv)

theorem Mach.readShares_walked {decl : Nat → Nat} {own : Nat → Nat → Bool} {k : Nat} {l : List Share}
    (h : m.readShares cx decl own k va = .ok (n, l)) : m.Walked n sid 0x10 := by
  induction k generalizing m va l with
  | zero => cases h; exact .refl ..
  | succ k ih =>
    rw [Mach.readShares] at h
    split at h
    · cases h
    next hr =>
      split at h
      · cases h
      · split at h <;> cases h
        next hs => exact (Mach.readWords_walked sid hr).trans (ih hs)

theorem Mach.segShares_walked {decl : Nat → Nat} {own : Nat → Nat → Bool} {image : Nat} {entry : Option Nat} {l : List Share}
    (h : m.segShares cx decl own image entry = .ok (n, l)) : m.Walked n sid 0x10 := by
  unfold Mach.segShares at h
  split at h
  · cases h; exact .refl ..
  · dsimp only at h
    split at h
    · cases h
    · exact Mach.readShares_walked sid h

end

/-! ### What the dispatcher's checks leave -/

/-- What checking a launch may change: page tables gain A bits, regions are cached, the context is bound on its dies; every stream reads as
before. -/
structure Mach.Checked (m n : Mach) : Prop where
  rest : n = { m with homes := n.homes, slices := n.slices, miss := n.miss, streams := n.streams, dies := n.dies, ctxs := n.ctxs }
  str : ∀ i, n.str i = m.str i

theorem Mach.Checked.trans {m n p : Mach} (h : m.Checked n) (k : n.Checked p) : m.Checked p where
  rest := by rw [k.rest, h.rest]
  str i := by rw [k.str, h.str]

section
variable {m n : Mach} (h : m.Checked n)
include h
theorem Mach.Checked.parts : n.parts = m.parts := by rw [h.rest]
theorem Mach.Checked.ccs : n.ccs = m.ccs := by rw [h.rest]
theorem Mach.Checked.jobs : n.jobs = m.jobs := by rw [h.rest]
end

/-- A walk for no stream in particular changes no stream. -/
theorem Mach.Walked.checked {m n : Mach} {ad : Byte} (h : ∀ sid, m.Walked n sid ad) : m.Checked n where
  rest := by
    conv => lhs; rw [(h 0).rest]
    rw [(h 0).ctxs]
  str i := (h (i + 1)).others i (by omega)

/-- Contexts and dies are what a check may write. -/
theorem Mach.checked_of (m : Mach) (d : SMap Die) (c : SMap Context) : m.Checked { m with dies := d, ctxs := c } := ⟨rfl, fun _ => rfl⟩

theorem Mach.cacheRcbs_checked (m : Mach) (cx : Nat) (l : List (Nat × List Nat)) : m.Checked (m.cacheRcbs cx l) := m.checked_of m.dies _

theorem Mach.cacheRcbs_ctx (m : Mach) (cx : Nat) (l : List (Nat × List Nat)) (i : Nat) : ∃ r, (m.cacheRcbs cx l).ctx i = { m.ctx i with rcbs := r } := by
  rw [Mach.cacheRcbs, Mach.ctx_modCtx]
  split
  next h => subst h; exact ⟨_, rfl⟩
  · exact ⟨(m.ctx i).rcbs, rfl⟩

/-- Changes of dies. -/
theorem Mach.foldl_modDie (l : List Nat) (f : Nat → Die → Die) (m : Mach) :
    l.foldl (fun m k => m.modDie k (f k)) m = { m with dies := (l.foldl (fun m k => m.modDie k (f k)) m).dies } := by
  refine List.foldlRecOn (motive := fun n : Mach => n = { m with dies := n.dies }) l _ rfl (fun n hn k _ => ?_)
  rw [hn]
  rfl

/-- Binding a context reads its root region, writes bind records on its dies, and caches its regions (R32, R348). -/
theorem Mach.bindContext_checked (m : Mach) (cx : Nat) :
    m.Checked (m.bindContext cx) ∧ ∀ i, ∃ r, (m.bindContext cx).ctx i = { m.ctx i with rcbs := r } := by
  unfold Mach.bindContext
  dsimp only
  split
  · exact ⟨m.checked_of m.dies m.ctxs, fun i => ⟨_, rfl⟩⟩
  · split
    · exact ⟨m.checked_of m.dies m.ctxs, fun i => ⟨_, rfl⟩⟩
    next n l hv =>
      have hw : m.Checked n := Mach.Walked.checked (fun sid => Mach.validRcb_walked sid hv)
      rw [Mach.foldl_modDie]
      refine ⟨(hw.trans (n.checked_of _ n.ctxs)).trans (Mach.cacheRcbs_checked ..), fun i => ?_⟩
      obtain ⟨r, hr⟩ := Mach.cacheRcbs_ctx { n with dies := _ } cx l i
      exact ⟨r, hr.trans (congrArg (fun c : Context => { c with rcbs := r }) (Mach.ctx_congr (Mach.validRcb_walked 0 hv).ctxs i))⟩

/-- What a check that refuses lets pass. -/
theorem ok_of_ite {α : Type} {c : Prop} [Decidable c] {e : Nat} {x : Except Nat α} {r : α} (h : (if c then .error e else x) = .ok r) :
    ¬c ∧ x = .ok r := by
  split at h
  · cases h
  next hc => exact ⟨hc, h⟩

/-- A launch that passes its checks: the job is one of the launch's context, waiting, which has a JOBID free (R330). -/
theorem Mach.checkLaunch_ok {m n : Mach} {cx : Nat} {w : List Nat} {host : Bool} {jb : Job} (h : m.checkLaunch cx w host = .ok (n, jb)) :
    m.Checked n ∧ jb.cx = cx ∧ (m.jobs.filter (fun j => j.2.cx == cx && j.2.live)).length < 65536 := by
  unfold Mach.checkLaunch at h
  replace h := (ok_of_ite (ok_of_ite (ok_of_ite h).2).2).2
  split at h
  · cases h
  next m1 hd h1 =>
  extract_lets dir at h
  split at h
  · cases h
  next m2 d0 h2 =>
  replace h := (ok_of_ite (ok_of_ite h).2).2
  split at h
  · cases h
  next m3 shares h3 =>
  replace h := (ok_of_ite (ok_of_ite (ok_of_ite h).2).2).2
  split at h
  · cases h
  split at h
  · cases h
  next m4 l h4 =>
  obtain ⟨hfree, h⟩ := ok_of_ite (ok_of_ite (ok_of_ite h).2).2
  have hw : m.Checked m4 := Mach.Walked.checked (ad := 0x10) fun sid => by
    obtain ⟨⟨m', d⟩, hr, hb⟩ := Option.bind_eq_some_iff.1 h2
    obtain ⟨⟨m'', e⟩, hr', he⟩ := Option.map_eq_some_iff.1 hb
    cases he
    exact ((((Mach.readWords_walked sid h1).trans (Mach.readWords_walked sid hr)).trans (Mach.readWords_walked sid hr')).trans
      (Mach.segShares_walked sid h3)).trans (Mach.validRcb_walked sid h4)
  have hb := hw.trans (m4.bindContext_checked cx).1
  cases h
  refine ⟨hb.trans (Mach.cacheRcbs_checked ..), rfl, ?_⟩
  rw [hb.jobs] at hfree
  exact Nat.not_le.1 hfree

end Sys2Proof.Machine

/-! PROOFS. The dispatcher: launches that pass their checks become jobs, launches that fail leave a status (R330, R332, R335, R345). -/

namespace Sys2Proof.Machine

/-! ### A launch accepted -/

/-- Events put into the agenda after free delays. -/
theorem Mach.foldl_after {β : Type} (l : List β) (now b : Nat) (e : Instr) (a : β → List Nat) (m : Mach) :
    l.foldl (fun m x => m.after now b e (a x)) m =
      { m with agenda := (l.foldl (fun m x => m.after now b e (a x)) m).agenda, fresh := (l.foldl (fun m x => m.after now b e (a x)) m).fresh } := by
  refine List.foldlRecOn (motive := fun n : Mach => n = { m with agenda := n.agenda, fresh := n.fresh }) l _ rfl (fun n hn x _ => ?_)
  rw [hn]
  rfl

/-- Fewer than 65536 numbers leave one below 65536 free. -/
theorem exists_free {l : List Nat} (h : l.length < 65536) : ∃ i, (List.range 65536).find? (fun i => !l.contains i) = some i ∧ i < 65536 ∧ i ∉ l := by
  cases hf : (List.range 65536).find? (fun i => !l.contains i) with
  | some i => exact ⟨i, rfl, List.mem_range.1 (List.mem_of_find?_eq_some hf), by simpa using List.find?_some hf⟩
  | none =>
    have hsub : List.range 65536 ⊆ l := fun i hi => by simpa using List.find?_eq_none.1 hf i hi
    have := (List.nodup_range.subperm hsub).length_le
    simp only [List.length_range] at this
    omega

/-- A job `jb` accepted as number `id`, from a source on a queue: it has a JOBID that no live job of its context has (R38, R330). -/
def Mach.MadeJob (m t : Mach) (id : Nat) (jb : Job) (src : Source) (q n : Nat) : Prop :=
  let j := t.job id
  n < 65536 ∧ j.jobid = n ∧ j.source = src ∧ j.queue = q ∧ j.cx = jb.cx ∧ j.image = jb.image ∧ j.rcb = jb.rcb ∧ j.shares = jb.shares ∧
    j.args = jb.args ∧ j.fixed = jb.fixed ∧ j.phase = jb.phase ∧ ∀ k ∈ m.jobs, k.2.cx = jb.cx → k.2.live = true → k.2.jobid ≠ n

theorem Mach.MadeJob.congr {m t u : Mach} {id : Nat} {jb : Job} {src : Source} {q n : Nat} (h : m.MadeJob t id jb src q n) (hj : u.jobs = t.jobs) :
    m.MadeJob u id jb src q n := by
  unfold Mach.MadeJob
  rw [Mach.job_congr hj]
  exact h

/-- Accepting a launch adds a job, and puts the priming of its first shares into the agenda (R38, R47). -/
theorem Mach.accept_eq (m : Mach) (now : Nat) (jb : Job) (src : Source) (q : Nat) : ∃ share prime,
    (m.accept now jb src q).1 = { m with
      seq := m.seq + 1, agenda := (m.accept now jb src q).1.agenda, fresh := (m.accept now jb src q).1.fresh
      jobs := sset m.jobs m.seq { jb with jobid := (m.accept now jb src q).2, source := src, queue := q, share := share, toPrime := prime } } :=
  ⟨_, _, Mach.foldl_after ..⟩

/-- The job is the launch's own, under a JOBID that was free (R38). -/
theorem Mach.accept_made (m : Mach) (now : Nat) (jb : Job) (src : Source) (q : Nat)
    (hfree : (m.jobs.filter (fun k => k.2.cx == jb.cx && k.2.live)).length < 65536) :
    m.MadeJob (m.accept now jb src q).1 m.seq jb src q (m.accept now jb src q).2 := by
  obtain ⟨i, hi, hlt, hnew⟩ := exists_free (l := (m.jobs.filter (fun k => k.2.cx == jb.cx && k.2.live)).map (fun k => k.2.jobid)) (by simpa using hfree)
  have hn : (m.accept now jb src q).2 = i := by simp only [Mach.accept, hi, Option.getD_some]
  obtain ⟨share, prime, heq⟩ := m.accept_eq now jb src q
  have hjob : (m.accept now jb src q).1.job m.seq = { jb with jobid := i, source := src, queue := q, share := share, toPrime := prime } := by
    rw [heq, ← hn]
    exact sget_sset_same ..
  rw [Mach.MadeJob, hn, hjob]
  refine ⟨hlt, rfl, rfl, rfl, rfl, rfl, rfl, rfl, rfl, rfl, rfl, fun k hk hcx hl he => hnew ?_⟩
  exact List.mem_map.2 ⟨k, List.mem_filter.2 ⟨hk, by simp [hcx, hl]⟩, he⟩

/-! ### The dispatcher's turn -/

/-- Whether a launch is a host packet, whose context is checked against its queue's (R330). -/
def Source.isHost : Source → Bool
  | .host _ => true
  | _ => false

/-- A launch that passes its checks becomes a job of its own context (R330). -/
theorem Mach.dispatch_ok {m n : Mach} {l : Launch} {jb : Job} (now : Nat) (h : m.checkLaunch l.cx l.words l.source.isHost = .ok (n, jb)) :
    ∃ p k, m.dispatch now l = (p, .ok k) ∧ m.MadeJob p n.seq jb l.source l.queue k ∧ ∀ i, p.str i = m.str i := by
  obtain ⟨hc, hcx, hfree⟩ := Mach.checkLaunch_ok h
  have hmade := n.accept_made now jb l.source l.queue (by rwa [hc.jobs, hcx])
  have hstreams : (n.accept now jb l.source l.queue).1.streams = n.streams := by
    obtain ⟨share, prime, heq⟩ := n.accept_eq now jb l.source l.queue
    rw [heq]
  have hd : m.dispatch now l = ((n.accept now jb l.source l.queue).1, .ok (n.accept now jb l.source l.queue).2) := by
    unfold Mach.dispatch
    split
    next he => cases h.symm.trans he
    next he =>
      cases h.symm.trans he
      generalize n.accept now jb l.source l.queue = r
      rfl
  refine ⟨_, _, hd, ?_, fun i => (Mach.str_congr hstreams i).trans (hc.str i)⟩
  rw [Mach.MadeJob, ← hc.jobs]
  exact hmade

/-- One that fails leaves the machine as it was, and answers its status. -/
theorem Mach.dispatch_error {m : Mach} {e : Nat} {l : Launch} (now : Nat) (h : m.checkLaunch l.cx l.words l.source.isHost = .error e) :
    m.dispatch now l = (m, .error e) := by
  unfold Mach.dispatch
  split
  next he => cases h.symm.trans he; rfl
  next he => cases h.symm.trans he

/-- The launch that a held FORK asks for (R335). -/
def Mach.forkLaunch (m : Mach) (sid : Nat) : Launch :=
  let j := m.job (m.str sid).job
  { words := j.forkWords (m.arg 4) (m.arg 5), source := .fork (m.str sid).job, queue := j.queue, cx := j.cx, arr := m.seq }

/-- What a FORK is answered: the JOBID, or bit 63 and the status (R335). -/
def forkAnswer : Except Nat Nat → Word
  | .ok k => wd k
  | .error e => wd (2 ^ 63 + e * 2 ^ 32)

/-- What is left of a launch that was taken: nothing more of one accepted, the status of one refused (R330, R332). -/
def Mach.dispatched (m : Mach) (now part : Nat) (l : Launch) : Except Nat Nat → Mach
  | .ok _ => m
  | .error e => m.refuse now part l e

/-- A reply to a word held on another machine whose stream stands as it did. -/
theorem State.replied_of {s : State} {m : Mach} {sid : Nat} (d : R) (v : Word) (hstr : m.str sid = s.mach.str sid)
    (hcls : (s.mach.str sid).sel.cls = .scalar) : s.Replied (s.on (m.replyReg s.now sid d v)) sid d v := by
  have h := m.replyReg_moves s.now sid d v (by rw [hstr]; exact hcls)
  exact ⟨rfl, h.hold, by rw [← hstr]; exact h.fq0, by rw [← hstr]; exact h.fq1, by rw [← hstr]; exact h.rd⟩

theorem Mach.replyReg_jobs {m : Mach} {now sid : Nat} {d : R} {v : Word} (hcls : (m.str sid).sel.cls = .scalar) :
    (m.replyReg now sid d v).jobs = m.jobs := by
  rw [(m.replyReg_moves now sid d v hcls).rest]

theorem Mach.replyReg_parts {m : Mach} {now sid : Nat} {d : R} {v : Word} (hcls : (m.str sid).sel.cls = .scalar) :
    (m.replyReg now sid d v).parts = m.parts := by
  rw [(m.replyReg_moves now sid d v hcls).rest]

section
variable {s : State} {d : R} (hop : s.mach.arg 1 = 1) (hhold : (s.mach.str (s.mach.arg 2)).hold = .complexReq (s.mach.arg 3) d)
  (hlive : (s.mach.str (s.mach.arg 2)).state ≠ .frozen)
include hop hhold hlive

/-- A FORK that reaches the dispatcher while a reconfiguration holds launches is held with them (R19). -/
theorem exec_fork_held (hr : (s.mach.part (s.mach.arg 0)).rcpend = true) :
    exec .launchDispatch s = .next (s.on (({ s.mach with seq := s.mach.seq + 1 }.modPart (s.mach.arg 0) (fun p =>
      { p with held := p.held ++ [{ s.mach.forkLaunch (s.mach.arg 2) with held := true }] })).replyReg s.now (s.mach.arg 2) d (wd (2 ^ 62)))) := by
  simp [exec_launchDispatch, execLaunchDispatch, onMach, hop, hhold, hlive, hr, State.on, Mach.forkLaunch]

/-- Else it is dispatched, and answered (R335). -/
theorem exec_fork_dispatched {m : Mach} {r : Except Nat Nat} (hr : (s.mach.part (s.mach.arg 0)).rcpend = false)
    (hd : s.mach.dispatch s.now (s.mach.forkLaunch (s.mach.arg 2)) = (m, r)) :
    exec .launchDispatch s = .next (s.on (m.replyReg s.now (s.mach.arg 2) d (forkAnswer r))) := by
  rw [Mach.forkLaunch] at hd
  cases r <;> simp [exec_launchDispatch, execLaunchDispatch, onMach, hop, hhold, hlive, hr, hd, State.on, forkAnswer]

end

/-- The dispatcher's own turn: it takes the next launch, and goes on after it (R345). -/
theorem exec_nextLaunch {s : State} {l : Launch} {m : Mach} {r : Except Nat Nat} (hop : s.mach.arg 1 ≠ 1)
    (hr : (s.mach.part (s.mach.arg 0)).rcpend = false) (hl : s.mach.nextLaunch (s.mach.arg 0) = some l)
    (hd : (s.mach.takeLaunch (s.mach.arg 0) l).dispatch s.now l = (m, r)) :
    exec .launchDispatch s = .next (s.on ((m.dispatched s.now (s.mach.arg 0) l r).after s.now 0 .launchDispatch [s.mach.arg 0])) := by
  cases r <;> simp [exec_launchDispatch, execLaunchDispatch, onMach, hop, hr, hl, hd, State.on, Mach.dispatched]

/-! ### What a launch leaves -/

section
variable {s : State} {d : R} (hop : s.mach.arg 1 = 1) (hhold : (s.mach.str (s.mach.arg 2)).hold = .complexReq (s.mach.arg 3) d)
  (hlive : (s.mach.str (s.mach.arg 2)).state ≠ .frozen) (hcls : (s.mach.str (s.mach.arg 2)).sel.cls = .scalar)
include hop hhold hlive hcls

theorem fork_held (hr : (s.mach.part (s.mach.arg 0)).rcpend = true) : ∃ t, exec .launchDispatch s = .next t ∧
    s.Replied t (s.mach.arg 2) d (wd (2 ^ 62)) ∧
    (t.mach.part (s.mach.arg 0)).held = (s.mach.part (s.mach.arg 0)).held ++ [{ s.mach.forkLaunch (s.mach.arg 2) with held := true }] ∧
    t.mach.jobs = s.mach.jobs := by
  refine ⟨_, exec_fork_held hop hhold hlive hr, State.replied_of d _ rfl hcls, ?_, Mach.replyReg_jobs hcls⟩
  refine (congrArg Part.held (Mach.part_congr (Mach.replyReg_parts ?_) _)).trans ?_
  · exact hcls
  · rw [Mach.part_modPart, if_pos rfl]
    rfl

/-- A FORK whose launch passes its checks is answered the JOBID of a new job (R335). -/
theorem fork_accepted {n : Mach} {jb : Job} (hr : (s.mach.part (s.mach.arg 0)).rcpend = false)
    (hok : s.mach.checkLaunch (s.mach.forkLaunch (s.mach.arg 2)).cx (s.mach.forkLaunch (s.mach.arg 2)).words false = .ok (n, jb)) :
    ∃ t k, exec .launchDispatch s = .next t ∧ s.Replied t (s.mach.arg 2) d (wd k) ∧
      s.mach.MadeJob t.mach n.seq jb (s.mach.forkLaunch (s.mach.arg 2)).source (s.mach.forkLaunch (s.mach.arg 2)).queue k := by
  obtain ⟨p, k, hd, hmade, hstr⟩ := Mach.dispatch_ok s.now hok
  refine ⟨_, k, exec_fork_dispatched hop hhold hlive hr hd, State.replied_of d _ (hstr _) hcls, hmade.congr (Mach.replyReg_jobs ?_)⟩
  rw [hstr]
  exact hcls

theorem fork_refused {e : Nat} (hr : (s.mach.part (s.mach.arg 0)).rcpend = false)
    (he : s.mach.checkLaunch (s.mach.forkLaunch (s.mach.arg 2)).cx (s.mach.forkLaunch (s.mach.arg 2)).words false = .error e) :
    ∃ t, exec .launchDispatch s = .next t ∧ s.Replied t (s.mach.arg 2) d (wd (2 ^ 63 + e * 2 ^ 32)) ∧ t.mach.jobs = s.mach.jobs :=
  ⟨_, exec_fork_dispatched hop hhold hlive hr (Mach.dispatch_error s.now he), State.replied_of d _ rfl hcls, Mach.replyReg_jobs hcls⟩

end

section
variable {s : State} {l : Launch} (hop : s.mach.arg 1 ≠ 1) (hr : (s.mach.part (s.mach.arg 0)).rcpend = false)
  (hl : s.mach.nextLaunch (s.mach.arg 0) = some l)
include hop hr hl

/-- The next launch, where it passes its checks, becomes a job (R330). -/
theorem launch_accepted {n : Mach} {jb : Job} (hok : (s.mach.takeLaunch (s.mach.arg 0) l).checkLaunch l.cx l.words l.source.isHost = .ok (n, jb)) :
    ∃ t k, exec .launchDispatch s = .next t ∧ s.mach.MadeJob t.mach n.seq jb l.source l.queue k := by
  obtain ⟨p, k, hd, hmade, -⟩ := Mach.dispatch_ok s.now hok
  exact ⟨_, k, exec_nextLaunch hop hr hl hd, hmade⟩

/-- Where it fails, it leaves its status: a completion record of a host packet or of a FORK that was held, or its basket record READY (R332,
R335, R346). -/
theorem launch_refused {e : Nat} (he : (s.mach.takeLaunch (s.mach.arg 0) l).checkLaunch l.cx l.words l.source.isHost = .error e) :
    ∃ t, exec .launchDispatch s = .next t ∧ t.mach.jobs = s.mach.jobs ∧
      (∀ pidx, l.source = .host pidx →
        (s.now, .completionRecordWrite, [s.mach.arg 0, l.queue, 0, e, 0, pidx, s.now / 84]) ∈ t.mach.agenda) ∧
      (∀ j, l.source = .fork j →
        (s.now, .completionRecordWrite, [s.mach.arg 0, l.queue, 0, e, 0, 0x0FFFFFFF, s.now / 84]) ∈ t.mach.agenda) ∧
      ∀ i, l.source = .basket i → ((sget? (t.mach.part (s.mach.arg 0)).basket i).map (fun b => (b.state, b.status))) = some (0, e) := by
  refine ⟨_, exec_nextLaunch hop hr hl (Mach.dispatch_error s.now he), ?_, fun pidx hsrc => ?_, fun j hsrc => ?_, fun i hsrc => ?_⟩
  · simp only [State.on, Mach.dispatched, Mach.refuse, Mach.after_jobs]
    split <;> rfl
  · simp only [State.on, Mach.dispatched, Mach.refuse, hsrc]
    exact mem_agendaAdd_of _ _ _ _ _ (mem_agendaAdd ..)
  · simp only [State.on, Mach.dispatched, Mach.refuse, hsrc]
    exact mem_agendaAdd_of _ _ _ _ _ (mem_agendaAdd ..)
  · simp only [State.on, Mach.dispatched, Mach.refuse, hsrc]
    rw [Mach.part_congr (Mach.after_parts ..), Mach.part_modPart, if_pos rfl]
    simp [smod, sget?_sset]

end

end Sys2Proof.Machine

/-! PROOFS. Priming: a job's registers take their start values, and its streams are PRIMED at their tables (R48, R62, R63, R66, R321). -/

namespace Sys2Proof.Machine

/-! ### Entries of a sparse map -/

section
variable {α : Type} {m : SMap α} {k : Nat} {v : α} {p : Nat × α}

/-- The written entry stands. -/
theorem mem_sset_self (m : SMap α) (k : Nat) (v : α) : (k, v) ∈ sset m k v := by
  induction m with
  | nil => simp [sset]
  | cons q t ih =>
    rw [sset]
    split
    · simp
    · split <;> simp [ih]

/-- An old entry stands after a write, unless it is the one that a read of the key finds. -/
theorem mem_sset_of_mem (v d : α) (h : p ∈ m) : p ∈ sset m k v ∨ p.1 = k ∧ p.2 = sget m k d := by
  induction m with
  | nil => cases h
  | cons q t ih =>
    rw [sset]
    split
    · exact .inl (List.mem_cons_of_mem _ h)
    next hlt =>
      split
      next hk =>
        rcases List.mem_cons.1 h with rfl | h
        · exact .inr ⟨by simpa using hk, by simp [sget, sget?, by simpa using hk]⟩
        · exact .inl (List.mem_cons_of_mem _ h)
      next hk =>
        rcases List.mem_cons.1 h with rfl | h
        · exact .inl (List.mem_cons_self ..)
        · refine (ih h).imp (List.mem_cons_of_mem _) (fun he => ⟨he.1, he.2.trans ?_⟩)
          simp [sget, sget?, by simpa using hk]

/-- A listed key has an entry that a read finds. -/
theorem exists_mem_sget (d : α) (h : k ∈ skeys m) : (k, sget m k d) ∈ m := by
  induction m with
  | nil => cases h
  | cons q t ih =>
    by_cases hk : q.1 = k
    · subst hk; simp [sget, sget?]
    · have ht : k ∈ skeys t := by simpa [skeys, Ne.symm hk] using h
      have hr : sget (q :: t) k d = sget t k d := by simp [sget, sget?, hk]
      rw [hr]
      exact List.mem_cons_of_mem _ (ih ht)

theorem mem_skeys_sset {i : Nat} (h : i ∈ skeys m) : i ∈ skeys (sset m k v) := by
  obtain ⟨q, hq, rfl⟩ := List.mem_map.1 h
  rcases mem_sset_of_mem v q.2 hq with h | ⟨h, -⟩
  · exact List.mem_map_of_mem h
  · rw [h]
    exact List.mem_map_of_mem (mem_sset_self m k v)

/-- A key that no entry has reads as unlisted. -/
theorem sget?_eq_none (h : ∀ p ∈ m, p.1 ≠ k) : sget? m k = none := by
  induction m with
  | nil => rfl
  | cons q t ih =>
    rw [sget?, if_neg (by simpa using h q (List.mem_cons_self ..))]
    exact ih (fun p hp => h p (List.mem_cons_of_mem _ hp))

end

/-! ### A stream as it stands at its table -/

/-- What a stream keeps as its queue or buffer fills: its job, its place, its table, its registers. -/
def Stream.origin (x : Stream) : Nat × Sel × SState × Nat × Nat × SMap Word := (x.job, x.sel, x.state, x.base, x.len, x.regs)

/-- What filling a stream's queue or buffer leaves: jobs, clusters, and of every stream its origin. -/
structure Mach.Primes (m n : Mach) : Prop where
  jobs : n.jobs = m.jobs
  ccs : n.ccs = m.ccs
  seq : n.seq = m.seq
  str : ∀ i, (n.str i).origin = (m.str i).origin
  old : ∀ p ∈ n.streams, ∃ q ∈ m.streams, q.2.origin = p.2.origin
  keys : ∀ i ∈ skeys m.streams, i ∈ skeys n.streams

theorem Mach.Primes.trans {m n p : Mach} (h : m.Primes n) (k : n.Primes p) : m.Primes p where
  jobs := k.jobs.trans h.jobs
  ccs := k.ccs.trans h.ccs
  seq := k.seq.trans h.seq
  str i := (k.str i).trans (h.str i)
  old p hp := by
    obtain ⟨q, hq, hqp⟩ := k.old p hp
    obtain ⟨r, hr, hrq⟩ := h.old q hq
    exact ⟨r, hr, hrq.trans hqp⟩
  keys i hi := k.keys i (h.keys i hi)

/-- The same streams, on a machine with the same jobs and clusters. -/
theorem Mach.Primes.of_streams {m n : Mach} (hj : n.jobs = m.jobs) (hc : n.ccs = m.ccs) (hq : n.seq = m.seq) (hs : n.streams = m.streams) : m.Primes n where
  jobs := hj
  ccs := hc
  seq := hq
  str i := congrArg _ (Mach.str_congr hs i)
  old p hp := ⟨p, hs ▸ hp, rfl⟩
  keys _ hi := hs ▸ hi

/-- A listed stream changed in its queue, buffer, snapshot or cached translations. -/
theorem Mach.modStr_primes {m : Mach} {sid : Nat} {f : Stream → Stream} (hk : sid ∈ skeys m.streams) (hf : ∀ x, (f x).origin = x.origin) :
    m.Primes (m.modStr sid f) where
  jobs := rfl
  ccs := rfl
  seq := rfl
  str i := by
    rw [Mach.str_modStr]
    split
    next h => rw [h]; exact hf _
    · rfl
  old p hp := by
    rcases mem_sset _ _ _ _ hp with rfl | h
    · exact ⟨(sid, m.str sid), exists_mem_sget (m := m.streams) ({} : Stream) hk, (hf _).symm⟩
    · exact ⟨p, h, rfl⟩
  keys i hi := mem_skeys_sset hi

/-! ### Fetching -/

theorem Mach.soft_streams (m : Mach) (cx : Nat) (hs : List Nat) : (m.soft cx hs).streams = m.streams := by
  unfold Mach.soft Mach.softWords
  exact List.foldlRecOn (motive := fun n : Mach => n.streams = m.streams) _ _ rfl (fun n hn w _ => hn)

/-- A walk of the tables changes no stream. -/
theorem Mach.walk_streams {m n : Mach} {cx va : Nat} {wr : Bool} {lo hi ea psz : Nat} (h : m.walk cx va wr = .ok (n, lo, hi, ea, psz)) :
    n.streams = m.streams := by
  have go (fuel lvl tbl : Nat) (host : Bool) (m0 : Mach)
      (h : Mach.walk.go cx va wr (cxPart cx) (m.part (cxPart cx)) fuel m0 lvl tbl host = .ok (n, lo, hi, ea, psz)) : n.streams = m0.streams := by
    induction fuel generalizing lvl tbl host m0 with
    | zero => simp [Mach.walk.go] at h
    | succ f ih =>
      rw [Mach.walk.go] at h
      simp only at h
      generalize (if host = true then hostKey (tbl + 16 * walkIndex va lvl)
        else homeKey (cxPart cx) (tbl + 16 * walkIndex va lvl)) = hk at h
      split at h
      · cases h
      split at h
      · cases h
      split at h
      · cases h
      have hs := m0.soft_streams cx [hk]
      generalize m0.soft cx [hk] = n0 at h hs
      split at h
      · split at h
        · cases h
        · exact (ih _ _ _ _ h).trans hs
      split at h
      · cases h
      split at h
      · cases h
      simp only [Except.ok.injEq, Prod.mk.injEq] at h
      obtain ⟨rfl, -⟩ := h
      exact hs
  exact go _ _ _ _ _ h

/-- A translation changes no stream but the one it is for, in its cached translations. -/
theorem Mach.xlat_streams {m n : Mach} {sid va : Nat} {nd : Need} {p : Pg} (h : m.xlat sid va nd = .ok (n, p)) :
    ∃ f : Stream → Stream, (∀ x, (f x).origin = x.origin) ∧ n.streams = (m.modStr sid f).streams := by
  have fill (t : Tlb) {k : Mach} (hs : k.streams = m.streams) : ∃ f : Stream → Stream, (∀ x, (f x).origin = x.origin) ∧
      (k.modStr sid (fun s => { s with l1 := tlbFill s.l1 t 64 })).streams = (m.modStr sid f).streams :=
    ⟨fun s => { s with l1 := tlbFill s.l1 t 64 }, fun _ => rfl,
      congrArg (fun l : SMap Stream => smod l sid {} (fun s => { s with l1 := tlbFill s.l1 t 64 })) hs⟩
  unfold Mach.xlat at h
  simp only at h
  split at h
  · cases h
  split at h
  · split at h <;> cases h
    exact fill _ rfl
  split at h
  · split at h <;> cases h
    exact fill _ rfl
  split at h
  · cases h
  next k lo hi ea psz hwalk =>
    have hs : k.streams = m.streams := Mach.walk_streams (m := { m with miss := true }) hwalk
    split at h <;> cases h
    exact fill _ hs

section
variable {m : Mach} {sid : Nat} (hk : sid ∈ skeys m.streams)
include hk

theorem Mach.xlat_primes {n : Mach} {va : Nat} {nd : Need} {p : Pg} (h : m.xlat sid va nd = .ok (n, p)) : m.Primes n := by
  obtain ⟨f, hf, hs⟩ := Mach.xlat_streams h
  have hw := Mach.xlat_walked h
  exact (Mach.modStr_primes hk hf).trans (.of_streams hw.jobs hw.ccs hw.seq hs)

/-- Fetching a word of a listed stream. -/
theorem Mach.fetchWord_primes (a : Nat) : m.Primes (m.fetchWord sid a).1 := by
  unfold Mach.fetchWord
  dsimp only
  split
  · exact .of_streams rfl rfl rfl rfl
  split
  · exact .of_streams rfl rfl rfl rfl
  next n p hx =>
    split
    · exact Mach.xlat_primes hk hx
    · have hw := n.soft_walked (n.job (m.str sid).job).cx [p.home 0] sid 0x10
      refine (Mach.xlat_primes hk hx).trans ?_
      exact .of_streams hw.jobs hw.ccs hw.seq (Mach.soft_streams ..)

end

/-! ### Filling the queue and the buffer -/

section
variable {m : Mach} {sid : Nat} (hk : sid ∈ skeys m.streams)
include hk

theorem Mach.fetch_primes (a b : Nat) : m.Primes (m.fetch sid a b).1 := by
  unfold Mach.fetch
  dsimp only
  have h1 := Mach.fetchWord_primes hk (a % 2 ^ 24)
  generalize m.fetchWord sid (a % 2 ^ 24) = r at h1
  obtain ⟨m1, e | w⟩ := r
  · exact h1
  dsimp only
  split
  · split
    · exact h1
    have h2 := h1.trans (Mach.fetchWord_primes (h1.keys _ hk) (a % 2 ^ 24 + 1))
    generalize m1.fetchWord sid (a % 2 ^ 24 + 1) = r at h2
    obtain ⟨m2, e | w1⟩ := r
    · exact h2
    dsimp only
    have h3 := h2.trans (Mach.fetchWord_primes (h2.keys _ hk) (a % 2 ^ 24 + 2))
    generalize m2.fetchWord sid (a % 2 ^ 24 + 2) = r at h3
    obtain ⟨m3, e | w2⟩ := r <;> exact h3
  · exact h1

/-- A scalar stream's queue at its start (R321). -/
theorem Mach.startQueue_primes : m.Primes (m.startQueue sid) := by
  unfold Mach.startQueue
  dsimp only
  generalize (m.str sid).dbank = b
  have h1 := Mach.fetch_primes hk 0 b
  generalize m.fetch sid 0 b = r1 at h1 ⊢
  obtain ⟨m1, e1⟩ := r1
  have h2 := h1.trans (Mach.fetch_primes (h1.keys _ hk) e1.succ b)
  generalize m1.fetch sid e1.succ b = r2 at h2 ⊢
  obtain ⟨m2, e2⟩ := r2
  have h3 := h2.trans (Mach.fetch_primes (h2.keys _ hk) e2.succ b)
  generalize m2.fetch sid e2.succ b = r3 at h3 ⊢
  exact h3.trans (Mach.modStr_primes (h3.keys _ hk) (fun _ => rfl))

theorem Mach.fillBuffer_go_primes (fuel i : Nat) (acc : List Nat) : m.Primes (Mach.fillBuffer.go sid fuel i m acc).1 := by
  induction fuel generalizing m i acc with
  | zero => exact .of_streams rfl rfl rfl rfl
  | succ fuel ih =>
    rw [Mach.fillBuffer.go]
    have h1 := Mach.fetchWord_primes hk i
    generalize m.fetchWord sid i = r at h1
    obtain ⟨m1, e | w⟩ := r
    · exact h1
    · exact h1.trans (ih (h1.keys _ hk) ..)

/-- An engine stream's buffer at a step (R48). -/
theorem Mach.fillBuffer_primes (i : Nat) : m.Primes (m.fillBuffer sid i) := by
  have h0 : m.Primes (m.modStr sid (fun s => { s with fbuf := [], fbufAt := i })) := Mach.modStr_primes hk (fun _ => rfl)
  have h1 := h0.trans (Mach.fillBuffer_go_primes (h0.keys _ hk) 16 i [])
  unfold Mach.fillBuffer
  dsimp only
  generalize Mach.fillBuffer.go sid 16 i (m.modStr sid _) [] = r at h1 ⊢
  exact h1.trans (Mach.modStr_primes (h1.keys _ hk) (fun _ => rfl))

end

/-! ### The streams of a cluster -/

/-- No stream of a job stands under a selector. -/
def Mach.NoSel (m : Mach) (job : Nat) (sel : Sel) : Prop := ∀ p ∈ m.streams, ¬(p.2.job = job ∧ p.2.sel = sel)

theorem Mach.findSel_none {m : Mach} {job : Nat} {sel : Sel} : m.findSel job sel = none ↔ m.NoSel job sel := by
  simp [Mach.findSel, Mach.NoSel]

theorem Mach.findSel_listed {m : Mach} {job i : Nat} {sel : Sel} (h : m.findSel job sel = some i) : i ∈ skeys m.streams := by
  obtain ⟨p, hp, rfl⟩ := Option.map_eq_some_iff.1 h
  exact List.mem_map_of_mem (List.mem_of_find?_eq_some hp)

/-- What priming streams of a job leaves: jobs and clusters, the origin of every stream with a number already given, and no stream under a
selector that is not primed. -/
structure Mach.PrimedOn (m n : Mach) (job : Nat) (sels : List Sel) : Prop where
  jobs : n.jobs = m.jobs
  ccs : n.ccs = m.ccs
  seq : m.seq ≤ n.seq
  str : ∀ i < m.seq, (n.str i).origin = (m.str i).origin
  noSel : ∀ sel ∉ sels, m.NoSel job sel → n.NoSel job sel

theorem Mach.Primes.primedOn {m n : Mach} (h : m.Primes n) (job : Nat) (sels : List Sel) : m.PrimedOn n job sels where
  jobs := h.jobs
  ccs := h.ccs
  seq := h.seq.ge
  str i _ := h.str i
  noSel sel _ hm p hp hj := by
    obtain ⟨q, hq, hqp⟩ := h.old p hp
    simp only [Stream.origin, Prod.mk.injEq] at hqp
    exact hm q hq ⟨hqp.1.trans hj.1, hqp.2.1.trans hj.2⟩

theorem Mach.PrimedOn.trans {m n p : Mach} {job : Nat} {a b : List Sel} (h : m.PrimedOn n job a) (k : n.PrimedOn p job b) : m.PrimedOn p job (a ++ b) where
  jobs := k.jobs.trans h.jobs
  ccs := k.ccs.trans h.ccs
  seq := h.seq.trans k.seq
  str i hi := (k.str i (hi.trans_le h.seq)).trans (h.str i hi)
  noSel sel hs hm := k.noSel sel (fun hb => hs (List.mem_append_right _ hb)) (h.noSel sel (fun ha => hs (List.mem_append_left _ ha)) hm)

/-- The filling of a primed stream: its snapshot, and its queue or buffer (R48, R258). -/
def Mach.fillStream (m : Mach) (id : Nat) (sel : Sel) : Mach :=
  let m := m.modStr id (fun t => { t with snap := m.homes })
  if sel.cls == .scalar then m.startQueue id else m.fillBuffer id 0

theorem Mach.fillStream_primes {m : Mach} {id : Nat} (hk : id ∈ skeys m.streams) (sel : Sel) : m.Primes (m.fillStream id sel) := by
  have h0 : m.Primes (m.modStr id (fun t => { t with snap := m.homes })) := Mach.modStr_primes hk (fun _ => rfl)
  unfold Mach.fillStream
  dsimp only
  split
  · exact h0.trans (Mach.startQueue_primes (h0.keys _ hk))
  · exact h0.trans (Mach.fillBuffer_primes (h0.keys _ hk) 0)

/-- A new stream of a share, at its table (R48). -/
def Mach.newStream (m : Mach) (job : Nat) (x : Share) : Mach := ({ m with seq := m.seq + 1 } : Mach).setStr m.seq ((m.job job).shareStream job x)

theorem Mach.primeStream_found {m : Mach} {job i : Nat} {x : Share} (h : m.findSel job x.sel = some i) :
    m.primeStream job x = m.fillStream i x.sel := by
  unfold Mach.primeStream
  rw [h]
  rfl

theorem Mach.primeStream_new {m : Mach} {job : Nat} {x : Share} (h : m.findSel job x.sel = none) :
    m.primeStream job x = (m.newStream job x).fillStream m.seq x.sel := by
  unfold Mach.primeStream
  rw [h]
  rfl

theorem Mach.newStream_primedOn (m : Mach) (job : Nat) (x : Share) : m.PrimedOn (m.newStream job x) job [x.sel] where
  jobs := rfl
  ccs := rfl
  seq := Nat.le_succ _
  str i hi := by rw [Mach.newStream, Mach.str_setStr, if_neg hi.ne]; rfl
  noSel sel hs hm p hp hj := by
    rcases mem_sset _ _ _ _ hp with rfl | h
    · exact hs (List.mem_singleton.2 hj.2.symm)
    · exact hm p h hj

/-- Priming the stream of a share; where the job had none under its selector, the new one stands at its table (R48). -/
theorem Mach.primeStream_primedOn (m : Mach) (job : Nat) (x : Share) :
    m.PrimedOn (m.primeStream job x) job [x.sel] ∧
      (m.findSel job x.sel = none → ∃ i < (m.primeStream job x).seq, ((m.primeStream job x).str i).origin = ((m.job job).shareStream job x).origin) := by
  cases hf : m.findSel job x.sel with
  | some i =>
    rw [Mach.primeStream_found hf]
    exact ⟨(Mach.fillStream_primes (Mach.findSel_listed hf) x.sel).primedOn .., nofun⟩
  | none =>
    have hp := Mach.fillStream_primes (m := m.newStream job x) (id := m.seq) (List.mem_map_of_mem (mem_sset_self ..)) x.sel
    have hown : ((m.newStream job x).str m.seq).origin = ((m.job job).shareStream job x).origin := congrArg _ (sget_sset_same ..)
    rw [Mach.primeStream_new hf]
    refine ⟨(m.newStream_primedOn job x).trans (hp.primedOn job []), fun _ => ⟨m.seq, ?_, (hp.str _).trans hown⟩⟩
    rw [hp.seq]
    exact Nat.lt_succ_self _

/-- Priming the streams of a cluster: every share whose stream was missing has it at its table (R48). -/
theorem Mach.primeStreams_primedOn (m : Mach) (job : Nat) (ss : List Share) :
    m.PrimedOn (ss.foldl (fun m x => m.primeStream job x) m) job (ss.map (·.sel)) ∧
      ((ss.map (·.sel)).Nodup → ∀ x ∈ ss, m.findSel job x.sel = none →
        ∃ i, ((ss.foldl (fun m x => m.primeStream job x) m).str i).origin = ((m.job job).shareStream job x).origin) := by
  induction ss generalizing m with
  | nil => exact ⟨(Mach.Primes.of_streams rfl rfl rfl rfl).primedOn .., fun _ _ h => nomatch h⟩
  | cons y t ih =>
    obtain ⟨hy, hnew⟩ := m.primeStream_primedOn job y
    obtain ⟨ht, hin⟩ := ih (m.primeStream job y)
    refine ⟨hy.trans ht, fun hd x hx hf => ?_⟩
    obtain ⟨hyt, hd⟩ := List.nodup_cons.1 hd
    rcases List.mem_cons.1 hx with rfl | hx
    · obtain ⟨i, hi, ho⟩ := hnew hf
      exact ⟨i, (ht.str i hi).trans ho⟩
    · have hne : x.sel ∉ [y.sel] := fun h => hyt (List.mem_map.2 ⟨x, hx, List.mem_singleton.1 h⟩)
      obtain ⟨i, ho⟩ := hin hd x hx (Mach.findSel_none.2 (hy.noSel _ hne (Mach.findSel_none.1 hf)))
      rw [Mach.job_congr hy.jobs] at ho
      exact ⟨i, ho⟩

end Sys2Proof.Machine

/-! PROOFS. DIE_PRIME: the announcement of a start time, and the priming of a cluster (R48, R49, R62, R63, R66, R337). -/

namespace Sys2Proof.Machine

/-! ### A cluster's registers at job start -/

/-- A job-start register reads its reset value (R63, R66). -/
theorem Cctx.creg_jobStart {c : Cctx} {n : Nat} (hn : jobCreg n = true) : c.jobStart.creg n = cregReset n := by
  have hgone : sget? c.jobStart.cregs n = none := by
    refine sget?_eq_none (fun p hp he => ?_)
    obtain ⟨q, hq, rfl⟩ := List.mem_map.1 hp
    have hkey : q.1 = n := by
      rw [← he]
      split <;> rfl
    simp [hkey, hn] at hq
  rw [Cctx.creg, hgone, Option.getD_none]

/-- The job registers are not among those that take a reset value. -/
theorem jobCreg_ne {n k : Nat} (hn : jobCreg n = true) (hk : k < 5) : n ≠ 0x50 + k := by
  rintro rfl
  revert k
  decide

/-- The job registers after priming: JARG0 to JARG3, and JSELF (R337). -/
theorem Cctx.creg_jobRegs (c : Cctx) (j : Job) (n : Nat) : (c.jobRegs j).creg n =
    if n = 0x54 then wd j.jobid else if 0x50 ≤ n ∧ n < 0x54 then j.args.getD (n - 0x50) 0 else c.creg n := by
  have hr : sget? (c.jobRegs j).cregs n =
      if n = 0x54 then some (wd j.jobid) else if 0x50 ≤ n ∧ n < 0x54 then some (j.args.getD (n - 0x50) 0) else sget? c.cregs n := by
    simp only [Cctx.jobRegs, List.range_succ, List.range_zero, List.nil_append, List.foldl_append, List.foldl_cons, List.foldl_nil, sget?_sset]
    by_cases hself : n = 0x54
    · subst hself
      rfl
    by_cases harg : 0x50 ≤ n ∧ n < 0x54
    · obtain ⟨h1, h2⟩ := harg
      interval_cases n <;> rfl
    · simp only [hself, harg, if_false]
      rw [if_neg, if_neg, if_neg, if_neg] <;> omega
  simp only [Cctx.creg, hr]
  split
  · rfl
  · split <;> rfl

/-- Setting the launch counts changes the token FIFOs alone. -/
theorem Cctx.launchTokens_eq (c : Cctx) (job : Nat) (ss : List Share) :
    c.launchTokens job ss = { c with fifos := (c.launchTokens job ss).fifos } := by
  refine List.foldlRecOn (motive := fun d : Cctx => d = { c with fifos := d.fifos }) _ _ rfl (fun d hd f _ => ?_)
  rw [hd]

/-- Every FIFO is then the job's (R44). -/
theorem Cctx.launchTokens_owner (c : Cctx) (job : Nat) (ss : List Share) {f : Nat} (hf : f < 32) :
    (sget (c.launchTokens job ss).fifos f {}).owner = some job := by
  suffices h : ∀ (l : List Nat) (d : Cctx), (f ∈ l ∨ (sget d.fifos f {}).owner = some job) →
      (sget (l.foldl (fun c f =>
        let n := ss.foldl (fun a s => max a (s.tokens.getD f 0)) 0
        { c with fifos := sset c.fifos f { count := n, owner := some job, credit := n } }) d).fifos f {}).owner = some job from
    h _ c (.inl (List.mem_range.2 hf))
  intro l
  induction l with
  | nil => exact fun d h => h.resolve_left List.not_mem_nil
  | cons g t ih =>
    refine fun d h => ih _ ?_
    by_cases hg : f = g
    · subst hg
      exact .inr (by rw [sget_sset_same])
    · exact h.imp (fun h => (List.mem_cons.1 h).resolve_left hg) (fun h => by rw [sget_sset_ne _ _ _ hg]; exact h)

/-! ### The event -/

/-- Priming beginning changes the job's phase, and its record's state in the basket. -/
theorem Mach.beginPriming_eq (m : Mach) (job : Nat) :
    m.beginPriming job = { m with jobs := (m.beginPriming job).jobs, parts := (m.beginPriming job).parts } ∧
      (m.beginPriming job).job job = { m.job job with phase := if (m.job job).phase = .waiting then .priming else (m.job job).phase } := by
  unfold Mach.beginPriming
  dsimp only
  split
  next h => exact ⟨rfl, by simp [show (m.job job).phase ≠ .waiting by simpa using h]⟩
  next h =>
    have hw : (m.job job).phase = .waiting := by simpa using h
    have hj : (m.modJob job (fun j => { j with phase := .priming })).job job = { m.job job with phase := .priming } := by
      rw [Mach.job_modJob, if_pos rfl]
    rw [if_pos hw]
    split <;> exact ⟨rfl, hj⟩

theorem Mach.reside_of_resident {m : Mach} {now cx lc job : Nat}
    (h : (m.pcl (m.pcOf (cxPart cx) lc)).active = some cx ∨ (m.pcl (m.pcOf (cxPart cx) lc)).bank = some cx) : m.reside now cx lc job = (m, true) := by
  unfold Mach.reside
  exact if_pos (by simpa using h)

/-- The time a start is announced for: the first whole microsecond from now, or 2 µs on where the job has had none (R49, R351). -/
def announcedFor (now : Nat) (had : Option Nat) : Nat := if had.isSome then ceilDiv now 84000 * 84000 else ceilDiv (now + 168000) 84000 * 84000

theorem announcedFor_whole (now : Nat) (had : Option Nat) : announcedFor now had % 84000 = 0 := by
  unfold announcedFor
  split <;> exact Nat.mul_mod_left ..

theorem le_ceilDiv_mul (a : Nat) : a ≤ ceilDiv a 84000 * 84000 := by
  unfold ceilDiv
  omega

theorem le_announcedFor (now : Nat) (had : Option Nat) : now ≤ announcedFor now had := by
  unfold announcedFor
  split
  · exact le_ceilDiv_mul now
  · exact (Nat.le_add_right ..).trans (le_ceilDiv_mul _)

theorem exec_diePrime_announce {s : State} (hlc : s.mach.arg 1 = 2048) :
    let T := announcedFor s.now (s.mach.job (s.mach.arg 0)).startAt
    exec .diePrime s = .next (s.on ((s.mach.modJob (s.mach.arg 0) (fun j => { j with startAt := some T })).at T .jobStart [s.mach.arg 0, 2048])) := by
  intro T
  rw [exec_diePrime, execDiePrime, onMach]
  dsimp only
  rw [if_pos (by simpa using hlc)]
  rfl

/-- The complex announces a start time: a whole microsecond, at least 2 µs ahead where the job has had none (R49, R351). -/
theorem start_announced {s : State} (hlc : s.mach.arg 1 = 2048) : ∃ t T, exec .diePrime s = .next t ∧
    (t.mach.job (s.mach.arg 0)).startAt = some T ∧ T % 84000 = 0 ∧ s.now ≤ T ∧
    ((s.mach.job (s.mach.arg 0)).startAt = none → s.now + 168000 ≤ T) ∧ (T, .jobStart, [s.mach.arg 0, 2048]) ∈ t.mach.agenda := by
  refine ⟨_, _, exec_diePrime_announce hlc, ?_, announcedFor_whole .., le_announcedFor .., fun hn => ?_, mem_agendaAdd ..⟩
  · rw [State.on, Mach.job_congr (Mach.at_jobs ..), Mach.job_modJob, if_pos rfl]
  · rw [hn]
    exact le_ceilDiv_mul _

theorem Mach.mendAll_ccs (m : Mach) (cc : Nat) : (m.mendAll cc).ccs = m.ccs := rfl

/-- A cluster of a job primed where its context stands (R48). -/
def Mach.clusterPrime (m : Mach) (job lc : Nat) : Mach :=
  let j := m.job job
  let cc := ccKey j.cx lc
  let ss := j.shares.filter (fun s => s.sel.lc == lc)
  let n := (m.beginPriming job).modJob job (fun j => { j with toPrime := j.toPrime.filter (· != lc) })
  ss.foldl (fun m s => m.primeStream job s) ((n.modCct cc (fun c => (c.jobStart.jobRegs j).launchTokens job ss)).mendAll cc)

theorem exec_diePrime_cluster {s : State} (hlc : s.mach.arg 1 ≠ 2048)
    (hto : (s.mach.job (s.mach.arg 0)).toPrime.contains (s.mach.arg 1) = true)
    (hph : (s.mach.job (s.mach.arg 0)).phase = .waiting ∨ (s.mach.job (s.mach.arg 0)).phase = .priming ∨ (s.mach.job (s.mach.arg 0)).phase = .running)
    (hfree : (s.mach.job (s.mach.arg 0)).phase = .waiting → s.mach.jobFree (s.mach.arg 0) = true)
    (hres : (s.mach.pcl (s.mach.pcOf (cxPart (s.mach.job (s.mach.arg 0)).cx) (s.mach.arg 1))).active = some (s.mach.job (s.mach.arg 0)).cx ∨
      (s.mach.pcl (s.mach.pcOf (cxPart (s.mach.job (s.mach.arg 0)).cx) (s.mach.arg 1))).bank = some (s.mach.job (s.mach.arg 0)).cx)
    (hdict : (s.mach.job (s.mach.arg 0)).dictimg = 0) :
    exec .diePrime s = .next (s.on (s.mach.clusterPrime (s.mach.arg 0) (s.mach.arg 1))) := by
  have hgo : ¬(!(s.mach.job (s.mach.arg 0)).toPrime.contains (s.mach.arg 1) || !((s.mach.job (s.mach.arg 0)).phase == .waiting ||
      (s.mach.job (s.mach.arg 0)).phase == .priming || (s.mach.job (s.mach.arg 0)).phase == .running)) = true := by
    rw [hto]
    rcases hph with h | h | h <;> rw [h] <;> decide
  have hgo' : ¬((s.mach.job (s.mach.arg 0)).phase == .waiting && !s.mach.jobFree (s.mach.arg 0)) = true := by
    intro h
    obtain ⟨h1, h2⟩ := Bool.and_eq_true_iff.1 h
    simp [hfree (by simpa using h1)] at h2
  rw [exec_diePrime, execDiePrime, onMach]
  dsimp only
  rw [if_neg (by simpa using hlc), if_neg hgo, if_neg hgo', Mach.reside_of_resident hres, hdict]
  rfl

/-- The registers of the cluster, and its streams, as they stand once it is primed (R44, R48, R62, R63, R66, R337). -/
theorem Mach.clusterPrime_leaves (m : Mach) (job lc : Nat) :
    let n := m.clusterPrime job lc
    let j := m.job job
    let cc := ccKey j.cx lc
    (n.job job = { j with toPrime := j.toPrime.filter (· != lc), phase := if j.phase = .waiting then .priming else j.phase }) ∧
    (n.cct cc = ((m.cct cc).jobStart.jobRegs j).launchTokens job (j.shares.filter (fun s => s.sel.lc == lc))) ∧
    ((j.shares.map (·.sel)).Nodup → ∀ x ∈ j.shares, x.sel.lc = lc → m.findSel job x.sel = none →
      ∃ i, (n.str i).origin = (job, x.sel, .primed, j.image + x.tbase, x.tlen, [])) := by
  intro n j cc
  obtain ⟨hbeg, hjob⟩ := m.beginPriming_eq job
  set p := (m.beginPriming job).modJob job (fun k => { k with toPrime := k.toPrime.filter (· != lc) }) with hp
  set q := (p.modCct cc (fun c => (c.jobStart.jobRegs j).launchTokens job (j.shares.filter (fun s => s.sel.lc == lc)))).mendAll cc with hq
  have hqjob : q.job job = { j with toPrime := j.toPrime.filter (· != lc), phase := if j.phase = .waiting then .priming else j.phase } := by
    have h : q.job job = p.job job := rfl
    rw [h, hp, Mach.job_modJob, if_pos rfl, hjob]
  have hqcct : q.cct cc = ((m.cct cc).jobStart.jobRegs j).launchTokens job (j.shares.filter (fun s => s.sel.lc == lc)) := by
    have hpc : p.ccs = m.ccs := by rw [hp, hbeg]; rfl
    rw [hq, Mach.cct_congr (Mach.mendAll_ccs ..), Mach.cct_modCct, if_pos rfl, Mach.cct_congr hpc]
  have hqstr : q.streams = m.streams := by
    have h : q.streams = (m.beginPriming job).streams := rfl
    rw [h, hbeg]
  obtain ⟨hon, hin⟩ := q.primeStreams_primedOn job (j.shares.filter (fun s => s.sel.lc == lc))
  refine ⟨(Mach.job_congr hon.jobs _).trans hqjob, (Mach.cct_congr hon.ccs _).trans hqcct, fun hd x hx hlc hf => ?_⟩
  obtain ⟨i, hi⟩ := hin (hd.sublist (List.filter_sublist.map _)) x (List.mem_filter.2 ⟨hx, by simpa using hlc⟩)
    (by rw [Mach.findSel, hqstr]; exact hf)
  refine ⟨i, hi.trans ?_⟩
  rw [hqjob]
  rfl

/-- A cluster's control registers once it is primed. -/
theorem Cctx.creg_primed (c : Cctx) (j : Job) (job : Nat) (ss : List Share) (n : Nat) :
    ((c.jobStart.jobRegs j).launchTokens job ss).creg n = (c.jobStart.jobRegs j).creg n := by
  have h : ((c.jobStart.jobRegs j).launchTokens job ss).cregs = (c.jobStart.jobRegs j).cregs := by
    rw [Cctx.launchTokens_eq]
  rw [Cctx.creg, h, Cctx.creg]

/-- What priming leaves in a cluster: empty registers, reset and job registers, and the job's token FIFOs. -/
def Cctx.Primed (c : Cctx) (j : Job) (job : Nat) : Prop :=
  c.vregs = [] ∧ c.masks = [] ∧ c.tiles = [] ∧ c.acc = [] ∧ (∀ n, jobCreg n = true → c.creg n = cregReset n) ∧
    (∀ i, i < 4 → c.creg (0x50 + i) = j.args.getD i 0) ∧ c.creg 0x54 = wd j.jobid ∧ ∀ f, f < 32 → (sget c.fifos f {}).owner = some job

theorem Cctx.primed (c : Cctx) (j : Job) (job : Nat) (ss : List Share) : ((c.jobStart.jobRegs j).launchTokens job ss).Primed j job := by
  have h := (c.jobStart.jobRegs j).launchTokens_eq job ss
  refine ⟨congrArg Cctx.vregs h, congrArg Cctx.masks h, congrArg Cctx.tiles h, congrArg Cctx.acc h, fun n hn => ?_, fun i hi => ?_, ?_,
    fun f hf => launchTokens_owner _ _ _ hf⟩
  · rw [creg_primed, creg_jobRegs, if_neg (jobCreg_ne hn (k := 4) (by omega)), if_neg, creg_jobStart hn]
    rintro ⟨h1, h2⟩
    exact jobCreg_ne hn (k := n - 0x50) (by omega) (by omega)
  · rw [creg_primed, creg_jobRegs, if_neg (by omega), if_pos (by omega), Nat.add_sub_cancel_left]
  · rw [creg_primed, creg_jobRegs, if_pos rfl]

end Sys2Proof.Machine

/-! PROOFS. JOB_START: every primed stream of a cluster runs from one cycle, with a fresh snapshot (R43, R49, R258, R421). -/

namespace Sys2Proof.Machine

/-! ### Streams that start -/

/-- A stream that runs from its start, with the memory as it stands there (R49, R258). -/
def Stream.Started (x : Stream) (h : Homes) : Prop := x.state = .running ∧ x.fresh = true ∧ x.snap = h

/-- The list of a cluster's streams. -/
theorem Mach.mem_streamsOn {m : Mach} {job lc i : Nat} : i ∈ m.streamsOn job lc ↔ ∃ p ∈ m.streams, (p.2.job = job ∧ p.2.sel.lc = lc) ∧ p.1 = i := by
  simp [Mach.streamsOn, and_assoc]

/-- What starting streams leaves: memory and results in flight, every stream as it was or started, streams on their clusters, clocks that run. -/
structure Mach.Starts (m n : Mach) : Prop where
  homes : n.homes = m.homes
  pend : n.pend = m.pend
  str : ∀ i, n.str i = m.str i ∨ (n.str i).Started m.homes
  on : ∀ job lc i, i ∈ m.streamsOn job lc → i ∈ n.streamsOn job lc
  clk : ∀ job lc, (sget (m.job job).clk lc {}).stopped = none → (sget (n.job job).clk lc {}).stopped = none

theorem Mach.Starts.trans {m n p : Mach} (h : m.Starts n) (k : n.Starts p) : m.Starts p where
  homes := k.homes.trans h.homes
  pend := k.pend.trans h.pend
  str i := by
    rcases k.str i with hk | hk
    · rw [hk]
      exact h.str i
    · exact .inr (h.homes ▸ hk)
  on job lc i hi := k.on job lc i (h.on job lc i hi)
  clk job lc hc := k.clk job lc (h.clk job lc hc)

/-- The same streams, memory and results, and clocks that run. -/
theorem Mach.Starts.of_streams {m n : Mach} (hh : n.homes = m.homes) (hp : n.pend = m.pend) (hs : n.streams = m.streams)
    (hc : ∀ job lc, (sget (m.job job).clk lc {}).stopped = none → (sget (n.job job).clk lc {}).stopped = none) : m.Starts n where
  homes := hh
  pend := hp
  str i := .inl (Mach.str_congr hs i)
  on job lc i hi := by rwa [Mach.streamsOn, hs]
  clk := hc

/-- A started stream goes on. -/
theorem Mach.Starts.started {m n : Mach} {i : Nat} (h : m.Starts n) (hi : (m.str i).Started m.homes) : (n.str i).Started m.homes := by
  rcases h.str i with he | he
  · rwa [he]
  · exact he

/-- The streams of a cluster started in one cycle. -/
def Mach.startStreams (m : Mach) (c : Nat) (ids : List Nat) : Mach :=
  ids.foldl (fun m i =>
    if (m.str i).state == .primed then m.modStr i (fun s => { s with state := .running, lastIssue := c, fresh := true, snap := m.homes }) else m) m

theorem Mach.startStream_starts (m : Mach) (c i : Nat) :
    m.Starts (m.modStr i (fun s => { s with state := .running, lastIssue := c, fresh := true, snap := m.homes })) where
  homes := rfl
  pend := rfl
  str k := by
    by_cases hk : k = i
    · subst hk
      exact .inr (by rw [Mach.str_modStr_same]; exact ⟨rfl, rfl, rfl⟩)
    · exact .inl (Mach.str_modStr_ne m _ hk)
  on job lc k hk := by
    obtain ⟨p, hp, hpl, rfl⟩ := Mach.mem_streamsOn.1 hk
    refine Mach.mem_streamsOn.2 ?_
    rcases mem_sset_of_mem (k := i) { m.str i with state := .running, lastIssue := c, fresh := true, snap := m.homes } {} hp with h | ⟨hi, he⟩
    · exact ⟨p, h, hpl, rfl⟩
    · have hx : p.2 = m.str i := he
      exact ⟨_, mem_sset_self .., by rwa [hx] at hpl, hi.symm⟩
  clk _ _ h := h

/-- Every primed stream of the list is started (R49). -/
theorem Mach.startStreams_starts (m : Mach) (c : Nat) (ids : List Nat) :
    m.Starts (m.startStreams c ids) ∧ ∀ i ∈ ids, (m.str i).state = .primed → ((m.startStreams c ids).str i).Started m.homes := by
  induction ids generalizing m with
  | nil => exact ⟨.of_streams rfl rfl rfl (fun _ _ h => h), nofun⟩
  | cons k t ih =>
    by_cases hk : (m.str k).state = .primed
    · set n := m.modStr k (fun s => { s with state := .running, lastIssue := c, fresh := true, snap := m.homes }) with hn
      have hrun : m.startStreams c (k :: t) = n.startStreams c t := by
        rw [Mach.startStreams, List.foldl_cons, if_pos (by simpa using hk)]
        rfl
      have h1 : m.Starts n := m.startStream_starts c k
      obtain ⟨h2, hin⟩ := ih n
      rw [hrun]
      refine ⟨h1.trans h2, fun i hi hp => ?_⟩
      rcases h1.str i with he | he
      · have hne : i ≠ k := by
          rintro rfl
          rw [hn, Mach.str_modStr_same] at he
          rw [← he] at hp
          cases hp
        exact h1.homes ▸ hin i ((List.mem_cons.1 hi).resolve_left hne) (he ▸ hp)
      · exact h1.homes ▸ h2.started (h1.homes ▸ he)
    · have hrun : m.startStreams c (k :: t) = m.startStreams c t := by
        rw [Mach.startStreams, List.foldl_cons, if_neg (by simpa using hk)]
        rfl
      obtain ⟨h2, hin⟩ := ih m
      rw [hrun]
      refine ⟨h2, fun i hi hp => hin i ((List.mem_cons.1 hi).resolve_left ?_) hp⟩
      rintro rfl
      exact hk hp

/-! ### A cluster that starts -/

/-- No packet that priming brought for a job awaits its start. -/
def Mach.NoneLands (m : Mach) (job : Nat) : Prop := ∀ p ∈ m.pend, p.job = job → ∀ es q, p.eff ≠ .land es q

theorem Mach.landHeld_of_none {m : Mach} {job : Nat} (h : m.NoneLands job) (now lc : Nat) : m.landHeld now job lc = m := by
  unfold Mach.landHeld
  refine List.foldlRecOn (motive := fun n : Mach => n = m) m.pend _ rfl (fun n hn p hp => ?_)
  subst hn
  split
  next es q he =>
    have hj : p.job ≠ job := fun hj => h p hp hj es q he
    exact if_neg (by simp [hj])
  · rfl

/-- The job's clock on the cluster runs. -/
theorem Mach.runClk_starts (m : Mach) (now job lc : Nat) :
    m.Starts (m.runClk now job lc) ∧ (sget ((m.runClk now job lc).job job).clk lc {}).stopped = none := by
  unfold Mach.runClk
  dsimp only
  split
  next h => exact ⟨.of_streams rfl rfl rfl (fun _ _ h => h), h⟩
  · refine ⟨.of_streams rfl rfl rfl (fun k l h => ?_), ?_⟩
    · rw [Mach.job_modJob]
      split
      next hk =>
        subst hk
        dsimp only
        rw [sget_sset]
        split
        · rfl
        · exact h
      · exact h
    · rw [Mach.job_modJob, if_pos rfl]
      dsimp only
      rw [sget_sset_same]

/-- A cluster with nothing to land starts: its clock runs, and every primed stream of it (R49). -/
theorem Mach.startCluster_starts {m : Mach} {job : Nat} (h : m.NoneLands job) (now lc : Nat) :
    m.Starts (m.startCluster now job lc) ∧ (sget ((m.startCluster now job lc).job job).clk lc {}).stopped = none ∧
      ∀ i ∈ m.streamsOn job lc, (m.str i).state = .primed → ((m.startCluster now job lc).str i).Started m.homes := by
  obtain ⟨hclk, hstop⟩ := m.runClk_starts now job lc
  set n := m.runClk now job lc
  have hrun : m.startCluster now job lc = n.startStreams (n.jobCyc now job lc) (n.streamsOn job lc) := by
    rw [Mach.startCluster, Mach.landHeld_of_none h]
    rfl
  obtain ⟨hs, hin⟩ := n.startStreams_starts (n.jobCyc now job lc) (n.streamsOn job lc)
  rw [hrun]
  refine ⟨hclk.trans hs, hs.clk _ _ hstop, fun i hi hp => ?_⟩
  rw [← hclk.homes]
  rcases hclk.str i with he | he
  · exact hin i (hclk.on _ _ _ hi) (he ▸ hp)
  · exact hs.started (hclk.homes ▸ he)

/-- The clusters that start: those of a fixed-timing job take its clock first (R49, R355). -/
def Mach.startClusters (m : Mach) (now job : Nat) (j : Job) (ls : List Nat) : Mach :=
  ls.foldl (fun m l =>
    let m := if j.fixed then m.modPcl (m.pcOf (cxPart j.cx) l) (fun c => c.setMode now true) else m
    m.startCluster now job l) m

theorem Mach.startClusters_starts {m : Mach} {job : Nat} (h : m.NoneLands job) (now : Nat) (j : Job) (ls : List Nat) :
    m.Starts (m.startClusters now job j ls) ∧ ∀ l ∈ ls, (sget ((m.startClusters now job j ls).job job).clk l {}).stopped = none ∧
      ∀ i ∈ m.streamsOn job l, (m.str i).state = .primed → ((m.startClusters now job j ls).str i).Started m.homes := by
  induction ls generalizing m with
  | nil => exact ⟨.of_streams rfl rfl rfl (fun _ _ h => h), nofun⟩
  | cons k t ih =>
    have hmode : m.Starts (if j.fixed then m.modPcl (m.pcOf (cxPart j.cx) k) (fun c => c.setMode now true) else m) := by
      split <;> exact .of_streams rfl rfl rfl (fun _ _ h => h)
    set n0 := if j.fixed then m.modPcl (m.pcOf (cxPart j.cx) k) (fun c => c.setMode now true) else m
    have h0 : n0.NoneLands job := by rwa [Mach.NoneLands, hmode.pend]
    obtain ⟨h1, hstop, hin⟩ := Mach.startCluster_starts h0 now k
    have h1' := hmode.trans h1
    set n := n0.startCluster now job k
    obtain ⟨h2, hrest⟩ := ih (m := n) (by rwa [Mach.NoneLands, h1'.pend])
    have hrun : m.startClusters now job j (k :: t) = n.startClusters now job j t := rfl
    rw [hrun]
    refine ⟨h1'.trans h2, fun l hl => ?_⟩
    rcases List.mem_cons.1 hl with rfl | hl
    · refine ⟨h2.clk _ _ hstop, fun i hi hp => ?_⟩
      have hgo : (n.str i).Started m.homes := by
        rcases hmode.str i with he | he
        · exact hmode.homes ▸ hin i (hmode.on _ _ _ hi) (he ▸ hp)
        · exact hmode.homes ▸ h1.started (hmode.homes ▸ he)
      exact h1'.homes ▸ h2.started (h1'.homes ▸ hgo)
    · obtain ⟨hs, hi'⟩ := hrest l hl
      refine ⟨hs, fun i hi hp => ?_⟩
      rcases h1'.str i with he | he
      · exact h1'.homes ▸ hi' i (h1'.on _ _ _ hi) (he ▸ hp)
      · exact h1'.homes ▸ h2.started (h1'.homes ▸ he)

/-! ### The event -/

/-- The deadline of a job that starts (R36). -/
def Mach.startDeadline (m : Mach) (now job : Nat) (j : Job) : Mach :=
  match m.effDeadline j.cx j.rcb with
  | some ns => (m.modJob job (fun j => { j with deadline := some (now + ns * Config.tick) })).at (now + ns * Config.tick) .deadlineMiss [job]
  | none => m

/-- What follows the start of a job's clusters: its phase, and at the first start its basket record and its deadline (R36, R49, R332). -/
def Mach.begun (m : Mach) (now job : Nat) (j : Job) : Mach :=
  let m := m.modJob job (fun j => { j with phase := .running })
  if !(j.phase != .running) then m else
  let m := match j.source with
    | .basket i => m.modPart (cxPart j.cx) (fun p => { p with basket := smod p.basket i { words := [] } (fun b => { b with jobid := j.jobid }) })
    | _ => m
  m.startDeadline now job j

/-- A job running on a machine with the memory and the streams of another, under the clocks that it has there. -/
def Mach.RunsOn (m n : Mach) (job : Nat) : Prop :=
  n.homes = m.homes ∧ n.streams = m.streams ∧ (n.job job).phase = .running ∧ (n.job job).clk = (m.job job).clk

theorem Mach.RunsOn.startDeadline {m n : Mach} {job : Nat} (h : m.RunsOn n job) (now : Nat) (j : Job) : m.RunsOn (n.startDeadline now job j) job := by
  unfold Mach.startDeadline
  split
  · obtain ⟨hh, hs, hp, hc⟩ := h
    refine ⟨hh, hs, ?_, ?_⟩
    · rwa [Mach.job_congr (Mach.at_jobs ..), Mach.job_modJob, if_pos rfl]
    · rwa [Mach.job_congr (Mach.at_jobs ..), Mach.job_modJob, if_pos rfl]
  · exact h

theorem Mach.begun_runsOn (m : Mach) (now job : Nat) (j : Job) : m.RunsOn (m.begun now job j) job := by
  have h : m.RunsOn (m.modJob job (fun j => { j with phase := .running })) job := by
    refine ⟨rfl, rfl, ?_, ?_⟩ <;> rw [Mach.job_modJob, if_pos rfl]
  unfold Mach.begun
  dsimp only
  split
  · exact h
  · refine Mach.RunsOn.startDeadline ?_ now j
    split <;> exact h

section
variable {s : State} (hph : (s.mach.job (s.mach.arg 0)).phase = .priming ∨ (s.mach.job (s.mach.arg 0)).phase = .primed ∨
  (s.mach.job (s.mach.arg 0)).phase = .running)
include hph

/-- A job whose region is HELD at its start time does not start (R351). -/
theorem exec_jobStart_held (hlc : s.mach.arg 1 = 2048)
    (hheld : (s.mach.rcbOf (s.mach.job (s.mach.arg 0)).cx (s.mach.job (s.mach.arg 0)).rcb).held = true) : exec .jobStart s = .next s := by
  rw [exec_jobStart, execJobStart, onMach]
  dsimp only
  rw [if_neg (by rcases hph with h | h | h <;> simp [h]), if_pos (by simp [hlc, hheld])]

theorem exec_jobStart_runs (hheld : s.mach.arg 1 = 2048 →
      (s.mach.rcbOf (s.mach.job (s.mach.arg 0)).cx (s.mach.job (s.mach.arg 0)).rcb).held = false) :
    exec .jobStart s = .next (s.on ((s.mach.startClusters s.now (s.mach.arg 0) (s.mach.job (s.mach.arg 0))
      (if s.mach.arg 1 = 2048 then (s.mach.job (s.mach.arg 0)).lcs.filter
        ((s.mach.job (s.mach.arg 0)).shareRuns (s.mach.part (cxPart (s.mach.job (s.mach.arg 0)).cx))) else [s.mach.arg 1])).begun s.now
      (s.mach.arg 0) (s.mach.job (s.mach.arg 0)))) := by
  rw [exec_jobStart, execJobStart, onMach]
  dsimp only
  rw [if_neg (by rcases hph with h | h | h <;> simp [h]), if_neg]
  · simp only [beq_iff_eq]
    rfl
  · intro h
    obtain ⟨h1, h2⟩ := Bool.and_eq_true_iff.1 h
    simp [hheld (by simpa using h1)] at h2

end

/-- Where nothing awaits landing, the job runs: on each of its clusters the clock, and every stream that was primed (R49, R258). -/
theorem job_started {s : State} (hph : (s.mach.job (s.mach.arg 0)).phase = .priming ∨ (s.mach.job (s.mach.arg 0)).phase = .primed ∨
      (s.mach.job (s.mach.arg 0)).phase = .running)
    (hheld : s.mach.arg 1 = 2048 → (s.mach.rcbOf (s.mach.job (s.mach.arg 0)).cx (s.mach.job (s.mach.arg 0)).rcb).held = false)
    (hland : s.mach.NoneLands (s.mach.arg 0)) :
    ∃ t, exec .jobStart s = .next t ∧ (t.mach.job (s.mach.arg 0)).phase = .running ∧ t.mach.homes = s.mach.homes ∧
      ∀ l ∈ (if s.mach.arg 1 = 2048 then (s.mach.job (s.mach.arg 0)).lcs.filter
          ((s.mach.job (s.mach.arg 0)).shareRuns (s.mach.part (cxPart (s.mach.job (s.mach.arg 0)).cx))) else [s.mach.arg 1]),
        (sget (t.mach.job (s.mach.arg 0)).clk l {}).stopped = none ∧
          ∀ i ∈ s.mach.streamsOn (s.mach.arg 0) l, (s.mach.str i).state = .primed → (t.mach.str i).Started s.mach.homes := by
  refine ⟨_, exec_jobStart_runs hph hheld, ?_⟩
  obtain ⟨hs, hin⟩ := Mach.startClusters_starts hland s.now (s.mach.job (s.mach.arg 0)) (if s.mach.arg 1 = 2048 then
    (s.mach.job (s.mach.arg 0)).lcs.filter ((s.mach.job (s.mach.arg 0)).shareRuns (s.mach.part (cxPart (s.mach.job (s.mach.arg 0)).cx)))
    else [s.mach.arg 1])
  obtain ⟨hh, hstr, hp, hc⟩ := Mach.begun_runsOn (s.mach.startClusters s.now (s.mach.arg 0) (s.mach.job (s.mach.arg 0)) _) s.now (s.mach.arg 0)
    (s.mach.job (s.mach.arg 0))
  refine ⟨hp, hh.trans hs.homes, fun l hl => ?_⟩
  obtain ⟨hstop, hgo⟩ := hin l hl
  refine ⟨(congrArg (fun k => (sget k l {}).stopped) hc).trans hstop, fun i hi hpr => ?_⟩
  exact (Mach.str_congr hstr i).symm ▸ hgo i hi hpr

end Sys2Proof.Machine

/-! PROOFS. Launches, priming and starts together (O42). -/

namespace Sys2Proof.Machine

/-- While a reconfiguration is pending the dispatcher takes nothing (R19). -/
theorem exec_launch_pending {s : State} (hop : s.mach.arg 1 ≠ 1) (hr : (s.mach.part (s.mach.arg 0)).rcpend = true) :
    exec .launchDispatch s = .next s := by
  simp [exec_launchDispatch, execLaunchDispatch, onMach, hop, hr]

/-- What the priming of a cluster leaves, of the cluster, the job and the streams (R44, R48, R337). -/
theorem cluster_primed {s : State} (hlc : s.mach.arg 1 ≠ 2048)
    (hto : (s.mach.job (s.mach.arg 0)).toPrime.contains (s.mach.arg 1) = true)
    (hph : (s.mach.job (s.mach.arg 0)).phase = .waiting ∨ (s.mach.job (s.mach.arg 0)).phase = .priming ∨ (s.mach.job (s.mach.arg 0)).phase = .running)
    (hfree : (s.mach.job (s.mach.arg 0)).phase = .waiting → s.mach.jobFree (s.mach.arg 0) = true)
    (hres : (s.mach.pcl (s.mach.pcOf (cxPart (s.mach.job (s.mach.arg 0)).cx) (s.mach.arg 1))).active = some (s.mach.job (s.mach.arg 0)).cx ∨
      (s.mach.pcl (s.mach.pcOf (cxPart (s.mach.job (s.mach.arg 0)).cx) (s.mach.arg 1))).bank = some (s.mach.job (s.mach.arg 0)).cx)
    (hdict : (s.mach.job (s.mach.arg 0)).dictimg = 0) :
    let j := s.mach.job (s.mach.arg 0)
    ∃ t, exec .diePrime s = .next t ∧ (t.mach.job (s.mach.arg 0)).toPrime = j.toPrime.filter (· != s.mach.arg 1) ∧
      (t.mach.job (s.mach.arg 0)).phase = (if j.phase = .waiting then .priming else j.phase) ∧
      (t.mach.cct (ccKey j.cx (s.mach.arg 1))).Primed j (s.mach.arg 0) ∧
      ((j.shares.map (·.sel)).Nodup → ∀ x ∈ j.shares, x.sel.lc = s.mach.arg 1 → s.mach.findSel (s.mach.arg 0) x.sel = none →
        ∃ i, (t.mach.str i).origin = (s.mach.arg 0, x.sel, .primed, j.image + x.tbase, x.tlen, [])) := by
  obtain ⟨hjob, hcct, hstr⟩ := s.mach.clusterPrime_leaves (s.mach.arg 0) (s.mach.arg 1)
  refine ⟨_, exec_diePrime_cluster hlc hto hph hfree hres hdict, ?_, ?_, ?_, hstr⟩
  · rw [State.on, hjob]
  · rw [State.on, hjob]
  · rw [State.on, hcct]
    exact Cctx.primed ..

/-- Settles O42: the dispatcher, priming and the start of a job, each by what its event leaves. -/
theorem launchDispatch : Obligations.LaunchDispatch := by
  unfold Obligations.LaunchDispatch
  refine ⟨fun s => ⟨fun d id hop hhold hid hlive hcls => ?_, exec_launch_pending, fun l hop hr hl => ?_⟩,
    fun s => ⟨start_announced, fun hlc hto hph hfree hres hdict => ?_, fun hph => ⟨exec_jobStart_held hph, job_started hph⟩⟩⟩
  · subst hid
    refine ⟨fork_held hop hhold hlive hcls, fun hr => ⟨fun m' jb => ?_, fun e => ?_⟩⟩
    · exact fork_accepted hop hhold hlive hcls hr
    · exact fork_refused hop hhold hlive hcls hr
  · exact ⟨fun m' jb => launch_accepted hop hr hl, fun e => launch_refused hop hr hl⟩
  · obtain ⟨t, hx, hto', hph', ⟨hv, hm, ht, ha, hr, hj, hs, hf⟩, hstr⟩ := cluster_primed hlc hto hph hfree hres hdict
    refine ⟨t, hx, hto', hph', hv, hm, ht, ha, hr, hj, hs, hf, fun hd x hx hl hn => ?_⟩
    obtain ⟨i, hi⟩ := hstr hd x hx hl hn
    simp only [Stream.origin, Prod.mk.injEq] at hi
    exact ⟨i, hi⟩

end Sys2Proof.Machine

/-! PROOFS. The end of a job leaves every other job, the contexts' tear-down marks and the queues as they were (R39, R303, R423). -/

namespace Sys2Proof.Machine

/-! ### What the end of a job changes -/

/-- A step that ends a job may change that job and what belongs to it: every other job, the tear-down mark of every context and every queue
stand. -/
structure Mach.Tidies (m n : Mach) (job : Nat) : Prop where
  jobs : ∀ i, i ≠ job → sget? n.jobs i = sget? m.jobs i
  sorted : m.jobs.Pairwise (fun p q => p.1 < q.1) → n.jobs.Pairwise (fun p q => p.1 < q.1)
  going : ∀ i, (n.ctx i).going = (m.ctx i).going
  queue : ∀ p q, n.queue p q = m.queue p q

theorem Mach.Tidies.trans {m n p : Mach} {job : Nat} (h : m.Tidies n job) (k : n.Tidies p job) : m.Tidies p job where
  jobs i hi := (k.jobs i hi).trans (h.jobs i hi)
  sorted w := k.sorted (h.sorted w)
  going i := (k.going i).trans (h.going i)
  queue p q := (k.queue p q).trans (h.queue p q)

section
variable {m n : Mach} (job : Nat)

theorem Mach.tidies_of (hj : n.jobs = m.jobs) (hc : n.ctxs = m.ctxs) (hp : n.parts = m.parts) : m.Tidies n job where
  jobs _ _ := by rw [hj]
  sorted w := hj ▸ w
  going i := by rw [Mach.ctx_congr hc]
  queue p q := by rw [Mach.queue, Mach.part_congr hp, Mach.queue]

theorem Mach.tidies_refl (m : Mach) : m.Tidies m job := Mach.tidies_of job rfl rfl rfl

/-- Steps over a list. -/
theorem Mach.tidies_foldl {β : Type} {f : Mach → β → Mach} (hf : ∀ n x, Mach.Tidies n (f n x) job) (l : List β) (m : Mach) :
    m.Tidies (l.foldl f m) job :=
  List.foldlRecOn (motive := fun n : Mach => m.Tidies n job) l f (m.tidies_refl job) (fun n hn x _ => hn.trans (hf n x))

theorem Mach.modJob_tidies (m : Mach) (f : Job → Job) : m.Tidies (m.modJob job f) job where
  jobs _ hi := (sget?_sset ..).trans (if_neg hi)
  sorted w := sset_pairwise _ _ _ w
  going _ := rfl
  queue _ _ := rfl

theorem Mach.modCtx_tidies (m : Mach) (cx : Nat) {f : Context → Context} (hf : ∀ c, (f c).going = c.going) : m.Tidies (m.modCtx cx f) job where
  jobs _ _ := rfl
  sorted w := w
  going i := by
    rw [Mach.ctx_modCtx]
    split
    next h => rw [hf, h]
    · rfl
  queue _ _ := rfl

theorem Mach.modPart_tidies (m : Mach) (part : Nat) {f : Part → Part} (hf : ∀ p, (f p).queues = p.queues) : m.Tidies (m.modPart part f) job where
  jobs _ _ := rfl
  sorted w := w
  going _ := rfl
  queue p q := by
    rw [Mach.queue, Mach.part_modPart, Mach.queue]
    split
    next h => rw [hf, h]
    · rfl

end

/-! ### The steps of a job's end -/

/-- What leaving a phaser changes: phasers, the streams it acknowledges, the events of their replies. -/
def Mach.Phased (m n : Mach) : Prop := n = { m with phs := n.phs, streams := n.streams, agenda := n.agenda, fresh := n.fresh }

theorem Mach.Phased.trans {m n p : Mach} (h : m.Phased n) (k : n.Phased p) : m.Phased p := by
  unfold Mach.Phased at *
  rw [k, h]

theorem Mach.Phased.tidies {m n : Mach} (h : m.Phased n) (job : Nat) : m.Tidies n job :=
  Mach.tidies_of job (by rw [h]) (by rw [h]) (by rw [h])

theorem Mach.phased_foldl {β : Type} {f : Mach → β → Mach} (hf : ∀ n x, Mach.Phased n (f n x)) (l : List β) (m : Mach) : m.Phased (l.foldl f m) :=
  List.foldlRecOn (motive := fun n : Mach => m.Phased n) l f rfl (fun n hn x _ => hn.trans (hf n x))

theorem Mach.phAck_phased (m : Mach) (now sid key : Nat) : m.Phased (m.phAck now sid key) := by
  unfold Mach.phAck
  dsimp only
  split
  · split
    · rfl
    · split
      · rfl
      · split <;> rfl
  · rfl

theorem Mach.phAdvance_phased (m : Mach) (now key fuel : Nat) : m.Phased (m.phAdvance now key fuel) := by
  induction fuel generalizing m with
  | zero => rfl
  | succ fuel ih =>
    rw [Mach.phAdvance]
    dsimp only
    split
    · have hset (p : Phaser) : m.Phased (m.setPhaser key p) := rfl
      exact ((hset _).trans (Mach.phased_foldl (fun n i => n.phAck_phased now i key) _ _)).trans (ih _)
    · rfl

theorem Mach.phLeave_phased (m : Mach) (now key sid : Nat) : m.Phased (m.phLeave now key sid) := by
  unfold Mach.phLeave
  extract_lets p
  split
  · rfl
  next x _ =>
    have set (m : Mach) (p : Phaser) : m.Phased (m.setPhaser key p) := rfl
    extract_lets n q
    have h1 : m.Phased n := by
      unfold n
      split
      · exact (set ..).trans (Mach.phAdvance_phased ..)
      · rfl
    exact (h1.trans (set ..)).trans (Mach.phAdvance_phased ..)

/-- Every membership of some streams dropped (R303). -/
theorem Mach.phLeaveAll_phased (m : Mach) (now : Nat) (sids : List Nat) : m.Phased (m.phLeaveAll now sids) :=
  Mach.phased_foldl (fun n key => Mach.phased_foldl (fun n i => n.phLeave_phased now key i) sids n) _ m

/-- A tag discarded (R53). -/
theorem Mach.discardTag_tidies (m : Mach) (job t : Nat) : m.Tidies (m.discardTag job t) job := by
  unfold Mach.discardTag
  extract_lets n1 ids n2 n3
  have h1 : m.Tidies n1 job := by
    refine Mach.tidies_foldl job (fun n q => ?_) _ m
    exact Mach.modCtx_tidies job n _ (fun _ => rfl)
  have h2 : n1.Tidies n2 job := by
    refine Mach.tidies_foldl job (fun n i => ?_) ids n1
    exact Mach.tidies_of job rfl rfl rfl
  have h3 : n2.Tidies n3 job := Mach.tidies_of job rfl rfl rfl
  exact ((h1.trans h2).trans h3).trans (Mach.modJob_tidies ..)

/-- A RED's fault recorded (R284). -/
theorem Mach.redLog_tidies (m : Mach) (now : Nat) (a : Atom) (job : Nat) : m.Tidies (m.redLog now a) job := by
  unfold Mach.redLog
  refine (Mach.tidies_of job rfl rfl rfl : m.Tidies (m.dropAtom a.id) job).trans (Mach.modCtx_tidies job _ _ (fun c => ?_))
  dsimp only
  split <;> rfl

/-- A job that waits looks again at its clusters. -/
def Mach.Retried (m n : Mach) : Prop := n = { m with agenda := n.agenda, fresh := n.fresh }

theorem Mach.Retried.trans {m n p : Mach} (h : m.Retried n) (k : n.Retried p) : m.Retried p := by
  unfold Mach.Retried at *
  rw [k, h]

theorem Mach.Retried.jobs {m n : Mach} (h : m.Retried n) : n.jobs = m.jobs := by rw [h]
theorem Mach.Retried.pcs {m n : Mach} (h : m.Retried n) : n.pcs = m.pcs := by rw [h]

theorem Mach.retried_foldl {β : Type} {f : Mach → β → Mach} (hf : ∀ n x, Mach.Retried n (f n x)) (l : List β) (m : Mach) : m.Retried (l.foldl f m) :=
  List.foldlRecOn (motive := fun n : Mach => m.Retried n) l f rfl (fun n hn x _ => hn.trans (hf n x))

theorem Mach.retryWaiting_retried (m : Mach) (now : Nat) : m.Retried (m.retryWaiting now) := by
  unfold Mach.retryWaiting
  extract_lets n
  have h1 : m.Retried n := by
    refine Mach.retried_foldl (fun n d => ?_) _ m
    split <;> rfl
  refine h1.trans (Mach.retried_foldl (fun n j => ?_) _ n)
  split
  · refine Mach.retried_foldl (fun n lc => ?_) _ n
    rfl
  · rfl

theorem Mach.tryReconfig_retried (m : Mach) (now part : Nat) : m.Retried (m.tryReconfig now part) := by
  unfold Mach.tryReconfig
  split <;> rfl

theorem Mach.Retried.tidies {m n : Mach} (h : m.Retried n) (job : Nat) : m.Tidies n job :=
  Mach.tidies_of job (by rw [h]) (by rw [h]) (by rw [h])

/-! ### The end of a job -/

/-- A job that has ended, with nothing else changed. -/
def Mach.Ends (m n : Mach) (job : Nat) : Prop := m.Tidies n job ∧ (n.job job).live = false

/-- A job's end (R39, R423). -/
theorem Mach.jobGone_ends (m : Mach) (now job status : Nat) : m.Ends (m.jobGone now job status) job := by
  unfold Mach.jobGone
  extract_lets j part kill ids m1 m2 m3 m4 keepPend m5 m6 m7 m8 m9 m10
  have h1 : m.Tidies m1 job := by
    refine Mach.tidies_foldl job (fun n t => ?_) _ m
    split
    · exact n.discardTag_tidies job t
    · exact n.tidies_refl job
  have h2 : m1.Tidies m2 job := (m1.phLeaveAll_phased now ids).tidies job
  have h3 : m2.Tidies m3 job := by
    unfold m3
    split
    · exact m2.tidies_refl job
    · refine Mach.tidies_foldl job (fun n lc => ?_) _ m2
      exact Mach.tidies_of job rfl rfl rfl
  have h4 : m3.Tidies m4 job := by
    unfold m4
    split
    · exact Mach.tidies_foldl job (fun n a => n.redLog_tidies now a job) _ m3
    · exact m3.tidies_refl job
  have h6 : m4.Tidies m6 job := Mach.tidies_of job rfl rfl rfl
  have h7 : m6.Tidies m7 job := by
    unfold m7
    split <;> exact Mach.tidies_of job rfl rfl rfl
  have h9 : m7.Tidies m9 job := (Mach.tidies_of job rfl rfl rfl : m7.Tidies m8 job).trans (Mach.modJob_tidies ..)
  have h10 : m9.Tidies m10 job ∧ m10.jobs = m9.jobs := by
    unfold m10
    split
    · exact ⟨Mach.tidies_of job rfl rfl rfl, rfl⟩
    · refine ⟨?_, rfl⟩
      exact Mach.modPart_tidies job m9 part (fun _ => rfl)
    · exact ⟨m9.tidies_refl job, rfl⟩
  have h11 := (m10.tryReconfig_retried now part).trans ((m10.tryReconfig now part).retryWaiting_retried now)
  have hend : (m9.job job).live = false := by
    unfold m9
    rw [Mach.job_modJob, if_pos rfl]
    rfl
  refine ⟨(((((h1.trans h2).trans h3).trans h4).trans h6).trans h7).trans ((h9.trans h10.1).trans (h11.tidies job)), ?_⟩
  rw [Mach.job_congr (h11.jobs.trans h10.2), hend]

theorem Mach.killJob_ends (m : Mach) (now job : Nat) : m.Ends (m.killJob now job) job := by
  unfold Mach.killJob
  split
  · exact m.jobGone_ends now job 3
  next h => exact ⟨m.tidies_refl job, by simpa using h⟩

/-! ### Many jobs ended -/

/-- An entry that a read finds. -/
theorem mem_of_sget?_eq_some {α : Type} {m : SMap α} {k : Nat} {v : α} (h : sget? m k = some v) : (k, v) ∈ m := by
  induction m with
  | nil => cases h
  | cons q t ih =>
    rw [sget?] at h
    split at h
    next hk =>
      cases h
      have hk : q.1 = k := by simpa using hk
      exact hk ▸ List.mem_cons_self ..
    · exact List.mem_cons_of_mem _ (ih h)

/-- In a map with rising keys a read finds every entry. -/
theorem sget?_of_mem {α : Type} {m : SMap α} {p : Nat × α} (w : m.Pairwise (fun p q => p.1 < q.1)) (h : p ∈ m) : sget? m p.1 = some p.2 := by
  induction m with
  | nil => cases h
  | cons q t ih =>
    obtain ⟨hq, wt⟩ := List.pairwise_cons.1 w
    rcases List.mem_cons.1 h with rfl | h
    · simp [sget?]
    · have hne : q.1 ≠ p.1 := (hq p h).ne
      rw [sget?, if_neg (by simpa using hne)]
      exact ih wt h

section
variable {f : Mach → Nat × Job → Mach} (hf : ∀ n p, Mach.Ends n (f n p) p.1)
include hf

/-- Jobs ended one after another: each of them is not live, every other job stands. -/
theorem Mach.foldl_ends (l : List (Nat × Job)) (m : Mach) :
    (∀ i, i ∉ l.map (·.1) → sget? (l.foldl f m).jobs i = sget? m.jobs i) ∧ (∀ i, i ∈ l.map (·.1) → ((l.foldl f m).job i).live = false) ∧
      (m.jobs.Pairwise (fun p q => p.1 < q.1) → (l.foldl f m).jobs.Pairwise (fun p q => p.1 < q.1)) ∧
      (∀ i, ((l.foldl f m).ctx i).going = (m.ctx i).going) ∧ ∀ p q, (l.foldl f m).queue p q = m.queue p q := by
  induction l generalizing m with
  | nil => exact ⟨fun _ _ => rfl, nofun, id, fun _ => rfl, fun _ _ => rfl⟩
  | cons x t ih =>
    obtain ⟨h, hend⟩ := hf m x
    obtain ⟨hout, hin, hw, hg, hq⟩ := ih (f m x)
    refine ⟨fun i hi => ?_, fun i hi => ?_, fun w => hw (h.sorted w), fun i => (hg i).trans (h.going i), fun p q => (hq p q).trans (h.queue p q)⟩
    · obtain ⟨h1, h2⟩ := not_or.1 (List.mem_cons.not.1 hi)
      exact (hout i h2).trans (h.jobs i h1)
    · by_cases ht : i ∈ t.map (·.1)
      · exact hin i ht
      · obtain rfl : i = x.1 := (List.mem_cons.1 hi).resolve_right ht
        rw [List.foldl_cons, Mach.job, sget, hout _ ht]
        exact hend

/-- The jobs of a kind ended: no job that is left is live and of the kind. -/
theorem Mach.foldl_ends_all (m : Mach) (c : Job → Bool) (w : (skeys m.jobs).Pairwise (· < ·)) :
    ∀ k ∈ ((m.jobs.filter (fun k => c k.2)).foldl f m).jobs, c k.2 = true → k.2.live = false := by
  obtain ⟨hout, hin, hw, -, -⟩ := Mach.foldl_ends hf (m.jobs.filter (fun k => c k.2)) m
  intro k hk hc
  have hread := sget?_of_mem (hw (List.pairwise_map.1 w)) hk
  have hl : k.1 ∈ (m.jobs.filter (fun k => c k.2)).map (·.1) := by
    by_contra hl
    have hold : k ∈ m.jobs := mem_of_sget?_eq_some ((hout k.1 hl).symm.trans hread)
    exact hl (List.mem_map_of_mem (List.mem_filter.2 ⟨hold, hc⟩))
  have hdead := hin k.1 hl
  rwa [Mach.job, sget, hread] at hdead

end

end Sys2Proof.Machine

/-! PROOFS. Admin commands: refused for their reserved bits, or done with a record of their completion (R346, R347). -/

namespace Sys2Proof.Machine

/-! ### A command's completion -/

/-- The record of an admin command's completion awaits its ring (R346). -/
def Mach.Completes (m : Mach) (now part pidx status value : Nat) : Prop :=
  (now, .completionRecordWrite, [part, 0, 3, status, 0, pidx, value]) ∈ m.agenda

section
variable (m : Mach) (now part pidx status value : Nat)

theorem Mach.adminDone_completes : (m.adminDone now part pidx status value).Completes now part pidx status value := mem_agendaAdd ..

/-- Of a partition, completion changes its queues alone. -/
theorem Mach.adminDone_part (i : Nat) : ∃ q, (m.adminDone now part pidx status value).part i = { m.part i with queues := q } := by
  have h : (m.adminDone now part pidx status value).part i = (m.modQueue part 0 (fun q => { q with busy := q.busy.filter (· != pidx) })).part i := rfl
  rw [h, Mach.modQueue, Mach.part_modPart]
  split
  next h => subst h; exact ⟨_, rfl⟩
  · exact ⟨_, rfl⟩

/-- Of a queue, the packets in progress. -/
theorem Mach.adminDone_queue (i q : Nat) : ∃ b, (m.adminDone now part pidx status value).queue i q = { m.queue i q with busy := b } := by
  have h : (m.adminDone now part pidx status value).queue i q = (m.modQueue part 0 (fun q => { q with busy := q.busy.filter (· != pidx) })).queue i q := rfl
  rw [h, Mach.modQueue, Mach.queue, Mach.part_modPart, Mach.queue]
  split
  next hi =>
    subst hi
    rw [sget_smod]
    split
    next hq => subst hq; exact ⟨_, rfl⟩
    · exact ⟨_, rfl⟩
  · exact ⟨_, rfl⟩

end

/-! ### The frame of a command -/

/-- The reserved bits of a command's operands are zero: words 1 to 7 under their masks (R347). -/
def Mach.fitsMasks (m : Mach) (masks : List Nat) : Prop := ∀ i, i < 7 → m.arg (2 + (i + 1)) &&& (2 ^ 64 - 1 - masks.getD i 0) = 0

/-- The masks of seven words, where the list names the first of them. -/
theorem Mach.fitsMasks_congr {m : Mach} {a b : List Nat} (h : ∀ i, i < 7 → a.getD i 0 = b.getD i 0) : m.fitsMasks a ↔ m.fitsMasks b :=
  forall₂_congr (fun i hi => by rw [h i hi])

section
variable {masks masks' : List Nat} {f : Nat → Mach → Nat → Nat → (Nat → Nat) → Mach × Option (Nat × Nat)} {s : State}
  (hm : ∀ i, i < 7 → masks'.getD i 0 = masks.getD i 0)
include hm

theorem Mach.reserved_iff : ((List.range 7).any (fun i => s.mach.arg (2 + (i + 1)) &&& (2 ^ 64 - 1 - masks.getD i 0) != 0)) = true ↔
    ¬s.mach.fitsMasks masks' := by
  rw [Mach.fitsMasks_congr hm, Mach.fitsMasks]
  simp

/-- A one among the reserved bits: BAD_ADMIN. -/
theorem adminOp_unfit (h : ¬s.mach.fitsMasks masks') :
    adminOp masks f s = .next (s.on (s.mach.adminDone s.now (s.mach.arg 0) (s.mach.arg 1) 0x130 0)) := by
  rw [adminOp, onMach]
  dsimp only
  rw [if_pos ((Mach.reserved_iff hm).2 h)]
  rfl

/-- A command that answers at once. -/
theorem adminOp_done {n : Mach} {st v : Nat} (h : s.mach.fitsMasks masks')
    (hf : f s.now s.mach (s.mach.arg 0) (s.mach.arg 1) (fun i => s.mach.arg (2 + i)) = (n, some (st, v))) :
    adminOp masks f s = .next (s.on (n.adminDone s.now (s.mach.arg 0) (s.mach.arg 1) st v)) := by
  rw [adminOp, onMach]
  dsimp only
  rw [if_neg (fun hr => (Mach.reserved_iff hm).1 hr h), hf]
  rfl

/-- A command that goes on by itself. -/
theorem adminOp_goes {n : Mach} (h : s.mach.fitsMasks masks')
    (hf : f s.now s.mach (s.mach.arg 0) (s.mach.arg 1) (fun i => s.mach.arg (2 + i)) = (n, none)) : adminOp masks f s = .next (s.on n) := by
  rw [adminOp, onMach]
  dsimp only
  rw [if_neg (fun hr => (Mach.reserved_iff hm).1 hr h), hf]
  rfl

end

/-- Every command with a one among its reserved bits completes with BAD_ADMIN, and changes nothing else. -/
theorem admin_unfit {s : State} {i : Instr} {masks : List Nat}
    (hi : (i, masks) ∈ [(Instr.ctxCreate, [0x13F, 2 ^ 64 - 1, 2 ^ 64 - 1, 2 ^ 64 - 1, 2 ^ 64 - 1, 2 ^ 64 - 1, 2 ^ 64 - 1]), (.ctxTeardown, [0x3F]),
        (.rcbUpdate, [2 ^ 64 - 1]), (.basketSize, [0x7FF]), (.basketPut, [0x3FF, 2 ^ 64 - 1]), (.basketDel, [0x3FF]),
        (.energySet, [0x3F, 2 ^ 48 - 1]), (.powerCap, [2 ^ 32 - 1]), (.queueReset, [0x3F]), (.ifst, [0x7FFFF]), (.xinval, [0xF3F, 2 ^ 64 - 1]),
        (.rangerSet, [0xF3F, 2 ^ 64 - 1, 2 ^ 24 - 1, 2 ^ 64 - 1]), (.hamperSet, [0x3F, 2 ^ 64 - 1, 2 ^ 64 - 1]), (.partSwap, [])])
    (h : ¬s.mach.fitsMasks masks) : exec i s = .next (s.on (s.mach.adminDone s.now (s.mach.arg 0) (s.mach.arg 1) 0x130 0)) := by
  simp only [List.mem_cons, Prod.mk.injEq, List.not_mem_nil, or_false] at hi
  rcases hi with ⟨rfl, rfl⟩ | ⟨rfl, rfl⟩ | ⟨rfl, rfl⟩ | ⟨rfl, rfl⟩ | ⟨rfl, rfl⟩ | ⟨rfl, rfl⟩ | ⟨rfl, rfl⟩ | ⟨rfl, rfl⟩ | ⟨rfl, rfl⟩ |
    ⟨rfl, rfl⟩ | ⟨rfl, rfl⟩ | ⟨rfl, rfl⟩ | ⟨rfl, rfl⟩ | ⟨rfl, rfl⟩
  · exact (exec_ctxCreate s).trans (adminOp_unfit (by decide) h)
  · exact (exec_ctxTeardown s).trans (adminOp_unfit (by decide) h)
  · exact (exec_rcbUpdate s).trans (adminOp_unfit (by decide) h)
  · exact (exec_basketSize s).trans (adminOp_unfit (by decide) h)
  · exact (exec_basketPut s).trans (adminOp_unfit (by decide) h)
  · exact (exec_basketDel s).trans (adminOp_unfit (by decide) h)
  · exact (exec_energySet s).trans (adminOp_unfit (by decide) h)
  · exact (exec_powerCap s).trans (adminOp_unfit (by decide) h)
  · exact (exec_queueReset s).trans (adminOp_unfit (by decide) h)
  · exact (exec_ifst s).trans (adminOp_unfit (by decide) h)
  · exact (exec_xinval s).trans (adminOp_unfit (by decide) h)
  · exact (exec_rangerSet s).trans (adminOp_unfit (by decide) h)
  · exact (exec_hamperSet s).trans (adminOp_unfit (by decide) h)
  · exact (exec_partSwap s).trans (adminOp_unfit (by decide) h)

/-! ### The basket (R331) -/

section
variable {s : State}

theorem basketSize_refused (hfit : s.mach.fitsMasks [0x7FF])
    (h : s.mach.arg 3 = 0 ∨ 1024 < s.mach.arg 3 ∨ (s.mach.part (s.mach.arg 0)).basket ≠ []) :
    exec .basketSize s = .next (s.on (s.mach.adminDone s.now (s.mach.arg 0) (s.mach.arg 1) 0x130 0)) :=
  (exec_basketSize s).trans (adminOp_done (by decide) hfit (if_pos (by simpa [or_assoc] using h)))

theorem basketSize_done (hfit : s.mach.fitsMasks [0x7FF]) (h1 : 1 ≤ s.mach.arg 3) (h2 : s.mach.arg 3 ≤ 1024)
    (h3 : (s.mach.part (s.mach.arg 0)).basket = []) :
    exec .basketSize s = .next (s.on ((s.mach.modPart (s.mach.arg 0) (fun p => { p with bsize := s.mach.arg 3 })).adminDone s.now (s.mach.arg 0)
      (s.mach.arg 1) 0 0)) :=
  (exec_basketSize s).trans (adminOp_done (by decide) hfit (if_neg (by simp [h3]; omega)))

/-- The words of a record, read in the space of the context that its word 7 names (R331). -/
def Mach.basketWords (m : Mach) (part va : Nat) : Option (Mach × List Nat) :=
  (m.ctxsOf part).findSome? (fun c => match m.readWords c va 8 with
    | some (m, ws) => if ws.getD 7 0 / 2 ^ 58 == c % 64 then some (m, ws) else none
    | none => none)

/-- A record as it is put: READY, the device's own word 7 but for CTXID and PATCH (R329). -/
def putRecord (ws : List Nat) : Basket := { words := ws.set 7 (fld (ws.getD 7 0) 53 11 * 2 ^ 53) }

/-- A slot is written with the record. -/
theorem basketPut_done (hfit : s.mach.fitsMasks [0x3FF, 2 ^ 64 - 1]) (h1 : s.mach.arg 3 < (s.mach.part (s.mach.arg 0)).bsize)
    (h2 : sget? (s.mach.part (s.mach.arg 0)).basket (s.mach.arg 3) = none) {n : Mach} {ws : List Nat}
    (h3 : s.mach.basketWords (s.mach.arg 0) (s.mach.arg 4) = some (n, ws)) :
    exec .basketPut s = .next (s.on ((n.modPart (s.mach.arg 0) (fun p => { p with basket := sset p.basket (s.mach.arg 3) (putRecord ws) })).adminDone
      s.now (s.mach.arg 0) (s.mach.arg 1) 0 0)) := by
  refine (exec_basketPut s).trans (adminOp_done (by decide) hfit ?_)
  dsimp only
  rw [if_neg (by simp [h2]; omega)]
  split
  next he => cases h3.symm.trans he
  next he =>
    cases h3.symm.trans he
    rfl

theorem basketDel_done (hfit : s.mach.fitsMasks [0x3FF]) {b : Basket} (hb : sget? (s.mach.part (s.mach.arg 0)).basket (s.mach.arg 3) = some b)
    (hs : b.state = 0) :
    exec .basketDel s = .next (s.on ((s.mach.modPart (s.mach.arg 0) (fun p => { p with basket := sdel p.basket (s.mach.arg 3) })).adminDone s.now
      (s.mach.arg 0) (s.mach.arg 1) 0 0)) := by
  refine (exec_basketDel s).trans (adminOp_done (by decide) hfit ?_)
  dsimp only
  rw [hb]
  exact if_neg (by simp [hs])

theorem basketDel_refused (hfit : s.mach.fitsMasks [0x3FF]) {b : Basket} (hb : sget? (s.mach.part (s.mach.arg 0)).basket (s.mach.arg 3) = some b)
    (hs : b.state ≠ 0) : exec .basketDel s = .next (s.on (s.mach.adminDone s.now (s.mach.arg 0) (s.mach.arg 1) 0x130 0)) := by
  refine (exec_basketDel s).trans (adminOp_done (by decide) hfit ?_)
  dsimp only
  rw [hb]
  exact if_pos (by simpa using hs)

end

end Sys2Proof.Machine

/-! PROOFS. What each admin command does that ends no job (R28, R37, R331, R361, R366, R370, R381, R407, R432, R436). -/

namespace Sys2Proof.Machine

theorem bitOf_eq_testBit (w i : Nat) : bitOf w i = w.testBit i := by
  rw [bitOf, Nat.testBit_eq_decide_div_mod_eq]
  rfl

/-- A read of a map whose entries are changed under their keys. -/
theorem sget?_map {α : Type} {f : Nat × α → Nat × α} (hf : ∀ p, (f p).1 = p.1) (m : SMap α) (k : Nat) :
    sget? (m.map f) k = (sget? m k).map (fun v => (f (k, v)).2) := by
  induction m with
  | nil => rfl
  | cons p t ih =>
    rw [List.map_cons, sget?, sget?, hf]
    by_cases hk : p.1 = k
    · subst hk
      simp
    · rw [if_neg (by simpa using hk), if_neg (by simpa using hk), ih]

/-- A listed key is read. -/
theorem sget?_ne_none_of_mem {α : Type} {m : SMap α} {k : Nat} (h : k ∈ skeys m) : sget? m k ≠ none := by
  induction m with
  | nil => cases h
  | cons p t ih =>
    rw [sget?]
    split
    · exact Option.some_ne_none _
    next hk => exact ih ((List.mem_cons.1 h).resolve_left (fun he => hk (by simp [he])))

/-! ### The power cap (R366) -/

section
variable {s : State} (hfit : s.mach.fitsMasks [2 ^ 32 - 1])
include hfit

theorem powerCap_not_manager (hm : (s.mach.part (s.mach.arg 0)).manager = false) :
    exec .powerCap s = .next (s.on (s.mach.adminDone s.now (s.mach.arg 0) (s.mach.arg 1) 0x133 s.mach.pcap)) :=
  (exec_powerCap s).trans (adminOp_done (by decide) hfit (if_pos (by rw [hm]; rfl)))

variable (hm : (s.mach.part (s.mach.arg 0)).manager = true)
include hm

theorem powerCap_below_floors (h : s.mach.arg 3 < (s.mach.parts.map (fun q => q.2.floor)).sum) :
    exec .powerCap s = .next (s.on (s.mach.adminDone s.now (s.mach.arg 0) (s.mach.arg 1) 0x132 s.mach.pcap)) :=
  (exec_powerCap s).trans (adminOp_done (by decide) hfit ((if_neg (by simp [hm])).trans (if_pos h)))

theorem powerCap_below_idle (h : (s.mach.parts.map (fun q => q.2.floor)).sum ≤ s.mach.arg 3) (hi : s.mach.arg 3 < s.mach.pidle) :
    exec .powerCap s = .next (s.on (({ s.mach with pcap := s.mach.pidle } : Mach).adminDone s.now (s.mach.arg 0) (s.mach.arg 1) 0x131
      s.mach.pidle)) :=
  (exec_powerCap s).trans (adminOp_done (by decide) hfit
    ((if_neg (by simp [hm])).trans ((if_neg (Nat.not_lt.2 h)).trans (if_pos hi))))

theorem powerCap_done (h : (s.mach.parts.map (fun q => q.2.floor)).sum ≤ s.mach.arg 3) (hi : s.mach.pidle ≤ s.mach.arg 3)
    (hc : s.mach.arg 3 ≤ Config.pcapReset) :
    exec .powerCap s = .next (s.on (({ s.mach with pcap := s.mach.arg 3 } : Mach).adminDone s.now (s.mach.arg 0) (s.mach.arg 1) 0 (s.mach.arg 3))) := by
  refine (exec_powerCap s).trans (adminOp_done (by decide) hfit
    ((if_neg (by simp [hm])).trans ((if_neg (Nat.not_lt.2 h)).trans ((if_neg (Nat.not_lt.2 hi)).trans ?_))))
  rw [Nat.min_eq_left hc]

end

/-! ### Contexts (R28, R37, R361, R407, R432) -/

/-- The context that a command's first operand names. -/
def Mach.adminCx (m : Mach) : Nat := cxKey (m.arg 0) (fld (m.arg 3) 0 6)

section
variable {s : State}

theorem ctxCreate_refused (hfit : s.mach.fitsMasks [0x13F, 2 ^ 64 - 1, 2 ^ 64 - 1, 2 ^ 64 - 1, 2 ^ 64 - 1, 2 ^ 64 - 1, 2 ^ 64 - 1])
    (h : s.mach.ctxThere s.mach.adminCx = true) :
    exec .ctxCreate s = .next (s.on (s.mach.adminDone s.now (s.mach.arg 0) (s.mach.arg 1) 0x130 0)) :=
  (exec_ctxCreate s).trans (adminOp_done (by decide) hfit (if_pos (by rw [Mach.adminCx] at h; simp [h])))

/-- A context as CTX_CREATE makes it, before it is bound (R28). -/
def Mach.createdCtx (m : Mach) : Mach :=
  { m.setCtx m.adminCx { fixed := bitOf (m.arg 3) 8, root := m.arg 4, rcb := m.arg 5, ewgt := [m.arg 6, m.arg 7, m.arg 8, m.arg 9] } with
    ccs := m.ccs.filter (fun c => ccCx c.1 != m.adminCx) }

theorem ctxCreate_done (hfit : s.mach.fitsMasks [0x13F, 2 ^ 64 - 1, 2 ^ 64 - 1, 2 ^ 64 - 1, 2 ^ 64 - 1, 2 ^ 64 - 1, 2 ^ 64 - 1])
    (h1 : s.mach.ctxThere s.mach.adminCx = false) (h2 : s.mach.ctxNamed s.mach.adminCx = false) (h3 : s.mach.arg 4 < 2 ^ 56)
    (h4 : fld (s.mach.arg 4) 1 13 = 0) :
    exec .ctxCreate s = .next (s.on ((s.mach.createdCtx.bindContext s.mach.adminCx).adminDone s.now (s.mach.arg 0) (s.mach.arg 1) 0 0)) := by
  have hgo : ¬(s.mach.ctxThere s.mach.adminCx || s.mach.ctxNamed s.mach.adminCx || s.mach.arg 4 / 2 ^ 56 != 0 ||
      fld (s.mach.arg 4) 1 13 != 0) = true := by
    rw [h1, h2, h4, Nat.div_eq_of_lt h3]
    decide
  exact (exec_ctxCreate s).trans (adminOp_done (by decide) hfit (if_neg hgo))

theorem Mach.createdCtx_bound (m : Mach) :
    let n := m.createdCtx.bindContext m.adminCx
    (∃ r, n.ctx m.adminCx = { fixed := bitOf (m.arg 3) 8, root := m.arg 4, rcb := m.arg 5, ewgt := [m.arg 6, m.arg 7, m.arg 8, m.arg 9], rcbs := r }) ∧
      ∀ k, ccCx k = m.adminCx → n.cct k = {} := by
  intro n
  obtain ⟨hc, hctx⟩ := m.createdCtx.bindContext_checked m.adminCx
  refine ⟨?_, fun k hk => ?_⟩
  · obtain ⟨r, hr⟩ := hctx m.adminCx
    exact ⟨r, hr.trans (congrArg (fun c : Context => { c with rcbs := r }) (sget_sset_same ..))⟩
  · have hn : sget? m.createdCtx.ccs k = none := by
      refine sget?_eq_none (fun p hp he => ?_)
      have hp' := (List.mem_filter.1 hp).2
      rw [he, hk] at hp'
      simp at hp'
    rw [Mach.cct_congr hc.ccs, Mach.cct, sget, hn, Option.getD_none]

/-- A cluster's part of an energy total that is set anew (R361). -/
def Cctx.withEnergy (c : Cctx) (v : Nat) : Cctx :=
  { c with eclPj := 0, dfrac := 0, sres := 0, esat := false, ecnt := v, ecntSat := false, folded := 0, eclAt := (0, 0, 0, false) }

/-- A context's energy total set, with every cluster's part of it and no fold of the old total left on its way (R361). -/
def Mach.withEnergy (m : Mach) (cx v : Nat) : Mach :=
  { m.modCtx cx (fun c => { c with ecnt := v, esat := false }) with
    ccs := m.ccs.map (fun (c : Nat × Cctx) => if ccCx c.1 == cx then (c.1, c.2.withEnergy v) else c),
    agenda := m.agenda.filter (fun e => !(e.2.1 == .foldArrival && ccCx (e.2.2.getD 0 0) == cx)) }

theorem Mach.ctx_withEnergy (m : Mach) (cx v : Nat) : (m.withEnergy cx v).ctx cx = { m.ctx cx with ecnt := v, esat := false } :=
  (m.ctx_modCtx cx cx (fun c => { c with ecnt := v, esat := false })).trans (if_pos rfl)

theorem energySet_done (hfit : s.mach.fitsMasks [0x3F, 2 ^ 48 - 1]) (h : s.mach.ctxThere s.mach.adminCx = true) :
    exec .energySet s = .next (s.on ((s.mach.withEnergy s.mach.adminCx (s.mach.arg 4)).adminDone s.now (s.mach.arg 0) (s.mach.arg 1) 0 0)) :=
  (exec_energySet s).trans (adminOp_done (by decide) hfit (if_neg (by rw [Mach.adminCx] at h; simp [h])))

theorem Mach.cct_withEnergy (m : Mach) {cx v k : Nat} (hk : k ∈ skeys m.ccs) (hc : ccCx k = cx) :
    (m.withEnergy cx v).cct k = (m.cct k).withEnergy v := by
  have hread : sget? (m.withEnergy cx v).ccs k = (sget? m.ccs k).map (fun c => c.withEnergy v) := by
    refine (sget?_map (fun p => ?_) m.ccs k).trans ?_
    · split <;> rfl
    · simp [hc]
  cases hs : sget? m.ccs k with
  | none => exact absurd hs (sget?_ne_none_of_mem hk)
  | some c =>
    rw [Mach.cct, sget, hread, Mach.cct, sget, hs]
    rfl

/-- A context's handler pool as RANGER_SET gives it (R407). -/
def Mach.withPool (m : Mach) : Mach :=
  m.modCtx m.adminCx (fun c => { c with pool := some (fld (m.arg 3) 8 4, m.arg 4, m.arg 5, m.arg 6) })

theorem Mach.pool_withPool (m : Mach) : (m.withPool.ctx m.adminCx).pool = some (fld (m.arg 3) 8 4, m.arg 4, m.arg 5, m.arg 6) := by
  rw [Mach.withPool, Mach.ctx_modCtx, if_pos rfl]

theorem rangerSet_done (hfit : s.mach.fitsMasks [0xF3F, 2 ^ 64 - 1, 2 ^ 24 - 1, 2 ^ 64 - 1]) (h : s.mach.ctxThere s.mach.adminCx = true)
    (ha : s.mach.arg 4 % 64 = 0) :
    exec .rangerSet s = .next (s.on (s.mach.withPool.adminDone s.now (s.mach.arg 0) (s.mach.arg 1) 0 0)) :=
  (exec_rangerSet s).trans (adminOp_done (by decide) hfit (if_neg (by rw [Mach.adminCx] at h; simp [h, ha])))

theorem hamperSet_done (hfit : s.mach.fitsMasks [0x3F, 2 ^ 64 - 1, 2 ^ 64 - 1]) (h : s.mach.ctxThere s.mach.adminCx = true)
    (ha : s.mach.arg 4 % 65536 = 0)
    (hr : 2 ^ 25 * ((List.range 5).map (fun k => (s.mach.part (s.mach.arg 0)).lcount k * Config.clusterCount k)).sum ≤ s.mach.arg 5)
    {n : Mach} {pages : List Tlb}
    (hp : s.mach.areaPages s.mach.adminCx (s.mach.arg 4 + s.mach.arg 5) (s.mach.arg 5 / 4096 + 1) (s.mach.arg 4) = some (n, pages)) :
    exec .hamperSet s = .next (s.on ((n.modCtx s.mach.adminCx (fun c => { c with hamper := some (s.mach.arg 4, s.mach.arg 5), hpages := pages })).adminDone
      s.now (s.mach.arg 0) (s.mach.arg 1) 0 0)) := by
  rw [Mach.adminCx] at h hp ⊢
  refine (exec_hamperSet s).trans (adminOp_done (by decide) hfit ?_)
  dsimp only
  rw [if_neg (by simp [h, ha]; exact hr), hp]

/-- An update of a region that one context names reads it again, and its words stand until then (R37). -/
theorem rcbUpdate_done (hfit : s.mach.fitsMasks [2 ^ 64 - 1]) {c : Nat} {n : Mach} {l : List (Nat × List Nat)}
    (hheld : (s.mach.ctxsOf (s.mach.arg 0)).filter (fun c => (sget? (s.mach.ctx c).rcbs (s.mach.arg 3)).isSome && s.mach.rcbNamed c (s.mach.arg 3)) = [c])
    (hv : s.mach.validRcb c 8 (s.mach.arg 3) = some (n, l)) :
    exec .rcbUpdate s = .next (s.on ((n.modRcb c (s.mach.arg 3) (fun r => { r with next := some (l.headD (0, [])).2 })).adminDone s.now
      (s.mach.arg 0) (s.mach.arg 1) 0 0)) := by
  refine (exec_rcbUpdate s).trans (adminOp_done (by decide) hfit ?_)
  dsimp only [Nat.reduceAdd]
  rw [hheld]
  simp [hv]

theorem Mach.rcbOf_modRcb {m : Mach} {cx va : Nat} {f : Rcb → Rcb} (h : (sget? (m.ctx cx).rcbs va).isSome = true) :
    (m.modRcb cx va f).rcbOf cx va = f (m.rcbOf cx va) := by
  obtain ⟨v, hv⟩ := Option.isSome_iff_exists.1 h
  rw [Mach.modRcb, Mach.rcbOf, Mach.ctx_modCtx, if_pos rfl, Mach.rcbOf, sget, sget, sget?_map (fun p => by split <;> rfl), hv]
  simp

/-! ### Translations (R381) -/

/-- The slices that hear of an invalidation (R381). -/
def Mach.invalSlices (m : Mach) (v : Inval) : List Nat :=
  if v.all || v.pubrid != 0 || 4 < v.psz then List.range (m.sliceCount (cxPart v.cx))
  else if m.sliceCount (cxPart v.cx) == 0 then [] else [sliceHash v.va v.cx % m.sliceCount (cxPart v.cx)]

/-- An invalidation goes to its slices; without one it is complete (R381). -/
def Mach.tellSlices (m : Mach) (now id : Nat) (sl : List Nat) : Mach :=
  if sl.isEmpty then m.after now 0 .invalidationComplete [id] else sl.foldl (fun m i => m.after now 0 .invalidationForward [id, i]) m

theorem Mach.tellSlices_retried (m : Mach) (now id : Nat) (sl : List Nat) : m.Retried (m.tellSlices now id sl) := by
  unfold Mach.tellSlices
  split
  · rfl
  · exact Mach.foldl_after ..

/-- An invalidation that starts is listed. -/
def Mach.listInval (m : Mach) (v : Nat → Inval) : Mach :=
  { m with seq := m.seq + 1, invs := m.invs ++ [{ v m.seq with slices := m.invalSlices (v m.seq) }] }

theorem Mach.startInval_eq (m : Mach) (now : Nat) (v : Nat → Inval) :
    m.startInval now v = (m.listInval v).tellSlices now m.seq (m.invalSlices (v m.seq)) := rfl

theorem Mach.startInval_invs (m : Mach) (now : Nat) (v : Nat → Inval) :
    { v m.seq with slices := m.invalSlices (v m.seq) } ∈ (m.startInval now v).invs := by
  rw [Mach.startInval_eq, Mach.tellSlices_retried]
  exact List.mem_append_right _ (List.mem_singleton_self _)

/-- The invalidation that an XINVAL names. -/
def Mach.adminInval (m : Mach) (id : Nat) : Inval :=
  { id := id, cx := m.adminCx, all := bitOf (m.arg 3) 8, va := m.arg 4, psz := fld (m.arg 3) 9 3, admin := some (m.arg 0, m.arg 1) }

theorem xinval_goes (hfit : s.mach.fitsMasks [0xF3F, 2 ^ 64 - 1]) (h : s.mach.ctxThere s.mach.adminCx = true)
    (ha : (s.mach.arg 3).testBit 8 = true ∨ s.mach.arg 4 % 2 ^ pszLog (fld (s.mach.arg 3) 9 3) = 0) :
    exec .xinval s = .next (s.on (s.mach.startInval s.now s.mach.adminInval)) := by
  have hgo : ¬(!s.mach.ctxThere s.mach.adminCx || !bitOf (s.mach.arg 3) 8 && s.mach.arg 4 % 2 ^ pszLog (fld (s.mach.arg 3) 9 3) != 0) = true := by
    rw [h, bitOf_eq_testBit]
    rcases ha with ha | ha <;> simp [ha]
  exact (exec_xinval s).trans (adminOp_goes (by decide) hfit (if_neg hgo))

/-! ### The partition's swap (R436) -/

theorem Mach.swap_modPart (m : Mach) (i : Nat) (v : Option (Nat × Nat × List Nat)) : ((m.modPart i (fun p => { p with swap := v })).part i).swap = v := by
  rw [Mach.part_modPart, if_pos rfl]

theorem partSwap_goes (hfit : s.mach.fitsMasks []) (h : (s.mach.part (s.mach.arg 0)).swap = none) :
    exec .partSwap s = .next (s.on ((s.mach.modPart (s.mach.arg 0) (fun p => { p with swap := some (s.mach.arg 1, 0, []) })).after s.now 0 .partSwapHalted
      [s.mach.arg 0])) :=
  (exec_partSwap s).trans (adminOp_goes (by decide) hfit (if_neg (by simp [h])))

/-! ### Self-tests (R370) -/

/-- The cluster of a unit under test. -/
def testedPc (part dk u : Nat) : Nat := pcKey (dk / 8) (dk % 8) (u / 2) (if dk / 8 = 4 then part else 0)

theorem Mach.testing_modPcl (m : Mach) (pc : Nat) (b : Bool) : ((m.modPcl pc (fun c => { c with testing := b })).pcl pc).testing = b := by
  rw [Mach.pcl_modPcl, if_pos rfl]

theorem ifst_goes (hfit : s.mach.fitsMasks [0x7FFFF]) (hk : fld (s.mach.arg 3) 0 3 < 5)
    (hd : dieKey (fld (s.mach.arg 3) 0 3) (fld (s.mach.arg 3) 3 3) ∈ s.mach.ownedDies (s.mach.arg 0))
    (hmask : fld (s.mach.arg 3) 6 12 < 2 ^ Config.clusterCount (fld (s.mach.arg 3) 0 3))
    (ha : (s.mach.arg 3).testBit 18 = true → fld (s.mach.arg 3) 0 3 = 0) :
    exec .ifst s = .next (s.on (s.mach.ifstNext s.now (s.mach.arg 0) (s.mach.arg 1) (dieKey (fld (s.mach.arg 3) 0 3) (fld (s.mach.arg 3) 3 3)) 0 0
      (ifstUnits (fld (s.mach.arg 3) 0 3) (fld (s.mach.arg 3) 6 12) ((s.mach.arg 3).testBit 18)))) := by
  have hgo : ¬(decide (5 ≤ fld (s.mach.arg 3) 0 3) ||
      !(s.mach.ownedDies (s.mach.arg 0)).contains (dieKey (fld (s.mach.arg 3) 0 3) (fld (s.mach.arg 3) 3 3)) ||
      decide (2 ^ Config.clusterCount (fld (s.mach.arg 3) 0 3) ≤ fld (s.mach.arg 3) 6 12) ||
      bitOf (s.mach.arg 3) 18 && fld (s.mach.arg 3) 0 3 != 0) = true := by
    rw [bitOf_eq_testBit]
    simp only [List.contains_iff_mem.2 hd, Nat.not_le.2 hk, Nat.not_le.2 hmask, decide_false, Bool.not_true, Bool.false_or, Bool.and_eq_true,
      bne_iff_ne, ne_eq, not_and, not_not]
    exact ha
  rw [← bitOf_eq_testBit]
  exact (exec_ifst s).trans (adminOp_goes (by decide) hfit (if_neg hgo))

/-- A cluster that can be left is tested first (R370). -/
theorem Mach.ifstNext_cluster {m n : Mach} {part dk u : Nat} (now pidx got tested : Nat) (rest : List Nat) (hu : u % 2 = 0)
    (hv : m.vacate now (testedPc part dk u) = some n) : m.ifstNext now part pidx dk got tested (u :: rest) =
      (n.modPcl (testedPc part dk u) (fun c => { c with testing := true })).at (now + 150 * 1000 * Config.tick) .ifstUnitComplete
        [part, pidx, dk, u, (rest.map (2 ^ ·)).sum, got, tested] := by
  have hpc : pcKey (dk / 8) (dk % 8) (u / 2) (if (dk / 8 == 4) = true then part else 0) = testedPc part dk u := by
    simp [testedPc]
  rw [Mach.ifstNext]
  dsimp only
  rw [hpc, if_neg (by simp [hu]), hv]

/-- The last unit ends the test of its cluster, and the command. -/
theorem ifstUnit_last (h : s.mach.arg 4 = 0) : ∃ (m : Mach) (got : Nat), exec .ifstUnitComplete s = .next (s.on
    (((m.modPcl (testedPc (s.mach.arg 0) (s.mach.arg 2) (s.mach.arg 3)) (fun c => { c with testing := false })).retryWaiting s.now).adminDone s.now
      (s.mach.arg 0) (s.mach.arg 1) 0 got)) := by
  have hrest : (List.range 32).filter (fun v => bitOf (s.mach.arg 4) v) = [] := by
    rw [h]
    decide
  rw [exec_ifstUnitComplete, execIfstUnitComplete, onMach]
  dsimp only
  rw [hrest, if_neg (by simp)]
  simp only [beq_iff_eq]
  exact ⟨_, _, rfl⟩

/-! ### The end of a queue's reset (R276) -/

/-- A job that a queue's reset has ended. -/
def Mach.resets (m : Mach) (part q j : Nat) : Bool := (m.job j).onQueue part q && !(m.job j).live && (sget? m.jobs j).isSome

theorem queueReset_ends (ha : ∀ a ∈ s.mach.atoms, a.mbox = none → ¬s.mach.resets (s.mach.arg 0) (s.mach.arg 2) a.job = true)
    (hc : ∀ c ∈ s.mach.copies, ¬s.mach.resets (s.mach.arg 0) (s.mach.arg 2) c.job = true)
    (hp : ∀ p ∈ s.mach.pend, ¬s.mach.resets (s.mach.arg 0) (s.mach.arg 2) p.job = true)
    (hs : ∀ x ∈ s.mach.streams, s.mach.resets (s.mach.arg 0) (s.mach.arg 2) x.2.job = true → x.2.sb = []) :
    exec .queueResetComplete s = .next (s.on (((s.mach.modQueue (s.mach.arg 0) (s.mach.arg 2) (fun x =>
      { x with resetting := false, qhead := x.qtail })).readOn s.now (s.mach.arg 0) (s.mach.arg 2)).adminDone s.now (s.mach.arg 0) (s.mach.arg 1) 0 0)) := by
  have hrest : ¬(s.mach.atoms.any (fun a => a.mbox.isNone && s.mach.resets (s.mach.arg 0) (s.mach.arg 2) a.job) ||
      s.mach.copies.any (fun c => s.mach.resets (s.mach.arg 0) (s.mach.arg 2) c.job) ||
      s.mach.pend.any (fun p => s.mach.resets (s.mach.arg 0) (s.mach.arg 2) p.job) ||
      s.mach.streams.any (fun x => s.mach.resets (s.mach.arg 0) (s.mach.arg 2) x.2.job && !x.2.sb.isEmpty)) = true := by
    simp only [Bool.or_eq_true, List.any_eq_true, Bool.and_eq_true, Option.isNone_iff_eq_none, Bool.not_eq_true']
    rintro (((⟨a, h, hm, hr⟩ | ⟨c, h, hr⟩) | ⟨p, h, hr⟩) | ⟨x, h, hr, he⟩)
    · exact ha a h hm hr
    · exact hc c h hr
    · exact hp p h hr
    · simp [hs x h hr] at he
  rw [exec_queueResetComplete, execQueueResetComplete, onMach]
  exact congrArg (fun m => Host.Outcome.next (s.on m)) (if_neg hrest)

end

end Sys2Proof.Machine

/-! PROOFS. The commands that end jobs: CTX_TEARDOWN and QUEUE_RESET (R276, R334). -/

namespace Sys2Proof.Machine

/-! ### Launches refused -/

/-- Jobs, contexts and queues as they were. -/
def Mach.Keeps (m n : Mach) : Prop := n.jobs = m.jobs ∧ n.ctxs = m.ctxs ∧ ∀ p q, n.queue p q = m.queue p q

theorem Mach.Keeps.trans {m n p : Mach} (h : m.Keeps n) (k : n.Keeps p) : m.Keeps p :=
  ⟨k.1.trans h.1, k.2.1.trans h.2.1, fun i q => (k.2.2 i q).trans (h.2.2 i q)⟩

theorem Mach.keeps_refl (m : Mach) : m.Keeps m := ⟨rfl, rfl, fun _ _ => rfl⟩

theorem Mach.keeps_foldl {β : Type} {f : Mach → β → Mach} (hf : ∀ n x, Mach.Keeps n (f n x)) (l : List β) (m : Mach) : m.Keeps (l.foldl f m) :=
  List.foldlRecOn (motive := fun n : Mach => m.Keeps n) l f m.keeps_refl (fun n hn x _ => hn.trans (hf n x))

theorem Mach.modPart_keeps (m : Mach) (part : Nat) {f : Part → Part} (hf : ∀ p, (f p).queues = p.queues) : m.Keeps (m.modPart part f) :=
  ⟨rfl, rfl, (Mach.modPart_tidies 0 m part hf).queue⟩

theorem Mach.refuse_keeps (m : Mach) (now part : Nat) (l : Launch) (status : Nat) : m.Keeps (m.refuse now part l status) := by
  unfold Mach.refuse
  split
  · exact ⟨rfl, rfl, fun _ _ => rfl⟩
  · exact Mach.modPart_keeps m part (fun _ => rfl)
  · exact ⟨rfl, rfl, fun _ _ => rfl⟩
  · exact m.keeps_refl

/-! ### CTX_TEARDOWN (R334) -/

/-- A context that goes, and the launches of it that wait, returned. -/
def Mach.tearLaunches (m : Mach) (now part cx : Nat) : Mach :=
  let m := m.modCtx cx (fun c => { c with going := true })
  let gone := (m.part part).armed.filter (fun l => l.cx == cx) ++ (m.part part).held.filter (fun l => l.cx == cx)
  let m := m.modPart part (fun p => { p with armed := p.armed.filter (fun l => l.cx != cx), held := p.held.filter (fun l => l.cx != cx) })
  gone.foldl (fun m l => m.refuse now part l 0x125) m

theorem Mach.tearLaunches_leaves (m : Mach) (now part cx : Nat) :
    (m.tearLaunches now part cx).jobs = m.jobs ∧ ((m.tearLaunches now part cx).ctx cx).going = true := by
  unfold Mach.tearLaunches
  extract_lets n gone n'
  have h1 : n.Keeps n' := Mach.modPart_keeps n part (fun _ => rfl)
  obtain ⟨hj, hc, -⟩ := h1.trans (Mach.keeps_foldl (fun n l => n.refuse_keeps now part l 0x125) gone n')
  refine ⟨hj, ?_⟩
  rw [Mach.ctx_congr hc, Mach.ctx_modCtx, if_pos rfl]

/-- A job of a context that goes: a launch from the basket that has not begun to prime returns, any other job is killed. -/
def Mach.tearJob (now : Nat) (m : Mach) (j : Nat × Job) : Mach :=
  match j.2.phase, j.2.source with
  | .waiting, .basket _ => m.jobGone now j.1 0x125
  | _, _ => m.killJob now j.1

theorem Mach.tearJob_ends (now : Nat) (m : Mach) (j : Nat × Job) : m.Ends (Mach.tearJob now m j) j.1 := by
  unfold Mach.tearJob
  split
  · exact m.jobGone_ends ..
  · exact m.killJob_ends ..

/-- Every job of a context that goes. -/
def Mach.tearJobs (m : Mach) (now cx : Nat) : Mach := (m.jobs.filter (fun j => j.2.cx == cx && j.2.live)).foldl (Mach.tearJob now) m

/-- The invalidation of a context that goes: every translation of it (R381). -/
def Mach.tearInval (m : Mach) (id : Nat) : Inval := { id := id, cx := m.adminCx, all := true, va := 0, psz := 0, admin := some (m.arg 0, m.arg 1) }

section
variable {s : State}

theorem ctxTeardown_goes (hfit : s.mach.fitsMasks [0x3F]) (h : s.mach.ctxThere s.mach.adminCx = true) : ∃ p d,
    exec .ctxTeardown s = .next (s.on (({ (s.mach.tearLaunches s.now (s.mach.arg 0) s.mach.adminCx).tearJobs s.now s.mach.adminCx with
      pcs := p, dies := d } : Mach).startInval s.now s.mach.tearInval)) :=
  ⟨_, _, (exec_ctxTeardown s).trans (adminOp_goes (by decide) hfit (if_neg (by rw [Mach.adminCx] at h; simp [h])))⟩

/-- A torn-down context goes, its jobs have ended, its translations are being invalidated. -/
theorem ctx_torn_down (hfit : s.mach.fitsMasks [0x3F]) (h : s.mach.ctxThere s.mach.adminCx = true) : ∃ t, exec .ctxTeardown s = .next t ∧
    (t.mach.ctx s.mach.adminCx).going = true ∧
    ((skeys s.mach.jobs).Pairwise (· < ·) → ∀ k ∈ t.mach.jobs, k.2.cx = s.mach.adminCx → k.2.live = false) ∧
    ∃ v ∈ t.mach.invs, v.cx = s.mach.adminCx ∧ v.all = true ∧ v.admin = some (s.mach.arg 0, s.mach.arg 1) := by
  obtain ⟨p, d, hx⟩ := ctxTeardown_goes hfit h
  obtain ⟨hj, hgo⟩ := s.mach.tearLaunches_leaves s.now (s.mach.arg 0) s.mach.adminCx
  set n := s.mach.tearLaunches s.now (s.mach.arg 0) s.mach.adminCx
  have hends := Mach.foldl_ends (Mach.tearJob_ends s.now) (n.jobs.filter (fun j => j.2.cx == s.mach.adminCx && j.2.live)) n
  refine ⟨_, hx, ?_, fun w k hk hcx => ?_, ⟨_, Mach.startInval_invs .., rfl, rfl, rfl⟩⟩
  · obtain ⟨-, -, -, hg, -⟩ := hends
    rw [State.on, Mach.startInval_eq, Mach.tellSlices_retried]
    exact (hg _).trans hgo
  · rw [State.on, Mach.startInval_eq, Mach.tellSlices_retried] at hk
    have hall := Mach.foldl_ends_all (Mach.tearJob_ends s.now) n (fun j => j.cx == s.mach.adminCx && j.live) (hj ▸ w) k hk
    refine Bool.eq_false_iff.2 (fun hl => ?_)
    have hdead := hall (by simp [hcx, hl])
    simp [hl] at hdead

/-! ### QUEUE_RESET (R276) -/

/-- A queue that is reset, and the launches of it that wait, dropped. -/
def Mach.resetLaunches (m : Mach) (now part q : Nat) : Mach :=
  let drop := (m.queue part q).valid ++ ((m.part part).held ++ (m.part part).armed).filter (fun l => l.queue == q)
  let m := m.modPart part (fun p => { p with held := p.held.filter (fun l => l.queue != q), armed := p.armed.filter (fun l => l.queue != q) })
  let m := m.modQueue part q (fun x => { x with valid := [], resetting := true })
  drop.foldl (fun m l => match l.source with | .fork _ => m | _ => m.refuse now part l 3) m

theorem Mach.resetLaunches_leaves (m : Mach) (now part q : Nat) : (m.resetLaunches now part q).jobs = m.jobs ∧
    ((m.resetLaunches now part q).queue part q).valid = [] ∧ ((m.resetLaunches now part q).queue part q).resetting = true := by
  unfold Mach.resetLaunches
  extract_lets drop n n'
  have hdrop : n'.Keeps (drop.foldl (fun m l => match l.source with | .fork _ => m | _ => m.refuse now part l 3) n') := by
    refine Mach.keeps_foldl (fun n l => ?_) drop n'
    split
    · exact n.keeps_refl
    · exact n.refuse_keeps ..
  obtain ⟨hj, -, hq⟩ := hdrop
  have hn : n'.queue part q = { n.queue part q with valid := [], resetting := true } := by
    unfold n'
    rw [Mach.modQueue, Mach.queue, Mach.part_modPart, if_pos rfl]
    exact sget_sset_same ..
  exact ⟨hj, by rw [hq, hn], by rw [hq, hn]⟩

/-- A job of a queue that is reset: killed, its draft stores with it. -/
def Mach.resetJob (now : Nat) (m : Mach) (j : Nat × Job) : Mach :=
  (m.killJob now j.1).modCtx j.2.cx (fun c => { c with regions := c.regions.map (fun r => r.unstore m.homes j.1) })

theorem Mach.resetJob_ends (now : Nat) (m : Mach) (j : Nat × Job) : m.Ends (Mach.resetJob now m j) j.1 := by
  obtain ⟨h, hend⟩ := m.killJob_ends now j.1
  refine ⟨h.trans ?_, hend⟩
  exact Mach.modCtx_tidies _ _ _ (fun _ => rfl)

theorem queueReset_refused (hfit : s.mach.fitsMasks [0x3F]) (h : s.mach.arg 3 = 0) :
    exec .queueReset s = .next (s.on (s.mach.adminDone s.now (s.mach.arg 0) (s.mach.arg 1) 0x130 0)) :=
  (exec_queueReset s).trans (adminOp_done (by decide) hfit (if_pos (by simp [h])))

theorem queueReset_goes (hfit : s.mach.fitsMasks [0x3F]) (h : s.mach.arg 3 ≠ 0) :
    exec .queueReset s = .next (s.on ((((s.mach.resetLaunches s.now (s.mach.arg 0) (s.mach.arg 3)).jobs.filter (fun j =>
      j.2.live && j.2.onQueue (s.mach.arg 0) (s.mach.arg 3))).foldl (Mach.resetJob s.now)
        (s.mach.resetLaunches s.now (s.mach.arg 0) (s.mach.arg 3))).after s.now 0 .queueResetComplete [s.mach.arg 0, s.mach.arg 1, s.mach.arg 3])) :=
  (exec_queueReset s).trans (adminOp_goes (by decide) hfit (if_neg (by simp [h])))

/-- A queue that is reset holds no launch, its jobs have ended, and the completion is awaited. -/
theorem queue_reset (hfit : s.mach.fitsMasks [0x3F]) (h : s.mach.arg 3 ≠ 0) : ∃ t tick, exec .queueReset s = .next t ∧
    (t.mach.queue (s.mach.arg 0) (s.mach.arg 3)).valid = [] ∧ (t.mach.queue (s.mach.arg 0) (s.mach.arg 3)).resetting = true ∧
    ((skeys s.mach.jobs).Pairwise (· < ·) → ∀ k ∈ t.mach.jobs, k.2.onQueue (s.mach.arg 0) (s.mach.arg 3) = true → k.2.live = false) ∧
    (tick, .queueResetComplete, [s.mach.arg 0, s.mach.arg 1, s.mach.arg 3]) ∈ t.mach.agenda := by
  obtain ⟨hj, hv, hr⟩ := s.mach.resetLaunches_leaves s.now (s.mach.arg 0) (s.mach.arg 3)
  have hx := queueReset_goes hfit h
  set n := s.mach.resetLaunches s.now (s.mach.arg 0) (s.mach.arg 3)
  obtain ⟨-, -, -, -, hq⟩ := Mach.foldl_ends (Mach.resetJob_ends s.now) (n.jobs.filter (fun j =>
    j.2.live && j.2.onQueue (s.mach.arg 0) (s.mach.arg 3))) n
  refine ⟨_, _, hx, (congrArg Queue.valid (hq ..)).trans hv, (congrArg Queue.resetting (hq ..)).trans hr, fun w k hk hon => ?_, mem_agendaAdd ..⟩
  have hall := Mach.foldl_ends_all (Mach.resetJob_ends s.now) n (fun j => j.live && j.onQueue (s.mach.arg 0) (s.mach.arg 3)) (hj ▸ w) k hk
  refine Bool.eq_false_iff.2 (fun hl => ?_)
  have hdead := hall (by simp [hon, hl])
  simp [hl] at hdead

end

end Sys2Proof.Machine

/-! PROOFS. The admin commands together (O50). -/

namespace Sys2Proof.Machine

section
variable {s : State}

/-- CTX_CREATE: the context stands with its operands, and nothing of its number's last one (R28). -/
theorem ctx_created (hfit : s.mach.fitsMasks [0x13F, 2 ^ 64 - 1, 2 ^ 64 - 1, 2 ^ 64 - 1, 2 ^ 64 - 1, 2 ^ 64 - 1, 2 ^ 64 - 1])
    (h1 : s.mach.ctxThere s.mach.adminCx = false) (h2 : s.mach.ctxNamed s.mach.adminCx = false) (h3 : s.mach.arg 4 < 2 ^ 56)
    (h4 : fld (s.mach.arg 4) 1 13 = 0) :
    ∃ t, exec .ctxCreate s = .next t ∧ t.mach.Completes s.now (s.mach.arg 0) (s.mach.arg 1) 0 0 ∧
      (∃ r, t.mach.ctx s.mach.adminCx = { fixed := (s.mach.arg 3).testBit 8, root := s.mach.arg 4, rcb := s.mach.arg 5,
                                          ewgt := [s.mach.arg 6, s.mach.arg 7, s.mach.arg 8, s.mach.arg 9], rcbs := r }) ∧
      ∀ k, ccCx k = s.mach.adminCx → t.mach.cct k = {} := by
  obtain ⟨⟨r, hr⟩, hk⟩ := s.mach.createdCtx_bound
  rw [bitOf_eq_testBit] at hr
  exact ⟨_, ctxCreate_done hfit h1 h2 h3 h4, Mach.adminDone_completes .., ⟨r, hr⟩, hk⟩

/-- ENERGY_SET: the total, and every cluster's part of it (R361). -/
theorem energy_set (hfit : s.mach.fitsMasks [0x3F, 2 ^ 48 - 1]) (h : s.mach.ctxThere s.mach.adminCx = true) :
    ∃ t, exec .energySet s = .next t ∧ t.mach.Completes s.now (s.mach.arg 0) (s.mach.arg 1) 0 0 ∧
      (t.mach.ctx s.mach.adminCx).ecnt = s.mach.arg 4 ∧
      ∀ k ∈ skeys s.mach.ccs, ccCx k = s.mach.adminCx → (t.mach.cct k).ecnt = s.mach.arg 4 ∧ (t.mach.cct k).eclPj = 0 := by
  refine ⟨_, energySet_done hfit h, Mach.adminDone_completes .., ?_, fun k hk hc => ?_⟩
  · exact congrArg Context.ecnt (s.mach.ctx_withEnergy s.mach.adminCx (s.mach.arg 4))
  · have hcc := s.mach.cct_withEnergy (v := s.mach.arg 4) hk hc
    exact ⟨congrArg Cctx.ecnt hcc, congrArg Cctx.eclPj hcc⟩

/-- RCB_UPDATE: the region takes its new words at the next start, and keeps its words until then (R37). -/
theorem rcb_updated (hfit : s.mach.fitsMasks [2 ^ 64 - 1]) {c : Nat} {n : Mach} {l : List (Nat × List Nat)}
    (hheld : (s.mach.ctxsOf (s.mach.arg 0)).filter (fun c => (sget? (s.mach.ctx c).rcbs (s.mach.arg 3)).isSome && s.mach.rcbNamed c (s.mach.arg 3)) = [c])
    (hv : s.mach.validRcb c 8 (s.mach.arg 3) = some (n, l)) :
    ∃ t, exec .rcbUpdate s = .next t ∧ t.mach.Completes s.now (s.mach.arg 0) (s.mach.arg 1) 0 0 ∧
      (t.mach.rcbOf c (s.mach.arg 3)).next = some (l.headD (0, [])).2 ∧
      (t.mach.rcbOf c (s.mach.arg 3)).words = (s.mach.rcbOf c (s.mach.arg 3)).words := by
  have hctxs := (Mach.validRcb_walked 0 hv).ctxs
  have hmem : c ∈ (s.mach.ctxsOf (s.mach.arg 0)).filter (fun c => (sget? (s.mach.ctx c).rcbs (s.mach.arg 3)).isSome &&
      s.mach.rcbNamed c (s.mach.arg 3)) := hheld ▸ List.mem_singleton_self c
  have hsome : (sget? (n.ctx c).rcbs (s.mach.arg 3)).isSome = true := by
    rw [Mach.ctx_congr hctxs]
    exact (Bool.and_eq_true_iff.1 (List.mem_filter.1 hmem).2).1
  have hr := Mach.rcbOf_modRcb (f := fun r => { r with next := some (l.headD (0, [])).2 }) hsome
  have hold : n.rcbOf c (s.mach.arg 3) = s.mach.rcbOf c (s.mach.arg 3) := by rw [Mach.rcbOf, Mach.ctx_congr hctxs, Mach.rcbOf]
  rw [hold] at hr
  exact ⟨_, rcbUpdate_done hfit hheld hv, Mach.adminDone_completes .., congrArg Rcb.next hr, (congrArg Rcb.words hr :)⟩

/-- A partition that a command changed, once the command has completed. -/
theorem Mach.part_done (m : Mach) (now part pidx status value : Nat) (f : Part → Part) :
    ∃ q, ((m.modPart part f).adminDone now part pidx status value).part part = { f (m.part part) with queues := q } := by
  obtain ⟨q, hq⟩ := (m.modPart part f).adminDone_part now part pidx status value part
  rw [Mach.part_modPart, if_pos rfl] at hq
  exact ⟨q, hq⟩

/-- BASKET_SIZE (R331). -/
theorem basket_sized (hfit : s.mach.fitsMasks [0x7FF]) :
    ((s.mach.arg 3 = 0 ∨ 1024 < s.mach.arg 3 ∨ (s.mach.part (s.mach.arg 0)).basket ≠ []) →
      ∃ t, exec .basketSize s = .next t ∧ t.mach.Completes s.now (s.mach.arg 0) (s.mach.arg 1) 0x130 0 ∧
        (t.mach.part (s.mach.arg 0)).bsize = (s.mach.part (s.mach.arg 0)).bsize) ∧
    (1 ≤ s.mach.arg 3 → s.mach.arg 3 ≤ 1024 → (s.mach.part (s.mach.arg 0)).basket = [] →
      ∃ t, exec .basketSize s = .next t ∧ t.mach.Completes s.now (s.mach.arg 0) (s.mach.arg 1) 0 0 ∧
        (t.mach.part (s.mach.arg 0)).bsize = s.mach.arg 3) := by
  refine ⟨fun h => ⟨_, basketSize_refused hfit h, Mach.adminDone_completes .., ?_⟩,
    fun h1 h2 h3 => ⟨_, basketSize_done hfit h1 h2 h3, Mach.adminDone_completes .., ?_⟩⟩
  · obtain ⟨q, hq⟩ := s.mach.adminDone_part s.now (s.mach.arg 0) (s.mach.arg 1) 0x130 0 (s.mach.arg 0)
    exact (congrArg Part.bsize hq :)
  · obtain ⟨q, hq⟩ := s.mach.part_done s.now (s.mach.arg 0) (s.mach.arg 1) 0 0 (fun p => { p with bsize := s.mach.arg 3 })
    exact congrArg Part.bsize hq

/-- BASKET_PUT: the record stands READY in its slot (R331). -/
theorem basket_put (hfit : s.mach.fitsMasks [0x3FF, 2 ^ 64 - 1]) (h1 : s.mach.arg 3 < (s.mach.part (s.mach.arg 0)).bsize)
    (h2 : sget? (s.mach.part (s.mach.arg 0)).basket (s.mach.arg 3) = none) {n : Mach} {ws : List Nat}
    (h3 : s.mach.basketWords (s.mach.arg 0) (s.mach.arg 4) = some (n, ws)) :
    ∃ t b, exec .basketPut s = .next t ∧ t.mach.Completes s.now (s.mach.arg 0) (s.mach.arg 1) 0 0 ∧
      sget? (t.mach.part (s.mach.arg 0)).basket (s.mach.arg 3) = some b ∧ b.state = 0 ∧ ∀ i, i < 7 → b.words.getD i 0 = ws.getD i 0 := by
  refine ⟨_, putRecord ws, basketPut_done hfit h1 h2 h3, Mach.adminDone_completes .., ?_, rfl, fun i hi => ?_⟩
  · obtain ⟨q, hq⟩ := n.part_done s.now (s.mach.arg 0) (s.mach.arg 1) 0 0 (fun p => { p with basket := sset p.basket (s.mach.arg 3) (putRecord ws) })
    exact (congrArg (fun p : Part => sget? p.basket (s.mach.arg 3)) hq).trans ((sget?_sset ..).trans (if_pos rfl))
  · simp [putRecord, List.getD_eq_getElem?_getD, List.getElem?_set_ne (by omega : 7 ≠ i)]

/-- BASKET_DEL: a READY record goes, another stands (R331). -/
theorem basket_deleted (hfit : s.mach.fitsMasks [0x3FF]) {b : Basket} (hb : sget? (s.mach.part (s.mach.arg 0)).basket (s.mach.arg 3) = some b) :
    (b.state = 0 → ∃ t, exec .basketDel s = .next t ∧ t.mach.Completes s.now (s.mach.arg 0) (s.mach.arg 1) 0 0 ∧
      sget? (t.mach.part (s.mach.arg 0)).basket (s.mach.arg 3) = none) ∧
    (b.state ≠ 0 → ∃ t, exec .basketDel s = .next t ∧ t.mach.Completes s.now (s.mach.arg 0) (s.mach.arg 1) 0x130 0 ∧
      (t.mach.part (s.mach.arg 0)).basket = (s.mach.part (s.mach.arg 0)).basket) := by
  refine ⟨fun hs => ⟨_, basketDel_done hfit hb hs, Mach.adminDone_completes .., ?_⟩,
    fun hs => ⟨_, basketDel_refused hfit hb hs, Mach.adminDone_completes .., ?_⟩⟩
  · obtain ⟨q, hq⟩ := s.mach.part_done s.now (s.mach.arg 0) (s.mach.arg 1) 0 0 (fun p => { p with basket := sdel p.basket (s.mach.arg 3) })
    exact (congrArg (fun p : Part => sget? p.basket (s.mach.arg 3)) hq).trans ((sget?_sdel ..).trans (if_pos rfl))
  · obtain ⟨q, hq⟩ := s.mach.adminDone_part s.now (s.mach.arg 0) (s.mach.arg 1) 0x130 0 (s.mach.arg 0)
    exact (congrArg Part.basket hq :)

/-- HAMPER_SET: the area and its pages (R432). -/
theorem hamper_set (hfit : s.mach.fitsMasks [0x3F, 2 ^ 64 - 1, 2 ^ 64 - 1]) (h : s.mach.ctxThere s.mach.adminCx = true)
    (ha : s.mach.arg 4 % 65536 = 0)
    (hr : 2 ^ 25 * ((List.range 5).map (fun k => (s.mach.part (s.mach.arg 0)).lcount k * Config.clusterCount k)).sum ≤ s.mach.arg 5)
    {n : Mach} {pages : List Tlb}
    (hp : s.mach.areaPages s.mach.adminCx (s.mach.arg 4 + s.mach.arg 5) (s.mach.arg 5 / 4096 + 1) (s.mach.arg 4) = some (n, pages)) :
    ∃ t, exec .hamperSet s = .next t ∧ t.mach.Completes s.now (s.mach.arg 0) (s.mach.arg 1) 0 0 ∧
      (t.mach.ctx s.mach.adminCx).hamper = some (s.mach.arg 4, s.mach.arg 5) ∧ (t.mach.ctx s.mach.adminCx).hpages = pages := by
  have hctx := (n.ctx_modCtx s.mach.adminCx s.mach.adminCx (fun c => { c with hamper := some (s.mach.arg 4, s.mach.arg 5), hpages := pages })).trans
    (if_pos rfl)
  exact ⟨_, hamperSet_done hfit h ha hr hp, Mach.adminDone_completes .., congrArg Context.hamper hctx, congrArg Context.hpages hctx⟩

/-- A queue's reset is over: the complex reads the queue on, from its tail (R276). -/
theorem queue_reset_over (ha : ∀ a ∈ s.mach.atoms, a.mbox = none → ¬s.mach.resets (s.mach.arg 0) (s.mach.arg 2) a.job = true)
    (hc : ∀ c ∈ s.mach.copies, ¬s.mach.resets (s.mach.arg 0) (s.mach.arg 2) c.job = true)
    (hp : ∀ p ∈ s.mach.pend, ¬s.mach.resets (s.mach.arg 0) (s.mach.arg 2) p.job = true)
    (hs : ∀ x ∈ s.mach.streams, s.mach.resets (s.mach.arg 0) (s.mach.arg 2) x.2.job = true → x.2.sb = []) :
    ∃ t tick, exec .queueResetComplete s = .next t ∧ (t.mach.queue (s.mach.arg 0) (s.mach.arg 2)).resetting = false ∧
      (t.mach.queue (s.mach.arg 0) (s.mach.arg 2)).qhead = (s.mach.queue (s.mach.arg 0) (s.mach.arg 2)).qtail ∧
      t.mach.Completes s.now (s.mach.arg 0) (s.mach.arg 1) 0 0 ∧ (tick, .packetRead, [s.mach.arg 0, s.mach.arg 2]) ∈ t.mach.agenda := by
  set n := s.mach.modQueue (s.mach.arg 0) (s.mach.arg 2) (fun x => { x with resetting := false, qhead := x.qtail }) with hn
  have hq : (n.readOn s.now (s.mach.arg 0) (s.mach.arg 2)).queue (s.mach.arg 0) (s.mach.arg 2) =
      { s.mach.queue (s.mach.arg 0) (s.mach.arg 2) with resetting := false, qhead := (s.mach.queue (s.mach.arg 0) (s.mach.arg 2)).qtail } := by
    have h : (n.readOn s.now (s.mach.arg 0) (s.mach.arg 2)).queue (s.mach.arg 0) (s.mach.arg 2) = n.queue (s.mach.arg 0) (s.mach.arg 2) := rfl
    rw [h, hn, Mach.modQueue, Mach.queue, Mach.part_modPart, if_pos rfl]
    exact sget_sset_same ..
  obtain ⟨b, hb⟩ := (n.readOn s.now (s.mach.arg 0) (s.mach.arg 2)).adminDone_queue s.now (s.mach.arg 0) (s.mach.arg 1) 0 0 (s.mach.arg 0) (s.mach.arg 2)
  rw [hq] at hb
  exact ⟨_, _, queueReset_ends ha hc hp hs, congrArg Queue.resetting hb, congrArg Queue.qhead hb, Mach.adminDone_completes ..,
    mem_agendaAdd_of _ _ _ _ _ (mem_agendaAdd ..)⟩

/-- The last unit of a self-test (R370). -/
theorem test_over (h : s.mach.arg 4 = 0) : ∃ t got, exec .ifstUnitComplete s = .next t ∧
    (t.mach.pcl (testedPc (s.mach.arg 0) (s.mach.arg 2) (s.mach.arg 3))).testing = false ∧
    t.mach.Completes s.now (s.mach.arg 0) (s.mach.arg 1) 0 got := by
  obtain ⟨m, got, hx⟩ := ifstUnit_last h
  refine ⟨_, got, hx, ?_, Mach.adminDone_completes ..⟩
  have hp := (Mach.retryWaiting_retried (m.modPcl (testedPc (s.mach.arg 0) (s.mach.arg 2) (s.mach.arg 3)) (fun c => { c with testing := false })) s.now).pcs
  refine (congrArg (fun l : SMap PClu => (sget l _ {}).testing) hp).trans ?_
  exact m.testing_modPcl ..

/-- A self-test of a die: over at once where no unit is named, else begun on the first cluster that can be left (R370). -/
theorem test_begun (hfit : s.mach.fitsMasks [0x7FFFF]) (hk : fld (s.mach.arg 3) 0 3 < 5)
    (hd : dieKey (fld (s.mach.arg 3) 0 3) (fld (s.mach.arg 3) 3 3) ∈ s.mach.ownedDies (s.mach.arg 0))
    (hmask : fld (s.mach.arg 3) 6 12 < 2 ^ Config.clusterCount (fld (s.mach.arg 3) 0 3))
    (ha : (s.mach.arg 3).testBit 18 = true → fld (s.mach.arg 3) 0 3 = 0) :
    let units := ifstUnits (fld (s.mach.arg 3) 0 3) (fld (s.mach.arg 3) 6 12) ((s.mach.arg 3).testBit 18)
    (units = [] → ∃ t, exec .ifst s = .next t ∧ t.mach.Completes s.now (s.mach.arg 0) (s.mach.arg 1) 0 0) ∧
    ∀ u rest n, units = u :: rest →
      let pc := testedPc (s.mach.arg 0) (dieKey (fld (s.mach.arg 3) 0 3) (fld (s.mach.arg 3) 3 3)) u
      u % 2 = 0 → s.mach.vacate s.now pc = some n →
      ∃ t args, exec .ifst s = .next t ∧ (t.mach.pcl pc).testing = true ∧ (s.now + 150 * 1000 * 84, .ifstUnitComplete, args) ∈ t.mach.agenda := by
  intro units
  have hx := ifst_goes hfit hk hd hmask ha
  refine ⟨fun hu => ?_, fun u rest n hu heven hv => ?_⟩
  · rw [show ifstUnits _ _ _ = [] from hu] at hx
    exact ⟨_, hx, Mach.adminDone_completes ..⟩
  · rw [show ifstUnits _ _ _ = u :: rest from hu, Mach.ifstNext_cluster _ _ _ _ _ heven hv] at hx
    refine ⟨_, _, hx, ?_, mem_agendaAdd ..⟩
    exact n.testing_modPcl ..

end

/-- Settles O50: every admin command by the machine it leaves, and by its completion. -/
theorem adminCommands : Obligations.AdminCommands := by
  unfold Obligations.AdminCommands
  refine ⟨fun s => ⟨?_, ?_, ctx_torn_down, energy_set, fun hfit c n l => rcb_updated hfit, basket_sized, fun hfit h1 h2 n ws => basket_put hfit h1 h2,
    fun hfit b => basket_deleted hfit, ?_, ?_, ?_, ?_, ?_, ?_, ?_⟩, fun s => ⟨queue_reset_over, test_over⟩⟩
  · exact fun i masks hi h => ⟨_, admin_unfit hi h, Mach.adminDone_completes .., rfl, rfl, rfl⟩
  · refine fun hfit => ⟨fun h => ⟨_, ctxCreate_refused hfit h, Mach.adminDone_completes .., rfl⟩, fun h1 h2 h3 h4 => ?_⟩
    obtain ⟨t, hx, hdone, ⟨r, hr⟩, hk⟩ := ctx_created hfit h1 h2 h3 h4
    exact ⟨t, hx, hdone, congrArg Context.fixed hr, congrArg Context.root hr, congrArg Context.rcb hr, congrArg Context.ewgt hr,
      congrArg Context.going hr, congrArg Context.regions hr, hk⟩
  · refine fun hfit => ⟨fun hm => ?_, fun hm => ⟨fun h => ?_, fun h hi => ?_, fun h hi hc => ?_⟩⟩
    · exact ⟨_, powerCap_not_manager hfit hm, Mach.adminDone_completes .., rfl⟩
    · exact ⟨_, powerCap_below_floors hfit hm h, Mach.adminDone_completes .., rfl⟩
    · exact ⟨_, powerCap_below_idle hfit hm h hi, Mach.adminDone_completes .., rfl⟩
    · exact ⟨_, powerCap_done hfit hm h hi hc, Mach.adminDone_completes .., rfl⟩
  · exact fun hfit => ⟨fun h => ⟨_, queueReset_refused hfit h, Mach.adminDone_completes .., rfl⟩, queue_reset hfit⟩
  · exact fun hfit hk hd hmask ha => test_begun hfit hk hd hmask ha
  · exact fun hfit h ha => ⟨_, xinval_goes hfit h ha, _, Mach.startInval_invs .., rfl, bitOf_eq_testBit .., rfl, rfl, rfl⟩
  · exact fun hfit h ha => ⟨_, rangerSet_done hfit h ha, Mach.adminDone_completes .., s.mach.pool_withPool⟩
  · exact fun hfit h ha hr n pages => hamper_set hfit h ha hr
  · exact fun hfit h => ⟨_, _, partSwap_goes hfit h, s.mach.swap_modPart .., mem_agendaAdd ..⟩

end Sys2Proof.Machine

/-! PROOFS. Native scalar words: the fields that the encoder wrote are those that the decoder reads, so that each word decodes
back (R83 to R88, R325). -/

namespace Sys2Proof.Machine

/-! ### The fields of RRR and RRI words (R83, R88) -/

/-- A bit vector is what the number of its bits gives. -/
theorem ofNat_eq_of_toNat {n v : Nat} {x : BitVec n} (h : v = x.toNat) : BitVec.ofNat n v = x := by
  rw [h, BitVec.ofNat_toNat, BitVec.setWidth_eq]

section
variable {op sub md : Nat} (d a b : R)

theorem fld_rrr_op (ho : op < 64) (hs : sub < 32) (hm : md < 32) : fld (rrr op d a b sub md) 25 6 = op := by
  simp only [fld, rrr]; omega

theorem fld_rrr_sub (hs : sub < 32) (hm : md < 32) : fld (rrr op d a b sub md) 5 5 = sub := by
  simp only [fld, rrr]; omega

theorem fld_rrr_md (hm : md < 32) : fld (rrr op d a b sub md) 0 5 = md := by
  simp only [fld, rrr]; omega

theorem rf_rrr_d (hs : sub < 32) (hm : md < 32) : rf (rrr op d a b sub md) 20 = d :=
  ofNat_eq_of_toNat (by simp only [fld, rrr]; omega)

theorem rf_rrr_a (hs : sub < 32) (hm : md < 32) : rf (rrr op d a b sub md) 15 = a :=
  ofNat_eq_of_toNat (by simp only [fld, rrr]; omega)

theorem rf_rrr_b (hs : sub < 32) (hm : md < 32) : rf (rrr op d a b sub md) 10 = b :=
  ofNat_eq_of_toNat (by simp only [fld, rrr]; omega)

variable {i : Nat}

theorem fld_rri_op (ho : op < 64) (hi : i < 2 ^ 15) : fld (rri op d a i) 25 6 = op := by
  simp only [fld, rri]; omega

theorem rf_rri_d (hi : i < 2 ^ 15) : rf (rri op d a i) 20 = d := ofNat_eq_of_toNat (by simp only [fld, rri]; omega)

theorem rf_rri_a (hi : i < 2 ^ 15) : rf (rri op d a i) 15 = a := ofNat_eq_of_toNat (by simp only [fld, rri]; omega)

theorem imm_rri (x : BitVec 15) : BitVec.ofNat 15 (fld (rri op d a x.toNat) 0 15) = x :=
  ofNat_eq_of_toNat (by simp only [fld, rri]; omega)

/-- A move's twenty bits of immediate reach into the field of `sa`, which is then 0. -/
theorem fld_rri_op_imm20 (ho : op < 64) (x : BitVec 20) : fld (rri op d 0 x.toNat) 25 6 = op := by
  simp only [fld, rri, BitVec.ofNat_eq_ofNat, BitVec.toNat_ofNat]; omega

theorem rf_rri_d_imm20 (x : BitVec 20) : rf (rri op d 0 x.toNat) 20 = d :=
  ofNat_eq_of_toNat (by simp only [fld, rri, BitVec.ofNat_eq_ofNat, BitVec.toNat_ofNat]; omega)

theorem imm20_rri (x : BitVec 20) : BitVec.ofNat 20 (fld (rri op d 0 x.toNat) 0 20) = x :=
  ofNat_eq_of_toNat (by simp only [fld, rri, BitVec.ofNat_eq_ofNat, BitVec.toNat_ofNat]; omega)

theorem width_rri (w : Width) (o : BitVec 12) : fld (rri op d a (w.code * 2 ^ 12 + o.toNat)) 12 3 = w.code := by
  have := Laws.Encoded.width_lt w
  simp only [fld, rri]; omega

theorem offset_rri (w : Width) (o : BitVec 12) : BitVec.ofNat 12 (fld (rri op d a (w.code * 2 ^ 12 + o.toNat)) 0 12) = o :=
  ofNat_eq_of_toNat (by simp only [fld, rri]; omega)

end

/-! ### Codes (R42, R85, R87, R88) -/

@[simp] theorem Width.ofCode_code (w : Width) : Width.ofCode w.code = some w := by cases w <;> rfl
@[simp] theorem Cond.ofCode_code (z : Cond) : Cond.ofCode z.code = some z := by cases z <;> rfl
@[simp] theorem Cls.ofCode_code (z : Cls) : Cls.ofCode z.code = some z := by cases z <;> rfl
@[simp] theorem AOp.ofCode_code (z : AOp) : AOp.ofCode z.code = some z := by cases z <;> rfl
@[simp] theorem PhMode.ofCode_code (z : PhMode) : PhMode.ofCode z.code = some z := by cases z <;> rfl
@[simp] theorem Scope.ofCode_code (z : Scope) : Scope.ofCode z.code = z := by cases z <;> rfl

/-! ### Words by their formats -/

theorem checked_of_wf {i : Instr} (h : i.wf = true) : checked i = .ok i := by rw [checked, h]; rfl

theorem decMem_rri (mk : Width → R → R → BitVec 12 → Instr) (op : Nat) (w : Width) (d a : R) (o : BitVec 12) :
    decMem mk (rri op d a (w.code * 2 ^ 12 + o.toNat)) = .ok (mk w d a o) := by
  have hi : w.code * 2 ^ 12 + o.toNat < 2 ^ 15 := by have := Laws.Encoded.width_lt w; omega
  rw [decMem, width_rri, Width.ofCode_code]
  show Except.ok _ = _
  rw [rf_rri_d d a hi, rf_rri_a d a hi, offset_rri]

/-- The RRR groups that a ranger's stream decodes, with their opcodes (R87, R415). -/
inductive RrrGroup : Nat → (R → R → R → Nat → Nat → Dec) → Prop
  | alu : RrrGroup 0x01 decAlu
  | mul : RrrGroup 0x02 decMul
  | amo : RrrGroup 0x13 decAmo
  | red : RrrGroup 0x14 decRed
  | sc : RrrGroup 0x15 decSc
  | fence : RrrGroup 0x16 decFence
  | ph : RrrGroup 0x17 decPh
  | cpy : RrrGroup 0x18 decCpy
  | sys : RrrGroup 0x19 decSys
  | stream : RrrGroup 0x1A decStream
  | basket : RrrGroup 0x1B decBasket
  | dict : RrrGroup 0x1C decDict
  | frozen : RrrGroup 0x1D decFrozen

/-- A word of an RRR group is what the group's decoder makes of its fields. -/
theorem decodeScalar_of_group {op w : Nat} {g : R → R → R → Nat → Nat → Dec} (hg : RrrGroup op g) (hw : fld w 25 6 = op) :
    decodeScalar true w = g (rf w 20) (rf w 15) (rf w 10) (fld w 5 5) (fld w 0 5) := by
  cases hg <;> simp only [decodeScalar, hw, if_true]

theorem decodeScalar_rrr {op sub md : Nat} {g : R → R → R → Nat → Nat → Dec} {d a b : R} (hg : RrrGroup op g) (hs : sub < 32)
    (hm : md < 32) :
    decodeScalar true (rrr op d a b sub md) = g d a b sub md := by
  have ho : op < 64 := by cases hg <;> decide
  rw [decodeScalar_of_group hg (fld_rrr_op d a b ho hs hm), rf_rrr_d d a b hs hm, rf_rrr_a d a b hs hm, rf_rrr_b d a b hs hm,
    fld_rrr_sub d a b hs hm, fld_rrr_md d a b hm]

/-! ### Branches and jumps (R325, R326) -/

/-- A branch word is an RRI word whose immediate holds the condition, the annulment and the low bits of the offset (R325). -/
theorem brw_eq_rri (a b : R) (cc null : Nat) (o : BitVec 11) :
    brw a b cc null o = rri (0x20 + o.toNat / 2 ^ 10) a b (cc * 2 ^ 12 + null * 2 ^ 10 + o.toNat % 2 ^ 10) := by
  simp only [brw, rri]; omega

section
variable {a b : R} {cc null : Nat} (o : BitVec 11)

theorem brw_imm_lt (hc : cc < 8) (hn : null < 4) : cc * 2 ^ 12 + null * 2 ^ 10 + o.toNat % 2 ^ 10 < 2 ^ 15 := by omega

theorem fld_brw_op (hc : cc < 8) (hn : null < 4) : fld (brw a b cc null o) 25 6 = 0x20 + o.toNat / 2 ^ 10 := by
  rw [brw_eq_rri, fld_rri_op a b (by omega) (brw_imm_lt o hc hn)]

theorem rf_brw_a (hc : cc < 8) (hn : null < 4) : rf (brw a b cc null o) 20 = a := by rw [brw_eq_rri, rf_rri_d a b (brw_imm_lt o hc hn)]

theorem rf_brw_b (hc : cc < 8) (hn : null < 4) : rf (brw a b cc null o) 15 = b := by rw [brw_eq_rri, rf_rri_a a b (brw_imm_lt o hc hn)]

theorem fld_brw_cond (hc : cc < 8) (hn : null < 4) : fld (brw a b cc null o) 12 3 = cc := by simp only [fld, brw]; omega

theorem fld_brw_null (hn : null < 4) : fld (brw a b cc null o) 10 2 = null := by simp only [fld, brw]; omega

theorem fld_brw_offset (hc : cc < 8) (hn : null < 4) : fld (brw a b cc null o) 25 1 * 2 ^ 10 + fld (brw a b cc null o) 0 10 = o.toNat := by
  have h : fld (brw a b cc null o) 25 1 = fld (brw a b cc null o) 25 6 % 2 := by simp only [fld]; omega
  have h0 : fld (brw a b cc null o) 0 10 = o.toNat % 2 ^ 10 := by simp only [fld, brw]; omega
  rw [h, h0, fld_brw_op o hc hn]; omega

end

/-- What a branch word decodes to, from its fields (R325). -/
theorem decBr_eq {w : Nat} {a b : R} {z : Cond} {o : BitVec 11} (hz : fld w 12 3 = z.code) (ha : rf w 20 = a) (hb : rf w 15 = b)
    (ho : fld w 25 1 * 2 ^ 10 + fld w 0 10 = o.toNat) :
    (fld w 10 2 = 0 → decBr w = checked (.brCc z a b o)) ∧ (fld w 10 2 = 1 → decBr w = checked (.brCcNn z a b o)) ∧
    (fld w 10 2 = 2 → decBr w = checked (.brCcNt z a b o)) := by
  have ho : BitVec.ofNat 11 (fld w 25 1 * 2 ^ 10 + fld w 0 10) = o := ofNat_eq_of_toNat ho
  refine ⟨?_, ?_, ?_⟩ <;> intro hn <;> simp only [decBr, hz, ha, hb, ho, hn, Cond.ofCode_code]

theorem decBr_brw (a b : R) (z : Cond) {null : Nat} (o : BitVec 11) (hn : null < 4) :
    (null = 0 → decBr (brw a b z.code null o) = checked (.brCc z a b o)) ∧
    (null = 1 → decBr (brw a b z.code null o) = checked (.brCcNn z a b o)) ∧
    (null = 2 → decBr (brw a b z.code null o) = checked (.brCcNt z a b o)) := by
  have hz := Laws.Encoded.cond_lt z
  have h := decBr_eq (fld_brw_cond (a := a) (b := b) o hz hn) (rf_brw_a o hz hn) (rf_brw_b o hz hn) (fld_brw_offset o hz hn)
  rwa [fld_brw_null o hn] at h

/-- What a jump's word decodes to, from its fields (R326). -/
theorem decodeScalar_jump {r : Bool} {w : Nat} {o : BitVec 25} (ho : fld w 0 25 = o.toNat) :
    (fld w 25 6 = 0x22 → decodeScalar r w = .ok (.j o)) ∧ (fld w 25 6 = 0x23 → decodeScalar r w = .ok (.jl o)) := by
  refine ⟨?_, ?_⟩ <;> intro hw <;> simp only [decodeScalar, hw, ofNat_eq_of_toNat ho]

/-! ### Every native scalar word -/

/-- The modifier of a dictionary word holds its class above its bank (R87). -/
theorem bank_div (k : Cls) (n : BitVec 2) : (k.code * 4 + n.toNat) / 4 = k.code := by omega
theorem bank_low (k : Cls) (n : BitVec 2) : BitVec.ofNat 2 (k.code * 4 + n.toNat) = n :=
  BitVec.eq_of_toNat_eq (by rw [BitVec.toNat_ofNat]; omega)

/-- A native scalar word of an instruction, with neither the dictionary's bit nor the opcode of a LONG word (R81, R82): it is the instruction's whole
encoding, and a ranger's stream, which decodes every group (R415), reads the instruction from it. -/
structure NativeOf (w : Nat) (i : Instr) : Prop where
  encodes : encode i = [w]
  opcode : w / 2 ^ 25 < 0x3E
  decodes : decodeScalar true w = .ok i

theorem nativeOf_rrr {op sub md : Nat} {g : R → R → R → Nat → Nat → Dec} {d a b : R} {i : Instr} (he : encode i = [rrr op d a b sub md])
    (hg : RrrGroup op g) (hs : sub < 32) (hm : md < 32) (h : g d a b sub md = .ok i) : NativeOf (rrr op d a b sub md) i where
  encodes := he
  opcode := by
    have ho : op < 0x3E := by cases hg <;> decide
    simp only [rrr]; omega
  decodes := (decodeScalar_rrr hg hs hm).trans h

theorem nativeOf_brw {a b : R} {z : Cond} {null : Nat} {o : BitVec 11} {i : Instr} (he : encode i = [brw a b z.code null o]) (hn : null < 4)
    (h : decBr (brw a b z.code null o) = .ok i) : NativeOf (brw a b z.code null o) i := by
  have hz := Laws.Encoded.cond_lt z
  have ho := fld_brw_op (a := a) (b := b) o hz hn
  refine ⟨he, by simp only [brw]; omega, ?_⟩
  rw [← h]
  obtain hp | hp : o.toNat / 2 ^ 10 = 0 ∨ o.toNat / 2 ^ 10 = 1 := by omega
  all_goals rw [hp] at ho; simp only [decodeScalar, ho]

theorem nativeOf_rri {op i : Nat} {d a : R} {x : Instr} (he : encode x = [rri op d a i]) (ho : op < 0x3E) (hi : i < 2 ^ 15)
    (h : decodeScalar true (rri op d a i) = .ok x) : NativeOf (rri op d a i) x := ⟨he, by simp only [rri]; omega, h⟩

/-- What a well-formed instruction's native scalar word is (R86). -/
theorem nativeOf_encodeScalar {i : Instr} {w : Nat} (hw : i.wf = true) (h : encodeScalar i = some w) : NativeOf w i := by
  cases i <;> cases h
  case add | sub | and | or | xor | andn | shl | shr | sar | min | max | minn | maxn | sel | clz | popc =>
    exact nativeOf_rrr rfl .alu (by decide) (by decide) rfl
  case cmpCc z d a b =>
    refine nativeOf_rrr rfl .alu (by decide) (Nat.lt_trans (Laws.Encoded.cond_lt z) (by decide)) ?_
    simp only [decAlu, Cond.ofCode_code, checked_of_wf hw]
  case mul | mulh | mulhn | div | divn | rem | remn => exact nativeOf_rrr rfl .mul (by decide) (by decide) rfl
  case addi d a i | andi d a i | ori d a i | xori d a i | shli d a i | shri d a i | sari d a i =>
    refine nativeOf_rri rfl (by decide) i.isLt ?_
    simp (disch := omega) only [decodeScalar, fld_rri_op, rf_rri_d, rf_rri_a, imm_rri]
  case movi d i | movh d i =>
    refine ⟨rfl, by simp only [rri, BitVec.ofNat_eq_ofNat, BitVec.toNat_ofNat]; omega, ?_⟩
    simp (disch := omega) only [decodeScalar, fld_rri_op_imm20, rf_rri_d_imm20, imm20_rri]
  case ld z d a o | ldAcq z d a o | st z d a o | stRel z d a o =>
    have hi : z.code * 2 ^ 12 + o.toNat < 2 ^ 15 := by have := Laws.Encoded.width_lt z; omega
    refine nativeOf_rri rfl (by decide) hi ?_
    simp (disch := omega) only [decodeScalar, fld_rri_op, decMem_rri]
  case mfc d c | mtc c a =>
    refine nativeOf_rri rfl (by decide) c.isLt ?_
    simp (disch := omega) only [decodeScalar, fld_rri_op, rf_rri_d, rf_rri_a, imm_rri]
    rfl
  case amo op z d a b =>
    refine nativeOf_rrr rfl .amo (Nat.lt_trans (Laws.Encoded.aop_lt op) (by decide)) (Nat.lt_trans (Laws.Encoded.b2n_lt z) (by decide)) ?_
    simp only [decAmo, AOp.ofCode_code]
    cases z <;> rfl
  case red op z a b =>
    refine nativeOf_rrr rfl .red (Nat.lt_trans (Laws.Encoded.aop_lt op) (by decide)) (Nat.lt_trans (Laws.Encoded.b2n_lt z) (by decide)) ?_
    simp only [decRed, AOp.ofCode_code]
    cases z <;> exact checked_of_wf hw
  case scLd z d a | scSt z a b => exact nativeOf_rrr rfl .sc (by decide) (Nat.lt_trans (Laws.Encoded.b2n_lt z) (by decide)) (by cases z <;> rfl)
  case scAmo op z d a b =>
    have := Laws.Encoded.aop_lt op
    have := Laws.Encoded.b2n_lt z
    refine nativeOf_rrr rfl .sc (by decide) (by omega) ?_
    cases z <;> cases op <;> rfl
  case fence z => exact nativeOf_rrr rfl .fence (by decide) (Laws.Encoded.scope_lt z) (by cases z <;> rfl)
  case publ | pubreg => exact nativeOf_rrr rfl .fence (by decide) (by decide) rfl
  case phreg m d a => exact nativeOf_rrr rfl .ph (by decide) (Laws.Encoded.phMode_lt m) (by cases m <;> rfl)
  case phdropProxy d a b =>
    refine nativeOf_rrr rfl .ph (by decide) (by decide) ?_
    have hb : b ≠ 0 := bne_iff_ne.1 hw
    exact if_neg (by simpa using hb)
  case phdrop | phsig | phwait | phsw | phsigp | phq => exact nativeOf_rrr rfl .ph (by decide) (by decide) rfl
  case cpy | cpy2d | cpyprom | gemb => exact nativeOf_rrr rfl .cpy (by decide) (by decide) rfl
  case trap c =>
    refine nativeOf_rrr rfl .sys (by decide) c.isLt ?_
    simp only [decSys, BitVec.ofNat_toNat, BitVec.setWidth_eq]
    rfl
  case nop | halt | cyc | ptime | waitt | tfence | yield => exact nativeOf_rrr rfl .sys (by decide) (by decide) rfl
  case fork | rdv | tstart | tstop | trebase | tstat | tokset => exact nativeOf_rrr rfl .stream (by decide) (by decide) rfl
  case lpatch | larm | lstat => exact nativeOf_rrr rfl .basket (by decide) (by decide) rfl
  case dfence => exact nativeOf_rrr rfl .dict (by decide) (by decide) rfl
  case dld k n d a b | drd k n d a b =>
    have hk := Laws.Encoded.cls_lt k
    refine nativeOf_rrr rfl .dict (by decide) (by omega) ?_
    simp only [decDict, bank_div, Cls.ofCode_code, bank_low]
  case dsw k n | dinv k n a =>
    have hk := Laws.Encoded.cls_lt k
    refine nativeOf_rrr rfl .dict (by decide) (by omega) ?_
    simp only [decDict, bank_div, Cls.ofCode_code, bank_low]
    rfl
  case frd | frdv | fwr | fwrv | ftab | fstat | fresume | fstep | fkill => exact nativeOf_rrr rfl .frozen (by decide) (by decide) rfl
  case brCc z a b o => exact nativeOf_brw rfl (by decide) (((decBr_brw a b z o (by decide)).1 rfl).trans (checked_of_wf hw))
  case brCcNn z a b o => exact nativeOf_brw rfl (by decide) (((decBr_brw a b z o (by decide)).2.1 rfl).trans (checked_of_wf hw))
  case brCcNt z a b o => exact nativeOf_brw rfl (by decide) (((decBr_brw a b z o (by decide)).2.2 rfl).trans (checked_of_wf hw))
  case j o => exact ⟨rfl, by omega, (decodeScalar_jump (by simp only [fld]; omega)).1 (by simp only [fld]; omega)⟩
  case jl o => exact ⟨rfl, by omega, (decodeScalar_jump (by simp only [fld]; omega)).2 (by simp only [fld]; omega)⟩
  case jr a | jlr d a =>
    refine ⟨rfl, by simp only [rrr]; omega, ?_⟩
    simp (disch := decide) only [decodeScalar, fld_rrr_op, fld_rrr_sub, fld_rrr_md, rf_rrr_a, rf_rrr_b, rf_rrr_d]
    rfl
end Sys2Proof.Machine

/-! PROOFS. Micro-orders: their native words and long forms (R89 to R99). -/

namespace Sys2Proof.Machine

/-! ### The fields of a native micro-order (R89) -/

/-- The fields of a native word are the micro-order's. -/
theorem micro_of_encMicro (op : Nat) {m : Micro} (hl : m.long = none) :
    ({ delay := BitVec.ofNat 4 (fld (encMicro op m) 21 4), dest := BitVec.ofNat 7 (fld (encMicro op m) 14 7),
       srcA := BitVec.ofNat 7 (fld (encMicro op m) 7 7), srcB := BitVec.ofNat 7 (fld (encMicro op m) 0 7) } : Micro) = m := by
  obtain ⟨delay, dest, srcA, srcB, long⟩ := m
  cases hl
  rw [Micro.mk.injEq]
  refine ⟨?_, ?_, ?_, ?_, rfl⟩ <;> exact ofNat_eq_of_toNat (by simp only [fld, encMicro]; omega)

theorem encMicro_div (op : Nat) (m : Micro) : encMicro op m / 2 ^ 25 = op := by simp only [encMicro]; omega

/-! ### The fields of a long form (R92, R95) -/

/-- The token fields stand in the low seventeen bits of a form, whatever stands above them. -/
theorem decTok_encTok (x : Nat) (t : Tok) : decTok (x * 2 ^ 17 + encTok t) = t := by
  obtain ⟨we, wf, se, sf, pe, pt⟩ := t
  have bit (n : Nat) (b : Bool) (h : n % 2 = b2n b) : (n % 2 == 1) = b := by rw [h]; cases b <;> rfl
  simp only [decTok, Tok.mk.injEq, fld, bitOf, encTok, eb]
  have := Laws.Encoded.b2n_lt we
  have := Laws.Encoded.b2n_lt se
  have := Laws.Encoded.b2n_lt pe
  exact ⟨bit _ _ (by omega), ofNat_eq_of_toNat (by omega), bit _ _ (by omega), ofNat_eq_of_toNat (by omega),
    bit _ _ (by omega), ofNat_eq_of_toNat (by omega)⟩


theorem encTok_low (t : Tok) : fld (encTok t) 0 2 = 0 := by simp only [fld, encTok, eb]; omega

/-- The operands that a form's fields give. -/
def formMicro (delay : BitVec 4) (f : Nat) : Micro :=
  { delay := delay, dest := BitVec.ofNat 7 (fld f 49 7), srcA := BitVec.ofNat 7 (fld f 42 7), srcB := BitVec.ofNat 7 (fld f 35 7),
    long := some { srcC := BitVec.ofNat 7 (fld f 28 7), type := BitVec.ofNat 5 (fld f 23 5), mask := BitVec.ofNat 3 (fld f 20 3),
                   rnd := BitVec.ofNat 3 (fld f 17 3), tok := decTok f } }

/-- A form of the class's map that is not TCFG's is the micro-order of its fields. -/
theorem decodeEngForm_eq {k : Cls} {f : Nat} {mk : Micro → Instr} (delay : BitVec 4) (ht : ¬(k = .matrix ∧ fld f 56 8 = 0x40))
    (hm : engOp k (fld f 56 8) (fld f 42 7) = some mk) :
    decodeEngForm k delay f = need (fld f 0 2 == 0 && (mk (formMicro delay f)).wf) (mk (formMicro delay f)) := by
  simp only [decodeEngForm, hm]
  rw [if_neg (by simpa using ht)]
  rfl

section
variable {op : Nat} {m : Micro} {t : Tail}

theorem encForm_tok : ∃ x, encForm op m t = x * 2 ^ 17 + encTok t.tok := by
  refine ⟨op * 2 ^ 39 + m.dest.toNat * 2 ^ 32 + m.srcA.toNat * 2 ^ 25 + m.srcB.toNat * 2 ^ 18 + t.srcC.toNat * 2 ^ 11 + t.type.toNat * 2 ^ 6
    + t.mask.toNat * 2 ^ 3 + t.rnd.toNat, ?_⟩
  simp only [encForm]; omega

theorem fld_encForm_op (ho : op < 256) : fld (encForm op m t) 56 8 = op := by
  have := Laws.Encoded.encTok_lt t.tok
  simp only [fld, encForm]; omega

theorem fld_encForm_srcA : fld (encForm op m t) 42 7 = m.srcA.toNat := by
  have := Laws.Encoded.encTok_lt t.tok
  simp only [fld, encForm]; omega

theorem fld_encForm_zero : fld (encForm op m t) 0 2 = 0 := by
  have := encTok_low t.tok
  simp only [fld, encForm] at *; omega

theorem formMicro_encForm (hl : m.long = some t) : formMicro m.delay (encForm op m t) = m := by
  have ht : decTok (encForm op m t) = t.tok := by
    obtain ⟨x, hx⟩ := encForm_tok (op := op) (m := m) (t := t)
    rw [hx, decTok_encTok]
  obtain ⟨delay, dest, srcA, srcB, long⟩ := m
  obtain ⟨srcC, type, mask, rnd, tok⟩ := t
  cases hl
  have := Laws.Encoded.encTok_lt tok
  simp only [formMicro, Micro.mk.injEq, Option.some.injEq, Tail.mk.injEq, true_and]
  refine ⟨?_, ?_, ?_, ?_, ?_, ?_, ?_, ht⟩ <;> exact ofNat_eq_of_toNat (by simp only [fld, encForm]; omega)

end

/-! ### LONG words (R81, R91) -/

/-- The body words of a form give it back. -/
theorem form_of_words {f : Nat} (hf : f < 2 ^ 64) : f / 2 ^ 32 % 2 ^ 32 * 2 ^ 32 + f % 2 ^ 32 % 2 ^ 32 = f := by omega

section
variable (delay : BitVec 4)

theorem not_bitOf_long : bitOf (0x3E * 2 ^ 25 + delay.toNat * 2 ^ 21) 31 = false := by
  simp only [bitOf, beq_eq_false_iff_ne]; omega

theorem isLong_long : isLong (0x3E * 2 ^ 25 + delay.toNat * 2 ^ 21) = true := by
  simp only [isLong, fld, beq_iff_eq]; omega

/-- A LONG word and its body words decode to the engine form that they carry. -/
theorem decodeWord_engine_long {k : Cls} (hk : k ≠ .scalar) (r : Bool) {f : Nat} (hf : f < 2 ^ 64) :
    decodeWord k r (0x3E * 2 ^ 25 + delay.toNat * 2 ^ 21) (f % 2 ^ 32) (f / 2 ^ 32) = .ok (.engineLongForm delay (BitVec.ofNat 64 f)) := by
  have hz : fld (0x3E * 2 ^ 25 + delay.toNat * 2 ^ 21) 0 21 = 0 := by simp only [fld]; omega
  have hd : BitVec.ofNat 4 (fld (0x3E * 2 ^ 25 + delay.toNat * 2 ^ 21) 21 4) = delay := ofNat_eq_of_toNat (by simp only [fld]; omega)
  have hb := not_bitOf_long delay
  have hl := isLong_long delay
  generalize 0x3E * 2 ^ 25 + delay.toNat * 2 ^ 21 = w at *
  simp only [decodeWord, hb, hl, decodeLong, form_of_words hf, hz, hd]
  cases k with
  | scalar => exact absurd rfl hk
  | _ => rfl

theorem decodeWord_scalar_long (r : Bool) {f : Nat} (hf : f < 2 ^ 64) :
    decodeWord .scalar r (0x3E * 2 ^ 25) (f % 2 ^ 32) (f / 2 ^ 32) = .ok (.scalarLongForm (BitVec.ofNat 64 f)) := by
  have hb : bitOf (0x3E * 2 ^ 25) 31 = false := by decide
  have hl : isLong (0x3E * 2 ^ 25) = true := by decide
  have hz : fld (0x3E * 2 ^ 25) 0 25 = 0 := by decide
  generalize 0x3E * 2 ^ 25 = w at *
  rw [decodeWord, hb, hl, decodeLong, form_of_words hf, hz]
  rfl

end

/-! ### Words that are neither LONG nor the dictionary's -/

section
variable {w : Nat} (h : w / 2 ^ 25 < 0x3E) (r : Bool) (w1 w2 : Nat)
include h

theorem not_bitOf_of_opcode : bitOf w 31 = false := by simp only [bitOf, beq_eq_false_iff_ne]; omega
theorem not_isLong_of_opcode : isLong w = false := by simp only [isLong, fld, beq_eq_false_iff_ne]; omega

theorem decodeWord_scalar : decodeWord .scalar r w w1 w2 = decodeScalar r w := by
  rw [decodeWord, not_bitOf_of_opcode h, not_isLong_of_opcode h]; rfl

theorem decodeWord_engine {k : Cls} (hk : k ≠ .scalar) : decodeWord k r w w1 w2 = decodeMicro k w := by
  simp only [decodeWord, not_bitOf_of_opcode h, not_isLong_of_opcode h]
  cases k with
  | scalar => exact absurd rfl hk
  | _ => rfl

end

/-! ### The maps of the engine classes (R97 to R99) -/

/-- What fits a native form has no long one. -/
theorem fits_native {m : Micro} {nat : Option Shape} {lng : Shape} (hf : m.fits nat lng = true) (hl : m.long = none) : nat.isSome = true := by
  cases nat with
  | some _ => rfl
  | none => simp [Micro.fits, hl] at hf

/-- Only the two forms of ACCRD share an opcode: bit 4 of their index tells them apart (R240). -/
theorem accrd_index {m : Micro} (hw : (Instr.accrd m).wf = true) : m.srcA.toNat < 16 := by
  have hf : m.fits none { d := .acc, a := .rng 0 15, b := .any, c := .any } = true := hw
  cases hl : m.long with
  | none => exact absurd (fits_native hf hl) (by decide)
  | some t =>
    simp only [Micro.fits, hl, Use.ok, Bool.and_eq_true, decide_eq_true_eq] at hf
    omega

theorem accrdIn_index {m : Micro} (hw : (Instr.accrdIn m).wf = true) : 16 ≤ m.srcA.toNat ∧ m.srcA.toNat < 32 := by
  have hf : m.fits none { d := .acc, a := .rng 16 31, b := .any, c := .any } = true := hw
  cases hl : m.long with
  | none => exact absurd (fits_native hf hl) (by decide)
  | some t =>
    simp only [Micro.fits, hl, Use.ok, Bool.and_eq_true, decide_eq_true_eq] at hf
    omega

/-- A micro-order's row in the map of its class: an engine's, other than TCFG's; its words; its place in the map; and that its opcode is a native one
where it stands in one word. -/
structure MicroRow (i : Instr) (k : Cls) (op : Nat) (m : Micro) : Prop where
  place : k ≠ .scalar ∧ op ≤ 0x48 ∧ ¬(k = .matrix ∧ op = 0x40)
  encodes : encode i = Laws.Encoded.microWords op m
  listed : ∃ mk, engOp k op m.srcA.toNat = some mk ∧ mk m = i
  native : m.long = none → op < 0x3E

theorem microRow_of_microOf {i : Instr} {k : Cls} {op : Nat} {m : Micro} (hw : i.wf = true) (h : microOf i = some (k, op, m)) :
    MicroRow i k op m := by
  cases i <;> cases h
  case accrd =>
    have := accrd_index hw
    exact ⟨by decide, rfl, ⟨.accrd, if_neg (by simp; omega), rfl⟩, fun hl => absurd (fits_native (nat := none) hw hl) (by decide)⟩
  case accrdIn =>
    have := accrdIn_index hw
    exact ⟨by decide, rfl, ⟨.accrdIn, if_pos (by simp; omega), rfl⟩, fun hl => absurd (fits_native (nat := none) hw hl) (by decide)⟩
  case vld | vst | vlds | vgath | vscat | vcvtSr | vmoment | vnormapply | vplane | tld | tst | gset | gb | lsLd | lsLdAcq | lsSt | lsStRel | lsRed |
      lsPubl => exact ⟨by decide, rfl, ⟨_, rfl, rfl⟩, fun hl => absurd (fits_native (nat := none) hw hl) (by decide)⟩
  all_goals exact ⟨by decide, rfl, ⟨_, rfl, rfl⟩, fun _ => by decide⟩

theorem engOp_native {k : Cls} {op : Nat} (ho : op < 0x3E) (a b : Nat) : engOp k op a = engOp k op b := by
  cases k with
  | matrix => interval_cases op <;> rfl
  | _ => rfl

/-! ### Every encoding decodes back -/

section
variable {i : Instr} {k : Cls} {op : Nat} {m : Micro} (hw : i.wf = true)
include hw

theorem decodeWord_encMicro (h : microOf i = some (k, op, m)) (hl : m.long = none) :
    encode i = [encMicro op m] ∧ encMicro op m < 2 ^ 31 ∧ decodeWord k false (encMicro op m) 0 0 = .ok i := by
  obtain ⟨⟨hk, -, -⟩, he, ⟨mk, hmk, rfl⟩, hn⟩ := microRow_of_microOf hw h
  have ho := hn hl
  have hd := encMicro_div op m
  refine ⟨by rw [he, Laws.Encoded.microWords, hl], by omega, ?_⟩
  have hf : fld (encMicro op m) 25 6 = op := by rw [fld, hd]; omega
  rw [decodeWord_engine (hd.symm ▸ ho) _ _ _ hk, decodeMicro, hf, if_neg (by omega), engOp_native ho 0 m.srcA.toNat, hmk]
  show checked (mk _) = _
  rw [micro_of_encMicro op hl, checked_of_wf hw]

theorem decodeEngForm_encForm (h : microOf i = some (k, op, m)) {t : Tail} (hl : m.long = some t) :
    decodeEngForm k m.delay (encForm op m t) = .ok i := by
  obtain ⟨⟨-, ho, hne⟩, -, ⟨mk, hmk, rfl⟩, -⟩ := microRow_of_microOf hw h
  have hop : fld (encForm op m t) 56 8 = op := fld_encForm_op (by omega)
  rw [decodeEngForm_eq (mk := mk) _ (by rwa [hop]) (by rwa [hop, fld_encForm_srcA]), formMicro_encForm hl, fld_encForm_zero, hw]
  rfl

end

/-- TCFG's fields stand in a layout of its own (R95). -/
theorem decodeEngForm_tcfg {delay : BitVec 4} {tile : F7} {cfg : BitVec 25} {tok : Tok} (hw : (Instr.tcfg delay tile cfg tok).wf = true) :
    decodeEngForm .matrix delay (0x40 * 2 ^ 56 + tile.toNat * 2 ^ 49 + cfg.toNat * 2 ^ 24 + encTok tok) = .ok (.tcfg delay tile cfg tok) := by
  have ht := Laws.Encoded.encTok_lt tok
  have hlow := encTok_low tok
  obtain ⟨f, hf⟩ : ∃ f, f = 0x40 * 2 ^ 56 + tile.toNat * 2 ^ 49 + cfg.toNat * 2 ^ 24 + encTok tok := ⟨_, rfl⟩
  have hop : fld f 56 8 = 0x40 := by simp only [fld]; omega
  have htile : BitVec.ofNat 7 (fld f 49 7) = tile := ofNat_eq_of_toNat (by simp only [fld]; omega)
  have hcfg : BitVec.ofNat 25 (fld f 24 25) = cfg := ofNat_eq_of_toNat (by simp only [fld]; omega)
  have hmid : fld f 17 7 = 0 := by simp only [fld]; omega
  have hend : fld f 0 2 = 0 := by simp only [fld] at *; omega
  have htok : decTok f = tok := by
    rw [hf, show 0x40 * 2 ^ 56 + tile.toNat * 2 ^ 49 + cfg.toNat * 2 ^ 24 + encTok tok
      = (0x40 * 2 ^ 39 + tile.toNat * 2 ^ 32 + cfg.toNat * 2 ^ 7) * 2 ^ 17 + encTok tok by omega, decTok_encTok]
  rw [← hf]
  simp only [decodeEngForm, hop, htile, hcfg, hmid, hend, htok, hw]
  rfl

/-- The capability instructions by their numbers (R387). -/
inductive CapRow : Nat → (R → R → R → Instr) → Prop
  | kskip : CapRow 0 .kskip
  | ktrim : CapRow 1 .ktrim
  | kdrop : CapRow 2 .kdrop
  | kstamp : CapRow 3 .kstamp
  | kfld : CapRow 4 .kfld
  | kinfo : CapRow 5 .kinfo
  | ktake : CapRow 6 .ktake
  | kgive : CapRow 7 .kgive

theorem decodeCap_rcap {fn : Nat} {mk : R → R → R → Instr} {b a d : R} (hr : CapRow fn mk) (hw : (mk b a d).wf = true) :
    ∃ w, encode (mk b a d) = [w] ∧ w < 2 ^ 32 ∧ decodeCap w = .ok (mk b a d) := by
  have hfn : fn < 8 := by cases hr <;> decide
  have hlow : fld (encode.rcap fn b a d) 0 7 = 0x0B := by simp only [fld, encode.rcap]; omega
  have hmid : fld (encode.rcap fn b a d) 12 3 = 0 := by simp only [fld, encode.rcap]; omega
  have hop : fld (encode.rcap fn b a d) 25 7 = fn := by simp only [fld, encode.rcap]; omega
  have hb : rf (encode.rcap fn b a d) 20 = b := ofNat_eq_of_toNat (by simp only [fld, encode.rcap]; omega)
  have ha : rf (encode.rcap fn b a d) 15 = a := ofNat_eq_of_toNat (by simp only [fld, encode.rcap]; omega)
  have hd : rf (encode.rcap fn b a d) 7 = d := ofNat_eq_of_toNat (by simp only [fld, encode.rcap]; omega)
  refine ⟨encode.rcap fn b a d, by cases hr <;> rfl, by simp only [encode.rcap]; omega, ?_⟩
  generalize encode.rcap fn b a d = w at *
  cases hr <;> simp only [decodeCap, hlow, hmid, hop, hb, ha, hd]
  case kinfo => exact if_pos (of_decide_eq_true hw)
  all_goals rfl

theorem decodeWord_dictionary (k : Cls) (r : Bool) (e : BitVec 8) (x : BitVec 23) :
    decodeWord k r (2 ^ 31 + e.toNat * 2 ^ 23 + x.toNat) 0 0 = .ok (.dictionaryWord e x) := by
  have hb : bitOf (2 ^ 31 + e.toNat * 2 ^ 23 + x.toNat) 31 = true := by simp only [bitOf, beq_iff_eq]; omega
  have he : BitVec.ofNat 8 (fld (2 ^ 31 + e.toNat * 2 ^ 23 + x.toNat) 23 8) = e := ofNat_eq_of_toNat (by simp only [fld]; omega)
  have hx : BitVec.ofNat 23 (fld (2 ^ 31 + e.toNat * 2 ^ 23 + x.toNat) 0 23) = x := ofNat_eq_of_toNat (by simp only [fld]; omega)
  generalize 2 ^ 31 + e.toNat * 2 ^ 23 + x.toNat = w at *
  simp only [decodeWord, hb, he, hx, if_true]

/-- Settles O58: scalar words, micro-orders and TCFG by the fields that they read back, the others by their own layouts. -/
theorem everyEncodingDecodesBack : Obligations.EveryEncodingDecodesBack := by
  unfold Obligations.EveryEncodingDecodesBack
  intro i hw
  refine ⟨fun w h => ?_, fun k op m h => ⟨fun hl => decodeWord_encMicro hw h hl, fun t hl => ?_⟩, ?_, ?_, ?_, ?_, ?_⟩
  · obtain ⟨he, ho, hd⟩ := nativeOf_encodeScalar hw h
    exact ⟨he, by omega, by rw [decodeWord_scalar ho, hd]⟩
  · obtain ⟨⟨hk, ho, -⟩, he, -, -⟩ := microRow_of_microOf hw h
    have hf : encForm op m t < 2 ^ 64 := Laws.Encoded.encForm_lt (by omega)
    have he : encode i = longWords m.delay.toNat (encForm op m t) := by rw [he, Laws.Encoded.microWords, hl]
    exact ⟨_, _, _, he, by omega, by omega, by omega,
      decodeWord_engine_long _ hk _ hf, decodeEngForm_encForm hw h hl⟩
  · rintro dl tile cfg tok rfl
    have ht := Laws.Encoded.encTok_lt tok
    have hf : 0x40 * 2 ^ 56 + tile.toNat * 2 ^ 49 + cfg.toNat * 2 ^ 24 + encTok tok < 2 ^ 64 := by omega
    refine ⟨_, _, _, _, rfl, decodeWord_engine_long dl (by decide) _ hf, ?_⟩
    rw [BitVec.toNat_ofNat, Nat.mod_eq_of_lt hf, decodeEngForm_tcfg hw]
  · rintro f rfl
    exact ⟨_, _, _, rfl, (decodeWord_scalar_long true f.isLt).trans (by rw [BitVec.ofNat_toNat, BitVec.setWidth_eq])⟩
  · rintro dl f k rfl hk
    exact ⟨_, _, _, rfl, (decodeWord_engine_long dl hk false f.isLt).trans (by rw [BitVec.ofNat_toNat, BitVec.setWidth_eq])⟩
  · rintro e x k r rfl
    exact ⟨_, rfl, by omega, decodeWord_dictionary k r e x⟩
  · rintro a b d (rfl | rfl | rfl | rfl | rfl | rfl | rfl | rfl)
    exacts [decodeCap_rcap .kskip hw, decodeCap_rcap .ktrim hw, decodeCap_rcap .kdrop hw, decodeCap_rcap .kstamp hw, decodeCap_rcap .kfld hw,
      decodeCap_rcap .kinfo hw, decodeCap_rcap .ktake hw, decodeCap_rcap .kgive hw]

end Sys2Proof.Machine

/-! PROOFS. What a decoder reads is well-formed, and a native word is read as one instruction only (R82, R84 to R101). -/

namespace Sys2Proof.Machine

/-- A decoder's answer that is no ill-formed instruction. -/
structure Sound (x : Dec) : Prop where
  wf : ∀ i, x = .ok i → i.wf = true

theorem sound_ok {i : Instr} (h : i.wf = true) : Sound (.ok i) := ⟨by rintro _ ⟨⟩; exact h⟩
theorem sound_error {e : DecErr} : Sound (.error e) := ⟨by rintro _ ⟨⟩⟩

theorem sound_need {c : Bool} {i : Instr} (h : c = true → i.wf = true) : Sound (need c i) := by
  cases c with
  | false => exact sound_error
  | true => exact sound_ok (h rfl)

theorem sound_checked {i : Instr} : Sound (checked i) := sound_need id

/-! ### Scalar words -/

section
variable (d a b : R) (sub md : Nat)

theorem decAlu_sound : Sound (decAlu d a b sub md) := by
  unfold decAlu
  split
  case h_17 => split; exacts [sound_checked, sound_error]
  case h_18 => exact sound_error
  all_goals exact sound_need fun _ => rfl

theorem decMul_sound : Sound (decMul d a b sub md) := by
  unfold decMul
  split
  case h_8 => exact sound_error
  all_goals exact sound_need fun _ => rfl

theorem decAmo_sound : Sound (decAmo d a b sub md) := by
  unfold decAmo
  split
  exacts [sound_need fun _ => rfl, sound_error]

theorem decRed_sound : Sound (decRed d a b sub md) := by
  unfold decRed
  split
  · exact sound_need fun h => (Bool.and_eq_true_iff.1 h).2
  · exact sound_error

theorem decSc_sound : Sound (decSc d a b sub md) := by
  unfold decSc
  split
  case h_3 => split; exacts [sound_ok rfl, sound_error]
  case h_4 => exact sound_error
  all_goals exact sound_need fun _ => rfl

theorem decFence_sound : Sound (decFence d a b sub md) := by
  unfold decFence
  split
  case h_4 => exact sound_error
  all_goals exact sound_need fun _ => rfl

theorem decPh_sound : Sound (decPh d a b sub md) := by
  unfold decPh
  split
  case h_1 => split; exacts [sound_need fun _ => rfl, sound_error]
  case h_2 =>
    split
    · exact sound_need fun _ => rfl
    next hb => exact sound_need fun _ => bne_iff_ne.2 (by simpa using hb)
  case h_8 => exact sound_error
  all_goals exact sound_need fun _ => rfl

theorem decCpy_sound : Sound (decCpy d a b sub md) := by
  unfold decCpy
  split
  case h_5 => exact sound_error
  all_goals exact sound_need fun _ => rfl

theorem decSys_sound : Sound (decSys d a b sub md) := by
  unfold decSys
  split
  case h_9 => exact sound_error
  all_goals exact sound_need fun _ => rfl

theorem decStream_sound : Sound (decStream d a b sub md) := by
  unfold decStream
  split
  case h_8 => exact sound_error
  all_goals exact sound_need fun _ => rfl

theorem decBasket_sound : Sound (decBasket d a b sub md) := by
  unfold decBasket
  split
  case h_4 => exact sound_error
  all_goals exact sound_need fun _ => rfl

theorem decDict_sound : Sound (decDict d a b sub md) := by
  unfold decDict
  split
  case h_1 | h_4 => split; exacts [sound_ok rfl, sound_error]
  case h_2 | h_5 => split; exacts [sound_need fun _ => rfl, sound_error]
  case h_3 => exact sound_need fun _ => rfl
  case h_6 => exact sound_error

theorem decFrozen_sound : Sound (decFrozen d a b sub md) := by
  unfold decFrozen
  split
  case h_10 => exact sound_error
  all_goals exact sound_need fun _ => rfl

end

theorem RrrGroup.sound {op : Nat} {g : R → R → R → Nat → Nat → Dec} (hg : RrrGroup op g) (d a b : R) (sub md : Nat) :
    Sound (g d a b sub md) := by
  cases hg
  exacts [decAlu_sound .., decMul_sound .., decAmo_sound .., decRed_sound .., decSc_sound .., decFence_sound .., decPh_sound .., decCpy_sound ..,
    decSys_sound .., decStream_sound .., decBasket_sound .., decDict_sound .., decFrozen_sound ..]

theorem decBr_sound (w : Nat) : Sound (decBr w) := by
  unfold decBr
  dsimp only
  split
  · exact sound_error
  · split
    case h_4 => exact sound_error
    all_goals exact sound_checked

theorem decMem_sound {mk : Width → R → R → BitVec 12 → Instr} (h : ∀ k d a o, (mk k d a o).wf = true) (w : Nat) : Sound (decMem mk w) := by
  unfold decMem
  split
  exacts [sound_ok (h ..), sound_error]

theorem decodeScalar_sound (r : Bool) (w : Nat) : Sound (decodeScalar r w) := by
  unfold decodeScalar
  dsimp only
  split
  case h_1 => exact RrrGroup.alu.sound ..
  case h_2 => exact RrrGroup.mul.sound ..
  case h_12 | h_13 | h_14 | h_15 => exact decMem_sound (fun _ _ _ _ => rfl) w
  case h_16 | h_17 => exact sound_need fun _ => rfl
  case h_18 => exact RrrGroup.amo.sound ..
  case h_19 => exact RrrGroup.red.sound ..
  case h_20 => exact RrrGroup.sc.sound ..
  case h_21 => exact RrrGroup.fence.sound ..
  case h_22 => exact RrrGroup.ph.sound ..
  case h_23 => exact RrrGroup.cpy.sound ..
  case h_24 => exact RrrGroup.sys.sound ..
  case h_25 => exact RrrGroup.stream.sound ..
  case h_26 => exact RrrGroup.basket.sound ..
  case h_27 => exact RrrGroup.dict.sound ..
  case h_28 => split; exacts [RrrGroup.frozen.sound .., sound_error]
  case h_29 | h_30 => exact decBr_sound w
  case h_33 =>
    split
    case h_3 => exact sound_error
    all_goals exact sound_need fun _ => rfl
  case h_34 => exact sound_error
  all_goals exact sound_ok rfl

theorem decodeScalarForm_plain {r : Bool} {f : Nat} {i : Instr} (h : decodeScalarForm r f = .ok (.plain i)) : ∃ w, decodeScalar r w = .ok i := by
  unfold decodeScalarForm at h
  dsimp only at h
  split at h
  · repeat' split at h
    all_goals cases h
  · split at h
    · cases h
    · split at h
      next hi =>
        split at h
        · cases h
        · cases h
          exact ⟨_, hi⟩
      all_goals cases h

/-! ### Micro-orders and words -/

theorem decodeMicro_sound (k : Cls) (w : Nat) : Sound (decodeMicro k w) := by
  unfold decodeMicro
  split
  · exact sound_error
  · split
    exacts [sound_error, sound_checked]

theorem decodeEngForm_sound (k : Cls) (delay : BitVec 4) (f : Nat) : Sound (decodeEngForm k delay f) := by
  unfold decodeEngForm
  dsimp only
  split
  · exact sound_need fun h => (Bool.and_eq_true_iff.1 h).2
  · split
    · exact sound_error
    · exact sound_need fun h => (Bool.and_eq_true_iff.1 h).2

theorem decodeLong_sound (k : Cls) (w0 w1 w2 : Nat) : Sound (decodeLong k w0 w1 w2) := by
  cases k <;> exact sound_need fun _ => rfl

theorem decodeWord_sound (k : Cls) (r : Bool) (w0 w1 w2 : Nat) : Sound (decodeWord k r w0 w1 w2) := by
  unfold decodeWord
  split
  · exact sound_ok rfl
  · split
    · exact decodeLong_sound ..
    · split
      exacts [decodeScalar_sound .., decodeMicro_sound ..]

theorem decodeCap_sound (w : Nat) : Sound (decodeCap w) := by
  unfold decodeCap
  dsimp only
  split
  · exact sound_error
  · split
    case h_6 =>
      split
      next hs => exact sound_ok (decide_eq_true hs)
      · exact sound_error
    case h_9 => exact sound_error
    all_goals exact sound_ok rfl

/-- A native word is read as one instruction only: each is what the word decodes to. -/
theorem encodeScalar_injective {i j : Instr} {w : Nat} (hi : i.wf = true) (hj : j.wf = true) (h : encodeScalar i = some w)
    (h' : encodeScalar j = some w) : i = j :=
  Except.ok.inj ((nativeOf_encodeScalar hi h).decodes.symm.trans (nativeOf_encodeScalar hj h').decodes)

/-- Settles O57: each word by evaluating its decoder. -/
theorem sampleWordsDecode : Obligations.SampleWordsDecode := by
  unfold Obligations.SampleWordsDecode
  decide

/-- Settles O59, decoder by decoder. -/
theorem decodingAnswersWellFormed : Obligations.DecodingAnswersWellFormed := by
  unfold Obligations.DecodingAnswersWellFormed
  refine ⟨fun k r w w1 w2 => (decodeWord_sound k r w w1 w2).wf, fun k dl f => (decodeEngForm_sound k dl f).wf, fun r f i h => ?_,
    fun w => (decodeCap_sound w).wf, fun i j w hi hj => encodeScalar_injective hi hj⟩
  obtain ⟨w, hw⟩ := decodeScalarForm_plain h
  exact (decodeScalar_sound r w).wf i hw

end Sys2Proof.Machine

/-! PROOFS. A PRIV entry outside a ranger, met by a word whose fetch missed the L1 (R113, R380). -/

namespace Sys2Proof.Machine

/-- A word's meaning accounts for the miss that its fetch left (R380). -/
theorem Mach.missPause_miss (m : Mach) (now : Nat) : (m.missPause now).miss = false := by
  unfold Mach.missPause
  split
  next h => simpa using h
  · dsimp only
    split <;> rfl

theorem formFault_miss {f : Nat} {c : FCode} {s t : State} (h : formFault f c s = .next t) : t.mach.miss = false := by
  cases h
  exact Mach.missPause_miss ..

/-- A vector stream, no ranger's, whose bank 0 has the valid PRIV entry 0; the fetch of its word has missed the L1. -/
def privMissed : State where
  mach :=
    { jobs := [(1, { phase := .running })]
      streams := [(5, { job := 1, sel := { cls := .vector }, state := .running })]
      ccs := [(0, { dict := [(dictKey .vector 0 0, 2 ^ 95 + 2 ^ 94)] })]
      ctxs := [(0, {})], cur := 5, miss := true }

/-- Its word raises ILLEGAL_OP as a word does, on no predicted path. -/
theorem exec_privMissed : exec (.dictionaryWord 0 0) privMissed = formFault 0 .illegalOp (noteForm 0 1 privMissed) := rfl

/-- Refutes O46: the state that it gives for a PRIV entry outside a ranger is the one in which the exception has just been taken. For an engine stream
a word's meaning then accounts for a translation miss (R380), as `State.Raises` has it: in `privMissed`, whose word was fetched with a miss, the
mark of that miss is gone, and the statement keeps it. -/
theorem not_longFormsAndDictionaryWords : ¬ Obligations.LongFormsAndDictionaryWords := by
  unfold Obligations.LongFormsAndDictionaryWords
  intro h
  obtain ⟨-, -, -, hpriv, -⟩ := h privMissed 0 0 0 0
  have hexec := hpriv (by decide) (by decide) (by decide) (fun _ => by decide)
  have hmiss := formFault_miss (exec_privMissed.symm.trans hexec)
  exact absurd hmiss (by decide +kernel)

end Sys2Proof.Machine

/-! PROOFS. How a micro-order fails to issue: a decode fault, a dry FIFO it waits on, a full one it signals (R44, R45, R51, R97, R187). -/

namespace Sys2Proof.Machine

/-! ### Words that stay where they are -/

/-- A word held, its stream changed by `g` beside (R324): nothing else is done. -/
theorem State.hold_modStr (s : State) (g : Stream → Stream) (h : Hold) :
    let t := s.on ((Res.hold (s.mach.modStr s.mach.cur g) h).finish s.now)
    s.Quiet t ∧ t.mach.pend = s.mach.pend ∧ t.mach.cs = { g s.mach.cs with hold := h } := by
  have hset : (Res.hold (s.mach.modStr s.mach.cur g) h).settle s.now = s.mach.modStr s.mach.cur (fun x => { g x with hold := h }) :=
    s.mach.modStr_modStr s.mach.cur g (fun x => { x with hold := h })
  obtain ⟨hq, hcs, hp⟩ := State.settled (.refl s.mach) (.refl ..) (q := (Res.hold (s.mach.modStr s.mach.cur g) h).settle s.now)
    (by rw [hset]; rfl)
    (fun i hi => by rw [hset, Mach.str_modStr_ne _ _ hi]) (by rw [hset, Mach.str_modStr_same])
  exact ⟨hq, hp.trans (List.append_nil _), hcs⟩

/-- A fault on no predicted path is raised at once (R52). -/
theorem Mach.pathFault_eq {m : Mach} {tok : Tok} (hp : m.pathOf tok = none) (f : Flt) : m.pathFault tok f = .flt m f := by
  rw [Mach.pathFault, hp]

/-- A change of the executing stream that keeps its job and place keeps its context on its cluster. -/
theorem Mach.ccc_modStr {g : Stream → Stream} (hg : ∀ x, (g x).job = x.job ∧ (g x).sel = x.sel)
    (m : Mach) : (m.modStr m.cur g).ccc = m.ccc := by
  have hcs : (m.modStr m.cur g).cs = g m.cs := Mach.str_modStr_same ..
  simp only [Mach.ccc, Mach.cj, Mach.clc, hcs, hg]
  rfl

/-- A stream whose token wait is over. -/
def Stream.runsOn (x : Stream) : Stream := { x with state := if x.state == .waitToken then .running else x.state, wfifo := 0 }

/-! ### A micro-order's checks, in their order -/

section
variable {tok : Tok} {bad late : Mach → Option FCode} {path : Bool} {w : Mach → Option Nat} {body : Nat → Mach → Eng} {s : State}
  (hp : s.mach.pathOf tok = none)
include hp

/-- A fault of the word's own fields comes first. -/
theorem microWord_bad {c : FCode} (hb : bad s.mach = some c) :
    ∃ t, microWord tok bad late path w body s = .next t ∧ s.Raises t { code := c } := by
  refine ⟨_, rfl, ?_⟩
  simp only [hb, Option.some_or, Mach.pathFault_eq hp]
  rfl

/-- PE on a micro-order that no predicted path admits (R51). -/
theorem microWord_pe (hb : bad s.mach = none) (hpe : tok.pe = true) :
    ∃ t, microWord tok bad late false w body s = .next t ∧ s.Raises t { code := .illegalField } := by
  refine ⟨_, rfl, ?_⟩
  simp only [hb, hpe, Option.none_or, Bool.not_false, Bool.and_true, if_true, Option.some_or, Mach.pathFault_eq hp]
  rfl

variable (hb : bad s.mach = none) (hpe : tok.pe = false)
include hb hpe

/-- A fault of what the word reads, where it waits for no token. -/
theorem microWord_late {c : FCode} (hw : w s.mach = none) (hl : late s.mach = some c) :
    ∃ t, microWord tok bad late path w body s = .next t ∧ s.Raises t { code := c } := by
  refine ⟨_, rfl, ?_⟩
  simp only [hb, hpe, hw, hl, Option.none_or, Bool.false_and, Bool.false_eq_true, if_false, Option.filter_none, Option.isSome_none,
    Mach.pathFault_eq hp]
  rfl

section
variable {f : Nat} (hw : w s.mach = some f) (hc : (sget (s.mach.cct s.mach.ccc).fifos f {}).count = 0)
include hw hc

/-- A wait on a FIFO with no token is a fault in fixed timing (R45). -/
theorem microWord_dry_fixed (hl : late s.mach = none) (hf : s.mach.cj.fixed = true) :
    ∃ t, microWord tok bad late path w body s = .next t ∧ s.Raises t { code := .tokenCheck } := by
  refine ⟨_, rfl, ?_⟩
  simp [hb, hpe, hw, hl, hc, hf, Option.filter, Mach.pathFault_eq hp]
  rfl

omit hp in
/-- In elastic mode the stream waits for the token, in WAIT_TOKEN (R45). -/
theorem microWord_dry_waits (hf : s.mach.cj.fixed = false) (hs : s.mach.cs.state ≠ .primed) :
    ∃ t, microWord tok bad late path w body s = .next t ∧ s.Quiet t ∧ t.mach.pend = s.mach.pend ∧
      t.mach.cs = { s.mach.cs with state := .waitToken, wfifo := f, hold := .token f } := by
  obtain ⟨hq, hpend, hcs⟩ := s.hold_modStr
    (fun x => { x with state := (if x.state == .primed then .primed else .waitToken), wfifo := f }) (.token f)
  refine ⟨_, ?_, hq, hpend, hcs.trans ?_⟩
  · simp [microWord, onWord, onMach, hb, hpe, hw, hc, hf, Option.filter]
    rfl
  · simp [hs]

end

section
variable {m : Mach} {ps : List Pend} {due ord : Nat} (hl : late s.mach = none) (hw : w s.mach = none)
  (hbody : body s.now s.mach = .go m due ord) (hm : s.mach.Puts m ps) (hse : tok.se = true)
  (hroom : (sget (s.mach.cct s.mach.ccc).fifos tok.sfifo.toNat {}).room = false)
include hl hw hbody hm hse hroom

/-- A signal to a FIFO with no room: a fault in fixed timing, else the word holds and its stream runs (R45). -/
theorem microWord_full : microWord tok bad late path w body s = .next (s.on
    ((if s.mach.cj.fixed then Res.flt s.mach { code := .tokenCheck }
      else .hold (s.mach.modStr s.mach.cur Stream.runsOn) (.room tok.sfifo.toNat)).finish s.now)) := by
  have hfull (g : Stream → Stream) (hg : ∀ x, (g x).job = x.job ∧ (g x).sel = x.sel) :
      (sget ((m.modStr m.cur g).cct (m.modStr m.cur g).ccc).fifos tok.sfifo.toNat {}).room = false := by
    have hccc : m.ccc = s.mach.ccc := by rw [hm.rest]; rfl
    rw [Mach.ccc_modStr hg, hccc]
    exact (congrArg (fun q => (sget q tok.sfifo.toNat {}).room) (hm.fifo s.mach.ccc)).trans hroom
  simp only [microWord, onWord, onMach, hb, hpe, hw, hl, hbody, hse, Option.none_or, Bool.false_and, Bool.false_eq_true, if_false, if_true,
    Option.filter_none, Option.isSome_none, ite_self, Mach.pathFault_eq hp, Mach.takeToken, Mach.modStr_modStr]
  rw [hfull (fun x => { x with state := if x.state == .waitToken then .running else x.state, wfifo := 0, spec := (s.mach.pathOf tok).isSome })
    (fun x => ⟨rfl, rfl⟩)]
  rfl
end

end

/-! ### Vector micro-orders -/

section
variable {m : Mach} {op : Nat} {mi : Micro} {types : List Nat} {rounds : Nat → Bool}

/-- A column that does not host an opcode (R97). -/
theorem vecBadWord_unhosted (h : vecHosts op m.cs.sel.col = false) : m.vecBadWord op mi types rounds = some .illegalOp := by
  simp [Mach.vecBadWord, h]

/-- What the word alone decides is part of all that is checked. -/
theorem vecBadWord_hosted (h : vecHosts op m.cs.sel.col = true) :
    m.vecBadWord op mi types rounds = none ∨ m.vecBadWord op mi types rounds = m.vecBad op mi types rounds := by
  simp only [Mach.vecBadWord, h]
  cases mi.long with
  | none => exact .inl rfl
  | some t => exact .inr rfl

/-- A type outside the families of an opcode (R187). -/
theorem vecBad_type (h : vecHosts op m.cs.sel.col = true) (ht : types.contains (m.venv mi).tc = false) :
    m.vecBad op mi types rounds = some .illegalField := by
  simp only [Mach.vecBad, show vecHosts op (m.venv mi).col = true from h, ht]
  rfl

theorem vecBad_ok (h : vecHosts op m.cs.sel.col = true) (ht : types.contains (m.venv mi).tc = true) (hop : op ≠ 0x45)
    (hr : rounds (m.venv mi).tc = false) (hx : exactForm mi) : m.vecBad op mi types rounds = none := by
  simp only [Mach.vecBad, show vecHosts op (m.venv mi).col = true from h, ht, hr]
  cases hl : mi.long with
  | none => rfl
  | some t => simp [hx t hl, hop]

/-- On a column that hosts the opcode the fields alone can be at fault. -/
theorem vecBad_hosted (h : vecHosts op m.cs.sel.col = true) :
    m.vecBad op mi types rounds = none ∨ m.vecBad op mi types rounds = some .illegalField := by
  cases ht : types.contains (m.venv mi).tc with
  | false => exact .inr (vecBad_type h ht)
  | true =>
    simp only [Mach.vecBad, show vecHosts op (m.venv mi).col = true from h, ht, Bool.not_true, Bool.false_eq_true, if_false]
    cases mi.long with
    | none => exact .inl rfl
    | some t => exact (Decidable.em _).imp (if_pos ·) (if_neg ·)

/-- The word's own check on such a column. -/
theorem vecBadWord_field (h : vecHosts op m.cs.sel.col = true) :
    m.vecBadWord op mi types rounds = none ∨ m.vecBadWord op mi types rounds = some .illegalField := by
  rcases vecBadWord_hosted (mi := mi) (types := types) (rounds := rounds) h with hw | hw
  · exact .inl hw
  · exact hw ▸ vecBad_hosted h

theorem vecBadWord_ok (h : vecHosts op m.cs.sel.col = true) (hok : m.vecBad op mi types rounds = none) :
    m.vecBadWord op mi types rounds = none := by
  rcases vecBadWord_hosted (mi := mi) (types := types) (rounds := rounds) h with hw | hw
  · exact hw
  · exact hw.trans hok

end

theorem tyInt_contains (n : Nat) : tyInt.contains n = decide (n ≤ 7) := by
  rw [Bool.eq_iff_iff]
  simp [tyInt]
  omega

/-! ### A vector micro-order on registers -/

section
variable {op : Nat} {mi : Micro} {types : List Nat} {rounds : Nat → Bool} {lat : Job → Nat} {en : Nat} {lim : VEnv → Bool} {f : VEnv → VOut}
  {s : State} (hp : s.mach.pathOf mi.tail.tok = none) (hh : vecHosts op s.mach.cs.sel.col = true)
include hp hh

theorem vecOp_pe (hpe : mi.tail.tok.pe = true) :
    ∃ t, vecOp op mi types rounds lat en lim f s = .next t ∧ s.Raises t { code := .illegalField } := by
  unfold vecOp
  rcases vecBadWord_field hh with hb | hb
  · refine microWord_pe hp ?_ hpe
    exact hb
  · refine microWord_bad hp ?_
    exact hb

theorem vecOp_type (ht : types.contains (s.mach.venv mi).tc = false) (hw : mi.tail.tok.wait = none) :
    ∃ t, vecOp op mi types rounds lat en lim f s = .next t ∧ s.Raises t { code := .illegalField } := by
  cases hpe : mi.tail.tok.pe with
  | true => exact vecOp_pe hp hh hpe
  | false =>
    have hl := vecBad_type (rounds := rounds) hh ht
    unfold vecOp
    rcases vecBadWord_field hh with hb | hb
    · refine microWord_late hp ?_ hpe hw ?_
      · exact hb
      · simp only [hl]
    · refine microWord_bad hp ?_
      exact hb

variable (hpe : mi.tail.tok.pe = false) (hok : s.mach.vecBad op mi types rounds = none)
include hpe hok

section
variable {n : Nat} (hw : mi.tail.tok.wait = some n) (hc : (sget (s.mach.cct s.mach.ccc).fifos n {}).count = 0)
include hw hc

theorem vecOp_dry_fixed (hl : lim (s.mach.venv mi) = true) (hf : s.mach.cj.fixed = true) :
    ∃ t, vecOp op mi types rounds lat en lim f s = .next t ∧ s.Raises t { code := .tokenCheck } := by
  unfold vecOp
  refine microWord_dry_fixed hp ?_ hpe hw hc ?_ hf
  · exact vecBadWord_ok hh hok
  · simp only [hok, hl, if_true]

omit hp in
theorem vecOp_dry_waits (hf : s.mach.cj.fixed = false) (hs : s.mach.cs.state ≠ .primed) :
    ∃ t, vecOp op mi types rounds lat en lim f s = .next t ∧ s.Quiet t ∧ t.mach.pend = s.mach.pend ∧
      t.mach.cs = { s.mach.cs with state := .waitToken, wfifo := n, hold := .token n } := by
  unfold vecOp
  refine microWord_dry_waits ?_ hpe hw hc hf hs
  exact vecBadWord_ok hh hok

end

section
variable (hl : lim (s.mach.venv mi) = true) (hw : mi.tail.tok.wait = none) (hse : mi.tail.tok.se = true)
  (hroom : (sget (s.mach.cct s.mach.ccc).fifos mi.tail.tok.sfifo.toNat {}).room = false)
include hl hw hse hroom

theorem vecOp_full : vecOp op mi types rounds lat en lim f s = .next (s.on
    ((if s.mach.cj.fixed then Res.flt s.mach { code := .tokenCheck }
      else .hold (s.mach.modStr s.mach.cur Stream.runsOn) (.room mi.tail.tok.sfifo.toNat)).finish s.now)) := by
  have hputs := Mach.pushVec_puts (s.mach.charge_puts en 1) rfl (s.mach.ccyc s.now + lat s.mach.cj - 1) (s.mach.cj.lateBy lat)
    (s.mach.venv mi) (f (s.mach.venv mi))
  unfold vecOp
  refine microWord_full hp ?_ hpe ?_ hw rfl hputs.1 hse hroom
  · exact vecBadWord_ok hh hok
  · simp only [hok, hl, if_true]

theorem vecOp_full_fixed (hf : s.mach.cj.fixed = true) :
    ∃ t, vecOp op mi types rounds lat en lim f s = .next t ∧ s.Raises t { code := .tokenCheck } := by
  refine ⟨_, vecOp_full hp hh hpe hok hl hw hse hroom, ?_⟩
  rw [hf]
  rfl

theorem vecOp_full_holds (hf : s.mach.cj.fixed = false) :
    ∃ t, vecOp op mi types rounds lat en lim f s = .next t ∧ s.Quiet t ∧ t.mach.pend = s.mach.pend ∧
      t.mach.cs = { s.mach.cs.runsOn with hold := .room mi.tail.tok.sfifo.toNat } := by
  refine ⟨_, vecOp_full hp hh hpe hok hl hw hse hroom, ?_⟩
  rw [hf]
  exact s.hold_modStr Stream.runsOn _

end

end

/-- What runs, or waited for a token, runs when its wait is over. -/
theorem Stream.runsOn_eq {x : Stream} (h : x.state = .running ∨ x.state = .waitToken) : x.runsOn = { x with state := .running, wfifo := 0 } := by
  rcases h with h | h <;> simp only [Stream.runsOn, h] <;> rfl

/-! ### The obligation -/

section
variable {op : Nat} {mi : Micro} {types : List Nat} {rounds : Nat → Bool} {lat : Job → Nat} {en : Nat} {lim : VEnv → Bool}
  {prods : VEnv → List (Nat × Nat × Nat)} {f : VEnv → VOut} {s : State}
  (hp : s.mach.pathOf mi.tail.tok = none) (h : vecHosts op s.mach.cs.sel.col = false)
include hp h

theorem vecOp_unhosted : ∃ t, vecOp op mi types rounds lat en lim f s = .next t ∧ s.Raises t { code := .illegalOp } :=
  microWord_bad hp (vecBadWord_unhosted h)

theorem vecMulOp_unhosted : ∃ t, vecMulOp op mi types rounds lat en lim prods f s = .next t ∧ s.Raises t { code := .illegalOp } :=
  microWord_bad hp (vecBadWord_unhosted h)

theorem vecLoad_unhosted {whole : Bool} {count : VEnv → Nat} {stride : VEnv → Int} {pos : VEnv → Nat → Int} :
    ∃ t, vecLoad op mi whole count stride pos s = .next t ∧ s.Raises t { code := .illegalOp } :=
  microWord_bad hp (vecBadWord_unhosted h)

theorem vecStore_unhosted {whole : Bool} {count : VEnv → Nat} {pos : VEnv → Nat → Int} :
    ∃ t, vecStore op mi whole count pos s = .next t ∧ s.Raises t { code := .illegalOp } :=
  microWord_bad hp (vecBadWord_unhosted h)

end

/-- A vector micro-order of each class on a column that does not host it (R97). -/
theorem vec_unhosted {mi : Micro} {s : State} {i : Instr} {op : Nat} (hp : s.mach.pathOf mi.tail.tok = none)
    (hi : (i, op) ∈ [(.vmvs mi, 0x03), (.vadd mi, 0x04), (.vmul mi, 0x08), (.mop mi, 0x1B), (.vfadd mi, 0x1E), (.vfma mi, 0x21), (.vrcp mi, 0x29),
        (.vcvt mi, 0x2F), (.vredadd mi, 0x32), (.vperm mi, 0x36), (.vld mi, 0x40), (.vst mi, 0x41), (.vmoment mi, 0x46)])
    (h : vecHosts op s.mach.cs.sel.col = false) : ∃ t, exec i s = .next t ∧ s.Raises t { code := .illegalOp } := by
  simp only [List.mem_cons, Prod.mk.injEq, List.not_mem_nil, or_false] at hi
  rcases hi with ⟨rfl, rfl⟩ | ⟨rfl, rfl⟩ | ⟨rfl, rfl⟩ | ⟨rfl, rfl⟩ | ⟨rfl, rfl⟩ | ⟨rfl, rfl⟩ | ⟨rfl, rfl⟩ | ⟨rfl, rfl⟩ | ⟨rfl, rfl⟩ |
    ⟨rfl, rfl⟩ | ⟨rfl, rfl⟩ | ⟨rfl, rfl⟩ | ⟨rfl, rfl⟩
  · rw [exec_vmvs, execVmvs]; exact vecOp_unhosted hp h
  · rw [exec_vadd, execVadd, vecInt]; exact vecOp_unhosted hp h
  · rw [exec_vmul, execVmul, vecIntMul]; exact vecMulOp_unhosted hp h
  · rw [exec_mop, execMop]; exact vecOp_unhosted hp h
  · rw [exec_vfadd, execVfadd, vecFlt]; exact vecOp_unhosted hp h
  · rw [exec_vfma, execVfma, vecFltMul]; exact vecMulOp_unhosted hp h
  · rw [exec_vrcp, execVrcp, vecSpecial]; exact vecOp_unhosted hp h
  · rw [exec_vcvt, execVcvt]; exact vecOp_unhosted hp h
  · rw [exec_vredadd, execVredadd]; exact vecOp_unhosted hp h
  · rw [exec_vperm, execVperm]; exact vecOp_unhosted hp h
  · rw [exec_vld, execVld]; exact vecLoad_unhosted hp h
  · rw [exec_vst, execVst]; exact vecStore_unhosted hp h
  · rw [exec_vmoment, execVmoment]; exact vecMulOp_unhosted hp h

/-- VADD is a micro-order on registers that adds no limits of its own. -/
theorem exec_vadd_vecOp (mi : Micro) (s : State) : ∃ f, exec (.vadd mi) s = vecOp 0x04 mi tyInt noRnd (latCls 5) 4 noLim f s :=
  ⟨_, by rw [exec_vadd, execVadd, vecInt]⟩

/-- Settles O30: a micro-order's checks in the order `microWord` makes them, each before anything issues. -/
theorem microOrderChecks : Obligations.MicroOrderChecks := by
  unfold Obligations.MicroOrderChecks
  intro mi s
  obtain ⟨f, hv⟩ := exec_vadd_vecOp mi s
  dsimp only
  rw [hv]
  intro _ hp
  refine ⟨fun i op hi h => vec_unhosted hp hi h, fun hcol => ?_⟩
  have hh : vecHosts 0x04 s.mach.cs.sel.col = true := decide_eq_true hcol
  refine ⟨fun hpe => vecOp_pe hp hh hpe, fun ht hw => vecOp_type hp hh ?_ hw, fun ht hx hpe hrun => ?_⟩
  · rw [tyInt_contains]
    exact decide_eq_false (Nat.not_le.mpr ht)
  have hok : s.mach.vecBad 0x04 mi tyInt noRnd = none :=
    vecBad_ok hh ((tyInt_contains _).trans (decide_eq_true ht)) (by decide) rfl hx
  refine ⟨fun n hw hc => ⟨fun hf => vecOp_dry_fixed hp hh hpe hok hw hc rfl hf, fun hf => vecOp_dry_waits hh hpe hok hw hc hf ?_⟩,
    fun hw hse hroom => ⟨fun hf => vecOp_full_fixed hp hh hpe hok rfl hw hse hroom hf, fun hf => ?_⟩⟩
  · rcases hrun with h | h <;> simp [h]
  · have h := vecOp_full_holds (lat := latCls 5) (en := 4) (lim := noLim) (f := f) hp hh hpe hok rfl hw hse hroom hf
    rw [Stream.runsOn_eq hrun] at h
    exact h

end Sys2Proof.Machine

/-! PROOFS. The decode dictionary: entries as they are stored, DLD and its arrivals, DINV, DSW, DFENCE, DRD (R112, R116 to R121). -/

namespace Sys2Proof.Machine

/-! ### Entries (R110, R112) -/

theorem dictKey_inj (k : Cls) (bank e j : Nat) : dictKey k bank j = dictKey k bank e ↔ j = e := Nat.add_left_cancel_iff

/-- An entry read after one of its bank is stored. -/
theorem Cctx.entry_setEntry (c : Cctx) (k : Cls) (bank e v j : Nat) :
    (c.setEntry k bank e v).entry k bank j = if j = e then v else c.entry k bank j := by
  simp only [Cctx.entry, Cctx.setEntry, sget_sset, dictKey_inj]

/-- An entry with VALID cleared, its other bits as they were (R118). -/
def withoutValid (e : Nat) : Nat := if entryValid e then e - 2 ^ 95 else e

theorem entryValid_withoutValid (e : Nat) : entryValid (withoutValid e) = false := by
  unfold withoutValid
  split
  next h =>
    have hodd : e / 2 ^ 95 % 2 = 1 := beq_iff_eq.1 h
    refine beq_eq_false_iff_ne.2 ?_
    omega
  next h => exact Bool.eq_false_of_not_eq_true h

/-- An entry of a copy of the dictionary invalidated (R118). -/
def Cctx.invalidate (c : Cctx) (k : Cls) (bank e : Nat) : Cctx := c.setEntry k bank e (withoutValid (c.entry k bank e))

/-- Entries invalidated from `first` on: those of the range lose VALID, the others of the bank stay. -/
theorem Cctx.entry_invalidate_range (c : Cctx) (k : Cls) (bank first n j : Nat) :
    ((List.range n).foldl (fun c i => c.invalidate k bank (first + i)) c).entry k bank j =
      if first ≤ j ∧ j < first + n then withoutValid (c.entry k bank j) else c.entry k bank j := by
  induction n with
  | zero => rw [if_neg (by omega)]; rfl
  | succ n ih =>
    rw [List.range_succ, List.foldl_append, List.foldl_cons, List.foldl_nil]
    generalize (List.range n).foldl (fun c i => c.invalidate k bank (first + i)) c = c' at ih ⊢
    rw [Cctx.invalidate, Cctx.entry_setEntry]
    by_cases hj : j = first + n
    · subst hj
      rw [if_pos rfl, if_pos (by omega), ih, if_neg (by omega)]
    · have hrange : (first ≤ j ∧ j < first + (n + 1)) ↔ (first ≤ j ∧ j < first + n) := by omega
      rw [if_neg hj, ih]
      simp only [hrange]

/-- A range of a copy of the dictionary invalidated, on a context's cluster (R118). -/
def Mach.invalidate (m : Mach) (cc : Nat) (k : Cls) (bank first n : Nat) : Mach :=
  m.modCct cc (fun c => (List.range n).foldl (fun c i => c.invalidate k bank (first + i)) c)

theorem Mach.entry_invalidate (m : Mach) (cc : Nat) (k : Cls) (bank first n j : Nat) :
    ((m.invalidate cc k bank first n).cct cc).entry k bank j =
      if first ≤ j ∧ j < first + n then withoutValid ((m.cct cc).entry k bank j) else (m.cct cc).entry k bank j := by
  rw [Mach.invalidate, Mach.cct_modCct, if_pos rfl, Cctx.entry_invalidate_range]

/-- Whether a source entry loses its VALID as it is stored (R112). -/
def losesValid (k : Cls) (src : Nat) : Bool := bitOf (src % 2 ^ 96) 95 && !entryOk k (src % 2 ^ 96 / 2 ^ 64) (src / 2 ^ 96)

theorem entryOf_eq (k : Cls) (src : Nat) :
    entryOf k src = (if losesValid k src then src % 2 ^ 96 - 2 ^ 95 else src % 2 ^ 96, losesValid k src) := by
  have hvalid : bitOf (src % 2 ^ 96 / 2 ^ 64) 31 = bitOf (src % 2 ^ 96) 95 := by
    rw [bitOf, bitOf, Nat.div_div_eq_div_mul, ← Nat.pow_add]
  have hsplit : entryOf k src = if losesValid k src then (src % 2 ^ 96 - 2 ^ 95, true) else (src % 2 ^ 96, false) := by
    rw [losesValid, ← hvalid, entryOf]
  rw [hsplit]
  cases losesValid k src <;> simp only [if_true, Bool.false_eq_true, if_false]

/-! ### The queue fetched again (R120, R123) -/

/-- What fetching the three queued words again does: each stands at its word address under its binding, or under the stream's bank. -/
theorem Mach.refetch_spec (m : Mach) (sid : Nat) (rebind : Bool) :
    ∃ (n : Mach) (a b c : FQ), m.Walked n sid 0x10 ∧ a.waddr = (m.str sid).fq0.waddr % 2 ^ 24 ∧
      (rebind = true → a.bank = (m.str sid).dbank ∧ b.bank = (m.str sid).dbank ∧ c.bank = (m.str sid).dbank) ∧
      m.refetch sid rebind = n.modStr sid (fun s => { s with
        fq0 := { a with annul := s.fq0.annul }, fq1 := { b with annul := s.fq1.annul }, fq2 := { c with annul := s.fq2.annul } }) := by
  have bound (b : Nat) (h : rebind = true) : (if rebind then (m.str sid).dbank else b) = (m.str sid).dbank := if_pos h
  unfold Mach.refetch
  dsimp only
  obtain ⟨ha, haddr, hbank0, -⟩ := m.fetch_walked sid (m.str sid).fq0.waddr (if rebind then (m.str sid).dbank else (m.str sid).fq0.bank)
  generalize m.fetch sid (m.str sid).fq0.waddr _ = r0 at *
  obtain ⟨hb, -, hbank1, -⟩ := r0.1.fetch_walked sid (m.str sid).fq1.waddr (if rebind then (m.str sid).dbank else (m.str sid).fq1.bank)
  generalize r0.1.fetch sid (m.str sid).fq1.waddr _ = r1 at *
  obtain ⟨hc, -, hbank2, -⟩ := r1.1.fetch_walked sid (m.str sid).fq2.waddr (if rebind then (m.str sid).dbank else (m.str sid).fq2.bank)
  generalize r1.1.fetch sid (m.str sid).fq2.waddr _ = r2 at *
  exact ⟨r2.1, r0.2, r1.2, r2.2, (ha.trans hb).trans hc, haddr,
    fun h => ⟨hbank0.trans (bound _ h), hbank1.trans (bound _ h), hbank2.trans (bound _ h)⟩, rfl⟩

/-- What fetching queues again leaves: the state of contexts on clusters, results in flight, and where each stream stands. -/
structure Mach.Requeued (m n : Mach) : Prop where
  cur : n.cur = m.cur
  ccs : n.ccs = m.ccs
  pend : n.pend = m.pend
  waddr : ∀ i, (n.str i).fq0.waddr % 2 ^ 24 = (m.str i).fq0.waddr % 2 ^ 24

theorem Mach.Requeued.trans {m n p : Mach} (h : m.Requeued n) (k : n.Requeued p) : m.Requeued p where
  cur := k.cur.trans h.cur
  ccs := k.ccs.trans h.ccs
  pend := k.pend.trans h.pend
  waddr i := (k.waddr i).trans (h.waddr i)

/-- One queue fetched again, with the cycles that it takes. -/
theorem Mach.refetch_requeued (m : Mach) (sid : Nat) (rebind : Bool) :
    m.Requeued ((m.refetch sid rebind).modStr sid (fun s => { s with lastIssue := s.lastIssue + 3 })) := by
  obtain ⟨n, a, b, c, hw, haddr, -, hr⟩ := m.refetch_spec sid rebind
  rw [hr, Mach.modStr_modStr]
  refine ⟨hw.cur, hw.ccs, hw.pend, fun i => ?_⟩
  rw [Mach.str_modStr]
  split
  next hi =>
    show a.waddr % 2 ^ 24 = _
    rw [haddr, hi, Nat.mod_mod]
  next hi => rw [hw.others i hi]

/-- Every queue bound to a written bank is fetched again (R123). -/
theorem Mach.rebind_requeued (m : Mach) (k : Cls) (bank : Nat) : m.Requeued (m.rebind k bank) := by
  unfold Mach.rebind
  split
  · exact ⟨rfl, rfl, rfl, fun _ => rfl⟩
  · exact List.foldlRecOn (motive := m.Requeued) _ _ ⟨rfl, rfl, rfl, fun _ => rfl⟩
      (fun n hn i _ => hn.trans (n.refetch_requeued i false))

/-- An engine's bank binds no queued word (R122). -/
theorem Mach.rebind_engine (m : Mach) {k : Cls} (bank : Nat) (hk : k ≠ .scalar) : m.rebind k bank = m :=
  if_pos (bne_iff_ne.2 hk)

/-! ### A word retires (R322) -/

/-- What a scalar word's retirement leaves of the parts that the dictionary's words act on. -/
structure Mach.MovesOn (m n : Mach) (now : Nat) : Prop where
  cur : n.cur = m.cur
  ccs : n.ccs = m.ccs
  pend : n.pend = m.pend
  fq0 : n.cs.fq0 = m.cs.fq1
  dbank : n.cs.dbank = m.cs.dbank
  lastIssue : n.cs.lastIssue = m.ccyc now

theorem Mach.retire_movesOn {m : Mach} (now : Nat) (h : m.cs.sel.cls = .scalar) : m.MovesOn (m.retire now) now := by
  obtain ⟨n, e, hw, -, hr⟩ := m.retire_spec now h
  have hown : n.str m.cur = { m.cs with l1 := (n.str m.cur).l1 } := hw.own
  have hcur : (m.retire now).cur = m.cur := by rw [hr]; exact hw.cur
  have hcs : (m.retire now).cs = { n.str m.cur with
      fq0 := (n.str m.cur).fq1, fq1 := (n.str m.cur).fq2, fq2 := e, lastIssue := m.ccyc now,
      fresh := false, hold := .none, slots := (n.str m.cur).slots - 1 } := by
    rw [Mach.cs, hcur, hr, Mach.str_modStr_same]; rfl
  refine ⟨hcur, by rw [hr]; exact hw.ccs, by rw [hr]; exact hw.pend, ?_, ?_, ?_⟩
  · rw [hcs]; show (n.str m.cur).fq1 = _; rw [hown]
  · rw [hcs]; show (n.str m.cur).dbank = _; rw [hown]
  · rw [hcs]

/-- A miss accounted for changes no stream, no context on a cluster, no result in flight. -/
theorem Mach.missPause_frame (m : Mach) (now : Nat) :
    (m.missPause now).cs = m.cs ∧ (m.missPause now).ccs = m.ccs ∧ (m.missPause now).pend = m.pend := by
  rw [m.missPause_agenda now]
  exact ⟨rfl, rfl, rfl⟩

theorem State.mach_on (s : State) (m : Mach) : (s.on m).mach = m := rfl

/-- A charge leaves the executing stream. -/
theorem Mach.charge_cs (m : Mach) (cls units : Nat) : (m.charge cls units).cs = m.cs := rfl

/-- An event to come stays in the agenda as a miss is accounted for. -/
theorem Mach.mem_agenda_missPause {m : Mach} {x : Nat × Instr × List Nat} (now : Nat) (h : x ∈ m.agenda) : x ∈ (m.missPause now).agenda := by
  unfold Mach.missPause
  split
  · exact h
  · dsimp only
    split
    · exact mem_agendaAdd_of _ _ _ _ _ h
    · exact h

/-! ### DLD (R117) -/

/-- A word held behind an event that it put into the agenda is held without it too: events to come are none of what `Held` fixes. -/
theorem State.Held.of_at {s t : State} {m : Mach} {h : Hold} {ps : List Pend} {tick : Nat} {e : Instr} {a : List Nat}
    (hh : (s.on (m.at tick e a)).Held t h ps) : (s.on m).Held t h ps where
  quiet := ⟨hh.quiet.now, hh.quiet.rest, hh.quiet.others, hh.quiet.ccs, hh.quiet.ctxs, hh.quiet.dies, hh.quiet.mem, hh.quiet.wf⟩
  own := hh.own
  pend := hh.pend

section
variable {m n : Mach} {p : Pg} {va : Nat} (hx : m.xlat m.cur va { rd := true, ex := true } = .ok (n, p))
  (hbad : n.pgBad p 16 = false) (hstart : n.unstarted n.cs.job (p.home 0) = none)
  (now : Nat) (first : Bool) (k : Cls) (bank next left bad : Nat) (d : R)
include hx hbad hstart

/-- An entry in host memory is awaited from the host. -/
theorem Mach.dldNext_host (ht : p.tgt = 1) : m.dldNext now first k bank next left bad va d =
    .hold ((n.softPg p 16).awaitHost now) (.dld k bank next left bad va true d) := by
  simp [Mach.dldNext, hx, hbad, hstart, ht]

/-- An entry on the package is due at a tick. -/
theorem Mach.dldNext_package (ht : 2 ≤ p.tgt) : ∃ tick, m.dldNext now first k bank next left bad va d =
    .hold ((n.softPg p 16).at tick .dldEntryArrival [(n.softPg p 16).cur]) (.dld k bank next left bad va false d) := by
  have h0 : p.tgt ≠ 0 := by omega
  have h1 : p.tgt ≠ 1 := by omega
  exact ⟨_, by simp only [Mach.dldNext, hx, hbad, hstart, beq_eq_false_iff_ne.2 h0, beq_eq_false_iff_ne.2 h1, Bool.false_eq_true, if_false]; rfl⟩

end

section
variable {s : State} {m : Mach} {p : Pg} {va : Nat} (hx : s.mach.xlat s.mach.cur va { rd := true, ex := true } = .ok (m, p))
  (hbad : m.pgBad p 16 = false) (hstart : m.unstarted m.cs.job (p.home 0) = none)
  (k : Cls) (bank next left bad : Nat) (d : R)
include hx hbad hstart

/-- The first entry of a DLD from the package: the word is held for it. -/
theorem dldNext_held (ht : 2 ≤ p.tgt) :
    let t := s.on ((s.mach.dldNext s.now true k bank next left bad va d).finish s.now)
    (∃ tick, (tick, .dldEntryArrival, [s.mach.cur]) ∈ t.mach.agenda) ∧
      (s.on (m.softPg p 16)).Held t (.dld k bank next left bad va false d) [] := by
  obtain ⟨tick, he⟩ := Mach.dldNext_package hx hbad hstart s.now true k bank next left bad d ht
  have hcur : (m.softPg p 16).cur = s.mach.cur := ((Mach.xlat_walked hx).trans (m.soft_walked ..)).cur
  rw [he]
  refine ⟨⟨tick, Mach.mem_agenda_missPause _ ?_⟩, State.Held.of_at (State.hold_held (s := s.on _) (.refl _) _)⟩
  rw [← hcur]
  exact mem_agendaAdd ..

/-- The first entry of a DLD from the host: the word is held until the host answers. -/
theorem dldNext_held_host (ht : p.tgt = 1) :
    (s.on ((m.softPg p 16).awaitHost s.now)).Held (s.on ((s.mach.dldNext s.now true k bank next left bad va d).finish s.now))
      (.dld k bank next left bad va true d) [] := by
  rw [Mach.dldNext_host hx hbad hstart s.now true k bank next left bad d ht]
  exact State.hold_held (s := s.on _) (.refl _) _

end

/-! ### The words go through their checks (R116) -/

section
variable {s : State} {k : Cls} {bank : BitVec 2} {d a b : R} (hhosts : hosts s.mach.cs.sel.kind k = true)
include hhosts

section
variable (hbusy : s.mach.bankBusy k bank.toNat = false)
include hbusy

theorem exec_dld_next (hrange : fld (s.mach.rs b).toNat 0 8 + fld (s.mach.rs b).toNat 8 8 < 256) (halign : (s.mach.rs a).toNat % 16 = 0) :
    exec (.dld k bank d a b) s = .next (s.on ((s.mach.dldNext s.now true k bank.toNat (fld (s.mach.rs b).toNat 0 8)
      (fld (s.mach.rs b).toNat 8 8 + 1) 0 (s.mach.rs a).toNat d).finish s.now)) := by
  have hlen : ¬256 < fld (s.mach.rs b).toNat 0 8 + (fld (s.mach.rs b).toNat 8 8 + 1) := by omega
  simp [exec_dld, execDld, onWord, onMach, rangeOf, hbusy, hhosts, hlen, halign, State.on]

theorem exec_dinv_next (hrange : fld (s.mach.rs a).toNat 0 8 + fld (s.mach.rs a).toNat 8 8 < 256) :
    exec (.dinv k bank a) s = .next (s.on (((((s.mach.charge 3).invalidate s.mach.ccc k bank.toNat (fld (s.mach.rs a).toNat 0 8)
      (fld (s.mach.rs a).toNat 8 8 + 1)).retire s.now).rebind k bank.toNat).missPause s.now)) := by
  have hlen : ¬256 < fld (s.mach.rs a).toNat 0 8 + (fld (s.mach.rs a).toNat 8 8 + 1) := by omega
  simp only [exec_dinv, execDinv, onWord, onMach, rangeOf, hbusy, hhosts, hlen, Bool.not_true, Bool.or_self, decide_false, Bool.false_eq_true, if_false]
  rfl

end

theorem exec_dsw_engine (hk : k ≠ .scalar) (hbusy : s.mach.classBusy k = false) :
    exec (.dsw k bank) s = .next (s.on ((Res.go ((s.mach.charge 3).modStreams
      ((s.mach.streamsOn s.mach.cs.job s.mach.clc).filter (fun i => (s.mach.str i).sel.cls == k))
      (fun x => { x with dbank := bank.toNat }))).finish s.now)) := by
  simp [exec_dsw, execDsw, onWord, onMach, hhosts, hbusy, hk, State.on]

theorem exec_drd_next : exec (.drd k bank d a 0) s = .next (s.on ((Res.go ((s.mach.charge 3).pushReg s.now 1 d
    ((s.mach.cct s.mach.ccc).drd k bank.toNat ((s.mach.rs a).toNat % 2 ^ 32)))).finish s.now)) := by
  simp [exec_drd, execDrd, onWord, onMach, hhosts, State.on]

end

/-! ### DINV (R118) -/

/-- A charge changes energy accumulators, and no entry of a dictionary (R361). -/
theorem Mach.entry_charge (m : Mach) (cls units i : Nat) (k : Cls) (bank e : Nat) :
    ((m.charge cls units).cct i).entry k bank e = (m.cct i).entry k bank e := by
  have hplain : ((m.charge cls units).cct i).plain.dict = (m.cct i).plain.dict := by rw [(m.charge_puts cls units).ccs i]
  exact congrArg (fun l => sget l (dictKey k bank e) 0) hplain

/-- DINV leaves every entry of its range without VALID, and the queue on its way (R118, R123). -/
theorem exec_dinv_spec {s : State} {k : Cls} {bank : BitVec 2} {a : R} (hs : s.onScalar) (hhosts : hosts s.mach.cs.sel.kind k = true)
    (hbusy : s.mach.bankBusy k bank.toNat = false) (hrange : fld (s.mach.rs a).toNat 0 8 + fld (s.mach.rs a).toNat 8 8 < 256) :
    ∃ t, exec (.dinv k bank a) s = .next t ∧ t.mach.cs.fq0.waddr % 2 ^ 24 = s.mach.cs.fq1.waddr % 2 ^ 24 ∧ t.mach.pend = s.mach.pend ∧
      ∀ j, (t.mach.cct s.mach.ccc).entry k bank.toNat j =
        if fld (s.mach.rs a).toNat 0 8 ≤ j ∧ j < fld (s.mach.rs a).toNat 0 8 + (fld (s.mach.rs a).toNat 8 8 + 1)
        then withoutValid ((s.mach.cct s.mach.ccc).entry k bank.toNat j) else (s.mach.cct s.mach.ccc).entry k bank.toNat j := by
  refine ⟨_, exec_dinv_next hhosts hbusy hrange, ?_⟩
  generalize fld (s.mach.rs a).toNat 0 8 = first, fld (s.mach.rs a).toNat 8 8 + 1 = n
  let m := (s.mach.charge 3).invalidate s.mach.ccc k bank.toNat first n
  have hretire : m.MovesOn (m.retire s.now) s.now := Mach.retire_movesOn s.now hs
  have hqueue := (m.retire s.now).rebind_requeued k bank.toNat
  obtain ⟨hcs, hccs, hpend⟩ := ((m.retire s.now).rebind k bank.toNat).missPause_frame s.now
  refine ⟨?_, hpend.trans (hqueue.pend.trans hretire.pend), fun j => ?_⟩
  · rw [State.mach_on, hcs, Mach.cs, hqueue.cur, hqueue.waddr]
    exact congrArg (fun q : FQ => q.waddr % 2 ^ 24) hretire.fq0
  · have hcct := Mach.cct_congr (hccs.trans (hqueue.ccs.trans hretire.ccs)) s.mach.ccc
    rw [State.mach_on, hcct, Mach.entry_invalidate, Mach.entry_charge]

/-! ### DSW (R119) -/

/-- DSW of the scalar class: the issuing stream's bank, from the word fetched after it (R119, R122). -/
theorem exec_dsw_scalar {s : State} (bank : BitVec 2) (hs : s.onScalar) : ∃ t, exec (.dsw .scalar bank) s = .next t ∧
    t.mach.cs.dbank = bank.toNat ∧ t.mach.cs.fq0 = s.mach.cs.fq1 ∧ t.mach.pend = s.mach.pend := by
  let m := s.mach.charge 3
  have hretire : m.MovesOn (m.retire s.now) s.now := Mach.retire_movesOn s.now hs
  let n := (m.retire s.now).modStr s.mach.cur (fun x => { x with dbank := bank.toNat })
  obtain ⟨hcs, -, hpend⟩ := n.missPause_frame s.now
  have hown : n.cs = { (m.retire s.now).cs with dbank := bank.toNat } := by
    have hcur : (m.retire s.now).cur = s.mach.cur := hretire.cur
    show ((m.retire s.now).modStr _ _).str (m.retire s.now).cur = _
    rw [hcur, Mach.str_modStr_same, Mach.cs, hcur]
  rw [hown] at hcs
  exact ⟨s.on (n.missPause s.now), rfl, congrArg Stream.dbank hcs, (congrArg Stream.fq0 hcs).trans hretire.fq0, hpend.trans hretire.pend⟩

/-- Charges and results in flight are the same beside any change of streams. -/
theorem Mach.Puts.modStreams {m n : Mach} {ps : List Pend} (h : m.Puts n ps) (ids : List Nat) (f : Stream → Stream) :
    (m.modStreams ids f).Puts (n.modStreams ids f) ps := by
  induction ids generalizing m n with
  | nil => exact h
  | cons i ids ih =>
    refine ih ⟨?_, h.ccs, h.ctxs⟩
    rw [h.rest]
    rfl

/-- Streams changed in what is neither their place nor their class. -/
theorem Mach.modStreams_sel {f : Stream → Stream} (hf : ∀ x, (f x).sel = x.sel) (m : Mach) (ids : List Nat) (j : Nat) :
    ((m.modStreams ids f).str j).sel = (m.str j).sel := by
  refine List.foldlRecOn (motive := fun n : Mach => (n.str j).sel = (m.str j).sel) ids _ rfl (fun n hn i _ => ?_)
  rw [Mach.str_modStr]
  split
  next h => rw [hf, ← h, hn]
  next => exact hn

/-- Changing streams leaves which of them executes. -/
theorem Mach.modStreams_cur (m : Mach) (ids : List Nat) (f : Stream → Stream) : (m.modStreams ids f).cur = m.cur :=
  List.foldlRecOn (motive := fun n : Mach => n.cur = m.cur) ids _ rfl (fun _ hn _ _ => hn)

/-- DSW of an engine class at rest: its streams of the job on the cluster take the bank (R119). -/
theorem exec_dsw_engine_spec {s : State} {k : Cls} {bank : BitVec 2} (hs : s.onScalar) (hhosts : hosts s.mach.cs.sel.kind k = true)
    (hk : k ≠ .scalar) (hbusy : s.mach.classBusy k = false) : ∃ t, exec (.dsw k bank) s = .next t ∧
      (s.on (s.mach.modStreams ((s.mach.streamsOn s.mach.cs.job s.mach.clc).filter (fun i => (s.mach.str i).sel.cls == k))
        (fun x => { x with dbank := bank.toNat }))).Retired t [] := by
  refine ⟨_, exec_dsw_engine hhosts hk hbusy, ?_⟩
  generalize (s.mach.streamsOn s.mach.cs.job s.mach.clc).filter (fun i => (s.mach.str i).sel.cls == k) = ids
  refine State.go_retired (s := s.on _) ?_ ((s.mach.charge_puts 3 1).modStreams ids _)
  show ((s.mach.modStreams ids _).str (s.mach.modStreams ids _).cur).sel.cls = .scalar
  rw [Mach.modStreams_cur]
  refine (congrArg Sel.cls (Mach.modStreams_sel ?_ ..)).trans hs
  exact fun _ => rfl

/-! ### DFENCE (R120) -/

/-- The executing stream's queue fetched again under its bank, with three cycles more. -/
def Mach.fence (m : Mach) : Mach :=
  let n := m.refetch m.cur true
  n.modStr n.cur (fun x => { x with lastIssue := x.lastIssue + 3 })

theorem Mach.fence_cs (m : Mach) :
    m.fence.cs.lastIssue = m.cs.lastIssue + 3 ∧ m.fence.cs.fq0.waddr = m.cs.fq0.waddr % 2 ^ 24 ∧
      m.fence.cs.fq0.bank = m.cs.dbank ∧ m.fence.cs.fq1.bank = m.cs.dbank ∧ m.fence.cs.fq2.bank = m.cs.dbank := by
  obtain ⟨w, a, b, c, hw, haddr, hbank, hr⟩ := m.refetch_spec m.cur true
  obtain ⟨ha, hb, hc⟩ := hbank rfl
  have hcur : (m.refetch m.cur true).cur = m.cur := by rw [hr]; exact hw.cur
  have hown : (w.str m.cur).lastIssue = m.cs.lastIssue := by rw [hw.own]; rfl
  have hfence : m.fence = w.modStr m.cur (fun s => { s with
      fq0 := { a with annul := s.fq0.annul }, fq1 := { b with annul := s.fq1.annul }, fq2 := { c with annul := s.fq2.annul },
      lastIssue := s.lastIssue + 3 }) := by
    rw [Mach.fence, hcur, hr, Mach.modStr_modStr]
  have hfcur : m.fence.cur = m.cur := by rw [hfence]; exact hw.cur
  rw [Mach.cs, hfcur, hfence, Mach.str_modStr_same]
  exact ⟨congrArg (· + 3) hown, haddr, ha, hb, hc⟩

theorem exec_dfence_next {s : State} (hs : s.onScalar) (hslots : s.mach.cs.slots = 0) :
    exec .dfence s = .next (s.on (((s.mach.charge 3).retire s.now).fence.missPause s.now)) := by
  have hcur : ((s.mach.charge 3).retire s.now).cur = s.mach.cur := (Mach.retire_movesOn (m := s.mach.charge 3) s.now hs).cur
  simp only [exec_dfence, execDfence, onWord, onMach, hslots, bne_self_eq_false, Bool.false_eq_true, if_false, Mach.fence, hcur]
  rfl

/-- DFENCE: the queue moves on, is fetched again under the stream's bank, and its next word issues three cycles later (R120). -/
theorem exec_dfence_spec {s : State} (hs : s.onScalar) (hslots : s.mach.cs.slots = 0) : ∃ t, exec .dfence s = .next t ∧
    t.mach.cs.lastIssue = s.mach.ccyc s.now + 3 ∧ t.mach.cs.fq0.waddr = s.mach.cs.fq1.waddr % 2 ^ 24 ∧
    t.mach.cs.fq0.bank = s.mach.cs.dbank ∧ t.mach.cs.fq1.bank = s.mach.cs.dbank ∧ t.mach.cs.fq2.bank = s.mach.cs.dbank := by
  have hretire := Mach.retire_movesOn (m := s.mach.charge 3) s.now hs
  have hcyc : (s.mach.charge 3).ccyc s.now = s.mach.ccyc s.now := by rw [(s.mach.charge_puts 3 1).rest]; rfl
  obtain ⟨hissue, haddr, hbank⟩ := ((s.mach.charge 3).retire s.now).fence_cs
  rw [hretire.lastIssue, hcyc] at hissue
  rw [hretire.fq0, s.mach.charge_cs 3 1] at haddr
  rw [hretire.dbank, s.mach.charge_cs 3 1] at hbank
  refine ⟨_, exec_dfence_next hs hslots, ?_⟩
  rw [State.mach_on, (Mach.missPause_frame _ s.now).1]
  exact ⟨hissue, haddr, hbank⟩

/-! ### An entry arrives (R112, R117) -/

/-- An entry of a DLD stored as it arrives, and charged to the executing stream's context (R112, R361). -/
def Mach.storeEntry (m : Mach) (k : Cls) (bank next src : Nat) : Mach :=
  (m.modCct m.ccc (fun c => c.setEntry k bank next (entryOf k src).1)).charge 3

theorem Mach.entry_storeEntry (m : Mach) (k : Cls) (bank next src : Nat) :
    ((m.storeEntry k bank next src).cct m.ccc).entry k bank next = if losesValid k src then src % 2 ^ 96 - 2 ^ 95 else src % 2 ^ 96 := by
  rw [Mach.storeEntry, Mach.entry_charge, Mach.cct_modCct, if_pos rfl, Cctx.entry_setEntry, if_pos rfl, entryOf_eq]

section
variable {s : State} {k : Cls} {bank next bad va : Nat} {d : R} {m : Mach} {p : Pg}
  (hhold : (s.mach.str (s.mach.arg 0)).hold = .dld k bank next 1 bad va false d) (hstate : (s.mach.str (s.mach.arg 0)).state ≠ .frozen)
  (hx : ({ s.mach with cur := s.mach.arg 0 } : Mach).xlat (s.mach.arg 0) va { rd := true, ex := true } = .ok (m, p))
include hhold hstate hx

/-- The last entry of a DLD: it is stored, and the word completes. -/
theorem exec_dldEntryArrival_last : exec .dldEntryArrival s = .next (s.on
    (((m.storeEntry k bank next (leNat (m.readPg (s.mach.arg 0) .plain p 16))).replyReg s.now (s.mach.arg 0) d
      (wd (bad + b2n (losesValid k (leNat (m.readPg (s.mach.arg 0) .plain p 16)))))).rebind k bank)) := by
  simp only [exec_dldEntryArrival, execDldEntryArrival, onMach, hhold, beq_eq_false_iff_ne.2 hstate, Bool.false_eq_true, if_false, hx,
    le_refl, if_true, Mach.storeEntry, entryOf_eq, State.on]

/-- What the last entry's arrival leaves: the entry as R112 stores it, and for an engine's class the word completed. -/
theorem exec_dldEntryArrival_spec (hcls : (s.mach.str (s.mach.arg 0)).sel.cls = .scalar) :
    let sid := s.mach.arg 0
    let src := leNat (m.readPg sid .plain p 16)
    ∃ t, exec .dldEntryArrival s = .next t ∧
      (t.mach.cct (ccKey (s.mach.job (s.mach.str sid).job).cx (s.mach.str sid).sel.lc)).entry k bank next =
        (if losesValid k src then src % 2 ^ 96 - 2 ^ 95 else src % 2 ^ 96) ∧
      (k ≠ .scalar → s.Replied t sid d (wd (bad + b2n (losesValid k src)))) := by
  intro sid src
  have hw := Mach.xlat_walked hx
  have hown : m.str sid = { s.mach.str sid with l1 := (m.str sid).l1 } := hw.own
  have hccc : m.ccc = ccKey (s.mach.job (s.mach.str sid).job).cx (s.mach.str sid).sel.lc := by
    have hcur : m.cur = sid := hw.cur
    rw [Mach.ccc, Mach.cj, Mach.clc, Mach.cs, hcur, hown, Mach.job_congr hw.jobs]
    rfl
  generalize hn : m.storeEntry k bank next src = n
  have hstr : n.str sid = { s.mach.str sid with l1 := (m.str sid).l1 } := by rw [← hn, ← hown]; rfl
  have hmoves := n.replyReg_moves s.now sid d (wd (bad + b2n (losesValid k src))) (by rw [hstr]; exact hcls)
  refine ⟨_, exec_dldEntryArrival_last hhold hstate hx, ?_, fun hk => ?_⟩
  · rw [State.mach_on, hn, Mach.cct_congr (Mach.rebind_requeued _ k bank).ccs, Mach.cct_congr (n := n) (by rw [hmoves.rest]), ← hccc, ← hn]
    exact m.entry_storeEntry k bank next src
  · rw [Mach.rebind_engine _ bank hk, hn]
    exact ⟨rfl, hmoves.hold, hmoves.fq0.trans (by rw [hstr]), hmoves.fq1.trans (by rw [hstr]), fun r => (hmoves.rd r).trans (by rw [hstr]; rfl)⟩

end

/-! ### The obligation -/

/-- Settles O25: each word of the dictionary by its own lemma, and the arrival of a DLD's last entry. -/
theorem dictionaryWords : Obligations.DictionaryWords := by
  unfold Obligations.DictionaryWords
  refine ⟨fun s k bank d a b hs hhosts => ⟨fun hbusy hrange halign m p hx hbad hstart => ⟨fun ht => ?_, fun ht => ?_⟩,
    fun hbusy hrange => ?_, exec_dsw_scalar bank hs, fun hk hbusy => exec_dsw_engine_spec hs hhosts hk hbusy,
    fun hslots => exec_dfence_spec hs hslots, ⟨_, exec_drd_next hhosts, State.go_retired hs (s.charge_push 3 1 1 _ 0)⟩⟩,
    fun s k bank next left bad va d m p hhold hstate hcls hx hleft => ?_⟩
  · obtain ⟨⟨tick, hmem⟩, hheld⟩ := dldNext_held hx hbad hstart k bank.toNat (fld (s.mach.rs b).toNat 0 8)
      (fld (s.mach.rs b).toNat 8 8 + 1) 0 d ht
    exact ⟨_, tick, exec_dld_next hhosts hbusy hrange halign, hmem, hheld⟩
  · exact ⟨_, exec_dld_next hhosts hbusy hrange halign, dldNext_held_host hx hbad hstart _ _ _ _ _ _ ht⟩
  · obtain ⟨t, he, hqueue, hpend, hentry⟩ := exec_dinv_spec hs hhosts hbusy hrange
    refine ⟨t, he, hqueue, hpend, fun i hi => ?_, fun e hlt => ?_⟩
    · rw [hentry, if_pos (by omega)]
      exact entryValid_withoutValid _
    · rw [hentry, if_neg (by omega)]
  · subst hleft
    exact exec_dldEntryArrival_spec hhold hstate hx hcls

end Sys2Proof.Machine

/-! PROOFS. Partition reset: an unlisted key of a map stands for its default, so the reset values are those of the records (R165 to R365). -/

namespace Sys2Proof.Machine

/-! ### Control registers of a context on a cluster (R165, R184, R216 to R218, R316) -/

/-- The groups of registers with a reset value of their own, as propositions. -/
theorem cregReset_eq (n : Nat) : cregReset n =
    if n = 0x60 ∨ (0x64 ≤ n ∧ n ≤ 0x79) ∨ (0x158 ≤ n ∧ n ≤ 0x15F) ∨ 2 ^ 24 ≤ n then 0x3800
    else if 0xE0 ≤ n ∧ n ≤ 0xF3 then (if (n - 0xE0) % 5 = 2 ∨ (n - 0xE0) % 5 = 3 then 8 else 0)
    else if 0x90 ≤ n ∧ n ≤ 0x91 then 0x7FFF
    else if 0x1A0 ≤ n ∧ n ≤ 0x1AF then 8
    else 0 := by
  simp only [cregReset, Bool.or_eq_true, Bool.and_eq_true, beq_iff_eq, decide_eq_true_eq, or_assoc]
  rfl

/-- ASTAT: traps on IV, DZ and OF, no flag (R165). -/
theorem cregReset_astat {n : Nat} (h : n = 0x60 ∨ (0x64 ≤ n ∧ n ≤ 0x79) ∨ (0x158 ≤ n ∧ n ≤ 0x15F)) : cregReset n = 0x3800 := by
  rw [cregReset_eq, if_pos (by omega)]

/-- VMODE of column (n - 0xE0) % 5: TYPE is 8 on F and X (R184). -/
theorem cregReset_vmode {n : Nat} (hl : 0xE0 ≤ n) (hh : n ≤ 0xF3) :
    cregReset n = if (n - 0xE0) % 5 = 2 ∨ (n - 0xE0) % 5 = 3 then 8 else 0 := by
  rw [cregReset_eq, if_neg (by omega), if_pos ⟨hl, hh⟩]

/-- MMODE (R216). -/
theorem cregReset_mmode {n : Nat} (h : n = 0x90 ∨ n = 0x91) : cregReset n = 0x7FFF := by
  rw [cregReset_eq, if_neg (by omega), if_neg (by omega), if_pos (by omega)]

/-- SMODE (R316). -/
theorem cregReset_smode {n : Nat} (hl : 0x1A0 ≤ n) (hh : n ≤ 0x1AF) : cregReset n = 8 := by
  rw [cregReset_eq, if_neg (by omega), if_neg (by omega), if_neg (by omega), if_pos ⟨hl, hh⟩]

/-- The address bases MB of the two matrix cores (R218). -/
theorem cregReset_mb {n : Nat} (hl : 0x100 ≤ n) (hh : n ≤ 0x11F) : cregReset n = 0 := by
  rw [cregReset_eq, if_neg (by omega), if_neg (by omega), if_neg (by omega), if_neg (by omega)]

/-- MSTAT of a core that holds no lease and has opened no batch (R217). -/
theorem MCore.stat_default : ({} : MCore).stat = 0 := by decide

theorem reset_mcore (k core : Nat) : sget (State.reset.mach.cct k).cores core {} = {} := rfl

theorem reset_creg (k n : Nat) : (State.reset.mach.cct k).creg n = cregReset n := rfl

/-! ### Queues and clocks (R180, R344) -/

theorem reset_queue_admin : State.reset.mach.queue 0 0 = { qctl := 0x0104400000000140#64 } := rfl

theorem reset_queue_host (q : Nat) : State.reset.mach.queue 0 (q + 1) = {} := rfl

theorem reset_pcl (c : Nat) : State.reset.mach.pcl c = {} := rfl

/-- A cluster's cycle counter counts from 0 (R180). -/
theorem reset_cycle (c : Nat) : (State.reset.mach.pcl c).cycle State.reset.now = 0 := by
  rw [reset_pcl]
  decide

/-! ### The obligation -/

/-- Settles O56: the queues by the admin queue and the others, the control registers group by group, the rest by the records' defaults. -/
theorem resetValues : Obligations.ResetValues := by
  unfold Obligations.ResetValues
  refine ⟨⟨rfl, rfl, rfl, rfl⟩, ⟨rfl, rfl, rfl, rfl, rfl, rfl, rfl⟩, ⟨rfl, rfl⟩, fun q => ?_,
    fun k => ⟨fun n => ?_, fun n => ?_, fun n => ?_, fun n => ?_, fun n => ?_, fun core => ?_⟩, fun _ => ⟨rfl, rfl⟩,
    fun c => ⟨reset_cycle c, rfl, rfl, rfl, rfl⟩⟩
  · cases q with
    | zero => rw [reset_queue_admin]; decide
    | succ q => rw [reset_queue_host]; simp only [beq_eq_false_iff_ne.2 (Nat.succ_ne_zero q)]; decide
  · rw [reset_creg]; exact cregReset_astat
  · rw [reset_creg]; exact cregReset_vmode
  · rw [reset_creg]; exact cregReset_mmode
  · rw [reset_creg]; exact cregReset_smode
  · rw [reset_creg]; exact cregReset_mb
  · rw [reset_mcore]; exact MCore.stat_default

end Sys2Proof.Machine

/-! PROOFS. What the scalar operations compute, in the words of R163, R171, R172, R174 and R175, and the words that decode to them. -/

namespace Sys2Proof.Machine

/-! ### Sums, shifts, minima and maxima (R163, R171) -/

section
variable (x y : Word)

theorem add_eq_ofNat : x + y = BitVec.ofNat 64 ((x.toNat + y.toNat) % 2 ^ 64) := BitVec.eq_of_toNat_eq (by simp)

theorem sub_eq_ofInt : x - y = BitVec.ofInt 64 (x.toInt - y.toInt) := by
  rw [Int.sub_eq_add_neg, BitVec.ofInt_add, BitVec.ofInt_neg, BitVec.ofInt_toInt, BitVec.ofInt_toInt, BitVec.sub_eq_add_neg]

theorem shiftLeft_eq_ofNat (n : Nat) : x <<< n = BitVec.ofNat 64 (x.toNat * 2 ^ n) :=
  BitVec.eq_of_toNat_eq (by rw [BitVec.toNat_shiftLeft, Nat.shiftLeft_eq, BitVec.toNat_ofNat])

theorem shlW_eq_shiftLeft (n : Nat) : shlW x n = shiftLeft x n := by
  unfold shlW shiftLeft
  split
  · rfl
  · exact shiftLeft_eq_ofNat x n

theorem shrW_eq_shiftRight (n : Nat) : shrW x n = shiftRight x n := by
  unfold shrW shiftRight
  split
  · rfl
  · rw [← Nat.shiftRight_eq_div_pow, ← BitVec.toNat_ushiftRight, BitVec.ofNat_toNat, BitVec.setWidth_eq]

theorem sarW_eq_shiftSigned (n : Nat) : sarW x n = shiftSigned x n := by
  unfold sarW shiftSigned
  split
  · rfl
  · rw [BitVec.sshiftRight, Int.shiftRight_eq_div_pow]; rfl

theorem slt_min_eq_ofInt : (if y.slt x then y else x) = BitVec.ofInt 64 (min x.toInt y.toInt) := by
  simp [BitVec.slt_eq_decide, min_comm x.toInt, min_def_lt, apply_ite (BitVec.ofInt 64)]

theorem slt_max_eq_ofInt : (if x.slt y then y else x) = BitVec.ofInt 64 (max x.toInt y.toInt) := by
  simp [BitVec.slt_eq_decide, max_def_lt, apply_ite (BitVec.ofInt 64)]

theorem ult_min_eq_ofNat : (if y.ult x then y else x) = BitVec.ofNat 64 (min x.toNat y.toNat) := by
  simp [BitVec.ult_eq_decide, min_comm x.toNat, min_def_lt, apply_ite (BitVec.ofNat 64)]

theorem ult_max_eq_ofNat : (if x.ult y then y else x) = BitVec.ofNat 64 (max x.toNat y.toNat) := by
  simp [BitVec.ult_eq_decide, max_def_lt, apply_ite (BitVec.ofNat 64)]

theorem holds_iff_condHolds (cc : Cond) : cc.holds x y = true ↔ condHolds cc x y := by
  cases cc <;> simp [Cond.holds, condHolds, BitVec.slt_eq_decide, BitVec.ult_eq_decide]

end

/-! ### Leading zeros and one bits (R171) -/

theorem clzN_of_lt {n v : Nat} (h : v < 2 ^ n) : clzN (n + 1) v = clzN n v + 1 := by
  unfold clzN
  by_cases h0 : v = 0
  · simp [h0]
  · have := (Nat.log2_lt h0).2 h
    simp only [beq_iff_eq, h0, if_false]; omega

theorem clzN_of_top {n v : Nat} (hl : 2 ^ n ≤ v) (hu : v < 2 ^ (n + 1)) : clzN (n + 1) v = 0 := by
  have h0 : v ≠ 0 := by have := Nat.two_pow_pos n; omega
  simp [clzN, h0, (Nat.log2_eq_iff h0).2 ⟨hl, hu⟩]

/-- The zeros in front of a number, counted from its top bit down. -/
theorem length_takeWhile_eq_clzN (n : Nat) : ∀ v < 2 ^ n, ((List.range n).takeWhile (fun i => !v.testBit (n - 1 - i))).length = clzN n v := by
  induction n with
  | zero =>
    intro v hv
    obtain rfl : v = 0 := by omega
    rfl
  | succ n ih =>
    intro v hv
    rw [List.range_succ_eq_map]
    by_cases hn : v < 2 ^ n
    · have hshift : ((fun i => !v.testBit (n + 1 - 1 - i)) ∘ Nat.succ) = fun i => !v.testBit (n - 1 - i) :=
        funext fun i => congrArg (fun k => !v.testBit k) (by simp only [Nat.succ_eq_add_one]; omega)
      simp only [List.takeWhile_cons, Nat.add_sub_cancel, Nat.sub_zero, Nat.testBit_lt_two_pow hn, Bool.not_false, if_true, List.length_cons,
        List.takeWhile_map, List.length_map]
      rw [clzN_of_lt hn, ← ih v hn, ← hshift]; rfl
    · have htop := Nat.testBit_of_two_pow_le_and_two_pow_add_one_gt (Nat.not_lt.1 hn) hv
      simp [htop, clzN_of_top (Nat.not_lt.1 hn) hv]

/-- The one bits of a number, counted. -/
theorem length_filter_eq_popN (n v : Nat) : ((List.range n).filter v.testBit).length = popN n v := by
  induction n with
  | zero => rfl
  | succ n ih =>
    have hp : popN (n + 1) v = popN n v + v / 2 ^ n % 2 := by simp only [popN, List.range_succ, List.foldl_append, List.foldl_cons, List.foldl_nil]
    rw [hp, ← ih, List.range_succ, List.filter_append, List.length_append, List.filter_singleton, Nat.testBit_eq_decide_div_mod_eq]
    obtain h | h := Nat.mod_two_eq_zero_or_one (v / 2 ^ n) <;> simp [h]

/-! ### Products and quotients (R172, R173) -/

section
variable (x y : Word)

theorem product_signed : product true x y = BitVec.ofInt 128 (x.toInt * y.toInt) := (BitVec.ofInt_mul ..).symm

theorem product_unsigned : product false x y = BitVec.ofInt 128 (x.toNat * y.toNat : Nat) := by
  rw [Int.natCast_mul, BitVec.ofInt_mul, BitVec.ofInt_natCast, BitVec.ofInt_natCast, BitVec.ofNat_toNat, BitVec.ofNat_toNat]; rfl

theorem extractLow_ofInt (z : Int) : (BitVec.ofInt 128 z).extractLsb' 0 64 = BitVec.ofInt 64 z :=
  BitVec.eq_of_toNat_eq (by simp only [BitVec.extractLsb'_toNat, BitVec.toNat_ofInt, Nat.shiftRight_zero]; omega)

theorem extractHigh_ofInt (z : Int) : (BitVec.ofInt 128 z).extractLsb' 64 64 = BitVec.ofInt 64 (z / 2 ^ 64) :=
  BitVec.eq_of_toNat_eq (by simp only [BitVec.extractLsb'_toNat, BitVec.toNat_ofInt, Nat.shiftRight_eq_div_pow]; omega)

theorem mul_eq_product : x * y = (product true x y).extractLsb' 0 64 := by
  rw [product_signed, extractLow_ofInt, BitVec.ofInt_mul, BitVec.ofInt_toInt, BitVec.ofInt_toInt]

theorem mulHS_eq_product : mulHS x y = (product true x y).extractLsb' 64 64 := by
  rw [product_signed, extractHigh_ofInt]; rfl

theorem mulHU_eq_product : mulHU x y = (product false x y).extractLsb' 64 64 := by
  rw [product_unsigned, extractHigh_ofInt]; rfl

theorem divS_eq_sdiv : divS x y = if y = 0 then BitVec.allOnes 64 else x.sdiv y := by
  have h : BitVec.ofInt 64 (x.toInt.tdiv y.toInt) = x.sdiv y :=
    BitVec.eq_of_toInt_eq (by rw [BitVec.toInt_sdiv, BitVec.toInt_ofInt])
  simp only [divS, beq_iff_eq, h]

theorem divU_eq_udiv : divU x y = if y = 0 then BitVec.allOnes 64 else x / y := by
  have h : wd (x.toNat / y.toNat) = x / y := ofNat_eq_of_toNat (BitVec.toNat_udiv ..).symm
  simp only [divU, beq_iff_eq, h]

theorem remS_eq_srem : remS x y = if y = 0 then x else x.srem y := by
  have h : BitVec.ofInt 64 (x.toInt.tmod y.toInt) = x.srem y := by rw [← BitVec.toInt_srem, BitVec.ofInt_toInt]
  simp only [remS, beq_iff_eq, h]

theorem remU_eq_umod : remU x y = if y = 0 then x else x % y := by
  have h : wd (x.toNat % y.toNat) = x % y := ofNat_eq_of_toNat (BitVec.toNat_umod ..).symm
  simp only [remU, beq_iff_eq, h]

theorem residueMul_signed : residueMul x.toInt.natAbs y.toInt.natAbs (x.toInt * y.toInt).natAbs = true := by
  rw [Int.natAbs_mul]; exact residueMul_self ..

theorem residueS_true : residueS x y = true := by
  rw [residueS, Int.natAbs_tdiv, Int.natAbs_tmod]; exact residueDiv_self ..

theorem residueU_true : residueU x y = true := residueDiv_self ..

end

section
variable {i : Instr} {d : R} {f : Mach → Word} {ok : Mach → Bool} {v : Word} {s : State} (hs : s.onScalar) (hok : ok s.mach = true)
  (hv : f s.mach = v)
include hs hok hv

theorem mulOp_yields (hi : exec i s = mulOp 1 d f ok (fun _ => 0) s) : s.yields i 1 d v := by
  obtain ⟨t, ht, hr⟩ := mulOp_retired (k := 1) (d := d) (v := f) (f := fun _ => 0) hs hok
  rw [if_pos rfl, List.append_nil, hv] at hr
  exact ⟨t, hi.trans ht, hr⟩

/-- A division sets DZ where its divisor is zero (R172). -/
theorem mulOp_divides {b : R} (hi : exec i s = mulOp 2 d f ok (fun m => dzOf (m.rs b)) s) : s.divides i d (s.mach.rs b) v := by
  obtain ⟨t, ht, hr⟩ := mulOp_retired (k := 2) (d := d) (v := f) (f := fun m => dzOf (m.rs b)) hs hok
  refine ⟨t, hi.trans ht, ?_⟩
  rw [hv] at hr
  by_cases hb : s.mach.rs b = 0
  · have hz : dzOf (s.mach.rs b) = 16 := if_pos (beq_iff_eq.2 hb)
    rw [if_pos hb]; simpa only [hz, OfNat.ofNat_ne_zero, if_false] using hr
  · have hz : dzOf (s.mach.rs b) = 0 := if_neg (by simpa using hb)
    rw [if_neg hb]; simpa only [hz, if_true] using hr

end

/-! ### Words that any scalar stream decodes (R82, R415) -/

/-- Only the frozen-state group is decoded otherwise in a ranger's stream (R415). -/
theorem decodeScalar_ranger (r : Bool) {w : Nat} (h : fld w 25 6 ≠ 0x1D) : decodeScalar r w = decodeScalar true w := by
  cases r with
  | true => rfl
  | false => simp only [decodeScalar]; split <;> simp_all

theorem decodeWord_rrr (r : Bool) {op sub md : Nat} {g : R → R → R → Nat → Nat → Dec} (hg : RrrGroup op g) (hop : op ≠ 0x1D) (hs : sub < 32)
    (hm : md < 32) (d a b : R) : decodeWord .scalar r (rrr op d a b sub md) 0 0 = g d a b sub md := by
  have ho : op < 0x3E := by cases hg <;> decide
  rw [decodeWord_scalar (by simp only [rrr]; omega), decodeScalar_ranger r (by rwa [fld_rrr_op d a b (by omega) hs hm]), decodeScalar_rrr hg hs hm]

theorem decodeWord_encodeScalar (r : Bool) {i : Instr} {w : Nat} (hw : i.wf = true) (h : encodeScalar i = some w) (ho : w / 2 ^ 25 ≠ 0x1D) :
    decodeWord .scalar r w 0 0 = .ok i := by
  obtain ⟨-, hlt, hd⟩ := nativeOf_encodeScalar hw h
  rw [decodeWord_scalar hlt, decodeScalar_ranger r (by simp only [fld]; omega), hd]

theorem Cond.ofCode_of_ge {md : Nat} (h : 7 ≤ md) : Cond.ofCode md = none := by
  obtain ⟨n, rfl⟩ := Nat.exists_eq_add_of_le' h
  rfl

theorem need_of_false {c : Bool} {i : Instr} (h : c = false) : need c i = .error .illegalField := by rw [need, h]; rfl

/-- CMP.AL compares nothing: its registers are both S0, or it is refused (R85, R171). -/
theorem decAlu_cmpAl (d a b : R) : decAlu d a b 16 6 = need (a == 0 && b == 0) (.cmpCc .al d a b) := rfl

theorem rri_imm20 (op : Nat) (d : R) (x : Nat) : rri op d 0 x = op * 2 ^ 25 + d.toNat * 2 ^ 20 + x := by simp [rri]

/-! ### The obligations -/

/-- Settles O1: each word by its value in flight, then by what the group's decoder makes of its fields. -/
theorem aluGroup : Obligations.AluGroup := by
  unfold Obligations.AluGroup
  refine ⟨fun d a b s hs => ?_, fun r d a b => ?_⟩
  · intro x y
    refine ⟨aluOp_yields hs (exec_add ..) (add_eq_ofNat x y), aluOp_yields hs (exec_sub ..) (sub_eq_ofInt x y), aluOp_yields hs (exec_and ..) rfl,
      aluOp_yields hs (exec_or ..) rfl, aluOp_yields hs (exec_xor ..) rfl, aluOp_yields hs (exec_andn ..) rfl,
      aluOp_yields hs (exec_shl ..) (shlW_eq_shiftLeft x _), aluOp_yields hs (exec_shr ..) (shrW_eq_shiftRight x _),
      aluOp_yields hs (exec_sar ..) (sarW_eq_shiftSigned x _), aluOp_yields hs (exec_min ..) (slt_min_eq_ofInt x y),
      aluOp_yields hs (exec_max ..) (slt_max_eq_ofInt x y), aluOp_yields hs (exec_minn ..) (ult_min_eq_ofNat x y),
      aluOp_yields hs (exec_maxn ..) (ult_max_eq_ofNat x y), aluOp_yields hs (exec_sel ..) (by simp only [bne_iff_ne]; rfl),
      aluOp_yields hs (exec_clz ..) (congrArg wd (length_takeWhile_eq_clzN 64 x.toNat x.isLt).symm),
      aluOp_yields hs (exec_popc ..) (congrArg wd (length_filter_eq_popN 64 x.toNat).symm), fun cc => ⟨fun h => ?_, fun h => ?_⟩⟩
    · exact aluOp_yields hs (exec_cmpCc ..) (if_pos ((holds_iff_condHolds x y cc).2 h))
    · exact aluOp_yields hs (exec_cmpCc ..) (if_neg (mt (holds_iff_condHolds x y cc).1 h))
  · intro word
    have hword (sub md : Nat) (hs : sub < 32) (hm : md < 32) : word sub md = decAlu d a b sub md := decodeWord_rrr r .alu (by decide) hs hm d a b
    simp (disch := decide) only [hword]
    refine ⟨rfl, rfl, rfl, rfl, rfl, rfl, rfl, rfl, rfl, rfl, rfl, rfl, rfl, rfl, ?_, fun hb => ?_, rfl, rfl, rfl, rfl, rfl, rfl, ?_, fun hab => ?_,
      fun md h7 hm => ?_⟩
    · rintro rfl; exact ⟨rfl, rfl⟩
    · exact ⟨need_of_false (by simpa using hb), need_of_false (by simpa using hb)⟩
    · rintro ⟨rfl, rfl⟩; rfl
    · rw [decAlu_cmpAl, need_of_false (by simpa using hab)]
    · rw [hword 16 md (by decide) hm]; simp only [decAlu, Cond.ofCode_of_ge h7]

/-- Settles O2: each form by its value in flight, then by what it is the encoding of. -/
theorem immediateForms : Obligations.ImmediateForms := by
  unfold Obligations.ImmediateForms
  refine ⟨fun d a k h s hs => ?_, fun r d a k h => ?_⟩
  · intro x
    exact ⟨aluOp_yields (f := fun m => m.rs a + imm15 k) hs (exec_addi ..) rfl, aluOp_yields (f := fun m => m.rs a &&& imm15 k) hs (exec_andi ..) rfl,
      aluOp_yields (f := fun m => m.rs a ||| imm15 k) hs (exec_ori ..) rfl, aluOp_yields (f := fun m => m.rs a ^^^ imm15 k) hs (exec_xori ..) rfl,
      aluOp_yields (f := fun m => shlW (m.rs a) k.toNat) hs (exec_shli ..) (shlW_eq_shiftLeft x _),
      aluOp_yields (f := fun m => shrW (m.rs a) k.toNat) hs (exec_shri ..) (shrW_eq_shiftRight x _),
      aluOp_yields (f := fun m => sarW (m.rs a) k.toNat) hs (exec_sari ..) (sarW_eq_shiftSigned x _),
      aluOp_yields (f := fun _ => imm20 h) hs (exec_movi ..) rfl,
      aluOp_yields (f := fun m => (m.rs d <<< 20) ||| h.setWidth 64) hs (exec_movh ..) (congrArg (· ||| h.setWidth 64) (shiftLeft_eq_ofNat _ 20))⟩
  · have hne {op : Nat} (ho : op ≠ 0x1D) : rri op d a k.toNat / 2 ^ 25 ≠ 0x1D := by simp only [rri]; omega
    refine ⟨?_, ?_, ?_, ?_, ?_, ?_, ?_, ?_, ?_⟩
    iterate 7 exact decodeWord_encodeScalar r rfl rfl (hne (by decide))
    iterate 2 exact decodeWord_encodeScalar r rfl (congrArg some (rri_imm20 ..)) (by omega)

/-- Settles O3: every residue check passes, and each value is a half of the product, a quotient or a remainder. -/
theorem multiplyDivideGroup : Obligations.MultiplyDivideGroup := by
  unfold Obligations.MultiplyDivideGroup
  refine ⟨fun d a b s hs => ?_, fun r d a b => ?_⟩
  · intro x y
    exact ⟨mulOp_yields hs (residueMul_self ..) (mul_eq_product x y) (exec_mul ..),
      mulOp_yields hs (residueMul_signed ..) (mulHS_eq_product x y) (exec_mulh ..),
      mulOp_yields hs (residueMul_self ..) (mulHU_eq_product x y) (exec_mulhn ..),
      mulOp_divides hs (residueS_true x y) (divS_eq_sdiv x y) (exec_div ..), mulOp_divides hs (residueU_true x y) (divU_eq_udiv x y) (exec_divn ..),
      mulOp_divides hs (residueS_true x y) (remS_eq_srem x y) (exec_rem ..), mulOp_divides hs (residueU_true x y) (remU_eq_umod x y) (exec_remn ..)⟩
  · intro word
    have hword (sub : Nat) (hs : sub < 32) : word sub = decMul d a b sub 0 := decodeWord_rrr r (md := 0) .mul (by decide) hs (by decide) d a b
    simp (disch := decide) only [hword]
    exact ⟨rfl, rfl, rfl, rfl, rfl, rfl, rfl⟩

end Sys2Proof.Machine

/-! PROOFS. Control registers and clocks: what MFC and MTC answer for a register that the stream has and for one that it has not, and an MTC's write
bit by bit (R6, R178, R180, R181). -/

namespace Sys2Proof.Machine

/-! ### MFC, MTC, the clocks and NOP (R178, R180, R181) -/

section
variable {s : State} {c : BitVec 15}

theorem exec_mfc_yields {acc : CAcc} (d : R) (hs : s.onScalar) (hacc : s.mach.cregAccess s.mach.cs.isRanger c.toNat = some acc) :
    s.yields (.mfc d c) 0 d (s.mach.cregRead c.toNat) := by
  refine ⟨_, exec_mfc .., ?_⟩
  simp only [hacc]
  exact State.go_retired hs (s.charge_push 0 1 0 _ 0)

theorem exec_mfc_unassigned (d : R) (hacc : s.mach.cregAccess s.mach.cs.isRanger c.toNat = none) :
    ∃ t, exec (.mfc d c) s = .next t ∧ s.Raises t { code := .illegalField } :=
  ⟨_, exec_mfc .., by simp only [hacc]; rfl⟩

theorem exec_mtc_unassigned (a : R) (hacc : s.mach.cregAccess s.mach.cs.isRanger c.toNat = none) :
    ∃ t, exec (.mtc c a) s = .next t ∧ s.Raises t { code := .illegalField } :=
  ⟨_, exec_mtc .., by simp only [hacc]; rfl⟩

section
variable {acc : CAcc} {a : R} (hacc : s.mach.cregAccess s.mach.cs.isRanger c.toNat = some acc)
include hacc

theorem exec_mtc_reserved (hrsv : (s.mach.rs a).toNat &&& acc.rsv ≠ 0) :
    ∃ t, exec (.mtc c a) s = .next t ∧ s.Raises t { code := .illegalField } := by
  have hrsv : ((s.mach.rs a).toNat &&& acc.rsv != 0) = true := bne_iff_ne.2 hrsv
  refine ⟨_, exec_mtc .., ?_⟩
  simp only [hacc, hrsv, Bool.true_or, if_true]
  rfl

/-- An MTC whose value breaks no limit, of a register other than XINVC or while no invalidation is in progress (R178, R382). -/
theorem exec_mtc_retired (hs : s.onScalar) (hrsv : (s.mach.rs a).toNat &&& acc.rsv = 0)
    (hok : s.mach.cregValueOk c.toNat (s.mach.rs a) = true)
    (hbusy : c.toNat = 0x311 → ((s.mach.cct s.mach.ccc).creg 0x311).getLsbD 63 = false) :
    ∃ t, exec (.mtc c a) s = .next t ∧ s.Retired t
      [s.result 0 0 (if 0x80 ≤ c.toNat ∧ c.toNat < 0x90 then 1 else 0) (.creg (s.mach.cregTarget c.toNat) (s.mach.rs a))] := by
  have hfits : ((s.mach.rs a).toNat &&& acc.rsv != 0 || !s.mach.cregValueOk c.toNat (s.mach.rs a)) = false := by simp [hrsv, hok]
  have hfree : (c.toNat == 0x311 && bitOf ((s.mach.cct s.mach.ccc).creg 0x311).toNat 63) = false := by
    rw [Bool.and_eq_false_imp, beq_iff_eq]
    intro h
    rw [bitOf, ← hbusy h, BitVec.getLsbD, Nat.testBit_eq_decide_div_mod_eq, beq_eq_decide]
  refine ⟨_, exec_mtc .., ?_⟩
  simp only [hacc, hfits, hfree, Bool.false_eq_true, if_false, Bool.and_eq_true, decide_eq_true_eq]
  exact State.go_retired hs (s.charge_push 0 1 0 _ _)

end

theorem exec_cyc_yields (d : R) (hs : s.onScalar) :
    s.yields (.cyc d) 0 d (BitVec.ofNat 64 ((s.mach.pcl (s.mach.pcOf s.mach.cpart s.mach.clc)).cycle s.now)) :=
  ⟨_, exec_cyc .., State.go_retired hs (s.charge_push 0 1 0 _ 0)⟩

theorem exec_ptime_yields (d : R) (hs : s.onScalar) : s.yields (.ptime d) 0 d (BitVec.ofNat 64 (s.mach.cycleStart s.now / 84)) :=
  ⟨_, exec_ptime .., State.go_retired hs (s.charge_push 0 1 0 _ 0)⟩

theorem exec_nop_retired (hs : s.onScalar) : ∃ t, exec .nop s = .next t ∧ s.Retired t [] :=
  ⟨_, exec_nop s, State.go_retired hs (s.mach.charge_puts 0 1)⟩

end

/-! ### A control register's write (R6, R178) -/

theorem Cctx.creg_setCreg_same (x : Cctx) (c : Nat) (v : Word) : (x.setCreg c v).creg c = v := by
  simp [Cctx.setCreg, Cctx.creg, sget?_sset]

/-- A place that an MTC changes in no bit needs no case of its own. -/
theorem Cctx.creg_cregWrite (x : Cctx) (c : Nat) (v : Word) : (x.cregWrite c v).creg c =
    ((x.creg c &&& ~~~(wd (placeAcc c).rw)) ||| (v &&& wd (placeAcc c).rw)) &&& ~~~(v &&& wd (placeAcc c).w1c) := by
  rw [Cctx.cregWrite]
  split
  · next h =>
    obtain ⟨hrw, hw1c⟩ := Bool.and_eq_true_iff.1 h
    rw [eq_of_beq hrw, eq_of_beq hw1c]
    show x.creg c = (x.creg c &&& ~~~0#64 ||| v &&& 0#64) &&& ~~~(v &&& 0#64)
    rw [BitVec.and_zero, BitVec.or_zero, BitVec.not_zero, BitVec.and_allOnes, BitVec.and_allOnes]
  · exact Cctx.creg_setCreg_same ..

/-! ### The obligations -/

/-- Settles O4: each word by its own lemma. -/
theorem controlRegisterWords : Obligations.ControlRegisterWords := by
  unfold Obligations.ControlRegisterWords
  refine ⟨fun d a c s hs => ⟨fun acc hacc => ⟨exec_mfc_yields d hs hacc, exec_mtc_retired hacc hs⟩, exec_cyc_yields d hs, exec_ptime_yields d hs,
    exec_nop_retired hs⟩, fun d a c s => ⟨fun hacc => ⟨exec_mfc_unassigned d hacc, exec_mtc_unassigned a hacc⟩,
    fun acc hacc hrsv => exec_mtc_reserved hacc hrsv⟩⟩

/-- Settles O5: a bit that a one clears, a bit that the value reaches, and one that stays. -/
theorem controlRegisterWriteByField : Obligations.ControlRegisterWriteByField := by
  unfold Obligations.ControlRegisterWriteByField
  intro x c v i hi
  rw [Cctx.creg_cregWrite]
  simp only [BitVec.getLsbD_and, BitVec.getLsbD_or, BitVec.getLsbD_not, hi, decide_true, Bool.true_and,
    Bool.and_comm (v.getLsbD i) ((wd (placeAcc c).w1c).getLsbD i)]
  cases (wd (placeAcc c).w1c).getLsbD i && v.getLsbD i with
  | true => simp
  | false => cases (wd (placeAcc c).rw).getLsbD i <;> simp

end Sys2Proof.Machine

/-! PROOFS. The lanes of a vector operand, and a lane-wise result with its flags (R183, R188, R213). -/

namespace Sys2Proof.Machine

/-! ### Numbers and their bits -/

theorem wrapN_eq_toNat {w : Nat} {i : Int} {x : BitVec w} (h : BitVec.ofInt w i = x) : wrapN w i = x.toNat := by
  rw [← h, BitVec.toNat_ofInt, wrapN]

theorem sInt_eq_toInt (w v : Nat) : sInt w v = (BitVec.ofNat w v).toInt := by
  rw [sInt, BitVec.toInt_eq_toNat_cond, BitVec.toNat_ofNat]
  rcases w with _ | w
  · simp [Nat.mod_one]
  · rw [Nat.pow_succ, Nat.add_sub_cancel]
    exact if_congr (by omega) rfl rfl

theorem lane_lt (r : Wide) (w i : Nat) : lane r w i < 2 ^ w := Nat.mod_lt _ (Nat.two_pow_pos w)

section
variable (e : VEnv) (f : F7) (j : Nat)

@[simp] theorem VEnv.length_els : (e.els f).length = e.n := by simp [VEnv.els, lanes]

@[simp] theorem VEnv.length_maskBits (k n : Nat) : (e.maskBits k n).length = n := by
  rw [VEnv.maskBits]; split <;> simp [lanes]

@[simp] theorem VEnv.length_act (n : Nat) : (e.act n).length = n := e.length_maskBits ..

theorem VEnv.els_lt {v : Nat} (h : v ∈ e.els f) : v < 2 ^ e.w := by
  obtain ⟨i, -, rfl⟩ := List.mem_map.1 h
  exact lane_lt ..

theorem VEnv.els_getD_lt : (e.els f).getD j 0 < 2 ^ e.w := by
  rw [List.getD_eq_getElem?_getD]
  cases h : (e.els f)[j]? with
  | none => exact Nat.two_pow_pos _
  | some v => exact e.els_lt f (List.mem_of_getElem? h)

/-- An element is its own bits (R183). -/
theorem VEnv.els_getD : (e.els f).getD j 0 = (e.el f j).toNat := by
  rw [VEnv.el, BitVec.toNat_ofNat, Nat.mod_eq_of_lt (e.els_getD_lt f j)]

/-- The elements of an operand, lane by lane. -/
theorem VEnv.els_eq_map : e.els f = (List.range e.n).map (fun j => (e.els f).getD j 0) := by
  refine List.ext_getElem (by simp) fun i h _ => ?_
  rw [List.getElem_map, List.getElem_range, List.getD_eq_getElem _ _ h]

theorem VEnv.int'_toNat (a : BitVec e.w) : e.t.int' a.toNat = e.num a := by
  rw [ETy.int', VEnv.num, sInt_eq_toInt, ← VEnv.w, BitVec.ofNat_toNat, BitVec.setWidth_eq, Nat.mod_eq_of_lt a.isLt]

end

/-! ### Flags of active lanes (R165, R188) -/

theorem act_eq_map {n : Nat} {act : List Bool} (h : act.length = n) : act = (List.range n).map (fun j => act.getD j false) := by
  refine List.ext_getElem (by simp [h]) fun i hi _ => ?_
  rw [List.getElem_map, List.getElem_range, List.getD_eq_getElem _ _ hi]

theorem flagsOf_eq_zero {act : List Bool} {rs : List (Nat × Nat)} (h : ∀ r ∈ rs, r.2 = 0) : flagsOf act rs = 0 := by
  have hz : ∀ p ∈ act.zip rs, p.2.2 = 0 := fun p hp => h _ (List.of_mem_zip hp).2
  rw [flagsOf]
  generalize act.zip rs = l at hz
  induction l with
  | nil => rfl
  | cons p t ih =>
    rw [List.foldl_cons, hz p List.mem_cons_self, Nat.or_zero, ite_self]
    exact ih fun q hq => hz q (List.mem_cons_of_mem _ hq)

/-- The flags of results given lane by lane. -/
theorem flagsOf_map {n : Nat} {act : List Bool} (hn : act.length = n) (g : Nat → Nat × Nat) :
    flagsOf act ((List.range n).map g) = (List.range n).foldl (fun a j => if act.getD j false then a ||| (g j).2 else a) 0 := by
  conv_lhs => rw [act_eq_map hn]
  rw [flagsOf, List.zip_map', List.foldl_map]

theorem foldl_or_b2n (on p : Nat → Bool) (l : List Nat) (b : Bool) :
    l.foldl (fun a j => if on j then a ||| b2n (p j) else a) (b2n b) = b2n (b || l.any (fun j => on j && p j)) := by
  induction l generalizing b with
  | nil => simp
  | cons j t ih =>
    have step : (if on j then b2n b ||| b2n (p j) else b2n b) = b2n (b || (on j && p j)) := by
      cases on j <;> cases b <;> cases p j <;> rfl
    rw [List.foldl_cons, step, ih, List.any_cons, Bool.or_assoc]

/-- One flag, raised by the active lanes where `p` holds. -/
theorem flagsOf_b2n {n : Nat} {act : List Bool} (hn : act.length = n) {g : Nat → Nat × Nat} {p : Nat → Bool} (hg : ∀ j, (g j).2 = b2n (p j)) :
    flagsOf act ((List.range n).map g) = b2n ((List.range n).any (fun j => act.getD j false && p j)) := by
  simp only [flagsOf_map hn, hg]
  exact foldl_or_b2n _ _ _ false

/-! ### Lane-wise results -/

theorem VEnv.lanewise_eq_lanesOf {e : VEnv} (d : F7) {g : Nat → Nat × Nat} {f : Nat → BitVec e.w} (h : ∀ j, (g j).1 = (f j).toNat) :
    e.lanewise d ((List.range e.n).map g) = e.lanesOf d f (flagsOf (e.act e.n) ((List.range e.n).map g)) := by
  simp only [VEnv.lanewise, VEnv.lanesOf, List.map_map, Function.comp_def, h]

/-- A lane-wise result that raises no flag. -/
theorem VEnv.lanewise_unflagged {e : VEnv} (d : F7) {g : Nat → Nat × Nat} {f : Nat → BitVec e.w} (h : ∀ j, g j = ((f j).toNat, 0)) :
    e.lanewise d ((List.range e.n).map g) = e.lanesOf d f 0 := by
  rw [e.lanewise_eq_lanesOf d (fun j => congrArg Prod.fst (h j)), flagsOf_eq_zero]
  intro r hr
  obtain ⟨j, -, rfl⟩ := List.mem_map.1 hr
  rw [h]

/-! ### The checks that a micro-order passes (R94, R97, R187) -/

theorem Mach.venv_tc_lt (m : Mach) (mi : Micro) : (m.venv mi).tc < 32 := by
  show (match mi.long with | some t => t.type.toNat | none => fld _ 0 5) < 32
  split
  · exact BitVec.isLt _
  · exact Nat.mod_lt _ (by decide)

section
variable {m : Mach} {op k : Nat} {mi : Micro} {types : List Nat} {rounds : Nat → Bool} (hcol : m.cs.sel.col = k)
  (ht : types.contains (m.venv mi).tc = true)
include hcol ht

/-- On a column that hosts it, a micro-order that does not round passes its checks with no rounding named. -/
theorem vecBad_exact (hr : rounds (m.venv mi).tc = false) (hx : exactForm mi) (hop : vecHosts op k = true ∧ op ≠ 0x45 := by decide) :
    m.vecBad op mi types rounds = none :=
  vecBad_ok ((congrArg (vecHosts op) hcol).trans hop.1) ht hop.2 hr hx

/-- One that rounds, with a rounding named (R94). -/
theorem vecBad_rounded (hr : rounds (m.venv mi).tc = true) (hx : roundedForm mi) (hop : vecHosts op k = true ∧ op ≠ 0x45 := by decide) :
    m.vecBad op mi types rounds = none := by
  have hh : vecHosts op (m.venv mi).col = true := (congrArg (vecHosts op) hcol).trans hop.1
  simp only [Mach.vecBad, hh, ht, hr]
  cases hl : mi.long with
  | none => rfl
  | some t => simpa [hop.2] using hx t hl

end

end Sys2Proof.Machine

/-! PROOFS. Integer micro-orders of columns A and B (R191, R213). -/

namespace Sys2Proof.Machine

/-! ### Results as bits -/

theorem plain_eq {e : VEnv} {f : VEnv → Nat → Nat → Nat → Int} {a b c : Nat} {x : BitVec e.w} (h : BitVec.ofInt e.w (f e a b c) = x) :
    plain f e a b c = (x.toNat, 0) := congrArg (·, 0) (wrapN_eq_toNat h)

section
variable {w : Nat} (a b : BitVec w)

theorem ofInt_toNat_add : BitVec.ofInt w (a.toNat + b.toNat) = a + b := by
  rw [BitVec.ofInt_add, BitVec.ofInt_natCast, BitVec.ofInt_natCast, BitVec.ofNat_toNat, BitVec.ofNat_toNat, BitVec.setWidth_eq, BitVec.setWidth_eq]

theorem ofInt_toNat_neg : BitVec.ofInt w (-a.toNat) = -a := by
  rw [BitVec.ofInt_neg, BitVec.ofInt_natCast, BitVec.ofNat_toNat, BitVec.setWidth_eq]

theorem ofInt_toNat_sub : BitVec.ofInt w (a.toNat - b.toNat) = a - b := by
  rw [Int.sub_eq_add_neg, BitVec.ofInt_add, ofInt_toNat_neg, BitVec.ofInt_natCast, BitVec.ofNat_toNat, BitVec.setWidth_eq, BitVec.sub_eq_add_neg]

theorem ofInt_toNat_mul : BitVec.ofInt w (a.toNat * b.toNat) = a * b := by
  rw [BitVec.ofInt_mul, BitVec.ofInt_natCast, BitVec.ofInt_natCast, BitVec.ofNat_toNat, BitVec.ofNat_toNat, BitVec.setWidth_eq, BitVec.setWidth_eq]

theorem toNat_sub_and : a.toNat - (a.toNat &&& b.toNat) = (a &&& ~~~b).toNat := by
  have hz : (a &&& b) &&& (a &&& ~~~b) = 0#w := by ext i; simp; grind
  have ha : (a &&& b) + (a &&& ~~~b) = a := by
    rw [BitVec.add_eq_or_of_and_eq_zero _ _ hz, ← BitVec.and_or_distrib_left]
    simp
  have h := BitVec.toNat_add_of_and_eq_zero hz
  rw [ha, BitVec.toNat_and a b] at h
  omega

theorem shiftLeft_toNat (n : Nat) : (if w ≤ n then 0 else a.toNat * 2 ^ n % 2 ^ w) = (a <<< n).toNat := by
  rw [BitVec.toNat_shiftLeft, Nat.shiftLeft_eq]
  split
  · next h => rw [Nat.mod_eq_zero_of_dvd (Dvd.dvd.mul_left (Nat.pow_dvd_pow 2 h) _)]
  · rfl

theorem ushiftRight_toNat (n : Nat) : (if w ≤ n then 0 else a.toNat / 2 ^ n) = (a >>> n).toNat := by
  rw [BitVec.toNat_ushiftRight, Nat.shiftRight_eq_div_pow]
  split
  · next h => exact (Nat.div_eq_of_lt (a.isLt.trans_le (Nat.pow_le_pow_right (by decide) h))).symm
  · rfl

/-- A quotient by more than the magnitude leaves only the sign. -/
theorem ediv_of_abs_le {x p : Int} (hl : -p ≤ x) (hu : x < p) : x / p = if x < 0 then -1 else 0 := by
  split
  · exact ((Int.ediv_emod_unique (r := x + p) (by omega)).2 ⟨by omega, by omega, by omega⟩).1
  · exact Int.ediv_eq_zero_of_lt (by omega) hu

theorem ofInt_sshiftRight (n : Nat) : BitVec.ofInt w (a.toInt / (2 ^ min n w : Nat)) = a.sshiftRight n := by
  have hu : 2 * a.toInt < 2 ^ w := BitVec.two_mul_toInt_lt
  have hl : -2 ^ w ≤ 2 * a.toInt := BitVec.le_two_mul_toInt
  rw [BitVec.sshiftRight, Int.shiftRight_eq_div_pow]
  obtain h | h := Nat.le_total n w
  · rw [min_eq_left h]
  · have hp : (2 : Int) ^ w ≤ 2 ^ n := pow_le_pow_right₀ (by decide) h
    rw [min_eq_right h, ediv_of_abs_le, ediv_of_abs_le] <;> push_cast <;> omega

end

theorem ETy.lo_le_hi (t : ETy) : t.lo ≤ t.hi := by
  have := Nat.two_pow_pos (t.w - 1)
  have := Nat.two_pow_pos t.w
  rw [ETy.lo, ETy.hi]
  split <;> omega

/-- The bits that a clamped integer takes, and whether it was clamped (R163). -/
theorem ETy.clamp_eq (t : ETy) (i : Int) :
    t.clamp i = ((BitVec.ofInt t.w (max t.lo (min t.hi i))).toNat, b2n (i < t.lo || t.hi < i)) := by
  have hlh := t.lo_le_hi
  have h : clampI t.lo t.hi i = (max t.lo (min t.hi i), b2n (i < t.lo || t.hi < i)) := by
    unfold clampI
    split
    · next hl => simp [hl, b2n, fSAT]; omega
    · next hl =>
      split
      · next hh => simp [hl, hh, b2n, fSAT]; omega
      · next hh => simp [hl, hh, b2n]; omega
  rw [ETy.clamp, h]
  exact congrArg (·, _) (wrapN_eq_toNat rfl)

/-- A count of at most `w` fits in `w` bits. -/
theorem toNat_ofNat_of_le {w n : Nat} (h : n ≤ w) : (BitVec.ofNat w n).toNat = n := by
  rw [BitVec.toNat_ofNat, Nat.mod_eq_of_lt (h.trans_lt Nat.lt_two_pow_self)]

theorem clzN_eq_toNat {w : Nat} (a : BitVec w) :
    clzN w a.toNat = (BitVec.ofNat w ((List.range w).takeWhile (fun i => !a.getLsbD (w - 1 - i))).length).toNat := by
  rw [toNat_ofNat_of_le ((List.takeWhile_sublist _).length_le.trans_eq List.length_range)]
  exact (length_takeWhile_eq_clzN w a.toNat a.isLt).symm

theorem popN_eq_toNat {w : Nat} (a : BitVec w) : popN w a.toNat = (BitVec.ofNat w ((List.range w).filter (fun i => a.getLsbD i)).length).toNat := by
  rw [toNat_ofNat_of_le ((List.length_filter_le ..).trans_eq List.length_range)]
  exact (length_filter_eq_popN w a.toNat).symm

/-! ### Products and their residues (R213) -/

theorem residueMul_natAbs (x y : Int) : residueMul x.natAbs y.natAbs (x * y).natAbs = true := by
  rw [Int.natAbs_mul]; exact residueMul_self ..

/-- Every product that the multipliers form passes its residue check. -/
theorem intProds_residue (mi : Micro) (e : VEnv) : (intProds mi e).all (fun p => residueMul p.1 p.2.1 p.2.2) = true := by
  rw [List.all_eq_true]
  intro p hp
  obtain ⟨⟨on, q⟩, hq, hsome⟩ := List.mem_filterMap.1 hp
  obtain ⟨v, -, rfl⟩ := List.mem_map.1 (List.of_mem_zip hq).2
  obtain rfl : _ = p := by
    cases on with
    | true => exact Option.some.inj hsome
    | false => cases hsome
  exact residueMul_natAbs ..

/-! ### Micro-orders on columns A and B -/

/-- The lanes of an integer micro-order that raises no flag. -/
theorem VEnv.intLanes_eq {e : VEnv} (mi : Micro) {f : Nat → Nat → Nat → Nat × Nat} {g : BitVec e.w → BitVec e.w → BitVec e.w → BitVec e.w}
    (hf : ∀ a b c : BitVec e.w, f a.toNat b.toNat c.toNat = ((g a b c).toNat, 0)) :
    e.lanewise mi.dest ((List.range e.n).map (fun j => f ((e.els mi.srcA).getD j 0) ((e.els mi.srcB).getD j 0) ((e.els mi.third).getD j 0))) =
      e.lanesOf mi.dest (fun j => g (e.el mi.srcA j) (e.el mi.srcB j) (e.el mi.third j)) 0 :=
  e.lanewise_unflagged _ fun j => by simp only [VEnv.els_getD, hf]

/-- The lanes of one that clamps, and SAT where an active lane is clamped. -/
theorem VEnv.clampLanes_eq {e : VEnv} (mi : Micro) {f : Nat → Nat → Int} {z : BitVec e.w → BitVec e.w → Int}
    (hf : ∀ a b : BitVec e.w, f a.toNat b.toNat = z a b) :
    e.lanewise mi.dest ((List.range e.n).map (fun j => e.t.clamp (f ((e.els mi.srcA).getD j 0) ((e.els mi.srcB).getD j 0)))) =
      e.lanesOf mi.dest (fun j => BitVec.ofInt e.w (max e.t.lo (min e.t.hi (z (e.el mi.srcA j) (e.el mi.srcB j)))))
        (if (List.range e.n).any (fun j => (e.act e.n).getD j false &&
          (z (e.el mi.srcA j) (e.el mi.srcB j) < e.t.lo || e.t.hi < z (e.el mi.srcA j) (e.el mi.srcB j))) then 1 else 0) := by
  simp only [VEnv.els_getD, hf, ETy.clamp_eq]
  rw [e.lanewise_eq_lanesOf _ fun _ => rfl, flagsOf_b2n (e.length_act _) fun _ => rfl]
  rfl

section
variable {mi : Micro} {s : State} {i : Instr} {op : Nat} {types : List Nat} {rounds : Nat → Bool} {lat : Job → Nat} {en : Nat}
  {lim : VEnv → Bool} {f : VEnv → VOut} {o : VOut} (hr : s.microReady mi.tail.tok false)
include hr

/-- A vector micro-order that passes its checks issues with the outcome `o`. -/
theorem vecOp_issues_as (hi : exec i s = vecOp op mi types rounds lat en lim f s) (hc : s.mach.vecBad op mi types rounds = none)
    (hl : lim (s.mach.venv mi) = true) (ho : f (s.mach.venv mi) = o) : s.vecIssues i mi lat o :=
  ho ▸ vecOp_issues hr hi hc hl

theorem vecMulOp_issues_as {prods : VEnv → List (Nat × Nat × Nat)} (hi : exec i s = vecMulOp op mi types rounds lat en lim prods f s)
    (hc : s.mach.vecBad op mi types rounds = none) (hl : lim (s.mach.venv mi) = true)
    (hp : (prods (s.mach.venv mi)).all (fun p => residueMul p.1 p.2.1 p.2.2) = true) (ho : f (s.mach.venv mi) = o) : s.vecIssues i mi lat o :=
  ho ▸ vecMulOp_issues hr hi hc hl hp

end

section
variable {mi : Micro} {s : State} {i : Instr} {op : Nat} {f : VEnv → Nat → Nat → Nat → Nat × Nat} (hr : s.microReady mi.tail.tok false)
  (hcol : s.mach.cs.sel.col ≤ 1) (ht : (s.mach.venv mi).tc ≤ 7) (hx : exactForm mi)
include hcol

theorem vecHosts_int (hop : 4 ≤ op ∧ op ≤ 0x1D) : vecHosts op s.mach.cs.sel.col = true := by
  have h2 : ¬op ≤ 0x02 := by omega
  have h3 : (op == 0x03 || (0x32 ≤ op && op ≤ 0x44)) = false := by simp; omega
  simp [vecHosts, h2, h3, hop.2, hcol]

include ht hx

theorem vecBad_int (hop : 4 ≤ op ∧ op ≤ 0x1D) : s.mach.vecBad op mi tyInt noRnd = none :=
  vecBad_ok (vecHosts_int hcol hop) ((tyInt_contains _).trans (decide_eq_true ht)) (by omega) rfl hx

include hr

section
variable {g : BitVec (s.mach.venv mi).w → BitVec (s.mach.venv mi).w → BitVec (s.mach.venv mi).w → BitVec (s.mach.venv mi).w}
  (hf : ∀ a b c, f (s.mach.venv mi) a.toNat b.toNat c.toNat = ((g a b c).toNat, 0))
include hf

theorem vecInt_issues {k : Nat} (hi : exec i s = vecInt op mi k f s) (hop : 4 ≤ op ∧ op ≤ 0x1D := by decide) :
    s.vecIssues i mi (latCls k) ((s.mach.venv mi).lanesOf mi.dest (fun j => g ((s.mach.venv mi).el mi.srcA j)
      ((s.mach.venv mi).el mi.srcB j) ((s.mach.venv mi).el mi.third j)) 0) := by
  rw [vecInt] at hi
  exact vecOp_issues_as hr hi (vecBad_int hcol ht hx hop) rfl (VEnv.intLanes_eq mi hf)

theorem vecIntMul_issues (hi : exec i s = vecIntMul op mi f s) (hop : 4 ≤ op ∧ op ≤ 0x1D := by decide) :
    s.vecIssues i mi (latCls 6) ((s.mach.venv mi).lanesOf mi.dest (fun j => g ((s.mach.venv mi).el mi.srcA j)
      ((s.mach.venv mi).el mi.srcB j) ((s.mach.venv mi).el mi.third j)) 0) := by
  rw [vecIntMul] at hi
  exact vecMulOp_issues_as hr hi (vecBad_int hcol ht hx hop) rfl (intProds_residue ..) (VEnv.intLanes_eq mi hf)

end

theorem vecClamp_issues {z : VEnv → Nat → Nat → Int} {y : BitVec (s.mach.venv mi).w → BitVec (s.mach.venv mi).w → Int}
    (hf : ∀ a b : BitVec (s.mach.venv mi).w, z (s.mach.venv mi) a.toNat b.toNat = y a b)
    (hi : exec i s = vecInt op mi 5 (fun e a b _ => e.t.clamp (z e a b)) s) (hop : 4 ≤ op ∧ op ≤ 0x1D := by decide) :
    let e := s.mach.venv mi
    let x (j : Nat) : Int := y (e.el mi.srcA j) (e.el mi.srcB j)
    s.vecIssues i mi (latCls 5) (e.lanesOf mi.dest (fun j => BitVec.ofInt e.w (max e.t.lo (min e.t.hi (x j))))
      (if (List.range e.n).any (fun j => (e.act e.n).getD j false && (x j < e.t.lo || e.t.hi < x j)) then 1 else 0)) := by
  intro e x
  rw [vecInt] at hi
  exact vecOp_issues_as hr hi (vecBad_int hcol ht hx hop) rfl (VEnv.clampLanes_eq mi hf)

end

/-- VMULW writes the even lanes' products into its first register and the odd lanes' into the next (R191). -/
theorem vmulw_issues {mi : Micro} {s : State} (hr : s.microReady mi.tail.tok false) (hcol : s.mach.cs.sel.col ≤ 1) (ht : (s.mach.venv mi).tc ≤ 7)
    (hx : exactForm mi) (h2 : 2 ≤ (s.mach.venv mi).tc) (hg : groupOk mi.dest 2 = true) :
    let e := s.mach.venv mi
    let half (h : Nat) : Nat × Wide × Wide := (mi.dest.toNat + h, ofLanes (2 * e.w) ((List.range (e.n / 2)).map (fun i =>
      (BitVec.ofInt (2 * e.w) (e.num (e.el mi.srcA (2 * i + h)) * e.num (e.el mi.srcB (2 * i + h)))).toNat)),
      laneMask (2 * e.w) ((List.range (e.n / 2)).map (fun i => (e.act e.n).getD (2 * i + h) false)))
    s.vecIssues (.vmulw mi) mi (latCls 6) { ws := [half 0, half 1] } := by
  intro e half
  have hc : s.mach.vecBad 0x0A mi [2, 3, 4, 5, 6, 7] noRnd = none :=
    vecBad_ok (vecHosts_int hcol (by decide)) (by simp; omega) (by decide) rfl hx
  have hprod (x : Nat) : wrapN (2 * e.w) (e.t.int' ((e.els mi.srcA).getD x 0) * e.t.int' ((e.els mi.srcB).getD x 0)) =
      (BitVec.ofInt (2 * e.w) (e.num (e.el mi.srcA x) * e.num (e.el mi.srcB x))).toNat := by
    rw [VEnv.els_getD, VEnv.els_getD, VEnv.int'_toNat, VEnv.int'_toNat, wrapN_eq_toNat rfl]
  refine vecMulOp_issues_as hr (exec_vmulw ..) hc hg (intProds_residue ..) ?_
  simp only [List.map_map, Function.comp_def, half, ← hprod]
  rfl

/-- Settles O26: each word by what it makes of the bits of its lanes. -/
theorem vectorIntegers : Obligations.VectorIntegers := by
  unfold Obligations.VectorIntegers
  intro mi s e l5 l6 a b lanes clamps hr hcol ht hx
  have num (x : BitVec e.w) : e.t.int' x.toNat = e.num x := e.int'_toNat x
  refine ⟨vecInt_issues (g := fun a b _ => a + b) hr hcol ht hx (fun a b _ => plain_eq (ofInt_toNat_add a b)) (exec_vadd ..),
    vecInt_issues (g := fun a b _ => a - b) hr hcol ht hx (fun a b _ => plain_eq (ofInt_toNat_sub a b)) (exec_vsub ..),
    vecClamp_issues (z := fun e a b => e.t.int' a + e.t.int' b) (y := fun a b => e.num a + e.num b) hr hcol ht hx (fun a b => by rw [num, num]) (exec_vadds ..),
    vecClamp_issues (z := fun e a b => e.t.int' a - e.t.int' b) (y := fun a b => e.num a - e.num b) hr hcol ht hx (fun a b => by rw [num, num]) (exec_vsubs ..),
    vecIntMul_issues (g := fun a b _ => a * b) hr hcol ht hx (fun a b _ => plain_eq (ofInt_toNat_mul a b)) (exec_vmul ..),
    vecIntMul_issues (g := fun a b _ => BitVec.ofInt e.w (e.num a * e.num b / 2 ^ e.w)) hr hcol ht hx (fun a b _ => plain_eq ?vmulh) (exec_vmulh ..),
    vecIntMul_issues (g := fun a b c => c + a * b) hr hcol ht hx (fun a b c => plain_eq ?vmac) (exec_vmac ..),
    vecInt_issues (g := fun a b _ => a &&& b) hr hcol ht hx (fun _ _ _ => rfl) (exec_vand ..),
    vecInt_issues (g := fun a b _ => a ||| b) hr hcol ht hx (fun _ _ _ => rfl) (exec_vor ..),
    vecInt_issues (g := fun a b _ => a ^^^ b) hr hcol ht hx (fun _ _ _ => rfl) (exec_vxor ..),
    vecInt_issues (g := fun a b _ => a &&& ~~~b) hr hcol ht hx (fun a b _ => congrArg (·, 0) (toNat_sub_and a b)) (exec_vandn ..),
    vecInt_issues (g := fun a b _ => a <<< b.toNat) hr hcol ht hx (fun a b _ => congrArg (·, 0) (shiftLeft_toNat a _)) (exec_vshl ..),
    vecInt_issues (g := fun a b _ => a >>> b.toNat) hr hcol ht hx (fun a b _ => congrArg (·, 0) (ushiftRight_toNat a _)) (exec_vshr ..),
    vecInt_issues (g := fun a b _ => a.sshiftRight b.toNat) hr hcol ht hx (fun a b _ => plain_eq ?vsar) (exec_vsar ..),
    vecInt_issues (g := fun a b _ => if e.num b < e.num a then b else a) hr hcol ht hx (fun a b _ => ?vmin) (exec_vmin ..),
    vecInt_issues (g := fun a b _ => if e.num a < e.num b then b else a) hr hcol ht hx (fun a b _ => ?vmax) (exec_vmax ..),
    vecInt_issues (g := fun a _ _ => BitVec.ofInt e.w (e.num a).natAbs) hr hcol ht hx (fun a _ _ => plain_eq ?vabs) (exec_vabs ..),
    vecInt_issues (g := fun a _ _ => -a) hr hcol ht hx (fun a _ _ => plain_eq (ofInt_toNat_neg a)) (exec_vneg ..),
    vecInt_issues (g := fun a _ _ => BitVec.ofNat e.w ((List.range e.w).takeWhile (fun i => !a.getLsbD (e.w - 1 - i))).length)
      hr hcol ht hx (fun a _ _ => congrArg (·, 0) (clzN_eq_toNat a)) (exec_vclz ..),
    vecInt_issues (g := fun a _ _ => BitVec.ofNat e.w ((List.range e.w).filter (fun i => a.getLsbD i)).length)
      hr hcol ht hx (fun a _ _ => congrArg (·, 0) (popN_eq_toNat a)) (exec_vpopc ..),
    vecInt_issues (g := fun a b c => if c ≠ 0 then a else b) hr hcol ht hx (fun a b c => ?vsel) (exec_vsel ..), ?vmulw⟩
  case vmulh =>
    rw [num, num]
    norm_cast
  case vmac => exact (BitVec.ofInt_add ..).trans (by rw [ofInt_toNat_mul, BitVec.ofInt_natCast, BitVec.ofNat_toNat, BitVec.setWidth_eq])
  case vsar =>
    rw [sInt_eq_toInt, BitVec.ofNat_toNat, BitVec.setWidth_eq]
    exact ofInt_sshiftRight a _
  case vmin => rw [num, num, apply_ite BitVec.toNat]
  case vmax => rw [num, num, apply_ite BitVec.toNat]
  case vabs => rw [num]
  case vsel =>
    have hc : (c.toNat != 0) = true ↔ c ≠ 0 := by simp [← BitVec.toNat_inj]
    simp only [hc, apply_ite BitVec.toNat]
  case vmulw => exact vmulw_issues hr hcol ht hx

end Sys2Proof.Machine

/-! PROOFS. Comparisons and mask operations (R192, R193). -/

namespace Sys2Proof.Machine

theorem tyAny_contains {n : Nat} (h : n ≤ 17) : tyAny.contains n = true := by
  simp [tyAny]
  omega

theorem tyFloat_contains {n : Nat} (hl : 8 ≤ n) (hu : n ≤ 11) : tyFloat.contains n = true := by
  simp [tyFloat]
  omega

/-- Two operands, lane by lane. -/
theorem VEnv.zip_els (e : VEnv) (f g : F7) :
    (e.els f).zip (e.els g) = (List.range e.n).map (fun j => ((e.el f j).toNat, (e.el g j).toNat)) := by
  rw [e.els_eq_map f, e.els_eq_map g, List.zip_map']
  simp only [VEnv.els_getD]

section
variable {e : VEnv} (a b : BitVec e.w)

theorem sInt_toNat : sInt e.t.w a.toNat = a.toInt := by
  rw [sInt_eq_toInt, ← VEnv.w, BitVec.ofNat_toNat, BitVec.setWidth_eq]

/-- The integer conditions by their codes (R192). -/
theorem intCond_toNat : intCond e.t 0 a.toNat b.toNat = decide (a = b) ∧ intCond e.t 1 a.toNat b.toNat = decide (a ≠ b) ∧
    intCond e.t 2 a.toNat b.toNat = a.slt b ∧ intCond e.t 3 a.toNat b.toNat = b.sle a ∧
    intCond e.t 4 a.toNat b.toNat = a.ult b ∧ intCond e.t 5 a.toNat b.toNat = b.ule a := by
  simp only [intCond, sInt_toNat]
  refine ⟨?_, ?_, rfl, rfl, rfl, rfl⟩
  · simp only [← BitVec.toNat_inj, beq_eq_decide]
  · simp only [← BitVec.toNat_inj, bne, beq_eq_decide, ne_eq, decide_not]

end

/-- A comparison that raises no flag. -/
theorem VEnv.cmp_eq {e : VEnv} {mi : Micro} {f : Nat → Nat → Nat → Bool} {c : Nat → Bool}
    (h : ∀ j, f (e.cond mi) (e.el mi.srcA j).toNat (e.el mi.srcB j).toNat = c j) :
    e.cmp mi (fun k a b => (f k a b, 0)) = { mask := some (mi.dest.toNat, maskOf ((List.range e.n).map c), maskWrite (e.act e.n)) } := by
  simp only [VEnv.cmp, VEnv.zip_els, List.map_map, Function.comp_def, h]
  rw [flagsOf_eq_zero]
  intro r hr
  obtain ⟨j, -, rfl⟩ := List.mem_map.1 hr
  rfl

/-- Settles O27: each word by its checks and, for a comparison of integers, by its condition's code. -/
theorem vectorMasks : Obligations.VectorMasks := by
  unfold Obligations.VectorMasks
  intro mi s e a b p q hr hx
  refine ⟨fun hcol ht c hc => ?_, fun hcol hl hu hk => ?_, fun hcol ht => ?_⟩
  · have hk : e.cond mi ≤ 5 := by split at hc <;> simp_all
    have hcond (j : Nat) : intCond e.t (e.cond mi) (a j).toNat (b j).toNat = c j := by
      obtain ⟨heq, hne, hlt, hge, hltn, hgen⟩ := intCond_toNat (a j) (b j)
      split at hc
      next h => rw [h, hc, heq]
      next h => rw [h, hc, hne]
      next h => rw [h, hc, hlt]
      next h => rw [h, hc, hge]
      next h => rw [h, hc, hltn]
      next h => rw [h, hc, hgen]
      next => exact hc.elim
    exact vecOp_issues_as hr (exec_vcmp ..) (vecBad_int hcol ht hx (by decide)) (decide_eq_true hk) (VEnv.cmp_eq (f := intCond e.t) hcond)
  · exact vecOp_issues_as hr (exec_vfcmp ..) (vecBad_exact hcol (tyFloat_contains hl hu) rfl hx) (decide_eq_true hk) rfl
  · have hok {op : Nat} (hop : 4 ≤ op ∧ op ≤ 0x1D) : s.mach.vecBad op mi tyAny noRnd = none :=
      vecBad_ok (vecHosts_int hcol hop) (tyAny_contains ht) (by omega) rfl hx
    refine ⟨fun _ hb ha => ?_, ?_, ?_⟩
    · refine vecOp_issues_as hr (exec_mop ..) (hok (by decide)) ?_ rfl
      have ha6 : e.cond mi < 6 ∨ mi.srcA = 0 := (Nat.lt_or_ge _ _).imp_right ha
      have hb4 : e.cond mi < 4 ∨ mi.srcB = 0 := (Nat.lt_or_ge _ _).imp_right hb
      simpa using ⟨hb4, ha6⟩
    · exact vecOp_issues_as hr (exec_mpopc ..) (hok (by decide)) rfl (congrArg (slots32 mi) List.countP_eq_length_filter)
    · refine vecOp_issues_as hr (exec_mfirst ..) (hok (by decide)) rfl (congrArg (slots32 mi) ?_)
      simp only [List.takeWhile_eq_take_findIdx_not, List.length_take, Bool.not_not, min_eq_left List.findIdx_le_length]
      rfl

end Sys2Proof.Machine

/-! PROOFS. Float micro-orders: columns F and X, VMOMENT and VNORMAPPLY (R194, R195, R204, R205, R213). -/

namespace Sys2Proof.Machine

/-! ### Lanes and products of column F -/

theorem VEnv.vals_getD (e : VEnv) (f : F7) {j : Nat} (h : j < e.n) :
    ((e.els f).map e.t.val).getD j (.inf false) = e.t.val ((e.els f).getD j 0) := by
  have hj : j < (e.els f).length := by rwa [e.length_els]
  rw [List.getD_eq_getElem _ _ (by simpa using h), List.getElem_map, List.getD_eq_getElem _ _ hj]

/-- The lanes of a float micro-order, each rounded once. -/
theorem VEnv.fltLanes_eq (e : VEnv) (mi : Micro) (f : FV → FV → FV → FV) :
    e.lanewise mi.dest ((List.range e.n).map (fun j => e.t.enc e.rnd (f (((e.els mi.srcA).map e.t.val).getD j (.inf false))
      (((e.els mi.srcB).map e.t.val).getD j (.inf false)) (((e.els mi.third).map e.t.val).getD j (.inf false))))) =
    e.lanewise mi.dest ((List.range e.n).map (fun j => e.t.enc e.rnd (f (e.t.val ((e.els mi.srcA).getD j 0))
      (e.t.val ((e.els mi.srcB).getD j 0)) (e.t.val ((e.els mi.third).getD j 0))))) := by
  refine congrArg _ (List.map_congr_left fun j hj => ?_)
  have hn := List.mem_range.1 hj
  rw [e.vals_getD _ hn, e.vals_getD _ hn, e.vals_getD _ hn]

/-- The significand products that the multipliers form pass their residue check. -/
theorem fltProds_residue (mi : Micro) (e : VEnv) : (fltProds mi e).all (fun p => residueMul p.1 p.2.1 p.2.2) = true := by
  rw [List.all_eq_true]
  intro p hp
  obtain ⟨q, -, hq⟩ := List.mem_filterMap.1 hp
  split at hq
  · obtain rfl := Option.some.inj hq
    exact residueMul_self ..
  · cases hq

theorem residueMul_of_mem_pair {a b c d : Nat} {p : Nat × Nat × Nat} (h : p ∈ [(a, b, a * b), (c, d, c * d)]) : residueMul p.1 p.2.1 p.2.2 = true := by
  obtain rfl | rfl := List.mem_pair.1 h <;> exact residueMul_self ..

section
variable {mi : Micro} {s : State} {i : Instr} {op : Nat} {f : VEnv → FV → FV → FV → FV} (hr : s.microReady mi.tail.tok false)
include hr

theorem vecFlt_issues {rounds : Nat → Bool} {k : Nat} (hc : s.mach.vecBad op mi tyFloat rounds = none) (hi : exec i s = vecFlt op mi rounds k f s) :
    let e := s.mach.venv mi
    s.vecIssues i mi (latCls k) (e.lanewise mi.dest ((List.range e.n).map (fun j => e.t.enc e.rnd (f e (e.t.val ((e.els mi.srcA).getD j 0))
      (e.t.val ((e.els mi.srcB).getD j 0)) (e.t.val ((e.els mi.third).getD j 0)))))) := by
  rw [vecFlt] at hi
  exact vecOp_issues_as hr hi hc rfl (VEnv.fltLanes_eq _ mi (f _))

theorem vecFltMul_issues (hc : s.mach.vecBad op mi tyFloat doesRnd = none) (hi : exec i s = vecFltMul op mi f s) :
    let e := s.mach.venv mi
    s.vecIssues i mi (latCls 6) (e.lanewise mi.dest ((List.range e.n).map (fun j => e.t.enc e.rnd (f e (e.t.val ((e.els mi.srcA).getD j 0))
      (e.t.val ((e.els mi.srcB).getD j 0)) (e.t.val ((e.els mi.third).getD j 0)))))) := by
  rw [vecFltMul] at hi
  exact vecMulOp_issues_as hr hi hc rfl (fltProds_residue ..) (VEnv.fltLanes_eq _ mi (f _))

end

/-! ### Column X (R195) -/

theorem specialFmt_eq {t : Nat} {f : FFmt} (h : (t = 8 ∧ f = f32) ∨ (t = 10 ∧ f = f16) ∨ (t = 11 ∧ f = bf16)) :
    [8, 10, 11].contains t = true ∧ (match ETy.of t with | .flt _ f => f | _ => f32) = f := by
  rcases h with ⟨rfl, rfl⟩ | ⟨rfl, rfl⟩ | ⟨rfl, rfl⟩ <;> exact ⟨rfl, rfl⟩

theorem vecSpecial_issues {mi : Micro} {s : State} {i : Instr} {op : Nat} {f : FFmt} (hr : s.microReady mi.tail.tok false)
    (hcol : s.mach.cs.sel.col = 3) (hx : roundedForm mi)
    (hf : ((s.mach.venv mi).tc = 8 ∧ f = f32) ∨ ((s.mach.venv mi).tc = 10 ∧ f = f16) ∨ ((s.mach.venv mi).tc = 11 ∧ f = bf16))
    (hi : exec i s = vecSpecial op mi s) (hop : vecHosts op 3 = true ∧ op ≠ 0x45 := by decide) :
    s.vecIssues i mi (latCls 7) ((s.mach.venv mi).lanewise mi.dest (((s.mach.venv mi).els mi.srcA).map (f.special op (s.mach.venv mi).rnd))) := by
  obtain ⟨ht, hfmt⟩ := specialFmt_eq hf
  rw [vecSpecial] at hi
  refine vecOp_issues_as hr hi (vecBad_rounded hcol ht rfl hx hop) rfl ?_
  exact congrArg (fun g : FFmt => (s.mach.venv mi).lanewise mi.dest (((s.mach.venv mi).els mi.srcA).map (g.special op (s.mach.venv mi).rnd))) hfmt

/-- Settles O28: column F by its lanes, column X by the format of its type, and the two normalisations as they stand. -/
theorem vectorFloats : Obligations.VectorFloats := by
  unfold Obligations.VectorFloats
  refine ⟨?_, ?_⟩
  · intro mi s e v a b c dn lanes hr hcol hl hu
    have ht := tyFloat_contains hl hu
    refine ⟨fun hx => ⟨?_, ?_, ?_, ?_, ?_, ?_⟩, fun hx => ⟨?_, ?_, ?_, ?_⟩⟩
    · exact vecFlt_issues (f := fun e a b _ => a.add e.rnd.isRd b) hr (vecBad_rounded hcol ht rfl hx) (exec_vfadd ..)
    · exact vecFlt_issues (f := fun e a b _ => a.add e.rnd.isRd b.neg) hr (vecBad_rounded hcol ht rfl hx) (exec_vfsub ..)
    · exact vecFltMul_issues (f := fun _ a b _ => a.mul b) hr (vecBad_rounded hcol ht rfl hx) (exec_vfmul ..)
    · exact vecFltMul_issues (f := fun e a b c => (a.mul b).add e.rnd.isRd c) hr (vecBad_rounded hcol ht rfl hx) (exec_vfma ..)
    · exact vecFltMul_issues (f := fun e a b c => (a.mul b).add e.rnd.isRd c.neg) hr (vecBad_rounded hcol ht rfl hx) (exec_vfms ..)
    · exact vecFltMul_issues (f := fun e a b c => (a.mul b).neg.add e.rnd.isRd c) hr (vecBad_rounded hcol ht rfl hx) (exec_vfnma ..)
    · exact vecFlt_issues (f := fun _ a b _ => a.min b) hr (vecBad_exact hcol ht rfl hx) (exec_vfmin ..)
    · exact vecFlt_issues (f := fun _ a b _ => a.max b) hr (vecBad_exact hcol ht rfl hx) (exec_vfmax ..)
    · exact vecFlt_issues (f := fun _ a _ _ => a.abs) hr (vecBad_exact hcol ht rfl hx) (exec_vfabs ..)
    · exact vecFlt_issues (f := fun _ a _ _ => a.neg) hr (vecBad_exact hcol ht rfl hx) (exec_vfneg ..)
  · intro mi s e hr hx
    refine ⟨?_, fun hcol ht => ?_⟩
    · intro hcol f hf lanes
      exact ⟨vecSpecial_issues hr hcol hx hf (exec_vrcp ..), vecSpecial_issues hr hcol hx hf (exec_vrsq ..),
        vecSpecial_issues hr hcol hx hf (exec_vsqrt ..), vecSpecial_issues hr hcol hx hf (exec_vexp2 ..),
        vecSpecial_issues hr hcol hx hf (exec_vlog2 ..), vecSpecial_issues hr hcol hx hf (exec_vtanh ..)⟩
    · intro r plus va sum sq
      have ht8 : [8].contains (s.mach.venv mi).tc = true := List.contains_iff_mem.2 (List.mem_singleton.2 ht)
      refine ⟨fun hg => ?_, ?_⟩
      · exact vecMulOp_issues_as hr (exec_vmoment ..) (vecBad_rounded hcol ht8 rfl hx) hg (fltProds_residue ..) rfl
      · intro st one
        have hi := exec_vnormapply mi s
        rw [execVnormapply] at hi
        refine vecMulOp_issues_as hr hi (vecBad_rounded hcol ht8 rfl hx) rfl ?_ rfl
        rw [List.all_eq_true]
        intro p hp
        obtain ⟨q, -, hq⟩ := List.mem_flatMap.1 hp
        split at hq
        split at hq
        · exact residueMul_of_mem_pair hq
        · cases hq

end Sys2Proof.Machine

/-! PROOFS. Reductions, scans, permutes and moves by their lanes (R196 to R199, R206). -/

namespace Sys2Proof.Machine

/-! ### Sums by the tree of R162 -/

theorem length_treeLevel {α : Type} (node : α → α → α) (l : List α) : (treeLevel node l).length = (l.length + 1) / 2 := by
  induction l using treeLevel.induct with
  | case1 a b t ih => rw [treeLevel, List.length_cons, ih, List.length_cons, List.length_cons]; omega
  | case2 l h =>
    rcases l with _ | ⟨a, _ | ⟨b, t⟩⟩
    · simp [treeLevel]
    · simp [treeLevel]
    · exact (h a b t rfl).elim

theorem tree_cons_cons {α : Type} (node : α → α → α) (d : α) (k : Nat) (a b : α) (t : List α) :
    tree node d (k + 1) (a :: b :: t) = tree node d k (treeLevel node (a :: b :: t)) := rfl

section
variable {w : Nat} {f : Nat → Nat → Nat × Nat} (hf : ∀ a b, f a b = ((a + b) % 2 ^ w, 0))
include hf

/-- A level of the tree keeps the sum, and numbers of `w` bits without flags. -/
theorem treeLevel_sum (l : List (Nat × Nat)) (hl : ∀ p ∈ l, p.1 < 2 ^ w ∧ p.2 = 0) :
    ((treeLevel (flagNode f) l).map (·.1)).sum % 2 ^ w = (l.map (·.1)).sum % 2 ^ w ∧
      ∀ p ∈ treeLevel (flagNode f) l, p.1 < 2 ^ w ∧ p.2 = 0 := by
  induction l using treeLevel.induct with
  | case1 a b t ih =>
    have ha := hl a (by simp)
    have hb := hl b (by simp)
    obtain ⟨hs, ht⟩ := ih fun p hp => hl p (by simp [hp])
    have hn : flagNode f a b = ((a.1 + b.1) % 2 ^ w, 0) := by simp [flagNode, hf, ha.2, hb.2]
    rw [treeLevel, hn]
    refine ⟨?_, fun p hp => ?_⟩
    · simp only [List.map_cons, List.sum_cons]
      rw [Nat.mod_add_mod, Nat.add_mod, hs, ← Nat.add_mod, Nat.add_assoc]
    · obtain rfl | hp := List.mem_cons.1 hp
      · exact ⟨Nat.mod_lt _ (Nat.two_pow_pos w), rfl⟩
      · exact ht p hp
  | case2 l h =>
    rw [treeLevel.eq_2 _ _ h]
    exact ⟨rfl, hl⟩

theorem tree_sum (k : Nat) (l : List (Nat × Nat)) (hk : l.length ≤ 2 ^ k) (hl : ∀ p ∈ l, p.1 < 2 ^ w ∧ p.2 = 0) :
    tree (flagNode f) (0, 0) k l = ((l.map (·.1)).sum % 2 ^ w, 0) := by
  have one (p : Nat × Nat) (hp : p.1 < 2 ^ w ∧ p.2 = 0) : p = (([p].map (·.1)).sum % 2 ^ w, 0) := by
    rw [List.map_singleton, List.sum_singleton, Nat.mod_eq_of_lt hp.1, ← hp.2]
  induction k generalizing l with
  | zero =>
    rcases l with _ | ⟨a, _ | ⟨b, t⟩⟩
    · simp [tree]
    · exact one a (hl a (by simp))
    · simp at hk
  | succ k ih =>
    rcases l with _ | ⟨a, _ | ⟨b, t⟩⟩
    · simp [tree]
    · exact one a (hl a (by simp))
    · obtain ⟨hs, ht⟩ := treeLevel_sum hf _ hl
      rw [tree_cons_cons, ih _ ?_ ht, hs]
      rw [length_treeLevel]
      omega

end

theorem ETy.addEl_int {t : ETy} (h : t.isFlt = false) (md : Rnd) (a b : Nat) : t.addEl md a b = ((a + b) % 2 ^ t.w, 0) := by
  rw [ETy.addEl, h, wrapN]
  norm_cast

theorem ETy.addEl_flt {t : ETy} (h : t.isFlt = true) (md : Rnd) : t.addEl md = fun a b => t.enc md ((t.val a).add md.isRd (t.val b)) := by
  funext a b
  rw [ETy.addEl, h]; rfl

/-- A sum over the active lanes. -/
def activeSum (l : List (Bool × Nat)) : Nat := (l.filter (·.1)).foldl (fun a p => a + p.2) 0

theorem activeSum_eq (l : List (Bool × Nat)) : activeSum l = (l.map (fun p => if p.1 then p.2 else 0)).sum := by
  have fold (a : Nat) : (l.filter (·.1)).foldl (fun a p => a + p.2) a = a + (l.map (fun p => if p.1 then p.2 else 0)).sum := by
    induction l generalizing a with
    | nil => rfl
    | cons p t ih =>
      obtain ⟨on, v⟩ := p
      cases on with
      | true => simp [ih, Nat.add_assoc]
      | false => simp [ih]
  rw [activeSum, fold, Nat.zero_add]

/-- A reduction by addition of an integer type is the sum modulo its width (R197). -/
theorem VEnv.reduce_addEl {e : VEnv} (mi : Micro) (h : e.t.isFlt = false) : e.reduce mi 0 (e.t.addEl e.rnd) =
    { ws := [(mi.dest.toNat, ofLanes e.w [activeSum ((e.act e.n).zip (e.els mi.srcA)) % 2 ^ e.w], wones 64)] } := by
  have hlen : (((e.act e.n).zip (e.els mi.srcA)).map (fun p => (if p.1 then p.2 else 0, 0))).length ≤ 2 ^ 12 := by
    rw [List.length_map, List.length_zip, e.length_act, e.length_els, Nat.min_self]
    exact Nat.div_le_self ..
  rw [VEnv.reduce, tree_sum (ETy.addEl_int h e.rnd) 12 _ hlen, List.map_map, activeSum_eq]
  · rfl
  · intro p hp
    obtain ⟨q, hq, rfl⟩ := List.mem_map.1 hp
    refine ⟨?_, rfl⟩
    split
    · exact e.els_lt _ (List.of_mem_zip hq).2
    · exact Nat.two_pow_pos _

/-! ### Scans (R198) -/

/-- The lanes of two lists of one length. -/
theorem zip_eq_map_range {n : Nat} {as : List Bool} {vs : List Nat} (ha : as.length = n) (hv : vs.length = n) :
    as.zip vs = (List.range n).map (fun j => (as.getD j false, vs.getD j 0)) := by
  refine List.ext_getElem (by simp [ha, hv]) fun i h _ => ?_
  have hi : i < as.length ∧ i < vs.length := by simpa using h
  simp [List.getD_eq_getElem?_getD, hi.1, hi.2]

/-- A scan: `run` gives its sum and flags after each lane. -/
theorem scan_eq {f : Nat → Nat → Nat × Nat} {n : Nat} {as : List Bool} {vs : List Nat} (ha : as.length = n) (hv : vs.length = n)
    {run : Nat → Nat × Nat} (h0 : run 0 = (0, 0)) (hr : ∀ j, j < n → run (j + 1) =
      if as.getD j false then ((f (run j).1 (vs.getD j 0)).1, (run j).2 ||| (f (run j).1 (vs.getD j 0)).2) else run j) :
    (as.zip vs).foldl (fun (a : Nat × Nat × List Nat) p => if p.1 then ((f a.1 p.2).1, a.2.1 ||| (f a.1 p.2).2, (f a.1 p.2).1 :: a.2.2)
      else (a.1, a.2.1, 0 :: a.2.2)) (0, 0, []) =
      ((run n).1, (run n).2, ((List.range n).map (fun j => if as.getD j false then (run (j + 1)).1 else 0)).reverse) := by
  rw [zip_eq_map_range ha hv, List.foldl_map]
  clear ha hv
  induction n with
  | zero => simp [h0]
  | succ k ih =>
    rw [List.range_succ, List.foldl_append, ih fun j hj => hr j (by omega), List.foldl_cons, List.foldl_nil, List.map_append, List.map_singleton,
      List.reverse_append, List.reverse_singleton, hr k (by omega)]
    cases as.getD k false <;> rfl

/-- The running sum of an integer type (R198). -/
theorem activeSum_take_succ {n : Nat} {as : List Bool} {vs : List Nat} (ha : as.length = n) (hv : vs.length = n) {j : Nat} (hj : j < n) :
    activeSum ((as.zip vs).take (j + 1)) = activeSum ((as.zip vs).take j) + if as.getD j false then vs.getD j 0 else 0 := by
  have h : j < (as.zip vs).length := by simpa [ha, hv] using hj
  rw [List.take_succ_eq_append_getElem h, activeSum_eq, activeSum_eq, List.map_append, List.sum_append]
  simp [List.getD_eq_getElem?_getD, ha, hv, hj]

section
variable {mi : Micro} {s : State} (hr : s.microReady mi.tail.tok false) (hc : s.mach.vecBad 0x35 mi tyAny floatRnd = none)
include hr hc

/-- VSCAN over a running sum that takes in the active lanes one by one (R198). -/
theorem vscan_issues {run : Nat → Nat × Nat} (h0 : run 0 = (0, 0)) (hrun : ∀ j, j < (s.mach.venv mi).n → run (j + 1) =
      if ((s.mach.venv mi).act (s.mach.venv mi).n).getD j false then
        (((s.mach.venv mi).t.addEl (s.mach.venv mi).rnd (run j).1 (((s.mach.venv mi).els mi.srcA).getD j 0)).1,
          (run j).2 ||| ((s.mach.venv mi).t.addEl (s.mach.venv mi).rnd (run j).1 (((s.mach.venv mi).els mi.srcA).getD j 0)).2)
      else run j) :
    let e := s.mach.venv mi
    s.vecIssues (.vscan mi) mi (latCls 8) (e.out mi.dest ((List.range e.n).map (fun j => if (e.act e.n).getD j false then (run (j + 1)).1 else 0))
      (e.act e.n) (run e.n).2) := by
  intro e
  have hscan := scan_eq (e.length_act e.n) (e.length_els mi.srcA) h0 hrun
  refine vecOp_issues_as hr (exec_vscan ..) hc rfl ?_
  refine (congrArg (fun r : Nat × Nat × List Nat => e.out mi.dest r.2.2.reverse (e.act e.n) r.2.1) hscan).trans ?_
  rw [List.reverse_reverse]

end

/-! ### Permutes (R196, R199) -/

theorem readLane_natCast (near : List Nat) (fill k : Nat) : readLane near fill (k : Nat) = near.getD k fill := by
  rw [readLane, if_neg (by omega), Int.toNat_natCast, List.getD_eq_getElem?_getD]
  cases near[k]? <;> rfl

/-- The elements of the active lanes, in order. -/
theorem filterMap_active (g : Nat → Nat) (l : List (Bool × Nat)) :
    l.filterMap (fun p => if p.1 then some (g p.2) else none) = (l.filter (·.1)).map (fun p => g p.2) := by
  induction l with
  | nil => rfl
  | cons p t ih =>
    obtain ⟨on, v⟩ := p
    cases on with
    | true => simpa using ih
    | false => simpa using ih

/-- Each active lane takes the next source lane (R199). -/
theorem expand_eq (g : Nat → Nat) {n : Nat} {as : List Bool} (ha : as.length = n) (vs : List Nat) :
    as.foldl (fun (a : List Nat × List Nat) on => if on then (a.1.tail, g (a.1.headD 0) :: a.2) else (a.1, 0 :: a.2)) (vs, []) =
      (vs.drop ((as.take n).filter id).length,
        ((List.range n).map (fun j => if as.getD j false then g (vs.getD ((as.take j).filter id).length 0) else 0)).reverse) := by
  have count (j : Nat) (hj : j < n) :
      ((as.take (j + 1)).filter id).length = ((as.take j).filter id).length + if as.getD j false then 1 else 0 := by
    have h : j < as.length := ha ▸ hj
    rw [List.take_succ_eq_append_getElem h, List.filter_append, List.length_append, List.filter_singleton, List.getD_eq_getElem _ _ h]
    cases as[j] <;> rfl
  conv_lhs => rw [act_eq_map ha]
  rw [List.foldl_map]
  clear ha
  induction n with
  | zero => simp
  | succ k ih =>
    rw [List.range_succ, List.foldl_append, ih fun j hj => count j (by omega), List.foldl_cons, List.foldl_nil, List.map_append, List.map_singleton,
      List.reverse_append, List.reverse_singleton, count k (by omega)]
    cases as.getD k false with
    | false => rfl
    | true => simp [List.headD_eq_head?_getD, List.getD_eq_getElem?_getD]

theorem VEnv.headD_els (e : VEnv) (f : F7) (h : 0 < e.n) : (e.els f).headD 0 = lane (e.reg f.toNat) e.w 0 := by
  obtain ⟨n, hn⟩ := Nat.exists_eq_add_of_lt h
  rw [VEnv.els, lanes, hn, Nat.zero_add, List.range_succ_eq_map]
  rfl

end Sys2Proof.Machine

/-! PROOFS. Conversions, and lane instructions together (R196 to R203, R206). -/

namespace Sys2Proof.Machine

theorem ETy.of_isFlt {c : Nat} (hl : 8 ≤ c) (hu : c ≤ 11) : (ETy.of c).isFlt = true := by interval_cases c <;> rfl
theorem ETy.of_not_isFlt {c : Nat} (h : c ≤ 7) : (ETy.of c).isFlt = false := by interval_cases c <;> rfl

theorem tyRed_contains {n : Nat} (h : n ≤ 11) : tyRed.contains n = true := by
  simp [tyRed, tyInt, tyFloat]
  omega

theorem range_contains {k n : Nat} (h : n ≤ k) : (List.range (k + 1)).contains n = true := by
  simpa using Nat.lt_succ_of_le h

/-! ### Moves (R206) -/

theorem replicate_eq_map_range {α : Type} (n : Nat) (x : α) : List.replicate n x = (List.range n).map (fun _ => x) := by simp

section
variable {e : VEnv} (d : F7)

theorem VEnv.immLanes_int (h : e.t.isFlt = false) (i : Int) (x : Nat × Nat) :
    e.lanewise d (List.replicate e.n (if e.t.isFlt then x else (wrapN e.w i, 0))) = e.lanesOf d (fun _ => BitVec.ofInt e.w i) 0 := by
  rw [replicate_eq_map_range]
  exact e.lanewise_unflagged d fun _ => by rw [h, wrapN_eq_toNat rfl]; rfl

theorem VEnv.immLanes_flt (h : e.t.isFlt = true) (x y : Nat × Nat) :
    e.lanewise d (List.replicate e.n (if e.t.isFlt then x else y)) = e.lanewise d ((List.range e.n).map (fun _ => x)) := by
  rw [replicate_eq_map_range, h]; rfl

theorem VEnv.scalarLanes_eq (x : Word) :
    e.out d (List.replicate e.n (x.toNat % 2 ^ e.w)) (e.act e.n) = e.lanesOf d (fun _ => x.setWidth e.w) 0 := by
  simp only [VEnv.lanesOf, BitVec.toNat_setWidth, replicate_eq_map_range]

/-- A lane of an integer scan adds its element where it is active (R198). -/
theorem VEnv.sumRun_succ (h : e.t.isFlt = false) {j : Nat} (hj : j < e.n) :
    let sum (j : Nat) : Nat × Nat := (activeSum (((e.act e.n).zip (e.els d)).take j) % 2 ^ e.w, 0)
    sum (j + 1) = if (e.act e.n).getD j false then ((e.t.addEl e.rnd (sum j).1 ((e.els d).getD j 0)).1,
      (sum j).2 ||| (e.t.addEl e.rnd (sum j).1 ((e.els d).getD j 0)).2) else sum j := by
  simp only [activeSum_take_succ (e.length_act _) (e.length_els _) hj, ETy.addEl_int h, show e.t.w = e.w from rfl, Nat.mod_add_mod, Nat.or_self]
  split <;> rfl

/-- The lanes of a scan of an integer type (R198). -/
theorem VEnv.sumLanes_eq (on : Nat → Bool) (f : Nat → Nat) :
    e.out d ((List.range e.n).map (fun j => if on j then f j % 2 ^ e.w else 0)) (e.act e.n) 0 =
      e.lanesOf d (fun j => if on j then BitVec.ofNat e.w (f j) else 0) 0 := by
  simp only [VEnv.lanesOf, apply_ite BitVec.toNat, BitVec.toNat_ofNat]
  rfl

end

section
variable {mi : Micro} {s : State} (hr : s.microReady mi.tail.tok false) (hcol : s.mach.cs.sel.col = 4)
include hr hcol

/-- VSCAN of an integer type, in the sums of the active lanes. -/
theorem vscan_int_issues (ht : (s.mach.venv mi).tc ≤ 7) (hx : exactForm mi) :
    let e := s.mach.venv mi
    s.vecIssues (.vscan mi) mi (latCls 8) (e.lanesOf mi.dest (fun j => if (e.act e.n).getD j false then
      BitVec.ofNat e.w (activeSum (((e.act e.n).zip (e.els mi.srcA)).take (j + 1))) else 0) 0) := by
  intro e
  have hfl : floatRnd e.tc = false := decide_eq_false (Nat.not_le.2 (Nat.lt_succ_of_le ht))
  have hint : e.t.isFlt = false := ETy.of_not_isFlt ht
  have hc : s.mach.vecBad 0x35 mi tyAny floatRnd = none := vecBad_exact hcol (tyAny_contains (ht.trans (by decide))) hfl hx
  rw [← VEnv.sumLanes_eq]
  exact vscan_issues (run := fun j => (activeSum (((e.act e.n).zip (e.els mi.srcA)).take j) % 2 ^ e.w, 0)) hr hc (by simp [activeSum])
    fun j hj => VEnv.sumRun_succ mi.srcA hint hj

end

/-! ### Conversions (R200 to R203) -/

/-- VCVT.SR rounds by its random words, and by no other code (R94, R201). -/
theorem vecBad_stochastic {m : Mach} {mi : Micro} {types : List Nat} {rounds : Nat → Bool} (hcol : m.cs.sel.col = 3)
    (ht : types.contains (m.venv mi).tc = true) (hx : ∀ t, mi.long = some t → t.rnd = 5) : m.vecBad 0x45 mi types rounds = none := by
  have hh : vecHosts 0x45 (m.venv mi).col = true := congrArg (vecHosts 0x45) hcol
  simp only [Mach.vecBad, hh, ht]
  cases hl : mi.long with
  | none => rfl
  | some t => simpa using hx t hl

theorem tyCvtSr_contains {n : Nat} (h : n ≤ 17) (h8 : n ≠ 8) (h9 : n ≠ 9) :
    ([0, 1, 2, 3, 4, 5, 6, 7] ++ [10, 11, 12, 13, 14, 15, 16, 17]).contains n = true := by
  simp
  omega

theorem tyPlane_contains {n : Nat} (hl : 18 ≤ n) (hu : n < 32) : tyPlane.contains n = true := by
  simp [tyPlane]
  exact ⟨n - 18, by omega, by omega⟩

/-- The planes of 512 bytes, laid out block by block (R151, R203). -/
theorem vplane_issues {mi : Micro} {s : State} {k : Nat} {sg : Bool} (hr : s.microReady mi.tail.tok false) (hcol : s.mach.cs.sel.col = 3)
    (hx : exactForm mi) (hplane : (s.mach.venv mi).t = .plane k sg) (ht : 18 ≤ (s.mach.venv mi).tc) (hmr : (s.mach.venv mi).mr = 0)
    (hb : mi.srcB = (if sg then 4 else 5)) :
    s.vecIssues (.vplane mi) mi (latCls 7) { ws := [(mi.dest.toNat, ofLanes 8 ((List.range (64 * k)).map (fun x => (List.range 8).foldl (fun v i =>
      v + fld ((lanes 8 512 ((s.mach.venv mi).reg mi.srcA.toNat)).getD (x / (8 * k) * 64 + x % 8 * 8 + i) 0) (7 - x % (8 * k) / 8) 1 * 2 ^ i) 0)),
        wones 64)] } := by
  have hc : s.mach.vecBad 0x48 mi tyPlane noRnd = none := vecBad_exact hcol (tyPlane_contains ht (Mach.venv_tc_lt ..)) rfl hx
  refine vecOp_issues_as hr (exec_vplane ..) hc ?_ ?_
  · simp only [hplane, hb, hmr, ETy.signed]
    cases sg <;> rfl
  · simp only [hplane, Nat.mul_comm _ 64, Nat.mul_comm _ 8]

/-- Settles O29: each word by its checks and by what it makes of its lanes. -/
theorem vectorLanes : Obligations.VectorLanes := by
  unfold Obligations.VectorLanes
  refine ⟨?_, ?_⟩
  · intro mi s e vs act near has permutes hr
    refine ⟨fun hcol hl hu hx => ?_, fun hx => ⟨fun ht => ?_, fun ht => ?_, fun hl hu => ?_, fun hcol => ⟨fun ht => ?_, fun ht => ?_, fun ht => ?_,
      fun ht => ?_⟩⟩⟩
    · have hfl : floatRnd e.tc = true := decide_eq_true hl
      have hadd : (s.mach.venv mi).t.addEl (s.mach.venv mi).rnd = fun x y => e.t.enc e.rnd ((e.t.val x).add e.rnd.isRd (e.t.val y)) :=
        ETy.addEl_flt (ETy.of_isFlt hl hu) e.rnd
      refine ⟨?_, fun run h0 hrun => ?_⟩
      · exact vecOp_issues_as hr (exec_vredadd ..) (vecBad_rounded hcol (tyRed_contains hu) hfl hx) rfl (congrArg (e.reduce mi 0) hadd)
      · refine vscan_issues hr (vecBad_rounded hcol (tyAny_contains (hu.trans (by decide))) hfl hx) h0 fun j hj => ?_
        rw [hadd]
        exact hrun j hj
    · exact vecOp_issues_as hr (exec_vmov ..) (vecBad_ok rfl (tyAny_contains ht) (by decide) rfl hx) rfl rfl
    · exact vecOp_issues_as hr (exec_vmovi ..) (vecBad_ok rfl (range_contains (ht.trans (by decide))) (by decide) rfl hx) rfl
        (VEnv.immLanes_int _ (ETy.of_not_isFlt ht) _ _)
    · exact vecOp_issues_as hr (exec_vmovi ..) (vecBad_ok rfl (range_contains hu) (by decide) rfl hx) rfl
        (VEnv.immLanes_flt _ (ETy.of_isFlt hl hu) _ _)
    · exact vecOp_issues_as hr (exec_vmvs ..) (vecBad_exact hcol (range_contains ht) rfl hx) rfl (VEnv.scalarLanes_eq ..)
    · have hc := tyRed_contains ht
      exact ⟨vecOp_issues_as hr (exec_vredmax ..) (vecBad_exact hcol hc rfl hx) rfl rfl,
        vecOp_issues_as hr (exec_vredmin ..) (vecBad_exact hcol hc rfl hx) rfl rfl⟩
    · have hfl : floatRnd e.tc = false := decide_eq_false (by omega)
      exact ⟨vecOp_issues_as hr (exec_vredadd ..) (vecBad_exact hcol (tyRed_contains (ht.trans (by decide))) hfl hx) rfl
        (VEnv.reduce_addEl mi (ETy.of_not_isFlt ht)), vscan_int_issues hr hcol ht hx⟩
    · have hc := tyAny_contains ht
      refine ⟨fun hg => ?_, fun hg => ?_, ?_, ?_, fun hi => ⟨?_, ?_⟩, ?_, ?_⟩
      · exact vecOp_issues_as hr (exec_vperm ..) (vecBad_exact hcol hc rfl hx) hg rfl
      · exact vecOp_issues_as hr (exec_vshuf ..) (vecBad_exact hcol hc rfl hx) hg rfl
      · exact vecOp_issues_as hr (exec_vslide ..) (vecBad_exact hcol hc rfl hx) rfl rfl
      · exact vecOp_issues_as hr (exec_vbcast ..) (vecBad_exact hcol hc rfl hx) rfl rfl
      · refine vecOp_issues_as hr (exec_vext ..) (vecBad_exact hcol hc rfl hx) (decide_eq_true hi) ?_
        rw [readLane_natCast]
        rfl
      · refine vecOp_issues_as hr (exec_vins ..) (vecBad_exact hcol hc rfl hx) (decide_eq_true hi) ?_
        rw [← VEnv.headD_els _ _ (Nat.zero_lt_of_lt hi)]
      · intro on
        refine vecOp_issues_as hr (exec_vcompress ..) (vecBad_exact hcol hc rfl hx) rfl ?_
        rw [filterMap_active]
        rfl
      · refine vecOp_issues_as hr (exec_vexpand ..) (vecBad_exact hcol hc rfl hx) rfl ?_
        have hexp := expand_eq e.trim (e.length_act e.n) (e.els mi.srcA)
        exact (congrArg (fun r : List Nat × List Nat => e.out mi.dest r.2.reverse (e.act e.n)) hexp).trans (by rw [List.reverse_reverse])
  · intro mi s e u has hr hcol
    refine ⟨fun ht hu hok hx => ?_, fun ht h8 h9 hul huu hok hg hx => ?_, fun hx => ⟨fun ht hu hok => ?_, ?_⟩⟩
    · refine vecOp_issues_as hr (exec_vcvt ..) (vecBad_rounded hcol (tyAny_contains ht) rfl hx) ?_ rfl
      exact Bool.and_eq_true_iff.2 ⟨decide_eq_true hu, hok⟩
    · refine vecOp_issues_as hr (exec_vcvtSr ..) (vecBad_stochastic hcol (tyCvtSr_contains ht h8 h9) hx) ?_ rfl
      simp only [hul, huu, decide_true, Bool.true_and]
      exact Bool.and_eq_true_iff.2 ⟨hok, hg⟩
    · have hint := (tyInt_contains e.tc).trans (decide_eq_true ht)
      refine ⟨fun hlt => ?_, fun hlt => ?_⟩
      · refine vecOp_issues_as hr (exec_vpack ..) (vecBad_exact hcol hint rfl hx) ?_ rfl
        simp only [hu, decide_true, Bool.true_and]
        exact Bool.and_eq_true_iff.2 ⟨decide_eq_true hlt, hok⟩
      · refine vecOp_issues_as hr (exec_vunpk ..) (vecBad_exact hcol hint rfl hx) ?_ ?_
        · simp only [hu, decide_true, Bool.true_and]
          exact Bool.and_eq_true_iff.2 ⟨decide_eq_true hlt, hok⟩
        · simp only [wrapN_eq_toNat rfl]
          rfl
    · intro k sg hplane ht hmr hb src byte
      exact vplane_issues hr hcol hx hplane ht hmr hb

end Sys2Proof.Machine

/-! PROOFS. What a vector memory micro-order does before it issues: translations, reads, entries into the store buffer (R207 to R210, R253). -/

namespace Sys2Proof.Machine

/-! ### Elements translated and checked (R209, R210) -/

section
variable {m n : Mach} {nd : Need}

theorem Mach.Walked.trans_cur {p : Mach} {ad : Byte} (h : m.Walked n m.cur ad) (k : n.Walked p n.cur ad) : m.Walked p m.cur ad :=
  h.trans (h.cur ▸ k)

theorem Mach.pageAt_walked {c c' : PgCache} {va : Nat} {p : Pg} (h : m.pageAt c va nd = .ok (n, c', p)) :
    m.Walked n m.cur (if nd.wr then 0x30 else 0x10) := by
  unfold Mach.pageAt at h
  split at h
  · cases h
    exact .refl ..
  · split at h
    · cases h
    · rename_i hx
      cases h
      exact Mach.xlat_walked hx

theorem Mach.bytesAt_walked {c c' : PgCache} {vas : List Nat} {l : List (Nat × Pg)} (h : m.bytesAt c nd vas = .ok (n, c', l)) :
    m.Walked n m.cur (if nd.wr then 0x30 else 0x10) := by
  induction vas generalizing m c l with
  | nil => cases h; exact .refl ..
  | cons va t ih =>
    rw [Mach.bytesAt] at h
    split at h
    · cases h
    · rename_i hp
      split at h
      · cases h
      · rename_i ht
        cases h
        exact (Mach.pageAt_walked hp).trans_cur (ih ht)

theorem Mach.elems_walked {ea f pl : Nat} {pair : Pg → Bool} {same : Pg → Pg → Bool} {c : PgCache} {one : Option Pg} {ps : List (Nat × Int)}
    {es : List ElemAt} (h : m.elems ea f pl nd pair same c one ps = .ok (n, es)) : m.Walked n m.cur (if nd.wr then 0x30 else 0x10) := by
  induction ps generalizing m c one es with
  | nil => cases h; exact .refl ..
  | cons q t ih =>
    rw [Mach.elems] at h
    simp only at h
    split at h
    · cases h
    rename_i hb
    have hw := Mach.bytesAt_walked hb
    split at h
    · cases h
      exact hw
    split at h
    · cases h
    split at h
    · cases h
    split at h
    · cases h
    split at h
    · cases h
    rename_i ht
    cases h
    refine hw.trans_cur (Mach.Walked.trans_cur ?_ (ih ht))
    split
    · exact Mach.soft_walked ..
    · exact .refl ..

end

/-! ### What a micro-order's own effect leaves of the stream that issues it -/

/-- The machine but for what an issue does not look at: memory, caches, store buffers and the agenda may differ. -/
structure Mach.KeepsIssuer (m n : Mach) : Prop where
  cur : n.cur = m.cur
  curLen : n.curLen = m.curLen
  jobs : n.jobs = m.jobs
  ccs : n.ccs = m.ccs
  ctxs : n.ctxs = m.ctxs
  pcs : n.pcs = m.pcs
  parts : n.parts = m.parts
  moves : n.moves = m.moves
  job : n.cs.job = m.cs.job
  sel : n.cs.sel = m.cs.sel
  state : n.cs.state = m.cs.state

theorem Mach.KeepsIssuer.refl (m : Mach) : m.KeepsIssuer m := ⟨rfl, rfl, rfl, rfl, rfl, rfl, rfl, rfl, rfl, rfl, rfl⟩

theorem Mach.KeepsIssuer.trans {m n p : Mach} (h : m.KeepsIssuer n) (k : n.KeepsIssuer p) : m.KeepsIssuer p :=
  ⟨k.cur.trans h.cur, k.curLen.trans h.curLen, k.jobs.trans h.jobs, k.ccs.trans h.ccs, k.ctxs.trans h.ctxs, k.pcs.trans h.pcs, k.parts.trans h.parts,
    k.moves.trans h.moves, k.job.trans h.job, k.sel.trans h.sel, k.state.trans h.state⟩

theorem Mach.Walked.keepsIssuer {m n : Mach} {ad : Byte} (h : m.Walked n m.cur ad) : m.KeepsIssuer n := by
  have hcs : n.cs = { m.cs with l1 := n.cs.l1 } := by
    rw [Mach.cs, h.cur]
    exact h.own
  exact ⟨h.cur, by rw [h.rest], h.jobs, h.ccs, h.ctxs, h.pcs, h.parts, by rw [h.rest], by rw [hcs], by rw [hcs], by rw [hcs]⟩

section
variable {m n : Mach} (h : m.KeepsIssuer n)
include h

theorem Mach.KeepsIssuer.cj : n.cj = m.cj := by
  rw [Mach.cj, h.job]
  exact Mach.job_congr h.jobs _

theorem Mach.KeepsIssuer.ccyc (now : Nat) : n.ccyc now = m.ccyc now := by
  have hpc (part lc : Nat) : n.pcOf part lc = m.pcOf part lc := by rw [Mach.pcOf, Mach.pcOf, h.moves, Mach.part_congr h.parts]
  rw [Mach.ccyc, Mach.ccyc, Mach.clc, Mach.clc, h.job, h.sel, Mach.jobCyc, Mach.jobCyc, Mach.job_congr h.jobs, hpc, Mach.pcl, Mach.pcl, h.pcs]

theorem Mach.KeepsIssuer.pathOf (tok : Tok) : n.pathOf tok = m.pathOf tok := by
  rw [Mach.pathOf, Mach.pathOf, h.cj, Mach.clc, Mach.clc, h.sel]

end

/-- A change of streams that keeps each one's job, place and state. -/
theorem Mach.keepsIssuer_modStr (m : Mach) (sid : Nat) {g : Stream → Stream} (hg : ∀ x, (g x).job = x.job ∧ (g x).sel = x.sel ∧ (g x).state = x.state) :
    m.KeepsIssuer (m.modStr sid g) := by
  have hcs : (m.modStr sid g).cs.job = m.cs.job ∧ (m.modStr sid g).cs.sel = m.cs.sel ∧ (m.modStr sid g).cs.state = m.cs.state := by
    rw [Mach.cs, Mach.cs, Mach.modStr_cur, Mach.str_modStr]
    split
    · next h => rw [h]; exact hg _
    · exact ⟨rfl, rfl, rfl⟩
  exact ⟨rfl, rfl, rfl, rfl, rfl, rfl, rfl, rfl, hcs.1, hcs.2.1, hcs.2.2⟩

theorem Mach.keepsIssuer_sb (m : Mach) (sid : Nat) (f : List SBEnt → List SBEnt) :
    m.KeepsIssuer (m.modStr sid (fun s => { s with sb := f s.sb })) :=
  m.keepsIssuer_modStr sid fun _ => ⟨rfl, rfl, rfl⟩

theorem Mach.keepsIssuer_after (m : Mach) (now b : Nat) (e : Instr) (a : List Nat) : m.KeepsIssuer (m.after now b e a) :=
  ⟨rfl, rfl, rfl, rfl, rfl, rfl, rfl, rfl, rfl, rfl, rfl⟩

theorem Mach.enterOne_keepsIssuer (m : Mach) (now sid : Nat) (e : SBEnt) : m.KeepsIssuer (m.enterOne now sid e) := by
  have hn : m.KeepsIssuer m.newId.2 := ⟨rfl, rfl, rfl, rfl, rfl, rfl, rfl, rfl, rfl, rfl, rfl⟩
  have hd : m.KeepsIssuer m.newId.2.draw.2 := hn.trans ⟨rfl, rfl, rfl, rfl, rfl, rfl, rfl, rfl, rfl, rfl, rfl⟩
  unfold Mach.enterOne
  simp only
  split
  · exact (hn.trans (Mach.keepsIssuer_sb _ sid (· ++ [_]))).trans (Mach.keepsIssuer_after ..)
  split
  · exact hd.trans (Mach.keepsIssuer_sb _ sid (List.map _))
  · exact (hd.trans (Mach.keepsIssuer_sb _ sid (· ++ [_]))).trans (Mach.keepsIssuer_after ..)

theorem Mach.enter_keepsIssuer (m : Mach) (now sid : Nat) (es : List SBEnt) : m.KeepsIssuer (m.enter now sid es) := by
  unfold Mach.enter
  generalize es.filter _ = l
  induction l generalizing m with
  | nil => exact .refl _
  | cons e t ih => exact (m.enterOne_keepsIssuer now sid e).trans (ih _)

theorem Mach.loadLate_keepsIssuer (m : Mach) (home : Nat) : m.KeepsIssuer (m.loadLate home).2 := by
  unfold Mach.loadLate
  simp only
  split
  · exact .refl _
  split
  · exact .refl _
  · exact ⟨rfl, rfl, rfl, rfl, rfl, rfl, rfl, rfl, rfl, rfl, rfl⟩

/-! ### The same effect where energy has been charged beside (R360) -/

theorem Mach.loadLate_charge (m : Mach) (k u home : Nat) :
    (m.charge k u).loadLate home = ((m.loadLate home).1, (m.loadLate home).2.charge k u) := by
  have h : (m.charge k u).cs = m.cs ∧ (m.charge k u).cj = m.cj := ⟨rfl, rfl⟩
  unfold Mach.loadLate
  simp only [h.1, h.2]
  split
  · rfl
  split
  · rfl
  · rfl

/-- The store buffer takes an entry without a look at energy. -/
theorem Mach.enterOne_with (m : Mach) (now sid : Nat) (e : SBEnt) (c : SMap Cctx) (x : SMap Context) :
    ({ m with ccs := c, ctxs := x } : Mach).enterOne now sid e = { m.enterOne now sid e with ccs := c, ctxs := x } := by
  have hstr : ({ m with ccs := c, ctxs := x } : Mach).newId.2.str sid = m.newId.2.str sid := rfl
  have hid : ({ m with ccs := c, ctxs := x } : Mach).newId.1 = m.newId.1 := rfl
  have hdraw : ({ m with ccs := c, ctxs := x } : Mach).newId.2.draw.1 = m.newId.2.draw.1 := rfl
  unfold Mach.enterOne
  simp only [hstr, hid, hdraw]
  cases (m.newId.2.str sid).mergeable { e with seq := m.newId.1, relSeq := m.newId.1 } with
  | none => rfl
  | some o =>
    dsimp only
    split
    · rfl
    · rfl

section
variable {m n : Mach} (h : m.Puts n []) (hs : n.seq = m.seq)
include h hs

theorem Mach.Puts.eq_with : n = { m with ccs := n.ccs, ctxs := n.ctxs } := by
  conv_lhs => rw [h.rest, hs, List.append_nil]

theorem Mach.Puts.enterOne (now sid : Nat) (e : SBEnt) :
    (m.enterOne now sid e).Puts (n.enterOne now sid e) [] ∧ (n.enterOne now sid e).seq = (m.enterOne now sid e).seq := by
  have hk := m.enterOne_keepsIssuer now sid e
  have hn : n.enterOne now sid e = { m.enterOne now sid e with ccs := n.ccs, ctxs := n.ctxs } :=
    (congrArg (fun p : Mach => p.enterOne now sid e) (h.eq_with hs)).trans (m.enterOne_with now sid e n.ccs n.ctxs)
  rw [hn]
  refine ⟨⟨?_, fun i => ?_, fun i => ?_⟩, rfl⟩
  · rw [List.append_nil]
  · exact (h.ccs i).trans (congrArg Cctx.plain (Mach.cct_congr hk.ccs i).symm)
  · exact (h.ctxs i).trans (congrArg Context.plain (Mach.ctx_congr hk.ctxs i).symm)

theorem Mach.Puts.enter (now sid : Nat) (es : List SBEnt) :
    (m.enter now sid es).Puts (n.enter now sid es) [] ∧ (n.enter now sid es).seq = (m.enter now sid es).seq := by
  unfold Mach.enter
  generalize es.filter _ = l
  induction l generalizing m n with
  | nil => exact ⟨h, hs⟩
  | cons e t ih =>
    obtain ⟨h1, hs1⟩ := h.enterOne hs now sid e
    exact ih h1 hs1

end

end Sys2Proof.Machine

/-! PROOFS. Vector loads and stores issue (R207 to R212). -/

namespace Sys2Proof.Machine

/-- A micro-order issues whose effect leaves the issuing stream, its job and its FIFOs alone. -/
theorem microWord_issues_kept {tok : Tok} {bad late : Mach → Option FCode} {path : Bool} {w : Mach → Option Nat} {body : Nat → Mach → Eng}
    {s : State} {i : Instr} {q m' : Mach} {ps : List Pend} {due ord : Nat} (hr : s.microReady tok path (w s.mach))
    (hi : exec i s = microWord tok bad late path w body s) (hb : bad s.mach = none) (hl : late s.mach = none)
    (hbody : body s.now s.mach = .go m' due ord) (hk : s.mach.KeepsIssuer q) (hq : q.Puts m' ps) (hseq : m'.seq = q.seq + ps.length) :
    s.issues i q tok due ord ps (w s.mach) :=
  microWord_issues hr hi hb hl hbody hq hseq hk.cur hk.curLen hk.jobs ⟨hk.job, hk.sel, hk.state⟩ (congrArg Cctx.fifos (Mach.cct_congr hk.ccs _))

/-- What a load writes: the values of the elements it moved, in their lanes, and their flags. -/
def VEnv.loaded (e : VEnv) (d : F7) (es : List ElemAt) (val : ElemAt → Nat × Nat) : VOut :=
  e.out d ((List.range e.n).map (fun j => match es.find? (fun x => x.i == j) with | some x => (val x).1 | none => 0))
    ((List.range e.n).map (fun j => es.any (fun x => x.i == j))) (es.foldl (fun a x => a ||| (val x).2) 0)

/-- The same from the list of values by lane. -/
theorem VEnv.loaded_eq (e : VEnv) (d : F7) (es : List ElemAt) (val : ElemAt → Nat × Nat) :
    let at' (j : Nat) : Option (Nat × Nat) := ((es.map (fun x => (x.i, val x))).find? (fun r => r.1 == j)).map (·.2)
    e.out d ((List.range e.n).map (fun j => match at' j with | some r => r.1 | none => 0)) ((List.range e.n).map (fun j => (at' j).isSome))
      ((es.map (fun x => (x.i, val x))).foldl (fun a r => a ||| r.2.2) 0) = e.loaded d es val := by
  have hfind (j : Nat) : ((es.map (fun x => (x.i, val x))).find? (fun r => r.1 == j)).map (·.2) = (es.find? (fun x => x.i == j)).map val := by
    rw [List.find?_map, Option.map_map]
    rfl
  intro at'
  have hat : at' = fun j => (es.find? (fun x => x.i == j)).map val := funext hfind
  rw [VEnv.loaded, hat, List.foldl_map]
  congr 2
  · funext j
    dsimp only
    cases es.find? (fun x => x.i == j) <;> rfl
  · funext j
    rw [Bool.eq_iff_iff, Option.isSome_map, List.find?_isSome, List.any_eq_true]

section
variable {mi : Micro} {s : State} {i : Instr} {op : Nat} {whole : Bool} {count : VEnv → Nat} {pos : VEnv → Nat → Int} {m m' : Mach} {p : Pg}
  {es : List ElemAt} (hcol : s.mach.cs.sel.col = 4) (hop : vecHosts op 4 = true ∧ op ≠ 0x45) (hx : exactForm mi)
  (hpage : s.mach.eaPage (memEa ((s.mach.venv mi).ab mi.memBase) mi) = .ok (m, p))
include hcol hop hx hpage

theorem vecLoad_issues {stride : VEnv → Int} (hr : s.microReady mi.tail.tok false) (hi : exec i s = vecLoad op mi whole count stride pos s)
    (halign : vecAligned whole true p (memEa ((s.mach.venv mi).ab mi.memBase) mi) = true)
    (hplane : fmtPlane p.fmt = true → stride (s.mach.venv mi) % 64 = 0)
    (hel : m.elems (memEa ((s.mach.venv mi).ab mi.memBase) mi) p.fmt (planesRead (s.mach.venv mi).tc) { rd := true }
      (fun q => loadPair q.fmt q.geom (s.mach.venv mi).tc) (fun _ _ => true) [] none
      ((s.mach.venv mi).memLanes (count (s.mach.venv mi)) (pos (s.mach.venv mi))) = .ok (m', es))
    (hst : m'.elemsUnstarted es = none) :
    let e := s.mach.venv mi
    let due := m'.loadDue s.now (p.home 0)
    let q := (m'.loadLate (p.home 0)).2
    s.issues i q mi.tail.tok due 2 ((s.on q).vecResults due (m'.loadLate (p.home 0)).1 e (e.loaded mi.dest es (m'.elemLoad p.fmt e.tc))) := by
  intro e due q
  have hk : s.mach.KeepsIssuer q :=
    ((Mach.xlat_walked hpage).keepsIssuer.trans (Mach.elems_walked hel).keepsIssuer).trans (Mach.loadLate_keepsIssuer ..)
  have hc : s.mach.vecBad op mi (List.range 32) noRnd = none :=
    vecBad_exact hcol (range_contains (Nat.le_of_lt_succ (Mach.venv_tc_lt ..))) rfl hx hop
  have hput := Mach.pushVec_puts (s := s.on q) (q.charge_puts 8 1) rfl due (m'.loadLate (p.home 0)).1 e
    (e.loaded mi.dest es (m'.elemLoad p.fmt e.tc))
  rw [vecLoad] at hi
  refine microWord_issues_kept hr hi (vecBadWord_ok (hcol ▸ hop.1) hc) hc ?_ hk hput.1 hput.2
  have hstride : (fmtPlane p.fmt && stride (s.mach.venv mi) % 64 != 0) = false := by
    cases hf : fmtPlane p.fmt with
    | false => rfl
    | true => simp [hplane hf]
  simp only [hpage, halign, hstride, hel, hst, Mach.loadLate_charge, Bool.not_true, Bool.false_eq_true, if_false]
  exact congrArg (fun o => Eng.go ((q.charge 8).pushVec s.now due (m'.loadLate (p.home 0)).1 e o) due 2)
    (VEnv.loaded_eq e mi.dest es (m'.elemLoad p.fmt e.tc))

theorem vecStore_issues (hr : s.microReady mi.tail.tok true) (ht : (s.mach.venv mi).tc ≤ 17) (hi : exec i s = vecStore op mi whole count pos s)
    (halign : vecAligned whole false p (memEa ((s.mach.venv mi).ab mi.memBase) mi) = true)
    (hel : m.elems (memEa ((s.mach.venv mi).ab mi.memBase) mi) p.fmt 8 { wr := true } (fun q => storePair q.fmt (s.mach.venv mi).tc)
      (fun _ _ => true) [] none ((s.mach.venv mi).memLanes (count (s.mach.venv mi)) (pos (s.mach.venv mi))) = .ok (m', es))
    (hdraft : mi.tail.tok.pe = true → draftOnly es = true) :
    let e := s.mach.venv mi
    let ents := es.foldl (fun a x => x.store p.fmt (e.trim ((e.els mi.dest).getD x.i 0)) (s.mach.ccyc s.now) (s.mach.pathOf mi.tail.tok) a) []
    s.issues i (m'.enter s.now m'.cur (if op == 0x44 then ents else sortEntries ents)) mi.tail.tok (s.mach.ccyc s.now) 3 [] := by
  intro e ents
  have hk := (Mach.xlat_walked hpage).keepsIssuer.trans (Mach.elems_walked hel).keepsIssuer
  have hc : s.mach.vecBad op mi tyAny noRnd = none := vecBad_exact hcol (tyAny_contains ht) rfl hx hop
  have hput := (m'.charge_puts 8 1).enter rfl s.now m'.cur (if op == 0x44 then ents else sortEntries ents)
  rw [vecStore] at hi
  refine microWord_issues_kept hr hi (vecBadWord_ok (hcol ▸ hop.1) hc) hc ?_ (hk.trans (Mach.enter_keepsIssuer ..)) hput.1 hput.2
  have hpath : (mi.tail.tok.pe && !draftOnly es) = false := by
    cases hpe : mi.tail.tok.pe with
    | false => rfl
    | true => simp [hdraft hpe]
  simp only [hpage, halign, hel, hpath, hk.ccyc, hk.pathOf, Bool.not_true, Bool.false_eq_true, if_false]
  rfl

end

/-- Settles O31: the three loads by their positions, the two stores by their order. -/
theorem vectorMemory : Obligations.VectorMemory := by
  unfold Obligations.VectorMemory
  intro mi s m m' p es e tok ea stride slot loads stores hcol hx hpage
  refine ⟨fun hr => ⟨?_, ?_, ?_⟩, fun hr ht => ⟨?_, ?_⟩⟩
  · exact fun ha hp hel hst => vecLoad_issues (count := (·.n)) (stride := fun _ => 0) (pos := fun _ j => j) hcol (by decide) hx hpage hr
      (exec_vld ..) ha hp hel hst
  · exact fun ha hp hel hst => vecLoad_issues (count := (·.n)) (stride := fun e => e.stride mi) (pos := fun e j => j * e.stride mi) hcol (by decide)
      hx hpage hr (exec_vlds ..) ha hp hel hst
  · exact fun ha hp hel hst => vecLoad_issues (count := fun e => min e.n 128) (stride := fun _ => 0) (pos := fun e j => e.slot mi j) hcol (by decide)
      hx hpage hr (exec_vgath ..) ha hp hel hst
  · exact fun ha hel hd => vecStore_issues (op := 0x41) (count := (·.n)) (pos := fun _ j => j) hcol (by decide) hx hpage hr ht (exec_vst ..) ha hel hd
  · exact fun ha hel hd => vecStore_issues (op := 0x44) (count := fun e => min e.n 128) (pos := fun e j => e.slot mi j) hcol (by decide) hx hpage hr ht
      (exec_vscat ..) ha hel hd

end Sys2Proof.Machine

/-! PROOFS. How a micro-order ends whose own effect reaches the job, the FIFOs or the events to come: it issues, it counts as issued later, or it
is held (R41, R44 to R46, R108, R235). -/

namespace Sys2Proof.Machine

/-! ### The stream that issues -/

/-- The stream that issues stands as it did, and so does the context it issues in. -/
structure Mach.SameIssuer (m n : Mach) : Prop where
  cur : n.cur = m.cur
  curLen : n.curLen = m.curLen
  job : n.cs.job = m.cs.job
  sel : n.cs.sel = m.cs.sel
  state : n.cs.state = m.cs.state
  cx : n.cj.cx = m.cj.cx

theorem Mach.SameIssuer.refl (m : Mach) : m.SameIssuer m := ⟨rfl, rfl, rfl, rfl, rfl, rfl⟩

theorem Mach.SameIssuer.trans {m n p : Mach} (h : m.SameIssuer n) (k : n.SameIssuer p) : m.SameIssuer p :=
  ⟨k.cur.trans h.cur, k.curLen.trans h.curLen, k.job.trans h.job, k.sel.trans h.sel, k.state.trans h.state, k.cx.trans h.cx⟩

theorem Mach.SameIssuer.ccc {m n : Mach} (h : m.SameIssuer n) : n.ccc = m.ccc := by
  rw [Mach.ccc, Mach.ccc, h.cx, Mach.clc, Mach.clc, h.sel]

theorem Mach.KeepsIssuer.same {m n : Mach} (h : m.KeepsIssuer n) : m.SameIssuer n :=
  ⟨h.cur, h.curLen, h.job, h.sel, h.state, by rw [h.cj]⟩

theorem Mach.Puts.sameIssuer {m n : Mach} {ps : List Pend} (h : m.Puts n ps) : m.SameIssuer n := by
  rw [h.rest]
  exact ⟨rfl, rfl, rfl, rfl, rfl, rfl⟩

/-! ### What the token fields leave (R44, R51) -/

/-- The stream of a micro-order that issues: it runs, and SPEC says whether it lies on an open predicted path (R44, R51). -/
def Stream.issued (path : Option Nat) (x : Stream) : Stream :=
  { x with state := if x.state == .waitToken then .running else x.state, wfifo := 0, spec := path.isSome }

/-- The machine whose executing micro-order has taken its token. -/
def Mach.taken (m : Mach) (now : Nat) (path wait : Option Nat) : Mach := (m.takeToken now wait).modStr m.cur (Stream.issued path)

/-- A signal counted in flight at a FIFO of the executing stream's cluster (R45). -/
def Mach.inflight (m : Mach) (f : Nat) : Mach :=
  m.modCct m.ccc (fun c => { c with fifos := smod c.fifos f {} (fun x => { x with inflight := x.inflight + 1 }) })

theorem Mach.tokened_eq (m : Mach) (now : Nat) (tok : Tok) (path wait : Option Nat) : m.tokened now tok path wait =
    if tok.se then (m.taken now path wait).inflight tok.sfifo.toNat else m.taken now path wait := rfl

theorem Mach.taken_sameIssuer (m : Mach) (now : Nat) (path wait : Option Nat) :
    let n := m.taken now path wait
    n.cs = m.cs.issued path ∧ n.cur = m.cur ∧ n.curLen = m.curLen ∧ n.ccc = m.ccc := by
  have hcs : (m.taken now path wait).cs = m.cs.issued path := by
    rw [Mach.taken, m.takeToken_rest]
    exact Mach.str_modStr_same ..
  have hcj : (m.taken now path wait).cj = m.cj := by
    rw [Mach.cj, hcs]
    refine Mach.job_congr ?_ _
    rw [Mach.taken, m.takeToken_rest]
    rfl
  refine ⟨hcs, ?_, ?_, ?_⟩
  · rw [Mach.taken, m.takeToken_rest]; rfl
  · rw [Mach.taken, m.takeToken_rest]; rfl
  · rw [Mach.ccc, hcj, Mach.clc, hcs]; rfl

/-- The way in which an issue leaves it. -/
theorem Mach.modStr_takeToken (m : Mach) (now : Nat) (path wait : Option Nat) :
    ((m.takeToken now wait).modStr (m.takeToken now wait).cur
      (fun x => { x with state := if x.state == .waitToken then .running else x.state, wfifo := 0 })).modStr m.cur
        (fun x => { x with spec := path.isSome }) = m.taken now path wait := by
  have hcur : (m.takeToken now wait).cur = m.cur := by rw [m.takeToken_rest]
  rw [hcur, Mach.modStr_modStr]
  rfl

theorem Mach.Puts.taken {m n : Mach} (h : m.Puts n []) (hs : n.seq = m.seq) (now : Nat) (path wait : Option Nat) :
    (m.taken now path wait).Puts (n.taken now path wait) [] ∧ (n.taken now path wait).seq = (m.taken now path wait).seq := by
  obtain ⟨ht, hts⟩ := h.takeToken hs now wait
  rw [Mach.taken, Mach.taken, h.sameIssuer.cur]
  exact ⟨ht.modStr .., hts⟩

theorem Mach.Puts.inflight {m n : Mach} (h : m.Puts n []) (f : Nat) : (m.inflight f).Puts (n.inflight f) [] := by
  rw [Mach.inflight, Mach.inflight, h.sameIssuer.ccc]
  exact h.fifos _ (fun g => smod g f {} (fun x => { x with inflight := x.inflight + 1 }))

theorem Mach.Puts.tokened {m n : Mach} (h : m.Puts n []) (hs : n.seq = m.seq) (now : Nat) (tok : Tok) (path wait : Option Nat) :
    (m.tokened now tok path wait).Puts (n.tokened now tok path wait) [] ∧ (n.tokened now tok path wait).seq = (m.tokened now tok path wait).seq := by
  obtain ⟨ht, hts⟩ := h.taken hs now path wait
  rw [Mach.tokened_eq, Mach.tokened_eq]
  split
  · exact ⟨ht.inflight _, hts⟩
  · exact ⟨ht, hts⟩

/-! ### Events to come are none of what an issue fixes -/

/-- The machine with another list of events to come. -/
def Mach.withAgenda (m : Mach) (a : List (Nat × Instr × List Nat)) : Mach := { m with agenda := a }

section
variable (m : Mach) (a : List (Nat × Instr × List Nat))

@[simp] theorem Mach.withAgenda_cs : (m.withAgenda a).cs = m.cs := rfl
@[simp] theorem Mach.withAgenda_cur : (m.withAgenda a).cur = m.cur := rfl
@[simp] theorem Mach.withAgenda_cct (cc : Nat) : (m.withAgenda a).cct cc = m.cct cc := rfl
@[simp] theorem Mach.withAgenda_pend : (m.withAgenda a).pend = m.pend := rfl
@[simp] theorem Mach.withAgenda_clc : (m.withAgenda a).clc = m.clc := rfl
@[simp] theorem Mach.withAgenda_ccc : (m.withAgenda a).ccc = m.ccc := rfl
@[simp] theorem Mach.withAgenda_ccyc (now : Nat) : (m.withAgenda a).ccyc now = m.ccyc now := rfl
@[simp] theorem Mach.withAgenda_periodOf (sid : Nat) : (m.withAgenda a).periodOf sid = m.periodOf sid := rfl
theorem Mach.withAgenda_modCct (cc : Nat) (f : Cctx → Cctx) : (m.withAgenda a).modCct cc f = (m.modCct cc f).withAgenda a := rfl
theorem Mach.withAgenda_puts (ps : List Pend) : (m.withAgenda a).puts ps = (m.puts ps).withAgenda a := rfl

theorem Mach.withAgenda_after (now b : Nat) (e : Instr) (l : List Nat) :
    (m.withAgenda a).after now b e l = (m.after now b e l).withAgenda ((m.withAgenda a).after now b e l).agenda := rfl

theorem Mach.withAgenda_pendUp (p : Pend) (f due : Nat) : (m.withAgenda a).pendUp p f due = (m.pendUp p f due).withAgenda a := by
  by_cases h : ((sget (m.cct p.cc).fifos f {}).pend == 0 || 255 ≤ (sget (m.cct p.cc).fifos f {}).count ||
    m.pend.any (fun q => q.cc == p.cc && q.eff == .tokUp f)) = true
  · have hl : (m.withAgenda a).pendUp p f due = m.withAgenda a := if_pos h
    have hr : m.pendUp p f due = m := if_pos h
    rw [hl, hr]
  · have hl : (m.withAgenda a).pendUp p f due = _ := if_neg h
    have hr : m.pendUp p f due = _ := if_neg h
    rw [hl, hr]
    rfl

theorem Mach.withAgenda_takeToken (now : Nat) (wait : Option Nat) :
    ∃ b, (m.withAgenda a).takeToken now wait = (m.takeToken now wait).withAgenda b := by
  cases wait with
  | none => exact ⟨a, rfl⟩
  | some f =>
    simp only [Mach.takeToken, Mach.withAgenda_ccc, Mach.withAgenda_cs, Mach.withAgenda_clc, Mach.withAgenda_cur, Mach.withAgenda_ccyc,
      Mach.withAgenda_modCct, Mach.withAgenda_pendUp, Mach.withAgenda_periodOf]
    split
    · exact ⟨_, Mach.withAgenda_after ..⟩
    · exact ⟨a, rfl⟩

theorem Mach.withAgenda_tokened (now : Nat) (tok : Tok) (path wait : Option Nat) :
    ∃ b, (m.withAgenda a).tokened now tok path wait = (m.tokened now tok path wait).withAgenda b := by
  obtain ⟨b, hb⟩ := m.withAgenda_takeToken a now wait
  refine ⟨b, ?_⟩
  rw [Mach.tokened_eq, Mach.tokened_eq, Mach.taken, Mach.taken, hb]
  split <;> rfl

end

theorem State.Quiet.of_agenda {s t : State} {m : Mach} {a : List (Nat × Instr × List Nat)} (h : (s.on (m.withAgenda a)).Quiet t) :
    (s.on m).Quiet t :=
  ⟨h.now, h.rest, h.others, h.ccs, h.ctxs, h.dies, h.mem, h.wf⟩

section
variable {s : State} {i : Instr} {q : Mach} {a : List (Nat × Instr × List Nat)} {tok : Tok} {ps : List Pend}

/-- A micro-order issues from a machine whatever its events to come. -/
theorem State.issues.of_agenda {due ord : Nat} {wait : Option Nat} (h : s.issues i (q.withAgenda a) tok due ord ps wait) :
    s.issues i q tok due ord ps wait := by
  obtain ⟨t, hx, hquiet, hown, hpend⟩ := h
  obtain ⟨b, hb⟩ := (q.puts ps).withAgenda_tokened a s.now tok (s.mach.pathOf tok) wait
  rw [Mach.withAgenda_puts, hb] at hquiet hown hpend
  exact ⟨t, hx, hquiet.of_agenda, hown, hpend⟩

theorem State.issuesLate.of_agenda {cyc due : Nat} {start : Bool} (h : s.issuesLate i (q.withAgenda a) tok cyc start due ps) :
    s.issuesLate i q tok cyc start due ps := by
  obtain ⟨t, hx, hquiet, hown, hpend⟩ := h
  obtain ⟨b, hb⟩ := (q.puts ps).withAgenda_tokened a s.now tok (s.mach.pathOf tok) tok.wait
  rw [Mach.withAgenda_puts, hb] at hquiet hown hpend
  exact ⟨t, hx, hquiet.of_agenda, hown, hpend⟩

end

/-! ### A micro-order whose checks pass -/

section
variable {tok : Tok} {bad late : Mach → Option FCode} {path : Bool} {w : Mach → Option Nat} {body : Nat → Mach → Eng} {s : State} {m' : Mach}
  (hr : s.microReady tok path (w s.mach)) (hb : bad s.mach = none) (hl : late s.mach = none) (hm : s.mach.SameIssuer m')
  (hf : tok.se = true → (m'.cct s.mach.ccc).fifos = (s.mach.cct s.mach.ccc).fifos)

theorem State.microReady.dry {wait : Option Nat} (hr : s.microReady tok path wait) :
    wait.filter (fun f => (sget (s.mach.cct s.mach.ccc).fifos f {}).count == 0) = none := by
  cases h : wait with
  | none => rfl
  | some f => simp [Option.filter, hr.waits f h]

theorem State.microReady.onPath {wait : Option Nat} (hr : s.microReady tok path wait) :
    (if tok.pe && !path then some FCode.illegalField else none) = none := by
  cases path with
  | true => simp
  | false => simp [hr.path rfl]

include hr hm hf in
/-- The FIFO that an issued micro-order signals has room (R45). -/
theorem Mach.SameIssuer.room {f : Nat} (hse : tok.se = true) (hfe : f = tok.sfifo.toNat) :
    let n := m'.taken s.now (s.mach.pathOf tok) (w s.mach)
    (sget (n.cct n.ccc).fifos f {}).room = true := by
  obtain ⟨-, -, -, hccc⟩ := m'.taken_sameIssuer s.now (s.mach.pathOf tok) (w s.mach)
  intro n
  have hfifo : (n.cct s.mach.ccc).fifos = ((s.mach.takeToken s.now (w s.mach)).cct s.mach.ccc).fifos :=
    Mach.takeToken_fifos s.mach s.now s.mach.ccc (w s.mach) m' hm.ccc (hf hse)
  rw [hccc, hm.ccc, hfifo, hfe]
  exact hr.room hse

include hr hm in
theorem Mach.SameIssuer.not_primed :
    let n := m'.taken s.now (s.mach.pathOf tok) (w s.mach)
    n.cs.state ≠ .primed := by
  obtain ⟨hcs, -, -, -⟩ := m'.taken_sameIssuer s.now (s.mach.pathOf tok) (w s.mach)
  intro n
  rw [hcs, Stream.issued, hm.state]
  rcases hr.runs with h | h <;> simp [h]

/-- The signal of an issued micro-order put in flight for a job cycle, if it has one (R46). -/
def Mach.pushSig (m : Mach) (now : Nat) (tok : Tok) (path : Option Nat) (due ord : Nat) : Mach :=
  if tok.se then m.pushAt now due (.sig tok.sfifo.toNat) ord path else m

include hr hb hl hm hf in
theorem microWord_eq_go {due ord : Nat} (hbody : body s.now s.mach = .go m' due ord) : microWord tok bad late path w body s = .next (s.on
    ((Res.go ((m'.tokened s.now tok (s.mach.pathOf tok) (w s.mach)).pushSig s.now tok (s.mach.pathOf tok) due ord)).finish s.now)) := by
  simp only [microWord, onWord, onMach]
  rw [State.on]
  congr 3
  simp only [hb, hl, hr.dry, hr.onPath, Option.none_or, Option.isSome_none, Bool.false_and, Bool.false_eq_true, if_false, hbody]
  rw [Mach.modStr_takeToken, Mach.pushSig, Mach.tokened_eq]
  cases hse : tok.se with
  | false => rfl
  | true =>
    have hroom := hm.room hr hf hse rfl
    have hp := beq_eq_false_iff_ne.2 (hm.not_primed hr)
    simp only [if_true, hroom, Bool.not_true, Bool.false_eq_true, if_false]
    exact congrArg Res.go (if_neg (ne_true_of_eq_false hp))

/-- A micro-order past that counts as issued in a cycle, from which the next delay counts as from a start where `start` says so (R235, R317). -/
def Mach.retireLate (m : Mach) (now cyc : Nat) (start : Bool) : Mach :=
  (m.retire now).modStr m.cur (fun x => { x with lastIssue := max x.lastIssue cyc, fresh := start })

include hr hb hl hm hf in
theorem microWord_eq_late {cyc due : Nat} {start : Bool} (hbody : body s.now s.mach = .late m' cyc due start) :
    microWord tok bad late path w body s = .next (s.on ((Res.moved (((m'.tokened s.now tok (s.mach.pathOf tok) (w s.mach)).pushSig s.now tok
      (s.mach.pathOf tok) due 2).retireLate s.now cyc start)).finish s.now)) := by
  simp only [microWord, onWord, onMach]
  rw [State.on]
  congr 3
  simp only [hb, hl, hr.dry, hr.onPath, Option.none_or, Option.isSome_none, Bool.false_and, Bool.false_eq_true, if_false, hbody]
  rw [Mach.modStr_takeToken, Mach.pushSig, Mach.tokened_eq]
  cases hse : tok.se with
  | false => rfl
  | true =>
    have hroom := hm.room hr hf hse rfl
    have hp := beq_eq_false_iff_ne.2 (hm.not_primed hr)
    simp only [if_true, hroom, Bool.not_true, Bool.false_eq_true, if_false]
    exact congrArg (fun x : Mach => Res.moved (x.retireLate s.now cyc start)) (if_neg (ne_true_of_eq_false hp))

include hr hb hl hm hf in
theorem microWord_eq_wait {h : Hold} (hbody : body s.now s.mach = .wait m' h) :
    let b := m'.tokened s.now tok (s.mach.pathOf tok) (w s.mach)
    microWord tok bad late path w body s = .next (s.on ((Res.hold (if tok.se then b.modStr b.cur (fun x =>
      { x with sig := some (tok.sfifo.toNat, s.mach.pathOf tok) }) else b) h).finish s.now)) := by
  intro b
  simp only [microWord, onWord, onMach]
  rw [State.on]
  congr 3
  simp only [hb, hl, hr.dry, hr.onPath, Option.none_or, Option.isSome_none, Bool.false_and, Bool.false_eq_true, if_false, hbody]
  rw [Mach.modStr_takeToken]
  simp only [b, Mach.tokened_eq]
  obtain ⟨-, hcur', -, -⟩ := m'.taken_sameIssuer s.now (s.mach.pathOf tok) (w s.mach)
  rw [hm.cur] at hcur'
  cases hse : tok.se with
  | false => rfl
  | true =>
    have hroom := hm.room hr hf hse rfl
    simp only [if_true, hroom, Bool.not_true, Bool.false_eq_true, if_false]
    rw [show ((m'.taken s.now (s.mach.pathOf tok) (w s.mach)).inflight tok.sfifo.toNat).cur = s.mach.cur from hcur']
    rfl
end

/-! ### What it leaves -/

/-- The signal put in flight beside what the token fields leave. -/
theorem State.signalled_puts {s : State} {m n : Mach} (h : m.Puts n []) (hs : n.seq = m.seq) (tok : Tok) (path : Option Nat) (due ord : Nat) :
    m.Puts (n.pushSig s.now tok path due ord) ((s.on m).signalled tok path due ord) := by
  rw [Mach.pushSig, State.signalled]
  split
  · have hp := Mach.pushAt_puts h s.now due (.sig tok.sfifo.toNat) ord path
    rw [hs] at hp
    exact hp
  · exact h

theorem Mach.tokened_cs (m : Mach) (now : Nat) (tok : Tok) (path wait : Option Nat) : (m.tokened now tok path wait).cs = m.cs.issued path := by
  obtain ⟨hcs, -, -, -⟩ := m.taken_sameIssuer now path wait
  rw [Mach.tokened_eq, ← hcs]
  split <;> rfl

theorem Mach.tokened_curLen (m : Mach) (now : Nat) (tok : Tok) (path wait : Option Nat) : (m.tokened now tok path wait).curLen = m.curLen := by
  obtain ⟨-, -, hlen, -⟩ := m.taken_sameIssuer now path wait
  rw [Mach.tokened_eq, ← hlen]
  split <;> rfl

/-- The clock of the executing stream is none of what the token fields change. -/
theorem Mach.tokened_ccyc (m : Mach) (now : Nat) (tok : Tok) (path wait : Option Nat) :
    (m.tokened now tok path wait).ccyc now = m.ccyc now := by
  have hcs := m.tokened_cs now tok path wait
  have hrest : (m.tokened now tok path wait).jobs = m.jobs ∧ (m.tokened now tok path wait).pcs = m.pcs ∧
      (m.tokened now tok path wait).parts = m.parts ∧ (m.tokened now tok path wait).moves = m.moves := by
    rw [Mach.tokened_eq, Mach.taken, m.takeToken_rest]
    split <;> exact ⟨rfl, rfl, rfl, rfl⟩
  generalize m.tokened now tok path wait = n at *
  obtain ⟨hjobs, hpcs, hparts, hmoves⟩ := hrest
  rw [Mach.ccyc, hcs, Mach.clc, hcs, Mach.jobCyc, Mach.job_congr hjobs, Mach.pcOf, Mach.part_congr hparts, hmoves, Mach.pcl, hpcs]
  rfl

/-- A micro-order past that counts as issued in a later cycle, after it put `ps` in flight. -/
theorem State.retireLate_leaves {s : State} {n : Mach} {ps : List Pend} {cyc : Nat} {start : Bool} {x : Stream} {path : Option Nat} {len c : Nat}
    (hs : s.onEngine) (hl : n.curLen = len) (hc : s.mach.ccyc s.now = c) (hx : s.mach.cs = x.issued path) (h : s.mach.Puts n ps) :
    let t := s.on ((Res.moved (n.retireLate s.now cyc start)).finish s.now)
    s.Quiet t ∧ t.mach.cs = { s.mach.cs with step := s.mach.cs.step + len, lastIssue := max c cyc, fresh := start,
                                             hold := .none } ∧ t.mach.pend = s.mach.pend ++ ps := by
  have hn : n.cur = s.mach.cur ∧ n.cs = s.mach.cs ∧ n.ccyc s.now = s.mach.ccyc s.now := by
    rw [h.rest]
    exact ⟨rfl, rfl, rfl⟩
  obtain ⟨hcur, hcs, hcyc⟩ := hn
  have hstep : n.retireLate s.now cyc start = n.modStr s.mach.cur (fun y => { y with
      step := y.step + len, lastIssue := max c cyc, fresh := start, hold := .none, wfifo := 0,
      state := if y.state == .waitToken then .running else y.state }) := by
    rw [Mach.retireLate, Mach.retire, if_neg (by rw [hcs]; simpa [State.onEngine] using hs), Mach.stepOn, hcur, hl,
      Mach.modStr_modStr, ← hc, ← hcyc, ← hcur]
    rfl
  have hown : (n.retireLate s.now cyc start).str s.mach.cur = { s.mach.cs with
      step := s.mach.cs.step + len, lastIssue := max c cyc, fresh := start, hold := .none } := by
    rw [hstep, Mach.str_modStr_same, show n.str s.mach.cur = s.mach.cs by rw [← hcs, Mach.cs, hcur], hx, Stream.issued]
    cases x.state <;> rfl
  exact State.settled h (.refl ..) (q := n.retireLate s.now cyc start) (by rw [hstep]; rfl) (fun j hj => by rw [hstep, Mach.str_modStr_ne _ _ hj]) hown

section
variable {tok : Tok} {bad late : Mach → Option FCode} {path : Bool} {w : Mach → Option Nat} {body : Nat → Mach → Eng} {s : State} {i : Instr}
  {q m' : Mach} {ps : List Pend}
  (hr : s.microReady tok path (w s.mach)) (hi : exec i s = microWord tok bad late path w body s) (hb : bad s.mach = none) (hl : late s.mach = none)
  (hm : s.mach.SameIssuer q) (hf : tok.se = true → (q.cct s.mach.ccc).fifos = (s.mach.cct s.mach.ccc).fifos) (hq : q.Puts m' ps)
  (hseq : m'.seq = q.seq + ps.length)
include hr hi hb hl hm hf hq hseq

/-- A micro-order issues whose effect leaves `m'`, that is `q` but for energy and what it put in flight. -/
theorem microWord_issues_same {due ord : Nat} (hbody : body s.now s.mach = .go m' due ord) : s.issues i q tok due ord ps (w s.mach) := by
  obtain ⟨ht, hts⟩ := (hq.held hseq).tokened hseq s.now tok (s.mach.pathOf tok) (w s.mach)
  refine ⟨_, hi.trans (microWord_eq_go hr hb hl (hm.trans hq.sameIssuer) (fun hse => (hq.fifo _).trans (hf hse)) hbody), ?_⟩
  have hp := State.signalled_puts (s := s) ht hts tok (s.mach.pathOf tok) due ord
  refine State.go_stepped (s := s.on _) ?_ ?_ hp
  · rw [State.onEngine, State.mach_on, Mach.tokened_cs]
    exact hm.sel ▸ hr.engine
  · exact hp.sameIssuer.curLen

/-- The same for one that counts as issued in a later cycle (R235, R317). -/
theorem microWord_issuesLate {cyc due : Nat} {start : Bool} (hbody : body s.now s.mach = .late m' cyc due start) (hw : w s.mach = tok.wait)
    (hcyc : q.ccyc s.now = s.mach.ccyc s.now) : s.issuesLate i q tok cyc start due ps := by
  obtain ⟨ht, hts⟩ := (hq.held hseq).tokened hseq s.now tok (s.mach.pathOf tok) (w s.mach)
  have hp := State.signalled_puts (s := s) ht hts tok (s.mach.pathOf tok) due 2
  have hcs := (q.puts ps).tokened_cs s.now tok (s.mach.pathOf tok) (w s.mach)
  have hleaves := State.retireLate_leaves (s := s.on ((q.puts ps).tokened s.now tok (s.mach.pathOf tok) (w s.mach))) (cyc := cyc) (start := start)
    (by rw [State.onEngine, State.mach_on, hcs]; exact hm.sel ▸ hr.engine) (hp.sameIssuer.curLen.trans ((Mach.tokened_curLen ..).trans hm.curLen))
    ((Mach.tokened_ccyc ..).trans hcyc) hcs hp
  unfold State.issuesLate
  rw [← hw]
  exact ⟨_, hi.trans (microWord_eq_late hr hb hl (hm.trans hq.sameIssuer) (fun hse => (hq.fifo _).trans (hf hse)) hbody), hleaves⟩

/-- The same for one that is held until an event completes it (R108). -/
theorem microWord_issuesHeld {h : Hold} (hbody : body s.now s.mach = .wait m' h) (hw : w s.mach = tok.wait) (hps : ps = []) :
    s.issuesHeld i q tok h := by
  subst hps
  obtain ⟨ht, hts⟩ := hq.tokened hseq s.now tok (s.mach.pathOf tok) (w s.mach)
  have hx := hi.trans (microWord_eq_wait hr hb hl (hm.trans hq.sameIssuer) (fun hse => (hq.fifo _).trans (hf hse)) hbody)
  unfold State.issuesHeld
  rw [← hw]
  refine ⟨_, hx, State.hold_held (s := s.on _) ?_ h⟩
  dsimp only [State.mach_on]
  rw [ht.sameIssuer.cur]
  split
  · exact ht.modStr ..
  · exact ht

end
end Sys2Proof.Machine

/-! PROOFS. Tiles configured and zeroed, leases, batches and steps of the matrix core (R214 to R239). -/

namespace Sys2Proof.Machine

/-! ### A matrix micro-order's own effect, where energy has been charged beside (R360) -/

section
variable {m n : Mach} {ps : List Pend} (h : m.Puts n ps)
include h

theorem Mach.Puts.modCct (cc : Nat) {g : Cctx → Cctx} (hg : ∀ c, (g c).plain = g c.plain) : (m.modCct cc g).Puts (n.modCct cc g) ps := by
  refine ⟨?_, fun i => ?_, fun i => h.ctxs i⟩
  · conv => lhs; rw [h.rest]
    rfl
  · rw [Mach.cct_modCct, Mach.cct_modCct]
    split
    · rw [hg, hg, h.ccs]
    · exact h.ccs i

theorem Mach.Puts.modCore (cc core : Nat) (f : MCore → MCore) : (m.modCore cc core f).Puts (n.modCore cc core f) ps :=
  h.modCct cc (fun _ => rfl)

theorem Mach.Puts.modPcl (pc : Nat) (f : PClu → PClu) : (m.modPcl pc f).Puts (n.modPcl pc f) ps := by
  refine ⟨?_, h.ccs, h.ctxs⟩
  conv => lhs; rw [h.rest]
  rfl

theorem Mach.Puts.modJob (job : Nat) (f : Job → Job) : (m.modJob job f).Puts (n.modJob job f) ps := by
  refine ⟨?_, h.ccs, h.ctxs⟩
  conv => lhs; rw [h.rest]
  rfl

theorem Mach.Puts.withAgenda (a : List (Nat × Instr × List Nat)) : (m.withAgenda a).Puts (n.withAgenda a) ps := by
  refine ⟨?_, h.ccs, h.ctxs⟩
  conv => lhs; rw [h.rest]
  rfl

end

theorem Mach.modCore_sameIssuer (m : Mach) (cc core : Nat) (f : MCore → MCore) : m.SameIssuer (m.modCore cc core f) :=
  ⟨rfl, rfl, rfl, rfl, rfl, rfl⟩

/-- A matrix core's registers are none of the FIFOs. -/
theorem Mach.fifos_modCore (m : Mach) (cc core k : Nat) (f : MCore → MCore) : ((m.modCore cc core f).cct k).fifos = (m.cct k).fifos := by
  rw [Mach.modCore, Mach.cct_modCct]
  split
  next hk => rw [hk]
  · rfl

/-- A lease looked at again adds to the events to come, at most (R221). -/
theorem Mach.leaseCheck_eq (m : Mach) (now job lc core : Nat) : ∃ a, m.leaseCheck now job lc core = m.withAgenda a := by
  unfold Mach.leaseCheck
  extract_lets cc k
  split
  · exact ⟨_, rfl⟩
  · exact ⟨m.agenda, rfl⟩

/-! ### A plain matrix micro-order issues -/

section
variable {mi : Micro} {path : Bool} {bad : Mach → Bool} {body : Nat → Mach → Eng} {s : State} {i : Instr} {q m' : Mach} {ps : List Pend}
  (hp : mi.plain = true) (hr : s.microReady mi.tail.tok path) (hi : exec i s = matWord mi path bad body s)
include hp hr hi

theorem matWord_issues {due ord : Nat} (hb : bad s.mach = false) (hbody : body s.now s.mach = .go m' due ord) (hm : s.mach.SameIssuer q)
    (hf : (q.cct s.mach.ccc).fifos = (s.mach.cct s.mach.ccc).fifos) (hq : q.Puts m' ps) (hseq : m'.seq = q.seq + ps.length) :
    s.issues i q mi.tail.tok due ord ps :=
  microWord_issues_same (w := fun _ => mi.tail.tok.wait) hr hi (by rw [hp]; rfl) (by rw [hb]; rfl) hm (fun _ => hf) hq hseq hbody

theorem matWord_issuesLate {cyc due : Nat} {start : Bool} (hb : bad s.mach = false) (hbody : body s.now s.mach = .late m' cyc due start)
    (hm : s.mach.SameIssuer q) (hf : (q.cct s.mach.ccc).fifos = (s.mach.cct s.mach.ccc).fifos) (hq : q.Puts m' ps)
    (hseq : m'.seq = q.seq + ps.length) (hcyc : q.ccyc s.now = s.mach.ccyc s.now) : s.issuesLate i q mi.tail.tok cyc start due ps :=
  microWord_issuesLate (w := fun _ => mi.tail.tok.wait) hr hi (by rw [hp]; rfl) (by rw [hb]; rfl) hm (fun _ => hf) hq hseq hbody rfl hcyc

end

/-! ### Tiles and accumulators (R223, R224, R239) -/

section
variable {mi : Micro} {s : State}

theorem tcfg_issues {delay : BitVec 4} {tile : F7} {cfg : BitVec 25} {tok : Tok} (hr : s.microReady tok false)
    (hok : tcfgOk (tile.toNat % 16) (cfg.toNat * 256) = true)
    (hpair : tile.toNat % 16 % 2 = 1 →
      tcPair ((s.mach.cct s.mach.ccc).creg (tcfgKey s.mach.cs.sel.unit (tile.toNat % 16 - 1))).toNat = false) :
    s.issues (.tcfg delay tile cfg tok) s.mach tok (s.mach.ccyc s.now) 2 [s.resultAt 0 (s.mach.ccyc s.now) 0
      (.creg (tcfgKey s.mach.cs.sel.unit (tile.toNat % 16)) (BitVec.ofNat 64 (cfg.toNat * 256)))] := by
  refine microWord_issues_same (w := fun _ => tok.wait) hr (exec_tcfg ..) (by rw [hok]; rfl) ?_ (.refl _) (fun _ => rfl)
    (Mach.pushAt_puts (s.mach.charge_puts 11 1) s.now (s.mach.ccyc s.now) _ 0 none) rfl rfl
  refine if_neg fun h => ?_
  obtain ⟨hodd, hp⟩ := Bool.and_eq_true_iff.1 h
  exact Bool.false_ne_true ((hpair (beq_iff_eq.1 hodd)).symm.trans hp)

variable (hp : mi.plain = true) (hr : s.microReady mi.tail.tok false)
include hp hr

theorem tzero_issues {v : Nat} (hv : (s.mach.cct s.mach.ccc).tcfg s.mach.cs.sel.unit (mi.dest.toNat % 16) = some v) :
    s.issues (.tzero mi) s.mach mi.tail.tok (s.mach.ccyc s.now) 2
      [s.resultAt 0 (s.mach.ccyc s.now) 0 (.tzero s.mach.cs.sel.unit (mi.dest.toNat % 16))] :=
  matWord_issues hp hr (exec_tzero ..) (by rw [Mach.tcfgOf, hv]; rfl) rfl (.refl _) rfl
    (Mach.pushAt_puts (s.mach.charge_puts 11 1) s.now (s.mach.ccyc s.now) _ 0 none) rfl

theorem accz_issues (ho : (s.mach.mcore s.mach.ccc s.mach.cs.sel.unit).owner (mi.dest.toNat % 4) = none) :
    s.issues (.accz mi) s.mach mi.tail.tok (s.mach.ccyc s.now) 2
      [s.resultAt 0 (s.mach.ccyc s.now) 0 (.accZero s.mach.cs.sel.unit (mi.dest.toNat % 4))] :=
  matWord_issues hp hr (exec_accz ..) rfl (if_neg (by simp [ho])) (.refl _) rfl
    (Mach.pushAt_puts (s.mach.charge_puts 11 1) s.now (s.mach.ccyc s.now) _ 0 none) rfl

/-! ### Leases (R220, R221) -/

/-- A LEASE under a lease held renews it, where the other core asks for none. -/
theorem lease_renewed (hme : (s.mach.mcore s.mach.ccc s.mach.cs.sel.unit).lheld = true)
    (hother : (s.mach.mcore s.mach.ccc (1 - s.mach.cs.sel.unit)).req = none) :
    s.issues (.lease mi) (s.mach.modCore s.mach.ccc s.mach.cs.sel.unit (fun k => { k with lleft := mi.srcA.toNat })) mi.tail.tok
      (s.mach.ccyc s.now) 2 [] :=
  matWord_issues hp hr (exec_lease ..) rfl (if_pos (by simp [hme, hother])) (Mach.modCore_sameIssuer ..) (Mach.fifos_modCore ..)
    ((s.mach.charge_puts 11 1).modCore ..) rfl

/-- A LEASE on an array that no core holds or asks for is granted; where both cores ask in one cycle, it is the last holder's that waits. -/
theorem lease_granted (hme : (s.mach.mcore s.mach.ccc s.mach.cs.sel.unit).lheld = false)
    (hheld : (s.mach.mcore s.mach.ccc (1 - s.mach.cs.sel.unit)).lheld = false)
    (hreq : (s.mach.mcore s.mach.ccc (1 - s.mach.cs.sel.unit)).req = none)
    (hturn : s.mach.leaseNow s.now = false ∨ (s.mach.pcl (s.mach.pcOf s.mach.cpart s.mach.clc)).lastHolder ≠ s.mach.cs.sel.unit) :
    s.issues (.lease mi) (s.mach.grant s.mach.ccc s.mach.cs.sel.unit (s.mach.pcOf s.mach.cpart s.mach.clc) mi.srcA.toNat) mi.tail.tok
      (s.mach.ccyc s.now) 2 [] := by
  have hfree : ((s.mach.pcl (s.mach.pcOf s.mach.cpart s.mach.clc)).lastHolder == s.mach.cs.sel.unit &&
      (s.mach.leaseNow s.now || false)) = false := by
    rcases hturn with h | h
    · simp [h]
    · simp [beq_eq_false_iff_ne.2 h]
  refine matWord_issues hp hr (exec_lease ..) rfl ?_ ?_ ?_ (((s.mach.charge_puts 11 1).modCore s.mach.ccc s.mach.cs.sel.unit _).modPcl
    (s.mach.pcOf s.mach.cpart s.mach.clc) (fun p => { p with lastHolder := s.mach.cs.sel.unit })) rfl
  · simp only [hme, hheld, hreq, hfree, Option.isSome_none, Option.isNone_none, Bool.false_and, Bool.false_eq_true, if_false, Bool.not_false,
      Bool.and_self, if_true]
    split <;> rfl
  · exact ⟨rfl, rfl, rfl, rfl, rfl, rfl⟩
  · exact Mach.fifos_modCore ..

/-- An LREL with no lease does nothing. -/
theorem lrel_unleased (hme : (s.mach.mcore s.mach.ccc s.mach.cs.sel.unit).lheld = false) :
    s.issues (.lrel mi) s.mach mi.tail.tok (s.mach.ccyc s.now) 2 [] :=
  matWord_issues hp hr (exec_lrel ..) rfl (if_pos (by simp [hme])) (.refl _) rfl (s.mach.charge_puts 11 1) rfl

/-- An LREL of a lease with no batch open releases it. -/
theorem lrel_releases (hme : (s.mach.mcore s.mach.ccc s.mach.cs.sel.unit).lheld = true)
    (hopen : (s.mach.mcore s.mach.ccc s.mach.cs.sel.unit).leaseOpen = false) :
    s.issues (.lrel mi) (s.mach.modCore s.mach.ccc s.mach.cs.sel.unit (fun k => { k with released := true })) mi.tail.tok
      (s.mach.ccyc s.now) 2 [] := by
  obtain ⟨a, ha⟩ := ((s.mach.charge 11).modCore s.mach.ccc s.mach.cs.sel.unit (fun k => { k with released := true })).leaseCheck_eq s.now
    s.mach.cs.job s.mach.clc s.mach.cs.sel.unit
  refine State.issues.of_agenda (a := a) (matWord_issues hp hr (exec_lrel ..) rfl ?_ ⟨rfl, rfl, rfl, rfl, rfl, rfl⟩
    (Mach.fifos_modCore (f := fun k => { k with released := true }) ..) (((s.mach.charge_puts 11 1).modCore ..).withAgenda a) rfl)
  simp only [hme, hopen, Bool.not_true, Bool.false_eq_true, if_false]
  exact congrArg (fun x => Eng.go x (s.mach.ccyc s.now) 2) ha

end

/-- Settles O32, word by word. -/
theorem matrixTilesAndLeases : Obligations.MatrixTilesAndLeases := by
  unfold Obligations.MatrixTilesAndLeases
  intro mi delay tile cfg tok s c core cc me other j
  exact ⟨fun hr hok hpair => tcfg_issues hr hok hpair, fun hp hr => ⟨fun v hv => tzero_issues hp hr hv, accz_issues hp hr, lease_renewed hp hr,
    lease_granted hp hr, lrel_unleased hp hr, lrel_releases hp hr⟩⟩

end Sys2Proof.Machine

/-! PROOFS. Batches of the matrix core: opened, closed and resolved (R233 to R236). -/

namespace Sys2Proof.Machine

/-! ### What is put in flight one after another -/

/-- What a list puts in flight one after another, where each of its members puts one more. -/
theorem Mach.Puts.foldl_pend {α : Type} {m : Mach} {f : Mach → α → Mach} {p : Nat → α → Pend}
    (hf : ∀ n ps a, m.Puts n ps → n.seq = m.seq + ps.length → m.Puts (f n a) (ps ++ [p ps.length a]) ∧ (f n a).seq = n.seq + 1)
    (l : List α) {n : Mach} {ps : List Pend} (h : m.Puts n ps) (hs : n.seq = m.seq + ps.length) :
    m.Puts (l.foldl f n) (ps ++ l.mapIdx (fun i a => p (ps.length + i) a)) ∧ (l.foldl f n).seq = m.seq + (ps.length + l.length) := by
  induction l generalizing n ps with
  | nil => exact ⟨by rw [List.mapIdx_nil, List.append_nil]; exact h, hs⟩
  | cons a l ih =>
    obtain ⟨ha, has⟩ := hf n ps a h hs
    obtain ⟨hl, hls⟩ := ih ha (by rw [has, hs, List.length_append]; rfl)
    have hadd (i : Nat) : ps.length + 1 + i = ps.length + (i + 1) := by omega
    refine ⟨?_, ?_⟩
    · rw [List.foldl_cons, List.mapIdx_cons, ← List.singleton_append, ← List.append_assoc]
      simpa only [List.length_append, List.length_singleton, hadd, Nat.add_zero] using hl
    · rw [List.foldl_cons, hls, List.length_append, List.length_cons, List.length_cons, List.length_nil]
      omega

theorem Mach.Puts.mcore {m n : Mach} {ps : List Pend} (h : m.Puts n ps) (cc core : Nat) : n.mcore cc core = m.mcore cc core := by
  have hc := congrArg Cctx.cores (h.ccs cc)
  exact congrArg (sget · core {}) hc

theorem Mach.Puts.batchOf {m n : Mach} {ps : List Pend} (h : m.Puts n ps) (mi : Micro) : n.batchOf mi = m.batchOf mi := by
  rw [Mach.batchOf, Mach.batchOf, h.mcore, h.sameIssuer.ccc, h.sameIssuer.sel]

/-! ### Batches opened and closed (R233 to R235) -/

/-- The tag that a BOPEN.S names (R234). -/
def batchTag (tok : Tok) : Nat := if tok.pe then tok.ptag.toNat else 0

/-- A batch opened under the lease held, and named for the micro-orders after it (R234). -/
def Mach.opens (m : Mach) (b : Nat) (tag : Option Nat) : Mach :=
  m.modCore m.ccc m.cs.sel.unit (fun c => { c with batches := sset c.batches b { state := .opened, tag := tag, lease := c.leaseNo }, mrb := some b })

/-- A predicted path opened on every cluster of the executing job, with what stands kept for its DISCARD (R53, R234). -/
def Mach.opensPath (m : Mach) (t : Nat) : Mach :=
  let kept : Tag := { base := (m.ctx m.cj.cx).regions.map (fun r => (r.pubrid, r.draft)), homes := m.homes }
  let old (j : Job) : SMap Tag := if j.tagAny t then j.tags else sset j.tags t kept
  m.modJob m.cs.job (fun j =>
    { j with tags := (m.clustersOf m.cs.job).foldl (fun g lc => sset g (tagKey lc t) { opened := true }) (old j) })

/-- A batch closed in a job cycle (R235). -/
def Mach.closes (m : Mach) (b : Nat) (x : Batch) (k : Nat) : Mach :=
  m.modCore m.ccc m.cs.sel.unit (fun c => { c with batches := sset c.batches b { x with state := .closed, closeAt := k } })

section
variable {m n : Mach} {ps : List Pend} (h : m.Puts n ps)
include h

theorem Mach.Puts.opens (b : Nat) (tag : Option Nat) : (m.opens b tag).Puts (n.opens b tag) ps := by
  rw [Mach.opens, Mach.opens, h.sameIssuer.ccc, h.sameIssuer.sel]
  exact h.modCore ..

theorem Mach.Puts.opensPath (t : Nat) : (m.opensPath t).Puts (n.opensPath t) ps := by
  have hr : (n.ctx n.cj.cx).regions = (m.ctx m.cj.cx).regions := by
    rw [h.sameIssuer.cx]
    have hc := congrArg Context.regions (h.ctxs m.cj.cx)
    exact hc
  have hn : n.clustersOf n.cs.job = m.clustersOf m.cs.job ∧ n.cs.job = m.cs.job ∧ n.homes = m.homes := by
    rw [h.rest]
    exact ⟨rfl, rfl, rfl⟩
  obtain ⟨hl, hjob, hhomes⟩ := hn
  rw [Mach.opensPath, Mach.opensPath, hr, hl, hjob, hhomes]
  exact h.modJob ..

theorem Mach.Puts.closes (b : Nat) (x : Batch) (k : Nat) : (m.closes b x k).Puts (n.closes b x k) ps := by
  rw [Mach.closes, Mach.closes, h.sameIssuer.ccc, h.sameIssuer.sel]
  exact h.modCore ..

end

theorem Mach.opensPath_sameIssuer (m : Mach) (t : Nat) : m.SameIssuer (m.opensPath t) := by
  refine ⟨rfl, rfl, rfl, rfl, rfl, ?_⟩
  show ((m.opensPath t).job m.cs.job).cx = _
  rw [Mach.opensPath, Mach.job_modJob, if_pos rfl]
  rfl

/-- A path opened leaves the job's clock. -/
theorem Mach.opensPath_ccyc (m : Mach) (t now : Nat) : (m.opensPath t).ccyc now = m.ccyc now := by
  have hclk : ((m.opensPath t).job m.cs.job).clk = (m.job m.cs.job).clk ∧ ((m.opensPath t).job m.cs.job).cx = (m.job m.cs.job).cx := by
    rw [Mach.opensPath, Mach.job_modJob, if_pos rfl]
    exact ⟨rfl, rfl⟩
  obtain ⟨hclk, hcx⟩ := hclk
  show (m.opensPath t).jobCyc now m.cs.job m.clc = _
  rw [Mach.jobCyc, hclk, hcx]
  rfl

theorem exec_bopen_op (mi : Micro) (s : State) : exec (.bopen mi) s = bopenOp false mi s := rfl
theorem exec_bopenS_op (mi : Micro) (s : State) : exec (.bopenS mi) s = bopenOp true mi s := rfl

section
variable {mi : Micro} {s : State} (hp : mi.plain = true)
include hp

section
variable (hme : (s.mach.mcore s.mach.ccc s.mach.cs.sel.unit).lheld = true)
  (hfree : (sget (s.mach.mcore s.mach.ccc s.mach.cs.sel.unit).batches mi.srcA.toNat {}).state = .free)
include hme hfree

theorem bopen_issues (hr : s.microReady mi.tail.tok false) :
    s.issues (.bopen mi) (s.mach.opens mi.srcA.toNat none) mi.tail.tok (s.mach.ccyc s.now) 2 [] := by
  refine matWord_issues hp hr (exec_bopen_op mi s) rfl ?_ (Mach.modCore_sameIssuer ..) (Mach.fifos_modCore ..)
    ((s.mach.charge_puts 11 1).opens ..) rfl
  simp only [hme, hfree, Bool.not_true, bne_self_eq_false, Bool.false_eq_true, if_false]
  rfl

theorem bopenS_issues (hr : s.microReady mi.tail.tok true) (hopen : s.mach.cj.tagOpen s.mach.clc (batchTag mi.tail.tok) = true) :
    s.issues (.bopenS mi) (s.mach.opens mi.srcA.toNat (some (batchTag mi.tail.tok))) mi.tail.tok (s.mach.ccyc s.now) 2 [] := by
  refine matWord_issues hp hr (exec_bopenS_op mi s) rfl ?_ (Mach.modCore_sameIssuer ..) (Mach.fifos_modCore ..)
    ((s.mach.charge_puts 11 1).opens ..) rfl
  simp only [hme, hfree, Bool.not_true, bne_self_eq_false, Bool.false_eq_true, if_false, if_true]
  refine congrArg (a₂ := (s.mach.charge 11).opens mi.srcA.toNat (some (batchTag mi.tail.tok))) (fun x : Mach => Eng.go x (x.ccyc s.now) 2) ?_
  exact if_pos hopen

theorem bopenS_opensPath (hr : s.microReady mi.tail.tok true) (hopen : s.mach.cj.tagOpen s.mach.clc (batchTag mi.tail.tok) = false) :
    s.issues (.bopenS mi) ((s.mach.opens mi.srcA.toNat (some (batchTag mi.tail.tok))).opensPath (batchTag mi.tail.tok)) mi.tail.tok
      (s.mach.ccyc s.now) 2 [] := by
  refine matWord_issues hp hr (exec_bopenS_op mi s) rfl ?_ ((Mach.modCore_sameIssuer ..).trans (Mach.opensPath_sameIssuer ..)) (Mach.fifos_modCore ..)
    (((s.mach.charge_puts 11 1).opens ..).opensPath ..) rfl
  simp only [hme, hfree, Bool.not_true, bne_self_eq_false, Bool.false_eq_true, if_false, if_true]
  refine (congrArg (a₂ := ((s.mach.charge 11).opens mi.srcA.toNat (some (batchTag mi.tail.tok))).opensPath (batchTag mi.tail.tok))
    (fun x : Mach => Eng.go x (x.ccyc s.now) 2) ?_).trans ?_
  · exact if_neg (ne_true_of_eq_false hopen)
  · exact congrArg (fun c => Eng.go _ c 2) (Mach.opensPath_ccyc ..)

end

/-! ### Batches closed (R235) -/

/-- A CBATCH or WBATCH that names no batch has no effect (log 108). -/
theorem closeBatch_unnamed {wait : Bool} {i : Instr} (hi : exec i s = closeBatch wait mi s) (hr : s.microReady mi.tail.tok true)
    (hb : s.mach.batchOf mi = none) : s.issues i s.mach mi.tail.tok (s.mach.ccyc s.now) 2 [] := by
  refine matWord_issues hp hr hi rfl ?_ (.refl _) rfl (s.mach.charge_puts 11 1) rfl
  simp only [(s.mach.charge_puts 11 1).batchOf mi, hb]

/-- The result by which a plain batch commits, where the batch that a CBATCH or WBATCH closes is one (R235). -/
def Mach.commits (m : Mach) (now b : Nat) (x : Batch) : Mach :=
  if x.tag.isNone then m.pushAt now (x.cc (m.ccyc now)) (.commit m.cs.sel.unit b true) else m

/-- The cycle in which a WBATCH of a batch closed in cycle `k` counts as issued (R235). -/
def Batch.endsAt (x : Batch) (k : Nat) : Nat := if x.waits then x.w k + 1 else x.cc k

/-- A CBATCH or WBATCH on an OPEN batch closes it: a plain one's commit is due at its cc, and a WBATCH counts as issued where the batch ends. -/
theorem closeBatch_opened {wait : Bool} {i : Instr} {b : Nat} {x : Batch} (hi : exec i s = closeBatch wait mi s)
    (hr : s.microReady mi.tail.tok true) (hb : s.mach.batchOf mi = some b)
    (hx : sget (s.mach.mcore s.mach.ccc s.mach.cs.sel.unit).batches b {} = x) (hopen : x.state = .opened) :
    let k := s.mach.ccyc s.now
    let ps := if x.tag.isNone then [s.resultAt 0 (x.cc k) 0 (.commit s.mach.cs.sel.unit b true)] else []
    if wait then s.issuesLate i (s.mach.closes b x k) mi.tail.tok (x.endsAt k) false (max k (x.endsAt k)) ps
    else s.issues i (s.mach.closes b x k) mi.tail.tok (max k (x.endsAt k)) 2 ps := by
  intro k ps
  have hch := (s.mach.charge_puts 11 1).closes b x k
  have hput : (s.mach.closes b x k).Puts (((s.mach.charge 11).closes b x k).commits s.now b x) ps ∧
      (((s.mach.charge 11).closes b x k).commits s.now b x).seq = (s.mach.closes b x k).seq + ps.length := by
    simp only [Mach.commits, ps]
    split
    · exact ⟨Mach.pushAt_puts hch .., rfl⟩
    · exact ⟨hch, rfl⟩
  obtain ⟨hput, hseq⟩ := hput
  obtain ⟨a, ha⟩ := (((s.mach.charge 11).closes b x k).commits s.now b x).leaseCheck_eq s.now
    (((s.mach.charge 11).closes b x k).commits s.now b x).cs.job (((s.mach.charge 11).closes b x k).commits s.now b x).clc s.mach.cs.sel.unit
  have hb' := ((s.mach.charge_puts 11 1).batchOf mi).trans hb
  have hx' : sget ((s.mach.charge 11).mcore (s.mach.charge 11).ccc s.mach.cs.sel.unit).batches b {} = x := by
    rw [(s.mach.charge_puts 11 1).mcore]; exact hx
  have hsame : s.mach.SameIssuer ((s.mach.closes b x k).withAgenda a) := ⟨rfl, rfl, rfl, rfl, rfl, rfl⟩
  have hf : (((s.mach.closes b x k).withAgenda a).cct s.mach.ccc).fifos = (s.mach.cct s.mach.ccc).fifos := Mach.fifos_modCore ..
  cases wait with
  | false =>
    refine State.issues.of_agenda (a := a) (matWord_issues hp hr hi rfl ?_ hsame hf (hput.withAgenda a) hseq)
    simp only [hb', hx', hopen]
    exact congrArg (fun n => Eng.go n (max k (x.endsAt k)) 2) ha
  | true =>
    refine State.issuesLate.of_agenda (a := a) (matWord_issuesLate hp hr hi rfl ?_ hsame hf (hput.withAgenda a) hseq rfl)
    simp only [hb', hx', hopen]
    exact congrArg (fun n => Eng.late n (x.endsAt k) (max k (x.endsAt k)) false) ha

/-- The same of a plain batch, whose commit falls due at its cc = max(W, K) + 1. -/
theorem closeBatch_plain {wait : Bool} {i : Instr} {b : Nat} {x : Batch} (hi : exec i s = closeBatch wait mi s)
    (hr : s.microReady mi.tail.tok true) (hb : s.mach.batchOf mi = some b)
    (hx : sget (s.mach.mcore s.mach.ccc s.mach.cs.sel.unit).batches b {} = x) (hopen : x.state = .opened) (htag : x.tag = none) :
    let k := s.mach.ccyc s.now
    let ps := [s.resultAt 0 (x.cc k) 0 (.commit s.mach.cs.sel.unit b true)]
    if wait then s.issuesLate i (s.mach.closes b x k) mi.tail.tok (x.cc k) false (x.cc k) ps
    else s.issues i (s.mach.closes b x k) mi.tail.tok (x.cc k) 2 ps := by
  intro k ps
  have h := closeBatch_opened hp hi hr hb hx hopen
  have hends : x.endsAt k = x.cc k := by simp [Batch.endsAt, Batch.waits, htag]
  have hmax : max k (x.cc k) = x.cc k := by rw [Batch.cc]; omega
  simpa only [k, ps, hends, hmax, htag, Option.isNone_none, if_true] using h

/-- The same of a batch under a tag that has not resolved, which waits for it. -/
theorem closeBatch_tagged {wait : Bool} {i : Instr} {b t : Nat} {x : Batch} (hi : exec i s = closeBatch wait mi s)
    (hr : s.microReady mi.tail.tok true) (hb : s.mach.batchOf mi = some b)
    (hx : sget (s.mach.mcore s.mach.ccc s.mach.cs.sel.unit).batches b {} = x) (hopen : x.state = .opened) (htag : x.tag = some t)
    (hres : x.resolved = false) :
    let k := s.mach.ccyc s.now
    if wait then s.issuesLate i (s.mach.closes b x k) mi.tail.tok (x.w k + 1) false (max k (x.w k + 1)) []
    else s.issues i (s.mach.closes b x k) mi.tail.tok (max k (x.w k + 1)) 2 [] := by
  intro k
  have h := closeBatch_opened hp hi hr hb hx hopen
  have hends : x.endsAt k = x.w k + 1 := by simp [Batch.endsAt, Batch.waits, htag, hres]
  simpa only [k, hends, htag, Option.isNone_some, Bool.false_eq_true, if_false] using h

end

/-! ### Tags resolved by COMMIT and DISCARD (R236) -/

/-- A tag's end put in flight on a cluster of the executing job. -/
def Mach.pushTag (m : Mach) (job c ord t : Nat) (keep : Bool) (lc : Nat) : Mach :=
  { m.newId.2 with pend := m.pend ++ [{ id := m.seq, job := job, lc := lc, cc := ccKey m.cj.cx lc, sid := m.cur, due := c + 39, ord := ord,
                                        iss := c, eff := .tag t keep }] }

/-- A tag's end sent to a cluster of the executing job. -/
def Mach.sendTag (now job t : Nat) (keep : Bool) (m : Mach) (lc : Nat) : Mach :=
  m.transfer now (m.routeCy (m.dieOf m.cur) (pcDie (m.pcOf m.cpart lc)) * m.periodOf m.cur) m.cur (pcDie (m.pcOf m.cpart lc)) .tagResolve
    [job, lc, t, b2n keep]

/-- The `n`-th result of a COMMIT or DISCARD of job cycle `c`, for a cluster of the job. -/
def State.tagEnd (s : State) (c ord t : Nat) (keep : Bool) (n lc : Nat) : Pend :=
  { s.resultAt n (c + 39) ord (.tag t keep) with lc := lc, cc := ccKey s.mach.cj.cx lc }

theorem Mach.Puts.pushTag {s : State} {n : Mach} {ps : List Pend} (h : s.mach.Puts n ps) (hs : n.seq = s.mach.seq + ps.length)
    (c ord t : Nat) (keep : Bool) (lc : Nat) (hc : c = s.mach.ccyc s.now := by rfl) :
    s.mach.Puts (n.pushTag s.mach.cs.job c ord t keep lc) (ps ++ [s.tagEnd c ord t keep ps.length lc]) ∧
      (n.pushTag s.mach.cs.job c ord t keep lc).seq = n.seq + 1 := by
  refine ⟨⟨?_, h.ccs, h.ctxs⟩, rfl⟩
  subst hc
  rw [Mach.pushTag, hs, h.sameIssuer.cx, h.sameIssuer.cur]
  conv => lhs; rw [h.rest]
  simp only [State.tagEnd, State.resultAt, ← hs, List.append_assoc]
  rfl

theorem Mach.Puts.sendTag {m n : Mach} {ps : List Pend} (h : m.Puts n ps) (now job t : Nat) (keep : Bool) (lc : Nat) :
    (m.sendTag now job t keep lc).Puts (n.sendTag now job t keep lc) ps ∧ (n.sendTag now job t keep lc).seq = n.seq := by
  refine ⟨⟨?_, h.ccs, h.ctxs⟩, rfl⟩
  conv => lhs; rw [h.rest]
  rfl

section
variable (now job t : Nat) (keep : Bool) (l : List Nat)

theorem Mach.Puts.sendTags {m n : Mach} {ps : List Pend} (h : m.Puts n ps) :
    (l.foldl (Mach.sendTag now job t keep) m).Puts (l.foldl (Mach.sendTag now job t keep) n) ps ∧
      (l.foldl (Mach.sendTag now job t keep) n).seq = n.seq := by
  induction l generalizing m n with
  | nil => exact ⟨h, rfl⟩
  | cons a l ih =>
    obtain ⟨hl, hs⟩ := ih (h.sendTag now job t keep a).1
    exact ⟨hl, hs⟩

/-- The broadcast changes nothing but the events to come and the order of what the stream sent. -/
theorem Mach.sendTags_rest (m : Mach) :
    let q := l.foldl (Mach.sendTag now job t keep) m
    q = { m with agenda := q.agenda, lanes := q.lanes, fresh := q.fresh } := by
  induction l generalizing m with
  | nil => rfl
  | cons a l ih =>
    rw [List.foldl_cons]
    intro q
    exact ih (m.sendTag now job t keep a)

theorem Mach.mem_agenda_sendTags (m : Mach) {x : Nat × Instr × List Nat} (h : x ∈ m.agenda) :
    x ∈ (l.foldl (Mach.sendTag now job t keep) m).agenda := by
  induction l generalizing m with
  | nil => exact h
  | cons a l ih => exact ih _ (mem_agendaAdd_of _ _ _ _ _ h)

/-- Each cluster is sent the tag's end. -/
theorem Mach.sendTags_sent (m : Mach) {lc : Nat} (h : lc ∈ l) :
    ∃ tick, (tick, .tagResolve, [job, lc, t, b2n keep]) ∈ (l.foldl (Mach.sendTag now job t keep) m).agenda := by
  induction l generalizing m with
  | nil => exact absurd h List.not_mem_nil
  | cons a l ih =>
    rcases List.mem_cons.1 h with rfl | h
    · exact ⟨_, Mach.mem_agenda_sendTags now job t keep l _ (mem_agendaAdd ..)⟩
    · exact ih _ h

end

section
variable {mi : Micro} {s : State} (hp : mi.plain = true) {i : Instr} {keep : Bool} (hi : exec i s = endTag keep mi s)
  (hr : s.microReady mi.tail.tok true)
include hp hi hr

/-- In fixed timing a tag ends on every cluster of the job 39 cycles later. -/
theorem endTag_fixed (hfix : s.mach.cj.fixed = true) :
    let c := s.mach.ccyc s.now
    let ord := if keep then 8 else 7
    s.issues i s.mach mi.tail.tok (c + 39) 2 ((s.mach.clustersOf s.mach.cs.job).mapIdx (s.tagEnd c ord mi.srcA.toNat keep)) := by
  intro c ord
  obtain ⟨hput, hseq⟩ := Mach.Puts.foldl_pend (f := fun n lc => n.pushTag s.mach.cs.job c ord mi.srcA.toNat keep lc)
    (p := s.tagEnd c ord mi.srcA.toNat keep) (fun _ _ lc h hs => Mach.Puts.pushTag h hs c ord mi.srcA.toNat keep lc)
    (s.mach.clustersOf s.mach.cs.job) (s.mach.charge_puts 11 1) rfl
  simp only [List.length_nil, Nat.zero_add, List.nil_append] at hput hseq
  refine matWord_issues hp hr hi rfl ?_ (.refl _) rfl hput (by rw [hseq, List.length_mapIdx])
  exact if_pos hfix

/-- In elastic timing a tag ends on its own cluster one cycle later, and where the broadcast arrives on the others. -/
theorem endTag_elastic (hfix : s.mach.cj.fixed = false) :
    let c := s.mach.ccyc s.now
    let ord := if keep then 8 else 7
    ∃ q : Mach, q = { s.mach with agenda := q.agenda, lanes := q.lanes, fresh := q.fresh } ∧
      s.issues i q mi.tail.tok (c + 1) 2 [s.resultAt 0 (c + 1) ord (.tag mi.srcA.toNat keep)] ∧
      ∀ lc, lc ∈ s.mach.clustersOf s.mach.cs.job → lc ≠ s.mach.clc →
        ∃ tick, (tick, .tagResolve, [s.mach.cs.job, lc, mi.srcA.toNat, b2n keep]) ∈ q.agenda := by
  intro c ord
  have hput := Mach.pushAt_puts (s.mach.charge_puts 11 1) s.now (c + 1) (.tag mi.srcA.toNat keep) ord none
  obtain ⟨hput, hseq⟩ := hput.sendTags s.now s.mach.cs.job mi.srcA.toNat keep ((s.mach.clustersOf s.mach.cs.job).filter (· != s.mach.clc))
  have hrest := Mach.sendTags_rest s.now s.mach.cs.job mi.srcA.toNat keep ((s.mach.clustersOf s.mach.cs.job).filter (· != s.mach.clc)) s.mach
  have hsent := fun lc => Mach.sendTags_sent (lc := lc) s.now s.mach.cs.job mi.srcA.toNat keep
    ((s.mach.clustersOf s.mach.cs.job).filter (· != s.mach.clc)) s.mach
  generalize hq : ((s.mach.clustersOf s.mach.cs.job).filter (· != s.mach.clc)).foldl (Mach.sendTag s.now s.mach.cs.job mi.srcA.toNat keep) s.mach = q at *
  have hsame : s.mach.SameIssuer q := by
    rw [hrest]
    exact ⟨rfl, rfl, rfl, rfl, rfl, rfl⟩
  have hf : (q.cct s.mach.ccc).fifos = (s.mach.cct s.mach.ccc).fifos := by
    rw [hrest]
    rfl
  have hqs : q.seq = s.mach.seq := by rw [hrest]
  refine ⟨q, hrest, matWord_issues hp hr hi rfl ?_ hsame hf hput ?_, fun lc hlc hne => hsent lc (List.mem_filter.2 ⟨hlc, by simpa using hne⟩)⟩
  · exact if_neg (ne_true_of_eq_false hfix)
  · rw [hseq, hqs]
    rfl

end

/-- Settles O33, word by word. -/
theorem matrixBatches : Obligations.MatrixBatches := by
  unfold Obligations.MatrixBatches
  intro mi s k core cc me tok opens hp
  refine ⟨fun hme hfree => ⟨bopen_issues hp hme hfree, fun hr => ⟨bopenS_issues hp hme hfree hr, bopenS_opensPath hp hme hfree hr⟩⟩,
    fun hr => ⟨fun hb => ⟨closeBatch_unnamed hp (exec_cbatch ..) hr hb, closeBatch_unnamed hp (exec_wbatch ..) hr hb⟩,
      fun b hb => ⟨fun hopen htag => ⟨closeBatch_plain (wait := false) hp (exec_cbatch ..) hr hb rfl hopen htag,
          closeBatch_plain (wait := true) hp (exec_wbatch ..) hr hb rfl hopen htag⟩,
        fun t hopen htag hres => ⟨closeBatch_tagged (wait := false) hp (exec_cbatch ..) hr hb rfl hopen htag hres,
          closeBatch_tagged (wait := true) hp (exec_wbatch ..) hr hb rfl hopen htag hres⟩⟩, fun keep => ?_⟩⟩
  have hi : exec (if keep then .commit mi else .discard mi) s = endTag keep mi s := by cases keep <;> rfl
  exact ⟨endTag_fixed hp hi hr, endTag_elastic hp hi hr⟩

end Sys2Proof.Machine

/-! PROOFS. The matrix step: what MMA and MMAS issue (R229 to R232, R248). -/

namespace Sys2Proof.Machine

/-! ### A core changed -/

/-- A core changed by what the change makes of it. -/
theorem Mach.modCore_congr {m : Mach} {cc core : Nat} {f g : MCore → MCore} (h : f (m.mcore cc core) = g (m.mcore cc core)) :
    m.modCore cc core f = m.modCore cc core g := by
  have hc : ({ m.cct cc with cores := smod (m.cct cc).cores core {} f } : Cctx) = { m.cct cc with cores := smod (m.cct cc).cores core {} g } :=
    congrArg (fun v => ({ m.cct cc with cores := sset (m.cct cc).cores core v } : Cctx)) h
  exact congrArg (m.setCct cc) hc

theorem Mach.modCct_modCct (m : Mach) (cc : Nat) (f g : Cctx → Cctx) : (m.modCct cc f).modCct cc g = m.modCct cc (g ∘ f) := by
  rw [Mach.modCct, Mach.cct_modCct, if_pos rfl]
  simp [Mach.modCct, Mach.setCct, sset_sset]

theorem Mach.modCore_modCore (m : Mach) (cc core : Nat) (f g : MCore → MCore) :
    (m.modCore cc core f).modCore cc core g = m.modCore cc core (g ∘ f) := by
  have hc : smod (smod (m.cct cc).cores core {} f) core {} g = smod (m.cct cc).cores core {} (g ∘ f) := by
    rw [smod, smod, sget_sset_same, sset_sset]
    rfl
  rw [Mach.modCore, Mach.modCore, Mach.modCct_modCct]
  exact congrArg (fun l => m.setCct cc { m.cct cc with cores := l }) hc

/-! ### The step that a micro-order names (R229, R230) -/

/-- Nothing of a step but its issue cycle depends on the time. -/
theorem Mach.stepOf_at (m : Mach) (mi : Micro) (t now : Nat) : m.stepOf mi t = (m.stepOf mi now).map (fun st => { st with p := m.ccyc t }) := by
  unfold Mach.stepOf
  extract_lets
  split
  · simp only [apply_ite (Option.map _), Option.map_some, Option.map_none]
  · rfl

theorem Mach.stepOf_isNone {m : Mach} {mi : Micro} {now : Nat} {st : MStep} (h : m.stepOf mi now = some st) (t : Nat) :
    (m.stepOf mi t).isNone = false := by
  rw [m.stepOf_at mi t now, h]
  rfl

/-- A step's P is its issue cycle. -/
theorem Mach.stepOf_p {m : Mach} {mi : Micro} {now : Nat} {st : MStep} (h : m.stepOf mi now = some st) : st.p = m.ccyc now := by
  have hp := m.stepOf_at mi now now
  rw [h] at hp
  exact congrArg MStep.p (Option.some.inj hp)

theorem Mach.arrayFree_of {m : Mach} {now : Nat} (h : ∀ a, (m.cct m.ccc).lastAccept = some a → a.1 + max a.2 14 ≤ m.ccyc now) :
    m.arrayFree now m.cur = true := by
  unfold Mach.arrayFree
  extract_lets st
  split
  next p n hl => exact decide_eq_true (h (p, n) hl)
  · rfl

/-- The FIFO that a step waits on: MMAS's own where it names none (R248). -/
def Mach.stepWait (gather : Bool) (mi : Micro) (m : Mach) : Option Nat :=
  match mi.tail.tok.wait with
  | some f => some f
  | none => if gather then some (fld m.mmode 31 5) else none

theorem Mach.stepWait_mma (mi : Micro) (m : Mach) : m.stepWait false mi = mi.tail.tok.wait := by
  unfold Mach.stepWait
  split
  · exact (by assumption : mi.tail.tok.wait = _).symm
  next h => rw [h]; rfl

theorem Mach.stepWait_mmas (mi : Micro) (m : Mach) : m.stepWait true mi = some (mi.tail.tok.wait.getD (fld m.mmode 31 5)) := by
  unfold Mach.stepWait
  split
  next h => rw [h]; rfl
  next h => rw [h]; rfl

theorem Mach.mcore_modCct (m : Mach) (cc core : Nat) (f : Cctx → Cctx) : (m.modCct cc f).mcore cc core = sget (f (m.cct cc)).cores core {} := by
  rw [Mach.mcore, Mach.cct_modCct, if_pos rfl]

/-! ### What a step leaves (R229 to R232) -/

/-- A core that has issued a step under its lease: the named batch owns the twin, written last in `w` (R221, R229). -/
def MCore.stepped (c : MCore) (st : MStep) (w : Nat) : MCore :=
  { c with
    lleft := c.lleft - 1
    batches := smod c.batches st.batch {} (fun b => { b with
      twins := if b.twins.contains st.acc then b.twins else b.twins ++ [st.acc]
      lastWrite := max b.lastWrite w
      hasStep := true }) }

/-- The landed tile that a step's B names is consumed (R248). -/
def MCore.consumed (c : MCore) (st : MStep) : MCore := { c with landed := c.landed.filter (fun y => y.1 != st.tb) }

/-- The array accepts a step of the executing stream, whose core changes with it (R231). -/
def Mach.steps (m : Mach) (st : MStep) (f : MCore → MCore) : Mach :=
  (m.modCct m.ccc (fun c => { c with lastAccept := some (st.p, st.m) })).modCore m.ccc m.cs.sel.unit f

/-- The credit of the landed tile that a step consumes, for the slot that it came from (R248). -/
def State.stepCredit (s : State) (st : MStep) : List Pend :=
  match (s.mach.mcore s.mach.ccc s.mach.cs.sel.unit).landed.find? (fun y => y.1 == st.tb) with
  | none => []
  | some y => [s.resultAt 1 (st.p + st.lat9 + 14) 0 (.landCredit y.2.1 y.2.2)]

/-- The machine that a step leaves, with its energy, its write and the credit of the tile it consumed. -/
def Mach.stepGoes (m : Mach) (now : Nat) (gather : Bool) (st : MStep) (w : Nat) : Mach :=
  let n := ((m.charge 9 st.m).steps st (·.stepped st w)).pushAt now w (.twin st) 1 none (m.cj.lateOf 10)
  if !gather then n else
    match (m.mcore m.ccc m.cs.sel.unit).landed.find? (fun y => y.1 == st.tb) with
    | none => n
    | some x => (n.modCore m.ccc m.cs.sel.unit (·.consumed st)).pushAt now (st.p + st.lat9 + 14) (.landCredit x.2.1 x.2.2)

theorem Mach.steps_sameIssuer (m : Mach) (st : MStep) (f : MCore → MCore) : m.SameIssuer (m.steps st f) := ⟨rfl, rfl, rfl, rfl, rfl, rfl⟩

theorem Mach.fifos_steps (m : Mach) (st : MStep) (k : Nat) (f : MCore → MCore) : ((m.steps st f).cct k).fifos = (m.cct k).fifos := by
  rw [Mach.steps, Mach.fifos_modCore, Mach.cct_modCct]
  split
  next h => rw [h]
  · rfl

theorem Mach.steps_congr {m : Mach} {st : MStep} {f g : MCore → MCore}
    (h : f (m.mcore m.ccc m.cs.sel.unit) = g (m.mcore m.ccc m.cs.sel.unit)) : m.steps st f = m.steps st g :=
  Mach.modCore_congr (by rw [Mach.mcore_modCct]; exact h)

theorem Mach.Puts.steps {m n : Mach} {ps : List Pend} (h : m.Puts n ps) (st : MStep) (f : MCore → MCore) :
    (m.steps st f).Puts (n.steps st f) ps := by
  rw [Mach.steps, Mach.steps, h.sameIssuer.ccc, h.sameIssuer.sel]
  exact (h.modCct m.ccc (g := fun c => { c with lastAccept := some (st.p, st.m) }) (fun _ => rfl)).modCore ..

/-- A step puts its write in flight, and the credit of the landed tile that it consumes. -/
theorem State.stepGoes_puts (s : State) (gather : Bool) (st : MStep) (w : Nat) :
    let q := s.mach.steps st (fun c => if gather then (c.stepped st w).consumed st else c.stepped st w)
    let ps := s.resultAt 0 w 1 (.twin st) (s.mach.cj.lateOf 10) :: if gather then s.stepCredit st else []
    q.Puts (s.mach.stepGoes s.now gather st w) ps ∧ (s.mach.stepGoes s.now gather st w).seq = q.seq + ps.length := by
  have hstep := Mach.pushAt_puts ((s.mach.charge_puts 9 st.m).steps st (·.stepped st w)) s.now w (.twin st) 1 none (s.mach.cj.lateOf 10)
  cases gather with
  | false => exact ⟨hstep, rfl⟩
  | true =>
    rw [Mach.stepGoes, State.stepCredit]
    cases hfind : (s.mach.mcore s.mach.ccc s.mach.cs.sel.unit).landed.find? (fun y => y.1 == st.tb) with
    | none =>
      have hall : (s.mach.mcore s.mach.ccc s.mach.cs.sel.unit).landed.filter (fun y => y.1 != st.tb) =
          (s.mach.mcore s.mach.ccc s.mach.cs.sel.unit).landed :=
        List.filter_eq_self.2 fun y hy => by simpa using List.find?_eq_none.1 hfind y hy
      rw [Mach.steps_congr (f := fun c => if true then (c.stepped st w).consumed st else c.stepped st w) (g := (·.stepped st w))]
      · exact ⟨hstep, rfl⟩
      · exact congrArg (fun l => { (s.mach.mcore s.mach.ccc s.mach.cs.sel.unit).stepped st w with landed := l }) hall
    | some x =>
      have hcredit := Mach.pushAt_puts (hstep.modCore s.mach.ccc s.mach.cs.sel.unit (·.consumed st)) s.now (st.p + st.lat9 + 14)
        (.landCredit x.2.1 x.2.2) 0 none
      rw [Mach.steps, Mach.modCore_modCore] at hcredit
      exact ⟨hcredit, rfl⟩

section
variable {mi : Micro} {gather : Bool} {s : State} {i : Instr} {st : MStep} (hi : exec i s = mmaOp gather mi s) (hp : mi.plain = true)
  (hst : s.mach.stepOf mi s.now = some st) (hb : s.mach.batchOf mi = some st.batch)
  (hme : (s.mach.mcore s.mach.ccc s.mach.cs.sel.unit).lheld = true) (hleft : (s.mach.mcore s.mach.ccc s.mach.cs.sel.unit).lleft ≠ 0)
  (hopen : (sget (s.mach.mcore s.mach.ccc s.mach.cs.sel.unit).batches st.batch {}).state = .opened)
  (hlease : (sget (s.mach.mcore s.mach.ccc s.mach.cs.sel.unit).batches st.batch {}).lease = (s.mach.mcore s.mach.ccc s.mach.cs.sel.unit).leaseNo)
  (hown : ∀ o, (s.mach.mcore s.mach.ccc s.mach.cs.sel.unit).owner st.acc = some o → o.1 = st.batch)
  (hfree : ∀ a, (s.mach.cct s.mach.ccc).lastAccept = some a → a.1 + max a.2 14 ≤ s.mach.ccyc s.now)
  (hgather : gather = true → (s.mach.part s.mach.cpart).lcount 3 ≠ 0 ∧ fld s.mach.mmode 22 2 = 0)
  (hr : s.microReady mi.tail.tok true (s.mach.stepWait gather mi))
include hi hp hst hb hme hleft hopen hlease hown hfree hgather hr

theorem mmaOp_issues {w : Nat} (hw : st.p + st.m + s.mach.cj.latOf 10 - 1 = w) :
    s.issues i (s.mach.steps st (fun c => if gather then (c.stepped st w).consumed st else c.stepped st w)) mi.tail.tok w 2
      (s.resultAt 0 w 1 (.twin st) (s.mach.cj.lateOf 10) :: if gather then s.stepCredit st else []) (s.mach.stepWait gather mi) := by
  have hbad : (if gather && (s.mach.part s.mach.cpart).lcount 3 == 0 then some FCode.unitAbsent
      else if !mi.plain then some .illegalField else none) = none := by
    rw [hp]
    cases hg : gather with
    | false => rfl
    | true => simp [(hgather hg).1]
  have hlate : (if (gather && fld s.mach.mmode 22 2 != 0) || (s.mach.stepOf mi 0).isNone then some FCode.illegalField else none) = none := by
    rw [Mach.stepOf_isNone hst]
    cases hg : gather with
    | false => rfl
    | true => simp [(hgather hg).2]
  have howner : ((s.mach.mcore s.mach.ccc s.mach.cs.sel.unit).owner st.acc).any (fun o => o.1 != st.batch) = false := by
    cases ho : (s.mach.mcore s.mach.ccc s.mach.cs.sel.unit).owner st.acc with
    | none => rfl
    | some o => simp [hown o ho]
  obtain ⟨hput, hseq⟩ := s.stepGoes_puts gather st w
  refine microWord_issues_same (w := Mach.stepWait gather mi) hr hi hbad hlate (Mach.steps_sameIssuer ..) (fun _ => Mach.fifos_steps ..) hput hseq
    (due := w) (ord := 2) ?_
  have hl0 : ((s.mach.mcore s.mach.ccc s.mach.cs.sel.unit).lleft == 0) = false := beq_eq_false_iff_ne.2 hleft
  simp only [hst, hb, hme, hl0, hw, hopen, hlease, howner, Mach.arrayFree_of hfree, Option.isSome_some, Bool.not_true, Bool.true_and, bne_self_eq_false,
    Bool.and_false, Bool.or_false, Bool.false_eq_true, if_false]
  rfl

end

/-- Settles O34. -/
theorem matrixSteps : Obligations.MatrixSteps := by
  unfold Obligations.MatrixSteps
  intro mi s st core cc me x tok w q wait twin credit hp hst hb hme hleft hopen hlease hown hfree
  have hw : st.p + st.m + s.mach.cj.latOf 10 - 1 = w := by rw [Mach.stepOf_p hst]
  have hq (gather : Bool) : s.mach.steps st (fun c => if gather then (c.stepped st w).consumed st else c.stepped st w) = q gather := by
    refine Mach.steps_congr (g := _) ?_
    cases gather <;> simp [MCore.stepped, MCore.consumed, smod, x, me, cc, core]
  refine ⟨fun hr => ?_, fun hr hlc hdb => ?_⟩
  · rw [← s.mach.stepWait_mma mi] at hr
    have h := mmaOp_issues (exec_mma ..) hp hst hb hme hleft hopen hlease hown hfree (fun h => absurd h (by decide)) hr hw
    rw [hq false, s.mach.stepWait_mma] at h
    exact h
  · rw [show wait = _ from (s.mach.stepWait_mmas mi).symm] at hr
    have h := mmaOp_issues (exec_mmas ..) hp hst hb hme hleft hopen hlease hown hfree (fun _ => ⟨hlc, hdb⟩) hr hw
    rw [hq true, s.mach.stepWait_mmas] at h
    exact h

end Sys2Proof.Machine

/-! PROOFS. Tile and accumulator transfers issue (R225 to R228, R240 to R242). -/

namespace Sys2Proof.Machine

/-! ### Rows put in flight one after another -/

/-- Rows put in flight one after another, each in its own cycle. -/
theorem Mach.Puts.rows {s : State} {f : Mach → Nat → Mach} {due : Nat → Nat} {e : Nat → Eff} {ord late : Nat}
    (hf : ∀ n ps r, s.mach.Puts n ps → f n r = n.pushAt s.now (due r) (e r) ord none late) (rows : Nat) {n : Mach} (h : s.mach.Puts n [])
    (hs : n.seq = s.mach.seq) :
    s.mach.Puts ((List.range rows).foldl f n) ((List.range rows).map (fun i => s.resultAt i (due i) ord (e i) late)) ∧
      ((List.range rows).foldl f n).seq = s.mach.seq + rows := by
  obtain ⟨hput, hseq⟩ := Mach.Puts.foldl_pend (m := s.mach) (p := fun n i => s.resultAt n (due i) ord (e i) late) (f := f)
    (fun n ps r hn hns => by
      have hp := Mach.pushAt_puts hn s.now (due r) (e r) ord none late
      rw [hf n ps r hn]
      rw [hns] at hp
      exact ⟨hp, rfl⟩) (List.range rows) h hs
  simp only [List.length_nil, Nat.zero_add, List.nil_append, List.length_range] at hput hseq
  have hidx : (List.range rows).mapIdx (fun n i => s.resultAt n (due i) ord (e i) late) =
      (List.range rows).map (fun i => s.resultAt i (due i) ord (e i) late) :=
    List.ext_getElem (by simp) fun i _ _ => by simp
  exact ⟨hidx ▸ hput, hseq⟩

/-- A load's late data changes nothing but the next free value. -/
theorem State.resultAt_loadLate (s : State) (m : Mach) (home n due ord : Nat) (e : Eff) (late : Nat) :
    (s.on (m.loadLate home).2).resultAt n due ord e late = (s.on m).resultAt n due ord e late := by
  unfold Mach.loadLate
  simp only
  split
  · rfl
  split
  · rfl
  · rfl

section
variable {m n : Mach} (h : m.KeepsIssuer n)
include h

theorem Mach.KeepsIssuer.ccc : n.ccc = m.ccc := by
  rw [Mach.ccc, Mach.ccc, h.cj, Mach.clc, Mach.clc, h.sel]

theorem Mach.KeepsIssuer.cct (cc : Nat) : n.cct cc = m.cct cc := Mach.cct_congr h.ccs cc

theorem Mach.KeepsIssuer.mbReg (j : Nat) : n.mbReg j = m.mbReg j := by
  rw [Mach.mbReg, Mach.mbReg, h.ccc, h.cct, h.sel]

theorem Mach.KeepsIssuer.mcore (cc core : Nat) : n.mcore cc core = m.mcore cc core := by
  rw [Mach.mcore, Mach.mcore, h.cct]

end

theorem Mach.Puts.pathOf {m n : Mach} {ps : List Pend} (h : m.Puts n ps) (tok : Tok) : n.pathOf tok = m.pathOf tok := by
  rw [h.rest]
  rfl

/-! ### Tiles -/

section
variable {mi : Micro} {s : State} {m m' : Mach} {p : Pg} {es : List ElemAt} {cfg : Nat} (hp : mi.plain = true)
  (hpage : s.mach.eaPage (memEa (s.mach.mbReg mi.memBase) mi) = .ok (m, p))
  (hcfg : (s.mach.cct s.mach.ccc).tcfg s.mach.cs.sel.unit (mi.dest.toNat % 16) = some cfg)
  (halign : eaAligned p (memEa (s.mach.mbReg mi.memBase) mi) true = true)
include hp hpage hcfg halign

theorem tst_issues (hr : s.microReady mi.tail.tok true)
    (hel : m.elems (memEa (s.mach.mbReg mi.memBase) mi) p.fmt 8 { wr := true } (fun q => q.fmt == tcFmt cfg)
      (fun o q => o.geom == q.geom && o.midr == q.midr) [] none (tileEls cfg (bitOf mi.srcA.toNat 4) (s.mach.mbReg (mi.srcA.toNat % 16)).toNat) =
        .ok (m', es))
    (hdraft : mi.tail.tok.pe = true → draftOnly es = true) :
    let c := s.mach.ccyc s.now
    let k := rowCyc (rowBytes (tcFmt cfg) (tcCols cfg))
    s.issues (.tst mi) m' mi.tail.tok (c + (tcRows cfg - 1) * k) 3 ((List.range (tcRows cfg)).map (fun i => (s.on m').resultAt i (c + i * k - 1) 9
      (.tst s.mach.cs.sel.unit (mi.dest.toNat % 16) cfg i (s.mach.pathOf mi.tail.tok)
        (((es.drop (i * tcCols cfg)).take (tcCols cfg)).map (fun x => (x.places, x.bit)))))) := by
  intro c k
  have hkm := (Mach.xlat_walked hpage).keepsIssuer
  have hk := hkm.trans (Mach.elems_walked hel).keepsIssuer
  have htc : s.mach.tcfgOf mi.dest = some cfg := hcfg
  have hpath : (mi.tail.tok.pe && !draftOnly es) = false := by
    cases hpe : mi.tail.tok.pe with
    | false => rfl
    | true => simp [hdraft hpe]
  obtain ⟨hput, hseq⟩ := Mach.Puts.rows (s := s.on m') (due := fun r => c + r * k - 1) (ord := 9) (late := 0)
    (e := fun r => .tst s.mach.cs.sel.unit (mi.dest.toNat % 16) cfg r (s.mach.pathOf mi.tail.tok)
        (((es.drop (r * tcCols cfg)).take (tcCols cfg)).map (fun x => (x.places, x.bit))))
    (f := fun n r => n.pushAt s.now (c + r * k - 1) (.tst n.cs.sel.unit (mi.dest.toNat % 16) cfg r (n.pathOf mi.tail.tok)
        (((es.drop (r * tcCols cfg)).take (tcCols cfg)).map (fun x => (x.places, x.bit)))) 9)
    (fun n ps r hn => by
      rw [hn.sameIssuer.sel, hn.pathOf]
      rw [show (s.on m').mach.cs.sel = s.mach.cs.sel from hk.sel, show (s.on m').mach.pathOf mi.tail.tok = _ from hk.pathOf _]
      rfl) (tcRows cfg) (m'.charge_puts 10 (tcRows cfg)) rfl
  refine matWord_issues hp hr (exec_tst ..) (by rw [htc]; rfl) ?_ hk.same (congrArg Cctx.fifos (hk.cct _)) hput
    (hseq.trans (by rw [List.length_map, List.length_range]; rfl))
  simp only [hpage, halign, htc, Option.getD_some, hkm.mbReg, hel, hpath, hk.ccyc, Bool.not_true, Bool.false_eq_true, if_false]
  rfl

/-- The scales that a tile load keeps: the first of each group, along the group (R226, R227). -/
def tileScales (m : Mach) (geom cols : Nat) (tr : Bool) (es : List ElemAt) : SMap Nat :=
  if geom = 0 then [] else es.foldl (fun a x =>
    if tr then (if x.i / cols % groupOf geom = 0 then sset a (x.i / cols / groupOf geom * 1024 + x.i % cols) (m.elemScale x) else a)
    else if x.i % cols % groupOf geom = 0 then sset a (x.i / cols * 1024 + x.i % cols / groupOf geom) (m.elemScale x) else a) []

theorem tld_issues (hr : s.microReady mi.tail.tok false)
    (hgeom : p.geom ≠ 0 → elemIndex p.fmt p.off 0 % groupOf p.geom = 0 ∧
      (if (s.mach.mbReg (mi.srcA.toNat % 16)).toNat = 0 then (if bitOf mi.srcA.toNat 4 then tcRows cfg else tcCols cfg)
        else (s.mach.mbReg (mi.srcA.toNat % 16)).toNat) % groupOf p.geom = 0 ∧
      (if bitOf mi.srcA.toNat 4 then tcRows cfg else tcCols cfg) % groupOf p.geom = 0)
    (hel : m.elems (memEa (s.mach.mbReg mi.memBase) mi) p.fmt (tilePlanes (tcFmt cfg)) { rd := true } (fun q => tilePair q.fmt (tcFmt cfg))
      (fun o q => o.geom == q.geom && o.midr == q.midr) [] none (tileEls cfg (bitOf mi.srcA.toNat 4) (s.mach.mbReg (mi.srcA.toNat % 16)).toNat) =
        .ok (m', es))
    (hst : m'.elemsUnstarted es = none) :
    let core := s.mach.cs.sel.unit
    let j := mi.dest.toNat % 16
    let rb := rowBytes (tcFmt cfg) (tcCols cfg)
    let due := m'.loadDue s.now (p.home 0)
    let late := (m'.loadLate (p.home 0)).1
    let last := due + (tcRows cfg - 1) * rowCyc rb
    s.issues (.tld mi) (m'.loadLate (p.home 0)).2 mi.tail.tok last 2
      ((List.range (tcRows cfg)).map (fun i => (s.on m').resultAt i (due + i * rowCyc rb) 0 (.tileRow core j cfg (i * rb)
        (tileRow (tcFmt cfg) (tcCols cfg) (((es.map (m'.elemRaw p.fmt)).drop (i * tcCols cfg)).take (tcCols cfg)))) late) ++
      [(s.on m').resultAt (tcRows cfg) last 1 (.tileAttr core j (if p.geom = 0 then 0 else p.geom + if bitOf mi.srcA.toNat 4 then 4 else 0) p.midr
        (tileScales m' p.geom (tcCols cfg) (bitOf mi.srcA.toNat 4) es)) late]) := by
  intro core j rb due late last
  have hk := ((Mach.xlat_walked hpage).keepsIssuer.trans (Mach.elems_walked hel).keepsIssuer).trans (Mach.loadLate_keepsIssuer m' (p.home 0))
  have htc : s.mach.tcfgOf mi.dest = some cfg := hcfg
  obtain ⟨hput, hseq⟩ := Mach.Puts.rows (s := s.on (m'.loadLate (p.home 0)).2) (due := fun r => due + r * rowCyc rb) (ord := 0) (late := late)
    (e := fun r => .tileRow core j cfg (r * rb)
      (tileRow (tcFmt cfg) (tcCols cfg) (((es.map (m'.elemRaw p.fmt)).drop (r * tcCols cfg)).take (tcCols cfg))))
    (fun n ps r hn => rfl) (tcRows cfg) ((m'.loadLate (p.home 0)).2.charge_puts 10 (tcRows cfg)) rfl
  have hput' := Mach.pushAt_puts hput s.now last (.tileAttr core j (if p.geom = 0 then 0 else p.geom + if bitOf mi.srcA.toNat 4 then 4 else 0) p.midr
        (tileScales m' p.geom (tcCols cfg) (bitOf mi.srcA.toNat 4) es)) 1 none late
  rw [hseq] at hput'
  simp only [← State.resultAt_loadLate s m' (p.home 0)]
  refine matWord_issues hp hr (exec_tld ..) (by rw [htc]; rfl) ?_ hk.same (congrArg Cctx.fifos (hk.cct _)) hput' ?_
  · have hg : (p.geom != 0 && (elemIndex p.fmt p.off 0 % groupOf p.geom != 0 ||
      (if (s.mach.mbReg (mi.srcA.toNat % 16)).toNat = 0 then (if bitOf mi.srcA.toNat 4 then tcRows cfg else tcCols cfg)
        else (s.mach.mbReg (mi.srcA.toNat % 16)).toNat) % groupOf p.geom != 0 ||
      (if bitOf mi.srcA.toNat 4 then tcRows cfg else tcCols cfg) % groupOf p.geom != 0)) = false := by
      by_cases h0 : p.geom = 0
      · simp [h0]
      · obtain ⟨he, hpit, hdim⟩ := hgeom h0
        simp [he, hdim, hpit]
    simp only [hpage, halign, htc, Option.getD_some, beq_iff_eq, hg, hel, hst, Mach.loadLate_charge, Bool.not_true, Bool.false_eq_true, if_false, List.map_take,
      List.map_drop, List.map_map]
    rfl
  · show _ + 1 = _
    rw [hseq, List.length_append, List.length_map, List.length_range]
    rfl

end

/-! ### Accumulators -/

/-- The executing stream's sticky status stands where it stood (R190). -/
theorem Mach.Walked.astatKey {m n : Mach} {ad : Byte} (h : m.Walked n m.cur ad) : n.cs.astatKey n.cur = m.cs.astatKey m.cur := by
  rw [Mach.cs, h.cur, h.own]
  rfl

/-- The accumulator that an ACCRD reads: the twin of the batch under its tag, where there is one (R241). -/
def Mach.accSource (m : Mach) (mi : Micro) : Wide :=
  let k := m.cs.sel.unit * 4 + mi.dest.toNat % 4
  if mi.tail.tok.pe && ((m.mcore m.ccc m.cs.sel.unit).owner (mi.dest.toNat % 4)).any (fun o => o.2.tag == some mi.tail.tok.ptag.toNat) then
    sget (m.cct m.ccc).twin k [] else sget (m.cct m.ccc).acc k []

/-- How an ACCRD rounds an element: with the bits of a tile, or as its code says (R241). -/
def Mach.accRnd (m : Mach) (mi : Micro) (x : ElemAt) : Rnd :=
  let c := m.cct m.ccc
  let rt := fld m.mmode 27 4
  let bits := (c.tile m.cs.sel.unit rt ((c.tcfg m.cs.sel.unit rt).getD 0)).bytes
  if mi.tail.rnd = 5 then .sr ([8, 12, 16].getD (fld m.mmode 25 2) 8) (wbyte bits (2 * x.i) + 256 * wbyte bits (2 * x.i + 1))
  else Rnd.ofCode mi.tail.rnd.toNat

/-- The value of an element that an ACCRD stores, and its flags (R241). -/
def Mach.accValue (m : Mach) (mi : Micro) (x : ElemAt) : Nat × Nat :=
  let b := lane (m.accSource mi) 32 (x.i / m.accCols * 512 + x.i % m.accCols)
  if mi.tail.type.toNat = 8 then (b, 0) else (ETy.of 8).conv (ETy.of mi.tail.type.toNat) (m.accRnd mi x) b

section
variable {mi : Micro} {s : State} {m m' : Mach} {p : Pg} {es : List ElemAt}
  (hpage : s.mach.eaPage (memEa (s.mach.mbReg mi.memBase) mi) = .ok (m, p)) (hmask : mi.tail.mask = 0)
include hpage hmask

theorem accrd_issues (hr : s.microReady mi.tail.tok true) (hty : mi.tail.type.toNat ≤ 8 ∨ (10 ≤ mi.tail.type.toNat ∧ mi.tail.type.toNat ≤ 17))
    (hrnd : mi.tail.rnd.toNat ≤ 5)
    (hsr : mi.tail.rnd = 5 → ∃ x, (s.mach.cct s.mach.ccc).tcfg s.mach.cs.sel.unit (fld s.mach.mmode 27 4) = some x ∧
      2 * s.mach.accRows * s.mach.accCols ≤ tcRows x * rowBytes (tcFmt x) (tcCols x))
    (halign : eaAligned p (memEa (s.mach.mbReg mi.memBase) mi) false = true)
    (hel : m.elems (memEa (s.mach.mbReg mi.memBase) mi) p.fmt 8 { wr := true } (fun q => storePair q.fmt mi.tail.type.toNat && q.geom == 0)
      (fun _ _ => true) [] none (accEls s.mach.accRows s.mach.accCols (s.mach.mbReg (mi.srcA.toNat % 16)).toNat) = .ok (m', es))
    (hdraft : mi.tail.tok.pe = true → draftOnly es = true) :
    let c := s.mach.ccyc s.now
    let due := c + s.mach.cj.latOf 11 - 1
    let fl := es.foldl (fun a x => a ||| (s.mach.accValue mi x).2) 0
    let ents := es.foldl (fun a x => x.store p.fmt ((s.mach.accValue mi x).1 % 2 ^ (ETy.of mi.tail.type.toNat).valBits) c
      (s.mach.pathOf mi.tail.tok) a) []
    s.issues (.accrd mi) m' mi.tail.tok due 3 ((s.on m').resultAt 0 (due - 1) 9 (.enter (sortEntries ents)) (s.mach.cj.lateOf 11) ::
      if fl = 0 then [] else [(s.on m').resultAt 1 due 1 (.flags (s.mach.cs.astatKey s.mach.cur) fl) (s.mach.cj.lateOf 11)]) := by
  intro c due fl ents
  have hwm := Mach.xlat_walked hpage
  have hwe := Mach.elems_walked hel
  have hkm := hwm.keepsIssuer
  have hk := hkm.trans hwe.keepsIssuer
  have hstat : m'.cs.astatKey m'.cur = s.mach.cs.astatKey s.mach.cur := hwe.astatKey.trans hwm.astatKey
  have hpath : (mi.tail.tok.pe && !draftOnly es) = false := by
    cases hpe : mi.tail.tok.pe with
    | false => rfl
    | true => simp [hdraft hpe]
  have hbad : (if (mi.tail.type.toNat ≤ 8 || (10 ≤ mi.tail.type.toNat && mi.tail.type.toNat ≤ 17)) && mi.tail.rnd.toNat ≤ 5 && mi.tail.mask == 0 then
      none else some FCode.illegalField) = none := if_pos (by simpa [hrnd, hmask] using hty)
  have hlate : (if (!(mi.tail.rnd == 5) || (match (s.mach.cct s.mach.ccc).tcfg s.mach.cs.sel.unit (fld s.mach.mmode 27 4) with
      | some x => decide (2 * s.mach.accRows * s.mach.accCols ≤ tcRows x * rowBytes (tcFmt x) (tcCols x))
      | none => false)) = true then none else some FCode.illegalField) = none := by
    refine if_pos ?_
    by_cases h5 : mi.tail.rnd = 5
    · obtain ⟨x, hx, hle⟩ := hsr h5
      simp [hx, hle]
    · rw [beq_eq_false_iff_ne.2 h5]
      rfl
  have hent := Mach.pushAt_puts (m'.charge_puts 10 s.mach.accRows) s.now (due - 1) (.enter (sortEntries ents)) 9 none (s.mach.cj.lateOf 11)
  have hput : m'.Puts (if fl = 0 then (m'.charge 10 s.mach.accRows).pushAt s.now (due - 1) (.enter (sortEntries ents)) 9 none (s.mach.cj.lateOf 11)
      else ((m'.charge 10 s.mach.accRows).pushAt s.now (due - 1) (.enter (sortEntries ents)) 9 none (s.mach.cj.lateOf 11)).pushAt s.now due
        (.flags (s.mach.cs.astatKey s.mach.cur) fl) 1 none (s.mach.cj.lateOf 11))
      ((s.on m').resultAt 0 (due - 1) 9 (.enter (sortEntries ents)) (s.mach.cj.lateOf 11) ::
        if fl = 0 then [] else [(s.on m').resultAt 1 due 1 (.flags (s.mach.cs.astatKey s.mach.cur) fl) (s.mach.cj.lateOf 11)]) := by
    split
    · exact hent
    · exact Mach.pushAt_puts hent s.now due (.flags (s.mach.cs.astatKey s.mach.cur) fl) 1 none (s.mach.cj.lateOf 11)
  refine microWord_issues_same (w := fun _ => mi.tail.tok.wait) hr (exec_accrd ..) hbad hlate hk.same (fun _ => congrArg Cctx.fifos (hk.cct _)) hput
    ?_ ?_
  · split <;> rfl
  · have hcj (now d o l : Nat) (e : Eff) (sp : Option Nat) : ((m'.charge 10 s.mach.accRows).pushAt now d e o sp l).cj = s.mach.cj := hk.cj
    have hkey (now d o l : Nat) (e : Eff) (sp : Option Nat) : ((m'.charge 10 s.mach.accRows).pushAt now d e o sp l).cs.astatKey
      ((m'.charge 10 s.mach.accRows).pushAt now d e o sp l).cur = s.mach.cs.astatKey s.mach.cur := hstat
    simp only [hpage, halign, hkm.mbReg, hcj, hkey, hel, hpath, hk.ccc, hk.cct, hk.mcore, hk.ccyc, hk.cj, hk.pathOf, List.foldl_map, beq_iff_eq,
      Bool.not_true, Bool.false_eq_true, if_false]
    rfl

theorem accrdIn_issues (hr : s.microReady mi.tail.tok false) (hty : mi.tail.type.toNat = 8) (hrnd : mi.tail.rnd = 0)
    (halign : eaAligned p (memEa (s.mach.mbReg mi.memBase) mi) true = true)
    (hel : m.elems (memEa (s.mach.mbReg mi.memBase) mi) p.fmt 8 { rd := true } (fun q => loadPair q.fmt q.geom 8 && ownType q.fmt 8 && q.geom == 0)
      (fun _ _ => true) [] none (accEls s.mach.accRows s.mach.accCols (s.mach.mbReg (mi.srcA.toNat % 16)).toNat) = .ok (m', es))
    (hst : m'.elemsUnstarted es = none) (hown : (s.mach.mcore s.mach.ccc s.mach.cs.sel.unit).owner (mi.dest.toNat % 4) = none) :
    let due := m'.loadDue s.now (p.home 0)
    let k := rowCyc (4 * s.mach.accCols)
    s.issues (.accrdIn mi) (m'.loadLate (p.home 0)).2 mi.tail.tok (due + (s.mach.accRows - 1) * k) 2
      ((List.range s.mach.accRows).map (fun j => (s.on m').resultAt j (due + j * k) 0 (.accRow s.mach.cs.sel.unit (mi.dest.toNat % 4) j
        (((es.map (m'.elemRaw p.fmt)).drop (j * s.mach.accCols)).take s.mach.accCols)) (m'.loadLate (p.home 0)).1)) := by
  intro due k
  have hkm := (Mach.xlat_walked hpage).keepsIssuer
  have hk' := hkm.trans (Mach.elems_walked hel).keepsIssuer
  have hk := hk'.trans (Mach.loadLate_keepsIssuer m' (p.home 0))
  have hbad : (if mi.tail.type == 8 && mi.tail.rnd == 0 && mi.tail.mask == 0 then none else some FCode.illegalField) = none := by
    have ht : mi.tail.type = 8 := BitVec.eq_of_toNat_eq hty
    rw [ht, hrnd, hmask]
    rfl
  obtain ⟨hput, hseq⟩ := Mach.Puts.rows (s := s.on (m'.loadLate (p.home 0)).2) (due := fun r => due + r * k) (ord := 0)
    (late := (m'.loadLate (p.home 0)).1) (e := fun r => .accRow s.mach.cs.sel.unit (mi.dest.toNat % 4) r
      (((es.map (m'.elemRaw p.fmt)).drop (r * s.mach.accCols)).take s.mach.accCols))
    (fun n ps r hn => rfl) s.mach.accRows ((m'.loadLate (p.home 0)).2.charge_puts 10 s.mach.accRows) rfl
  simp only [← State.resultAt_loadLate s m' (p.home 0)]
  refine microWord_issues_same (w := fun _ => mi.tail.tok.wait) hr (exec_accrdIn ..) hbad rfl hk.same (fun _ => congrArg Cctx.fifos (hk.cct _)) hput
    (hseq.trans (by rw [List.length_map, List.length_range]; rfl)) ?_
  simp only [hpage, halign, hkm.mbReg, hel, hst, hk'.ccc, hk'.mcore, hown, Mach.loadLate_charge, Option.isSome_none, Bool.not_true, Bool.false_eq_true,
    if_false]
  rfl

end

end Sys2Proof.Machine

/-! PROOFS. Events of the matrix core: leases end and are granted, held steps issue, steps are written, batches end and rows are written
(R220, R221, R228, R231 to R233). -/

namespace Sys2Proof.Machine

/-! ### A core read after a change -/

theorem Mach.mcore_modCore_same (m : Mach) (cc core : Nat) (f : MCore → MCore) : (m.modCore cc core f).mcore cc core = f (m.mcore cc core) := by
  rw [Mach.modCore, Mach.mcore_modCct]
  exact sget_sset_same ..

theorem Mach.cct_modCore_ne (m : Mach) {cc c : Nat} (core : Nat) (f : MCore → MCore) (h : c ≠ cc) : (m.modCore cc core f).cct c = m.cct c := by
  rw [Mach.modCore, Mach.cct_modCct, if_neg h]

/-! ### A held word completes (R108) -/

/-- The end of a held word leaves the registers of every context. -/
theorem Mach.complete_ccs (m : Mach) (now sid : Nat) : (m.complete now sid).ccs = m.ccs := by
  have hsig (n : Mach) (sg : Option (Nat × Option Nat)) : (n.signalNow now sid sg).ccs = n.ccs := by
    cases sg <;> rfl
  have hret (n : Mach) : (n.retire now).ccs = n.ccs := by
    rw [Mach.retire]
    split
    · obtain ⟨p, e, hw, -, -, he⟩ := n.advance_spec now n.cur none false
      rw [he]
      exact hw.ccs
    · rfl
  rw [Mach.complete]
  exact (hret _).trans (hsig _ _)

/-! ### Leases end and are granted (R220, R221) -/

section
variable {s : State} {cc core : Nat}

/-- The core whose lease has ended (R221). -/
def MCore.unleased (c : MCore) : MCore := { c with lheld := false, lleft := 0, released := false }

/-- A lease that is over ends, and the other core's request, or one of its own, is looked at (R221). -/
theorem leaseEnd_eq {no : Nat} (hev : s.mach.ev = [cc, core, no]) (hover : (s.mach.mcore cc core).leaseOver = true)
    (hno : (s.mach.mcore cc core).leaseNo = no) : ∃ a, exec .leaseEnd s = .next (s.on ((s.mach.modCore cc core MCore.unleased).withAgenda a)) := by
  have harg : s.mach.arg 0 = cc ∧ s.mach.arg 1 = core ∧ s.mach.arg 2 = no := by simp [Mach.arg, hev]
  obtain ⟨h0, h1, h2⟩ := harg
  rw [exec_leaseEnd, execLeaseEnd, onMach]
  simp only [h0, h1, h2, hover, hno, Bool.not_true, bne_self_eq_false, Bool.or_false, Bool.false_eq_true, if_false]
  split
  · exact ⟨_, rfl⟩
  split
  · exact ⟨_, rfl⟩
  · exact ⟨s.mach.agenda, rfl⟩

theorem leaseEnd_ends {no : Nat} (hev : s.mach.ev = [cc, core, no]) (hover : (s.mach.mcore cc core).leaseOver = true)
    (hno : (s.mach.mcore cc core).leaseNo = no) :
    ∃ t, exec .leaseEnd s = .next t ∧ (t.mach.mcore cc core).lheld = false ∧ (t.mach.mcore cc core).lleft = 0 ∧
      ∀ c, c ≠ cc → t.mach.cct c = s.mach.cct c := by
  obtain ⟨a, ha⟩ := leaseEnd_eq hev hover hno
  have hcore := s.mach.mcore_modCore_same cc core MCore.unleased
  exact ⟨_, ha, congrArg MCore.lheld hcore, congrArg MCore.lleft hcore, fun c hc => s.mach.cct_modCore_ne core _ hc⟩

/-- A waiting LEASE is granted where no core holds the array, and issues (R220). -/
theorem leaseGrant_grants {n : Nat} (hev : s.mach.ev = [cc, core]) (hreq : (s.mach.mcore cc core).req = some n)
    (hme : (s.mach.mcore cc core).lheld = false) (hother : (s.mach.mcore cc (1 - core)).lheld = false) :
    ∃ t, exec .leaseGrant s = .next t ∧ (t.mach.mcore cc core).lheld = true ∧ (t.mach.mcore cc core).lleft = n ∧
      (t.mach.mcore cc core).req = none := by
  have harg : s.mach.arg 0 = cc ∧ s.mach.arg 1 = core := by simp [Mach.arg, hev]
  obtain ⟨h0, h1⟩ := harg
  have hccs : ∃ t, exec .leaseGrant s = .next t ∧ t.mach.ccs = (s.mach.grant cc core (s.mach.pcOf (cxPart (ccCx cc)) (ccLc cc)) n).ccs := by
    rw [exec_leaseGrant, execLeaseGrant, onMach]
    simp only [h0, h1, hreq, hme, hother, Bool.or_self, Bool.false_eq_true, if_false]
    refine ⟨_, rfl, ?_⟩
    dsimp only
    split
    · exact Mach.complete_ccs ..
    · rfl
  obtain ⟨t, ht, hccs⟩ := hccs
  have hcore := s.mach.mcore_modCore_same cc core (fun k => { k with lheld := true, lleft := n, leaseNo := k.leaseNo + 1, req := none, released := false })
  have hmc : t.mach.mcore cc core = _ := (congrArg (fun c : Cctx => sget c.cores core {}) (Mach.cct_congr hccs cc)).trans hcore
  exact ⟨t, ht, congrArg MCore.lheld hmc, congrArg MCore.lleft hmc, congrArg MCore.req hmc⟩

end

/-! ### A held step issues (R231) -/

/-- A held step of a stream that is not frozen issues as the micro-order at its STEP does, once the array is free. -/
theorem mmaStepAccept_issues {s : State} {sid n : Nat} {mi : Micro} {i : Instr} (hi : i = .mma mi ∨ i = .mmas mi) (hev : s.mach.ev = [sid])
    (hhold : (s.mach.str sid).hold = .step) (hrun : (s.mach.str sid).state ≠ .frozen) (hfree : s.mach.arrayFree s.now sid = true)
    (hpeek : ({ s.mach with cur := sid, curLen := s.mach.wordLen sid } : Mach).peek sid (s.mach.str sid).step = some (i, n)) :
    ∃ t, exec i (s.on { s.mach with cur := sid, curLen := s.mach.wordLen sid }) = .next t ∧ exec .mmaStepAccept s = .next t := by
  have h0 : s.mach.arg 0 = sid := by simp [Mach.arg, hev]
  obtain ⟨t, ht⟩ : ∃ t, exec i (s.on { s.mach with cur := sid, curLen := s.mach.wordLen sid }) = .next t := by
    obtain ⟨m, hm⟩ := exec_answers i (s.on { s.mach with cur := sid, curLen := s.mach.wordLen sid })
    exact ⟨_, hm⟩
  refine ⟨t, ht, ?_⟩
  have hno : ((s.mach.str sid).hold != .step || (s.mach.str sid).state == .frozen || !s.mach.arrayFree s.now sid) = false := by
    simp [hhold, hrun, hfree]
  rw [exec_mmaStepAccept, execMmaStepAccept, ← ht, h0]
  refine (if_neg (ne_true_of_eq_false hno)).trans ?_
  split
  next mi' _ h =>
    have hsame : i = .mma mi' := congrArg Prod.fst (Option.some.inj (hpeek.symm.trans h))
    rw [hsame]
    rfl
  next mi' _ h =>
    have hsame : i = .mmas mi' := congrArg Prod.fst (Option.some.inj (hpeek.symm.trans h))
    rw [hsame]
    rfl
  next hmma hmmas =>
    rcases hi with rfl | rfl
    · exact absurd hpeek (hmma mi n)
    · exact absurd hpeek (hmmas mi n)

/-! ### A result taken out to be written (R105, R107) -/

/-- The machine but for the parity of its registers (R80). -/
def Mach.Mended (m n : Mach) : Prop := n = { m with spoiled := n.spoiled }

theorem Mach.Mended.refl (m : Mach) : m.Mended m := rfl

theorem Mach.mend_mended (m : Mach) (l : Loc) (f : Nat → Bool) : m.Mended (m.mend l f) := rfl

theorem Mach.Mended.trans {m n p : Mach} (h : m.Mended n) (k : n.Mended p) : m.Mended p := by
  rw [Mach.Mended] at h k ⊢
  rw [k, h]

theorem Mach.mended_foldl {α : Type} {f : Mach → α → Mach} (hf : ∀ (m : Mach) a, m.Mended (f m a)) (l : List α) (m : Mach) :
    m.Mended (l.foldl f m) := by
  induction l generalizing m with
  | nil => exact .refl m
  | cons a l ih => exact (hf m a).trans (ih _)

/-- Fresh parity is all that a result's registers gain before it is written (R80). -/
theorem Mach.mendPend_mended (m : Mach) (p : Pend) : m.Mended (m.mendPend p) := by
  unfold Mach.mendPend
  split
  · exact .refl m
  dsimp only
  split
  · refine Mach.Mended.trans ?_ (Mach.mend_mended ..)
    exact Mach.mended_foldl (fun _ _ => Mach.mend_mended ..) _ m
  · rfl
  · rfl
  · rfl
  · rfl
  · rfl
  next keep _ => exact Mach.mended_foldl (fun _ _ => by cases keep <;> rfl) _ m
  · exact Mach.mended_foldl (fun _ _ => Mach.mend_mended ..) _ m

/-- A result found is taken out, and nothing else stands otherwise but parity. -/
theorem Mach.takePend_found {m : Mach} {id : Nat} {p : Pend} (h : m.pend.find? (fun q => q.id == id) = some p) :
    ∃ n, m.takePend id = some (n, p) ∧ n = { m with pend := n.pend, spoiled := n.spoiled } := by
  refine ⟨_, by rw [Mach.takePend, h]; rfl, ?_⟩
  have hm := Mach.mendPend_mended { m with pend := m.pend.filter (fun q => q.id != id) } p
  rw [Mach.Mended] at hm
  rw [hm]

/-! ### Steps written, batches ended (R231 to R233) -/

/-- One twin of a batch committed or given back (R233). -/
def Cctx.endTwin (core : Nat) (keep : Bool) (c : Cctx) (i : Nat) : Cctx :=
  if keep then { c with acc := sset c.acc (core * 4 + i) (sget c.twin (core * 4 + i) []) }
  else { c with twin := sset c.twin (core * 4 + i) (sget c.acc (core * 4 + i) []) }

/-- Committed twins are the accumulators', and stand. -/
theorem Cctx.endTwins_keep (core k : Nat) (l : List Nat) (c : Cctx) :
    sget (l.foldl (Cctx.endTwin core true) c).acc k [] = (if ∃ a ∈ l, k = core * 4 + a then sget c.twin k [] else sget c.acc k []) ∧
      (l.foldl (Cctx.endTwin core true) c).twin = c.twin := by
  induction l generalizing c with
  | nil => simp
  | cons i l ih =>
    obtain ⟨hacc, htwin⟩ := ih (Cctx.endTwin core true c i)
    refine ⟨?_, htwin⟩
    rw [List.foldl_cons, hacc]
    by_cases hl : ∃ a ∈ l, k = core * 4 + a
    · obtain ⟨a, ha, hk⟩ := hl
      rw [if_pos ⟨a, ha, hk⟩, if_pos ⟨a, List.mem_cons_of_mem i ha, hk⟩]
      rfl
    · rw [if_neg hl]
      show sget (sset c.acc (core * 4 + i) _) k [] = _
      rw [sget_sset]
      by_cases hi : k = core * 4 + i
      · rw [if_pos hi, if_pos ⟨i, List.mem_cons_self, hi⟩, hi]
      · rw [if_neg hi, if_neg]
        rintro ⟨a, ha, hk⟩
        rcases List.mem_cons.1 ha with rfl | ha
        · exact hi hk
        · exact hl ⟨a, ha, hk⟩

/-- The accumulators and the twins of a context change places. -/
def Cctx.swapAcc (c : Cctx) : Cctx := { c with acc := c.twin, twin := c.acc }

/-- A twin given back is a twin committed with accumulators and twins exchanged. -/
theorem Cctx.endTwins_swap (core : Nat) (l : List Nat) (c : Cctx) :
    l.foldl (Cctx.endTwin core false) c = (l.foldl (Cctx.endTwin core true) c.swapAcc).swapAcc := by
  induction l generalizing c with
  | nil => rfl
  | cons i l ih => exact ih _

/-- A batch that ends commits its twins or gives them back (R233). -/
theorem Cctx.endBatch_accs (c : Cctx) (core b : Nat) (keep : Bool) (k : Nat) :
    let own := (sget (sget c.cores core {}).batches b {}).twins
    sget (c.endBatch core b keep).acc k [] = (if keep = true ∧ (∃ a ∈ own, k = core * 4 + a) then sget c.twin k [] else sget c.acc k []) ∧
      sget (c.endBatch core b keep).twin k [] = (if keep = false ∧ (∃ a ∈ own, k = core * 4 + a) then sget c.acc k [] else sget c.twin k []) := by
  intro own
  cases keep with
  | true =>
    obtain ⟨hacc, htwin⟩ := Cctx.endTwins_keep core k own c
    simp only [true_and, Bool.true_eq_false, false_and, if_false]
    exact ⟨hacc, congrArg (sget · k []) htwin⟩
  | false =>
    obtain ⟨htwin, hacc⟩ := Cctx.endTwins_keep core k own c.swapAcc
    have hswap := Cctx.endTwins_swap core own c
    simp only [true_and, Bool.false_eq_true, false_and, if_false]
    exact ⟨(congrArg (fun x : Cctx => sget x.acc k []) hswap).trans (congrArg (sget · k []) hacc),
      (congrArg (fun x : Cctx => sget x.twin k []) hswap).trans htwin⟩

theorem Cctx.setFlags_accs (c : Cctx) (k f : Nat) : (c.setFlags k f).acc = c.acc ∧ (c.setFlags k f).twin = c.twin := by
  rw [Cctx.setFlags]
  split <;> exact ⟨rfl, rfl⟩

section
variable {s : State} {p : Pend} (hp : s.mach.pend.find? (fun q => q.id == s.mach.arg 0) = some p)
include hp

/-- A step whose checksums hold replaces its twin (R231, R232). -/
theorem mmaStepWrite_writes {st : MStep} (he : p.eff = .twin st) (hok : st.checks = true) :
    let c := s.mach.cct p.cc
    let k := st.core * 4 + st.acc
    ∃ t, exec .mmaStepWrite s = .next t ∧ t.now = s.now ∧ (t.mach.cct p.cc).acc = c.acc ∧
      (t.mach.cct p.cc).twin = sset c.twin k (st.out (sget c.twin k [])).1 := by
  intro c k
  obtain ⟨n, htake, hn⟩ := Mach.takePend_found hp
  have hc : n.cct p.cc = c := by rw [hn]; rfl
  rw [exec_mmaStepWrite, execMmaStepWrite, onMach]
  simp only [htake, he, hok, if_true]
  refine ⟨_, rfl, rfl, ?_⟩
  dsimp only
  rw [Mach.cct_modCct, if_pos rfl, hc]
  obtain ⟨hacc, htwin⟩ := Cctx.setFlags_accs { c with twin := sset c.twin k (st.out (sget c.twin k [])).1 } (0x78 + st.core) (st.out (sget c.twin k [])).2
  exact ⟨hacc, htwin⟩

/-- A batch due to end ends (R233, R235). -/
theorem batchCommit_ends {core b : Nat} {keep : Bool} (he : p.eff = .commit core b keep) :
    ∃ t, exec .batchCommit s = .next t ∧ t.now = s.now ∧ t.mach.cct p.cc = (s.mach.cct p.cc).endBatch core b keep := by
  obtain ⟨n, htake, hn⟩ := Mach.takePend_found hp
  have hc : n.cct p.cc = s.mach.cct p.cc := by rw [hn]; rfl
  rw [exec_batchCommit, execBatchCommit, onMach]
  simp only [htake, he]
  refine ⟨_, rfl, rfl, ?_⟩
  dsimp only
  rw [Mach.cct_modCct, if_pos rfl, hc]

end

end Sys2Proof.Machine

/-! PROOFS. Bytes and lanes of wide registers, and the rows of tile and accumulator loads (R183, R228, R242). -/

namespace Sys2Proof.Machine

/-! ### One digit of a number replaced -/

/-- A number with its digit `k` in base `b` replaced, as its low digits, the new one and its high digits. -/
theorem setDigit_eq (b k x v : Nat) : x - x / b ^ k % b * b ^ k + v * b ^ k = x % b ^ k + b ^ k * (v + b * (x / b ^ (k + 1))) := by
  have hx : x = x % b ^ k + b ^ k * (x / b ^ k) := (Nat.mod_add_div ..).symm
  have hd : x / b ^ k = x / b ^ k % b + b * (x / b ^ (k + 1)) := by
    rw [Nat.pow_succ, ← Nat.div_div_eq_div_mul]
    exact (Nat.mod_add_div ..).symm
  have hsub : x = x / b ^ k % b * b ^ k + (x % b ^ k + b ^ k * (b * (x / b ^ (k + 1)))) := by
    conv_lhs => rw [hx, hd]
    ring
  have hle : x - x / b ^ k % b * b ^ k = x % b ^ k + b ^ k * (b * (x / b ^ (k + 1))) :=
    Nat.sub_eq_of_eq_add' hsub
  rw [hle]
  ring

section
variable {b : Nat} (hb : 0 < b) (k x v : Nat) (hv : v < b)
include hb hv

theorem setDigit_same : (x - x / b ^ k % b * b ^ k + v * b ^ k) / b ^ k % b = v := by
  rw [setDigit_eq, Nat.add_mul_div_left _ _ (Nat.pow_pos hb), Nat.div_eq_of_lt (Nat.mod_lt _ (Nat.pow_pos hb)), Nat.zero_add,
    Nat.add_mul_mod_self_left, Nat.mod_eq_of_lt hv]

/-- The digits above a replaced one. -/
theorem setDigit_high : (x - x / b ^ k % b * b ^ k + v * b ^ k) / b ^ (k + 1) = x / b ^ (k + 1) := by
  rw [setDigit_eq, Nat.pow_succ, ← Nat.div_div_eq_div_mul, Nat.add_mul_div_left _ _ (Nat.pow_pos hb),
    Nat.div_eq_of_lt (Nat.mod_lt _ (Nat.pow_pos hb)), Nat.zero_add, Nat.add_mul_div_left _ _ hb, Nat.div_eq_of_lt hv, Nat.zero_add]

theorem setDigit_ne {j : Nat} (h : j ≠ k) : (x - x / b ^ k % b * b ^ k + v * b ^ k) / b ^ j % b = x / b ^ j % b := by
  rcases Nat.lt_or_gt_of_ne h with hlt | hgt
  · have hdvd : b ^ (j + 1) ∣ b ^ k := Nat.pow_dvd_pow b hlt
    have hmod (y : Nat) : y / b ^ j % b = y % b ^ (j + 1) / b ^ j := by rw [Nat.pow_succ, Nat.mod_mul_right_div_self]
    rw [hmod, hmod x, setDigit_eq]
    congr 1
    rw [Nat.add_mod, Nat.mod_mod_of_dvd _ hdvd, Nat.mod_eq_zero_of_dvd (hdvd.mul_right _), Nat.add_zero, Nat.mod_mod]
  · obtain ⟨d, rfl⟩ := Nat.exists_eq_add_of_lt hgt
    rw [show k + d + 1 = k + 1 + d by omega, Nat.pow_add, ← Nat.div_div_eq_div_mul, ← Nat.div_div_eq_div_mul, setDigit_high hb _ _ _ hv]

theorem setDigit_lt {n : Nat} (hk : k < n) (hx : x < b ^ n) : x - x / b ^ k % b * b ^ k + v * b ^ k < b ^ n := by
  have hn : b ^ n = b ^ (n - (k + 1)) * b ^ (k + 1) := by rw [← Nat.pow_add]; congr 1; omega
  have hpos : 0 < b ^ (k + 1) := Nat.pow_pos hb
  rw [hn] at hx ⊢
  rw [← Nat.div_lt_iff_lt_mul hpos, setDigit_high hb _ _ _ hv, Nat.div_lt_iff_lt_mul hpos]
  exact hx

end

/-! ### Wide registers -/

theorem wget_wset (w : Wide) (i j : Nat) (v : Word) : wget (wset w i v) j = if j = i then v else wget w j := by
  rw [wset]
  split
  next h =>
    rw [beq_iff_eq] at h
    rw [wget, sget, sget?_sdel, h]
    split
    · rfl
    · rfl
  · exact sget_sset ..

section
variable (w : Wide) {n : Nat} (d : Nat) (i : Nat) {v : Nat} (hv : v < 2 ^ n)

/-- A field of a register set: field `i` of those of `n` bits, of which `d` stand in a chunk of 64 bits. -/
def wfield (w : Wide) (n d i v : Nat) : Wide :=
  wset w (i / d) (wd ((wget w (i / d)).toNat - (wget w (i / d)).toNat / (2 ^ n) ^ (i % d) % 2 ^ n * (2 ^ n) ^ (i % d) + v * (2 ^ n) ^ (i % d)))

include hv in
theorem wfield_read (hd : n * d = 64) (j : Nat) :
    (wget (wfield w n d i v) (j / d)).toNat / (2 ^ n) ^ (j % d) % 2 ^ n =
      if j = i then v else (wget w (j / d)).toNat / (2 ^ n) ^ (j % d) % 2 ^ n := by
  have hdpos : 0 < d := by
    rcases Nat.eq_zero_or_pos d with h | h
    · rw [h] at hd; omega
    · exact h
  have hb : 0 < 2 ^ n := Nat.two_pow_pos n
  have h64 : (2 ^ n) ^ d = 2 ^ 64 := by rw [← Nat.pow_mul, hd]
  have hlt := setDigit_lt hb (i % d) (wget w (i / d)).toNat v hv (Nat.mod_lt _ hdpos) (h64 ▸ (wget w (i / d)).isLt)
  rw [wfield, wget_wset]
  by_cases hq : j / d = i / d
  · rw [h64] at hlt
    rw [if_pos hq, wd, BitVec.toNat_ofNat, Nat.mod_eq_of_lt hlt]
    by_cases hr : j % d = i % d
    · have hji : j = i := by rw [← Nat.div_add_mod j d, hq, hr, Nat.div_add_mod]
      rw [if_pos hji, hr, setDigit_same hb _ _ _ hv]
    · rw [if_neg (fun h => hr (by rw [h])), setDigit_ne hb _ _ _ hv hr, hq]
  · rw [if_neg hq, if_neg (fun h => hq (by rw [h]))]

end

/-- A lane of 32 bits set. -/
theorem lane_wlane32 (w : Wide) (i j v : Nat) : lane (wlane32 w i v) 32 j = if j = i then v % 2 ^ 32 else lane w 32 j := by
  have hl (r : Wide) (k : Nat) : lane r 32 k = (wget r (k / 2)).toNat / (2 ^ 32) ^ (k % 2) % 2 ^ 32 := by
    rw [lane, fld, ← Nat.pow_mul, show k * 32 / 64 = k / 2 by omega, show k * 32 % 64 = 32 * (k % 2) by omega]
  have hw : wlane32 w i v = wfield w 32 2 i (v % 2 ^ 32) := by
    simp only [wlane32, wfield, ← Nat.pow_mul]
  rw [hl, hl, hw]
  exact wfield_read w 2 i (Nat.mod_lt _ (by decide)) rfl j

/-- A byte set, of those written at an offset. -/
theorem wbyte_wfield (w : Wide) (i j : Nat) (b : Byte) : wbyte (wfield w 8 8 i b.toNat) j = if j = i then b.toNat else wbyte w j := by
  have hb (r : Wide) (k : Nat) : wbyte r k = (wget r (k / 8)).toNat / (2 ^ 8) ^ (k % 8) % 2 ^ 8 := by
    rw [wbyte, fld, ← Nat.pow_mul]
  rw [hb, hb]
  exact wfield_read w 8 i b.isLt rfl j

/-- Bytes written at an offset stand there, and the others as they stood. -/
theorem wbyte_wputs (w : Wide) (off : Nat) (bs : List Byte) (i : Nat) :
    wbyte (wputs w off bs) i = if off ≤ i ∧ i < off + bs.length then (bs.getD (i - off) 0).toNat else wbyte w i := by
  induction bs generalizing w off with
  | nil => rw [if_neg (by simp), wputs]
  | cons b bs ih =>
    have hput : wputs w off (b :: bs) = wputs (wfield w 8 8 off b.toNat) (off + 1) bs := by
      simp only [wputs, wfield, ← Nat.pow_mul]
      rfl
    rw [hput, ih, wbyte_wfield, List.length_cons]
    by_cases h0 : i = off
    · subst h0
      rw [if_neg (by omega), if_pos rfl, if_pos (by omega), Nat.sub_self]
      rfl
    · rw [if_neg h0]
      by_cases hin : off + 1 ≤ i ∧ i < off + 1 + bs.length
      · rw [if_pos hin, if_pos (by omega), show i - off = i - (off + 1) + 1 by omega]
        rfl
      · rw [if_neg hin, if_neg (by omega)]

/-- Values written into lanes of 32 bits one after another, each counted. -/
def wlanes32 (w : Wide × Nat) (at' : Nat) (vs : List Nat) : Wide × Nat :=
  vs.foldl (fun a v => (wlane32 a.1 (at' + a.2) v, a.2 + 1)) w

theorem lane_wlanes32 (w : Wide) (n at' : Nat) (vs : List Nat) (j : Nat) :
    lane (wlanes32 (w, n) at' vs).1 32 j =
      if at' + n ≤ j ∧ j < at' + n + vs.length then vs.getD (j - (at' + n)) 0 % 2 ^ 32 else lane w 32 j := by
  induction vs generalizing w n with
  | nil => rw [if_neg (by simp)]; rfl
  | cons v vs ih =>
    rw [wlanes32, List.foldl_cons, ← wlanes32, ih, lane_wlane32, List.length_cons]
    by_cases h0 : j = at' + n
    · subst h0
      rw [if_neg (by omega), if_pos rfl, if_pos (by omega), Nat.sub_self]
      rfl
    · rw [if_neg h0]
      by_cases hin : at' + (n + 1) ≤ j ∧ j < at' + (n + 1) + vs.length
      · rw [if_pos hin, if_pos (by omega), show j - (at' + n) = j - (at' + (n + 1)) + 1 by omega]
        rfl
      · rw [if_neg hin, if_neg (by omega)]

/-! ### Rows written (R228, R242) -/

theorem Mach.cct_refreshSteps (m : Mach) (cc core w k : Nat) : (m.refreshSteps cc core w).cct k = m.cct k := rfl

theorem Mach.cct_tileWriteAs (m : Mach) (cc core j cfg w : Nat) (f : Tile → Tile) :
    (m.tileWriteAs cc core j cfg w f).cct cc = (m.cct cc).setTile core j cfg (f ((m.cct cc).tile core j cfg)) := by
  rw [Mach.tileWriteAs, Mach.cct_refreshSteps, Mach.cct_modCct, if_pos rfl]

section
variable {s : State} {p : Pend} (hp : s.mach.pend.find? (fun q => q.id == s.mach.arg 0) = some p)
include hp

/-- A row of an accumulator load is written. -/
theorem tldRowWrite_accRow {core a row : Nat} {vs : List Nat} (he : p.eff = .accRow core a row vs) :
    ∃ t, exec .tldRowWrite s = .next t ∧ t.now = s.now ∧
      ∀ i, i < vs.length → lane (sget (t.mach.cct p.cc).acc (core * 4 + a) []) 32 (row * 512 + i) = vs.getD i 0 % 2 ^ 32 := by
  obtain ⟨n, htake, hn⟩ := Mach.takePend_found hp
  rw [exec_tldRowWrite, execTldRowWrite, onMach]
  simp only [htake, Mach.matrixEff, he]
  refine ⟨_, rfl, rfl, fun i hi => ?_⟩
  dsimp only
  rw [Mach.cct_modCct, if_pos rfl]
  show lane (sget (sset _ (core * 4 + a) (wlanes32 (sget (n.cct p.cc).acc (core * 4 + a) [], 0) (row * 512) vs).1) (core * 4 + a) []) 32 _ = _
  rw [sget_sset_same, lane_wlanes32, if_pos (by omega), Nat.add_zero, Nat.add_sub_cancel_left]

/-- A row of a tile load is written into an unpaired tile. -/
theorem tldRowWrite_tileRow {core j cfg off : Nat} {bs : List Byte} (he : p.eff = .tileRow core j cfg off bs) (hpair : tcPair cfg = false) :
    ∃ t, exec .tldRowWrite s = .next t ∧ t.now = s.now ∧
      ∀ i, wbyte (sget (t.mach.cct p.cc).tiles (core * 16 + j) {}).bytes i =
        if off ≤ i ∧ i < off + bs.length then (bs.getD (i - off) 0).toNat
        else wbyte (sget (s.mach.cct p.cc).tiles (core * 16 + j) {}).bytes i := by
  obtain ⟨n, htake, hn⟩ := Mach.takePend_found hp
  have hc : n.cct p.cc = s.mach.cct p.cc := by rw [hn]; rfl
  rw [exec_tldRowWrite, execTldRowWrite, onMach]
  simp only [htake, Mach.matrixEff, he]
  refine ⟨_, rfl, rfl, fun i => ?_⟩
  dsimp only
  rw [Mach.cct_tileWriteAs, hc, Cctx.setTile, hpair]
  simp only [Bool.false_eq_true, if_false, sget_sset_same, wbyte_wputs, Cctx.tile, hpair]

end

end Sys2Proof.Machine

/-! PROOFS. A tag resolved is closed: no exception and no deferred fault opens it again (R236, R398 to R403). -/

namespace Sys2Proof.Machine

/-- No job's predicted paths change. -/
def Mach.SameTags (m n : Mach) : Prop := ∀ j, (n.job j).tags = (m.job j).tags

theorem Mach.SameTags.refl (m : Mach) : m.SameTags m := fun _ => rfl

section
variable {m n p : Mach}

theorem Mach.SameTags.trans (h : m.SameTags n) (k : n.SameTags p) : m.SameTags p := fun j => (k j).trans (h j)

theorem Mach.SameTags.of_jobs (h : n.jobs = m.jobs) : m.SameTags n := fun j => congrArg Job.tags (Mach.job_congr h j)

theorem Mach.SameTags.modJob (h : m.SameTags n) (job : Nat) {f : Job → Job} (hf : ∀ j, (f j).tags = j.tags) : m.SameTags (n.modJob job f) := by
  intro j
  rw [Mach.job_modJob]
  split
  next hj => rw [hf, hj]; exact h _
  · exact h j

end

theorem Mach.sameTags_foldl {α : Type} {f : Mach → α → Mach} (hf : ∀ (m : Mach) a, m.SameTags (f m a)) (l : List α) (m : Mach) :
    m.SameTags (l.foldl f m) := by
  induction l generalizing m with
  | nil => exact .refl m
  | cons a l ih => exact (hf m a).trans (ih _)

theorem Mach.modStreams_sameTags (m : Mach) (ids : List Nat) (f : Stream → Stream) : m.SameTags (m.modStreams ids f) :=
  Mach.sameTags_foldl (f := fun m i => m.modStr i f) (fun _ _ => .of_jobs rfl) ids m

theorem Mach.after_sameTags (m : Mach) (now b : Nat) (e : Instr) (a : List Nat) : m.SameTags (m.after now b e a) := .of_jobs rfl

theorem Mach.eccLog_sameTags (m : Mach) (sid home : Nat) : m.SameTags (m.eccLog sid home) := by
  refine .of_jobs ?_
  unfold Mach.eccLog
  cases homeLc home <;> rfl

theorem Mach.advance_jobs (m : Mach) (now sid : Nat) (r : Option Nat) (an : Bool) : (m.advance now sid r an).jobs = m.jobs := by
  obtain ⟨p, e, hw, -, -, he⟩ := m.advance_spec now sid r an
  rw [he]
  exact hw.jobs

theorem Mach.retire_jobs (m : Mach) (now : Nat) : (m.retire now).jobs = m.jobs := by
  rw [Mach.retire]
  split
  · exact Mach.advance_jobs ..
  · rfl

/-! ### The freeze (R398 to R402) -/

theorem Mach.abandon_sameTags (m : Mach) (now sid : Nat) : m.SameTags (m.abandon now sid) := by
  refine .of_jobs ?_
  unfold Mach.abandon
  split
  · exact m.advance_jobs now sid none false
  · rfl
  · rfl
  · rfl
  · exact Mach.retire_jobs ..
  · dsimp only
    split
    · exact Mach.retire_jobs ..
    · rfl
  all_goals rfl

theorem Mach.freezeCluster_sameTags (m : Mach) (now job lc h : Nat) : m.SameTags (m.freezeCluster now job lc h) := by
  unfold Mach.freezeCluster
  extract_lets m1 cyc ids m2 m3 ents
  have h1 : m.SameTags m1 := (SameTags.refl m).modJob job fun _ => rfl
  have h2 : m1.SameTags m2 := Mach.sameTags_foldl (fun n i => n.abandon_sameTags now i) ids m1
  have h3 : m2.SameTags m3 := m2.modStreams_sameTags _ _
  exact ((h1.trans h2).trans h3).trans (.of_jobs rfl)

theorem Mach.standUnprimed_sameTags (m : Mach) (job : Nat) : m.SameTags (m.standUnprimed job) := by
  refine Mach.sameTags_foldl (fun n sh => ?_) _ m
  split
  · exact .refl n
  · exact .of_jobs rfl

theorem Mach.fullEdge_jobs (m : Mach) (part : Nat) : (m.fullEdge part).jobs = m.jobs := by
  unfold Mach.fullEdge
  extract_lets p n
  split
  · rfl
  split
  · rw [Mach.msix]
    split <;> rfl
  · rfl

theorem Mach.postEvent_jobs (m : Mach) (now part die : Nat) (e : Event) : (m.postEvent now part die e).jobs = m.jobs := by
  unfold Mach.postEvent
  extract_lets
  split
  · exact Mach.fullEdge_jobs ..
  split <;> rfl

theorem Mach.frozenWhole_sameTags (m : Mach) (now job h : Nat) : m.SameTags (m.frozenWhole now job h) := by
  refine .of_jobs ?_
  unfold Mach.frozenWhole
  extract_lets r ps m1 j part m2 m3 m4
  have h2 : m2.jobs = m.jobs := by
    show (m1.tryReconfig now part).jobs = _
    rw [Mach.tryReconfig]
    split <;> rfl
  have h3 : m3.jobs = m.jobs := (Mach.postEvent_jobs ..).trans h2
  have h4 : m4.jobs = m.jobs := by
    show (if _ then _ else _ : Mach).jobs = _
    split <;> exact h3
  split
  · exact h3
  · exact h4

/-- An exception taken leaves every predicted path as it stands (R398). -/
theorem Mach.takeFreeze_sameTags (m : Mach) (now sid : Nat) (f : Flt) : m.SameTags (m.takeFreeze now sid f) := by
  unfold Mach.takeFreeze
  extract_lets m1 st job j lc ms part handle nest early
  have h1 : m.SameTags m1 := by
    show m.SameTags (if _ then _ else _)
    split
    · exact .refl m
    · exact m.eccLog_sameTags sid _
  refine h1.trans ?_
  split
  · exact .of_jobs rfl
  split
  next h _ =>
    split
    · exact .refl m1
    extract_lets m2
    have h2 : m1.SameTags m2 :=
      (SameTags.of_jobs (n := m1.modStr sid (fun s => { s with scode := f.code.num })) rfl).trans (Mach.freezeCluster_sameTags _ now job lc h)
    split
    · exact h2.trans (m2.frozenWhole_sameTags now job h)
    · exact h2
  · split
    next n m3 hdraw =>
    have h3 : m3.jobs = m1.jobs := by
      rw [show m3 = m1.draw.2 from (congrArg Prod.snd hdraw).symm]
      rfl
    extract_lets dk w cyc old r m4 m5 m6 sv m7 m8 m9 rest
    have h5 : m1.SameTags m5 := (SameTags.of_jobs (n := m4) h3).modJob job fun _ => rfl
    have h6 : m1.SameTags m6 := by
      refine h5.trans ?_
      show m5.SameTags (if _ then _ else _)
      split
      · exact m5.standUnprimed_sameTags job
      · exact .refl m5
    split
    · exact SameTags.trans (n := m8.modJob job (fun j => { j with window := true }))
        ((h6.trans (SameTags.of_jobs (n := m8) rfl)).modJob job fun _ => rfl) (.of_jobs rfl)
    have h9 : m1.SameTags m9 := h6.trans (m6.freezeCluster_sameTags now job lc handle)
    split
    · exact h9.trans (m9.frozenWhole_sameTags now job handle)
    · exact h9.trans (Mach.sameTags_foldl (fun n c => n.after_sameTags now 0 .freezeBroadcastArrival [job, c]) rest m9)

/-! ### A tag resolved (R236) -/

/-- A job's predicted path closed on a cluster, and its saved values gone with its last (R236). -/
def Job.closeTag (lc t : Nat) (j : Job) : Job :=
  let g := sdel j.tags (tagKey lc t)
  let j := { j with tags := g }
  if j.tagAny t then j else { j with tags := sdel g t }

theorem Job.closeTag_tagOpen (lc t : Nat) (j : Job) : (j.closeTag lc t).tagOpen lc t = false := by
  have hdel : sget? (sdel j.tags (tagKey lc t)) (tagKey lc t) = none := by rw [sget?_sdel, if_pos rfl]
  have hdel2 : sget? (sdel (sdel j.tags (tagKey lc t)) t) (tagKey lc t) = none := by
    rw [sget?_sdel, hdel]
    split <;> rfl
  unfold Job.closeTag Job.tagOpen
  extract_lets g j'
  split
  · show (Option.getD (sget? g (tagKey lc t)) {}).opened = false
    rw [hdel]
    rfl
  · show (Option.getD (sget? (sdel g t) (tagKey lc t)) {}).opened = false
    rw [hdel2]
    rfl

/-- A tag resolved on a cluster is open there no more. -/
theorem Mach.resolveTag_closes (m : Mach) (now job lc t : Nat) (keep : Bool) (e : Nat) :
    ((m.resolveTag now job lc t keep e).job job).tagOpen lc t = false := by
  unfold Mach.resolveTag
  extract_lets j cc ids m1 mine untag ent held mh mc m2 m3 open' m4
  split
  next h => exact eq_false_of_ne_true (by simpa using h)
  have hclosed : (m3.job job).tagOpen lc t = false := by
    show ((m2.modJob job (Job.closeTag lc t)).job job).tagOpen lc t = false
    rw [Mach.job_modJob, if_pos rfl]
    exact Job.closeTag_tagOpen ..
  have htags : m3.SameTags m4 := m3.modStreams_sameTags ids _
  refine Eq.trans (congrArg (fun g : SMap Tag => (sget g (tagKey lc t) {}).opened) ((htags.trans ?_) job)) hclosed
  refine Mach.sameTags_foldl ?_ ids m4
  intro n i
  split
  next f u _ =>
    split
    · exact .refl n
    split
    · exact (SameTags.of_jobs (n := n.modStr i (fun s => { s with hold := .none })) rfl).trans (Mach.takeFreeze_sameTags _ now i f)
    · exact .of_jobs rfl
  · exact .refl n

/-- A tag due to end on a cluster is closed there. -/
theorem tagResolve_closes {s : State} {p : Pend} (hp : s.mach.pend.find? (fun q => q.id == s.mach.arg 0) = some p) {tg : Nat} {keep : Bool}
    (he : p.eff = .tag tg keep) (hev : s.mach.ev.length = 1) :
    ∃ t, exec .tagResolve s = .next t ∧ t.now = s.now ∧ (t.mach.job p.job).tagOpen p.lc tg = false := by
  obtain ⟨n, htake, -⟩ := Mach.takePend_found hp
  rw [exec_tagResolve, execTagResolve, onMach]
  simp only [hev, beq_self_eq_true, if_true, htake, he]
  exact ⟨_, rfl, rfl, Mach.resolveTag_closes ..⟩

end Sys2Proof.Machine

/-! PROOFS. Transfers, leases, twins, commits and discards of the matrix core (O35). -/

namespace Sys2Proof.Machine

/-- Settles O35: the four transfers word by word, then the events one by one. -/
theorem matrixTransfers : Obligations.MatrixTransfers := by
  unfold Obligations.MatrixTransfers
  refine ⟨?_, fun s => ⟨fun cc core no => leaseEnd_ends, fun cc core n => leaseGrant_grants, fun sid mi n i => mmaStepAccept_issues, ?_⟩⟩
  · intro mi s m m' p es core tok c ea pitch tr late q r hpage
    refine ⟨?_, ?_⟩
    · intro cfg hp hcfg ha
      exact ⟨fun hr hgeom hel hst => tld_issues hp hpage hcfg ha hr hgeom hel hst, fun hr hel hdraft => tst_issues hp hpage hcfg ha hr hel hdraft⟩
    · intro rs cs i me ty
      exact ⟨fun hr hty hrnd hmask hsr halign hel hdraft => accrd_issues hpage hmask hr hty hrnd hsr halign hel hdraft,
        fun hr hty hrnd hmask halign hel hst hown => accrdIn_issues hpage hmask hr hty hrnd halign hel hst hown⟩
  · intro p hp c
    refine ⟨fun st => mmaStepWrite_writes hp, ?_, fun tg keep => tagResolve_closes hp, fun core a row vs he _ => tldRowWrite_accRow hp he,
      fun core j cfg off bs => tldRowWrite_tileRow hp⟩
    intro core b keep he own
    obtain ⟨t, ht, hnow, hc⟩ := batchCommit_ends hp he
    refine ⟨t, ht, hnow, fun k => ?_⟩
    rw [hc]
    exact Cctx.endBatch_accs ..

end Sys2Proof.Machine

/-! PROOFS. The gather engine: descriptors set and tiles gathered (R244 to R247). -/

namespace Sys2Proof.Machine

/-! ### What a gather reads leaves its issuer alone -/

theorem Mach.scalarPage_walked {m n : Mach} {ea k : Nat} {nd : Need} {hbm : Bool} {p : Pg} (h : m.scalarPage ea k nd hbm = .ok (n, p)) :
    m.Walked n m.cur (if nd.wr then 0x30 else 0x10) := by
  unfold Mach.scalarPage at h
  split at h
  · cases h
  split at h
  · cases h
  next hx =>
    split at h
    · cases h
    · cases h
      exact Mach.xlat_walked hx

theorem Mach.gbRead_walked {m n : Mach} {va v : Nat} (h : m.gbRead va = .ok (n, v)) : m.Walked n m.cur 0x10 := by
  unfold Mach.gbRead at h
  split at h
  · cases h
  next hx =>
    split at h
    · cases h
    split at h
    · cases h
    · cases h
      exact (Mach.scalarPage_walked hx).trans_cur (Mach.soft_walked ..)

theorem Mach.gbRow_walked {m n : Mach} {g : GSlot} {k q : Nat} {l : List (Nat × Nat)} (h : m.gbRow g k q = .ok (n, l)) : m.Walked n m.cur 0x10 := by
  induction k generalizing m q l with
  | zero => cases h; exact .refl ..
  | succ k ih =>
    unfold Mach.gbRow at h
    split at h
    · cases h
    next hread =>
      split at h
      · cases h
      next hrow =>
        cases h
        exact (Mach.gbRead_walked hread).trans_cur (ih hrow)

theorem Mach.gbScan_walked {m n : Mach} {g : GSlot} {k r e : Nat} {l : List (Nat × Nat × Nat)} (h : m.gbScan g k r = .ok (n, l, e)) :
    m.Walked n m.cur 0x10 := by
  induction k generalizing m r l e with
  | zero => cases h; exact .refl ..
  | succ k ih =>
    unfold Mach.gbScan at h
    split at h
    · cases h; exact .refl ..
    split at h
    · cases h
    next hlo =>
      split at h
      · cases h
      next hhi =>
        split at h
        · cases h
        next hrow =>
          split at h
          · cases h
          next hscan =>
            cases h
            exact (((Mach.gbRead_walked hlo).trans_cur (Mach.gbRead_walked hhi)).trans_cur (Mach.gbRow_walked hrow)).trans_cur (ih hscan)

section
variable {m n : Mach} (h : m.KeepsIssuer n)
include h

theorem Mach.KeepsIssuer.loadDue (now home : Nat) : n.loadDue now home = m.loadDue now home := by
  rw [Mach.loadDue, Mach.loadDue, h.sel, h.ccyc, h.cj]

theorem Mach.KeepsIssuer.slotOkay (ws : List Nat) : n.slotOkay ws = m.slotOkay ws := by
  rw [Mach.slotOkay, Mach.slotOkay, h.cj, h.cct, Mach.cpart, Mach.cpart, h.cj, Mach.part_congr h.parts]

end

/-! ### GSET (R244) -/

/-- A plain GSET passes its decode checks where the partition has a gather engine. -/
theorem gset_checked {mi : Micro} {m : Mach} (hp : mi.plain = true) (hunit : (m.part m.cpart).lcount 3 ≠ 0) :
    (if (m.part m.cpart).lcount 3 == 0 then some FCode.unitAbsent else if mi.plain then none else some .illegalField) = none := by
  rw [beq_eq_false_iff_ne.2 hunit, hp]
  rfl

/-- A wait on host memory changes no more than the events to come, where energy has been charged beside. -/
theorem Mach.Puts.awaitHost {m n : Mach} {ps : List Pend} (h : m.Puts n ps) (hs : n.seq = m.seq + ps.length) (now : Nat) :
    (m.awaitHost now).Puts (n.awaitHost now) ps ∧ (n.awaitHost now).seq = (m.awaitHost now).seq + ps.length := by
  refine ⟨⟨?_, h.ccs, h.ctxs⟩, hs⟩
  conv => lhs; rw [h.rest]
  rfl

theorem Mach.awaitHost_sameIssuer (m : Mach) (now : Nat) : m.SameIssuer (m.awaitHost now) := ⟨rfl, rfl, rfl, rfl, rfl, rfl⟩

theorem Mach.awaitHost_cct (m : Mach) (now cc : Nat) : (m.awaitHost now).cct cc = m.cct cc := rfl

section
variable {mi : Micro} {s : State} {m : Mach} {p : Pg} (hp : mi.plain = true) (hr : s.microReady mi.tail.tok false)
  (hunit : (s.mach.part s.mach.cpart).lcount 3 ≠ 0)
include hp hr hunit

section
variable (hpage : s.mach.scalarPage (memEa (s.mach.gaReg mi.memBase) mi) 64 { rd := true } false = .ok (m, p))
  (hst : m.unstarted m.cs.job (p.home 0) = none) (hgood : m.pgBad p 64 = false) (hok : m.slotOkay (wordsOf (m.readPg m.cur .plain p 64)) = true)
include hpage hst hgood hok

theorem gset_issues (htgt : p.tgt ≠ 1) :
    let ws := wordsOf (m.readPg m.cur .plain p 64)
    let q := m.softPg p 64
    let due := m.loadDue s.now (p.home 0)
    s.issues (.gset mi) q mi.tail.tok due 2 [(s.on q).resultAt 0 due 0 (.gslot mi.dest.toNat ws)] := by
  intro ws q due
  have hq : m.KeepsIssuer (m.softPg p 64) := (Mach.soft_walked m _ _ m.cur 0x10).keepsIssuer
  have hk := (Mach.scalarPage_walked hpage).keepsIssuer.trans hq
  have hbad := gset_checked hp hunit
  have hput := Mach.pushAt_puts (q.charge_puts 14 1) s.now due (.gslot mi.dest.toNat ws) 0 none
  refine microWord_issues_same (w := fun _ => mi.tail.tok.wait) hr (exec_gset ..) hbad rfl hk.same (fun _ => congrArg Cctx.fifos (hk.cct _)) hput rfl ?_
  have hdue : ((m.softPg p 64).charge 14).loadDue s.now (p.home 0) = due := hq.loadDue ..
  simp only [hpage, hst, hgood, hq.slotOkay, hok, hdue, beq_eq_false_iff_ne.2 htgt, Bool.not_true, Bool.false_eq_true, if_false]
  rfl

theorem gset_held (htgt : p.tgt = 1) :
    s.issuesHeld (.gset mi) ((m.softPg p 64).awaitHost s.now) mi.tail.tok (.gset mi.dest.toNat (wordsOf (m.readPg m.cur .plain p 64))) := by
  have hq : m.KeepsIssuer (m.softPg p 64) := (Mach.soft_walked m _ _ m.cur 0x10).keepsIssuer
  have hk := (Mach.scalarPage_walked hpage).keepsIssuer.trans hq
  have hbad := gset_checked hp hunit
  have hf := (Mach.awaitHost_cct _ s.now _).trans (hk.cct s.mach.ccc)
  obtain ⟨hput, hseq⟩ := ((m.softPg p 64).charge_puts 14 1).awaitHost rfl s.now
  refine microWord_issuesHeld (w := fun _ => mi.tail.tok.wait) hr (exec_gset ..) hbad rfl (hk.same.trans (Mach.awaitHost_sameIssuer ..))
    (fun _ => congrArg Cctx.fifos hf) hput hseq ?_ rfl rfl
  simp only [hpage, hst, hgood, hq.slotOkay, hok, htgt, beq_self_eq_true, Bool.not_true, Bool.false_eq_true, if_false, if_true]

end
end

/-! ### GB (R245 to R247) -/

theorem Mach.trip_keepsIssuer (m : Mach) (die : Nat) : m.KeepsIssuer (m.trip die).2 := by
  rw [Mach.trip]
  split
  · exact .refl m
  · exact ⟨rfl, rfl, rfl, rfl, rfl, rfl, rfl, rfl, rfl, rfl, rfl⟩

theorem Mach.trip_charge (m : Mach) (k u die : Nat) : (m.charge k u).trip die = ((m.trip die).1, (m.trip die).2.charge k u) := by
  have hcj : (m.charge k u).cj = m.cj := rfl
  rw [Mach.trip, Mach.trip, hcj]
  split <;> rfl

theorem Mach.trip_fixed {m : Mach} (h : m.cj.fixed = true) (die : Nat) : (m.trip die).1 = 39 := by
  rw [Mach.trip, if_pos h]

/-- The value of the last element of a place among those that a gather read. -/
theorem lastElem_eq (es : List ElemAt) (val : ElemAt → Nat) (k : Nat) :
    (((es.map (fun x => (x.i, val x))).reverse.find? (fun v => v.1 == k)).map (·.2)).getD 0 =
      (match es.reverse.find? (fun x => x.i == k) with | some x => val x | none => 0) := by
  rw [← List.map_reverse, List.find?_map, Option.map_map]
  show ((es.reverse.find? (fun x => x.i == k)).map val).getD 0 = _
  cases es.reverse.find? (fun x => x.i == k) <;> rfl

/-- The scales that a gather reads, each by the place of its group in the tile (R246). -/
def gbScs (m : Mach) (p : Pg) (g : GSlot) (es : List ElemAt) : List (Nat × Nat) :=
  if p.geom = 0 then [] else es.map (fun x => (x.i / g.cols / groupOf p.geom * 1024 + x.i % g.cols, m.elemScale x))

/-- The scales of the tile that a gather makes: 1 for a group that it read nothing of (R246). -/
def gbScales (m : Mach) (p : Pg) (g : GSlot) (es : List ElemAt) : SMap Nat :=
  if p.geom = 0 then [] else (List.range (ceilDiv g.rows (groupOf p.geom))).flatMap (fun k => (List.range g.cols).map (fun x =>
    (k * 1024 + x, (((gbScs m p g es).find? (fun y => y.1 == k * 1024 + x)).map (·.2)).getD (if p.geom = 1 then 0x7F else 0x38))))

/-- The rows of the tile that a gather makes, a later entry over an earlier one of its place (R245). -/
def gbBytes (m : Mach) (p : Pg) (g : GSlot) (es : List ElemAt) : Wide :=
  (List.range g.rows).foldl (fun w r => wputs w (r * rowBytes g.fmt g.cols) (tileRow g.fmt g.cols ((List.range g.cols).map (fun x =>
    match es.reverse.find? (fun y => y.i == r * g.cols + x) with | some y => m.elemRaw p.fmt y | none => 0)))) []

/-- The tile that a gather makes. -/
def gbTile (m : Mach) (p : Pg) (g : GSlot) (es : List ElemAt) : Tile :=
  { bytes := gbBytes m p g es, sg := if p.geom = 0 then 0 else p.geom + 4, midr := p.midr, scales := gbScales m p g es }

/-- A slot moved past its tile, and the signal of the tile counted in the producer's copy (R245, R45). -/
def Mach.gathers (m : Mach) (slot tcc : Nat) (g : GSlot) : Mach :=
  (m.modCct m.ccc (fun c => { c with gslots := sset c.gslots slot g.advance })).modCct tcc
    (fun c => { c with fifos := smod c.fifos g.fifo {} (fun x => x.sent m.cur) })

theorem Mach.Puts.gathers {m n : Mach} {ps : List Pend} (h : m.Puts n ps) (slot tcc : Nat) (g : GSlot) :
    (m.gathers slot tcc g).Puts (n.gathers slot tcc g) ps := by
  rw [Mach.gathers, Mach.gathers, h.sameIssuer.ccc, h.sameIssuer.cur]
  exact (h.modCct m.ccc (g := fun c => { c with gslots := sset c.gslots slot g.advance }) (fun _ => rfl)).modCct tcc (fun _ => rfl)

section
variable {mi : Micro} {s : State} {g : GSlot} {m m1 m2 : Mach} {hits : List (Nat × Nat × Nat)} {scanned : Nat} {p : Pg} {es : List ElemAt}
  (hp : mi.plain = true) (hr : s.microReady mi.tail.tok false) (hunit : (s.mach.part s.mach.cpart).lcount 3 ≠ 0) (hse : mi.tail.tok.se = false)
  (hg : sget (s.mach.cct s.mach.ccc).gslots mi.dest.toNat {} = g) (hcredit : g.credit ≠ 0)
  (hroom : (sget (s.mach.cct (ccKey s.mach.cj.cx g.lc)).fifos g.fifo {}).roomFor s.mach.cur = true)
  (hscan : s.mach.gbScan g g.rows 0 = .ok (m, hits, scanned)) (hpage : m.eaPage (g.w 2) = .ok (m1, p)) (halign : eaAligned p (g.w 2) true = true)
  (hel : m1.elems (g.w 2) p.fmt (tilePlanes g.fmt) { rd := true } (fun q => tilePair q.fmt g.fmt) (fun o q => o.geom == q.geom && o.midr == q.midr)
    [] none (hits.map (fun h => (h.1 * g.cols + h.2.1, ((h.2.2 : Nat) : Int)))) = .ok (m2, es))
  (hst : m2.elemsUnstarted es = none) (hscs : ∀ a ∈ gbScs m2 p g es, ∀ b ∈ gbScs m2 p g es, a.1 = b.1 → a.2 = b.2)
include hp hr hunit hse hg hcredit hroom hscan hpage halign hel hst hscs

/-- A GB gathers its tile, which lands after its work and its way, no sooner than what its stream sent there before. -/
theorem gb_issues :
    let tcc := ccKey s.mach.cj.cx g.lc
    let die := pcDie (m2.pcOf m2.cpart g.lc)
    let n := (m2.trip die).2
    let due := max (s.mach.ccyc s.now + max (48 + g.rows + ceilDiv scanned 8 + (m2.trip die).1) (fld (g.w 6) 0 16) - 1) (n.sentDue die)
    s.issues (.gb mi) (n.gathers mi.dest.toNat tcc g) mi.tail.tok due 2 [(s.on n).resultAt 0 due 0 (.landing tcc g.core g.tileNo
      (g.fmt * 2 ^ 27 + g.rows * 2 ^ 18 + g.cols * 2 ^ 8) (gbTile m2 p g es) g.fifo s.mach.ccc mi.dest.toNat)] := by
  intro tcc die n due
  have hk2 := ((Mach.gbScan_walked hscan).keepsIssuer.trans (Mach.xlat_walked hpage).keepsIssuer).trans (Mach.elems_walked hel).keepsIssuer
  have hk := hk2.trans (m2.trip_keepsIssuer die)
  have hbad : (if (s.mach.part s.mach.cpart).lcount 3 == 0 then some FCode.unitAbsent
      else if mi.plain && !mi.tail.tok.se then none else some .illegalField) = none := by
    rw [beq_eq_false_iff_ne.2 hunit, hp, hse]
    rfl
  have hone : (gbScs m2 p g es).any (fun a => (gbScs m2 p g es).any (fun b => a.1 == b.1 && a.2 != b.2)) = false := by
    simp only [List.any_eq_false, Bool.and_eq_true, beq_iff_eq, bne_iff_ne, not_and, not_not, List.any_eq_true, not_exists]
    exact fun a ha b hb => hscs a ha b hb
  have hfree : (g.credit == 0 || !(sget (s.mach.cct (ccKey s.mach.cj.cx g.lc)).fifos g.fifo {}).roomFor s.mach.cur) = false := by
    rw [beq_eq_false_iff_ne.2 hcredit, hroom]
    rfl
  have hsame : s.mach.SameIssuer (n.gathers mi.dest.toNat tcc g) := hk.same.trans ⟨rfl, rfl, rfl, rfl, rfl, rfl⟩
  have hput := Mach.pushAt_puts ((n.charge_puts 14 g.rows).gathers mi.dest.toNat tcc g) s.now due (.landing tcc g.core g.tileNo
      (g.fmt * 2 ^ 27 + g.rows * 2 ^ 18 + g.cols * 2 ^ 8) (gbTile m2 p g es) g.fifo s.mach.ccc mi.dest.toNat) 0 none
  refine microWord_issues_same (w := fun _ => mi.tail.tok.wait) hr (exec_gb ..) hbad rfl hsame (fun h => absurd (hse.symm.trans h) (by decide)) hput
    rfl ?_
  have hdue : due = max (n.ccyc s.now + max (48 + g.rows + ceilDiv scanned 8 + (m2.trip die).1) (fld (g.w 6) 0 16) - 1) (n.sentDue die) := by
    rw [hk.ccyc]
  have hdie : pcDie ((m2.charge 14 g.rows).pcOf (m2.charge 14 g.rows).cpart g.lc) = die := rfl
  simp only [hg, hfree, hdie, hscan, hpage, halign, hel, hst, Mach.trip_charge, Bool.not_true, Bool.false_eq_true, if_false, beq_iff_eq, lastElem_eq]
  rw [hdue, ← hk.ccc]
  exact if_neg (ne_true_of_eq_false hone)

end

end Sys2Proof.Machine

/-! PROOFS. Landings, landing credits and data that a host completes (R246, R247, R279). -/

namespace Sys2Proof.Machine

/-! ### Landings and their credits (R246, R247) -/

/-- The registers of the target cluster after an unpaired tile has landed, with the slot that landed it. -/
theorem Mach.landed_cct {m : Mach} {tcc core j cfg w a : Nat} {tl : Tile} {e : Instr} {l : List Nat} {f : MCore → MCore} (h : tcPair cfg = false) :
    let c := (m.cct tcc).setCreg (tcfgKey core j) (wd cfg)
    (((((m.modCct tcc (fun c => c.setCreg (tcfgKey core j) (wd cfg))).tileWriteAs tcc core j cfg w (fun _ => tl)).modCore tcc core f).at a e l).cct tcc) =
      { c with tiles := sset c.tiles (core * 16 + j) tl, cores := smod c.cores core {} f } := by
  intro c
  have hat (n : Mach) : (n.at a e l).cct tcc = n.cct tcc := rfl
  rw [hat, Mach.modCore, Mach.cct_modCct, if_pos rfl, Mach.cct_tileWriteAs, Mach.cct_modCct, if_pos rfl, Cctx.setTile, h]
  rfl

section
variable {s : State} {p : Pend} (hp : s.mach.pend.find? (fun q => q.id == s.mach.arg 0) = some p)
include hp

/-- A landing writes an unpaired tile, its configuration and its attributes, and signals the descriptor's FIFO. -/
theorem gbLanding_lands {tcc core j cfg fifo gcc slot : Nat} {tl : Tile} (he : p.eff = .landing tcc core j cfg tl fifo gcc slot)
    (hpair : tcPair cfg = false) :
    ∃ t, exec .gbLanding s = .next t ∧ t.now = s.now ∧ ((t.mach.cct tcc).creg (tcfgKey core j)) = BitVec.ofNat 64 cfg ∧
      sget (t.mach.cct tcc).tiles (core * 16 + j) {} = tl ∧ (s.now, .tokenBeatArrival, [tcc, fifo]) ∈ t.mach.agenda := by
  obtain ⟨n, htake, hn⟩ := Mach.takePend_found hp
  rw [exec_gbLanding, execGbLanding, onMach]
  simp only [htake, he]
  refine ⟨_, rfl, rfl, ?_, ?_, mem_agendaAdd ..⟩
  · exact (congrArg (Cctx.creg · (tcfgKey core j)) (Mach.landed_cct hpair)).trans (Cctx.creg_setCreg_same ..)
  · exact (congrArg (fun c : Cctx => sget c.tiles (core * 16 + j) {}) (Mach.landed_cct hpair)).trans (sget_sset_same ..)

/-- A landing's credit returns to its slot. -/
theorem landingCreditReturn_credits {cc slot : Nat} (he : p.eff = .landCredit cc slot) :
    ∃ t, exec .landingCreditReturn s = .next t ∧ sget (t.mach.cct cc).gslots slot {} = { sget (s.mach.cct cc).gslots slot {} with
      credit := (sget (s.mach.cct cc).gslots slot {}).credit + 1 } := by
  obtain ⟨n, htake, hn⟩ := Mach.takePend_found hp
  have hc : n.cct cc = s.mach.cct cc := by rw [hn]; rfl
  rw [exec_landingCreditReturn, execLandingCreditReturn, onMach]
  simp only [htake, he]
  refine ⟨_, rfl, ?_⟩
  dsimp only
  rw [Mach.cct_modCct, if_pos rfl, hc]
  exact sget_sset_same ..

end

/-! ### Data that a host completes (R279) -/

/-- A signal given at once leaves every stream. -/
theorem Mach.signalNow_str (m : Mach) (now sid : Nat) (sg : Option (Nat × Option Nat)) (i : Nat) : (m.signalNow now sid sg).str i = m.str i := by
  cases sg <;> rfl

theorem Mach.signalNow_cur {m : Mach} {sid : Nat} (h : m.cur = sid) (now : Nat) (sg : Option (Nat × Option Nat)) : (m.signalNow now sid sg).cur = sid := by
  cases sg with
  | none => exact h
  | some _ => rfl

/-- A micro-order of an engine stream that is past is held no more. -/
theorem Mach.retire_hold {m : Mach} (now : Nat) (h : m.cs.sel.cls ≠ .scalar) : ((m.retire now).str m.cur).hold = .none := by
  rw [Mach.retire, if_neg (by simpa using h), Mach.stepOn, Mach.str_modStr_same]

/-- A held micro-order of an engine stream that completes is past. -/
theorem Mach.complete_hold {m : Mach} {now sid : Nat} (h : (m.str sid).sel.cls ≠ .scalar) : ((m.complete now sid).str sid).hold = .none := by
  unfold Mach.complete
  extract_lets n q
  have hcur : q.cur = sid := Mach.signalNow_cur rfl ..
  have hstr : q.str sid = m.str sid := n.signalNow_str ..
  have hsel : (q.modStr sid (fun s => { s with sig := none })).cs.sel.cls ≠ .scalar := by
    rw [Mach.cs, Mach.modStr_cur, hcur, Mach.str_modStr_same, hstr]
    exact h
  have hret := Mach.retire_hold now hsel
  rw [Mach.modStr_cur, hcur] at hret
  exact hret

section
variable {s : State} {sid : Nat} (harg : s.mach.arg 0 = sid) (hrun : (s.mach.str sid).state ≠ .frozen)
include harg hrun

section
variable {d : R} {w : Width} {home : Nat} {acq : Bool} {v : Word} (hhold : (s.mach.str sid).hold = .host d w home acq v)
include hhold

/-- A read's data reaches the waiting word. -/
theorem hostCompletion_replies (h0 : s.mach.arg 1 = 0) (hcls : (s.mach.str sid).sel.cls = .scalar) :
    ∃ t, exec .hostCompletion s = .next t ∧ (acq = true → (t.mach.str sid).snap = t.mach.homes) ∧ s.Replied t sid d
      (if acq then w.extend ((List.range w.bytes).map (fun i => s.mach.readByte sid .home false (home + i))) else v) := by
  have hm := Mach.replyReg_moves (s.mach.endHostWait sid) s.now sid d
    (if acq then w.extend ((List.range w.bytes).map (fun i => s.mach.readByte sid .home false (home + i))) else v) hcls
  rw [exec_hostCompletion, execHostCompletion, onMach]
  simp only [harg, hhold, h0, beq_eq_false_iff_ne.2 hrun, bne_self_eq_false, Bool.false_eq_true, if_false]
  cases acq with
  | false => exact ⟨_, rfl, fun h => absurd h (by decide), rfl, hm.hold, hm.fq0, hm.fq1, hm.rd⟩
  | true =>
    have hown (m : Mach) : (m.refresh sid).str sid = { m.str sid with snap := m.homes } := Mach.str_modStr_same ..
    refine ⟨_, rfl, fun _ => congrArg Stream.snap (hown _), rfl, ?_⟩
    dsimp only
    refine ⟨(congrArg Stream.hold (hown _)).trans hm.hold, (congrArg Stream.fq0 (hown _)).trans hm.fq0, (congrArg Stream.fq1 (hown _)).trans hm.fq1,
      fun r => (congrArg (Stream.rd · r) (hown _)).trans (hm.rd r)⟩

/-- An error completion faults the waiting word. -/
theorem hostCompletion_faults (h1 : s.mach.arg 1 ≠ 0) : ∃ t, exec .hostCompletion s = .next t ∧
    t = s.on (({ s.mach with cur := sid } : Mach).takeFreeze s.now sid { code := .link }) := by
  refine ⟨_, ?_, rfl⟩
  rw [exec_hostCompletion, execHostCompletion, onMach]
  simp only [harg, hhold, bne_iff_ne.2 h1, beq_eq_false_iff_ne.2 hrun, Bool.false_eq_true, if_false, if_true]
  rfl

end

section
variable {slot : Nat} {ws : List Nat} (hhold : (s.mach.str sid).hold = .gset slot ws)
include hhold

/-- A descriptor that comes from host memory stands in its slot, and its GSET is past. -/
theorem hostCompletion_sets (h0 : s.mach.arg 1 = 0) (hcls : (s.mach.str sid).sel.cls ≠ .scalar) :
    ∃ t, exec .hostCompletion s = .next t ∧ (t.mach.str sid).hold = .none ∧
      sget (t.mach.cct (ccKey (s.mach.job (s.mach.str sid).job).cx (s.mach.str sid).sel.lc)).gslots slot {} = slotOf ws := by
  rw [exec_hostCompletion, execHostCompletion, onMach]
  simp only [harg, hhold, h0, beq_eq_false_iff_ne.2 hrun, bne_self_eq_false, Bool.false_eq_true, if_false]
  refine ⟨_, rfl, Mach.complete_hold hcls, ?_⟩
  dsimp only
  rw [Mach.cct_congr (Mach.complete_ccs ..), Mach.cct_modCct, if_pos rfl]
  exact sget_sset_same ..

end

/-- The host's completion timeout faults the waiting word. -/
theorem completionTimeout_faults {h : Hold} (hhold : (s.mach.str sid).hold = h)
    (hh : (∃ d w home acq v, h = .host d w home acq v) ∨ ∃ slot ws, h = .gset slot ws) : ∃ t, exec .completionTimeout s = .next t ∧
    t = s.on (({ s.mach with cur := sid } : Mach).takeFreeze s.now sid { code := .link }) := by
  refine ⟨_, ?_, rfl⟩
  rw [exec_completionTimeout, execCompletionTimeout, onMach]
  simp only [harg, beq_eq_false_iff_ne.2 hrun, Bool.false_eq_true, if_false]
  rcases hh with ⟨d, w, home, acq, v, rfl⟩ | ⟨slot, ws, rfl⟩
  · rw [hhold]; rfl
  · rw [hhold]; rfl

end

/-- Settles O36: GSET and GB word by word, then the events one by one. -/
theorem gatherWords : Obligations.GatherWords := by
  unfold Obligations.GatherWords
  refine ⟨?_, fun s => ⟨fun p tcc core j cfg tl fifo gcc slot hp he hpair => gbLanding_lands hp he hpair,
    fun p cc slot hp he => landingCreditReturn_credits hp he, ?_⟩⟩
  · intro mi s tok slot cc c hp hr hunit
    refine ⟨?_, ?_⟩
    · intro m p hpage hst hgood ws q due hok
      exact ⟨gset_issues hp hr hunit hpage hst hgood hok, gset_held hp hr hunit hpage hst hgood hok⟩
    · intro g tcc rb hse hcredit hroom m hits scanned m1 p m2 es hscan hpage halign hel hst gs scs hscs scales raw bytes die trip n q due
      have hk2 := ((Mach.gbScan_walked hscan).keepsIssuer.trans (Mach.xlat_walked hpage).keepsIssuer).trans (Mach.elems_walked hel).keepsIssuer
      refine ⟨fun hfix => Mach.trip_fixed (hk2.cj ▸ hfix) die, ?_⟩
      have hk := hk2.trans (m2.trip_keepsIssuer die)
      have hq : n.gathers slot tcc g = q := by rw [Mach.gathers, hk.ccc, hk.cur]
      exact hq ▸ gb_issues hp hr hunit hse rfl hcredit hroom hscan hpage halign hel hst hscs
  · intro sid harg hrun faults
    refine ⟨fun d w home v hhold => ⟨fun h0 hcls => ?_, fun h1 => hostCompletion_faults harg hrun hhold h1,
        completionTimeout_faults harg hrun hhold (.inl ⟨d, w, home, false, v, rfl⟩)⟩, fun d w home v hhold h0 hcls => ?_,
      fun slot ws hhold hcls => ⟨fun h0 => hostCompletion_sets harg hrun hhold h0 hcls,
        completionTimeout_faults harg hrun hhold (.inr ⟨slot, ws, rfl⟩)⟩⟩
    · obtain ⟨t, ht, -, hrep⟩ := hostCompletion_replies harg hrun hhold h0 hcls
      exact ⟨t, ht, hrep⟩
    · obtain ⟨t, ht, hsnap, hrep⟩ := hostCompletion_replies harg hrun hhold h0 hcls
      exact ⟨t, ht, hsnap rfl, hrep⟩

end Sys2Proof.Machine

/-! PROOFS. Memory and drafts written byte by byte: distinct homes each hold what was written there (R70, R251, R252, R260). -/

namespace Sys2Proof.Machine

/-! ### Writes of bytes, one after another -/

section
variable {σ β : Type} {read : σ → Nat → Byte} {write : σ → β → σ} {key : β → Nat} {val : β → Byte → Byte}
  (law : ∀ s b x, read (write s b) x = if x = key b then val b (read s x) else read s x)
include law

/-- A place that no write names holds what it held. -/
theorem read_foldl_of_notMem {l : List β} {x : Nat} (hx : x ∉ l.map key) (s : σ) : read (l.foldl write s) x = read s x := by
  induction l generalizing s with
  | nil => rfl
  | cons b l ih =>
    obtain ⟨hb, hl⟩ := not_or.1 (mt List.mem_cons.2 hx)
    rw [List.foldl_cons, ih hl, law, if_neg hb]

/-- A place that one write names holds what that write made of it. -/
theorem read_foldl_of_mem {l : List β} (hn : (l.map key).Nodup) {b : β} (hb : b ∈ l) (s : σ) :
    read (l.foldl write s) (key b) = val b (read s (key b)) := by
  induction l generalizing s with
  | nil => exact absurd hb List.not_mem_nil
  | cons c l ih =>
    obtain ⟨hc, hl⟩ := List.nodup_cons.1 hn
    rw [List.foldl_cons]
    rcases List.mem_cons.1 hb with rfl | hb
    · rw [read_foldl_of_notMem law hc, law, if_pos rfl]
    · have hne : key b ≠ key c := fun h => hc (h ▸ List.mem_map_of_mem hb)
      rw [ih hl hb, law, if_neg hne]

end

/-- A byte written at a home, as a write of its old value. -/
theorem homeByte_mixed (h : Homes) (a x : Nat) (f : Byte → Byte) :
    homeByte (homeSet h a (f (homeByte h a))) x = if x = a then f (homeByte h x) else homeByte h x := by
  rw [homeByte_homeSet]
  split
  next hx => rw [hx]
  · rfl

/-- Cells written at distinct homes: a home listed holds its byte, any other what it held. -/
theorem homeByte_foldl_cells {l : List Host.Cell} (hn : (l.map (·.1)).Nodup) (h : Homes) (x : Nat) :
    homeByte (l.foldl (fun (h : Homes) (c : Host.Cell) => homeSet h c.1 c.2) h) x = (sget? l x).getD (homeByte h x) := by
  have law (s : Homes) (b : Host.Cell) (x : Nat) : homeByte (homeSet s b.1 b.2) x = if x = b.1 then b.2 else homeByte s x :=
    homeByte_homeSet ..
  induction l generalizing h with
  | nil => rfl
  | cons c l ih =>
    obtain ⟨hc, hl⟩ := List.nodup_cons.1 hn
    rw [List.foldl_cons]
    by_cases hx : c.1 = x
    · subst hx
      rw [read_foldl_of_notMem (read := homeByte) (val := fun b _ => b.2) law hc, law, if_pos rfl]
      simp [sget?]
    · rw [ih hl, law, if_neg (Ne.symm hx)]
      simp [sget?, hx]

/-! ### A region's draft (R260) -/

/-- A draft's byte after a byte was stored into the draft. -/
theorem Region.draftByte_store (r : Region) (h : Homes) (job a x : Nat) (b : Byte) :
    (r.store h job a b).draftByte h x = if x = a then b else r.draftByte h x := by
  simp only [Region.store, Region.draftByte, Region.draftSet]
  split
  next hb =>
    rw [sget?_sdel]
    split
    next hx => rw [hx, eq_of_beq hb]; rfl
    · rfl
  · rw [sget?_sset]
    split <;> rfl

theorem Region.pubrid_store (r : Region) (h : Homes) (job a : Nat) (b : Byte) : (r.store h job a b).pubrid = r.pubrid := rfl

/-- The region that a PUBRID registers has that number. -/
theorem Context.region_pubrid {c : Context} {p : Nat} {r : Region} (h : c.region p = some r) : r.pubrid = p := by
  unfold Context.region at h
  split at h
  · cases h
  · exact eq_of_beq (List.find?_some (p := fun r : Region => r.pubrid == p) h)

/-- A region changed in place is found as changed, under its number. -/
theorem Mach.region_modRegion {m : Mach} {cx p : Nat} {r : Region} {f : Region → Region} (h : (m.ctx cx).region p = some r)
    (hf : ∀ r, (f r).pubrid = r.pubrid) : ((m.modRegion cx p f).ctx cx).region p = some (f r) := by
  have hr : r.pubrid = p := Context.region_pubrid h
  rw [Mach.modRegion, Mach.ctx_modCtx, if_pos rfl]
  unfold Context.region at h ⊢
  split at h
  · cases h
  · next hp =>
    have hkey (q : Region) : ((if q.pubrid == p then f q else q).pubrid == p) = (q.pubrid == p) := by split <;> simp [hf]
    rw [if_neg hp, List.find?_map]
    simp only [Function.comp_def, hkey, h, Option.map_some, hr, beq_self_eq_true, if_true]

/-! ### The swizzle of buffer SRAM (R70) -/

/-- The swizzle is its own inverse. -/
theorem swz_swz (span k : Nat) : swz span (swz span k) = k := by
  unfold swz
  split
  · have hx : fld k 4 6 < 64 := Nat.mod_lt _ (by decide)
    have hy : fld k 10 6 - fld k 10 6 % 2 ^ span < 2 ^ 6 := Nat.lt_of_le_of_lt (Nat.sub_le ..) (Nat.mod_lt _ (by decide))
    generalize hyd : fld k 10 6 - fld k 10 6 % 2 ^ span = y at hy
    have hb : fld k 4 6 ^^^ y < 2 ^ 6 := Nat.xor_lt_two_pow hx hy
    generalize hbd : fld k 4 6 ^^^ y = b at hb
    have h4 : fld (k - fld k 4 6 * 16 + b * 16) 4 6 = b := by simp only [fld]; omega
    have h10 : fld (k - fld k 4 6 * 16 + b * 16) 10 6 = fld k 10 6 := by simp only [fld]; omega
    have hback : b ^^^ y = fld k 4 6 := by rw [← hbd, Nat.xor_assoc, Nat.xor_self, Nat.xor_zero]
    simp only [hyd, hbd, h4, h10, hback]
    simp only [fld]
    omega
  · rfl

theorem swz_inj {span a b : Nat} (h : swz span a = swz span b) : a = b := by
  rw [← swz_swz span a, h, swz_swz]

end Sys2Proof.Machine

/-! PROOFS. FENCE and PUBL: held for the entries they cover, and past them (R256, R257, R262, R263, R292, R294). -/

namespace Sys2Proof.Machine

/-! ### A held word is past (R322) -/

/-- What a word that is past leaves on its stream and in memory: the queue moved on, registers as they stood, and A bits that a fetch
set (R322, R377). -/
structure Mach.Past (m n : Mach) (sid : Nat) : Prop where
  hold : (n.str sid).hold = .none
  fq0 : (n.str sid).fq0 = (m.str sid).fq1
  fq1 : (n.str sid).fq1 = (m.str sid).fq2
  regs : (n.str sid).regs = (m.str sid).regs
  mem : ∀ a, ∃ k : Byte, k &&& ~~~0x10 = 0 ∧ homeByte n.homes a = homeByte m.homes a ||| k
  ctxs : n.ctxs = m.ctxs

/-- A scalar word that retires is past. -/
theorem Mach.retire_past {m : Mach} (now : Nat) (h : m.cs.sel.cls = .scalar) : m.Past (m.retire now) m.cur := by
  obtain ⟨n, e, hw, -, hr⟩ := m.retire_spec now h
  have hown : n.str m.cur = { m.str m.cur with l1 := (n.str m.cur).l1 } := hw.own
  have hcs := congrArg (fun q : Mach => q.str m.cur) hr
  simp only [Mach.str_modStr_same] at hcs
  constructor
  case hold => rw [hcs]
  case fq0 => rw [hcs, hown]
  case fq1 => rw [hcs, hown]
  case regs => rw [hcs, hown]
  case mem => rw [hr]; exact hw.mem
  case ctxs => rw [hr]; exact hw.ctxs

/-- The same, from a machine that has the stream's queue and registers, memory and contexts as they stand. -/
theorem Mach.Past.of_same {m m' n : Mach} {sid : Nat} (h : m'.Past n sid) (hq : (m'.str sid).fq1 = (m.str sid).fq1 ∧
    (m'.str sid).fq2 = (m.str sid).fq2 ∧ (m'.str sid).regs = (m.str sid).regs) (hh : m'.homes = m.homes) (hc : m'.ctxs = m.ctxs) :
    m.Past n sid :=
  ⟨h.hold, h.fq0.trans hq.1, h.fq1.trans hq.2.1, h.regs.trans hq.2.2, hh ▸ h.mem, h.ctxs.trans hc⟩

/-- A fresh snapshot is no part of what stands. -/
theorem Mach.Past.refresh {m n : Mach} {sid : Nat} (h : m.Past n sid) : m.Past (n.refresh sid) sid := by
  have hs : (n.refresh sid).str sid = { n.str sid with snap := n.homes } := Mach.str_modStr_same ..
  constructor
  case hold => rw [hs]; exact h.hold
  case fq0 => rw [hs]; exact h.fq0
  case fq1 => rw [hs]; exact h.fq1
  case regs => rw [hs]; exact h.regs
  case mem => exact h.mem
  case ctxs => exact h.ctxs

/-- A word that is past and wrote no register has its reply, where its stream stood as it was held. -/
theorem Mach.Past.replied {s : State} {m n : Mach} {sid : Nat} (h : m.Past n sid) (hs : m.str sid = s.mach.str sid) :
    s.Replied (s.on n) sid 0 0 := by
  refine ⟨rfl, h.hold, hs ▸ h.fq0, hs ▸ h.fq1, fun r => ?_⟩
  have hrd : ((s.on n).mach.str sid).rd r = (s.mach.str sid).rd r := by
    rw [Stream.rd, Stream.rd, State.mach_on, h.regs, hs]
  rw [hrd]
  split
  next hr => rw [hr, Stream.rd_zero]
  · rfl

/-- A held scalar word that completes is past (R108). -/
theorem Mach.complete_past {m : Mach} (now : Nat) {sid : Nat} (h : (m.str sid).sel.cls = .scalar) : m.Past (m.complete now sid) sid := by
  unfold Mach.complete
  extract_lets n q
  have hcur : q.cur = sid := Mach.signalNow_cur rfl ..
  have hstr : q.str sid = m.str sid := n.signalNow_str ..
  have hq : q.homes = m.homes ∧ q.ctxs = m.ctxs := by
    show (n.signalNow now sid n.cs.sig).homes = _ ∧ (n.signalNow now sid n.cs.sig).ctxs = _
    cases n.cs.sig <;> exact ⟨rfl, rfl⟩
  have hown : (q.modStr sid (fun s => { s with sig := none })).str sid = { m.str sid with sig := none } := by
    rw [Mach.str_modStr_same, hstr]
  have hret := (q.modStr sid (fun s => { s with sig := none })).retire_past now (by
    rw [Mach.cs, Mach.modStr_cur, hcur, hown]; exact h)
  rw [Mach.modStr_cur, hcur] at hret
  exact hret.of_same (by rw [hown]; exact ⟨rfl, rfl, rfl⟩) hq.1 hq.2

/-- A micro-order that retires moves its stream on by its length. -/
theorem Mach.retire_engine {m : Mach} (now : Nat) (h : m.cs.sel.cls ≠ .scalar) : m.retire now = m.stepOn now m.cur m.curLen := by
  rw [Mach.retire]
  exact if_neg (by simpa using h)

/-- A held micro-order that completes changes no memory and no context. -/
theorem Mach.complete_engine {m : Mach} (now : Nat) {sid : Nat} (h : (m.str sid).sel.cls ≠ .scalar) :
    (m.complete now sid).homes = m.homes ∧ (m.complete now sid).ctxs = m.ctxs := by
  unfold Mach.complete
  extract_lets n q
  have hcur : q.cur = sid := Mach.signalNow_cur rfl ..
  have hstr : q.str sid = m.str sid := n.signalNow_str ..
  have hq : q.homes = m.homes ∧ q.ctxs = m.ctxs := by
    show (n.signalNow now sid n.cs.sig).homes = _ ∧ (n.signalNow now sid n.cs.sig).ctxs = _
    cases n.cs.sig <;> exact ⟨rfl, rfl⟩
  have hcls : (q.modStr sid (fun s => { s with sig := none })).cs.sel.cls ≠ .scalar := by
    rw [Mach.cs, Mach.modStr_cur, hcur, Mach.str_modStr_same, hstr]
    exact h
  rw [Mach.retire_engine now hcls]
  exact hq

/-- A held word that completes changes no context, and of memory only what its fetch does. -/
theorem Mach.complete_leaves (m : Mach) (now sid : Nat) : (m.complete now sid).ctxs = m.ctxs ∧
    ∀ a, ∃ k : Byte, k &&& ~~~0x10 = 0 ∧ homeByte (m.complete now sid).homes a = homeByte m.homes a ||| k := by
  by_cases h : (m.str sid).sel.cls = .scalar
  · exact ⟨(Mach.complete_past now h).ctxs, (Mach.complete_past now h).mem⟩
  · obtain ⟨hh, hc⟩ := Mach.complete_engine now h
    exact ⟨hc, fun a => ⟨0, by simp, by rw [hh]; simp⟩⟩

/-! ### FENCE (R292) -/

/-- FENCE is held for its release half. -/
theorem exec_fence_held {s : State} (z : Scope) (h : s.mach.redFreeze = none) :
    ∃ t, exec (.fence z) s = .next t ∧ s.Held t (.release (.fence z) z.code s.mach.seq) [] := by
  refine ⟨_, ?_, State.hold_held (s.mach.charge_puts 2 1) (.release (.fence z) z.code s.mach.seq)⟩
  rw [exec_fence, execFence, onWord, onMach]
  simp only [h]

/-- A FENCE whose entries have performed is past, with a fresh snapshot. -/
theorem exec_releaseComplete_fence {s : State} {sid : Nat} {z : Scope} {sc q : Nat} (harg : s.mach.arg 0 = sid)
    (hhold : (s.mach.str sid).hold = .release (.fence z) sc q) (hrun : (s.mach.str sid).state ≠ .frozen)
    (hdone : (s.mach.str sid).drained (cxPart (s.mach.job (s.mach.str sid).job).cx) sc q = true) :
    exec .releaseComplete s = .next (s.on ((({ s.mach with cur := sid } : Mach).retire s.now).refresh sid)) := by
  have hrel : s.mach.releaseDone sid = true := by
    rw [Mach.releaseDone]
    simp only [hhold, hdone]
  rw [exec_releaseComplete, execReleaseComplete, onMach]
  simp only [harg, hhold, hrel, beq_eq_false_iff_ne.2 hrun, Bool.not_true, Bool.or_self, Bool.false_eq_true, if_false]
  rfl

/-- Settles O11: FENCE is held, and past its entries it goes on with a snapshot of the homes. -/
theorem fencesReleaseAndRefresh : Obligations.FencesReleaseAndRefresh := by
  unfold Obligations.FencesReleaseAndRefresh
  refine fun s => ⟨fun z h => exec_fence_held z h, fun z sc q hhold hrun hcls hdone => ?_⟩
  have hpast := (Mach.retire_past (m := { s.mach with cur := s.mach.arg 0 }) s.now hcls).refresh
  exact ⟨_, exec_releaseComplete_fence rfl hhold hrun hdone, hpast.replied rfl, congrArg Stream.snap (Mach.str_modStr_same ..), hpast.mem⟩

/-! ### PUBL (R262, R263, R294) -/

/-- PUBL's own check of its page changes no PUBL under way, no job and no stream. -/
theorem Mach.publPage_leaves {m n : Mach} {ea : Nat} {p : Pg} (h : m.publPage ea = .ok (n, p)) :
    n.publs = m.publs ∧ n.cur = m.cur := by
  unfold Mach.publPage at h
  split at h
  · cases h
  next m' q hx =>
    cases h
    have hw := Mach.xlat_walked hx
    exact ⟨by rw [hw.rest], hw.cur⟩

/-- A PUBL listed as under way. -/
structure Mach.Publishes (m n : Mach) (pubrid : Nat) (q : Publ) : Prop where
  listed : q ∈ n.publs
  sid : q.sid = m.cur
  pubrid : q.pubrid = pubrid
  cx : q.cx = m.cj.cx
  homes : n.homes = m.homes
  cur : n.cur = m.cur

/-- The PUBL that a stream lists which has none under way. -/
def Mach.newPubl (m : Mach) (now home pubrid : Nat) : Publ :=
  { id := m.seq, sid := m.cur, cx := m.cj.cx, pubrid := pubrid, at' := now, port := m.portOf (cxPart m.cj.cx) m.cs.sel home,
    go := m.jobTick m.cs.job m.clc (m.ccyc now + 1) }

/-- A PUBL of a stream that has none under way is listed and held, whether its invalidations begin now or later. -/
theorem Mach.publ_held {m : Mach} (now home pubrid : Nat) (h : m.publs.any (fun q => q.sid == m.cur) = false) :
    ∃ n q, m.publ now home pubrid = .hold n (.publ q.id) ∧ m.Publishes n pubrid q := by
  have hnew : m.publs.find? (fun p => p.sid == m.cur) = none :=
    List.find?_eq_none.2 (fun x hx => List.any_eq_false.1 h x hx)
  unfold Mach.publ
  simp only [hnew]
  split
  · exact ⟨_, m.newPubl now home pubrid, rfl, List.mem_append_right _ (List.mem_singleton_self _), rfl, rfl, rfl, rfl, rfl⟩
  · have hmem : ({ m.newPubl now home pubrid with started := true } : Publ) ∈ (m.publs ++ [m.newPubl now home pubrid]).map
        (fun p => if p.id == m.seq then { p with started := true } else p) :=
      List.mem_map.2 ⟨_, List.mem_append_right _ (List.mem_singleton_self _), if_pos (beq_self_eq_true m.seq)⟩
    refine ⟨_, { m.newPubl now home pubrid with started := true }, rfl, ?_⟩
    split
    · exact ⟨hmem, rfl, rfl, rfl, rfl, rfl⟩
    · rw [Mach.startInval_eq, Mach.tellSlices_retried]
      exact ⟨hmem, rfl, rfl, rfl, rfl, rfl⟩

/-- PUBL of a registered page's region is listed and held until T. -/
theorem exec_publ_held {s : State} {a : R} {m : Mach} {p : Pg} (hpage : s.mach.publPage (s.mach.rs a).toNat = .ok (m, p)) (hpub : p.pub ≠ 0)
    (hnone : s.mach.publs.any (fun q => q.sid == s.mach.cur) = false) :
    ∃ t q, exec (.publ a) s = .next t ∧ t.mach.cs.hold = .publ q.id ∧ q ∈ t.mach.publs ∧ q.sid = s.mach.cur ∧
      q.pubrid = p.pub ∧ q.cx = m.cj.cx ∧ t.mach.homes = m.homes := by
  obtain ⟨hpubls, hcur⟩ := Mach.publPage_leaves hpage
  have hcheck : s.mach.publCheck (s.mach.rs a).toNat = .ok (m, p) := by
    rw [Mach.publCheck, hpage]
    exact if_neg (by simpa using hpub)
  have hnone' : (m.charge 2).publs.any (fun q => q.sid == (m.charge 2).cur) = false := by
    rw [Mach.charge_publs, Mach.charge_cur, hpubls, hcur]; exact hnone
  have hfirst : m.publs.any (fun q => q.sid == m.cur) = false := hnone'
  obtain ⟨n, q, hq, hn⟩ := (m.charge 2).publ_held s.now (p.home 0) p.pub hnone'
  have hex : exec (.publ a) s = .next (s.on ((Res.hold n (.publ q.id)).finish s.now)) := by
    rw [exec_publ, execPubl, onWord, onMach]
    simp only [hcheck, hfirst, Bool.false_eq_true, if_false, hq]
    rfl
  obtain ⟨hown, -, -⟩ := Mach.missPause_frame ((Res.hold n (.publ q.id)).settle s.now) s.now
  have hrest := Mach.missPause_agenda ((Res.hold n (.publ q.id)).settle s.now) s.now
  refine ⟨_, q, hex, ?_, ?_, hn.sid.trans hcur, hn.pubrid, hn.cx, ?_⟩
  · rw [State.mach_on, Res.finish, hown]
    exact congrArg Stream.hold (Mach.str_modStr_same ..)
  · rw [State.mach_on, Res.finish, hrest]
    exact hn.listed
  · rw [State.mach_on, Res.finish, hrest]
    exact hn.homes

/-- The machine once the draft of a region stands at its homes, and once it restarts empty too (R262). -/
def Mach.publishing (m : Mach) (p : Publ) (r : Region) : Mach :=
  ({ m with publs := m.publs.filter (fun q => q.id != p.id)
            homes := r.draft.foldl (fun (h : Homes) (c : Host.Cell) => homeSet h c.1 c.2) m.homes } : Mach).touched p.cx (r.draft.map (fun c => c.1))
def Mach.published (m : Mach) (p : Publ) (r : Region) : Mach :=
  (m.publishing p r).modRegion p.cx p.pubrid (fun r => { r with draft := [], writes := [] })

/-- Marking what was written as dirty changes nothing but contexts on clusters (R434). -/
theorem Mach.touched_rest (m : Mach) (cx : Nat) (hs : List Nat) : m.touched cx hs = { m with ccs := (m.touched cx hs).ccs } :=
  List.foldlRecOn (motive := fun n : Mach => n = { m with ccs := n.ccs }) _ _ rfl (fun n hn q _ => by rw [hn]; rfl)

theorem Mach.touched_homes (m : Mach) (cx : Nat) (hs : List Nat) : (m.touched cx hs).homes = m.homes := by rw [Mach.touched_rest]

section
variable {m : Mach} {p : Publ} {r : Region}

theorem Mach.published_homes : (m.published p r).homes = r.draft.foldl (fun (h : Homes) (c : Host.Cell) => homeSet h c.1 c.2) m.homes := by
  rw [Mach.published, Mach.modRegion, Mach.modCtx_homes, Mach.publishing, Mach.touched_rest]

theorem Mach.published_str (i : Nat) : (m.published p r).str i = m.str i :=
  Mach.str_congr (by rw [Mach.published, Mach.modRegion, Mach.modCtx_streams, Mach.publishing, Mach.touched_rest]) i

/-- A published region's draft restarts empty. -/
theorem Mach.published_draft (hr : (m.ctx p.cx).region p.pubrid = some r) :
    (((m.published p r).ctx p.cx).region p.pubrid).map (·.draft) = some [] := by
  have hfound := Mach.region_modRegion (m := m.publishing p r) (f := fun r => { r with draft := [], writes := [] })
    (by rw [Mach.publishing, Mach.touched_rest]; exact hr) (fun _ => rfl)
  rw [Mach.published, hfound]
  rfl

end

/-- PUBL at T: its region is published, and a stream that it holds goes on. -/
theorem exec_publPublish_found {s : State} {p : Publ} {r : Region} (hp : s.mach.publs.find? (fun q => q.id == s.mach.arg 0) = some p)
    (hr : (s.mach.ctx p.cx).region p.pubrid = some r) : exec .publPublish s = .next (s.on
      (if (s.mach.str p.sid).hold == .publ p.id then (s.mach.published p r).complete s.now p.sid else s.mach.published p r)) := by
  have hr' : (Mach.ctx { s.mach with publs := s.mach.publs.filter (fun q => q.id != p.id) } p.cx).region p.pubrid = some r := hr
  rw [exec_publPublish, execPublPublish, onMach]
  simp only [hp, hr']
  rw [← Mach.published_str (m := s.mach) (p := p) (r := r) p.sid]
  rfl

/-- Settles O12: PUBL is held; at T its draft stands at the homes, and its stream is past it. -/
theorem publication : Obligations.Publication := by
  unfold Obligations.Publication
  refine fun s => ⟨fun a m p hpage hpub hnone => exec_publ_held hpage hpub hnone, fun p r hp hr hn => ?_⟩
  have hbyte (a : Nat) : homeByte (s.mach.published p r).homes a = r.draftByte s.mach.homes a := by
    rw [Mach.published_homes]; exact homeByte_foldl_cells hn ..
  obtain ⟨hctxs, hmem⟩ := (s.mach.published p r).complete_leaves s.now p.sid
  have hcls (c : Cls) : ((s.mach.published p r).str p.sid).sel.cls = c ↔ (s.mach.str p.sid).sel.cls = c := by rw [Mach.published_str]
  refine ⟨_, exec_publPublish_found hp hr, rfl, ?_⟩
  by_cases hhold : (s.mach.str p.sid).hold = .publ p.id
  · rw [if_pos (by simpa using hhold)]
    refine ⟨?_, fun a => ?_, fun _ hs => ?_, fun _ hs => Mach.complete_hold (mt (hcls _).1 hs)⟩
    · rw [State.mach_on, Mach.ctx_congr hctxs]
      exact Mach.published_draft hr
    · obtain ⟨k, hk, ha⟩ := hmem a
      exact ⟨k, hk, by rw [State.mach_on, ha, hbyte]⟩
    · exact (Mach.complete_past s.now ((hcls _).2 hs)).replied (Mach.published_str _)
  · rw [if_neg (by simpa using hhold)]
    exact ⟨Mach.published_draft hr, fun a => ⟨0, by simp, by rw [State.mach_on, hbyte]; simp⟩, fun h => absurd h hhold, fun h => absurd h hhold⟩

end Sys2Proof.Machine

/-! PROOFS. Results in their declared write cycle, and store-buffer entries as they perform (R44, R63, R105, R178, R190, R192, R251 to R253,
R260, R460). -/

namespace Sys2Proof.Machine

/-! ### A result is written (R105) -/

/-- A result found is taken out of those in flight. -/
theorem Mach.takePend_taken {m : Mach} {id : Nat} {p : Pend} (h : m.pend.find? (fun q => q.id == id) = some p) :
    ∃ sp, m.takePend id = some ({ m with pend := m.pend.filter (fun q => q.id != id), spoiled := sp }, p) :=
  ⟨_, by rw [Mach.takePend, h, Option.map_some, (Mach.mendPend_mended _ p : _ = _)]⟩

/-- A refresh changes no register. -/
theorem Mach.rd_refresh (m : Mach) (i : Nat) (r : R) : ((m.refresh i).str i).rd r = (m.str i).rd r := by
  rw [Mach.refresh, Mach.str_modStr_same]
  rfl

section
variable {s : State} {p : Pend}

/-- A result is written, as RESULT_WRITE answers it: the answer, and what no result changes. -/
def State.Written (s t : State) : Prop :=
  exec .resultWrite s = .next t ∧ t.now = s.now ∧ t.mach.homes = s.mach.homes ∧
    t.mach.pend = s.mach.pend.filter (fun q => q.id != s.mach.arg 0)

variable (hp : s.mach.pend.find? (fun q => q.id == s.mach.arg 0) = some p)
include hp

/-- RESULT_WRITE writes what its result says, on the machine that no longer has the result in flight. -/
theorem exec_resultWrite_found : ∃ sp, exec .resultWrite s = .next (s.on
    (({ s.mach with pend := s.mach.pend.filter (fun q => q.id != s.mach.arg 0), spoiled := sp } : Mach).resultEff s.now p)) := by
  obtain ⟨sp, htake⟩ := Mach.takePend_taken hp
  refine ⟨sp, ?_⟩
  rw [exec_resultWrite, execResultWrite, onMach]
  simp only [htake]
  rfl

/-- A scalar register is written (R63). -/
theorem resultWrite_reg {d : R} {v : Word} (he : p.eff = .reg d.toNat v) : ∃ t, s.Written t ∧
    (∀ i, i ≠ p.sid → t.mach.str i = s.mach.str i) ∧
    ∀ r, (t.mach.str p.sid).rd r = if r = 0 then 0 else if r = d then v else (s.mach.str p.sid).rd r := by
  obtain ⟨sp, hex⟩ := exec_resultWrite_found hp
  simp only [Mach.resultEff, he] at hex
  refine ⟨_, ⟨hex, rfl, rfl, rfl⟩, fun i hi => Mach.str_modStr_ne _ _ hi, fun r => ?_⟩
  rw [State.mach_on, Mach.str_modStr_same, Stream.rd_wr]
  simp only [BitVec.toNat_inj]
  rfl

/-- LD.ACQ's register is written from the homes as they stand, and its stream refreshes (R258, R277). -/
theorem resultWrite_regAcq {d : R} {w : Width} {hs : List Nat} {mark : Nat} {v : Word} (he : p.eff = .regAcq d.toNat w hs mark v) :
    ∃ t, s.Written t ∧ (t.mach.str p.sid).snap = s.mach.homes ∧
      ∀ r, (t.mach.str p.sid).rd r = if r = 0 then 0 else if r = d then
        (if hs = [] then v else w.extend (hs.map (fun h =>
          ownByte ((s.mach.str p.sid).sb.filter (fun e => e.seq < mark)) h (homeByte s.mach.homes h)))) else (s.mach.str p.sid).rd r := by
  obtain ⟨sp, hex⟩ := exec_resultWrite_found hp
  simp only [Mach.resultEff, he] at hex
  refine ⟨_, ⟨hex, rfl, rfl, rfl⟩, congrArg Stream.snap (Mach.str_modStr_same ..), fun r => ?_⟩
  rw [State.mach_on, Mach.rd_refresh, Mach.str_modStr_same, Stream.rd_wr]
  simp only [BitVec.toNat_inj, List.isEmpty_iff]
  rfl

/-- A control register is written by its fields (R178). -/
theorem resultWrite_creg {k : Nat} {v : Word} (he : p.eff = .creg k v) (hk : k < 0x320) : ∃ t, s.Written t ∧
    t.mach.cct p.cc = (s.mach.cct p.cc).cregWrite k v ∧ t.mach.streams = s.mach.streams := by
  obtain ⟨sp, hex⟩ := exec_resultWrite_found hp
  have hbank : ¬(0x320 ≤ k && k ≤ 0x33F) = true := by simp; omega
  simp only [Mach.resultEff, he, Mach.cregApply, if_neg hbank] at hex
  refine ⟨_, ⟨hex, rfl, rfl, rfl⟩, ?_, rfl⟩
  rw [State.mach_on, Mach.cct_modCct, if_pos rfl]
  rfl

/-- Flags are ORed in (R165). -/
theorem resultWrite_flags {k f : Nat} (he : p.eff = .flags k f) : ∃ t, s.Written t ∧
    (t.mach.cct p.cc).creg k = (s.mach.cct p.cc).creg k ||| BitVec.ofNat 64 f ∧
    (∀ n, n ≠ k → (t.mach.cct p.cc).creg n = (s.mach.cct p.cc).creg n) ∧ t.mach.streams = s.mach.streams := by
  obtain ⟨sp, hex⟩ := exec_resultWrite_found hp
  simp only [Mach.resultEff, he] at hex
  have hset (c : Cctx) (n : Nat) : (c.setFlags k f).creg n = if n = k then c.creg k ||| BitVec.ofNat 64 f else c.creg n := by
    rw [Cctx.setFlags]
    split
    next h0 =>
      rw [eq_of_beq h0]
      split
      next hn => rw [hn]; simp
      · rfl
    · simp only [Cctx.setCreg, Cctx.creg, sget?_sset]
      split <;> rfl
  have hcct := Mach.cct_modCct { s.mach with pend := s.mach.pend.filter (fun q => q.id != s.mach.arg 0), spoiled := sp } p.cc p.cc
    (fun c => c.setFlags k f)
  rw [if_pos rfl] at hcct
  refine ⟨_, ⟨hex, rfl, rfl, rfl⟩, ?_, fun n hn => ?_, rfl⟩
  · rw [State.mach_on, hcct, hset, if_pos rfl]; rfl
  · rw [State.mach_on, hcct, hset, if_neg hn]; rfl

/-- A vector register is written under its write mask (R190). -/
theorem resultWrite_vec {u col d : Nat} {v km : Wide} (hd : 64 ≤ d) (he : p.eff = .vec u col [(d, v, km)]) : ∃ t, s.Written t ∧
    t.mach.streams = s.mach.streams ∧ sget (t.mach.cct p.cc).vregs (u * 64 + (d - 64)) [] =
      wmerge 64 (sget (s.mach.cct p.cc).vregs (u * 64 + (d - 64)) []) v km ∧
    ∀ n, n ≠ u * 64 + (d - 64) → sget (t.mach.cct p.cc).vregs n [] = sget (s.mach.cct p.cc).vregs n [] := by
  obtain ⟨sp, hex⟩ := exec_resultWrite_found hp
  simp only [Mach.resultEff, he, List.foldl_cons, List.foldl_nil, if_pos hd, show ¬64 ≤ 0 by decide, if_false] at hex
  refine ⟨_, ⟨hex, rfl, rfl, rfl⟩, rfl, ?_, fun n hn => ?_⟩
  · rw [State.mach_on, Mach.cct_modCct, if_pos rfl]
    exact sget_sset_same ..
  · rw [State.mach_on, Mach.cct_modCct, if_pos rfl]
    exact sget_sset_ne _ _ _ hn

/-- A mask is written under its write mask (R192). -/
theorem resultWrite_mask {u k : Nat} {v km : Wide} (he : p.eff = .mask u k v km) : ∃ t, s.Written t ∧ t.mach.streams = s.mach.streams ∧
    sget (t.mach.cct p.cc).masks (u * 8 + k) [] = wmerge 16 (sget (s.mach.cct p.cc).masks (u * 8 + k) []) v km := by
  obtain ⟨sp, hex⟩ := exec_resultWrite_found hp
  simp only [Mach.resultEff, he] at hex
  refine ⟨_, ⟨hex, rfl, rfl, rfl⟩, rfl, ?_⟩
  rw [State.mach_on, Mach.cct_modCct, if_pos rfl]
  exact sget_sset_same ..

/-- A token is signalled (R44). -/
theorem resultWrite_sig {f : Nat} (he : p.eff = .sig f) : ∃ t, s.Written t ∧ t.mach.cct p.cc = (s.mach.cct p.cc).signal f ∧
    t.mach.streams = s.mach.streams := by
  obtain ⟨sp, hex⟩ := exec_resultWrite_found hp
  simp only [Mach.resultEff, Mach.tokenEff, he] at hex
  refine ⟨_, ⟨hex, rfl, rfl, rfl⟩, ?_, rfl⟩
  rw [State.mach_on, Mach.cct_modCct, if_pos rfl]
  rfl

end

/-! ### The bytes of an entry (R252, R460) -/

/-- Bits of data and mask past a byte do not matter. -/
theorem mixByte_mod (b : Byte) (data mask : Nat) : mixByte b (data % 256) (mask % 256) = mixByte b data mask := by
  simp only [mixByte, Nat.mod_mod]

/-- A byte that the mask leaves out stays. -/
theorem mixByte_zero (b : Byte) {mask : Nat} (data : Nat) (h : mask % 256 = 0) : mixByte b data mask = b := by
  apply BitVec.eq_of_toNat_eq
  have hand : b.toNat &&& 255 = b.toNat := (Nat.and_two_pow_sub_one_eq_mod b.toNat 8).trans (Nat.mod_eq_of_lt b.isLt)
  simp [mixByte, h, hand]

theorem SBEnt.mem_bytes {e : SBEnt} {b : Nat × Nat × Nat} : b ∈ e.bytes ↔ ∃ i, i < 64 ∧ e.mask / 256 ^ i % 256 ≠ 0 ∧
    b = (swz e.span (e.line + i), e.data / 256 ^ i % 256, e.mask / 256 ^ i % 256) := by
  simp only [SBEnt.bytes, List.mem_filterMap, List.mem_range, beq_iff_eq]
  refine exists_congr fun i => and_congr_right fun _ => ?_
  split
  next h => simp [h]
  next h => simp [h, eq_comm]

/-- An entry names each home once. -/
theorem SBEnt.nodup_bytes (e : SBEnt) : (e.bytes.map (fun b => b.1)).Nodup := by
  rw [SBEnt.bytes, List.map_filterMap]
  refine List.Nodup.filterMap (fun i j x hi hj => ?_) List.nodup_range
  have home {i : Nat} (h : x ∈ Option.map (fun b : Nat × Nat × Nat => b.1) (if (e.mask / 256 ^ i % 256 == 0) = true then none
      else some (swz e.span (e.line + i), e.data / 256 ^ i % 256, e.mask / 256 ^ i % 256))) : swz e.span (e.line + i) = x := by
    split at h
    · cases h
    · exact Option.some.inj h
  exact Nat.add_left_cancel (swz_inj ((home hi).trans (home hj).symm))

/-- An entry performed into what is read by homes: each bit that its mask covers takes the stored value, and no other byte changes. -/
theorem SBEnt.read_performed {σ : Type} {read : σ → Nat → Byte} {write : σ → Nat × Nat × Nat → σ}
    (law : ∀ s b x, read (write s b) x = if x = b.1 then mixByte (read s x) b.2.1 b.2.2 else read s x) (e : SBEnt) (s : σ) :
    (∀ i, i < 64 → read (e.bytes.foldl write s) (swz e.span (e.line + i)) =
      mixByte (read s (swz e.span (e.line + i))) (e.data / 256 ^ i) (e.mask / 256 ^ i)) ∧
    ∀ a, (∀ i, i < 64 → a ≠ swz e.span (e.line + i)) → read (e.bytes.foldl write s) a = read s a := by
  have keep {a : Nat} (ha : ∀ i, i < 64 → e.mask / 256 ^ i % 256 ≠ 0 → a ≠ swz e.span (e.line + i)) :
      read (e.bytes.foldl write s) a = read s a := by
    refine read_foldl_of_notMem (key := fun b => b.1) (val := fun b old => mixByte old b.2.1 b.2.2) law (fun hmem => ?_) s
    obtain ⟨b, hb, hba⟩ := List.mem_map.1 hmem
    obtain ⟨i, hi, hm, rfl⟩ := SBEnt.mem_bytes.1 hb
    exact ha i hi hm hba.symm
  refine ⟨fun i hi => ?_, fun a ha => keep (fun i hi _ => ha i hi)⟩
  by_cases hm : e.mask / 256 ^ i % 256 = 0
  · rw [mixByte_zero _ _ hm]
    refine keep (fun j _ hj heq => hj ?_)
    rw [← Nat.add_left_cancel (swz_inj heq)]
    exact hm
  · rw [← mixByte_mod]
    exact read_foldl_of_mem (key := fun b => b.1) (val := fun b old => mixByte old b.2.1 b.2.2) law e.nodup_bytes
      (SBEnt.mem_bytes.2 ⟨i, hi, hm, rfl⟩) s

/-! ### An entry leaves its buffer (R253, R315) -/

/-- Entries that leave a buffer leave the rest of it, and all else, as it stood. -/
theorem Mach.dropEntries_leaves (m : Mach) (now sid : Nat) (gone : SBEnt → Bool) :
    m.dropEntries now sid gone = { m with streams := (m.dropEntries now sid gone).streams } ∧
      ((m.dropEntries now sid gone).str sid).sb = (m.str sid).sb.filter (fun e => !gone e) := by
  refine ⟨rfl, ?_⟩
  rw [Mach.dropEntries, Mach.str_setStr, if_pos rfl]
  split <;> rfl

/-- A group's signals put in flight leave the store buffer, and all but streams and results in flight, as it stood. -/
theorem Mach.groupDone_leaves (m : Mach) (now sid grp : Nat) :
    (∃ st pe sq, m.groupDone now sid grp = { m with streams := st, pend := pe, seq := sq }) ∧
      ((m.groupDone now sid grp).str sid).sb = (m.str sid).sb := by
  unfold Mach.groupDone
  dsimp only
  split
  · exact ⟨⟨_, _, _, rfl⟩, rfl⟩
  · refine List.foldlRecOn (motive := fun n : Mach => (∃ st pe sq, n = { m with streams := st, pend := pe, seq := sq }) ∧
      (n.str sid).sb = (m.str sid).sb) _ _ ⟨⟨_, _, _, rfl⟩, by rw [Mach.str_modStr_same]⟩ (fun n hn x _ => ?_)
    obtain ⟨⟨st, pe, sq, rfl⟩, hsb⟩ := hn
    exact ⟨⟨_, _, _, rfl⟩, hsb⟩

/-- The machine that an entry has left, before its bytes are written. -/
def Mach.leftBy (m : Mach) (now sid : Nat) (e : SBEnt) : Mach :=
  (m.dropEntries now sid (fun o => o.seq == e.seq)).groupDone now sid e.grp

theorem Mach.leftBy_leaves (m : Mach) (now sid : Nat) (e : SBEnt) :
    (∃ st pe sq, m.leftBy now sid e = { m with streams := st, pend := pe, seq := sq }) ∧
      ((m.leftBy now sid e).str sid).sb = (m.str sid).sb.filter (fun o => o.seq != e.seq) := by
  obtain ⟨hdrop, hsb⟩ := m.dropEntries_leaves now sid (fun o => o.seq == e.seq)
  obtain ⟨⟨st, pe, sq, hdone⟩, hsb'⟩ := (m.dropEntries now sid (fun o => o.seq == e.seq)).groupDone_leaves now sid e.grp
  refine ⟨⟨st, pe, sq, ?_⟩, hsb'.trans hsb⟩
  rw [Mach.leftBy, hdone, hdrop]

/-! ### An entry performs (R251, R260) -/

section
variable {m : Mach} {now sid : Nat} {e : SBEnt}

/-- An entry of no registered region performs at its homes. -/
theorem Mach.performEntry_homes (hr : (m.ctx (m.job (m.str sid).job).cx).region e.pub = none) (hbad : m.homes.bad = []) :
    (∃ b, (m.performEntry now sid e).homes = { putBytes m.homes e.bytes with bad := b }) ∧
      (m.performEntry now sid e).streams = (m.leftBy now sid e).streams := by
  obtain ⟨⟨st, pe, sq, heq⟩, -⟩ := m.leftBy_leaves now sid e
  have hfold : (m.dropEntries now sid (fun o => o.seq == e.seq)).groupDone now sid e.grp = m.leftBy now sid e := rfl
  have hhomes : (m.leftBy now sid e).homes = m.homes := by rw [heq]
  have hr' : ((m.leftBy now sid e).ctx (m.job (m.str sid).job).cx).region e.pub = none := by rw [heq]; exact hr
  have hdrop : (eccTouched e.bytes).filter (fun w => m.homes.bad.contains w) = [] := by simp [hbad]
  rw [Mach.performEntry]
  simp only [hfold, hr', hhomes, hdrop, List.filter_nil, List.contains_nil, Bool.not_false, List.filter_true]
  rw [Mach.touched_rest]
  exact ⟨⟨_, rfl⟩, rfl⟩

/-- One byte of an entry stored into its region's draft (R53, R260). -/
def Mach.storeDraft (cx job : Nat) (tag : Option Nat) (pub : Nat) (m : Mach) (b : Nat × Nat × Nat) : Mach :=
  (m.saveDraft job tag pub b.1).modRegion cx pub (fun r => r.store (m.saveDraft job tag pub b.1).homes job b.1
    (mixByte (r.draftByte (m.saveDraft job tag pub b.1).homes b.1) b.2.1 b.2.2))

/-- A byte of an entry as a region's draft takes it. -/
def Region.takes (h : Homes) (job : Nat) (r : Region) (b : Nat × Nat × Nat) : Region :=
  r.store h job b.1 (mixByte (r.draftByte h b.1) b.2.1 b.2.2)

theorem Region.draftByte_takes (h : Homes) (job : Nat) (r : Region) (b : Nat × Nat × Nat) (x : Nat) :
    (r.takes h job b).draftByte h x = if x = b.1 then mixByte (r.draftByte h x) b.2.1 b.2.2 else r.draftByte h x := by
  rw [Region.takes, Region.draftByte_store]
  split
  next hx => rw [hx]
  · rfl

/-- Bytes stored into a draft, one after another, reach that region and no home. -/
theorem Mach.storeDrafts_leaves (cx job : Nat) (tag : Option Nat) (pub : Nat) (bs : List (Nat × Nat × Nat)) :
    ∀ {m : Mach} {r : Region}, (m.ctx cx).region pub = some r →
      (bs.foldl (Mach.storeDraft cx job tag pub) m).homes = m.homes ∧ (bs.foldl (Mach.storeDraft cx job tag pub) m).streams = m.streams ∧
      ((bs.foldl (Mach.storeDraft cx job tag pub) m).ctx cx).region pub = some (bs.foldl (Region.takes m.homes job) r) := by
  induction bs with
  | nil => exact fun hr => ⟨rfl, rfl, hr⟩
  | cons b bs ih =>
    intro m r hr
    have hsave : (m.saveDraft job tag pub b.1).homes = m.homes ∧ (m.saveDraft job tag pub b.1).streams = m.streams ∧
        (m.saveDraft job tag pub b.1).ctxs = m.ctxs := by cases tag <;> exact ⟨rfl, rfl, rfl⟩
    obtain ⟨hh, hst, hc⟩ := hsave
    have hone : ((Mach.storeDraft cx job tag pub m b).ctx cx).region pub = some (r.takes m.homes job b) := by
      rw [Mach.storeDraft, hh]
      exact Mach.region_modRegion (f := fun r => r.takes m.homes job b) (by rw [Mach.ctx_congr hc]; exact hr) (fun _ => rfl)
    obtain ⟨ihh, ihs, ihr⟩ := ih hone
    have hhome : (Mach.storeDraft cx job tag pub m b).homes = m.homes := hh
    rw [hhome] at ihh ihr
    exact ⟨ihh, ihs.trans hst, ihr⟩

/-- An entry of a registered region goes into its draft. -/
theorem Mach.performEntry_draft {r : Region} (hr : (m.ctx (m.job (m.str sid).job).cx).region e.pub = some r) :
    (m.performEntry now sid e).homes = m.homes ∧ (m.performEntry now sid e).streams = (m.leftBy now sid e).streams ∧
    ((m.performEntry now sid e).ctx (m.job (m.str sid).job).cx).region e.pub =
      some (e.bytes.foldl (Region.takes m.homes (m.str sid).job) r) := by
  obtain ⟨⟨st, pe, sq, heq⟩, -⟩ := m.leftBy_leaves now sid e
  have hfold : (m.dropEntries now sid (fun o => o.seq == e.seq)).groupDone now sid e.grp = m.leftBy now sid e := rfl
  have hhomes : (m.leftBy now sid e).homes = m.homes := by rw [heq]
  have hr' : ((m.leftBy now sid e).ctx (m.job (m.str sid).job).cx).region e.pub = some r := by rw [heq]; exact hr
  have hperf : m.performEntry now sid e =
      e.bytes.foldl (Mach.storeDraft (m.job (m.str sid).job).cx (m.str sid).job e.tag e.pub) (m.leftBy now sid e) := by
    rw [Mach.performEntry]
    simp only [hfold, hr']
    rfl
  rw [hperf, ← hhomes]
  exact Mach.storeDrafts_leaves _ _ _ _ _ hr'

end

/-! ### STORE_BUFFER_DRAIN (R251, R253) -/

section
variable {s : State} {e : SBEnt} {sid : Nat} (harg : s.mach.arg 0 = sid) (he : (s.mach.str sid).sb.find? (fun e => e.seq == s.mach.arg 1) = some e)
include harg he

/-- An entry that may not perform yet waits on. -/
theorem storeBufferDrain_waits (h : s.mach.mayDrain s.now sid e = false) : ∃ t tick, exec .storeBufferDrain s = .next t ∧
    t.mach.streams = s.mach.streams ∧ t.mach.homes = s.mach.homes ∧ s.now < tick ∧ (tick, .storeBufferDrain, [sid, e.seq]) ∈ t.mach.agenda := by
  have hex : exec .storeBufferDrain s = .next (s.on ((s.mach.draw.2).at (s.now + 1 + Config.delayTicks s.mach.draw.1) .storeBufferDrain [sid, e.seq])) := by
    rw [exec_storeBufferDrain, execStoreBufferDrain, onMach]
    simp only [harg, he, h, Bool.not_false, if_true]
    rfl
  exact ⟨_, _, hex, rfl, rfl, by omega, mem_agendaAdd ..⟩

variable (h : s.mach.mayDrain s.now sid e = true)
include h

/-- An entry behind a store of a lower port in its bank cycle goes after it (R251). -/
theorem storeBufferDrain_behind {tick : Nat} (hfirst : s.mach.portFirst s.now (cxPart (s.mach.job (s.mach.str sid).job).cx)
      (s.mach.portOf (cxPart (s.mach.job (s.mach.str sid).job).cx) (s.mach.str sid).sel e.line) (e.bytes.map (fun b => b.1)) = some tick) :
    ∃ t, exec .storeBufferDrain s = .next t ∧ t.mach.streams = s.mach.streams ∧ t.mach.homes = s.mach.homes ∧
      (tick, .storeBufferDrain, [sid, e.seq]) ∈ t.mach.agenda := by
  have hex : exec .storeBufferDrain s = .next (s.on (s.mach.at tick .storeBufferDrain [sid, e.seq])) := by
    rw [exec_storeBufferDrain, execStoreBufferDrain, onMach]
    simp only [harg, he, h, Bool.not_true, Bool.false_eq_true, if_false, hfirst]
    rfl
  exact ⟨_, hex, rfl, rfl, mem_agendaAdd ..⟩

variable (hfirst : s.mach.portFirst s.now (cxPart (s.mach.job (s.mach.str sid).job).cx)
  (s.mach.portOf (cxPart (s.mach.job (s.mach.str sid).job).cx) (s.mach.str sid).sel e.line) (e.bytes.map (fun b => b.1)) = none)
include hfirst

/-- An entry that nothing must perform before performs. -/
theorem exec_storeBufferDrain_performs : exec .storeBufferDrain s = .next (s.on (s.mach.performEntry s.now sid e)) := by
  rw [exec_storeBufferDrain, execStoreBufferDrain, onMach]
  simp only [harg, he, h, Bool.not_true, Bool.false_eq_true, if_false, hfirst]
  rfl

theorem storeBufferDrain_homes (hr : (s.mach.ctx (s.mach.job (s.mach.str sid).job).cx).region e.pub = none) (hbad : s.mach.homes.bad = []) :
    ∃ t, exec .storeBufferDrain s = .next t ∧ t.now = s.now ∧ (t.mach.str sid).sb = (s.mach.str sid).sb.filter (fun o => o.seq != e.seq) ∧
      (∀ i, i < 64 → homeByte t.mach.homes (swz e.span (e.line + i)) =
        mixByte (homeByte s.mach.homes (swz e.span (e.line + i))) (e.data / 256 ^ i) (e.mask / 256 ^ i)) ∧
      ∀ a, (∀ i, i < 64 → a ≠ swz e.span (e.line + i)) → homeByte t.mach.homes a = homeByte s.mach.homes a := by
  obtain ⟨⟨b, hhomes⟩, hstr⟩ := Mach.performEntry_homes (now := s.now) hr hbad
  obtain ⟨-, hsb⟩ := s.mach.leftBy_leaves s.now sid e
  have hbyte (a : Nat) : homeByte (s.on (s.mach.performEntry s.now sid e)).mach.homes a = homeByte (putBytes s.mach.homes e.bytes) a := by
    rw [State.mach_on, hhomes]
    rfl
  obtain ⟨hin, hout⟩ := e.read_performed (read := homeByte) (fun h b x => homeByte_mixed h b.1 x (fun o => mixByte o b.2.1 b.2.2)) s.mach.homes
  refine ⟨_, exec_storeBufferDrain_performs harg he h hfirst, rfl, ?_, fun i hi => (hbyte _).trans (hin i hi), fun a ha => (hbyte a).trans (hout a ha)⟩
  rw [State.mach_on, Mach.str_congr hstr, hsb]

theorem storeBufferDrain_draft {r : Region} (hr : (s.mach.ctx (s.mach.job (s.mach.str sid).job).cx).region e.pub = some r) :
    ∃ t r', exec .storeBufferDrain s = .next t ∧ t.mach.homes = s.mach.homes ∧
      (t.mach.str sid).sb = (s.mach.str sid).sb.filter (fun o => o.seq != e.seq) ∧
      (t.mach.ctx (s.mach.job (s.mach.str sid).job).cx).region e.pub = some r' ∧
      ∀ i, i < 64 → r'.draftByte s.mach.homes (swz e.span (e.line + i)) =
        mixByte (r.draftByte s.mach.homes (swz e.span (e.line + i))) (e.data / 256 ^ i) (e.mask / 256 ^ i) := by
  obtain ⟨hhomes, hstr, hreg⟩ := Mach.performEntry_draft (now := s.now) hr
  obtain ⟨-, hsb⟩ := s.mach.leftBy_leaves s.now sid e
  obtain ⟨hin, -⟩ := e.read_performed (read := fun r x => Region.draftByte r s.mach.homes x)
    (Region.draftByte_takes s.mach.homes (s.mach.str sid).job) r
  refine ⟨_, _, exec_storeBufferDrain_performs harg he h hfirst, hhomes, ?_, hreg, hin⟩
  rw [State.mach_on, Mach.str_congr hstr, hsb]

end

/-- Settles O44: a result by its kind, an entry by what may stand before it and by where it performs. -/
theorem resultsAreWritten : Obligations.ResultsAreWritten := by
  unfold Obligations.ResultsAreWritten
  refine ⟨fun s p hp => ⟨fun d v he => resultWrite_reg hp he, fun d w hs mark v he => resultWrite_regAcq hp he,
    fun k v he hk => resultWrite_creg hp he hk, fun k f he => resultWrite_flags hp he, fun u col d v km hd he => resultWrite_vec hp hd he,
    fun u k v km he => resultWrite_mask hp he, fun f he => resultWrite_sig hp he⟩, ?_⟩
  intro s e sid x cx he
  refine ⟨fun h => ?_, storeBufferDrain_waits rfl he⟩
  exact ⟨fun tick hfirst => storeBufferDrain_behind rfl he h hfirst, fun hfirst hr hbad => storeBufferDrain_homes rfl he h hfirst hr hbad,
    fun hfirst r hr => storeBufferDrain_draft rfl he h hfirst hr⟩

end Sys2Proof.Machine

/-! PROOFS. Atomics: what one leaves at its home, the way to its turn, its reply and its log (R266 to R271, R281, R284, R289). -/

namespace Sys2Proof.Machine

/-! ### Bytes of a number (R4) -/

theorem leNat_lt (bs : List Byte) : leNat bs < 256 ^ bs.length := by
  induction bs with
  | nil => decide
  | cons b t ih =>
    have hb := b.isLt
    rw [leNat, List.foldr_cons, List.length_cons, Nat.pow_succ]
    unfold leNat at ih
    omega

/-- Bytes are those of their number. -/
theorem leBytes_leNat (bs : List Byte) : leBytes bs.length (leNat bs) = bs := by
  induction bs with
  | nil => rfl
  | cons b t ih =>
    have hnum : leNat (b :: t) = b.toNat + 256 * leNat t := rfl
    have hlow : BitVec.ofNat 8 (b.toNat + 256 * leNat t) = b := by
      apply BitVec.eq_of_toNat_eq
      have hb := b.isLt
      rw [BitVec.toNat_ofNat]
      omega
    have hhigh (i : Nat) : (b.toNat + 256 * leNat t) / 256 ^ (i + 1) = leNat t / 256 ^ i := by
      have hb := b.isLt
      rw [Nat.pow_succ', ← Nat.div_div_eq_div_mul]
      congr 1
      omega
    conv_rhs => rw [← ih]
    simp only [leBytes, hnum, List.length_cons, List.range_succ_eq_map, List.map_cons, List.map_map, Function.comp_def, Nat.succ_eq_add_one, hhigh,
      Nat.pow_zero, Nat.div_one, hlow]

@[simp] theorem leBytes_length (n v : Nat) : (leBytes n v).length = n := by simp [leBytes]
@[simp] theorem homeRead_length (h : Homes) (a n : Nat) : (homeRead h a n).length = n := by simp [homeRead]

/-- What was written at a home reads back. -/
theorem homeRead_homeWrite (h : Homes) (a : Nat) (bs : List Byte) : homeRead (homeWrite h a bs) a bs.length = bs := by
  refine List.ext_getElem (by simp) fun i hi _ => ?_
  have hlt : i < bs.length := by simpa using hi
  simp [homeRead, homeByte_homeWrite, hlt]

/-! ### The value of an atomic (R281) -/

/-- The value an atomic writes, and where it writes none the value there, is that of its operation at its width. -/
theorem amoNew_eq_atomicResult (op : AOp) {w64 : Bool} {n : Nat} (hn : (if w64 then 64 else 32) = n) (old x cmp : Word) :
    (amoNew op w64 old x cmp).elim (old.toNat % 2 ^ n) BitVec.toNat =
      (atomicResult op n (old.setWidth n) (x.setWidth n) (cmp.setWidth n)).toNat := by
  have hle : 2 ^ n ≤ 2 ^ 64 := Nat.pow_le_pow_right (by decide) (by rw [← hn]; split <;> decide)
  have hlt (v : Nat) : v % 2 ^ n < 2 ^ 64 := Nat.lt_of_lt_of_le (Nat.mod_lt _ (Nat.two_pow_pos n)) hle
  have hwd {v : Nat} (h : v < 2 ^ 64) : (wd v).toNat = v := by rw [wd, BitVec.toNat_ofNat, Nat.mod_eq_of_lt h]
  have hint (v : Word) : sInt n (v.toNat % 2 ^ n) = (v.setWidth n).toInt := by
    rw [sInt_eq_toInt]
    congr 1
    exact BitVec.eq_of_toNat_eq (by simp)
  unfold amoNew
  rw [hn]
  have ho := hlt old.toNat
  have hx := hlt x.toNat
  cases op <;> simp only [Option.elim, atomicResult, hint]
  case add => rw [hwd (hlt _)]; simp
  case and => rw [hwd (Nat.and_lt_two_pow _ hx)]; simp
  case or => rw [hwd (Nat.or_lt_two_pow ho hx)]; simp
  case xor => rw [hwd (Nat.xor_lt_two_pow ho hx)]; simp
  case min => split <;> simp [hwd ho, hwd hx]
  case max => split <;> simp [hwd ho, hwd hx]
  case minn =>
    simp only [BitVec.toNat_setWidth]
    rw [hwd (Nat.lt_of_le_of_lt (Nat.min_le_left ..) ho)]
    split <;> simp <;> omega
  case maxn =>
    simp only [BitVec.toNat_setWidth]
    rw [hwd (Nat.max_lt.2 ⟨ho, hx⟩)]
    split <;> simp <;> omega
  case swap => rw [hwd hx]; simp
  case cas =>
    have hiff : (old.toNat % 2 ^ n == cmp.toNat % 2 ^ n) = true ↔ old.setWidth n = cmp.setWidth n := by
      rw [beq_iff_eq, ← BitVec.toNat_inj, BitVec.toNat_setWidth, BitVec.toNat_setWidth]
    by_cases h : old.setWidth n = cmp.setWidth n
    · simp only [if_pos h, if_pos (hiff.2 h), hwd hx, BitVec.toNat_setWidth]
    · simp only [if_neg h, if_neg (mt hiff.1 h), BitVec.toNat_setWidth]

/-! ### An atomic performs at its home (R268, R281) -/

/-- The homes that an atomic of no packet leaves. -/
def Atom.written (a : Atom) (h : Homes) : Homes :=
  match a.form with
  | 1 => h
  | 2 => homeWrite h a.home (leBytes a.bytes a.opnd.toNat)
  | _ => match amoNew a.op a.w64 (wd (leNat (homeRead h a.home a.bytes))) a.opnd a.cmp with
    | some v => homeWrite h a.home (leBytes a.bytes v.toNat)
    | none => h

theorem Mach.atomPerform_homes {m : Mach} {a : Atom} (hred : a.red = none) (hsource : a.source = none) :
    (m.atomPerform a).homes = a.written m.homes := by
  have hdirty (n : Mach) : (if a.form == 1 then n else n.touched a.cx a.homes).homes = n.homes := by
    split
    · rfl
    · exact Mach.touched_homes ..
  simp only [Mach.atomPerform, hred, hsource, Mach.modAtom, hdirty, Atom.written]
  clear hdirty
  generalize a.form = f
  match f with
  | 1 | 2 => rfl
  | 0 | _ + 3 => cases amoNew a.op a.w64 (wd (leNat (homeRead m.homes a.home a.bytes))) a.opnd a.cmp <;> rfl

/-- Bytes written over all of an atomic's leave every other byte. -/
theorem homeByte_homeWrite_outside {h : Homes} {a x : Nat} {bs : List Byte} (hx : ¬(a ≤ x ∧ x < a + bs.length)) :
    homeByte (homeWrite h a bs) x = homeByte h x := by
  rw [homeByte_homeWrite, if_neg hx]

/-- An atomic leaves at its home what its operation makes of what it finds, and every other byte. -/
theorem Atom.written_performed (a : Atom) (h : Homes) (hform : a.form < 3) :
    homeRead (a.written h) a.home a.bytes = a.after (homeRead h a.home a.bytes) ∧
      ∀ x, ¬(a.home ≤ x ∧ x < a.home + a.bytes) → homeByte (a.written h) x = homeByte h x := by
  have hput (v : Nat) : homeRead (homeWrite h a.home (leBytes a.bytes v)) a.home a.bytes = leBytes a.bytes v ∧
      ∀ x, ¬(a.home ≤ x ∧ x < a.home + a.bytes) → homeByte (homeWrite h a.home (leBytes a.bytes v)) x = homeByte h x := by
    have hread := homeRead_homeWrite h a.home (leBytes a.bytes v)
    rw [leBytes_length] at hread
    exact ⟨hread, fun x hx => homeByte_homeWrite_outside (by rwa [leBytes_length])⟩
  have hcases : a.form = 1 ∨ a.form = 2 ∨ a.form = 0 := by omega
  rcases hcases with h1 | h2 | h0
  · simp [Atom.written, Atom.after, h1]
  · simp only [Atom.written, Atom.after, h2]
    exact hput _
  · have hw : (if a.w64 then 64 else 32) = 8 * a.bytes := by rw [Atom.bytes]; split <;> rfl
    have hnum : leNat (homeRead h a.home a.bytes) < 2 ^ (8 * a.bytes) := by
      have hlt := leNat_lt (homeRead h a.home a.bytes)
      rw [homeRead_length] at hlt
      rwa [Nat.pow_mul]
    have hle : 2 ^ (8 * a.bytes) ≤ 2 ^ 64 := Nat.pow_le_pow_right (by decide) (by rw [Atom.bytes]; split <;> decide)
    have hold : (wd (leNat (homeRead h a.home a.bytes))).toNat = leNat (homeRead h a.home a.bytes) := by
      rw [wd, BitVec.toNat_ofNat, Nat.mod_eq_of_lt (Nat.lt_of_lt_of_le hnum hle)]
    have hset : (wd (leNat (homeRead h a.home a.bytes))).setWidth (8 * a.bytes) = BitVec.ofNat (8 * a.bytes) (leNat (homeRead h a.home a.bytes)) :=
      BitVec.eq_of_toNat_eq (by rw [BitVec.toNat_setWidth, hold, BitVec.toNat_ofNat])
    have hres := amoNew_eq_atomicResult a.op hw (wd (leNat (homeRead h a.home a.bytes))) a.opnd a.cmp
    rw [hset, hold, Nat.mod_eq_of_lt hnum] at hres
    simp only [Atom.written, Atom.after, h0]
    rw [if_neg (by decide), if_neg (by decide), ← hres]
    cases amoNew a.op a.w64 (wd (leNat (homeRead h a.home a.bytes))) a.opnd a.cmp with
    | some v => exact hput _
    | none =>
      have hback := leBytes_leNat (homeRead h a.home a.bytes)
      rw [homeRead_length] at hback
      exact ⟨hback.symm, fun _ _ => rfl⟩

/-- Words with one wrong bit are corrected in what is read, not in memory (R80). -/
theorem Mach.soft_homes (m : Mach) (cx : Nat) (hs : List Nat) : (m.soft cx hs).homes = m.homes := by
  unfold Mach.soft Mach.softWords
  exact List.foldlRecOn (motive := fun n : Mach => n.homes = m.homes) _ _ rfl (fun n hn w _ => hn)

theorem Mach.endAtom_homes (m : Mach) (a : Atom) : (m.endAtom a).homes = m.homes := by
  rw [Mach.endAtom]
  split <;> rfl

theorem Mach.sendReply_homes (m : Mach) (t : Nat) (a : Atom) : (m.sendReply t a).homes = m.homes := by
  unfold Mach.sendReply
  extract_lets st
  split
  · rfl
  · split <;> rfl

/-- No byte of a range is in a bad word. -/
theorem badIn_byte {h : Homes} {a n i : Nat} (hbad : badIn h a n = false) (hi : i < n) : badIn h (a + i) 1 = false := by
  rw [badIn, List.any_eq_false] at hbad ⊢
  intro w hw hword
  simp only [Bool.and_eq_true, decide_eq_true_eq] at hword
  obtain ⟨⟨hlo, hhi⟩, -⟩ := hword
  refine hbad w hw ?_
  simp only [Bool.and_eq_true, decide_eq_true_eq]
  omega

section
variable {m : Mach} {a : Atom} (hdone : a.done = none) (hsource : a.source = none) (hred : a.red = none)
  (hbad : badIn m.homes a.home a.bytes = false) (hform : a.form < 3)
include hdone hsource hred hbad hform

/-- An atomic that reaches its turn performs once at its home. -/
theorem Mach.atomServe_performed (now t : Nat) : m.Performed (m.atomServe now a t) a := by
  have hgood : a.homes.find? (fun h => badIn m.homes h 1) = none := by
    rw [Atom.homes, hred]
    refine List.find?_eq_none.2 fun x hx => ?_
    obtain ⟨i, hi, rfl⟩ := List.mem_map.1 hx
    rw [badIn_byte hbad (List.mem_range.1 hi)]
    decide
  have hhomes : (m.atomServe now a t).homes = a.written m.homes := by
    have hperf : ((m.soft a.cx a.homes).atomPerform a).homes = a.written m.homes := by
      rw [Mach.atomPerform_homes hred hsource, Mach.soft_homes]
    unfold Mach.atomServe
    simp only [hdone, hsource, hgood, hred, Option.isSome_none, Bool.false_eq_true, if_false]
    split
    · rw [Mach.endAtom_homes, hperf]
    · rw [Mach.sendReply_homes, hperf]
  rw [Mach.Performed, hhomes]
  exact a.written_performed m.homes hform

end

/-! ### Atomics in flight -/

/-- An atomic found has the number it was sought by. -/
theorem Mach.atom?_id {m : Mach} {id : Nat} {a : Atom} (h : m.atom? id = some a) : a.id = id :=
  eq_of_beq (List.find?_some (p := fun a : Atom => a.id == id) h)

theorem Mach.atom?_own {m : Mach} {id : Nat} {a : Atom} (h : m.atom? id = some a) : m.atom? a.id = some a := by
  rw [Mach.atom?_id h, h]

/-- An atomic changed in place is found as changed. -/
theorem Mach.atom?_modAtom {m : Mach} {id : Nat} {a : Atom} {f : Atom → Atom} (h : m.atom? id = some a) (hf : ∀ b, (f b).id = b.id) :
    (m.modAtom id f).atom? id = some (f a) := by
  have hkey (b : Atom) : ((if b.id == id then f b else b).id == id) = (b.id == id) := by split <;> simp [hf]
  unfold Mach.atom? at h
  simp only [Mach.atom?, Mach.modAtom, List.find?_map, Function.comp_def, hkey, h, Option.map_some]
  rw [Mach.atom?_id h, beq_self_eq_true, if_pos rfl]

theorem Mach.atom?_dropAtom (m : Mach) (id : Nat) : (m.dropAtom id).atom? id = none := by
  simp [Mach.atom?, Mach.dropAtom]

/-! ### Slots of a bank (R271) -/

/-- An atomic given a slot moves only what stands in the agenda. -/
theorem Mach.giveSlotN_agenda (fuel : Nat) (m : Mach) (a : Atom) (cyc : Nat) :
    m.giveSlotN fuel a cyc = { m with agenda := (m.giveSlotN fuel a cyc).agenda } := by
  induction fuel generalizing m a cyc with
  | zero => rfl
  | succ fuel ih =>
    rw [Mach.giveSlotN]
    split
    · rfl
    next j hj =>
      extract_lets out n
      have hn : n = { m with agenda := n.agenda } := by
        have hout : out.foldl (fun (m : Mach) b => m.unplace b j) m = { m with agenda := (out.foldl (fun (m : Mach) b => m.unplace b j) m).agenda } :=
          List.foldlRecOn (motive := fun q : Mach => q = { m with agenda := q.agenda }) _ _ rfl (fun q hq b _ => by rw [hq]; rfl)
        show Mach.atFirst _ _ _ _ = _
        rw [hout]
        rfl
      exact List.foldlRecOn (motive := fun q : Mach => q = { m with agenda := q.agenda }) _ _ hn (fun q hq b _ => by rw [ih q, hq])

/-- Where no atomic has a slot and no sequentially consistent one waits, no slot is taken. -/
theorem Mach.claims_nil {m : Mach} (h : m.agenda.all (fun e => e.2.1 != .atomicSlotServe && e.2.1 != .scEffect) = true) (a : Atom) (j : Nat) :
    m.claims a j = [] := by
  refine List.filterMap_eq_nil_iff.2 fun e he => ?_
  have hkind := List.all_eq_true.1 h e he
  rw [Bool.and_eq_true, bne_iff_ne, bne_iff_ne] at hkind
  obtain ⟨hslot, hsc⟩ := hkind
  split
  · rfl
  · split
    · rfl
    · rw [if_neg (by simp [hslot]), if_neg (by simp [hsc])]

/-- An atomic that nothing stands before is given a slot, or asks again. -/
theorem Mach.giveSlot_placed {m : Mach} (h : m.agenda.all (fun e => e.2.1 != .atomicSlotServe && e.2.1 != .scEffect) = true) (a : Atom) (cyc : Nat) :
    ∃ tick k, (tick, .atomicSlotServe, [a.id, k]) ∈ (m.giveSlot a cyc).agenda := by
  rw [Mach.giveSlot, Mach.giveSlotN]
  split
  · exact ⟨_, 0, mem_agendaAdd ..⟩
  next j hj =>
    rw [Mach.claims_nil h]
    exact ⟨m.slotTick a j, 1, List.mem_append_right _ List.mem_cons_self⟩

/-! ### The events of an atomic -/

theorem Mach.endAtom_streams (m : Mach) (a : Atom) : (m.endAtom a).streams = m.streams := by
  rw [Mach.endAtom]
  split <;> rfl

/-- The machine as an atomic's reply comes to its stream: what was still to come from the host is no longer awaited, and the load or
atomic of a sequentially consistent operation refreshes (R279, R283, R288). -/
def Mach.answered (m : Mach) (a : Atom) : Mach :=
  let m := m.endAtom a
  let m := if isHost a.home then m.endHostWait a.sid else m
  if a.sc && a.form != 2 then m.refresh a.sid else m

/-- Its stream is as it was but for its snapshot. -/
theorem Mach.answered_str (m : Mach) (a : Atom) : ∃ h, (m.answered a).str a.sid = { m.str a.sid with snap := h } := by
  unfold Mach.answered
  extract_lets n q
  have hq : q.str a.sid = m.str a.sid := by
    refine Eq.trans ?_ (Mach.str_congr (m.endAtom_streams a) a.sid)
    show (if _ then _ else _ : Mach).str a.sid = _
    split <;> rfl
  split
  · exact ⟨_, by rw [Mach.refresh, Mach.str_modStr_same, hq]⟩
  · exact ⟨_, hq⟩

/-- A request sent again by its way, a sequentially consistent one not (R289). -/
def Mach.resent (m : Mach) (now : Nat) (a : Atom) : Mach :=
  let m := m.modAtom a.id (fun b => { b with resends := b.resends + 1 })
  let go : Instr → List Nat → Mach := fun e l => if a.mbox.isSome then m.after now 0 e l else m.sendHome now a.sid a.home 0 e l
  if a.sc then m else if a.place ≤ 1 then go .atomicSlotServe [a.id, 0] else go .atomicUnitServe [a.id]

theorem Mach.resent_leaves (m : Mach) (now : Nat) (a : Atom) :
    (m.resent now a).atoms = (m.modAtom a.id (fun b => { b with resends := b.resends + 1 })).atoms ∧ (m.resent now a).homes = m.homes := by
  unfold Mach.resent
  extract_lets n go
  have hgo (e : Instr) (l : List Nat) : (go e l).atoms = n.atoms ∧ (go e l).homes = m.homes := by
    show (if _ then _ else _ : Mach).atoms = _ ∧ (if _ then _ else _ : Mach).homes = _
    cases a.mbox <;> exact ⟨rfl, rfl⟩
  split
  · exact ⟨rfl, rfl⟩
  · split <;> exact hgo ..

section
variable {s : State} {a : Atom} (ha : s.mach.atom? (s.mach.arg 0) = some a)
include ha

theorem exec_atomicUnitServe_host (hhost : isHost a.home = true) :
    exec .atomicUnitServe s = .next (s.on (s.mach.atomServe s.now a s.now)) := by
  rw [exec_atomicUnitServe, execAtomicUnitServe, onMach]
  simp only [ha, hhost, if_true]
  rfl

/-- A request that arrives at a unit is accepted there in a later cycle. -/
theorem exec_atomicUnitServe_arrives (hhost : isHost a.home = false) (hev : s.mach.ev.length = 1) :
    exec .atomicUnitServe s = .next (s.on (s.mach.at ((s.now / 48 + 1) * 48) .atomicUnitServe [a.id, s.now / 48])) := by
  rw [exec_atomicUnitServe, execAtomicUnitServe, onMach]
  simp only [ha, hhost, hev, beq_self_eq_true, Bool.false_eq_true, if_false, if_true]
  rfl

/-- A request is accepted where its unit has accepted none in this cycle and none stands before it. -/
theorem exec_atomicUnitServe_accepted (hhost : isHost a.home = false) (hev : s.mach.ev.length ≠ 1)
    (hunit : sget s.mach.units (placeOf a.place a.home) 0 ≠ s.now / 48 + 1)
    (hfirst : s.mach.agenda.find? (fun e => s.mach.unitBefore e (placeOf a.place a.home) (s.mach.arg 1) (s.mach.atomPort a) a.id) = none) :
    exec .atomicUnitServe s = .next (s.on
      (Mach.atomServe { s.mach with units := sset s.mach.units (placeOf a.place a.home) (s.now / 48 + 1) } s.now a s.now)) := by
  have hunit' : (sget s.mach.units (placeOf a.place a.home) 0 == s.now / Config.fixedPeriod + 1) = false := beq_eq_false_iff_ne.2 hunit
  rw [exec_atomicUnitServe, execAtomicUnitServe, onMach]
  simp only [ha, hhost, beq_eq_false_iff_ne.2 hev, hunit', hfirst, Bool.false_eq_true, if_false]
  rfl

theorem exec_atomicSlotServe_served (harg : s.mach.arg 1 ≠ 0) :
    exec .atomicSlotServe s = .next (s.on (s.mach.atomServe s.now a (s.mach.slotDone s.now a))) := by
  rw [exec_atomicSlotServe, execAtomicSlotServe, onMach]
  simp only [ha, beq_eq_false_iff_ne.2 harg, Bool.false_eq_true, if_false]
  rfl

theorem exec_atomicSlotServe_arrives (harg : s.mach.arg 1 = 0) :
    exec .atomicSlotServe s = .next (s.on (s.mach.giveSlot a (s.mach.bankCycle (cxPart a.cx) a.home s.now))) := by
  rw [exec_atomicSlotServe, execAtomicSlotServe, onMach]
  simp only [ha, harg, beq_self_eq_true, if_true]
  rfl

/-- A sequentially consistent operation in its slot performs as it stands, whatever place it takes in the total order. -/
theorem exec_scEffect_served (harg : s.mach.arg 3 = 1) : ∃ p, exec .scEffect s = .next (s.on
    ((s.mach.scArrive s.now a).atomServe s.now { a with point := p } ((s.mach.scArrive s.now a).slotDone s.now { a with point := p }))) := by
  have harr : ∃ p, ((s.mach.scArrive s.now a).atom? a.id).getD a = { a with point := p } := by
    rw [Mach.scArrive]
    split
    · rw [Mach.atom?_modAtom (Mach.atom?_own ha) (by intro _; rfl)]
      exact ⟨_, rfl⟩
    · exact ⟨a.point, congrArg (·.getD a) (Mach.atom?_own ha)⟩
  obtain ⟨p, hp⟩ := harr
  have harg' : (s.mach.scArrive s.now a).arg 3 = 1 := by
    rw [Mach.scArrive]
    split <;> exact harg
  refine ⟨p, ?_⟩
  rw [exec_scEffect, execScEffect, onMach]
  simp only [ha, hp, harg', beq_self_eq_true, if_true]
  rfl

section
variable (harg : s.mach.arg 3 ≠ 1) (hdone : a.done = none) (hpoint : a.point ≠ scFar)
include harg hdone hpoint

/-- A sequentially consistent operation waits for its release half and for what stands before it in the total order (R267). -/
theorem exec_scEffect_waits (hwait : (s.mach.arg 1 ≠ 0 ∧ (s.mach.str a.sid).drained (cxPart a.cx) (s.mach.arg 1) (s.mach.arg 2) = false) ∨
      s.mach.atoms.any (fun b => b.sc && b.done.isNone && b.point < a.point) = true) :
    exec .scEffect s = .next (s.on (s.mach.at (s.now + 21) .scEffect s.mach.ev)) := by
  have harr : s.mach.scArrive s.now a = s.mach := if_neg (by simpa using hpoint)
  have hwait' : (s.mach.arg 1 != 0 && !(s.mach.str a.sid).drained (cxPart a.cx) (s.mach.arg 1) (s.mach.arg 2) ||
      s.mach.atoms.any (fun b => b.sc && b.done.isNone && decide (b.point < a.point))) = true := by
    simpa only [Bool.or_eq_true, Bool.and_eq_true, bne_iff_ne, Bool.not_eq_true'] using hwait
  rw [exec_scEffect, execScEffect, onMach]
  simp only [ha, harr, Mach.atom?_id ha, Option.getD_some, beq_eq_false_iff_ne.2 harg, hdone, Option.isSome_none, hwait', Bool.false_eq_true,
    if_false, if_true]
  rfl

/-- One that waits for nothing takes its turn at its unit. -/
theorem exec_scEffect_unit (hwait : ¬((s.mach.arg 1 ≠ 0 ∧ (s.mach.str a.sid).drained (cxPart a.cx) (s.mach.arg 1) (s.mach.arg 2) = false) ∨
      s.mach.atoms.any (fun b => b.sc && b.done.isNone && b.point < a.point) = true)) (hplace : 2 ≤ a.place) :
    exec .scEffect s = .next (s.on (s.mach.at s.now .atomicUnitServe [a.id])) := by
  have harr : s.mach.scArrive s.now a = s.mach := if_neg (by simpa using hpoint)
  have hwait' : ¬(s.mach.arg 1 != 0 && !(s.mach.str a.sid).drained (cxPart a.cx) (s.mach.arg 1) (s.mach.arg 2) ||
      s.mach.atoms.any (fun b => b.sc && b.done.isNone && decide (b.point < a.point))) = true := by
    simpa only [Bool.or_eq_true, Bool.and_eq_true, bne_iff_ne, Bool.not_eq_true'] using hwait
  rw [exec_scEffect, execScEffect, onMach]
  simp only [ha, harr, Mach.atom?_id ha, Option.getD_some, beq_eq_false_iff_ne.2 harg, hdone, Option.isSome_none, hwait', Bool.false_eq_true,
    if_false, hplace, if_true]
  rfl

end

/-- A request without a reply goes again, and asks again 10 µs later (R289). -/
theorem seqAtomicResend_again (hflt : a.flt = none) (hn : a.resends < 4) : ∃ t, exec .seqAtomicResend s = .next t ∧
    t.mach.atom? a.id = some { a with resends := a.resends + 1 } ∧ (s.now + 10000 * 84, .seqAtomicResend, [a.id]) ∈ t.mach.agenda ∧
    t.mach.homes = s.mach.homes := by
  have hnext : exec .seqAtomicResend s = .next (s.on ((s.mach.resent s.now a).at (s.now + 10000 * Config.tick) .seqAtomicResend [a.id])) := by
    rw [exec_seqAtomicResend, execSeqAtomicResend, onMach]
    simp only [ha, hflt, Option.isSome_none, Bool.false_eq_true, if_false, ge_iff_le, Nat.not_le.2 hn]
    rfl
  obtain ⟨hatoms, hhomes⟩ := s.mach.resent_leaves s.now a
  refine ⟨_, hnext, ?_, mem_agendaAdd .., hhomes⟩
  exact (congrArg (List.find? _) hatoms).trans
    (Mach.atom?_modAtom (f := fun b => { b with resends := b.resends + 1 }) (Mach.atom?_own ha) (fun _ => rfl))

/-- The reply writes the old value, and the stream goes on (R283). -/
theorem atomicReply_writes {v : Word} {d : R} (hdone : a.done = some v) (hd : a.d = some d) (hmbox : a.mbox = none)
    (hhold : (s.mach.str a.sid).hold = .atomic a.id) (hcls : (s.mach.str a.sid).sel.cls = .scalar) :
    ∃ t, exec .atomicReply s = .next t ∧ (t.mach.str a.sid).hold = .none ∧ (t.mach.str a.sid).fq0 = (s.mach.str a.sid).fq1 ∧
      ∀ r, (t.mach.str a.sid).rd r = if r = 0 then 0 else if r = d then v else (s.mach.str a.sid).rd r := by
  have hheld : ((s.mach.endAtom a).str a.sid).hold = .atomic a.id := by rw [Mach.str_congr (s.mach.endAtom_streams a), hhold]
  have hnext : exec .atomicReply s = .next (s.on ((s.mach.answered a).replyReg s.now a.sid d v)) := by
    rw [exec_atomicReply, execAtomicReply, onMach]
    simp only [ha, hmbox, hheld, hdone, hd, Option.getD_some, bne_self_eq_false, Bool.false_eq_true, if_false]
    rfl
  obtain ⟨snap, hstr⟩ := s.mach.answered_str a
  have hmoves := (s.mach.answered a).replyReg_moves s.now a.sid d v (by rw [hstr]; exact hcls)
  have hfq := hmoves.fq0
  have hrd := hmoves.rd
  rw [hstr] at hfq hrd
  exact ⟨_, hnext, hmoves.hold, hfq, hrd⟩

/-- A reduction that faulted is dropped and recorded (R284, R286). -/
theorem redFaultLog_records (hroom : (s.mach.ctx a.cx).rfrecs.length < 16) : ∃ t, exec .redFaultLog s = .next t ∧
    (t.mach.ctx a.cx).rfpend = true ∧ t.mach.atom? a.id = none ∧ (t.mach.ctx a.cx).rfrecs =
      (s.mach.ctx a.cx).rfrecs ++ [{ va := a.va, w1 := a.place, opnd := a.opnd, time := s.now / 84 }] ∧
    t.mach.homes = s.mach.homes := by
  have hnext : exec .redFaultLog s = .next (s.on (s.mach.redLog s.now a)) := by
    rw [exec_redFaultLog, execRedFaultLog, onMach]
    simp only [ha]
    rfl
  have hroom' : ((s.mach.dropAtom a.id).ctx a.cx).rfrecs.length < 16 := hroom
  refine ⟨_, hnext, ?_, s.mach.atom?_dropAtom a.id, ?_, rfl⟩
  · rw [State.mach_on, Mach.redLog, Mach.ctx_modCtx, if_pos rfl]
    simp only [hroom', if_true]
  · rw [State.mach_on, Mach.redLog, Mach.ctx_modCtx, if_pos rfl]
    simp only [hroom', if_true]
    rfl

end

/-- An operation held for an owned position goes on in it, and no other stream changes (R266). -/
theorem scPositionReached_goes (s : State) : ∃ t, exec .scPositionReached s = .next t ∧
    ((s.mach.str (s.mach.arg 0)).hold = .scPos → t.mach.str (s.mach.arg 0) = { s.mach.str (s.mach.arg 0) with hold := .none }) ∧
    ∀ i, i ≠ s.mach.arg 0 → t.mach.str i = s.mach.str i := by
  refine ⟨_, rfl, fun h => ?_, fun i hi => Mach.str_modStr_ne _ _ hi⟩
  refine (Mach.str_modStr_same ..).trans ?_
  rw [if_pos (by simpa using h)]

/-- Settles O10: an atomic that reaches its turn performs by `Mach.atomServe_performed`; each event before and after that does its part. -/
theorem atomicsPerform : Obligations.AtomicsPerform := by
  unfold Obligations.AtomicsPerform
  refine ⟨fun s a ha => ⟨?_, fun v d hdone hd hmbox hhold hcls => atomicReply_writes ha hdone hd hmbox hhold hcls⟩, fun s => ⟨fun a ha harg => ?_, ?_,
    scPositionReached_goes s, fun a ha hflt hn => seqAtomicResend_again ha hflt hn, fun a ha hroom => redFaultLog_records ha hroom⟩⟩
  · intro hdone hsource hred hbad hform u c performs
    have hserve (t : Nat) : s.mach.Performed (s.mach.atomServe s.now a t) a := Mach.atomServe_performed hdone hsource hred hbad hform s.now t
    refine ⟨fun hhost => ⟨_, exec_atomicUnitServe_host ha hhost, rfl, hserve _⟩,
      fun hhost hev => ⟨_, exec_atomicUnitServe_arrives ha hhost hev, rfl, mem_agendaAdd ..⟩, fun hhost hev hunit hfirst => ?_,
      fun harg => ⟨_, exec_atomicSlotServe_served ha harg, rfl, hserve _⟩, fun harg => ?_⟩
    · exact ⟨_, exec_atomicUnitServe_accepted ha hhost hev hunit hfirst, rfl,
        Mach.atomServe_performed (m := { s.mach with units := sset s.mach.units u (c + 1) }) hdone hsource hred hbad hform s.now s.now⟩
    · obtain ⟨p, hp⟩ := exec_scEffect_served ha harg
      have hhomes : (s.mach.scArrive s.now a).homes = s.mach.homes := by
        rw [Mach.scArrive]
        split <;> rfl
      have hperf := Mach.atomServe_performed (m := s.mach.scArrive s.now a) (a := { a with point := p }) hdone hsource hred (hhomes ▸ hbad) hform s.now
        ((s.mach.scArrive s.now a).slotDone s.now { a with point := p })
      rw [Mach.Performed, hhomes] at hperf
      exact ⟨_, hp, rfl, hperf⟩
  · refine ⟨_, exec_atomicSlotServe_arrives ha harg, ?_, fun hall => Mach.giveSlot_placed hall ..⟩
    exact s.mach.giveSlotN_agenda ..
  · intro a ha harg hdone hpoint waits
    exact ⟨fun hwait => ⟨_, exec_scEffect_waits ha harg hdone hpoint hwait, rfl, mem_agendaAdd ..⟩,
      fun hwait hplace => ⟨_, exec_scEffect_unit ha harg hdone hpoint hwait hplace, rfl, mem_agendaAdd ..⟩⟩

end Sys2Proof.Machine

/-! PROOFS. Copy engines: one packet moved, the last one's completion, a promise that falls due (R273, R307 to R310). -/

namespace Sys2Proof.Machine

/-! ### Copies on their way -/

theorem Mach.copy?_id {m : Mach} {id : Nat} {c : Copy} (h : m.copy? id = some c) : c.id = id :=
  eq_of_beq (List.find?_some (p := fun c : Copy => c.id == id) h)

theorem Mach.copy?_own {m : Mach} {id : Nat} {c : Copy} (h : m.copy? id = some c) : m.copy? c.id = some c := by
  rw [Mach.copy?_id h, h]

theorem Mach.copy?_congr {m n : Mach} (h : n.copies = m.copies) (id : Nat) : n.copy? id = m.copy? id :=
  congrArg (List.find? _) h

/-- A copy changed in place is found as changed. -/
theorem Mach.copy?_modCopy {m : Mach} {id : Nat} {c : Copy} {f : Copy → Copy} (h : m.copy? id = some c) (hf : ∀ b, (f b).id = b.id) :
    (m.modCopy id f).copy? id = some (f c) := by
  have hkey (b : Copy) : ((if b.id == id then f b else b).id == id) = (b.id == id) := by split <;> simp [hf]
  unfold Mach.copy? at h
  simp only [Mach.copy?, Mach.modCopy, List.find?_map, Function.comp_def, hkey, h, Option.map_some]
  rw [Mach.copy?_id h, beq_self_eq_true, if_pos rfl]

/-- The copy of a ticket is the one that the ticket names. -/
theorem Mach.ticketCopy_copy {m : Mach} {sid n : Nat} {t : Ticket} {c : Copy} (h : m.ticketCopy sid n = some (t, c)) :
    m.copy? c.id = some c ∧ (m.str sid).tickets.find? (fun t => t.n == n) = some t ∧ t.copy = c.id := by
  unfold Mach.ticketCopy at h
  split at h
  · cases h
  next t' ht =>
    obtain ⟨c', hc, heq⟩ := Option.map_eq_some_iff.1 h
    cases heq
    exact ⟨Mach.copy?_own hc, ht, (Mach.copy?_id hc).symm⟩

/-- The ticket of a copy that is complete finds it complete. -/
theorem Mach.ticketCopy_modCopy {m n : Mach} {sid w : Nat} {t : Ticket} {c : Copy} {f : Copy → Copy} (h : m.ticketCopy sid w = some (t, c))
    (hf : ∀ b, (f b).id = b.id) (hstr : n.streams = m.streams) (hcopies : n.copies = (m.modCopy c.id f).copies) :
    n.ticketCopy sid w = some (t, f c) := by
  obtain ⟨hc, ht, hcopy⟩ := Mach.ticketCopy_copy h
  rw [Mach.ticketCopy, Mach.str_congr hstr, ht]
  simp only [hcopy, Mach.copy?_congr hcopies, Mach.copy?_modCopy hc hf, Option.map_some]

/-- The next copy of an engine is told in the agenda. -/
theorem Mach.engineNext_retried (m : Mach) (now eng : Nat) : m.Retried (m.engineNext now eng) := by
  unfold Mach.engineNext
  split <;> rfl

/-- A page's homes of a copy are as many as the bytes asked for. -/
theorem Mach.copyHomes_length {m : Mach} {cx va n : Nat} {nd : Need} {l : List (Nat × Bool)} (h : m.copyHomes cx va n nd = some l) :
    l.length = n := by
  unfold Mach.copyHomes at h
  split at h
  · cases h
  · split at h
    · cases h; simp
    · split at h
      · cases h
      · cases h
        simp only [List.length_append, List.length_map, List.length_range]
        omega

/-- The machine once a copy is over: it is complete, and the next one of its engine is told. -/
def Mach.copyOver (m : Mach) (now : Nat) (c : Copy) : Mach := (m.modCopy c.id (fun c => { c with complete := true })).engineNext now c.engine

theorem Mach.copyOver_leaves (m : Mach) (now : Nat) (c : Copy) : (m.copyOver now c).streams = m.streams ∧
    (m.copyOver now c).copies = (m.modCopy c.id (fun c => { c with complete := true })).copies ∧ (m.copyOver now c).homes = m.homes := by
  rw [Mach.copyOver, (Mach.engineNext_retried ..)]
  exact ⟨rfl, rfl, rfl⟩

/-- A reply changes no copy, and of memory only what its fetch does. -/
theorem Mach.replyReg_leaves (m : Mach) (now sid : Nat) (d : R) (v : Word) : (m.replyReg now sid d v).copies = m.copies ∧
    ∀ a, ∃ k : Byte, k &&& ~~~0x10 = 0 ∧ homeByte (m.replyReg now sid d v).homes a = homeByte m.homes a ||| k := by
  by_cases h : (m.str sid).sel.cls = .scalar
  · have hmoves := m.replyReg_moves now sid d v h
    exact ⟨by rw [hmoves.rest], hmoves.mem⟩
  · have hcls : ((m.str sid).wr d.toNat v).sel.cls ≠ .scalar := by
      unfold Stream.wr
      split <;> exact h
    have hstep : m.replyReg now sid d v =
        ((({ m with cur := sid } : Mach).modStr sid (fun s => s.wr d.toNat v)).mend (.scalar sid d.toNat) (fun _ => true)).stepOn now sid m.curLen := by
      refine Mach.retire_engine now ?_
      rw [Mach.cs, Mach.str_mend]
      exact (congrArg (fun x : Stream => x.sel.cls) (Mach.str_modStr_same ..)).trans_ne hcls
    have hhomes : (m.replyReg now sid d v).homes = m.homes := by rw [hstep]; rfl
    exact ⟨by rw [hstep]; rfl, fun a => ⟨0, by simp, by rw [hhomes]; simp⟩⟩

/-- A WAITT past its sleep, whose stream is not frozen. -/
theorem waitt_due {x : Stream} {ns now : Nat} (hrun : x.state ≠ .frozen) (hns : ns * 84 ≤ now) :
    (x.state != .frozen && decide (ns * Config.tick ≤ now)) = true := by
  have hns' : ns * Config.tick ≤ now := hns
  simp [hrun, hns']

/-- A fresh snapshot changes nothing that a reply is about. -/
theorem State.Replied.refresh {s : State} {m : Mach} {sid : Nat} {d : R} {v : Word} (h : s.Replied (s.on m) sid d v) :
    s.Replied (s.on (m.refresh sid)) sid d v := by
  obtain ⟨hnow, hhold, hfq0, hfq1, hrd⟩ := h
  have hs : (s.on (m.refresh sid)).mach.str sid = { m.str sid with snap := m.homes } := Mach.str_modStr_same ..
  refine ⟨hnow, ?_, ?_, ?_, fun r => ?_⟩ <;> rw [hs]
  · exact hhold
  · exact hfq0
  · exact hfq1
  · exact hrd r

/-! ### A packet (R307) -/

/-- Memory once the bytes of a packet's source homes stand at its destination homes. -/
def Homes.moved (h : Homes) (hs hd : List (Nat × Bool)) : Homes :=
  (hd.zip (hs.map (fun x => homeByte h x.1))).foldl (fun (g : Homes) x => homeSet g x.1.1 x.2) h

section
variable {h : Homes} {hs hd : List (Nat × Bool)} (hlen : hs.length = hd.length)
include hlen

theorem Homes.moved_keys : (hd.zip (hs.map (fun x => homeByte h x.1))).map (fun x => x.1.1) = hd.map (·.1) := by
  have hfst := List.map_fst_zip (l₁ := hd) (l₂ := hs.map (fun x => homeByte h x.1)) (by simp [hlen])
  conv_rhs => rw [← hfst, List.map_map]
  rfl

/-- Each destination home holds the byte of its source home as it stood. -/
theorem Homes.moved_at (hn : (hd.map (·.1)).Nodup) {j : Nat} (hj : j < hd.length) :
    homeByte (h.moved hs hd) ((hd.map (·.1)).getD j 0) = homeByte h ((hs.map (·.1)).getD j 0) := by
  have hjs : j < hs.length := hlen ▸ hj
  have hmem : (hd[j], homeByte h hs[j].1) ∈ hd.zip (hs.map (fun x => homeByte h x.1)) := by
    refine List.mem_iff_getElem.2 ⟨j, by simpa using ⟨hj, hjs⟩, by simp⟩
  have hread := read_foldl_of_mem (read := homeByte) (write := fun (g : Homes) (x : (Nat × Bool) × Byte) => homeSet g x.1.1 x.2)
    (key := fun x => x.1.1) (val := fun x _ => x.2) (fun g x a => homeByte_homeSet g x.1.1 a x.2) (by rw [Homes.moved_keys hlen]; exact hn) hmem h
  simpa [hj, hjs, Homes.moved] using hread

/-- Every other byte is as it stood. -/
theorem Homes.moved_outside {x : Nat} (hx : x ∉ hd.map (·.1)) : homeByte (h.moved hs hd) x = homeByte h x :=
  read_foldl_of_notMem (read := homeByte) (write := fun (g : Homes) (x : (Nat × Bool) × Byte) => homeSet g x.1.1 x.2)
    (key := fun x => x.1.1) (val := fun x _ => x.2) (fun g x a => homeByte_homeSet g x.1.1 a x.2) (by rwa [Homes.moved_keys hlen]) h

end

theorem Mach.touched_copies (m : Mach) (cx : Nat) (hs : List Nat) : (m.touched cx hs).copies = m.copies := by rw [Mach.touched_rest]

/-- A machine on which a copy's packet has been written: its bytes moved, the copy one packet on. -/
structure Mach.PacketMoved (m n : Mach) (c : Copy) (hs hd : List (Nat × Bool)) : Prop where
  bytes : ∀ a, homeByte n.homes a = homeByte (m.homes.moved hs hd) a
  copies : n.copies = (m.modCopy c.id (fun c => { c with pos := c.pos + 1 })).copies

/-- The machine once an engine has written a packet, before the event that follows it. -/
def Mach.packetWritten (m : Mach) (c : Copy) (hs hd : List (Nat × Bool)) : Mach :=
  let ws := hd.map (fun h => (h.1, 0, 255))
  let h := m.homes.moved hs hd
  let h := { h with bad := h.bad.filter (fun w => !(eccTouched ws).contains w) }
  let m := m.soft c.cx (hs.map (fun h => h.1))
  let m := (({ m with homes := h } : Mach).touched c.cx (hd.map (fun h => h.1))).chargeAt c.cc 13 1
  let m := m.chargeRegion c.cx (m.job c.job).rcb (1000 * (m.ctx c.cx).weight 13)
  m.modCopy c.id (fun c => { c with pos := c.pos + 1 })

theorem Mach.packetWritten_moved (m : Mach) (c : Copy) (hs hd : List (Nat × Bool)) : m.PacketMoved (m.packetWritten c hs hd) c hs hd := by
  have hsoft : (m.soft c.cx (hs.map (fun h => h.1))).copies = m.copies := by
    rw [(m.soft_walked c.cx (hs.map (fun h => h.1)) 0 0).rest]
  have hhomes : ∃ b, (m.packetWritten c hs hd).homes = { m.homes.moved hs hd with bad := b } := ⟨_, Mach.touched_homes ..⟩
  have hcopies : (m.packetWritten c hs hd).copies = (m.modCopy c.id (fun c => { c with pos := c.pos + 1 })).copies :=
    congrArg (List.map _) ((Mach.touched_copies ..).trans hsoft)
  obtain ⟨b, hb⟩ := hhomes
  exact ⟨fun a => by rw [hb]; rfl, hcopies⟩

section
variable {s : State} {c : Copy} (hc : s.mach.copy? (s.mach.arg 0) = some c)
include hc

section
variable {hs hd : List (Nat × Bool)} {va n : Nat} {src : Nat}
  (hpacket : c.packet = (va, some src, n)) (hcomplete : c.complete = false) (hfailed : c.failed = false)
  (hturn : s.mach.copies.any (fun o => o.engine == c.engine && !o.complete && !o.failed && o.id < c.id) = false)
  (hsrc : s.mach.copyHomes c.cx src n { rd := true } = some hs) (hdst : s.mach.copyHomes c.cx va n { wr := true } = some hd)
  (hbad : s.mach.homes.bad = []) (hsb : (s.mach.str c.sid).sb = [])
  (hpaused : (hs ++ hd).any (fun h => s.mach.homePaused (cxPart c.cx) h.1) = false)
  (hstarted : (hs ++ hd).any (fun h => (s.mach.unstarted c.job h.1).isSome) = false)
  (hport : s.mach.portFirst s.now (cxPart c.cx) (s.mach.enginePort (cxPart c.cx) c.engine (hd.headD (0, false)).1) (hd.map (·.1)) = none)
include hpacket hcomplete hfailed hturn hsrc hdst hbad hsb hpaused hstarted hport

/-- A packet that nothing holds is written, and the event of the next one, or of the end, is told. -/
theorem exec_copyPacketWrite_writes : ∃ e, exec .copyPacketWrite s = .next (s.on ((s.mach.packetWritten c hs hd).after s.now 0 e [c.id])) := by
  have hgood (l : List Nat) (p : Nat → Bool) : l.any (fun w => s.mach.homes.bad.contains w && p w) = false := by simp [hbad]
  have hread : hs.any (fun h => badIn s.mach.homes h.1 1) = false := by simp [badIn, hbad]
  refine ⟨if c.pos + 1 == c.packets then .copyComplete else .copyPacketWrite, ?_⟩
  rw [exec_copyPacketWrite, execCopyPacketWrite, onMach]
  simp only [hc, hpacket, hcomplete, hfailed, hturn, hsrc, hdst, hsb, hpaused, hstarted, hport, hgood, hread, List.any_nil, Bool.or_self,
    Bool.false_eq_true, if_false, Option.isNone_some]
  split <;> rfl

end

/-! ### The last packet, and a promise (R309, R310) -/

/-- A copy that is complete lets the WAITT go on that waits on it past its sleep. -/
theorem exec_copyComplete_waited {ns w : Nat} {tk : Ticket} (hhold : (s.mach.str c.sid).hold = .sleep ns (some w))
    (hrun : (s.mach.str c.sid).state ≠ .frozen) (hns : ns * 84 ≤ s.now) (htk : s.mach.ticketCopy c.sid w = some (tk, c)) :
    exec .copyComplete s = .next (s.on (((s.mach.copyOver s.now c).replyReg s.now c.sid 0 0).refresh c.sid)) := by
  obtain ⟨hstr, hcopies, -⟩ := s.mach.copyOver_leaves s.now c
  have hticket := Mach.ticketCopy_modCopy (n := s.mach.copyOver s.now c) htk (by intro _; rfl) hstr hcopies
  have hown := Mach.str_congr hstr c.sid
  rw [exec_copyComplete, execCopyComplete, onMach]
  simp only [hc]
  rw [← Mach.copyOver, hown, hhold]
  simp only [hticket, Option.map_some, beq_self_eq_true, Bool.and_true, waitt_due hrun hns, if_true]
  rfl

/-- Whatever waits on it, a copy whose last packet is written is complete, and memory is as it was. -/
theorem exec_copyComplete_completes : ∃ t, exec .copyComplete s = .next t ∧ t.mach.copy? c.id = some { c with complete := true } ∧ s.SameMemory t := by
  obtain ⟨hstr, hcopies, hhomes⟩ := s.mach.copyOver_leaves s.now c
  have hover (n : Mach) (h : n = s.mach.copyOver s.now c ∨ n = ((s.mach.copyOver s.now c).replyReg s.now c.sid 0 0).refresh c.sid) :
      n.copy? c.id = some { c with complete := true } ∧ ∀ a, ∃ k : Byte, k &&& ~~~0x10 = 0 ∧ homeByte n.homes a = homeByte s.mach.homes a ||| k := by
    have hcopy : (s.mach.copyOver s.now c).copy? c.id = some { c with complete := true } :=
      (Mach.copy?_congr hcopies c.id).trans (Mach.copy?_modCopy (Mach.copy?_own hc) fun _ => rfl)
    rcases h with rfl | rfl
    · exact ⟨hcopy, fun a => ⟨0, by simp, by rw [hhomes]; simp⟩⟩
    · obtain ⟨hreply, hmem⟩ := (s.mach.copyOver s.now c).replyReg_leaves s.now c.sid 0 0
      exact ⟨(Mach.copy?_congr hreply c.id).trans hcopy, hhomes ▸ hmem⟩
  rw [exec_copyComplete, execCopyComplete, onMach]
  simp only [hc]
  rw [← Mach.copyOver]
  split
  · split
    · exact ⟨_, rfl, hover _ (.inr rfl)⟩
    · exact ⟨_, rfl, hover _ (.inl rfl)⟩
  · exact ⟨_, rfl, hover _ (.inl rfl)⟩

/-- A promise that falls due first faults the WAITT that waits on it. -/
theorem exec_promiseDue_faults {ns w : Nat} {tk : Ticket} (hhold : (s.mach.str c.sid).hold = .sleep ns (some w))
    (hrun : (s.mach.str c.sid).state ≠ .frozen) (hns : ns * 84 ≤ s.now) (htk : s.mach.ticketCopy c.sid w = some (tk, c))
    (hcomplete : c.complete = false) (hfailed : c.failed = false) (hdue : tk.promise * 84 ≤ s.now) (hmissed : tk.missed = false) :
    exec .promiseDue s = .next (s.on (((({ s.mach with cur := c.sid } : Mach).markMissed c.sid c.id).takeFreeze s.now c.sid
      { code := .promiseMissed }).missPause s.now)) := by
  have hdue' : tk.promise * Config.tick ≤ s.now := hdue
  have htk' : ({ s.mach with cur := c.sid } : Mach).ticketCopy c.sid w = some (tk, c) := htk
  have htake : ({ s.mach with cur := c.sid } : Mach).waittTake s.now w =
      Res.err (({ s.mach with cur := c.sid } : Mach).markMissed c.sid c.id) .promiseMissed := by
    rw [Mach.waittTake]
    simp only [htk', hfailed, hcomplete, hdue', hmissed, decide_true, Bool.not_false, Bool.and_self, Bool.false_eq_true, if_false, if_true]
  rw [exec_promiseDue, execPromiseDue, onMach]
  simp only [hc, hhold, htk, Option.map_some, beq_self_eq_true, Bool.and_true, waitt_due hrun hns, if_true, htake]
  rfl

end

/-- Settles O19: a packet by `Homes.moved`, the end of its copy and a missed promise by what the stream's WAITT finds. -/
theorem copyEngines : Obligations.CopyEngines := by
  unfold Obligations.CopyEngines
  intro s c hc i k n
  refine ⟨?_, ?_, fun ns w tk hhold hrun hns htk hcomplete hfailed hdue hmissed =>
    ⟨_, exec_promiseDue_faults hc hhold hrun hns htk hcomplete hfailed hdue hmissed, rfl⟩⟩
  · intro hs hd hidx hcomplete hfailed hturn hsrc hdst hn hbad hsb hpaused hstarted hport
    have hpacket : c.packet = (wrapN 64 ((c.dst : Int) + c.dp * i) + 512 * k, some (wrapN 64 ((c.src : Int) + c.sp * i) + 512 * k), n) := by
      rw [Copy.packet, Copy.row, hidx]
      rfl
    have hlen : hs.length = hd.length := (Mach.copyHomes_length hsrc).trans (Mach.copyHomes_length hdst).symm
    obtain ⟨e, he⟩ := exec_copyPacketWrite_writes hc hpacket hcomplete hfailed hturn hsrc hdst hbad hsb hpaused hstarted hport
    obtain ⟨hbytes, hcopies⟩ := s.mach.packetWritten_moved c hs hd
    refine ⟨_, he, rfl, fun j hj => ?_, fun x hx => ?_, ?_⟩
    · exact (hbytes _).trans (Homes.moved_at hlen hn (by rw [Mach.copyHomes_length hdst]; exact hj))
    · exact (hbytes x).trans (Homes.moved_outside hlen hx)
    · exact (Mach.copy?_congr hcopies c.id).trans (Mach.copy?_modCopy (Mach.copy?_own hc) fun _ => rfl)
  · obtain ⟨t, ht, hcopy, hmem⟩ := exec_copyComplete_completes hc
    refine ⟨t, ht, hcopy, hmem, fun ns w tk hhold hrun hns hcls htk => ?_⟩
    have hnext := ht.symm.trans (exec_copyComplete_waited hc hhold hrun hns htk)
    obtain ⟨hstr, -, -⟩ := s.mach.copyOver_leaves s.now c
    injection hnext with ht
    subst ht
    exact (State.replied_of 0 0 (Mach.str_congr hstr c.sid) hcls).refresh

end Sys2Proof.Machine

/-! PROOFS. The host's accesses: mailbox atomics, AtomicOps, the HDM range, the fabric manager (R274, R291, R372, R374, R384). -/

namespace Sys2Proof.Machine

/-! ### The mailbox (R291) -/

theorem Mach.xlatCx_streams {m n : Mach} {cx va : Nat} {nd : Need} {p : Pg} (h : m.xlatCx cx va nd = .ok (n, p)) : n.streams = m.streams := by
  unfold Mach.xlatCx at h
  split at h
  · cases h
  · split at h
    · cases h
    next hw =>
      split at h
      · cases h
      · cases h
        exact Mach.walk_streams hw

/-- Whether a local store waits for a start is a matter of jobs, streams and parts (R55). -/
theorem Mach.awaitsStart_congr {m n : Mach} (hjobs : n.jobs = m.jobs) (hstreams : n.streams = m.streams) (hparts : n.parts = m.parts) (cx : Nat) :
    n.awaitsStart cx = m.awaitsStart cx := by
  have hawaits (lc : Nat) : n.awaits cx lc = m.awaits cx lc := by
    funext q
    simp only [Mach.awaits, Mach.streamsOn, Mach.str, Mach.part, hstreams, hparts]
  funext lc
  rw [Mach.awaitsStart, hawaits, hjobs]
  rfl

/-- The atomic that a part's mailbox sends to a page, under a number (R289, R291). -/
def mailAtom (op : AOp) (part : Nat) (p : Part) (pg : Pg) (id : Nat) : Atom :=
  let ctl := (p.abx.getD 3 0).toNat
  { id := id, sid := 2 ^ 40 + part, op := op, w64 := bitOf ctl 0, home := pg.home 0, place := pg.aplace, opnd := p.abx.getD 1 0
    cmp := p.abx.getD 2 0, source := some (0x20000 + part, fld ctl 16 16), va := (p.abx.getD 0 0).toNat, cx := cxKey part (fld ctl 58 6)
    job := 2 ^ 40, mbox := some part }

/-- A mailbox's atomic put on its way. -/
def Mach.sendMail (m : Mach) (now : Nat) (a : Atom) : Mach :=
  let m := { m with seq := m.seq + 1, atoms := m.atoms ++ [a] }
  (if a.place ≤ 1 then m.after now 0 .atomicSlotServe [a.id, 0] else m.after now 0 .atomicUnitServe [a.id]).at (now + 10000 * Config.tick)
    .seqAtomicResend [a.id]

theorem Mach.sendMail_atoms (m : Mach) (now : Nat) (a : Atom) : (m.sendMail now a).atoms = m.atoms ++ [a] := by
  show (if _ then _ else _ : Mach).atoms = _
  split <;> rfl

/-- The mailbox words and their operations. -/
def abxWords : List (Instr × AOp) := [(.abxAdd, .add), (.abxAnd, .and), (.abxOr, .or), (.abxXor, .xor), (.abxMin, .min), (.abxMax, .max),
  (.abxMinn, .minn), (.abxMaxn, .maxn), (.abxSwap, .swap), (.abxCas, .cas)]

theorem exec_abxWord {i : Instr} {op : AOp} (h : (i, op) ∈ abxWords) (s : State) : exec i s = mailboxOp op s := by
  simp only [abxWords, List.mem_cons, Prod.mk.injEq, List.not_mem_nil, or_false] at h
  rcases h with ⟨rfl, rfl⟩ | ⟨rfl, rfl⟩ | ⟨rfl, rfl⟩ | ⟨rfl, rfl⟩ | ⟨rfl, rfl⟩ | ⟨rfl, rfl⟩ | ⟨rfl, rfl⟩ | ⟨rfl, rfl⟩ | ⟨rfl, rfl⟩ |
    ⟨rfl, rfl⟩ <;> rfl

section
variable {s : State} (op : AOp) {part ctl cx ea n : Nat} {w64 : Bool} (hpart : s.mach.arg 0 = part)
  (hctl : ((s.mach.part part).abx.getD 3 0).toNat = ctl) (hcx : cxKey part (fld ctl 58 6) = cx)
  (hea : ((s.mach.part part).abx.getD 0 0).toNat = ea) (hw : bitOf ctl 0 = w64) (hn : (if w64 then 8 else 4) = n)
  (hthere : s.mach.ctxThere cx = true)
include hpart hctl hcx hea hw hn hthere

/-- A mailbox atomic at an address that is no multiple of its width is refused. -/
theorem mailboxOp_misaligned (halign : ea % n ≠ 0) : mailboxOp op s = .next (s.on (s.mach.mboxDone part 0x13 none)) := by
  subst hpart hctl hcx hea hw hn
  rw [mailboxOp, onMach]
  simp only [hthere, bne_iff_ne.2 halign, Bool.not_true, Bool.false_eq_true, if_false, if_true]
  rfl

/-- A mailbox atomic that passes its checks leaves for its place. -/
theorem mailboxOp_sent (halign : ea % n = 0) {m : Mach} {pg : Pg} (hpage : s.mach.xlatCx cx ea { rd := true, wr := true } = .ok (m, pg))
    (hpub : pg.pub = 0) (hstart : (homeLc (pg.home 0)).any (s.mach.awaitsStart cx) = false) :
    ∃ t a, mailboxOp op s = .next t ∧ t.mach.atoms = s.mach.atoms ++ [a] ∧ a.op = op ∧ a.form = 0 ∧ a.w64 = w64 ∧ a.home = pg.home 0 ∧
      a.opnd = (s.mach.part part).abx.getD 1 0 ∧ a.cmp = (s.mach.part part).abx.getD 2 0 ∧ a.mbox = some part ∧
      a.source = some (0x20000 + part, fld ctl 16 16) ∧ (s.now + 10000 * 84, .seqAtomicResend, [a.id]) ∈ t.mach.agenda := by
  subst hpart hctl hcx hea hw hn
  have hrest := (Mach.xlatCx_walked 0 hpage).rest
  have hatoms : m.atoms = s.mach.atoms := by rw [hrest]
  have hstart' : (homeLc (pg.home 0)).any (m.awaitsStart (cxKey (s.mach.arg 0) (fld ((s.mach.part (s.mach.arg 0)).abx.getD 3 0).toNat 58 6))) = false := by
    rw [Mach.awaitsStart_congr (m := s.mach) (by rw [hrest]) (Mach.xlatCx_streams hpage) (by rw [hrest])]
    exact hstart
  rw [mailboxOp, onMach]
  simp only [hthere, halign, hpage, hpub, hstart', Bool.not_true, bne_self_eq_false, Bool.false_eq_true, if_false]
  refine ⟨s.on (m.sendMail s.now (mailAtom op (s.mach.arg 0) (s.mach.part (s.mach.arg 0)) pg m.seq)), mailAtom op (s.mach.arg 0) _ pg m.seq, rfl, ?_,
    rfl, rfl, rfl, rfl, rfl, rfl, rfl, rfl, mem_agendaAdd ..⟩
  rw [State.mach_on, Mach.sendMail_atoms, hatoms]

end

/-! ### The host's link (R372, R374, R384) -/

/-- An event of a host that is linked to a part that stands. -/
theorem hostMach_linked {s : State} {f : Nat → Mach → Nat → Mach} (hlink : s.mach.linkUp = true) (hpart : (sget? s.mach.parts (s.mach.arg 0)).isSome = true) :
    hostMach f s = .next (s.on (f s.now s.mach (s.mach.arg 0))) := by
  rw [hostMach, onMach]
  simp only [hlink, hpart, Bool.and_self, if_true]
  rfl

/-- Words with one wrong bit are corrected in what is read, not in memory, and nothing leaves the package (R80). -/
theorem Mach.softWords_homes (m : Mach) (cx : Nat) (rd : Nat → Bool) : (m.softWords cx rd).homes = m.homes := by
  unfold Mach.softWords
  exact List.foldlRecOn (motive := fun n : Mach => n.homes = m.homes) _ _ rfl (fun n hn w _ => hn)
theorem Mach.softWords_out (m : Mach) (cx : Nat) (rd : Nat → Bool) : (m.softWords cx rd).out = m.out := by
  rw [(m.softWords_walked cx rd 0 0).rest]

/-- The words of a host AtomicOp and their operations. -/
def hostAtomics : List (Instr × AOp) := [(.atomicopFetchadd, .add), (.atomicopSwap, .swap), (.atomicopCas, .cas)]

theorem exec_hostAtomic {i : Instr} {op : AOp} (h : (i, op) ∈ hostAtomics) (s : State) : exec i s = hostAtomicOp op s := by
  simp only [hostAtomics, List.mem_cons, Prod.mk.injEq, List.not_mem_nil, or_false] at h
  rcases h with ⟨rfl, rfl⟩ | ⟨rfl, rfl⟩ | ⟨rfl, rfl⟩ <;> rfl

/-- Memory after a host AtomicOp on `n` bytes at a home. -/
def Homes.swapped (h : Homes) (op : AOp) (w64 : Bool) (a n : Nat) (x cmp : Word) : Homes :=
  match amoNew op w64 (wd (leNat (homeRead h a n))) x cmp with
  | some v => homeWrite h a (leBytes n v.toNat)
  | none => h

/-- Its bytes hold what the operation makes of them, and every other byte is as before. -/
theorem Homes.swapped_performed (h : Homes) (op : AOp) (w64 : Bool) (a : Nat) {n : Nat} (hn : (if w64 then 8 else 4) = n) (x cmp : Nat) :
    homeRead (h.swapped op w64 a n (wd x) (wd cmp)) a n = leBytes n (atomicResult op (8 * n) (BitVec.ofNat (8 * n) (leNat (homeRead h a n)))
      (BitVec.ofNat (8 * n) x) (BitVec.ofNat (8 * n) cmp)).toNat ∧
    ∀ y, ¬(a ≤ y ∧ y < a + n) → homeByte (h.swapped op w64 a n (wd x) (wd cmp)) y = homeByte h y := by
  have hperf := Atom.written_performed
    { id := 0, sid := 0, op := op, w64 := w64, home := a, place := 0, opnd := wd x, cmp := wd cmp } h (by decide : 0 < 3)
  have hset (v : Nat) : (wd v).setWidth (8 * n) = BitVec.ofNat (8 * n) v := by
    have hle : 8 * n ≤ 64 := by rw [← hn]; split <;> decide
    rw [wd, BitVec.setWidth_ofNat_of_le hle]
  subst hn
  rw [← hset x, ← hset cmp]
  exact hperf

section
variable {s : State} {part : Nat} (hlink : s.mach.linkUp = true) (hpart : (sget? s.mach.parts part).isSome = true) (harg : s.mach.arg 0 = part)
include hlink hpart harg

/-- A host AtomicOp on good bytes mapped with SYSAT, of no registered region, performs and answers the old value. -/
theorem hostAtomicOp_performs (op : AOp) {n off : Nat} (hn : (if s.mach.arg 2 = 1 then 8 else 4) = n) (hoff : s.mach.arg 1 = off)
    (halign : off % n = 0) (hroom : off + n ≤ (s.mach.part part).lcount 2 * 2 ^ 37) (hbad : badIn s.mach.homes (homeKey part off) n = false)
    (hmapped : (s.mach.ctxsOf part).any (fun c => s.mach.mapsSysat part off 6 0 0 (fld (s.mach.ctx c).root 12 44 * 2 ^ 12)
      (bitOf (s.mach.ctx c).root 0)) = true) (hregions : s.mach.regionsAt (homeKey part off) = []) :
    ∃ t, hostAtomicOp op s = .next t ∧
      t.mach.out = s.mach.out ++ [.word part (BitVec.ofNat 64 (leNat (homeRead s.mach.homes (homeKey part off) n)))] ∧
      t.mach.homes = s.mach.homes.swapped op (s.mach.arg 2 == 1) (homeKey part off) n (wd (s.mach.arg 3)) (wd (s.mach.arg 4)) := by
  subst harg hoff
  have hn' : (if (s.mach.arg 2 == 1) = true then 8 else 4) = n := by simpa using hn
  have hhomes := s.mach.soft_homes (64 * s.mach.arg 0) [homeKey (s.mach.arg 0) (s.mach.arg 1)]
  have hout : (s.mach.soft (64 * s.mach.arg 0) [homeKey (s.mach.arg 0) (s.mach.arg 1)]).out = s.mach.out := s.mach.softWords_out ..
  have hev (i : Nat) : (s.mach.soft (64 * s.mach.arg 0) [homeKey (s.mach.arg 0) (s.mach.arg 1)]).arg i = s.mach.arg i := by
    rw [Mach.arg, (s.mach.soft_walked _ _ 0 0).rest]
    rfl
  rw [hostAtomicOp, hostMach_linked hlink hpart]
  simp only [hn', halign, Nat.not_lt.2 hroom, hmapped, hregions, hbad, bne_self_eq_false, decide_false, Bool.not_true, List.isEmpty_nil, Bool.or_self,
    Bool.false_eq_true, if_false]
  refine ⟨_, rfl, ?_⟩
  simp only [hev, State.mach_on, Mach.emit_homes, Homes.swapped]
  cases amoNew op (s.mach.arg 2 == 1) (wd (leNat (homeRead s.mach.homes (homeKey (s.mach.arg 0) (s.mach.arg 1)) n))) (wd (s.mach.arg 3))
    (wd (s.mach.arg 4)) with
  | some v => exact ⟨congrArg (· ++ _) hout, congrArg (homeWrite · _ _) hhomes⟩
  | none => exact ⟨congrArg (· ++ _) hout, hhomes⟩

/-- An HDM read answers the bytes of its homes. -/
theorem exec_hdmRead_answers {h off n : Nat} (hoff : s.mach.arg 1 = off) (hn : s.mach.arg 2 = n) (hhome : s.mach.hdmHome part off n = some h)
    (hbad : badIn s.mach.homes h n = false) : ∃ t, exec .hdmRead s = .next t ∧
      t.mach.out = s.mach.out ++ [.data part (homeRead s.mach.homes h n)] ∧ t.mach.homes.cells = s.mach.homes.cells := by
  subst harg hoff hn
  refine ⟨s.on ((s.mach.softWords (64 * s.mach.arg 0) (fun w => h / 16 ≤ w && 16 * w < h + s.mach.arg 2)).emit
    (.data (s.mach.arg 0) (homeRead s.mach.homes h (s.mach.arg 2)))), ?_, ?_, ?_⟩
  · rw [exec_hdmRead, execHdmRead, hostMach_linked hlink hpart]
    simp only [hhome, hbad, Bool.false_eq_true, if_false]
  · exact congrArg (· ++ _) (Mach.softWords_out ..)
  · exact congrArg Homes.cells (Mach.softWords_homes ..)

/-- An HDM read beyond the range is refused. -/
theorem exec_hdmRead_refused (hhome : s.mach.hdmHome part (s.mach.arg 1) (s.mach.arg 2) = none) :
    exec .hdmRead s = .next (s.on { s.mach with out := s.mach.out ++ [.unsupported part] }) := by
  subst harg
  rw [exec_hdmRead, execHdmRead, hostMach_linked hlink hpart]
  simp only [hhome]
  rfl

end

/-! ### HDM writes (R260, R374) -/

/-- Where no context has a registered region, a byte that the host writes stands at its home. -/
theorem Mach.hostByte_home {m : Mach} (h : ∀ c ∈ m.ctxs, c.2.regions = []) (a b : Nat) :
    m.hostByte a b = { m with homes := homeSet m.homes a (BitVec.ofNat 8 b) } := by
  have hnone : m.regionsAt a = [] := List.flatMap_eq_nil_iff.2 fun c hc => by rw [h c hc]; rfl
  rw [Mach.hostByte, hnone]

/-- Bytes that the host writes one after another are one block written. -/
theorem Mach.hostBytes_home {m : Mach} (h : ∀ c ∈ m.ctxs, c.2.regions = []) (a : Nat) (bs : List Nat) :
    (bs.mapIdx (fun i b => (a + i, b, 255))).foldl (fun (m : Mach) (b : Nat × Nat × Nat) => m.hostByte b.1 b.2.1) m =
      { m with homes := homeWrite m.homes a (bs.map (BitVec.ofNat 8)) } := by
  induction bs generalizing m a with
  | nil => rfl
  | cons b t ih =>
    have hshift : (fun i (b : Nat) => (a + (i + 1), b, 255)) = fun i b => (a + 1 + i, b, 255) := by
      funext i b
      rw [Nat.add_right_comm, Nat.add_assoc]
    rw [List.mapIdx_cons, List.foldl_cons, hshift, Mach.hostByte_home h]
    exact ih (m := { m with homes := homeSet m.homes a (BitVec.ofNat 8 b) }) h (a + 1)

/-- A byte that the host writes where a registered region lies changes drafts alone. -/
theorem Mach.hostByte_draft {m : Mach} {a : Nat} (h : m.regionsAt a ≠ []) (b : Nat) : (m.hostByte a b).homes = m.homes := by
  unfold Mach.hostByte
  split
  next hnone => exact absurd hnone h
  · exact List.foldlRecOn (motive := fun n : Mach => n.homes = m.homes) _ _ rfl (fun n hn q _ => hn)

section
variable {s : State} {part : Nat} (hlink : s.mach.linkUp = true) (hpart : (sget? s.mach.parts part).isSome = true) (harg : s.mach.arg 0 = part)
  {h off : Nat} {bs : List Nat} (hoff : s.mach.arg 1 = off) (hbs : (s.mach.ev.drop 2).map (fun b => b % 256) = bs)
  (hhome : s.mach.hdmHome part off bs.length = some h) (hbad : s.mach.homes.bad = [])
include hlink hpart harg hoff hbs hhome hbad

/-- An HDM write to good words writes byte after byte. -/
theorem exec_hdmWrite_writes : ∃ t, exec .hdmWrite s = .next t ∧ ∃ b, t.mach.homes =
    { ((bs.mapIdx (fun i b => (h + i, b, 255))).foldl (fun (m : Mach) (b : Nat × Nat × Nat) => m.hostByte b.1 b.2.1) s.mach).homes with bad := b } := by
  subst harg hoff hbs
  have hdrop (l : List Nat) (p : Nat → Bool) : l.filter (fun w => s.mach.homes.bad.contains w && p w) = [] := by simp [hbad]
  have hkeep (l : List (Nat × Nat × Nat)) : l.filter (fun b => !([] : List Nat).contains (b.1 / 16)) = l := List.filter_eq_self.2 fun _ _ => rfl
  rw [exec_hdmWrite, execHdmWrite, hostMach_linked hlink hpart]
  simp only [hhome, hdrop, hkeep]
  exact ⟨_, rfl, _, rfl⟩

end

/-- Settles O51: a mailbox atomic by its page, a host's by `Homes.swapped`, an HDM write by `Mach.hostBytes_home`. -/
theorem hostMemory : Obligations.HostMemory := by
  unfold Obligations.HostMemory
  intro s part p off
  refine ⟨?_, fun hlink => ⟨?_, ?_, fun hpart => ⟨?_, ?_, ?_, ?_⟩⟩⟩
  · intro ctl cx n ea i op hi
    have hw : bitOf ctl 0 = ctl.testBit 0 := bitOf_eq_testBit ..
    rw [exec_abxWord hi]
    refine ⟨fun hlen hthere halign => ⟨_, mailboxOp_misaligned op rfl rfl rfl rfl hw rfl hthere halign, ?_, rfl⟩,
      fun hthere halign m pg hpage hpub hstart => mailboxOp_sent op rfl rfl rfl rfl hw rfl hthere halign hpage hpub hstart⟩
    rw [State.mach_on, Mach.mboxDone, Mach.part_modPart, if_pos rfl]
    have hlt : 5 < p.abx.length := by rw [hlen]; decide
    simp only [List.getD_eq_getElem?_getD]
    rw [List.getElem?_set_self hlt]
    rfl
  · refine ⟨s.on _, ?_, rfl⟩
    rw [exec_fmLdInfo, execFmLdInfo, onMach]
    simp only [hlink, Bool.not_true, Bool.false_eq_true, if_false]
    rfl
  · refine ⟨s.on _, ?_, rfl⟩
    rw [exec_fmLdAllocation, execFmLdAllocation, onMach]
    simp only [hlink, Bool.not_true, Bool.false_eq_true, if_false]
    rfl
  · intro i op hi n h halign hroom hbad hmapped hregions old
    rw [exec_hostAtomic hi]
    obtain ⟨t, ht, hout, hhomes⟩ := hostAtomicOp_performs hlink hpart rfl op rfl rfl halign hroom hbad hmapped hregions
    have hperf := s.mach.homes.swapped_performed op (s.mach.arg 2 == 1) h (n := n) (by simp only [beq_iff_eq]; rfl) (s.mach.arg 3) (s.mach.arg 4)
    rw [← hhomes] at hperf
    exact ⟨t, ht, hout, hperf⟩
  · exact fun h hhome hbad => exec_hdmRead_answers hlink hpart rfl rfl rfl hhome hbad
  · exact fun hhome => exec_hdmRead_refused hlink hpart rfl hhome
  · intro bs h hhome hbad
    have hbytes : ((s.mach.ev.drop 2).map (fun b => b % 256)).map (BitVec.ofNat 8) = bs := by
      rw [List.map_map]
      exact List.map_congr_left fun b _ => BitVec.eq_of_toNat_eq (by simp)
    have hlen : ((s.mach.ev.drop 2).map (fun b => b % 256)).length = bs.length := by simp only [bs, List.length_map]
    obtain ⟨t, ht, b, hhomes⟩ := exec_hdmWrite_writes hlink hpart rfl rfl rfl (hlen ▸ hhome) hbad
    refine ⟨fun hnone => ⟨t, ht, ?_⟩, fun hone hregions => ⟨t, ht, ?_⟩⟩
    · rw [Mach.hostBytes_home hnone, hbytes] at hhomes
      have hbyte (x : Nat) : homeByte t.mach.homes x = homeByte (homeWrite s.mach.homes h bs) x := by rw [hhomes]; rfl
      refine ⟨?_, fun x hx => (hbyte x).trans (homeByte_homeWrite_outside hx)⟩
      rw [homeRead, List.map_congr_left fun i _ => hbyte (h + i)]
      exact homeRead_homeWrite ..
    · obtain ⟨x, hx⟩ := List.length_eq_one_iff.1 (hlen.trans hone)
      rw [hhomes, hx]
      show (s.mach.hostByte h x).homes.cells = _
      rw [Mach.hostByte_draft hregions x]

end Sys2Proof.Machine
